-- ==== Sys2Proof/Word.lean ====
section
/-! DEFINITION. The word types and their plainest arithmetic (R9, R43). -/

namespace Sys2Proof

/-- A byte, the unit of memory (R9). -/
abbrev Byte := BitVec 8

/-- An instruction word (R11). -/
abbrev W32 := BitVec 32

/-- A queue-register entry (R44). -/
abbrev W64 := BitVec 64

end Sys2Proof
end

