-- ==== Sys2Proof/Syntax.lean ====
section
/-! DEFINITION. The instruction syntax: one constructor for each row of the opcode table (R29 to R31 for the words;
the rows without a word are the steps of engines, scheduler, fabric, host path and service, whose fields are the
payload the step arrives with). -/

namespace Sys2Proof

/-- The four ring bits and the stop flag of a first word (R11). -/
structure Hdr where
  wp : Bool
  sp : Bool
  wn : Bool
  sn : Bool
  stop : Bool
deriving DecidableEq, Repr

/-- A control-register queue number, x0 to x31 (R44). -/
abbrev Reg := Fin 32

/-- One firmware image as the boot ROM or an earlier stage reads it (R384): its body, and its header's digest,
signature, public key and version. -/
structure BootImage where
  body : List Byte
  digest : List Byte
  signature : List Byte
  key : List Byte
  version : Nat
deriving DecidableEq, Repr

/-- One constructor for each row of the opcode table. -/
inductive Instr where
  /-- Adds registers A and B modulo 2^64 and pushes the sum into x(d) (R50). -/
  | add (h : Hdr) (d a b : Reg) (ka kb : Bool)
  /-- Subtracts B from A modulo 2^64 and pushes the result (R50). -/
  | sub (h : Hdr) (d a b : Reg) (ka kb : Bool)
  /-- Pushes the bitwise AND of A and B (R50). -/
  | and (h : Hdr) (d a b : Reg) (ka kb : Bool)
  /-- Pushes the bitwise OR of A and B (R50). -/
  | or (h : Hdr) (d a b : Reg) (ka kb : Bool)
  /-- Pushes the bitwise XOR of A and B (R50). -/
  | xor (h : Hdr) (d a b : Reg) (ka kb : Bool)
  /-- Pushes A AND NOT B (R50). -/
  | andn (h : Hdr) (d a b : Reg) (ka kb : Bool)
  /-- Pushes A shifted left by B[5:0] (R50). -/
  | sll (h : Hdr) (d a b : Reg) (ka kb : Bool)
  /-- Pushes A shifted right logically by B[5:0] (R50). -/
  | srl (h : Hdr) (d a b : Reg) (ka kb : Bool)
  /-- Pushes A shifted right arithmetically by B[5:0] (R50). -/
  | sra (h : Hdr) (d a b : Reg) (ka kb : Bool)
  /-- Pushes A rotated left by B[5:0] (R50). -/
  | rol (h : Hdr) (d a b : Reg) (ka kb : Bool)
  /-- Pushes the signed lesser of A and B (R50). -/
  | min (h : Hdr) (d a b : Reg) (ka kb : Bool)
  /-- Pushes the signed greater of A and B (R50). -/
  | max (h : Hdr) (d a b : Reg) (ka kb : Bool)
  /-- Pushes the unsigned lesser of A and B (R50). -/
  | minu (h : Hdr) (d a b : Reg) (ka kb : Bool)
  /-- Pushes the unsigned greater of A and B (R50). -/
  | maxu (h : Hdr) (d a b : Reg) (ka kb : Bool)
  /-- Pushes 1 if A is less than B as signed values, else 0 (R50). -/
  | slt (h : Hdr) (d a b : Reg) (ka kb : Bool)
  /-- Pushes 1 if A is less than B as unsigned values, else 0 (R50). -/
  | sltu (h : Hdr) (d a b : Reg) (ka kb : Bool)
  /-- Pushes bits [63:0] of A times B, landing after 4 ac (R50). -/
  | mul (h : Hdr) (d a b : Reg) (ka kb : Bool)
  /-- Pushes bits [127:64] of the signed product of A and B (R50). -/
  | mulh (h : Hdr) (d a b : Reg) (ka kb : Bool)
  /-- Pushes bits [127:64] of the unsigned product of A and B (R50). -/
  | mulhu (h : Hdr) (d a b : Reg) (ka kb : Bool)
  /-- Pushes the signed quotient truncated toward zero, with fixed results for a zero divisor and for overflow (R51). -/
  | div (h : Hdr) (d a b : Reg) (ka kb : Bool)
  /-- Pushes the unsigned quotient (R51). -/
  | divu (h : Hdr) (d a b : Reg) (ka kb : Bool)
  /-- Pushes the signed remainder, which takes the sign of the dividend (R51). -/
  | rem (h : Hdr) (d a b : Reg) (ka kb : Bool)
  /-- Pushes the unsigned remainder (R51). -/
  | remu (h : Hdr) (d a b : Reg) (ka kb : Bool)
  /-- Pushes the count of leading zeros of A (R50). -/
  | clz (h : Hdr) (d a : Reg) (ka : Bool)
  /-- Pushes the count of trailing zeros of A (R50). -/
  | ctz (h : Hdr) (d a : Reg) (ka : Bool)
  /-- Pushes the count of one bits of A (R50). -/
  | popc (h : Hdr) (d a : Reg) (ka : Bool)
  /-- Pushes A sign-extended from bit width B[5:0], where 0 means 64 (R50). -/
  | sext (h : Hdr) (d a b : Reg) (ka kb : Bool)
  /-- Pushes A zero-extended from bit width B[5:0], where 0 means 64 (R50). -/
  | zext (h : Hdr) (d a b : Reg) (ka kb : Bool)
  /-- Pushes B if A is non-zero, otherwise 0 (R50). -/
  | sel (h : Hdr) (d a b : Reg) (ka kb : Bool)
  /-- Adds the sign-extended imm10 to A and pushes the sum (R52). -/
  | addi (h : Hdr) (d a : Reg) (ka : Bool) (imm : BitVec 10)
  /-- Pushes A AND the sign-extended imm10 (R52). -/
  | andi (h : Hdr) (d a : Reg) (ka : Bool) (imm : BitVec 10)
  /-- Pushes A OR the sign-extended imm10 (R52). -/
  | ori (h : Hdr) (d a : Reg) (ka : Bool) (imm : BitVec 10)
  /-- Pushes A XOR the sign-extended imm10 (R52). -/
  | xori (h : Hdr) (d a : Reg) (ka : Bool) (imm : BitVec 10)
  /-- Pushes A shifted left by an immediate amount (R52). -/
  | slli (h : Hdr) (d a : Reg) (ka : Bool) (sh : BitVec 6)
  /-- Pushes A shifted right logically by an immediate amount (R52). -/
  | srli (h : Hdr) (d a : Reg) (ka : Bool) (sh : BitVec 6)
  /-- Pushes A shifted right arithmetically by an immediate amount (R52). -/
  | srai (h : Hdr) (d a : Reg) (ka : Bool) (sh : BitVec 6)
  /-- Pushes 1 if A is less than a signed 9-bit immediate, else 0 (R52). -/
  | slti (h : Hdr) (d a : Reg) (ka : Bool) (imm : BitVec 9)
  /-- Pushes 1 if A equals a signed 9-bit immediate, else 0 (R52). -/
  | seqi (h : Hdr) (d a : Reg) (ka : Bool) (imm : BitVec 9)
  /-- Pushes the sign-extended imm16 (R52). -/
  | li (h : Hdr) (d : Reg) (imm : BitVec 16)
  /-- Pushes a 64-bit literal built from imm16 and two TX words (R30). -/
  | lih (h : Hdr) (d : Reg) (hi : BitVec 16) (mid : BitVec 28) (lo : BitVec 20)
  /-- Pushes pc plus the sign-extended imm16 times 4 (R52). -/
  | apc (h : Hdr) (d : Reg) (imm : BitVec 16)
  /-- Pops A and B and branches by off8 words if they are equal (R53). -/
  | beq (h : Hdr) (a b : Reg) (off : BitVec 8)
  /-- Branches if A and B differ (R53). -/
  | bne (h : Hdr) (a b : Reg) (off : BitVec 8)
  /-- Branches if A is less than B, signed (R53). -/
  | blt (h : Hdr) (a b : Reg) (off : BitVec 8)
  /-- Branches if A is greater than or equal to B, signed (R53). -/
  | bge (h : Hdr) (a b : Reg) (off : BitVec 8)
  /-- Branches if A is less than B, unsigned (R53). -/
  | bltu (h : Hdr) (a b : Reg) (off : BitVec 8)
  /-- Branches if A is greater than or equal to B, unsigned (R53). -/
  | bgeu (h : Hdr) (a b : Reg) (off : BitVec 8)
  /-- Pops A and branches if it is zero (R53). -/
  | bz (h : Hdr) (a : Reg) (off : BitVec 8)
  /-- Pops A and branches if it is non-zero (R53). -/
  | bnz (h : Hdr) (a : Reg) (off : BitVec 8)
  /-- Jumps by the signed 28-bit word offset held in its TX word (R54). -/
  | br (h : Hdr) (off : BitVec 28)
  /-- Pushes pc + 8 into x(a) and jumps by the 28-bit offset held in its TX word (R54). -/
  | call (h : Hdr) (a : Reg) (off : BitVec 28)
  /-- Pops a target and jumps there, raising MISALIGNED if the target is not word-aligned (R54). -/
  | ret (h : Hdr) (a : Reg)
  /-- Pops a target and jumps there, as ret does (R54). -/
  | jr (h : Hdr) (a : Reg)
  /-- Arms hardware loop N with a trip count taken from a register, or skips the body when the count is zero (R55). -/
  | loop (h : Hdr) (n : Fin 4) (a : Reg) (ka : Bool) (len : BitVec 10)
  /-- Arms hardware loop N with a trip count taken from its TX word, or skips the body when the count is zero (R55). -/
  | loopi (h : Hdr) (n : Fin 4) (count : BitVec 16) (len : BitVec 10)
  /-- Adds A to semaphore N with saturation, after earlier stores are performed at core scope (R58). -/
  | semadd (h : Hdr) (n : Fin 16) (a : Reg) (ka : Bool)
  /-- Holds the control stream until semaphore N is at least A (R58). -/
  | semwt (h : Hdr) (n : Fin 16) (a : Reg) (ka : Bool)
  /-- Pushes the value of mailbox N (R59). -/
  | mbrd (h : Hdr) (d : Reg) (n : Fin 16)
  /-- Writes B into mailbox N of the partition that A names, after earlier stores are performed at device scope (R59). -/
  | mbwr (h : Hdr) (n : Fin 16) (a b : Reg) (ka kb : Bool)
  /-- Reads a doubleword, pushes it, and arms the partition's monitor on its line if the doubleword equals B (R60). -/
  | waitaddr (h : Hdr) (d a b : Reg) (ka kb : Bool)
  /-- Drains, then either continues because the monitor has fired or writes the continuation record and frees the partition (R61). -/
  | park (h : Hdr)
  /-- Drains, writes the record as ready at once, and places it at the tail of its level (R61). -/
  | yield (h : Hdr)
  /-- Drains, discards the queue registers, disarms loops and the monitor, and ends the record (R61). -/
  | done (h : Hdr)
  /-- Raises BREAK precisely, with a 15-bit code written into cr.tcause (R67). -/
  | trap (h : Hdr) (code : BitVec 15)
  /-- Resumes at cr.tpc and at the level held in cr.tpriv (R67). -/
  | tret (h : Hdr)
  /-- Pushes the value of a control register (R48). -/
  | crr (h : Hdr) (d : Reg) (crn : BitVec 10)
  /-- Writes a control register from register s at issue (R48). -/
  | crw (h : Hdr) (t : Reg) (crn : BitVec 10) (kt : Bool)
  /-- Holds until the quarter's governor grants leave of the class in A[1:0] (R68). -/
  | lvreq (h : Hdr) (a : Reg) (ka : Bool)
  /-- Releases the leave class in A[1:0] (R68). -/
  | lvrel (h : Hdr) (a : Reg) (ka : Bool)
  /-- Runs array self-test on the named unit and holds until the result lands (R71). -/
  | bist (h : Hdr) (d a : Reg) (ka : Bool)
  /-- Runs in-field logic scan on the named core (R71). -/
  | scan (h : Hdr) (d a : Reg) (ka : Bool)
  /-- Removes the oldest error record, writes it to memory, and pushes the number of records left (R72). -/
  | errrd (h : Hdr) (d a : Reg) (ka : Bool)
  /-- Sends a cancel for the job whose card lies at A and pushes the answer status (R70). -/
  | jcancel (h : Hdr) (d a : Reg) (ka : Bool)
  /-- Loads one byte, sign-extended (R75). -/
  | ldb (h : Hdr) (t a : Reg) (hint : BitVec 2) (off : BitVec 6)
  /-- Loads one byte, zero-extended (R75). -/
  | ldbu (h : Hdr) (t a : Reg) (hint : BitVec 2) (off : BitVec 6)
  /-- Loads a halfword, sign-extended (R75). -/
  | ldh (h : Hdr) (t a : Reg) (hint : BitVec 2) (off : BitVec 6)
  /-- Loads a halfword, zero-extended (R75). -/
  | ldhu (h : Hdr) (t a : Reg) (hint : BitVec 2) (off : BitVec 6)
  /-- Loads a word, sign-extended (R75). -/
  | ldw (h : Hdr) (t a : Reg) (hint : BitVec 2) (off : BitVec 6)
  /-- Loads a word, zero-extended (R75). -/
  | ldwu (h : Hdr) (t a : Reg) (hint : BitVec 2) (off : BitVec 6)
  /-- Loads a doubleword (R75). -/
  | ldd (h : Hdr) (t a : Reg) (hint : BitVec 2) (off : BitVec 6)
  /-- Stores one byte (R75). -/
  | stb (h : Hdr) (t a : Reg) (hint : BitVec 2) (off : BitVec 6)
  /-- Stores a halfword (R75). -/
  | sth (h : Hdr) (t a : Reg) (hint : BitVec 2) (off : BitVec 6)
  /-- Stores a word (R75). -/
  | stw (h : Hdr) (t a : Reg) (hint : BitVec 2) (off : BitVec 6)
  /-- Stores a doubleword (R75). -/
  | std (h : Hdr) (t a : Reg) (hint : BitVec 2) (off : BitVec 6)
  /-- Loads a doubleword with acquire order at the given scope (R78). -/
  | ldAcq (h : Hdr) (t a : Reg) (scope : BitVec 2)
  /-- Stores a doubleword with release order at the given scope (R78). -/
  | stRel (h : Hdr) (t a : Reg) (scope : BitVec 2)
  /-- Atomically adds the operand at the home and pushes the old value (R80). -/
  | amoadd (h : Hdr) (d a b : Reg) (ka kb : Bool)
  /-- Atomically ANDs the operand into memory and pushes the old value (R80). -/
  | amoand (h : Hdr) (d a b : Reg) (ka kb : Bool)
  /-- Atomically ORs the operand into memory and pushes the old value (R80). -/
  | amoor (h : Hdr) (d a b : Reg) (ka kb : Bool)
  /-- Atomically XORs the operand into memory and pushes the old value (R80). -/
  | amoxor (h : Hdr) (d a b : Reg) (ka kb : Bool)
  /-- Atomically writes the signed minimum and pushes the old value (R80). -/
  | amomin (h : Hdr) (d a b : Reg) (ka kb : Bool)
  /-- Atomically writes the signed maximum and pushes the old value (R80). -/
  | amomax (h : Hdr) (d a b : Reg) (ka kb : Bool)
  /-- Atomically writes the unsigned minimum and pushes the old value (R80). -/
  | amominu (h : Hdr) (d a b : Reg) (ka kb : Bool)
  /-- Atomically writes the unsigned maximum and pushes the old value (R80). -/
  | amomaxu (h : Hdr) (d a b : Reg) (ka kb : Bool)
  /-- Atomically swaps in the operand and pushes the old value (R80). -/
  | amoswap (h : Hdr) (d a b : Reg) (ka kb : Bool)
  /-- Atomically writes the new value if memory equals the compare value, and pushes the old value (R80). -/
  | amocas (h : Hdr) (d a b : Reg) (ka : Bool)
  /-- Atomically adds an FP32 operand with rne and pushes the old value (R81). -/
  | amofadd (h : Hdr) (d a b : Reg) (ka kb : Bool)
  /-- Atomically adds a BF16 operand with rne and pushes the old value (R81). -/
  | amobfadd (h : Hdr) (d a b : Reg) (ka kb : Bool)
  /-- Holds issue until every earlier queued access is performed at the given scope (R83). -/
  | fence (h : Hdr) (scope : BitVec 2)
  /-- Orders later accesses of both queues after earlier ones at the given scope, without holding issue (R84). -/
  | mark (h : Hdr) (scope : BitVec 2)
  /-- Writes back the dirty sectors of a range and keeps the copies valid (R85). -/
  | wb (h : Hdr) (a b : Reg) (ka kb : Bool)
  /-- Discards every cached copy of a range, dirty sectors included (R85). -/
  | inv (h : Hdr) (a b : Reg) (ka kb : Bool)
  /-- Writes back and then discards every cached copy of a range (R85). -/
  | wbinv (h : Hdr) (a b : Reg) (ka kb : Bool)
  /-- Prefetches a line into the owning quarter's memory-side cache and L2 with a hint (R85). -/
  | pf (h : Hdr) (hint : BitVec 2) (a : Reg) (ka : Bool)
  /-- Discards the copies of a range held in the core's read-only path (R85). -/
  | roinv (h : Hdr) (a b : Reg) (ka kb : Bool)
  /-- Loads through the read-only path (R79). -/
  | ldro (h : Hdr) (t a : Reg) (hint : BitVec 2) (size : BitVec 3) (off : BitVec 6)
  /-- Atomically initialises a byte barrier with expect := B at its home (R88). -/
  | bbinit (h : Hdr) (a b : Reg) (ka kb : Bool)
  /-- Atomically sets bb.expect and applies the phase test with an add of 0 (R88). -/
  | bbexp (h : Hdr) (a b : Reg) (ka kb : Bool)
  /-- Holds until the barrier's phase differs from B[31:0], then pushes the phase it saw (R88). -/
  | bbwait (h : Hdr) (d a b : Reg) (ka kb : Bool)
  /-- Holds until a slot of the circular buffer is filled, then pushes that slot's place (R101). -/
  | cbacq (h : Hdr) (d : Reg) (n : Fin 16)
  /-- Frees a held slot of the circular buffer, or raises QUEUE_UNDERFLOW when none is held (R101). -/
  | cbrel (h : Hdr) (n : Fin 16)
  /-- Multicasts a local block to a set of devices, with a barrier add at each target (R102). -/
  | fmst (h : Hdr) (l a b : Reg)
  /-- Appends a 64-byte record to a remote request queue and pushes the status (R103). -/
  | rqpost (h : Hdr) (d a b : Reg) (ka kb : Bool)
  /-- Builds a launch packet from a local card, writes it into a job-queue window, and pushes the acceptance status (R104). -/
  | lpost (h : Hdr) (d a b : Reg) (ka kb : Bool)
  /-- Makes 2 to 4 rival records with their own views and suspends the parent until its world ends (R194). -/
  | fork (h : Hdr) (d a b : Reg)
  /-- Drains, then commits the rival's view into its parent and kills the siblings, unless a sibling has already committed (R195). -/
  | choose (h : Hdr)
  /-- Discards the rival's view and outbox and ends its record (R196). -/
  | abandon (h : Hdr)
  /-- Pushes the world word: view identifier, depth and rival index (R197). -/
  | wid (h : Hdr) (d : Reg)
  /-- Copies a byte range between memory, scratchpad and a circular buffer, converting between banks of different types (R94). -/
  | cpy (h : Hdr) (a b : Reg) (ka : Bool) (src dst hint : BitVec 2) (len : BitVec 24)
  /-- Copies a two-dimensional block row by row (R96). -/
  | cpy2 (h : Hdr) (a b : Reg) (src dst : BitVec 2) (rows rowbytes : BitVec 14)
  /-- Gathers table rows by an index list (R97). -/
  | cpyg (h : Hdr) (a b : Reg) (isp dst : BitVec 2) (count : BitVec 12) (rowbytes : BitVec 16)
  /-- Fills an operand queue with 256-byte rows (R98). -/
  | oqld (h : Hdr) (a b : Reg) (kb : Bool) (src hint : BitVec 2) (rows : BitVec 16) (oq : Fin 8)
  /-- Copies rows from memory or scratchpad into the tile store (R99). -/
  | tsld (h : Hdr) (a b : Reg) (src hint : BitVec 2) (rows : BitVec 10) (rowbytes : BitVec 11)
  /-- Copies rows from the tile store to memory or scratchpad (R99). -/
  | tsst (h : Hdr) (a b : Reg) (ka : Bool) (dst hint : BitVec 2) (rows : BitVec 10) (rowbytes : BitVec 11)
  /-- Sets up a circular buffer's slots in a scratchpad bank (R100). -/
  | cbinit (h : Hdr) (a : Reg) (ka : Bool) (n : Fin 16) (size : BitVec 12) (slots : BitVec 8)
  /-- Sets the vector shape register's rows, cols and type (R109). -/
  | vshape (h : Hdr) (a b : Reg) (ka kb regRows regCols : Bool) (ty : BitVec 4) (cols1 : BitVec 6) (rows1 : BitVec 4)
  /-- Loads the shape's rows into a vector register from memory, scratchpad or an operand queue (R112). -/
  | vld (h : Hdr) (a b : Reg) (ka kb : Bool) (src : BitVec 2) (vd : Fin 16) (oq : Fin 8) (hint : BitVec 2)
  /-- Stores the shape's rows of a vector register and adds the bytes to a barrier (R113). -/
  | vst (h : Hdr) (a b : Reg) (ka : Bool) (dst : BitVec 2) (va : Fin 16) (hint : BitVec 2)
  /-- Fills the shape with a scalar's bit pattern (R114). -/
  | vbcastX (h : Hdr) (a : Reg) (ka : Bool) (vd : Fin 16)
  /-- Fills the shape with one row of a source register (R114). -/
  | vbcastRow (h : Hdr) (vd va : Fin 16) (n : BitVec 4)
  /-- Fills the shape with one lane column of a source register (R114). -/
  | vbcastCol (h : Hdr) (vd va : Fin 16) (n : BitVec 6)
  /-- Selects each lane from va or vb by whether vc's lane is non-zero (R115). -/
  | vsel (h : Hdr) (vd va vb vc : Fin 16)
  /-- Adds per lane in the shape's type (R116). -/
  | vadd (h : Hdr) (b : Reg) (kb sb sat : Bool) (vd va vb : Fin 16)
  /-- Subtracts per lane (R116). -/
  | vsub (h : Hdr) (b : Reg) (kb sb sat : Bool) (vd va vb : Fin 16)
  /-- Multiplies per lane (R116). -/
  | vmul (h : Hdr) (b : Reg) (kb sb sat : Bool) (vd va vb : Fin 16)
  /-- Computes a × b + c per lane with one rounding (R116). -/
  | vfma (h : Hdr) (b : Reg) (kb sb sat : Bool) (vd va vb vc : Fin 16)
  /-- Takes the greater per lane (R116). -/
  | vmax (h : Hdr) (b : Reg) (kb sb sat : Bool) (vd va vb : Fin 16)
  /-- Takes the lesser per lane (R116). -/
  | vmin (h : Hdr) (b : Reg) (kb sb sat : Bool) (vd va vb : Fin 16)
  /-- Takes the absolute value per lane (R116). -/
  | vabs (h : Hdr) (sat : Bool) (vd va : Fin 16)
  /-- Negates per lane (R116). -/
  | vneg (h : Hdr) (sat : Bool) (vd va : Fin 16)
  /-- Writes 1 or 0 per lane according to a comparison (R119). -/
  | vcmp (h : Hdr) (b : Reg) (kb sb sat : Bool) (vd va vb : Fin 16) (cond : BitVec 3)
  /-- Bitwise AND per lane (R120). -/
  | vand (h : Hdr) (b : Reg) (kb sb : Bool) (vd va vb : Fin 16)
  /-- Bitwise OR per lane (R120). -/
  | vor (h : Hdr) (b : Reg) (kb sb : Bool) (vd va vb : Fin 16)
  /-- Bitwise XOR per lane (R120). -/
  | vxor (h : Hdr) (b : Reg) (kb sb : Bool) (vd va vb : Fin 16)
  /-- Shifts each lane left (R120). -/
  | vshl (h : Hdr) (b : Reg) (kb sb : Bool) (vd va vb : Fin 16)
  /-- Shifts each lane right, arithmetically for signed types (R120). -/
  | vshr (h : Hdr) (b : Reg) (kb sb : Bool) (vd va vb : Fin 16)
  /-- Counts the one bits of each lane (R120). -/
  | vpopc (h : Hdr) (vd va : Fin 16)
  /-- Converts each lane from the shape's type to type D by a rounding mode (R121). -/
  | vcvt (h : Hdr) (a : Reg) (ka : Bool) (vd va : Fin 16) (ty : BitVec 4) (mode : BitVec 2)
  /-- Reduces rows or columns by sum, max, min, amax or amin (R122). -/
  | vred (h : Hdr) (axis sat : Bool) (vd va : Fin 16) (op : BitVec 3)
  /-- Applies table GELU per lane (R124). -/
  | vgelu (h : Hdr) (vd va : Fin 16) (ty : BitVec 4)
  /-- Applies table SiLU per lane (R124). -/
  | vsilu (h : Hdr) (vd va : Fin 16) (ty : BitVec 4)
  /-- Applies table softplus per lane (R124). -/
  | vsplus (h : Hdr) (vd va : Fin 16) (ty : BitVec 4)
  /-- Applies table tanh per lane (R124). -/
  | vtanh (h : Hdr) (vd va : Fin 16) (ty : BitVec 4)
  /-- Applies table sigmoid per lane (R124). -/
  | vsigm (h : Hdr) (vd va : Fin 16) (ty : BitVec 4)
  /-- Applies table exp per lane (R124). -/
  | vexp (h : Hdr) (vd va : Fin 16) (ty : BitVec 4)
  /-- Computes the reciprocal per lane on a reduced argument (R125). -/
  | vrcp (h : Hdr) (vd va : Fin 16) (ty : BitVec 4)
  /-- Computes the reciprocal square root per lane (R125). -/
  | vrsqrt (h : Hdr) (vd va : Fin 16) (ty : BitVec 4)
  /-- Loads 257 knots into a user table (R126). -/
  | vtblld (h : Hdr) (a : Reg) (ka : Bool) (src : BitVec 2) (n : Fin 4)
  /-- Applies a user table per lane (R126). -/
  | vtbl (h : Hdr) (vd va : Fin 16) (ty : BitVec 4) (n : Fin 4)
  /-- Converts each lane to an L16 code (R127). -/
  | vtolog (h : Hdr) (vd va : Fin 16)
  /-- Converts each L16 lane to a float type (R127). -/
  | vfrlog (h : Hdr) (vd va : Fin 16) (ty : BitVec 4)
  /-- Multiplies in the log domain (R128). -/
  | vladd (h : Hdr) (b : Reg) (kb : Bool) (cf : BitVec 2) (vd va vb : Fin 16)
  /-- Divides in the log domain (R128). -/
  | vlsub (h : Hdr) (b : Reg) (kb : Bool) (cf : BitVec 2) (vd va vb : Fin 16)
  /-- Takes the 2^n-th root in the log domain (R128). -/
  | vlshr (h : Hdr) (vd va : Fin 16) (n : BitVec 4)
  /-- Raises to an integer power in the log domain (R128). -/
  | vlmul (h : Hdr) (b : Reg) (kb : Bool) (vd va : Fin 16)
  /-- Computes Hamming distances between 256-bit sketches and a query (R129). -/
  | vhamm (h : Hdr) (vd va vb : Fin 16) (n : BitVec 4)
  /-- Merges candidates into a running top-k list (R130). -/
  | vtopk (h : Hdr) (desc : Bool) (vd va vb vc : Fin 16) (k1 : BitVec 6)
  /-- Tests ids against a bitmap (R131). -/
  | vfilt (h : Hdr) (a b : Reg) (ka kb : Bool) (src : BitVec 2) (vd va : Fin 16)
  /-- Intersects two ascending UINT32 streams in memory (R132). -/
  | vsect (h : Hdr) (a b : Reg) (hint : BitVec 2) (vd : Fin 16)
  /-- Coalesces duplicate ids (R133). -/
  | vuniq (h : Hdr) (vd va vc : Fin 16)
  /-- Buckets ids by owner and counts each bucket (R134). -/
  | vbkt (h : Hdr) (vd va vc : Fin 16) (nb1 : BitVec 6) (sft : BitVec 5)
  /-- Writes the level word and strides word of shadow nest level N (R148). -/
  | mcfgLevel (h : Hdr) (a b : Reg) (ka kb : Bool) (lvl : Fin 6)
  /-- Writes the shadow nest word (R148). -/
  | mcfgNest (h : Hdr) (a : Reg) (ka : Bool)
  /-- Loads a whole shape record into a shape register (R144). -/
  | mshp (h : Hdr) (a : Reg) (ka : Bool) (src : BitVec 2) (n : Fin 16)
  /-- Writes one field of a shape register (R145). -/
  | mshf (h : Hdr) (a : Reg) (ka : Bool) (n : Fin 16) (field : BitVec 5)
  /-- Checks and runs the shadow loop nest on the mangle, with its epilogues (R153). -/
  | mgo (h : Hdr)
  /-- Sets the partition's restart address to a label (R161). -/
  | mrst (h : Hdr) (off : BitVec 28)
  /-- Clears the partition's restart address (R161). -/
  | mrstNone (h : Hdr)
  /-- Clears an accumulator (R158). -/
  | maccClr (h : Hdr) (n : Fin 2)
  /-- Saves an accumulator to the tile store (R158). -/
  | maccSave (h : Hdr) (n : Fin 2) (row : BitVec 9) (half : Fin 2)
  /-- Loads an accumulator from the tile store (R158). -/
  | maccLoad (h : Hdr) (n : Fin 2) (row : BitVec 9) (half : Fin 2)
  /-- Sets the shadow epilogue's destination, epilogue word and barrier (R155). -/
  | mepi (h : Hdr) (a b : Reg) (ka kb : Bool) (dest : BitVec 2)
  /-- Binds a link tile queue as sender to a peer core's queue (R159). -/
  | mlqSend (h : Hdr) (a : Reg) (ka : Bool) (n m : Fin 16) (ty : BitVec 4)
  /-- Binds a link tile queue as receiver from a peer core's queue (R159). -/
  | mlqRecv (h : Hdr) (a : Reg) (ka : Bool) (n m : Fin 16) (ty : BitVec 4)
  /-- Unbinds a link tile queue and discards its tiles (R159). -/
  | mlqUnbind (h : Hdr) (n : Fin 16)
  /-- Pools bags of table rows, choosing the die or far path for each bag through the locality monitor (R176). -/
  | gpoolAuto (h : Hdr) (a b : Reg) (isp dst : BitVec 2) (ty : BitVec 4) (mean : Bool) (bags : BitVec 12)
  /-- Pools bags on the die path (R176). -/
  | gpoolDie (h : Hdr) (a b : Reg) (isp dst : BitVec 2) (ty : BitVec 4) (mean : Bool) (bags : BitVec 12)
  /-- Pools bags at the gleaner (R176). -/
  | gpoolFar (h : Hdr) (a b : Reg) (isp dst : BitVec 2) (ty : BitVec 4) (mean : Bool) (bags : BitVec 12)
  /-- Gathers and dequantises table rows by index (R179). -/
  | gdeq (h : Hdr) (a b : Reg) (isp dst : BitVec 2) (ty : BitVec 4) (count : BitVec 12)
  /-- Scans item sketches against query sketches and writes per-gleaner top-k lists (R180). -/
  | gscan (h : Hdr) (a b : Reg) (qsp dst : BitVec 2) (dmax : BitVec 9) (flt : Bool) (nq1 : BitVec 4) (k1 : BitVec 8)
  /-- Gathers rows by id for re-ranking (R179). -/
  | grank (h : Hdr) (a b : Reg) (isp dst : BitVec 2) (ty : BitVec 4) (count : BitVec 12)
  /-- Pins rows in the hot-row cache (R182). -/
  | hrpin (h : Hdr) (a b : Reg) (count : BitVec 16)
  /-- Unpins rows in the hot-row cache (R182). -/
  | hrfree (h : Hdr) (a b : Reg) (count : BitVec 16)
  /-- Coalesces a request and applies one optimiser update per distinct row through the Darner (R184). -/
  | dupd (h : Hdr) (a b : Reg) (isp gsp : BitVec 2) (ty : BitVec 4) (opt : BitVec 2) (count : BitVec 12)
  /-- Applies a Darner update in key order of its stream when ordered mode is on (R186). -/
  | dord (h : Hdr) (a b : Reg) (isp gsp : BitVec 2) (ty : BitVec 4) (opt : BitVec 2) (count : BitVec 12)
  /-- Buckets ids and sends each owner its bucket with a barrier add (R188). -/
  | xall (h : Hdr) (a b : Reg) (kb : Bool) (isp : BitVec 2) (nb1 : BitVec 6) (sft : BitVec 5) (count : BitVec 12)
  /-- Streams weight records through the decompressor into the weight buffer (R190). -/
  | wload (h : Hdr) (a b : Reg) (ka kb : Bool) (tiles : BitVec 16) (ty : BitVec 4) (kind : BitVec 2)
  /-- Loads codebook tables into the core's decompressor (R189). -/
  | wtbl (h : Hdr) (a b : Reg) (ka kb : Bool) (src : BitVec 2) (ty : BitVec 4) (n1 first : BitVec 6)
  /-- A crw to cr.msways with op 0 writes back and stops allocation in the top n ways of the memory-side cache (R290). -/
  | mswaysDrain (q ways : Nat)
  /-- A crw to cr.msways with op 1 lends the top n ways as scratchpad, or is refused with WAYS_DIRTY (R290). -/
  | mswaysConvert (q ways : Nat)
  /-- An engine starts the next queued command of a partition once the previous one allows it (R12). -/
  | commandStart (p cq : Nat)
  /-- A command completes once its writes are performed, makes its barrier add, and posts its tokens (R93). -/
  | commandComplete (p cq id : Nat)
  /-- The mangle completes one step of the nest and takes its boundary action (R149). -/
  | nestStep (c : Nat)
  /-- The epilogue scales, activates and writes a finished accumulator tile, then clears it (R156). -/
  | epilogue (c : Nat)
  /-- An exposed register write lands a fixed number of ac after issue and joins its queue (R45). -/
  | registerWriteLanding (p : Nat)
  /-- The value of a load, atomic or other interlocked access lands in its register (R75). -/
  | loadValueReturn (p seq : Nat)
  /-- A word held at issue issues once its hold ends (R47). -/
  | heldWordResume (c : Nat)
  /-- The unflagged count at 63 stops an unflagged word, which takes STOP_SPACING (R20). -/
  | stopSpacing (p : Nat)
  /-- The oldest pending trap is taken before a flagged, holding or dependent word (R369). -/
  | pendingTrapDelivery (p : Nat)
  /-- A job queue takes a 160-byte packet at its window and checks it (R207). -/
  | launchPacket (va src tag : Nat) (bytes : List Byte)
  /-- A packet held for a full job table is accepted once an entry frees (R208). -/
  | launchAccept (q : Nat)
  /-- A ready job dispatches with its first hand-out, repeating the channel check (R224). -/
  | jobDispatch (q job : Nat)
  /-- The walker hands out the next iteration into a free partition with a record-pool slot (R212). -/
  | iterationHandout (q : Nat)
  /-- A free partition picks up a ready continuation record (R215). -/
  | recordPickup (q : Nat)
  /-- An entry that has waited sched.age microseconds moves up one level (R217). -/
  | schedAge (q : Nat)
  /-- A resident partition without the issue for 79,744 ac becomes due (R220). -/
  | fairnessDue (p : Nat)
  /-- A due partition's 256-ac window ends and the issue passes (R220). -/
  | fairnessWindowEnd (p : Nat)
  /-- The issue passes between resident partitions at a flagged word or at a suspension (R219). -/
  | issuePass (c : Nat)
  /-- Another partition takes the mangle and discards the holder's matrix work (R163). -/
  | mangleTake (p : Nat)
  /-- The hold timer reaches sched.wdlim, increments sched.wdcnt and latches the unit and pc (R231). -/
  | watchdogExpiry (p : Nat)
  /-- Once all records and pushed commands are done, the job writes its status and makes its completion add (R227). -/
  | jobComplete (q job : Nat)
  /-- A cancel reaches a job's queue and is answered CANCELLED, LATE or ACCESS_DENIED (R229). -/
  | cancelRequest (src tag job : Nat)
  /-- A whole tile arrives at a bound receiving link tile queue (R160). -/
  | linkTileArrival (c n : Nat) (codes scales : List Nat)
  /-- A credit packet returns a released slot to the sender (R321). -/
  | ltqCredit (c n : Nat)
  /-- A bind packet reaches a peer core and may complete the binding with four credits (R321). -/
  | ltqBindPacket (c n dev pc pn ty : Nat) (send : Bool)
  /-- A push or pop held for ltq.timeout raises LINK_DOWN and fails the queue (R322). -/
  | ltqTimeout (c n : Nat)
  /-- A router forwards a unicast packet on a local or global port (R311). -/
  | routePacket (adapt : Option Nat)
  /-- A router delivers and forwards a multicast copy by stage (R320). -/
  | multicastForward (src agent : Nat) (sq : List (Nat × Nat)) (stage : Nat) (groups : List Nat) (members va bar : Nat) (bytes : List Byte)
  /-- A write arriving from another device is performed at device scope in sequence order (R254). -/
  | fabricWriteArrival (src agent sq va : Nat) (bytes : List Byte)
  /-- An acknowledgement returns to the issuing core and makes the write performed at fabric scope (R254). -/
  | fabricAck (sq : Nat) (lost : Bool)
  /-- A remote atomic is performed at the owner's home and answered with its old value (R246). -/
  | fabricAtomicArrival (src agent sq va op : Nat) (x y : W64)
  /-- An answering write, such as an old value or a status, lands at the issuer (R82). -/
  | fabricAnswerWrite (sq : Nat) (lost : Bool) (val : W64)
  /-- A remote monitor request reads and arms at the owner's home and answers with the value (R247). -/
  | monitorRequestArrival (src tag va : Nat) (expv : W64)
  /-- A wake write from the owner fires a remote monitor (R247). -/
  | wakeWrite (tag : Nat)
  /-- A request record is appended to its ring, or held while the ring is full (R318). -/
  | requestRecordArrival (src tag va : Nat) (bytes : List Byte)
  /-- A barrier-add packet from another device is performed at the barrier's home (R315). -/
  | remoteBarrierAdd (src agent sq va cnt : Nat)
  /-- An arriving Ethernet RMA write is placed in its receive entry, followed by a barrier add (R327). -/
  | ethRmaWrite (entry off : Nat) (bytes : List Byte) (feature : Nat)
  /-- An arriving untagged send takes the lowest armed receive entry, which then disarms (R328). -/
  | ethUntaggedSend (bytes : List Byte) (feature : Nat)
  /-- The far device's delivery acknowledgement lets xall make its local add (R326). -/
  | ethDeliveryAck (sq : Nat)
  /-- The host die reads over UCIe, after every earlier write it sent (R386). -/
  | hostRead (va len : Nat)
  /-- The host die writes over UCIe, translated in ucie.asid (R386). -/
  | hostWrite (va : Nat) (bytes : List Byte)
  /-- A fault record is appended to the fault queue, waiting for room if the queue is full (R371). -/
  | faultQueueAppend
  /-- A write to fq.pop removes the oldest fault record (R372). -/
  | fqPop
  /-- A write of a job-table entry address to fq.end ends that job (R372). -/
  | fqEnd (job : Nat)
  /-- A write to er.pop removes the oldest error record (R373). -/
  | erPop
  /-- A write to tr.inval starts a TLB invalidation and makes held accesses and side logs retry (R288). -/
  | trInvalWrite (q : Nat) (v : W64)
  /-- The invalidation ends and its busy bit clears (R288). -/
  | trInvalDone (q : Nat)
  /-- A write to sk.clr zeroes one slot's sketch counters on every gleaner of the quarter (R296). -/
  | skClrWrite (q : Nat) (v : W64)
  /-- After sk.period adds to a slot, every counter of that slot halves (R296). -/
  | sketchHalve (q slot : Nat)
  /-- A write to hr.cfg is accepted and stops new table commands from starting (R294). -/
  | hrCfgWrite (q : Nat) (v : W64)
  /-- Once the quarter's table commands are done, the new pools take effect and every row is discarded (R294). -/
  | hrCfgTakeEffect (q : Nat)
  /-- A write to a channel-map entry remaps, narrows or retires a channel, or clears chm.chg (R292). -/
  | chmWrite (q slot ch : Nat) (v : W64)
  /-- A write of 1 to mig.go starts migrating a page line by line (R302). -/
  | migGo (q : Nat)
  /-- The migration rewrites the leaf entry, removes the page's translations, and ends (R302). -/
  | migrationDone (q : Nat)
  /-- A write to wv.quota sets a view's quota and makes every side log retry (R343). -/
  | wvQuotaWrite (v : W64)
  /-- Once its tagged lines are gone, an ended view's identifier returns to the pool (R337). -/
  | viewFree (view : Nat)
  /-- A write to op.sel starts applying an operating-mode set and holds dispatch (R382). -/
  | opSelWrite (v : W64)
  /-- Once no record is live, the set's hot-row, ways, profile and modes take effect and busy clears (R382). -/
  | opmodeApply
  /-- The governor grants a waiting leave request within the profile's limit (R381). -/
  | leaveGrant (q cls : Nat)
  /-- A self-test or scan ends, its records are appended, and the result lands (R362). -/
  | testResult (p : Nat) (fails : List W64)
  /-- A corrected memory sector increments the counters and may append a predictive record (R376). -/
  | memoryCorrectedError (pa bank row : Nat)
  /-- An on-die array corrects a soft error in use and appends a kind 0x05 record (R377). -/
  | arraySoftError (unit : Nat) (detail : W64)
  /-- A link's state changes and one record is appended (R332). -/
  | linkStateChange (kind link st lanes : Nat)
  /-- A corrected flit increments lk.corr, which may reach lk.thr and append a predictive record (R331). -/
  | linkFecCorrection (kind link : Nat)
  /-- Power-on reset resets every register and discards every record, queue and log (R383). -/
  | powerOnReset
  /-- The host die writes rst.ctl to reset the device, keeping memory if bit 1 is set (R383). -/
  | rstCtlWrite (v : W64)
  /-- The boot ROM and each stage verify the next image, extend the measurement, and release the device or hold it in reset (R384). -/
  | boot (images : List BootImage)
  /-- A write to at.go asks Adeun for a signed attestation report (R385). -/
  | atGoWrite (v : W64)
  /-- Adeun writes the 256-byte report and sets at.go[1] (R385). -/
  | attestReportDone
  /-- A replay hold lasting rp.limit ends the job as a divergence (R380). -/
  | replayHoldLimit (p : Nat)
  /-- A write to a management register that has no behaviour of its own sets it, or clears its W1C bits (R389). -/
  | registerWrite (q off : Nat) (v : W64)
  /-- A link resends a flit by link-level retry, which increments lk.retry (R331). -/
  | linkLevelRetry (kind link : Nat)
  /-- The clearing of a sketch slot on every gleaner of the quarter ends and sk.clr.busy returns to 0 (R296). -/
  | skClrDone (q : Nat)
  /-- A drain or convert of cr.msways ends, sets cr.msways.st, and releases the held crw and the next queued write (R290). -/
  | mswaysOperationEnd (q : Nat)
deriving DecidableEq, Repr

end Sys2Proof
end

