-- ==== Sys2Proof/Config.lean ====
section
/-! DEFINITION. What is fixed for one device (its number, R5; its fuses, R384), and the values the manual leaves open, as
constants without a body: nothing can be proved of their value. -/

namespace Sys2Proof.Config

/-- The device's own number, fixed by configuration (R5): a member of the load-store domain. -/
def device : Nat := 0

/-- FREE VALUE: the SHA-512 digest that R384 and R385 name; the manual gives no definition of the function. -/
opaque sha512 : List Byte → List Byte

/-- FREE VALUE: whether an Ed25519 signature verifies: key, message, signature (R384). -/
opaque ed25519Verify : List Byte → List Byte → List Byte → Bool

/-- FREE VALUE: an Ed25519 signature made with the device's attestation key (R385). -/
opaque ed25519Sign : List Byte → List Byte

/-- FREE VALUE: the fused digest of the signing key (R384). -/
opaque fusedKeyDigest : List Byte

/-- FREE VALUE: the fused version counter (R384). -/
opaque fusedVersion : Nat

/-- FREE VALUE: whether memory cannot be initialised after a reset (R384): the number of the reset. -/
opaque memoryFails : Nat → Bool

/-- FREE VALUE: the part number and fused identity of the device, the versions of every stage, as R385 reports them. -/
opaque identity : List Byte

/-- FREE VALUE: the versions of every firmware stage, in the form R385 reports them. -/
opaque stageVersions : List Byte

/-- FREE VALUE: the way of the memory-side cache that holds a line, which no rule fixes (R290): a draw number and the line. -/
opaque wayOf : Nat → Nat → Nat

/-- FREE VALUE: a byte that a load of host-die memory returns (R5, R74): a draw number and the address. -/
opaque hostByte : Nat → Nat → Byte

/-- FREE VALUE: the L2 slice to which a line's address hashes (R238); no rule gives the function. -/
opaque sliceOf : Nat → Nat

/-- FREE VALUE: the channel of a stack that holds a physical address of HBM (R375, R376); no rule gives its place in the address. -/
opaque hbmChannel : Nat → Nat

/-- FREE VALUE: the bank that holds a physical address of LPDDR6 (R375, R376); no rule gives its place in the address. -/
opaque lpBank : Nat → Nat

/-- FREE VALUE: to which ended binding of its queue a tile that arrives was sent, while such tiles may be under way, or to the one that stands
(R159): a draw number. -/
opaque oldTile : Nat → Nat

/-- FREE VALUE: the eye margin that a lane shows when its link comes up (R331): a draw number, kind of link, link, lane. -/
opaque eyeMargin : Nat → Nat → Nat → Nat → Nat

/-- FREE VALUE: what the transport of R325 returns to a sender, nothing where it requires no answer: a draw number, and 0 for the delivery
acknowledgement of a message, 1 for an unsupported feature, 2 for a truncated message, 3 for a send without a receive buffer. -/
opaque ethAnswer : Nat → Nat → List Byte

end Sys2Proof.Config
end

