-- ==== Sys2Proof/Machine/State.lean ====
section
/-! DEFINITION. The state of one Norxis A7 (R1): device, quarters, cores, partitions. Plain data. What a device holds in
large numbers is held sparsely: a list of numbered entries, where a number not listed is at its reset value. -/

namespace Sys2Proof.Machine

/-- A sparse array: numbered entries, at most one for each number. -/
abbrev FMap (α : Type) := List (Nat × α)

/-- Why a step stops. No rule of the manual stops the device: every fault it describes is a trap, a hold, a queued fault
record or an error record, all of which are next states. -/
inductive Fault where
  /-- The device is held in reset because an image failed its check (R384), and nothing is asked of it.
  Raised by `step`. Safe: the manual says the device stays in reset. -/
  | heldInReset
deriving DecidableEq, Repr

/-- Why a step gives no meaning. -/
inductive Refusal where
  /-- The instruction has no meaning yet. Raised by `exec`. Safe. -/
  | notModelled (mnemonic : String)
deriving DecidableEq, Repr

/-- The five agents of a partition that make accesses (R237): the control stream, the F, V and M engines, and the three
table queues. -/
inductive Agent where
  | control | fetch | vector | matrix | gleaner | darner | exchange
deriving DecidableEq, Repr

/-- Whose access it is: partition, agent, address space, view, and the job it belongs to (0 for none). `home` is a quarter for an
access that is made at that quarter's homes and passes no L1 data cache (R237, R252). -/
structure Ctx where
  part : Nat
  agent : Agent
  asid : Nat
  view : Nat
  job : Nat
  home : Option Nat := none
deriving DecidableEq, Repr

/-- The arithmetic of an atomic (R80, R81, table of minors). -/
inductive AtomicOp where
  | add | and | or | xor | min | max | minu | maxu | swap | cas | fadd | bfadd
deriving DecidableEq, Repr

/-- A write as it stands at a home or in a side log (R73, R300). -/
inductive WriteOp where
  /-- A store or an engine write of these bytes. -/
  | bytes (bs : List Byte)
  /-- An atomic with its operand and its new value (for `amocas`); the old value answers register write `seq`. -/
  | atomic (op : AtomicOp) (x y : W64)
  /-- `bbinit` with its expect value (R88). -/
  | bbInit (expect : W64)
  /-- `bbexp` with its expect value (R88). -/
  | bbExp (expect : W64)
  /-- A barrier add of `n` bytes (R87). -/
  | barrierAdd (n : Nat)
  /-- Maintenance of `n` bytes: 0 `wb`, 1 `inv`, 2 `wbinv`, 3 `roinv` (R85). -/
  | maintain (kind n : Nat)
deriving DecidableEq, Repr

/-- A load as it waits for its value (R75, R77): place, bytes, extension, the read-only path, the number of the last retry
signal it has seen (R372), the `mark` it stands behind (R84; 0 for none), and for
`waitaddr` the value that arms the monitor (R60), whether it is an acquire (R78, R60). `seen` is 0 before the first try, and 1 more than the signal's number after. -/
structure LoadReq where
  va : Nat
  bytes : Nat
  signed : Bool
  readOnly : Bool
  hint : Nat
  seen : Nat
  gate : Nat
  watch : Option W64
  acq : Bool := false
deriving DecidableEq, Repr

/-- The value of a register write in flight (R45). -/
inductive FlightVal where
  /-- An exposed write: it lands at this ac. -/
  | exposed (landing : Nat) (v : W64)
  /-- An interlocked write whose value is bound and has not returned. -/
  | ready (v : W64)
  /-- An interlocked write that has returned: it lands at this ac (R46). -/
  | landing (ac : Nat) (v : W64)
  /-- A load whose place has no valid mapping yet. -/
  | load (r : LoadReq)
  /-- The answer of another unit or device is awaited. -/
  | answer
deriving DecidableEq, Repr

/-- A register write in flight: the word that made it and the queue it joins (0 to 31; 32 to 39 are the supervisor bank's
x24 to x31, R44). -/
structure Flight where
  seq : Nat
  reg : Nat
  val : FlightVal
deriving DecidableEq, Repr

/-- A token post that waits for its word to be complete, or for room (R15, R16): word, stream 0 to 3 (C, F, V, M), SP, SN. -/
structure TokenPost where
  seq : Nat
  stream : Nat
  sp : Bool
  sn : Bool
deriving DecidableEq, Repr

/-- A hardware loop (R55). `order` says which loop was armed later. -/
structure Loop where
  armed : Bool := false
  count : Nat := 0
  start : Nat := 0
  stop : Nat := 0
  level : Nat := 0
  order : Nat := 0
deriving DecidableEq, Repr

/-- The address monitor of a partition (R60). -/
inductive MonitorState where
  | off
  /-- Armed at a home of this device, under this monitor number. -/
  | armed (id : Nat)
  /-- Armed at another device, under this request number (R247). -/
  | armedRemote (tag : Nat)
  | fired
deriving DecidableEq, Repr

/-- A circular buffer (R100). -/
structure Circ where
  slots : Nat := 0
  size : Nat := 0
  base : Nat := 0
  free : Nat := 0
  filled : Nat := 0
  held : Nat := 0
  tail : Nat := 0
  head : Nat := 0
deriving DecidableEq, Repr

/-- A command as it was pushed (R13): its number, its words, the register values read, and what it inherits from the record
that pushed it. `ord` counts the record's gleaner commands (R378). -/
structure Cmd where
  id : Nat
  instr : Instr
  vals : List W64
  pc : Nat
  word0 : Nat
  word1 : Nat
  seed : W64
  workid : W64
  ctx : Ctx
  record : Nat
  held : List (List Byte) := []
  ord : Nat := 0
deriving DecidableEq, Repr

/-- How far a started command is. -/
inductive RunState where
  /-- Holds on a page without a valid mapping; the retry signal last seen (R93, R372). -/
  | held (seen : Nat)
  /-- Holds for a resource of the core or partition, or for leave; tried again at any time. -/
  | waiting
  /-- Stands between two of its rows or element pairs, where it can pause (R93, R136). -/
  | row
  /-- Paused there while its partition is pre-empted; its engine is free for others (R93, R136). -/
  | paused
  /-- A nest that runs on the mangle (R153). -/
  | nest
  /-- Its own work is done; it completes once its writes are performed (R93). -/
  | done
  /-- Complete but for its token posts, which find a full queue (R16). -/
  | posting
deriving DecidableEq, Repr

/-- A started command: what its barrier add will count, and its state. `tookLeave` says that it holds leave of its own, `lost` that a
write of it was lost (R313), `added` that its barrier add is made; `step`,
`rows` and `marks` are what it has done so far where it moves row by row (R96, R98, R112, R132, R136), `formats` the bank formats that it
found when it started (R91). -/
structure Run where
  cmd : Cmd
  count : Nat
  state : RunState
  tookLeave : Bool
  lost : Bool
  added : Bool
  step : Nat
  rows : List (List Byte)
  marks : List Nat := []
  formats : FMap W64 := []
deriving DecidableEq, Repr

/-- A command queue of a partition and the engine behind it (R13). -/
structure CmdQueue where
  queued : List Cmd := []
  running : List Run := []
  frozen : Bool := false
deriving DecidableEq, Repr

/-- A pending trap (R368): cause, the queue it froze (6 for none), what its trap record says, and for a late control access
the register write that was cancelled. -/
structure PendingTrap where
  cause : Nat
  queue : Nat
  src : Nat
  pc : Nat
  word0 : Nat
  word1 : Nat
  addr : W64
  seq : Nat
  reg : Nat
deriving DecidableEq, Repr

/-- A trap that is entered; a precise one waits for register writes in flight to land (R65 step 1). `queue` is the queue that a delivered trap froze, 6
for none (R369). -/
structure TrapEntry where
  cause : Nat
  code : Nat
  src : Nat
  pc : Nat
  tpc : Nat
  word0 : Nat
  word1 : Nat
  addr : W64
  queue : Nat := 6
deriving DecidableEq, Repr

/-- An operation that an outbox holds (R350): its size and how to perform it. -/
inductive OutItem where
  | store (va : Nat) (bs : List Byte)
  | fmst (va bar : Nat) (route groups : W64) (bs : List Byte)
  | rqpost (va : Nat) (bs : List Byte)
  | lpost (va : Nat) (bs : List Byte)
  | darner (cmd : Cmd) (idx grads params : List Byte)
deriving DecidableEq, Repr

/-- An entry of an outbox (R350, R351): its operation, the word that made it, the `mark` it stands behind and, for a release, 1 more than its
scope, as in a store queue. -/
structure OutEntry where
  item : OutItem
  seq : Nat := 0
  gate : Nat := 0
  rel : Nat := 0
deriving DecidableEq, Repr

/-- What stands in a store queue (R73): a fabric post without its bytes, with the source and length of its local read and the last
retry signal seen; or a write with its place, hint, access code and the register its old value goes to. -/
inductive StoreItem where
  | post (item : OutItem) (src len seen : Nat)
  | write (va : Nat) (op : WriteOp) (hint acc : Nat) (reg : Option Nat)
deriving DecidableEq, Repr

/-- An entry of a store queue that waits (R73): whose it is, its word, the `mark` it stands behind (R84; 0 for none), for a release its scope
and 0 else (R78; 1 more than the scope's code). -/
structure StoreWait where
  ctx : Ctx
  seq : Nat
  gate : Nat
  rel : Nat
  item : StoreItem
deriving DecidableEq, Repr

/-- The record a partition holds (R213, R216): its key (address space * 2^64 + address), its job, its level, whether it is a
rival's, and the number of this stay in the partition. -/
structure Resident where
  addr : Nat
  job : Nat
  view : Nat
  level : Nat
  base : Nat
  rival : Bool
  ordinal : Nat
  stay : Nat
  gleaned : Nat := 0
deriving DecidableEq, Repr

/-- A partition (R1): everything that stays with it while it is pre-empted. `holdSince` is the ac at which its hold timer last
read 0; while it does not hold the issue, what the timer reads (R231). `picking` is the record that it holds for, with its level, while the
record's bytes cannot be read (R392). `testHeld` says that it holds at a `bist` or `scan` (R361), `testDone` is the result of a self-test, with
the ac from which it stands (R362). `replayAt` says since when a word holds in a replay, and for which address (R380); `probe` is its last question to
another device, with the answer. `words` keeps, of
each word with an access that may fail after issue, what its trap record says: pc and first word (R370). `resumeQueues` names, for each trap entered and not
returned from, the latest first, the queue that its `tret` resumes (R369; 6 for none). -/
structure Part where
  resident : Option Resident := none
  picking : Option (Nat × Nat) := none
  pc : W64 := 0
  priv : Nat := 0
  regs : FMap (List W64) := []
  flights : List Flight := []
  unflagged : Nat := 0
  loops : FMap Loop := []
  carry : FMap W64 := []
  cont : W64 := 0
  workid : W64 := 0
  asid : Nat := 0
  stopbad : Nat := 0
  leave : Nat := 0
  seed : W64 := 0
  tvec : W64 := 0
  trec : W64 := 0
  tpc : W64 := 0
  tcause : W64 := 0
  tpriv : Nat := 0
  sems : FMap Int := []
  mailboxes : FMap W64 := []
  tokens : FMap Nat := []
  posts : List TokenPost := []
  queues : FMap CmdQueue := []
  monitor : MonitorState := .off
  vregs : FMap (BitVec 32) := []
  shapeRows : Nat := 16
  shapeCols : Nat := 64
  shapeType : Nat := 0
  tables : FMap Int := []
  operandQueues : FMap (List (List Byte)) := []
  circs : FMap Circ := []
  shapes : FMap (BitVec 512) := []
  nestLevels : FMap W64 := []
  nestStrides : FMap W64 := []
  nestWord : W64 := 0x1000000
  epiDest : Nat := 3
  epiWord : W64 := 0
  epiBarrier : W64 := 0
  restart : W64 := 0
  lostMangle : Bool := false
  restarting : Bool := false
  preempted : Bool := false
  pending : List PendingTrap := []
  entering : Option TrapEntry := none
  resumeQueues : List Nat := []
  fetchSeen : Option Nat := none
  leaveWait : Option Nat := none
  holding : Bool := false
  stuck : Bool := false
  atHandler : Bool := false
  flagIgnored : Bool := false
  holdSince : Nat := 0
  issueLost : Nat := 0
  due : Bool := false
  windowEnd : Nat := 0
  answers : FMap W64 := []
  words : FMap (Nat × Nat) := []
  replayAt : Option (Nat × Nat) := none
  probe : Option (Nat × Option W64) := none
  mark : Nat := 0
  stores : List StoreWait := []
  reserved : List Nat := []
  ords : FMap (Nat × Nat) := []
  waitSeen : Nat := 0
  msDone : Bool := false
  testLeave : Bool := false
  testHeld : Bool := false
  testDone : Option (Nat × W64) := none
  mbWritten : FMap (Nat × W64) := []
deriving DecidableEq, Repr

/-- Half of a tile (R150): 128 rows of 64 codes of one element type, and for FP4 eight block scales a row. What is not listed is
code 0. -/
structure HalfTile where
  ty : Nat
  rows : List (List Nat)
  scales : List (List Nat)
deriving DecidableEq, Repr

/-- A link tile queue (R159, R160, R321). `offers` holds the bindings that other queues have announced to this one by bind packets: device,
core, queue, type, whether it sends. `sent` holds the packets that may be under way from it, as first number and count: those of a bind and of four
tiles or credits (R313, R323). `stale` says how many tiles may still be under way to each receiving binding that has ended, with the device, core and
queue of its peer (R159). -/
structure LinkQueue where
  bound : Bool := false
  send : Bool := false
  ty : Nat := 0
  peerDev : Nat := 0
  peerCore : Nat := 0
  peerQueue : Nat := 0
  paired : Bool := false
  credits : Nat := 0
  tiles : List (List HalfTile) := []
  halfUsed : Nat := 0
  failed : Bool := false
  heldSince : Option Nat := none
  offers : List (Nat × Nat × Nat × Nat × Bool) := []
  sent : List (Nat × Nat) := []
  stale : List ((Nat × Nat × Nat) × Nat) := []
deriving DecidableEq, Repr

/-- The nest that runs on a core's mangle (R153): the command, what it latched, the steps done, the accumulator in use, and the
half-tiles it has released (R150). `hold` is an action 2 or 3 that waits for the epilogue unit; `leave` says that it runs under
a grant of its own; `ended` says that no steps remain. -/
structure Nest where
  cmd : Cmd
  levels : List Nat
  strides : List Nat
  word : Nat
  shapeA : Nat
  shapeB : Nat
  shapeD : Nat
  epiDest : Nat
  epiWord : Nat
  epiBarrier : Nat
  formats : FMap W64
  ints : Bool
  leave : Bool
  steps : Nat
  cur : Nat
  releasedA : Nat
  releasedB : Nat
  hold : Option Nat
  ended : Bool
deriving DecidableEq, Repr

/-- An epilogue that has started (R156): the accumulator it reads, the C tile index, the nest it belongs to, and the retry signal
last seen when a band plane's page had no valid mapping. -/
structure Epi where
  acc : Nat
  tile : Nat
  nest : Nest
  seen : Option Nat
deriving DecidableEq, Repr

/-- A barrier add of an epilogue that waits for its writes (R157): the nest's command, the number its writes carry, the bytes, and
whether a write was lost (R313). -/
structure EpiAdd where
  cmd : Cmd
  bar : Nat
  id : Nat
  count : Nat
  lost : Bool
deriving DecidableEq, Repr

/-- An entry of a side log (R300): its write, where, for whom; the word or command it belongs to; the `mark` and the release it stands
behind, as in a store queue; its slot of the spill area. `seen` is 0, or 1 more than the retry signal last seen when it failed (R300). -/
structure SideEntry where
  ctx : Ctx
  va : Nat
  op : WriteOp
  hint : Nat
  seq : Nat
  reg : Option Nat
  kind : Nat
  seen : Nat
  cont : Bool
  gate : Nat := 0
  rel : Nat := 0
  slot : Nat := 0
deriving DecidableEq, Repr

/-- A copy that a read-only path holds of a sector (R252): its bytes, the recorded hint, when it was last used (R76). -/
structure RoCopy where
  bytes : List Byte
  hint : Nat
  used : Nat
deriving DecidableEq, Repr

/-- A core (R1). `testing` is the test that runs on one of its units: unit, partition of the word (768 once its record has ended), sub-block, last
ac (R361, R362). -/
structure Core where
  issue : Option Nat := none
  nextIssue : Nat := 0
  scratch : FMap Byte := []
  tile : FMap Byte := []
  formats : FMap W64 := []
  slbase : W64 := 0
  sideLog : List SideEntry := []
  sideHeld : List SideEntry := []
  acc : FMap (List (BitVec 32)) := []
  nest : Option Nest := none
  epi : Option Epi := none
  epiAdds : List EpiAdd := []
  weightType : Option Nat := none
  weights : List HalfTile := []
  links : FMap LinkQueue := []
  tables : FMap (FMap Nat) := []
  tableTypes : FMap Nat := []
  roCopies : FMap RoCopy := []
  roJob : FMap Nat := []
  holder : Option Nat := none
  testing : Option (Nat × Nat × Nat × Nat) := none
deriving DecidableEq, Repr

/-- A request that holds at a home under test (R361): what a queue or the device itself writes, with what becomes of it where no page is mapped
(0 nothing, 1 the fault of a job's answer, 2 a count in `ucie.err`), the job and the queue; or a `pf` of a partition. -/
inductive HomeItem where
  | write (q asid va : Nat) (bs : List Byte) (what job n : Nat)
  | fetch (p va hint : Nat)
deriving DecidableEq, Repr

/-- How a job stands (R208, R223, R224). -/
inductive JobPhase where
  | waiting | ready | dispatched | ending
deriving DecidableEq, Repr

/-- A job-table entry (R208): its address names the job. `holds` lists the dependences that have been found to hold, `untested` those
whose last test found no valid mapping, 2 more than the number where the test holds at a home under test (R223, R361). `told` says that the final
status is written; `seen` is 0, or 1 more than the retry signal last seen when the completion add failed (R372). -/
structure Job where
  addr : Nat
  queue : Nat
  card : BitVec 1024
  reply : W64
  tag : W64
  src : Nat
  prio : Nat
  asid : Nat
  service : Bool
  phase : JobPhase
  handed : Nat
  live : Nat
  status : Nat
  seen : Nat
  replay : Bool
  logPos : Nat
  returned : List Nat
  holds : List Nat := []
  untested : List Nat := []
  told : Bool := false
deriving DecidableEq, Repr

/-- What an entry of a level is (R216). -/
inductive LevelItem where
  | job (addr : Nat)
  | record (addr : Nat)
deriving DecidableEq, Repr

/-- An entry of a quarter's levels, in the order of joining (R216, R217). -/
structure LevelEntry where
  level : Nat
  item : LevelItem
  since : Nat
deriving DecidableEq, Repr

/-- What a suspended record waits for (R213). -/
inductive Wake where
  | ready | monitor | world
deriving DecidableEq, Repr

/-- A suspended record, as the hardware keeps account of it (R214, R392): `part` is the partition that held it last. `seen` is 0, or 1 more than the number of the retry signal
last seen when its bytes found no valid mapping (R372). -/
structure Suspended where
  addr : Nat
  tag : Nat
  ordinal : Nat
  job : Nat
  asid : Nat
  view : Nat
  base : Nat
  wake : Wake
  rival : Bool
  part : Nat
  gleaned : Nat := 0
  seen : Nat := 0
deriving DecidableEq, Repr

/-- A launch packet that waits at its window (R207): `checked` says that it passed its checks and waits for a free entry of the job table;
else it stands behind such a packet on its link. -/
structure HeldPacket where
  checked : Bool
  queue : Nat
  src : Nat
  tag : Nat
  bytes : List Byte
deriving DecidableEq, Repr

/-- A row of the hot-row cache (R294): master address, entry size, when pinned, when last used. -/
structure HotRow where
  pa : Nat
  size : Nat
  pinned : Option Nat
  used : Nat
deriving DecidableEq, Repr

/-- A waiting leave request (R381): class, partition, command (none for `lvreq`). -/
structure LeaveReq where
  cls : Nat
  part : Nat
  cmd : Option Nat
deriving DecidableEq, Repr

/-- A request record that a full ring holds (R318). -/
structure HeldRecord where
  src : Nat
  tag : Nat
  queue : Nat
  bytes : List Byte
deriving DecidableEq, Repr

/-- A quarter (R1): its scheduler, governor and table engines. `hrWriters` lists who wrote `hr.cfg` since it last took effect, by which word and for which
job (R294). -/
structure Quarter where
  jobs : List Job := []
  held : List HeldPacket := []
  levels : List LevelEntry := []
  suspended : List Suspended := []
  granted : FMap Nat := []
  leaves : List LeaveReq := []
  hot : List HotRow := []
  sketch : FMap Nat := []
  sketchAdds : FMap Nat := []
  hrPending : Option W64 := none
  hrWriters : List (Nat × Nat × Nat) := []
  held2 : List HeldRecord := []
  msways : Nat := 0
  mswaysSt : Nat := 0
  drained : Nat := 0
  mswaysBusy : Option (Nat × Bool × Nat) := none
  msQueue : List Nat := []
  clearing : Option Nat := none
deriving DecidableEq, Repr

/-- A line that a view holds privately (R339): its place in the pool, where its bytes stand as those of any physical line do (R340), and the
written mask. -/
structure OverlayLine where
  pa : Nat
  mask : BitVec 128
deriving DecidableEq, Repr

/-- A view (R337). -/
structure View where
  parent : Nat
  depth : Nat
  rival : Nat
  ended : Bool := false
  quota : Nat
  lines : FMap OverlayLine := []
  outbox : List OutEntry := []
deriving DecidableEq, Repr

/-- A fork whose world has not ended (R194): parent record, view, rivals with their views and records, and the `choose` words that
have reached the arbiter, with the ac of each (R195). `workid` and `ord` say which event of its record the fork is, `logged` in a replay the
rival that may commit (R358, R378); `outbox` and `sender` are the entries of the committed rival's outbox that have not been released yet, and
for whom they leave (R351). -/
structure Fork where
  parent : Nat
  parentView : Nat
  quarter : Nat
  ctx : Ctx
  dreg : Nat
  base : Nat
  rivals : List (Nat × Nat × Nat)
  living : List Nat
  asks : List (Nat × Nat)
  winner : Option Nat
  waitAcks : List Nat
  workid : W64 := 0
  ord : Nat := 0
  logged : Option Nat := none
  outbox : List OutEntry := []
  sender : Option Ctx := none
deriving DecidableEq, Repr

/-- Who owns a monitor (R60, R213, R247). -/
inductive MonitorOwner where
  | part (p : Nat)
  | record (addr : Nat)
  | remote (dev tag : Nat)
deriving DecidableEq, Repr

/-- An armed monitor at its home, in the order of arming (R234). -/
structure Monitor where
  id : Nat
  line : Nat
  owner : MonitorOwner
  home : Nat := 0
deriving DecidableEq, Repr

/-- A fault record (R371). -/
structure FaultRec where
  job : Nat
  va : Nat
  unit : Nat
  asid : Nat
  view : Nat
  acc : Nat
  kind : Nat
deriving DecidableEq, Repr

/-- An error record (R363). -/
structure ErrorRec where
  unit : Nat
  seq : Nat
  sev : Nat
  kind : Nat
  addr : W64
  time : Nat
  detail : W64
deriving DecidableEq, Repr

/-- What a fabric packet carries (R310). -/
inductive Payload where
  | write (va : Nat) (bs : List Byte)
  | add (va n : Nat)
  | atomic (va : Nat) (op : AtomicOp) (x y : W64)
  | barrier (va : Nat) (exp : Bool) (e : W64)
  | monitor (va : Nat) (e : W64)
  | record (va : Nat) (bs : List Byte)
  | launch (va : Nat) (bs : List Byte)
  | cancel (job : Nat)
  | answer (tag : Nat) (v : W64)
  | answerLost (tag : Nat)
  | ack (tag : Nat) (lost : Bool)
  | wake (tag : Nat)
  | tile (core n : Nat) (piece : List Byte)
  | bind (core n pc pn ty : Nat) (send : Bool)
  | credit (core n : Nat)
  | multicast (nums : List (Nat × Nat)) (stage : Nat) (groups : List Nat) (members va bar : Nat) (bs : List Byte)
deriving DecidableEq, Repr

/-- A fabric packet (R310, R312): source device and agent, number, destination; the global hops it has made, and for a packet that crosses
this device the router port it came in by (R311). The number holds, from its low bits up, the sequence number of the pair of source agent
and destination (64 bits), the destination and the agent. -/
structure Packet where
  src : Nat
  agent : Nat
  seq : Nat
  dst : Nat
  body : Payload
  hops : Nat := 0
  port : Option Nat := none
deriving DecidableEq, Repr

/-- What the issuer of a packet waits for (R254, R313). -/
inductive AwaitKind where
  /-- An acknowledgement for a write of a control stream. -/
  | ack
  /-- An acknowledgement for a `bbinit` or `bbexp` of a control stream, whose word is complete once it is performed at the home (R88). -/
  | atHome
  /-- An acknowledgement for a write of a command. -/
  | cmd (p cq id : Nat)
  /-- An old value (0), a watched value (1) or a status (2): partition and word. -/
  | value (p seq : Nat) (kind : Nat)
  /-- The value of a place of another device that a replayed word holds for: its partition (R379). -/
  | probe (p : Nat)
  /-- An acknowledgement of a released outbox entry of a fork's parent (R351). -/
  | release (parent : Nat) (status : Bool)
deriving DecidableEq, Repr

/-- An unanswered packet: its number, the word or command that made the access, and the job it belongs to. -/
structure Await where
  seq : Nat
  word : Nat
  part : Nat
  kind : AwaitKind
  va : Nat
  job : Nat := 0
deriving DecidableEq, Repr

/-- A sector that some cache of the device holds (R85): 32 bytes, dirty. `Tags` says which caches hold its line. -/
structure Sector where
  bytes : List Byte
  dirty : Bool
deriving DecidableEq, Repr

/-- A line of an L1 data cache or an L2 slice (R76, R287): the physical line it was filled from, the sectors it holds as bits, the
recorded hint, when it was last used. `old` is what the line returns once its page leads elsewhere and the old place is written. -/
structure VLine where
  pa : Nat
  sectors : Nat
  hint : Nat
  used : Nat
  old : Option (List Byte) := none
deriving DecidableEq, Repr

/-- A line of a memory-side cache (R76): the recorded hint, when it was last used. -/
structure LineUse where
  hint : Nat
  used : Nat
deriving DecidableEq, Repr

/-- A translation as a home's TLB or the large level holds it (R286): the translating quarter, the tags (address space, page, size),
the leaf and the place it was read from. -/
structure TlbEntry where
  quarter : Nat
  asid : Nat
  page : Nat
  size : Nat
  pte : Nat
  place : Nat
deriving DecidableEq, Repr

/-- A line that a quarter's replica of a page holds (R251, R289): the quarter, the address space, the line of the owner's space, the
owner's physical line, the sectors held as bits; the size of the page, and whether its entry is global (R288). -/
structure Replica where
  quarter : Nat
  asid : Nat
  line : Nat
  pa : Nat
  sectors : Nat
  size : Nat
  glob : Bool
deriving DecidableEq, Repr

/-- What the caches and TLBs hold: the lines of L1 and L2 by level, view, address space and virtual line, the lines of the memory-side
caches by physical line, the large TLB levels, the homes' TLBs by line, the replicas, and a count of uses. -/
structure Tags where
  virt : FMap VLine := []
  msc : FMap LineUse := []
  large : List TlbEntry := []
  homes : List (Nat × TlbEntry) := []
  replicas : List Replica := []
  uses : Nat := 0
deriving DecidableEq, Repr

/-- What may move next: a step without a word, the issue of a core, the passing of one ac, an eviction from a cache level of the line that
goes first among lines that share a set (R76), the loss of a translation from a large level or a home's TLB (R286), a packet of another device
that enters to cross this one (R309), a bit error that the codes cannot correct, the reclaim of a monitor, a copy that the read-only path of a
partition's core takes of a sector (R252). -/
inductive Choice where
  | event (i : Instr)
  | issue (core : Nat)
  | tick
  | evict (level : Nat) (set : List Nat)
  | forget (entry : Nat)
  | forgetHome (entry : Nat)
  | transit (k : Packet)
  | corrupt (sector : Nat)
  | reclaim (id : Nat)
  | readAhead (p va : Nat)
deriving DecidableEq, Repr

/-- The state of the device. -/
structure State where
  /-- The model's own: what moves next, in order; when it is empty, `Machine/Step.lean` says what does. -/
  agenda : List Choice := []
  /-- The model's own: the partition whose word is issuing. -/
  cur : Nat := 0
  /-- The model's own: the number of the word that is issuing. -/
  curWord : Nat := 0
  /-- The model's own: counts that number words, commands, monitors, packets and draws of free values. -/
  nextSeq : Nat := 1
  /-- ac since reset (`cr.time`, R49). -/
  time : Nat := 0
  parts : FMap Part := []
  cores : FMap Core := []
  quarters : FMap Quarter := []
  /-- HBM and LPDDR6 by physical address (R282), canonical; an address not listed reads 0 (R383). -/
  mem : List Host.Cell := []
  die : FMap Sector := []
  /-- Which caches hold which lines, and the translations held (R76, R286, R287, R289). -/
  tags : Tags := {}
  /-- Requests that hold at homes under test, oldest first (R361). -/
  atHomes : List HomeItem := []
  /-- Sectors that their code cannot correct (R281, R291). -/
  failing : List Nat := []
  views : FMap View := []
  forks : List Fork := []
  monitors : List Monitor := []
  faults : List FaultRec := []
  faultsWaiting : List FaultRec := []
  errors : List ErrorRec := []
  errSeq : Nat := 0
  errLost : Nat := 0
  notifyDue : Bool := false
  mgmt : FMap W64 := []
  /-- Retry signals so far: writes of `tr.inval` and `wv.quota` (R372). -/
  retries : Nat := 0
  invalBusy : List Nat := []
  migrating : List Nat := []
  opBusy : Bool := false
  /-- The last 8 distinct rows that each LPDDR6 channel corrected, oldest first: row, count, whether it was recorded (R376). -/
  rowCounts : FMap (List (Nat × Nat × Bool)) := []
  modeSet : Nat := 0
  profile : Nat := 0
  ordered : Bool := false
  capture : Bool := false
  packets : List Packet := []
  wire : List (Nat × Packet) := []
  awaits : List Await := []
  /-- The next sequence number of each pair of agent and destination (R312). -/
  sentNo : FMap Nat := []
  /-- 1 more than the last number performed here of each pair of source device and agent (R312). -/
  arrivedNo : FMap Nat := []
  /-- Of each pair of source device and agent, the number of the last block of a multicast performed here, and how many blocks were performed in a row
  up to it (R102, R248). -/
  castDone : FMap (Nat × Nat) := []
  hostOut : List (Nat × List Byte) := []
  /-- What reads of the host die were answered (R386). -/
  hostAnswers : List (Nat × List Byte) := []
  ethOut : List (Nat × List Byte) := []
  ready : Bool := false
  /-- The model's own: resets so far, which number draws of a free value. -/
  resets : Nat := 0
  /-- The last reset was one of the host die that kept memory (`rst.ctl`[1], R383). -/
  kept : Bool := false
  bootStage : Nat := 0
  bootCode : Nat := 0
  measure : List Byte := List.replicate 64 0
  reportBusy : Bool := false
deriving DecidableEq, Repr

/-- The machine right after reset (R383): every map empty, every counter zero. -/
def State.reset : State := {}

end Sys2Proof.Machine
end

