-- ==== Sys2Proof/Machine/Maps.lean ====
section
/-! DEFINITION. Sparse arrays, fields of numbers, and values as bytes in memory order (R9). -/

namespace Sys2Proof.Machine

/-- The entry numbered `k`, if listed. -/
def fget {α : Type} : FMap α → Nat → Option α
  | [], _ => none
  | (k', v) :: r, k => if k = k' then some v else fget r k

/-- The entry numbered `k`, or the value of an entry that is not listed. -/
def fgetD {α : Type} (m : FMap α) (k : Nat) (d : α) : α := (fget m k).getD d

/-- Sets the entry numbered `k`; the numbers stay in rising order. -/
def fput {α : Type} : FMap α → Nat → α → FMap α
  | [], k, v => [(k, v)]
  | (k', v') :: r, k, v =>
    if k < k' then (k, v) :: (k', v') :: r
    else if k = k' then (k, v) :: r
    else (k', v') :: fput r k v

/-- Removes the entry numbered `k`. -/
def fdel {α : Type} : FMap α → Nat → FMap α
  | [], _ => []
  | (k', v') :: r, k => if k = k' then r else (k', v') :: fdel r k

/-- Bits [lo + w - 1 : lo] of a number. -/
def nfld (v lo w : Nat) : Nat := v / 2 ^ lo % 2 ^ w

/-- Bit `i` of a number. -/
def nbit (v i : Nat) : Bool := v / 2 ^ i % 2 == 1

/-- A number with bits [lo + w - 1 : lo] replaced. -/
def nset (v lo w x : Nat) : Nat := v - nfld v lo w * 2 ^ lo + x % 2 ^ w * 2 ^ lo

/-- The `n` low bytes of a number, least significant first (R9). -/
def leBytes : Nat → Nat → List Byte
  | 0, _ => []
  | n + 1, v => BitVec.ofNat 8 v :: leBytes n (v / 256)

/-- The number whose bytes these are, least significant first (R9). -/
def leNat : List Byte → Nat
  | [] => 0
  | b :: r => b.toNat + 256 * leNat r

/-- A number as a 64-bit value, modulo 2^64. -/
def w64 (n : Nat) : W64 := BitVec.ofNat 64 n

/-- The least multiple of `m` at or above `n`, divided by `m`. -/
def ceilDiv (n m : Nat) : Nat := (n + m - 1) / m

/-- The low `n` bits of a value as a two's complement number. -/
def sxInt (v n : Nat) : Int :=
  let x := v % 2 ^ n
  if n = 0 then 0 else if x < 2 ^ (n - 1) then (x : Int) else (x : Int) - (2 ^ n : Nat)

/-- A number as its two's complement pattern of `n` bits. -/
def intBits (v : Int) (n : Nat) : Nat := (v % (2 ^ n : Nat)).toNat

/-- `sat(v, lo, hi)` (R43). -/
def satInt (v lo hi : Int) : Int := min (max v lo) hi

/-- Replaces the first entry that a test picks. -/
def replaceFirst {α : Type} (p : α → Bool) (f : α → α) : List α → List α
  | [] => []
  | a :: r => if p a then f a :: r else a :: replaceFirst p f r

/-- Removes the first entry that a test picks. -/
def dropFirst {α : Type} (p : α → Bool) : List α → List α
  | [] => []
  | a :: r => if p a then r else a :: dropFirst p r

/-- Puts an element before the first one that it may stand before. -/
def insertBy {α : Type} (le : α → α → Bool) (a : α) : List α → List α
  | [] => [a]
  | b :: r => if le a b then a :: b :: r else b :: insertBy le a r

/-- A stable sort. -/
def sortBy {α : Type} (le : α → α → Bool) : List α → List α
  | [] => []
  | a :: r => insertBy le a (sortBy le r)

/-- Cuts an access of `n` bytes at `va` into pieces that lie each inside one aligned 32-byte sector. -/
def pieces : Nat → Nat → Nat → List (Nat × Nat)
  | 0, _, _ => []
  | f + 1, va, n =>
    if n = 0 then []
    else
      let l := min n (32 - va % 32)
      (va, l) :: pieces f (va + l) (n - l)

/-- The pieces of an access. -/
def piecesOf (va n : Nat) : List (Nat × Nat) := pieces (n / 32 + 2) va n

/-- Reads the bytes at `off` to `off + n - 1` of a sparse byte array whose unlisted entries are 0. -/
def fbytes (m : FMap Byte) (off : Nat) : Nat → List Byte
  | 0 => []
  | n + 1 => fgetD m off 0 :: fbytes m (off + 1) n

/-- Writes bytes into a sparse byte array, which lists no zero byte. -/
def fsetBytes (m : FMap Byte) (off : Nat) : List Byte → FMap Byte
  | [] => m
  | b :: r => fsetBytes (if b = 0 then fdel m off else fput m off b) (off + 1) r

end Sys2Proof.Machine
end

