-- ==== Sys2Proof/Machine/Flags.lean ====
section
/-! DEFINITION. The results and conditions of the control core's arithmetic (R50 to R53). The A7 has no flags: a condition is
computed from the two operands where it is used. -/

namespace Sys2Proof.Machine

/-- Signed a < b. -/
def ltS (a b : W64) : Bool := decide (a.toInt < b.toInt)

/-- Unsigned a < b. -/
def ltU (a b : W64) : Bool := decide (a.toNat < b.toNat)

/-- A condition as the value 1 or 0. -/
def boolW (b : Bool) : W64 := if b then 1 else 0

/-- A shift amount: the low six bits (R50). -/
def shamt (b : W64) : Nat := b.toNat % 64

/-- Truncating signed quotient with the two fixed cases of R51. -/
def divS (a b : W64) : W64 := if b = 0 then -1 else BitVec.ofInt 64 (a.toInt.tdiv b.toInt)

/-- Signed remainder, of the sign of the dividend (R51). -/
def remS (a b : W64) : W64 := if b = 0 then a else BitVec.ofInt 64 (a.toInt.tmod b.toInt)

/-- Unsigned quotient (R51). -/
def divU (a b : W64) : W64 := if b = 0 then -1 else w64 (a.toNat / b.toNat)

/-- Unsigned remainder (R51). -/
def remU (a b : W64) : W64 := if b = 0 then a else w64 (a.toNat % b.toNat)

/-- Count of one bits among the low `n`. -/
def onesIn : Nat → Nat → Nat
  | 0, _ => 0
  | n + 1, v => v % 2 + onesIn n (v / 2)

/-- Count of trailing zeros among `n` bits. -/
def trailZ : Nat → Nat → Nat
  | 0, _ => 0
  | n + 1, v => if v % 2 = 1 then 0 else 1 + trailZ n (v / 2)

/-- Count of leading zeros from bit 63; 64 for 0 (R50). -/
def leadZ (a : W64) : Nat := if a = 0 then 64 else 63 - Nat.log2 a.toNat

/-- Width operand of `sext` and `zext`: 0 means 64 (R50). -/
def extWidth (b : W64) : Nat := if b.toNat % 64 = 0 then 64 else b.toNat % 64

/-- `sx(a, n)` (R43). -/
def sx64 (a : W64) (n : Nat) : W64 := BitVec.ofInt 64 (sxInt a.toNat n)

/-- `zx(a, n)` (R43). -/
def zx64 (a : W64) (n : Nat) : W64 := w64 (a.toNat % 2 ^ n)

/-- Signed and unsigned high products (R50). -/
def mulHS (a b : W64) : W64 := BitVec.ofInt 64 (a.toInt * b.toInt / 2 ^ 64)

def mulHU (a b : W64) : W64 := w64 (a.toNat * b.toNat / 2 ^ 64)

/-- Rotation left by b[5:0] (R50). -/
def rolW (a b : W64) : W64 := (a <<< shamt b) ||| (a >>> (64 - shamt b))

/-- The target of a word offset from a pc (R53, R54). -/
def offTarget (pc : W64) (off : Int) : Nat := intBits (pc.toNat + 4 * off) 64

end Sys2Proof.Machine
end

