-- ==== Sys2Proof/WellFormed.lean ====
section
/-! DEFINITION. Which instructions are well formed: the limits that R21 to R33 and each entry put on a field beyond its
width (a space or type code that is reserved, a length of zero, a field that another field leaves unused), and, for the
steps without a word, which partition, core or quarter exists (R1). -/

namespace Sys2Proof

/-- The limits on the fields of each instruction (R33 and the entry each arm names in Syntax). -/
def Instr.wf : Instr → Bool
  | .add _ _ _ _ _ _ => true
  | .sub _ _ _ _ _ _ => true
  | .and _ _ _ _ _ _ => true
  | .or _ _ _ _ _ _ => true
  | .xor _ _ _ _ _ _ => true
  | .andn _ _ _ _ _ _ => true
  | .sll _ _ _ _ _ _ => true
  | .srl _ _ _ _ _ _ => true
  | .sra _ _ _ _ _ _ => true
  | .rol _ _ _ _ _ _ => true
  | .min _ _ _ _ _ _ => true
  | .max _ _ _ _ _ _ => true
  | .minu _ _ _ _ _ _ => true
  | .maxu _ _ _ _ _ _ => true
  | .slt _ _ _ _ _ _ => true
  | .sltu _ _ _ _ _ _ => true
  | .mul _ _ _ _ _ _ => true
  | .mulh _ _ _ _ _ _ => true
  | .mulhu _ _ _ _ _ _ => true
  | .div _ _ _ _ _ _ => true
  | .divu _ _ _ _ _ _ => true
  | .rem _ _ _ _ _ _ => true
  | .remu _ _ _ _ _ _ => true
  | .clz _ _ _ _ => true
  | .ctz _ _ _ _ => true
  | .popc _ _ _ _ => true
  | .sext _ _ _ _ _ _ => true
  | .zext _ _ _ _ _ _ => true
  | .sel _ _ _ _ _ _ => true
  | .addi _ _ _ _ _ => true
  | .andi _ _ _ _ _ => true
  | .ori _ _ _ _ _ => true
  | .xori _ _ _ _ _ => true
  | .slli _ _ _ _ _ => true
  | .srli _ _ _ _ _ => true
  | .srai _ _ _ _ _ => true
  | .slti _ _ _ _ _ => true
  | .seqi _ _ _ _ _ => true
  | .li _ _ _ => true
  | .lih _ _ _ _ _ => true
  | .apc _ _ _ => true
  | .beq _ _ _ _ => true
  | .bne _ _ _ _ => true
  | .blt _ _ _ _ => true
  | .bge _ _ _ _ => true
  | .bltu _ _ _ _ => true
  | .bgeu _ _ _ _ => true
  | .bz _ _ _ => true
  | .bnz _ _ _ => true
  | .br _ _ => true
  | .call _ _ _ => true
  | .ret _ _ => true
  | .jr _ _ => true
  | .loop _ _ _ _ len => decide (len.toNat ≠ 0)
  | .loopi _ _ _ len => decide (len.toNat ≠ 0)
  | .semadd _ _ _ _ => true
  | .semwt _ _ _ _ => true
  | .mbrd _ _ _ => true
  | .mbwr _ _ _ _ _ _ => true
  | .waitaddr _ _ _ _ _ _ => true
  | .park _ => true
  | .yield _ => true
  | .done _ => true
  | .trap _ _ => true
  | .tret _ => true
  | .crr _ _ _ => true
  | .crw _ _ _ _ => true
  | .lvreq _ _ _ => true
  | .lvrel _ _ _ => true
  | .bist _ _ _ _ => true
  | .scan _ _ _ _ => true
  | .errrd _ _ _ _ => true
  | .jcancel _ _ _ _ => true
  | .ldb _ _ _ _ _ => true
  | .ldbu _ _ _ _ _ => true
  | .ldh _ _ _ _ _ => true
  | .ldhu _ _ _ _ _ => true
  | .ldw _ _ _ _ _ => true
  | .ldwu _ _ _ _ _ => true
  | .ldd _ _ _ _ _ => true
  | .stb _ _ _ _ _ => true
  | .sth _ _ _ _ _ => true
  | .stw _ _ _ _ _ => true
  | .std _ _ _ _ _ => true
  | .ldAcq _ _ _ _ => true
  | .stRel _ _ _ _ => true
  | .amoadd _ _ _ _ _ _ => true
  | .amoand _ _ _ _ _ _ => true
  | .amoor _ _ _ _ _ _ => true
  | .amoxor _ _ _ _ _ _ => true
  | .amomin _ _ _ _ _ _ => true
  | .amomax _ _ _ _ _ _ => true
  | .amominu _ _ _ _ _ _ => true
  | .amomaxu _ _ _ _ _ _ => true
  | .amoswap _ _ _ _ _ _ => true
  | .amocas _ _ _ _ _ => true
  | .amofadd _ _ _ _ _ _ => true
  | .amobfadd _ _ _ _ _ _ => true
  | .fence _ _ => true
  | .mark _ _ => true
  | .wb _ _ _ _ _ => true
  | .inv _ _ _ _ _ => true
  | .wbinv _ _ _ _ _ => true
  | .pf _ _ _ _ => true
  | .roinv _ _ _ _ _ => true
  | .ldro _ _ _ _ size _ => decide (size.toNat ≠ 7)
  | .bbinit _ _ _ _ _ => true
  | .bbexp _ _ _ _ _ => true
  | .bbwait _ _ _ _ _ _ => true
  | .cbacq _ _ _ => true
  | .cbrel _ _ => true
  | .fmst _ _ _ _ => true
  | .rqpost _ _ _ _ _ _ => true
  | .lpost _ _ _ _ _ _ => true
  | .fork _ _ _ _ => true
  | .choose _ => true
  | .abandon _ => true
  | .wid _ _ => true
  | .cpy _ _ _ _ src dst _ _ => decide (src.toNat ≤ 1) && decide (dst.toNat ≤ 2)
  | .cpy2 _ _ _ src dst _ _ => decide (src.toNat ≤ 1) && decide (dst.toNat ≤ 1)
  | .cpyg _ _ _ isp dst _ rowbytes => decide (isp.toNat ≤ 1) && decide (dst.toNat ≤ 1) && decide (rowbytes.toNat ≠ 0)
  | .oqld _ _ _ _ src _ _ _ => decide (src.toNat ≤ 1)
  | .tsld _ _ _ src _ rows rowbytes => decide (src.toNat ≤ 1) && decide (rows.toNat ≤ 512) && decide (rowbytes.toNat ≠ 0) && decide (rowbytes.toNat ≤ 1024)
  | .tsst _ _ _ _ dst _ rows rowbytes => decide (dst.toNat ≤ 1) && decide (rows.toNat ≤ 512) && decide (rowbytes.toNat ≠ 0) && decide (rowbytes.toNat ≤ 1024)
  | .cbinit _ _ _ _ size slots => decide (size.toNat ≠ 0) && decide (slots.toNat ≠ 0)
  | .vshape _ a b ka kb regRows regCols ty cols1 rows1 => decide (ty.toNat ≤ 11) && decide ((regCols ∨ (a.val = 0 ∧ ka = false))) && decide ((regCols → cols1.toNat = 0)) && decide ((regRows ∨ (b.val = 0 ∧ kb = false))) && decide ((regRows → rows1.toNat = 0))
  | .vld _ a b ka kb src _ oq hint => decide (src.toNat ≤ 2) && decide ((src.toNat = 2 → a.val = 0 ∧ b.val = 0 ∧ ka = false ∧ kb = false)) && decide ((src.toNat ≠ 2 → oq.val = 0)) && decide ((src.toNat ≠ 0 → hint.toNat = 0))
  | .vst _ _ _ _ dst _ _ => decide (dst.toNat ≤ 1)
  | .vbcastX _ _ _ _ => true
  | .vbcastRow _ _ _ _ => true
  | .vbcastCol _ _ _ _ => true
  | .vsel _ _ _ _ _ => true
  | .vadd _ b kb sb _ _ _ vb => decide ((sb → vb.val = 0)) && decide ((sb ∨ (b.val = 0 ∧ kb = false)))
  | .vsub _ b kb sb _ _ _ vb => decide ((sb → vb.val = 0)) && decide ((sb ∨ (b.val = 0 ∧ kb = false)))
  | .vmul _ b kb sb _ _ _ vb => decide ((sb → vb.val = 0)) && decide ((sb ∨ (b.val = 0 ∧ kb = false)))
  | .vfma _ b kb sb _ _ _ vb _ => decide ((sb → vb.val = 0)) && decide ((sb ∨ (b.val = 0 ∧ kb = false)))
  | .vmax _ b kb sb _ _ _ vb => decide ((sb → vb.val = 0)) && decide ((sb ∨ (b.val = 0 ∧ kb = false)))
  | .vmin _ b kb sb _ _ _ vb => decide ((sb → vb.val = 0)) && decide ((sb ∨ (b.val = 0 ∧ kb = false)))
  | .vabs _ _ _ _ => true
  | .vneg _ _ _ _ => true
  | .vcmp _ b kb sb _ _ _ vb cond => decide ((sb → vb.val = 0)) && decide ((sb ∨ (b.val = 0 ∧ kb = false))) && decide (cond.toNat ≤ 5)
  | .vand _ b kb sb _ _ vb => decide ((sb → vb.val = 0)) && decide ((sb ∨ (b.val = 0 ∧ kb = false)))
  | .vor _ b kb sb _ _ vb => decide ((sb → vb.val = 0)) && decide ((sb ∨ (b.val = 0 ∧ kb = false)))
  | .vxor _ b kb sb _ _ vb => decide ((sb → vb.val = 0)) && decide ((sb ∨ (b.val = 0 ∧ kb = false)))
  | .vshl _ b kb sb _ _ vb => decide ((sb → vb.val = 0)) && decide ((sb ∨ (b.val = 0 ∧ kb = false)))
  | .vshr _ b kb sb _ _ vb => decide ((sb → vb.val = 0)) && decide ((sb ∨ (b.val = 0 ∧ kb = false)))
  | .vpopc _ _ _ => true
  | .vcvt _ a ka _ _ ty mode => decide (ty.toNat ≤ 11) && decide ((mode.toNat = 3 ∨ (a.val = 0 ∧ ka = false)))
  | .vred _ _ _ _ _ op => decide (op.toNat ≤ 4)
  | .vgelu _ _ _ ty => decide (ty.toNat ≤ 11)
  | .vsilu _ _ _ ty => decide (ty.toNat ≤ 11)
  | .vsplus _ _ _ ty => decide (ty.toNat ≤ 11)
  | .vtanh _ _ _ ty => decide (ty.toNat ≤ 11)
  | .vsigm _ _ _ ty => decide (ty.toNat ≤ 11)
  | .vexp _ _ _ ty => decide (ty.toNat ≤ 11)
  | .vrcp _ _ _ ty => decide (ty.toNat ≤ 11)
  | .vrsqrt _ _ _ ty => decide (ty.toNat ≤ 11)
  | .vtblld _ _ _ src _ => decide (src.toNat ≤ 1)
  | .vtbl _ _ _ ty _ => decide (ty.toNat ≤ 11)
  | .vtolog _ _ _ => true
  | .vfrlog _ _ _ ty => decide (ty.toNat ≤ 11)
  | .vladd _ b kb cf _ _ vb => decide (cf.toNat % 2 = 1 → vb.val = 0) && decide (cf.toNat % 2 = 1 ∨ (b.val = 0 ∧ kb = false))
  | .vlsub _ b kb cf _ _ vb => decide (cf.toNat % 2 = 1 → vb.val = 0) && decide (cf.toNat % 2 = 1 ∨ (b.val = 0 ∧ kb = false))
  | .vlshr _ _ _ _ => true
  | .vlmul _ _ _ _ _ => true
  | .vhamm _ _ _ _ _ => true
  | .vtopk _ _ vd _ _ vc _ => decide (vd.val ≠ vc.val)
  | .vfilt _ _ _ _ _ src _ _ => decide (src.toNat ≤ 1)
  | .vsect _ _ _ _ _ => true
  | .vuniq _ vd _ vc => decide (vd.val ≠ vc.val)
  | .vbkt _ vd _ vc _ _ => decide (vd.val ≠ vc.val)
  | .mcfgLevel _ _ _ _ _ _ => true
  | .mcfgNest _ _ _ => true
  | .mshp _ _ _ src _ => decide (src.toNat ≤ 1)
  | .mshf _ _ _ _ field => decide (field.toNat ≤ 14)
  | .mgo _ => true
  | .mrst _ _ => true
  | .mrstNone _ => true
  | .maccClr _ _ => true
  | .maccSave _ _ _ _ => true
  | .maccLoad _ _ _ _ => true
  | .mepi _ _ _ _ _ _ => true
  | .mlqSend _ _ _ _ _ ty => decide (ty.toNat ≤ 11)
  | .mlqRecv _ _ _ _ _ ty => decide (ty.toNat ≤ 11)
  | .mlqUnbind _ _ => true
  | .gpoolAuto h _ _ isp dst ty _ _ => (!h.wp && !h.sp && !h.wn && !h.sn) && decide (isp.toNat ≤ 1) && decide (dst.toNat ≤ 1) && decide (ty.toNat ≤ 11)
  | .gpoolDie h _ _ isp dst ty _ _ => (!h.wp && !h.sp && !h.wn && !h.sn) && decide (isp.toNat ≤ 1) && decide (dst.toNat ≤ 1) && decide (ty.toNat ≤ 11)
  | .gpoolFar h _ _ isp dst ty _ _ => (!h.wp && !h.sp && !h.wn && !h.sn) && decide (isp.toNat ≤ 1) && decide (dst.toNat ≤ 1) && decide (ty.toNat ≤ 11)
  | .gdeq h _ _ isp dst ty _ => (!h.wp && !h.sp && !h.wn && !h.sn) && decide (isp.toNat ≤ 1) && decide (dst.toNat ≤ 1) && decide (ty.toNat ≤ 11)
  | .gscan h _ _ qsp dst _ _ _ _ => (!h.wp && !h.sp && !h.wn && !h.sn) && decide (qsp.toNat ≤ 1) && decide (dst.toNat ≤ 1)
  | .grank h _ _ isp dst ty _ => (!h.wp && !h.sp && !h.wn && !h.sn) && decide (isp.toNat ≤ 1) && decide (dst.toNat ≤ 1) && decide (ty.toNat ≤ 11)
  | .hrpin h _ _ _ => (!h.wp && !h.sp && !h.wn && !h.sn)
  | .hrfree h _ _ _ => (!h.wp && !h.sp && !h.wn && !h.sn)
  | .dupd h _ _ isp gsp ty opt _ => (!h.wp && !h.sp && !h.wn && !h.sn) && decide (isp.toNat ≤ 1) && decide (gsp.toNat ≤ 1) && decide (ty.toNat ≤ 11) && decide (opt.toNat ≤ 2)
  | .dord h _ _ isp gsp ty opt _ => (!h.wp && !h.sp && !h.wn && !h.sn) && decide (isp.toNat ≤ 1) && decide (gsp.toNat ≤ 1) && decide (ty.toNat ≤ 11) && decide (opt.toNat ≤ 2)
  | .xall h _ _ _ isp _ _ _ => (!h.wp && !h.sp && !h.wn && !h.sn) && decide (isp.toNat ≤ 1)
  | .wload h _ _ _ _ _ ty kind => (!h.wp && !h.sp && !h.wn && !h.sn) && decide (ty.toNat ≤ 11) && decide (kind.toNat ≤ 2)
  | .wtbl h _ _ _ _ src ty _ _ => (!h.wp && !h.sp && !h.wn && !h.sn) && decide (src.toNat ≤ 1) && decide (ty.toNat ≤ 11)
  | .mswaysDrain q _ => decide (q < 4)
  | .mswaysConvert q _ => decide (q < 4)
  | .commandStart p cq => decide (p < 768) && decide (cq < 6)
  | .commandComplete p cq _ => decide (p < 768) && decide (cq < 6)
  | .nestStep c => decide (c < 192)
  | .epilogue c => decide (c < 192)
  | .registerWriteLanding p => decide (p < 768)
  | .loadValueReturn p _ => decide (p < 768)
  | .heldWordResume c => decide (c < 192)
  | .stopSpacing p => decide (p < 768)
  | .pendingTrapDelivery p => decide (p < 768)
  | .launchPacket _ _ _ _ => true
  | .launchAccept q => decide (q < 4)
  | .jobDispatch q _ => decide (q < 4)
  | .iterationHandout q => decide (q < 4)
  | .recordPickup q => decide (q < 4)
  | .schedAge q => decide (q < 4)
  | .fairnessDue p => decide (p < 768)
  | .fairnessWindowEnd p => decide (p < 768)
  | .issuePass c => decide (c < 192)
  | .mangleTake p => decide (p < 768)
  | .watchdogExpiry p => decide (p < 768)
  | .jobComplete q _ => decide (q < 4)
  | .cancelRequest _ _ _ => true
  | .linkTileArrival c _ _ _ => decide (c < 192)
  | .ltqCredit c _ => decide (c < 192)
  | .ltqBindPacket c _ _ _ _ _ _ => decide (c < 192)
  | .ltqTimeout c _ => decide (c < 192)
  | .routePacket _ => true
  | .multicastForward _ _ _ _ _ _ _ _ _ => true
  | .fabricWriteArrival _ _ _ _ _ => true
  | .fabricAck _ _ => true
  | .fabricAtomicArrival _ _ _ _ _ _ _ => true
  | .fabricAnswerWrite _ _ _ => true
  | .monitorRequestArrival _ _ _ _ => true
  | .wakeWrite _ => true
  | .requestRecordArrival _ _ _ _ => true
  | .remoteBarrierAdd _ _ _ _ _ => true
  | .ethRmaWrite _ _ _ _ => true
  | .ethUntaggedSend _ _ => true
  | .ethDeliveryAck _ => true
  | .hostRead _ _ => true
  | .hostWrite _ _ => true
  | .faultQueueAppend => true
  | .fqPop => true
  | .fqEnd _ => true
  | .erPop => true
  | .trInvalWrite q _ => decide (q < 4)
  | .trInvalDone q => decide (q < 4)
  | .skClrWrite q _ => decide (q < 4)
  | .sketchHalve q _ => decide (q < 4)
  | .hrCfgWrite q _ => decide (q < 4)
  | .hrCfgTakeEffect q => decide (q < 4)
  | .chmWrite q _ _ _ => decide (q < 4)
  | .migGo q => decide (q < 4)
  | .migrationDone q => decide (q < 4)
  | .wvQuotaWrite _ => true
  | .viewFree view => decide (view < 4096)
  | .opSelWrite _ => true
  | .opmodeApply => true
  | .leaveGrant q _ => decide (q < 4)
  | .testResult p _ => decide (p < 768)
  | .memoryCorrectedError _ _ _ => true
  | .arraySoftError _ _ => true
  | .linkStateChange _ _ _ _ => true
  | .linkFecCorrection _ _ => true
  | .powerOnReset => true
  | .rstCtlWrite _ => true
  | .boot _ => true
  | .atGoWrite _ => true
  | .attestReportDone => true
  | .replayHoldLimit p => decide (p < 768)
  | .registerWrite q _ _ => decide (q < 4)
  | .linkLevelRetry _ _ => true
  | .skClrDone q => decide (q < 4)
  | .mswaysOperationEnd q => decide (q < 4)

/-- Whether the row is a step without a word (it reaches the machine as an event and is never fetched). -/
def Instr.isEvent : Instr → Bool
  | .add _ _ _ _ _ _ => false
  | .sub _ _ _ _ _ _ => false
  | .and _ _ _ _ _ _ => false
  | .or _ _ _ _ _ _ => false
  | .xor _ _ _ _ _ _ => false
  | .andn _ _ _ _ _ _ => false
  | .sll _ _ _ _ _ _ => false
  | .srl _ _ _ _ _ _ => false
  | .sra _ _ _ _ _ _ => false
  | .rol _ _ _ _ _ _ => false
  | .min _ _ _ _ _ _ => false
  | .max _ _ _ _ _ _ => false
  | .minu _ _ _ _ _ _ => false
  | .maxu _ _ _ _ _ _ => false
  | .slt _ _ _ _ _ _ => false
  | .sltu _ _ _ _ _ _ => false
  | .mul _ _ _ _ _ _ => false
  | .mulh _ _ _ _ _ _ => false
  | .mulhu _ _ _ _ _ _ => false
  | .div _ _ _ _ _ _ => false
  | .divu _ _ _ _ _ _ => false
  | .rem _ _ _ _ _ _ => false
  | .remu _ _ _ _ _ _ => false
  | .clz _ _ _ _ => false
  | .ctz _ _ _ _ => false
  | .popc _ _ _ _ => false
  | .sext _ _ _ _ _ _ => false
  | .zext _ _ _ _ _ _ => false
  | .sel _ _ _ _ _ _ => false
  | .addi _ _ _ _ _ => false
  | .andi _ _ _ _ _ => false
  | .ori _ _ _ _ _ => false
  | .xori _ _ _ _ _ => false
  | .slli _ _ _ _ _ => false
  | .srli _ _ _ _ _ => false
  | .srai _ _ _ _ _ => false
  | .slti _ _ _ _ _ => false
  | .seqi _ _ _ _ _ => false
  | .li _ _ _ => false
  | .lih _ _ _ _ _ => false
  | .apc _ _ _ => false
  | .beq _ _ _ _ => false
  | .bne _ _ _ _ => false
  | .blt _ _ _ _ => false
  | .bge _ _ _ _ => false
  | .bltu _ _ _ _ => false
  | .bgeu _ _ _ _ => false
  | .bz _ _ _ => false
  | .bnz _ _ _ => false
  | .br _ _ => false
  | .call _ _ _ => false
  | .ret _ _ => false
  | .jr _ _ => false
  | .loop _ _ _ _ _ => false
  | .loopi _ _ _ _ => false
  | .semadd _ _ _ _ => false
  | .semwt _ _ _ _ => false
  | .mbrd _ _ _ => false
  | .mbwr _ _ _ _ _ _ => false
  | .waitaddr _ _ _ _ _ _ => false
  | .park _ => false
  | .yield _ => false
  | .done _ => false
  | .trap _ _ => false
  | .tret _ => false
  | .crr _ _ _ => false
  | .crw _ _ _ _ => false
  | .lvreq _ _ _ => false
  | .lvrel _ _ _ => false
  | .bist _ _ _ _ => false
  | .scan _ _ _ _ => false
  | .errrd _ _ _ _ => false
  | .jcancel _ _ _ _ => false
  | .ldb _ _ _ _ _ => false
  | .ldbu _ _ _ _ _ => false
  | .ldh _ _ _ _ _ => false
  | .ldhu _ _ _ _ _ => false
  | .ldw _ _ _ _ _ => false
  | .ldwu _ _ _ _ _ => false
  | .ldd _ _ _ _ _ => false
  | .stb _ _ _ _ _ => false
  | .sth _ _ _ _ _ => false
  | .stw _ _ _ _ _ => false
  | .std _ _ _ _ _ => false
  | .ldAcq _ _ _ _ => false
  | .stRel _ _ _ _ => false
  | .amoadd _ _ _ _ _ _ => false
  | .amoand _ _ _ _ _ _ => false
  | .amoor _ _ _ _ _ _ => false
  | .amoxor _ _ _ _ _ _ => false
  | .amomin _ _ _ _ _ _ => false
  | .amomax _ _ _ _ _ _ => false
  | .amominu _ _ _ _ _ _ => false
  | .amomaxu _ _ _ _ _ _ => false
  | .amoswap _ _ _ _ _ _ => false
  | .amocas _ _ _ _ _ => false
  | .amofadd _ _ _ _ _ _ => false
  | .amobfadd _ _ _ _ _ _ => false
  | .fence _ _ => false
  | .mark _ _ => false
  | .wb _ _ _ _ _ => false
  | .inv _ _ _ _ _ => false
  | .wbinv _ _ _ _ _ => false
  | .pf _ _ _ _ => false
  | .roinv _ _ _ _ _ => false
  | .ldro _ _ _ _ _ _ => false
  | .bbinit _ _ _ _ _ => false
  | .bbexp _ _ _ _ _ => false
  | .bbwait _ _ _ _ _ _ => false
  | .cbacq _ _ _ => false
  | .cbrel _ _ => false
  | .fmst _ _ _ _ => false
  | .rqpost _ _ _ _ _ _ => false
  | .lpost _ _ _ _ _ _ => false
  | .fork _ _ _ _ => false
  | .choose _ => false
  | .abandon _ => false
  | .wid _ _ => false
  | .cpy _ _ _ _ _ _ _ _ => false
  | .cpy2 _ _ _ _ _ _ _ => false
  | .cpyg _ _ _ _ _ _ _ => false
  | .oqld _ _ _ _ _ _ _ _ => false
  | .tsld _ _ _ _ _ _ _ => false
  | .tsst _ _ _ _ _ _ _ _ => false
  | .cbinit _ _ _ _ _ _ => false
  | .vshape _ _ _ _ _ _ _ _ _ _ => false
  | .vld _ _ _ _ _ _ _ _ _ => false
  | .vst _ _ _ _ _ _ _ => false
  | .vbcastX _ _ _ _ => false
  | .vbcastRow _ _ _ _ => false
  | .vbcastCol _ _ _ _ => false
  | .vsel _ _ _ _ _ => false
  | .vadd _ _ _ _ _ _ _ _ => false
  | .vsub _ _ _ _ _ _ _ _ => false
  | .vmul _ _ _ _ _ _ _ _ => false
  | .vfma _ _ _ _ _ _ _ _ _ => false
  | .vmax _ _ _ _ _ _ _ _ => false
  | .vmin _ _ _ _ _ _ _ _ => false
  | .vabs _ _ _ _ => false
  | .vneg _ _ _ _ => false
  | .vcmp _ _ _ _ _ _ _ _ _ => false
  | .vand _ _ _ _ _ _ _ => false
  | .vor _ _ _ _ _ _ _ => false
  | .vxor _ _ _ _ _ _ _ => false
  | .vshl _ _ _ _ _ _ _ => false
  | .vshr _ _ _ _ _ _ _ => false
  | .vpopc _ _ _ => false
  | .vcvt _ _ _ _ _ _ _ => false
  | .vred _ _ _ _ _ _ => false
  | .vgelu _ _ _ _ => false
  | .vsilu _ _ _ _ => false
  | .vsplus _ _ _ _ => false
  | .vtanh _ _ _ _ => false
  | .vsigm _ _ _ _ => false
  | .vexp _ _ _ _ => false
  | .vrcp _ _ _ _ => false
  | .vrsqrt _ _ _ _ => false
  | .vtblld _ _ _ _ _ => false
  | .vtbl _ _ _ _ _ => false
  | .vtolog _ _ _ => false
  | .vfrlog _ _ _ _ => false
  | .vladd _ _ _ _ _ _ _ => false
  | .vlsub _ _ _ _ _ _ _ => false
  | .vlshr _ _ _ _ => false
  | .vlmul _ _ _ _ _ => false
  | .vhamm _ _ _ _ _ => false
  | .vtopk _ _ _ _ _ _ _ => false
  | .vfilt _ _ _ _ _ _ _ _ => false
  | .vsect _ _ _ _ _ => false
  | .vuniq _ _ _ _ => false
  | .vbkt _ _ _ _ _ _ => false
  | .mcfgLevel _ _ _ _ _ _ => false
  | .mcfgNest _ _ _ => false
  | .mshp _ _ _ _ _ => false
  | .mshf _ _ _ _ _ => false
  | .mgo _ => false
  | .mrst _ _ => false
  | .mrstNone _ => false
  | .maccClr _ _ => false
  | .maccSave _ _ _ _ => false
  | .maccLoad _ _ _ _ => false
  | .mepi _ _ _ _ _ _ => false
  | .mlqSend _ _ _ _ _ _ => false
  | .mlqRecv _ _ _ _ _ _ => false
  | .mlqUnbind _ _ => false
  | .gpoolAuto _ _ _ _ _ _ _ _ => false
  | .gpoolDie _ _ _ _ _ _ _ _ => false
  | .gpoolFar _ _ _ _ _ _ _ _ => false
  | .gdeq _ _ _ _ _ _ _ => false
  | .gscan _ _ _ _ _ _ _ _ _ => false
  | .grank _ _ _ _ _ _ _ => false
  | .hrpin _ _ _ _ => false
  | .hrfree _ _ _ _ => false
  | .dupd _ _ _ _ _ _ _ _ => false
  | .dord _ _ _ _ _ _ _ _ => false
  | .xall _ _ _ _ _ _ _ _ => false
  | .wload _ _ _ _ _ _ _ _ => false
  | .wtbl _ _ _ _ _ _ _ _ _ => false
  | .mswaysDrain _ _ => true
  | .mswaysConvert _ _ => true
  | .commandStart _ _ => true
  | .commandComplete _ _ _ => true
  | .nestStep _ => true
  | .epilogue _ => true
  | .registerWriteLanding _ => true
  | .loadValueReturn _ _ => true
  | .heldWordResume _ => true
  | .stopSpacing _ => true
  | .pendingTrapDelivery _ => true
  | .launchPacket _ _ _ _ => true
  | .launchAccept _ => true
  | .jobDispatch _ _ => true
  | .iterationHandout _ => true
  | .recordPickup _ => true
  | .schedAge _ => true
  | .fairnessDue _ => true
  | .fairnessWindowEnd _ => true
  | .issuePass _ => true
  | .mangleTake _ => true
  | .watchdogExpiry _ => true
  | .jobComplete _ _ => true
  | .cancelRequest _ _ _ => true
  | .linkTileArrival _ _ _ _ => true
  | .ltqCredit _ _ => true
  | .ltqBindPacket _ _ _ _ _ _ _ => true
  | .ltqTimeout _ _ => true
  | .routePacket _ => true
  | .multicastForward _ _ _ _ _ _ _ _ _ => true
  | .fabricWriteArrival _ _ _ _ _ => true
  | .fabricAck _ _ => true
  | .fabricAtomicArrival _ _ _ _ _ _ _ => true
  | .fabricAnswerWrite _ _ _ => true
  | .monitorRequestArrival _ _ _ _ => true
  | .wakeWrite _ => true
  | .requestRecordArrival _ _ _ _ => true
  | .remoteBarrierAdd _ _ _ _ _ => true
  | .ethRmaWrite _ _ _ _ => true
  | .ethUntaggedSend _ _ => true
  | .ethDeliveryAck _ => true
  | .hostRead _ _ => true
  | .hostWrite _ _ => true
  | .faultQueueAppend => true
  | .fqPop => true
  | .fqEnd _ => true
  | .erPop => true
  | .trInvalWrite _ _ => true
  | .trInvalDone _ => true
  | .skClrWrite _ _ => true
  | .sketchHalve _ _ => true
  | .hrCfgWrite _ _ => true
  | .hrCfgTakeEffect _ => true
  | .chmWrite _ _ _ _ => true
  | .migGo _ => true
  | .migrationDone _ => true
  | .wvQuotaWrite _ => true
  | .viewFree _ => true
  | .opSelWrite _ => true
  | .opmodeApply => true
  | .leaveGrant _ _ => true
  | .testResult _ _ => true
  | .memoryCorrectedError _ _ _ => true
  | .arraySoftError _ _ => true
  | .linkStateChange _ _ _ _ => true
  | .linkFecCorrection _ _ => true
  | .powerOnReset => true
  | .rstCtlWrite _ => true
  | .boot _ => true
  | .atGoWrite _ => true
  | .attestReportDone => true
  | .replayHoldLimit _ => true
  | .registerWrite _ _ _ => true
  | .linkLevelRetry _ _ => true
  | .skClrDone _ => true
  | .mswaysOperationEnd _ => true

end Sys2Proof
end

