-- ==== Sys2Proof/Decode.lean ====
section
/-! DEFINITION. Instruction words to instructions and back (R11, R21 to R31, R33). Decoding is total: it answers an
instruction or the name of the reason it refuses, and no reserved encoding falls through to a neighbour, since a candidate
is accepted only if its own encoding gives back every bit that was read. -/

namespace Sys2Proof

/-- Why a word is no instruction (R33). -/
inductive DecodeError where
  /-- Major 0x00 or 0x3F, illegal permanently. -/
  | permanentlyIllegal
  /-- A reserved major. -/
  | reservedMajor
  /-- An unassigned minor or sub-field value, or a reserved size code. -/
  | unassigned
  /-- Bits [31:28] of an extension word are not zero. -/
  | extensionHighBits
  /-- A ring bit on a command of majors 0x38 to 0x3A. -/
  | ringBits
  /-- A field or bit that must be zero is not. -/
  | nonZeroField
  /-- A field holds a value its entry reserves. -/
  | reservedValue
  /-- Fewer bytes than the instruction takes. -/
  | truncated
deriving DecidableEq, Repr

/-- Bits [lo + n − 1 : lo] of a word. -/
def fld (w lo n : Nat) : Nat := w / 2 ^ lo % 2 ^ n

/-- The header bits of a first word (R11). -/
def hdrOf (w : Nat) : Hdr :=
  { wp := fld w 31 1 == 1, sp := fld w 30 1 == 1, wn := fld w 29 1 == 1, sn := fld w 28 1 == 1, stop := fld w 27 1 == 1 }

/-- Where R11 puts the header bits. -/
def encHdr (h : Hdr) : Nat :=
  h.wp.toNat * 2147483648 + h.sp.toNat * 1073741824 + h.wn.toNat * 536870912 + h.sn.toNat * 268435456
    + h.stop.toNat * 134217728

/-- The number of words of an instruction with this first word (R29, R30); a reserved major has no extension word. -/
def wordCount (w0 : Nat) : Nat :=
  match fld w0 21 6 with
  | 10 => 3
  | 13 => if fld w0 8 3 < 2 then 2 else 1
  | 14 => if fld w0 18 1 = 1 then 2 else 1
  | 59 => 1
  | m => if 24 ≤ m ∧ m % 32 < 28 ∧ (m < 52 ∨ 56 ≤ m ∧ m < 60) ∧ ¬ (44 ≤ m ∧ m ≤ 47) then 2 else 1

/-- Whether the major is one of a table-engine command (R13). -/
def tableMajor (w0 : Nat) : Bool := 56 ≤ fld w0 21 6 && fld w0 21 6 ≤ 58

/-- The instruction that a first word of major 0x01 selects (R30, R31), its fields as they stand. -/
def cand01 (w0 _w1 _w2 : Nat) : Option Instr :=
  match fld w0 0 4 with
  | 0 => some (.add (hdrOf w0) (Fin.ofNat 32 (fld w0 16 5)) (Fin.ofNat 32 (fld w0 11 5)) (Fin.ofNat 32 (fld w0 6 5)) (fld w0 5 1 == 1) (fld w0 4 1 == 1))
  | 1 => some (.sub (hdrOf w0) (Fin.ofNat 32 (fld w0 16 5)) (Fin.ofNat 32 (fld w0 11 5)) (Fin.ofNat 32 (fld w0 6 5)) (fld w0 5 1 == 1) (fld w0 4 1 == 1))
  | 2 => some (.and (hdrOf w0) (Fin.ofNat 32 (fld w0 16 5)) (Fin.ofNat 32 (fld w0 11 5)) (Fin.ofNat 32 (fld w0 6 5)) (fld w0 5 1 == 1) (fld w0 4 1 == 1))
  | 3 => some (.or (hdrOf w0) (Fin.ofNat 32 (fld w0 16 5)) (Fin.ofNat 32 (fld w0 11 5)) (Fin.ofNat 32 (fld w0 6 5)) (fld w0 5 1 == 1) (fld w0 4 1 == 1))
  | 4 => some (.xor (hdrOf w0) (Fin.ofNat 32 (fld w0 16 5)) (Fin.ofNat 32 (fld w0 11 5)) (Fin.ofNat 32 (fld w0 6 5)) (fld w0 5 1 == 1) (fld w0 4 1 == 1))
  | 5 => some (.andn (hdrOf w0) (Fin.ofNat 32 (fld w0 16 5)) (Fin.ofNat 32 (fld w0 11 5)) (Fin.ofNat 32 (fld w0 6 5)) (fld w0 5 1 == 1) (fld w0 4 1 == 1))
  | 6 => some (.sll (hdrOf w0) (Fin.ofNat 32 (fld w0 16 5)) (Fin.ofNat 32 (fld w0 11 5)) (Fin.ofNat 32 (fld w0 6 5)) (fld w0 5 1 == 1) (fld w0 4 1 == 1))
  | 7 => some (.srl (hdrOf w0) (Fin.ofNat 32 (fld w0 16 5)) (Fin.ofNat 32 (fld w0 11 5)) (Fin.ofNat 32 (fld w0 6 5)) (fld w0 5 1 == 1) (fld w0 4 1 == 1))
  | 8 => some (.sra (hdrOf w0) (Fin.ofNat 32 (fld w0 16 5)) (Fin.ofNat 32 (fld w0 11 5)) (Fin.ofNat 32 (fld w0 6 5)) (fld w0 5 1 == 1) (fld w0 4 1 == 1))
  | 9 => some (.rol (hdrOf w0) (Fin.ofNat 32 (fld w0 16 5)) (Fin.ofNat 32 (fld w0 11 5)) (Fin.ofNat 32 (fld w0 6 5)) (fld w0 5 1 == 1) (fld w0 4 1 == 1))
  | 10 => some (.min (hdrOf w0) (Fin.ofNat 32 (fld w0 16 5)) (Fin.ofNat 32 (fld w0 11 5)) (Fin.ofNat 32 (fld w0 6 5)) (fld w0 5 1 == 1) (fld w0 4 1 == 1))
  | 11 => some (.max (hdrOf w0) (Fin.ofNat 32 (fld w0 16 5)) (Fin.ofNat 32 (fld w0 11 5)) (Fin.ofNat 32 (fld w0 6 5)) (fld w0 5 1 == 1) (fld w0 4 1 == 1))
  | 12 => some (.minu (hdrOf w0) (Fin.ofNat 32 (fld w0 16 5)) (Fin.ofNat 32 (fld w0 11 5)) (Fin.ofNat 32 (fld w0 6 5)) (fld w0 5 1 == 1) (fld w0 4 1 == 1))
  | 13 => some (.maxu (hdrOf w0) (Fin.ofNat 32 (fld w0 16 5)) (Fin.ofNat 32 (fld w0 11 5)) (Fin.ofNat 32 (fld w0 6 5)) (fld w0 5 1 == 1) (fld w0 4 1 == 1))
  | 14 => some (.slt (hdrOf w0) (Fin.ofNat 32 (fld w0 16 5)) (Fin.ofNat 32 (fld w0 11 5)) (Fin.ofNat 32 (fld w0 6 5)) (fld w0 5 1 == 1) (fld w0 4 1 == 1))
  | 15 => some (.sltu (hdrOf w0) (Fin.ofNat 32 (fld w0 16 5)) (Fin.ofNat 32 (fld w0 11 5)) (Fin.ofNat 32 (fld w0 6 5)) (fld w0 5 1 == 1) (fld w0 4 1 == 1))
  | _ => none

/-- The instruction that a first word of major 0x02 selects (R30, R31), its fields as they stand. -/
def cand02 (w0 _w1 _w2 : Nat) : Option Instr :=
  match fld w0 0 4 with
  | 0 => some (.mul (hdrOf w0) (Fin.ofNat 32 (fld w0 16 5)) (Fin.ofNat 32 (fld w0 11 5)) (Fin.ofNat 32 (fld w0 6 5)) (fld w0 5 1 == 1) (fld w0 4 1 == 1))
  | 1 => some (.mulh (hdrOf w0) (Fin.ofNat 32 (fld w0 16 5)) (Fin.ofNat 32 (fld w0 11 5)) (Fin.ofNat 32 (fld w0 6 5)) (fld w0 5 1 == 1) (fld w0 4 1 == 1))
  | 2 => some (.mulhu (hdrOf w0) (Fin.ofNat 32 (fld w0 16 5)) (Fin.ofNat 32 (fld w0 11 5)) (Fin.ofNat 32 (fld w0 6 5)) (fld w0 5 1 == 1) (fld w0 4 1 == 1))
  | 3 => some (.div (hdrOf w0) (Fin.ofNat 32 (fld w0 16 5)) (Fin.ofNat 32 (fld w0 11 5)) (Fin.ofNat 32 (fld w0 6 5)) (fld w0 5 1 == 1) (fld w0 4 1 == 1))
  | 4 => some (.divu (hdrOf w0) (Fin.ofNat 32 (fld w0 16 5)) (Fin.ofNat 32 (fld w0 11 5)) (Fin.ofNat 32 (fld w0 6 5)) (fld w0 5 1 == 1) (fld w0 4 1 == 1))
  | 5 => some (.rem (hdrOf w0) (Fin.ofNat 32 (fld w0 16 5)) (Fin.ofNat 32 (fld w0 11 5)) (Fin.ofNat 32 (fld w0 6 5)) (fld w0 5 1 == 1) (fld w0 4 1 == 1))
  | 6 => some (.remu (hdrOf w0) (Fin.ofNat 32 (fld w0 16 5)) (Fin.ofNat 32 (fld w0 11 5)) (Fin.ofNat 32 (fld w0 6 5)) (fld w0 5 1 == 1) (fld w0 4 1 == 1))
  | 7 => some (.clz (hdrOf w0) (Fin.ofNat 32 (fld w0 16 5)) (Fin.ofNat 32 (fld w0 11 5)) (fld w0 5 1 == 1))
  | 8 => some (.ctz (hdrOf w0) (Fin.ofNat 32 (fld w0 16 5)) (Fin.ofNat 32 (fld w0 11 5)) (fld w0 5 1 == 1))
  | 9 => some (.popc (hdrOf w0) (Fin.ofNat 32 (fld w0 16 5)) (Fin.ofNat 32 (fld w0 11 5)) (fld w0 5 1 == 1))
  | 10 => some (.sext (hdrOf w0) (Fin.ofNat 32 (fld w0 16 5)) (Fin.ofNat 32 (fld w0 11 5)) (Fin.ofNat 32 (fld w0 6 5)) (fld w0 5 1 == 1) (fld w0 4 1 == 1))
  | 11 => some (.zext (hdrOf w0) (Fin.ofNat 32 (fld w0 16 5)) (Fin.ofNat 32 (fld w0 11 5)) (Fin.ofNat 32 (fld w0 6 5)) (fld w0 5 1 == 1) (fld w0 4 1 == 1))
  | 12 => some (.sel (hdrOf w0) (Fin.ofNat 32 (fld w0 16 5)) (Fin.ofNat 32 (fld w0 11 5)) (Fin.ofNat 32 (fld w0 6 5)) (fld w0 5 1 == 1) (fld w0 4 1 == 1))
  | _ => none

/-- The instruction that a first word of major 0x03 selects (R30, R31), its fields as they stand. -/
def cand03 (w0 _w1 _w2 : Nat) : Option Instr :=
  some (.addi (hdrOf w0) (Fin.ofNat 32 (fld w0 16 5)) (Fin.ofNat 32 (fld w0 11 5)) (fld w0 10 1 == 1) (BitVec.ofNat 10 (fld w0 0 10)))

/-- The instruction that a first word of major 0x04 selects (R30, R31), its fields as they stand. -/
def cand04 (w0 _w1 _w2 : Nat) : Option Instr :=
  some (.andi (hdrOf w0) (Fin.ofNat 32 (fld w0 16 5)) (Fin.ofNat 32 (fld w0 11 5)) (fld w0 10 1 == 1) (BitVec.ofNat 10 (fld w0 0 10)))

/-- The instruction that a first word of major 0x05 selects (R30, R31), its fields as they stand. -/
def cand05 (w0 _w1 _w2 : Nat) : Option Instr :=
  some (.ori (hdrOf w0) (Fin.ofNat 32 (fld w0 16 5)) (Fin.ofNat 32 (fld w0 11 5)) (fld w0 10 1 == 1) (BitVec.ofNat 10 (fld w0 0 10)))

/-- The instruction that a first word of major 0x06 selects (R30, R31), its fields as they stand. -/
def cand06 (w0 _w1 _w2 : Nat) : Option Instr :=
  some (.xori (hdrOf w0) (Fin.ofNat 32 (fld w0 16 5)) (Fin.ofNat 32 (fld w0 11 5)) (fld w0 10 1 == 1) (BitVec.ofNat 10 (fld w0 0 10)))

/-- The instruction that a first word of major 0x07 selects (R30, R31), its fields as they stand. -/
def cand07 (w0 _w1 _w2 : Nat) : Option Instr :=
  match fld w0 6 4 with
  | 0 => some (.slli (hdrOf w0) (Fin.ofNat 32 (fld w0 16 5)) (Fin.ofNat 32 (fld w0 11 5)) (fld w0 10 1 == 1) (BitVec.ofNat 6 (fld w0 0 6)))
  | 1 => some (.srli (hdrOf w0) (Fin.ofNat 32 (fld w0 16 5)) (Fin.ofNat 32 (fld w0 11 5)) (fld w0 10 1 == 1) (BitVec.ofNat 6 (fld w0 0 6)))
  | 2 => some (.srai (hdrOf w0) (Fin.ofNat 32 (fld w0 16 5)) (Fin.ofNat 32 (fld w0 11 5)) (fld w0 10 1 == 1) (BitVec.ofNat 6 (fld w0 0 6)))
  | _ => none

/-- The instruction that a first word of major 0x08 selects (R30, R31), its fields as they stand. -/
def cand08 (w0 _w1 _w2 : Nat) : Option Instr :=
  match fld w0 9 1 with
  | 0 => some (.slti (hdrOf w0) (Fin.ofNat 32 (fld w0 16 5)) (Fin.ofNat 32 (fld w0 11 5)) (fld w0 10 1 == 1) (BitVec.ofNat 9 (fld w0 0 9)))
  | 1 => some (.seqi (hdrOf w0) (Fin.ofNat 32 (fld w0 16 5)) (Fin.ofNat 32 (fld w0 11 5)) (fld w0 10 1 == 1) (BitVec.ofNat 9 (fld w0 0 9)))
  | _ => none

/-- The instruction that a first word of major 0x09 selects (R30, R31), its fields as they stand. -/
def cand09 (w0 _w1 _w2 : Nat) : Option Instr :=
  some (.li (hdrOf w0) (Fin.ofNat 32 (fld w0 16 5)) (BitVec.ofNat 16 (fld w0 0 16)))

/-- The instruction that a first word of major 0x0A selects (R30, R31), its fields as they stand. -/
def cand0A (w0 w1 w2 : Nat) : Option Instr :=
  some (.lih (hdrOf w0) (Fin.ofNat 32 (fld w0 16 5)) (BitVec.ofNat 16 (fld w0 0 16)) (BitVec.ofNat 28 (fld w1 0 28)) (BitVec.ofNat 20 (fld w2 8 20)))

/-- The instruction that a first word of major 0x0B selects (R30, R31), its fields as they stand. -/
def cand0B (w0 _w1 _w2 : Nat) : Option Instr :=
  some (.apc (hdrOf w0) (Fin.ofNat 32 (fld w0 16 5)) (BitVec.ofNat 16 (fld w0 0 16)))

/-- The instruction that a first word of major 0x0C selects (R30, R31), its fields as they stand. -/
def cand0C (w0 _w1 _w2 : Nat) : Option Instr :=
  match fld w0 8 3 with
  | 0 => some (.beq (hdrOf w0) (Fin.ofNat 32 (fld w0 16 5)) (Fin.ofNat 32 (fld w0 11 5)) (BitVec.ofNat 8 (fld w0 0 8)))
  | 1 => some (.bne (hdrOf w0) (Fin.ofNat 32 (fld w0 16 5)) (Fin.ofNat 32 (fld w0 11 5)) (BitVec.ofNat 8 (fld w0 0 8)))
  | 2 => some (.blt (hdrOf w0) (Fin.ofNat 32 (fld w0 16 5)) (Fin.ofNat 32 (fld w0 11 5)) (BitVec.ofNat 8 (fld w0 0 8)))
  | 3 => some (.bge (hdrOf w0) (Fin.ofNat 32 (fld w0 16 5)) (Fin.ofNat 32 (fld w0 11 5)) (BitVec.ofNat 8 (fld w0 0 8)))
  | 4 => some (.bltu (hdrOf w0) (Fin.ofNat 32 (fld w0 16 5)) (Fin.ofNat 32 (fld w0 11 5)) (BitVec.ofNat 8 (fld w0 0 8)))
  | 5 => some (.bgeu (hdrOf w0) (Fin.ofNat 32 (fld w0 16 5)) (Fin.ofNat 32 (fld w0 11 5)) (BitVec.ofNat 8 (fld w0 0 8)))
  | 6 => some (.bz (hdrOf w0) (Fin.ofNat 32 (fld w0 16 5)) (BitVec.ofNat 8 (fld w0 0 8)))
  | 7 => some (.bnz (hdrOf w0) (Fin.ofNat 32 (fld w0 16 5)) (BitVec.ofNat 8 (fld w0 0 8)))
  | _ => none

/-- The instruction that a first word of major 0x0D selects (R30, R31), its fields as they stand. -/
def cand0D (w0 w1 _w2 : Nat) : Option Instr :=
  match fld w0 8 3 with
  | 0 => some (.br (hdrOf w0) (BitVec.ofNat 28 (fld w1 0 28)))
  | 1 => some (.call (hdrOf w0) (Fin.ofNat 32 (fld w0 16 5)) (BitVec.ofNat 28 (fld w1 0 28)))
  | 2 => some (.ret (hdrOf w0) (Fin.ofNat 32 (fld w0 16 5)))
  | 3 => some (.jr (hdrOf w0) (Fin.ofNat 32 (fld w0 16 5)))
  | _ => none

/-- The instruction that a first word of major 0x0E selects (R30, R31), its fields as they stand. -/
def cand0E (w0 w1 _w2 : Nat) : Option Instr :=
  match fld w0 18 1 with
  | 0 => some (.loop (hdrOf w0) (Fin.ofNat 4 (fld w0 19 2)) (Fin.ofNat 32 (fld w0 11 5)) (fld w0 10 1 == 1) (BitVec.ofNat 10 (fld w0 0 10)))
  | 1 => some (.loopi (hdrOf w0) (Fin.ofNat 4 (fld w0 19 2)) (BitVec.ofNat 16 (fld w1 12 16)) (BitVec.ofNat 10 (fld w0 0 10)))
  | _ => none

/-- The instruction that a first word of major 0x0F selects (R30, R31), its fields as they stand. -/
def cand0F (w0 _w1 _w2 : Nat) : Option Instr :=
  match fld w0 0 4 with
  | 0 => some (.semadd (hdrOf w0) (Fin.ofNat 16 (fld w0 16 4)) (Fin.ofNat 32 (fld w0 11 5)) (fld w0 5 1 == 1))
  | 1 => some (.semwt (hdrOf w0) (Fin.ofNat 16 (fld w0 16 4)) (Fin.ofNat 32 (fld w0 11 5)) (fld w0 5 1 == 1))
  | 2 => some (.mbrd (hdrOf w0) (Fin.ofNat 32 (fld w0 16 5)) (Fin.ofNat 16 (fld w0 11 4)))
  | 3 => some (.mbwr (hdrOf w0) (Fin.ofNat 16 (fld w0 16 4)) (Fin.ofNat 32 (fld w0 11 5)) (Fin.ofNat 32 (fld w0 6 5)) (fld w0 5 1 == 1) (fld w0 4 1 == 1))
  | 4 => some (.waitaddr (hdrOf w0) (Fin.ofNat 32 (fld w0 16 5)) (Fin.ofNat 32 (fld w0 11 5)) (Fin.ofNat 32 (fld w0 6 5)) (fld w0 5 1 == 1) (fld w0 4 1 == 1))
  | 5 => some (.park (hdrOf w0))
  | 6 => some (.yield (hdrOf w0))
  | 7 => some (.done (hdrOf w0))
  | 8 => some (.trap (hdrOf w0) (BitVec.ofNat 15 (fld w0 6 15)))
  | 9 => some (.tret (hdrOf w0))
  | 10 => some (.crr (hdrOf w0) (Fin.ofNat 32 (fld w0 16 5)) (BitVec.ofNat 10 (fld w0 6 10)))
  | 11 => some (.crw (hdrOf w0) (Fin.ofNat 32 (fld w0 16 5)) (BitVec.ofNat 10 (fld w0 6 10)) (fld w0 5 1 == 1))
  | 12 => some (.lvreq (hdrOf w0) (Fin.ofNat 32 (fld w0 11 5)) (fld w0 5 1 == 1))
  | 13 => some (.lvrel (hdrOf w0) (Fin.ofNat 32 (fld w0 11 5)) (fld w0 5 1 == 1))
  | 14 => match fld w0 6 5 with
    | 0 => some (.bist (hdrOf w0) (Fin.ofNat 32 (fld w0 16 5)) (Fin.ofNat 32 (fld w0 11 5)) (fld w0 5 1 == 1))
    | 1 => some (.scan (hdrOf w0) (Fin.ofNat 32 (fld w0 16 5)) (Fin.ofNat 32 (fld w0 11 5)) (fld w0 5 1 == 1))
    | _ => none
  | 15 => match fld w0 6 5 with
    | 0 => some (.errrd (hdrOf w0) (Fin.ofNat 32 (fld w0 16 5)) (Fin.ofNat 32 (fld w0 11 5)) (fld w0 5 1 == 1))
    | 1 => some (.jcancel (hdrOf w0) (Fin.ofNat 32 (fld w0 16 5)) (Fin.ofNat 32 (fld w0 11 5)) (fld w0 5 1 == 1))
    | _ => none
  | _ => none

/-- The instruction that a first word of major 0x10 selects (R30, R31), its fields as they stand. -/
def cand10 (w0 _w1 _w2 : Nat) : Option Instr :=
  match fld w0 6 3 with
  | 0 => some (.ldb (hdrOf w0) (Fin.ofNat 32 (fld w0 16 5)) (Fin.ofNat 32 (fld w0 11 5)) (BitVec.ofNat 2 (fld w0 9 2)) (BitVec.ofNat 6 (fld w0 0 6)))
  | 1 => some (.ldbu (hdrOf w0) (Fin.ofNat 32 (fld w0 16 5)) (Fin.ofNat 32 (fld w0 11 5)) (BitVec.ofNat 2 (fld w0 9 2)) (BitVec.ofNat 6 (fld w0 0 6)))
  | 2 => some (.ldh (hdrOf w0) (Fin.ofNat 32 (fld w0 16 5)) (Fin.ofNat 32 (fld w0 11 5)) (BitVec.ofNat 2 (fld w0 9 2)) (BitVec.ofNat 6 (fld w0 0 6)))
  | 3 => some (.ldhu (hdrOf w0) (Fin.ofNat 32 (fld w0 16 5)) (Fin.ofNat 32 (fld w0 11 5)) (BitVec.ofNat 2 (fld w0 9 2)) (BitVec.ofNat 6 (fld w0 0 6)))
  | 4 => some (.ldw (hdrOf w0) (Fin.ofNat 32 (fld w0 16 5)) (Fin.ofNat 32 (fld w0 11 5)) (BitVec.ofNat 2 (fld w0 9 2)) (BitVec.ofNat 6 (fld w0 0 6)))
  | 5 => some (.ldwu (hdrOf w0) (Fin.ofNat 32 (fld w0 16 5)) (Fin.ofNat 32 (fld w0 11 5)) (BitVec.ofNat 2 (fld w0 9 2)) (BitVec.ofNat 6 (fld w0 0 6)))
  | 6 => some (.ldd (hdrOf w0) (Fin.ofNat 32 (fld w0 16 5)) (Fin.ofNat 32 (fld w0 11 5)) (BitVec.ofNat 2 (fld w0 9 2)) (BitVec.ofNat 6 (fld w0 0 6)))
  | _ => none

/-- The instruction that a first word of major 0x11 selects (R30, R31), its fields as they stand. -/
def cand11 (w0 _w1 _w2 : Nat) : Option Instr :=
  match fld w0 6 3 with
  | 0 => some (.stb (hdrOf w0) (Fin.ofNat 32 (fld w0 16 5)) (Fin.ofNat 32 (fld w0 11 5)) (BitVec.ofNat 2 (fld w0 9 2)) (BitVec.ofNat 6 (fld w0 0 6)))
  | 2 => some (.sth (hdrOf w0) (Fin.ofNat 32 (fld w0 16 5)) (Fin.ofNat 32 (fld w0 11 5)) (BitVec.ofNat 2 (fld w0 9 2)) (BitVec.ofNat 6 (fld w0 0 6)))
  | 4 => some (.stw (hdrOf w0) (Fin.ofNat 32 (fld w0 16 5)) (Fin.ofNat 32 (fld w0 11 5)) (BitVec.ofNat 2 (fld w0 9 2)) (BitVec.ofNat 6 (fld w0 0 6)))
  | 6 => some (.std (hdrOf w0) (Fin.ofNat 32 (fld w0 16 5)) (Fin.ofNat 32 (fld w0 11 5)) (BitVec.ofNat 2 (fld w0 9 2)) (BitVec.ofNat 6 (fld w0 0 6)))
  | _ => none

/-- The instruction that a first word of major 0x12 selects (R30, R31), its fields as they stand. -/
def cand12 (w0 _w1 _w2 : Nat) : Option Instr :=
  match fld w0 5 1 with
  | 0 => some (.ldAcq (hdrOf w0) (Fin.ofNat 32 (fld w0 16 5)) (Fin.ofNat 32 (fld w0 11 5)) (BitVec.ofNat 2 (fld w0 9 2)))
  | 1 => some (.stRel (hdrOf w0) (Fin.ofNat 32 (fld w0 16 5)) (Fin.ofNat 32 (fld w0 11 5)) (BitVec.ofNat 2 (fld w0 9 2)))
  | _ => none

/-- The instruction that a first word of major 0x13 selects (R30, R31), its fields as they stand. -/
def cand13 (w0 _w1 _w2 : Nat) : Option Instr :=
  match fld w0 0 4 with
  | 0 => some (.amoadd (hdrOf w0) (Fin.ofNat 32 (fld w0 16 5)) (Fin.ofNat 32 (fld w0 11 5)) (Fin.ofNat 32 (fld w0 6 5)) (fld w0 5 1 == 1) (fld w0 4 1 == 1))
  | 1 => some (.amoand (hdrOf w0) (Fin.ofNat 32 (fld w0 16 5)) (Fin.ofNat 32 (fld w0 11 5)) (Fin.ofNat 32 (fld w0 6 5)) (fld w0 5 1 == 1) (fld w0 4 1 == 1))
  | 2 => some (.amoor (hdrOf w0) (Fin.ofNat 32 (fld w0 16 5)) (Fin.ofNat 32 (fld w0 11 5)) (Fin.ofNat 32 (fld w0 6 5)) (fld w0 5 1 == 1) (fld w0 4 1 == 1))
  | 3 => some (.amoxor (hdrOf w0) (Fin.ofNat 32 (fld w0 16 5)) (Fin.ofNat 32 (fld w0 11 5)) (Fin.ofNat 32 (fld w0 6 5)) (fld w0 5 1 == 1) (fld w0 4 1 == 1))
  | 4 => some (.amomin (hdrOf w0) (Fin.ofNat 32 (fld w0 16 5)) (Fin.ofNat 32 (fld w0 11 5)) (Fin.ofNat 32 (fld w0 6 5)) (fld w0 5 1 == 1) (fld w0 4 1 == 1))
  | 5 => some (.amomax (hdrOf w0) (Fin.ofNat 32 (fld w0 16 5)) (Fin.ofNat 32 (fld w0 11 5)) (Fin.ofNat 32 (fld w0 6 5)) (fld w0 5 1 == 1) (fld w0 4 1 == 1))
  | 6 => some (.amominu (hdrOf w0) (Fin.ofNat 32 (fld w0 16 5)) (Fin.ofNat 32 (fld w0 11 5)) (Fin.ofNat 32 (fld w0 6 5)) (fld w0 5 1 == 1) (fld w0 4 1 == 1))
  | 7 => some (.amomaxu (hdrOf w0) (Fin.ofNat 32 (fld w0 16 5)) (Fin.ofNat 32 (fld w0 11 5)) (Fin.ofNat 32 (fld w0 6 5)) (fld w0 5 1 == 1) (fld w0 4 1 == 1))
  | 8 => some (.amoswap (hdrOf w0) (Fin.ofNat 32 (fld w0 16 5)) (Fin.ofNat 32 (fld w0 11 5)) (Fin.ofNat 32 (fld w0 6 5)) (fld w0 5 1 == 1) (fld w0 4 1 == 1))
  | 9 => some (.amocas (hdrOf w0) (Fin.ofNat 32 (fld w0 16 5)) (Fin.ofNat 32 (fld w0 11 5)) (Fin.ofNat 32 (fld w0 6 5)) (fld w0 5 1 == 1))
  | 10 => some (.amofadd (hdrOf w0) (Fin.ofNat 32 (fld w0 16 5)) (Fin.ofNat 32 (fld w0 11 5)) (Fin.ofNat 32 (fld w0 6 5)) (fld w0 5 1 == 1) (fld w0 4 1 == 1))
  | 11 => some (.amobfadd (hdrOf w0) (Fin.ofNat 32 (fld w0 16 5)) (Fin.ofNat 32 (fld w0 11 5)) (Fin.ofNat 32 (fld w0 6 5)) (fld w0 5 1 == 1) (fld w0 4 1 == 1))
  | _ => none

/-- The instruction that a first word of major 0x14 selects (R30, R31), its fields as they stand. -/
def cand14 (w0 _w1 _w2 : Nat) : Option Instr :=
  match fld w0 0 4 with
  | 0 => some (.fence (hdrOf w0) (BitVec.ofNat 2 (fld w0 16 2)))
  | 1 => some (.mark (hdrOf w0) (BitVec.ofNat 2 (fld w0 16 2)))
  | 2 => some (.wb (hdrOf w0) (Fin.ofNat 32 (fld w0 11 5)) (Fin.ofNat 32 (fld w0 6 5)) (fld w0 5 1 == 1) (fld w0 4 1 == 1))
  | 3 => some (.inv (hdrOf w0) (Fin.ofNat 32 (fld w0 11 5)) (Fin.ofNat 32 (fld w0 6 5)) (fld w0 5 1 == 1) (fld w0 4 1 == 1))
  | 4 => some (.wbinv (hdrOf w0) (Fin.ofNat 32 (fld w0 11 5)) (Fin.ofNat 32 (fld w0 6 5)) (fld w0 5 1 == 1) (fld w0 4 1 == 1))
  | 5 => some (.pf (hdrOf w0) (BitVec.ofNat 2 (fld w0 16 2)) (Fin.ofNat 32 (fld w0 11 5)) (fld w0 5 1 == 1))
  | 6 => some (.roinv (hdrOf w0) (Fin.ofNat 32 (fld w0 11 5)) (Fin.ofNat 32 (fld w0 6 5)) (fld w0 5 1 == 1) (fld w0 4 1 == 1))
  | _ => none

/-- The instruction that a first word of major 0x15 selects (R30, R31), its fields as they stand. -/
def cand15 (w0 _w1 _w2 : Nat) : Option Instr :=
  some (.ldro (hdrOf w0) (Fin.ofNat 32 (fld w0 16 5)) (Fin.ofNat 32 (fld w0 11 5)) (BitVec.ofNat 2 (fld w0 9 2)) (BitVec.ofNat 3 (fld w0 6 3)) (BitVec.ofNat 6 (fld w0 0 6)))

/-- The instruction that a first word of major 0x16 selects (R30, R31), its fields as they stand. -/
def cand16 (w0 _w1 _w2 : Nat) : Option Instr :=
  match fld w0 0 4 with
  | 0 => some (.bbinit (hdrOf w0) (Fin.ofNat 32 (fld w0 11 5)) (Fin.ofNat 32 (fld w0 6 5)) (fld w0 5 1 == 1) (fld w0 4 1 == 1))
  | 1 => some (.bbexp (hdrOf w0) (Fin.ofNat 32 (fld w0 11 5)) (Fin.ofNat 32 (fld w0 6 5)) (fld w0 5 1 == 1) (fld w0 4 1 == 1))
  | 2 => some (.bbwait (hdrOf w0) (Fin.ofNat 32 (fld w0 16 5)) (Fin.ofNat 32 (fld w0 11 5)) (Fin.ofNat 32 (fld w0 6 5)) (fld w0 5 1 == 1) (fld w0 4 1 == 1))
  | 3 => some (.cbacq (hdrOf w0) (Fin.ofNat 32 (fld w0 16 5)) (Fin.ofNat 16 (fld w0 11 4)))
  | 4 => some (.cbrel (hdrOf w0) (Fin.ofNat 16 (fld w0 16 4)))
  | _ => none

/-- The instruction that a first word of major 0x17 selects (R30, R31), its fields as they stand. -/
def cand17 (w0 _w1 _w2 : Nat) : Option Instr :=
  match fld w0 0 4 with
  | 0 => some (.fmst (hdrOf w0) (Fin.ofNat 32 (fld w0 16 5)) (Fin.ofNat 32 (fld w0 11 5)) (Fin.ofNat 32 (fld w0 6 5)))
  | 1 => some (.rqpost (hdrOf w0) (Fin.ofNat 32 (fld w0 16 5)) (Fin.ofNat 32 (fld w0 11 5)) (Fin.ofNat 32 (fld w0 6 5)) (fld w0 5 1 == 1) (fld w0 4 1 == 1))
  | 2 => some (.lpost (hdrOf w0) (Fin.ofNat 32 (fld w0 16 5)) (Fin.ofNat 32 (fld w0 11 5)) (Fin.ofNat 32 (fld w0 6 5)) (fld w0 5 1 == 1) (fld w0 4 1 == 1))
  | _ => none

/-- The instruction that a first word of major 0x18 selects (R30, R31), its fields as they stand. -/
def cand18 (w0 w1 _w2 : Nat) : Option Instr :=
  match fld w0 16 5 with
  | 0 => some (.cpy (hdrOf w0) (Fin.ofNat 32 (fld w0 11 5)) (Fin.ofNat 32 (fld w0 6 5)) (fld w0 5 1 == 1) (BitVec.ofNat 2 (fld w0 2 2)) (BitVec.ofNat 2 (fld w0 0 2)) (BitVec.ofNat 2 (fld w1 24 2)) (BitVec.ofNat 24 (fld w1 0 24)))
  | 1 => some (.cpy2 (hdrOf w0) (Fin.ofNat 32 (fld w0 11 5)) (Fin.ofNat 32 (fld w0 6 5)) (BitVec.ofNat 2 (fld w0 2 2)) (BitVec.ofNat 2 (fld w0 0 2)) (BitVec.ofNat 14 (fld w1 14 14)) (BitVec.ofNat 14 (fld w1 0 14)))
  | 2 => some (.cpyg (hdrOf w0) (Fin.ofNat 32 (fld w0 11 5)) (Fin.ofNat 32 (fld w0 6 5)) (BitVec.ofNat 2 (fld w0 2 2)) (BitVec.ofNat 2 (fld w0 0 2)) (BitVec.ofNat 12 (fld w1 16 12)) (BitVec.ofNat 16 (fld w1 0 16)))
  | _ => none

/-- The instruction that a first word of major 0x19 selects (R30, R31), its fields as they stand. -/
def cand19 (w0 w1 _w2 : Nat) : Option Instr :=
  match fld w0 16 5 with
  | 0 => some (.oqld (hdrOf w0) (Fin.ofNat 32 (fld w0 11 5)) (Fin.ofNat 32 (fld w0 6 5)) (fld w0 4 1 == 1) (BitVec.ofNat 2 (fld w0 2 2)) (BitVec.ofNat 2 (fld w1 20 2)) (BitVec.ofNat 16 (fld w1 4 16)) (Fin.ofNat 8 (fld w1 0 3)))
  | _ => none

/-- The instruction that a first word of major 0x1A selects (R30, R31), its fields as they stand. -/
def cand1A (w0 w1 _w2 : Nat) : Option Instr :=
  match fld w0 16 5 with
  | 0 => some (.tsld (hdrOf w0) (Fin.ofNat 32 (fld w0 11 5)) (Fin.ofNat 32 (fld w0 6 5)) (BitVec.ofNat 2 (fld w0 2 2)) (BitVec.ofNat 2 (fld w1 21 2)) (BitVec.ofNat 10 (fld w1 11 10)) (BitVec.ofNat 11 (fld w1 0 11)))
  | 1 => some (.tsst (hdrOf w0) (Fin.ofNat 32 (fld w0 11 5)) (Fin.ofNat 32 (fld w0 6 5)) (fld w0 5 1 == 1) (BitVec.ofNat 2 (fld w0 0 2)) (BitVec.ofNat 2 (fld w1 21 2)) (BitVec.ofNat 10 (fld w1 11 10)) (BitVec.ofNat 11 (fld w1 0 11)))
  | _ => none

/-- The instruction that a first word of major 0x1B selects (R30, R31), its fields as they stand. -/
def cand1B (w0 w1 _w2 : Nat) : Option Instr :=
  match fld w0 16 5 with
  | 0 => some (.cbinit (hdrOf w0) (Fin.ofNat 32 (fld w0 11 5)) (fld w0 5 1 == 1) (Fin.ofNat 16 (fld w1 0 4)) (BitVec.ofNat 12 (fld w1 4 12)) (BitVec.ofNat 8 (fld w1 16 8)))
  | _ => none

/-- The instruction that a first word of major 0x20 selects (R30, R31), its fields as they stand. -/
def cand20 (w0 w1 _w2 : Nat) : Option Instr :=
  match fld w0 16 5 with
  | 0 => some (.vshape (hdrOf w0) (Fin.ofNat 32 (fld w0 11 5)) (Fin.ofNat 32 (fld w0 6 5)) (fld w0 5 1 == 1) (fld w0 4 1 == 1) (fld w0 1 1 == 1) (fld w0 0 1 == 1) (BitVec.ofNat 4 (fld w1 10 4)) (BitVec.ofNat 6 (fld w1 4 6)) (BitVec.ofNat 4 (fld w1 0 4)))
  | 1 => some (.vld (hdrOf w0) (Fin.ofNat 32 (fld w0 11 5)) (Fin.ofNat 32 (fld w0 6 5)) (fld w0 5 1 == 1) (fld w0 4 1 == 1) (BitVec.ofNat 2 (fld w0 0 2)) (Fin.ofNat 16 (fld w1 0 4)) (Fin.ofNat 8 (fld w1 4 3)) (BitVec.ofNat 2 (fld w1 8 2)))
  | 2 => some (.vst (hdrOf w0) (Fin.ofNat 32 (fld w0 11 5)) (Fin.ofNat 32 (fld w0 6 5)) (fld w0 5 1 == 1) (BitVec.ofNat 2 (fld w0 0 2)) (Fin.ofNat 16 (fld w1 4 4)) (BitVec.ofNat 2 (fld w1 8 2)))
  | 3 => match fld w0 0 4 with
    | 0 => some (.vbcastX (hdrOf w0) (Fin.ofNat 32 (fld w0 11 5)) (fld w0 5 1 == 1) (Fin.ofNat 16 (fld w1 0 4)))
    | 1 => some (.vbcastRow (hdrOf w0) (Fin.ofNat 16 (fld w1 0 4)) (Fin.ofNat 16 (fld w1 4 4)) (BitVec.ofNat 4 (fld w1 16 4)))
    | 2 => some (.vbcastCol (hdrOf w0) (Fin.ofNat 16 (fld w1 0 4)) (Fin.ofNat 16 (fld w1 4 4)) (BitVec.ofNat 6 (fld w1 16 6)))
    | _ => none
  | 4 => some (.vsel (hdrOf w0) (Fin.ofNat 16 (fld w1 0 4)) (Fin.ofNat 16 (fld w1 4 4)) (Fin.ofNat 16 (fld w1 8 4)) (Fin.ofNat 16 (fld w1 12 4)))
  | _ => none

/-- The instruction that a first word of major 0x21 selects (R30, R31), its fields as they stand. -/
def cand21 (w0 w1 _w2 : Nat) : Option Instr :=
  match fld w0 16 5 with
  | 0 => some (.vadd (hdrOf w0) (Fin.ofNat 32 (fld w0 6 5)) (fld w0 4 1 == 1) (fld w0 0 1 == 1) (fld w0 1 1 == 1) (Fin.ofNat 16 (fld w1 0 4)) (Fin.ofNat 16 (fld w1 4 4)) (Fin.ofNat 16 (fld w1 8 4)))
  | 1 => some (.vsub (hdrOf w0) (Fin.ofNat 32 (fld w0 6 5)) (fld w0 4 1 == 1) (fld w0 0 1 == 1) (fld w0 1 1 == 1) (Fin.ofNat 16 (fld w1 0 4)) (Fin.ofNat 16 (fld w1 4 4)) (Fin.ofNat 16 (fld w1 8 4)))
  | 2 => some (.vmul (hdrOf w0) (Fin.ofNat 32 (fld w0 6 5)) (fld w0 4 1 == 1) (fld w0 0 1 == 1) (fld w0 1 1 == 1) (Fin.ofNat 16 (fld w1 0 4)) (Fin.ofNat 16 (fld w1 4 4)) (Fin.ofNat 16 (fld w1 8 4)))
  | 3 => some (.vfma (hdrOf w0) (Fin.ofNat 32 (fld w0 6 5)) (fld w0 4 1 == 1) (fld w0 0 1 == 1) (fld w0 1 1 == 1) (Fin.ofNat 16 (fld w1 0 4)) (Fin.ofNat 16 (fld w1 4 4)) (Fin.ofNat 16 (fld w1 8 4)) (Fin.ofNat 16 (fld w1 12 4)))
  | 4 => some (.vmax (hdrOf w0) (Fin.ofNat 32 (fld w0 6 5)) (fld w0 4 1 == 1) (fld w0 0 1 == 1) (fld w0 1 1 == 1) (Fin.ofNat 16 (fld w1 0 4)) (Fin.ofNat 16 (fld w1 4 4)) (Fin.ofNat 16 (fld w1 8 4)))
  | 5 => some (.vmin (hdrOf w0) (Fin.ofNat 32 (fld w0 6 5)) (fld w0 4 1 == 1) (fld w0 0 1 == 1) (fld w0 1 1 == 1) (Fin.ofNat 16 (fld w1 0 4)) (Fin.ofNat 16 (fld w1 4 4)) (Fin.ofNat 16 (fld w1 8 4)))
  | 6 => some (.vabs (hdrOf w0) (fld w0 1 1 == 1) (Fin.ofNat 16 (fld w1 0 4)) (Fin.ofNat 16 (fld w1 4 4)))
  | 7 => some (.vneg (hdrOf w0) (fld w0 1 1 == 1) (Fin.ofNat 16 (fld w1 0 4)) (Fin.ofNat 16 (fld w1 4 4)))
  | 8 => some (.vcmp (hdrOf w0) (Fin.ofNat 32 (fld w0 6 5)) (fld w0 4 1 == 1) (fld w0 0 1 == 1) (fld w0 1 1 == 1) (Fin.ofNat 16 (fld w1 0 4)) (Fin.ofNat 16 (fld w1 4 4)) (Fin.ofNat 16 (fld w1 8 4)) (BitVec.ofNat 3 (fld w1 16 3)))
  | _ => none

/-- The instruction that a first word of major 0x22 selects (R30, R31), its fields as they stand. -/
def cand22 (w0 w1 _w2 : Nat) : Option Instr :=
  match fld w0 16 5 with
  | 0 => some (.vand (hdrOf w0) (Fin.ofNat 32 (fld w0 6 5)) (fld w0 4 1 == 1) (fld w0 0 1 == 1) (Fin.ofNat 16 (fld w1 0 4)) (Fin.ofNat 16 (fld w1 4 4)) (Fin.ofNat 16 (fld w1 8 4)))
  | 1 => some (.vor (hdrOf w0) (Fin.ofNat 32 (fld w0 6 5)) (fld w0 4 1 == 1) (fld w0 0 1 == 1) (Fin.ofNat 16 (fld w1 0 4)) (Fin.ofNat 16 (fld w1 4 4)) (Fin.ofNat 16 (fld w1 8 4)))
  | 2 => some (.vxor (hdrOf w0) (Fin.ofNat 32 (fld w0 6 5)) (fld w0 4 1 == 1) (fld w0 0 1 == 1) (Fin.ofNat 16 (fld w1 0 4)) (Fin.ofNat 16 (fld w1 4 4)) (Fin.ofNat 16 (fld w1 8 4)))
  | 3 => some (.vshl (hdrOf w0) (Fin.ofNat 32 (fld w0 6 5)) (fld w0 4 1 == 1) (fld w0 0 1 == 1) (Fin.ofNat 16 (fld w1 0 4)) (Fin.ofNat 16 (fld w1 4 4)) (Fin.ofNat 16 (fld w1 8 4)))
  | 4 => some (.vshr (hdrOf w0) (Fin.ofNat 32 (fld w0 6 5)) (fld w0 4 1 == 1) (fld w0 0 1 == 1) (Fin.ofNat 16 (fld w1 0 4)) (Fin.ofNat 16 (fld w1 4 4)) (Fin.ofNat 16 (fld w1 8 4)))
  | 5 => some (.vpopc (hdrOf w0) (Fin.ofNat 16 (fld w1 0 4)) (Fin.ofNat 16 (fld w1 4 4)))
  | _ => none

/-- The instruction that a first word of major 0x23 selects (R30, R31), its fields as they stand. -/
def cand23 (w0 w1 _w2 : Nat) : Option Instr :=
  match fld w0 16 5 with
  | 0 => some (.vcvt (hdrOf w0) (Fin.ofNat 32 (fld w0 11 5)) (fld w0 5 1 == 1) (Fin.ofNat 16 (fld w1 0 4)) (Fin.ofNat 16 (fld w1 4 4)) (BitVec.ofNat 4 (fld w1 16 4)) (BitVec.ofNat 2 (fld w1 20 2)))
  | 1 => some (.vred (hdrOf w0) (fld w0 0 1 == 1) (fld w0 1 1 == 1) (Fin.ofNat 16 (fld w1 0 4)) (Fin.ofNat 16 (fld w1 4 4)) (BitVec.ofNat 3 (fld w1 16 3)))
  | _ => none

/-- The instruction that a first word of major 0x24 selects (R30, R31), its fields as they stand. -/
def cand24 (w0 w1 _w2 : Nat) : Option Instr :=
  match fld w0 16 5 with
  | 0 => some (.vgelu (hdrOf w0) (Fin.ofNat 16 (fld w1 0 4)) (Fin.ofNat 16 (fld w1 4 4)) (BitVec.ofNat 4 (fld w1 16 4)))
  | 1 => some (.vsilu (hdrOf w0) (Fin.ofNat 16 (fld w1 0 4)) (Fin.ofNat 16 (fld w1 4 4)) (BitVec.ofNat 4 (fld w1 16 4)))
  | 2 => some (.vsplus (hdrOf w0) (Fin.ofNat 16 (fld w1 0 4)) (Fin.ofNat 16 (fld w1 4 4)) (BitVec.ofNat 4 (fld w1 16 4)))
  | 3 => some (.vtanh (hdrOf w0) (Fin.ofNat 16 (fld w1 0 4)) (Fin.ofNat 16 (fld w1 4 4)) (BitVec.ofNat 4 (fld w1 16 4)))
  | 4 => some (.vsigm (hdrOf w0) (Fin.ofNat 16 (fld w1 0 4)) (Fin.ofNat 16 (fld w1 4 4)) (BitVec.ofNat 4 (fld w1 16 4)))
  | _ => none

/-- The instruction that a first word of major 0x25 selects (R30, R31), its fields as they stand. -/
def cand25 (w0 w1 _w2 : Nat) : Option Instr :=
  match fld w0 16 5 with
  | 0 => some (.vexp (hdrOf w0) (Fin.ofNat 16 (fld w1 0 4)) (Fin.ofNat 16 (fld w1 4 4)) (BitVec.ofNat 4 (fld w1 16 4)))
  | 1 => some (.vrcp (hdrOf w0) (Fin.ofNat 16 (fld w1 0 4)) (Fin.ofNat 16 (fld w1 4 4)) (BitVec.ofNat 4 (fld w1 16 4)))
  | 2 => some (.vrsqrt (hdrOf w0) (Fin.ofNat 16 (fld w1 0 4)) (Fin.ofNat 16 (fld w1 4 4)) (BitVec.ofNat 4 (fld w1 16 4)))
  | _ => none

/-- The instruction that a first word of major 0x26 selects (R30, R31), its fields as they stand. -/
def cand26 (w0 w1 _w2 : Nat) : Option Instr :=
  match fld w0 16 5 with
  | 0 => some (.vtblld (hdrOf w0) (Fin.ofNat 32 (fld w0 11 5)) (fld w0 5 1 == 1) (BitVec.ofNat 2 (fld w0 0 2)) (Fin.ofNat 4 (fld w1 0 2)))
  | 1 => some (.vtbl (hdrOf w0) (Fin.ofNat 16 (fld w1 0 4)) (Fin.ofNat 16 (fld w1 4 4)) (BitVec.ofNat 4 (fld w1 16 4)) (Fin.ofNat 4 (fld w1 20 2)))
  | _ => none

/-- The instruction that a first word of major 0x27 selects (R30, R31), its fields as they stand. -/
def cand27 (w0 w1 _w2 : Nat) : Option Instr :=
  match fld w0 16 5 with
  | 0 => some (.vtolog (hdrOf w0) (Fin.ofNat 16 (fld w1 0 4)) (Fin.ofNat 16 (fld w1 4 4)))
  | 1 => some (.vfrlog (hdrOf w0) (Fin.ofNat 16 (fld w1 0 4)) (Fin.ofNat 16 (fld w1 4 4)) (BitVec.ofNat 4 (fld w1 16 4)))
  | 2 => some (.vladd (hdrOf w0) (Fin.ofNat 32 (fld w0 6 5)) (fld w0 4 1 == 1) (BitVec.ofNat 2 (fld w0 0 2)) (Fin.ofNat 16 (fld w1 0 4)) (Fin.ofNat 16 (fld w1 4 4)) (Fin.ofNat 16 (fld w1 8 4)))
  | 3 => some (.vlsub (hdrOf w0) (Fin.ofNat 32 (fld w0 6 5)) (fld w0 4 1 == 1) (BitVec.ofNat 2 (fld w0 0 2)) (Fin.ofNat 16 (fld w1 0 4)) (Fin.ofNat 16 (fld w1 4 4)) (Fin.ofNat 16 (fld w1 8 4)))
  | 4 => some (.vlshr (hdrOf w0) (Fin.ofNat 16 (fld w1 0 4)) (Fin.ofNat 16 (fld w1 4 4)) (BitVec.ofNat 4 (fld w1 16 4)))
  | 5 => some (.vlmul (hdrOf w0) (Fin.ofNat 32 (fld w0 6 5)) (fld w0 4 1 == 1) (Fin.ofNat 16 (fld w1 0 4)) (Fin.ofNat 16 (fld w1 4 4)))
  | _ => none

/-- The instruction that a first word of major 0x28 selects (R30, R31), its fields as they stand. -/
def cand28 (w0 w1 _w2 : Nat) : Option Instr :=
  match fld w0 16 5 with
  | 0 => some (.vhamm (hdrOf w0) (Fin.ofNat 16 (fld w1 0 4)) (Fin.ofNat 16 (fld w1 4 4)) (Fin.ofNat 16 (fld w1 8 4)) (BitVec.ofNat 4 (fld w1 16 4)))
  | 1 => some (.vtopk (hdrOf w0) (fld w0 0 1 == 1) (Fin.ofNat 16 (fld w1 0 4)) (Fin.ofNat 16 (fld w1 4 4)) (Fin.ofNat 16 (fld w1 8 4)) (Fin.ofNat 16 (fld w1 12 4)) (BitVec.ofNat 6 (fld w1 16 6)))
  | 2 => some (.vfilt (hdrOf w0) (Fin.ofNat 32 (fld w0 11 5)) (Fin.ofNat 32 (fld w0 6 5)) (fld w0 5 1 == 1) (fld w0 4 1 == 1) (BitVec.ofNat 2 (fld w0 0 2)) (Fin.ofNat 16 (fld w1 0 4)) (Fin.ofNat 16 (fld w1 4 4)))
  | _ => none

/-- The instruction that a first word of major 0x29 selects (R30, R31), its fields as they stand. -/
def cand29 (w0 w1 _w2 : Nat) : Option Instr :=
  match fld w0 16 5 with
  | 0 => some (.vsect (hdrOf w0) (Fin.ofNat 32 (fld w0 11 5)) (Fin.ofNat 32 (fld w0 6 5)) (BitVec.ofNat 2 (fld w0 0 2)) (Fin.ofNat 16 (fld w1 0 4)))
  | 1 => some (.vuniq (hdrOf w0) (Fin.ofNat 16 (fld w1 0 4)) (Fin.ofNat 16 (fld w1 4 4)) (Fin.ofNat 16 (fld w1 12 4)))
  | 2 => some (.vbkt (hdrOf w0) (Fin.ofNat 16 (fld w1 0 4)) (Fin.ofNat 16 (fld w1 4 4)) (Fin.ofNat 16 (fld w1 12 4)) (BitVec.ofNat 6 (fld w1 16 6)) (BitVec.ofNat 5 (fld w1 22 5)))
  | _ => none

/-- The instruction that a first word of major 0x30 selects (R30, R31), its fields as they stand. -/
def cand30 (w0 w1 _w2 : Nat) : Option Instr :=
  match fld w0 16 5 with
  | 0 => if fld w0 0 4 = 6 then some (.mcfgNest (hdrOf w0) (Fin.ofNat 32 (fld w0 11 5)) (fld w0 5 1 == 1)) else some (.mcfgLevel (hdrOf w0) (Fin.ofNat 32 (fld w0 11 5)) (Fin.ofNat 32 (fld w0 6 5)) (fld w0 5 1 == 1) (fld w0 4 1 == 1) (Fin.ofNat 6 (fld w0 0 4)))
  | 1 => some (.mshp (hdrOf w0) (Fin.ofNat 32 (fld w0 11 5)) (fld w0 5 1 == 1) (BitVec.ofNat 2 (fld w0 0 2)) (Fin.ofNat 16 (fld w1 0 4)))
  | 2 => some (.mshf (hdrOf w0) (Fin.ofNat 32 (fld w0 11 5)) (fld w0 5 1 == 1) (Fin.ofNat 16 (fld w1 0 4)) (BitVec.ofNat 5 (fld w1 4 5)))
  | _ => none

/-- The instruction that a first word of major 0x31 selects (R30, R31), its fields as they stand. -/
def cand31 (w0 w1 _w2 : Nat) : Option Instr :=
  match fld w0 16 5 with
  | 0 => some (.mgo (hdrOf w0))
  | 1 => match fld w0 0 4 with
    | 0 => some (.mrst (hdrOf w0) (BitVec.ofNat 28 (fld w1 0 28)))
    | 1 => some (.mrstNone (hdrOf w0))
    | _ => none
  | _ => none

/-- The instruction that a first word of major 0x32 selects (R30, R31), its fields as they stand. -/
def cand32 (w0 w1 _w2 : Nat) : Option Instr :=
  match fld w0 16 5 with
  | 0 => match fld w0 0 4 with
    | 0 => some (.maccClr (hdrOf w0) (Fin.ofNat 2 (fld w1 0 1)))
    | 1 => some (.maccSave (hdrOf w0) (Fin.ofNat 2 (fld w1 0 1)) (BitVec.ofNat 9 (fld w1 1 9)) (Fin.ofNat 2 (fld w1 10 1)))
    | 2 => some (.maccLoad (hdrOf w0) (Fin.ofNat 2 (fld w1 0 1)) (BitVec.ofNat 9 (fld w1 1 9)) (Fin.ofNat 2 (fld w1 10 1)))
    | _ => none
  | 1 => some (.mepi (hdrOf w0) (Fin.ofNat 32 (fld w0 11 5)) (Fin.ofNat 32 (fld w0 6 5)) (fld w0 5 1 == 1) (fld w0 4 1 == 1) (BitVec.ofNat 2 (fld w0 0 2)))
  | _ => none

/-- The instruction that a first word of major 0x33 selects (R30, R31), its fields as they stand. -/
def cand33 (w0 w1 _w2 : Nat) : Option Instr :=
  match fld w0 16 5 with
  | 0 => match fld w0 0 4 with
    | 0 => some (.mlqSend (hdrOf w0) (Fin.ofNat 32 (fld w0 11 5)) (fld w0 5 1 == 1) (Fin.ofNat 16 (fld w1 0 4)) (Fin.ofNat 16 (fld w1 4 4)) (BitVec.ofNat 4 (fld w1 8 4)))
    | 1 => some (.mlqRecv (hdrOf w0) (Fin.ofNat 32 (fld w0 11 5)) (fld w0 5 1 == 1) (Fin.ofNat 16 (fld w1 0 4)) (Fin.ofNat 16 (fld w1 4 4)) (BitVec.ofNat 4 (fld w1 8 4)))
    | 2 => some (.mlqUnbind (hdrOf w0) (Fin.ofNat 16 (fld w1 0 4)))
    | _ => none
  | _ => none

/-- The instruction that a first word of major 0x38 selects (R30, R31), its fields as they stand. -/
def cand38 (w0 w1 _w2 : Nat) : Option Instr :=
  match fld w0 16 5 with
  | 0 => some (.gpoolAuto (hdrOf w0) (Fin.ofNat 32 (fld w0 11 5)) (Fin.ofNat 32 (fld w0 6 5)) (BitVec.ofNat 2 (fld w0 2 2)) (BitVec.ofNat 2 (fld w0 0 2)) (BitVec.ofNat 4 (fld w1 14 4)) (fld w1 12 1 == 1) (BitVec.ofNat 12 (fld w1 0 12)))
  | 1 => some (.gpoolDie (hdrOf w0) (Fin.ofNat 32 (fld w0 11 5)) (Fin.ofNat 32 (fld w0 6 5)) (BitVec.ofNat 2 (fld w0 2 2)) (BitVec.ofNat 2 (fld w0 0 2)) (BitVec.ofNat 4 (fld w1 14 4)) (fld w1 12 1 == 1) (BitVec.ofNat 12 (fld w1 0 12)))
  | 2 => some (.gpoolFar (hdrOf w0) (Fin.ofNat 32 (fld w0 11 5)) (Fin.ofNat 32 (fld w0 6 5)) (BitVec.ofNat 2 (fld w0 2 2)) (BitVec.ofNat 2 (fld w0 0 2)) (BitVec.ofNat 4 (fld w1 14 4)) (fld w1 12 1 == 1) (BitVec.ofNat 12 (fld w1 0 12)))
  | 3 => some (.gdeq (hdrOf w0) (Fin.ofNat 32 (fld w0 11 5)) (Fin.ofNat 32 (fld w0 6 5)) (BitVec.ofNat 2 (fld w0 2 2)) (BitVec.ofNat 2 (fld w0 0 2)) (BitVec.ofNat 4 (fld w1 14 4)) (BitVec.ofNat 12 (fld w1 0 12)))
  | 4 => some (.gscan (hdrOf w0) (Fin.ofNat 32 (fld w0 11 5)) (Fin.ofNat 32 (fld w0 6 5)) (BitVec.ofNat 2 (fld w0 2 2)) (BitVec.ofNat 2 (fld w0 0 2)) (BitVec.ofNat 9 (fld w1 13 9)) (fld w1 12 1 == 1) (BitVec.ofNat 4 (fld w1 8 4)) (BitVec.ofNat 8 (fld w1 0 8)))
  | 5 => some (.grank (hdrOf w0) (Fin.ofNat 32 (fld w0 11 5)) (Fin.ofNat 32 (fld w0 6 5)) (BitVec.ofNat 2 (fld w0 2 2)) (BitVec.ofNat 2 (fld w0 0 2)) (BitVec.ofNat 4 (fld w1 14 4)) (BitVec.ofNat 12 (fld w1 0 12)))
  | 6 => some (.hrpin (hdrOf w0) (Fin.ofNat 32 (fld w0 11 5)) (Fin.ofNat 32 (fld w0 6 5)) (BitVec.ofNat 16 (fld w1 0 16)))
  | 7 => some (.hrfree (hdrOf w0) (Fin.ofNat 32 (fld w0 11 5)) (Fin.ofNat 32 (fld w0 6 5)) (BitVec.ofNat 16 (fld w1 0 16)))
  | _ => none

/-- The instruction that a first word of major 0x39 selects (R30, R31), its fields as they stand. -/
def cand39 (w0 w1 _w2 : Nat) : Option Instr :=
  match fld w0 16 5 with
  | 0 => some (.dupd (hdrOf w0) (Fin.ofNat 32 (fld w0 11 5)) (Fin.ofNat 32 (fld w0 6 5)) (BitVec.ofNat 2 (fld w0 2 2)) (BitVec.ofNat 2 (fld w0 0 2)) (BitVec.ofNat 4 (fld w1 14 4)) (BitVec.ofNat 2 (fld w1 12 2)) (BitVec.ofNat 12 (fld w1 0 12)))
  | 1 => some (.dord (hdrOf w0) (Fin.ofNat 32 (fld w0 11 5)) (Fin.ofNat 32 (fld w0 6 5)) (BitVec.ofNat 2 (fld w0 2 2)) (BitVec.ofNat 2 (fld w0 0 2)) (BitVec.ofNat 4 (fld w1 14 4)) (BitVec.ofNat 2 (fld w1 12 2)) (BitVec.ofNat 12 (fld w1 0 12)))
  | _ => none

/-- The instruction that a first word of major 0x3A selects (R30, R31), its fields as they stand. -/
def cand3A (w0 w1 _w2 : Nat) : Option Instr :=
  match fld w0 16 5 with
  | 0 => some (.xall (hdrOf w0) (Fin.ofNat 32 (fld w0 11 5)) (Fin.ofNat 32 (fld w0 6 5)) (fld w0 4 1 == 1) (BitVec.ofNat 2 (fld w0 2 2)) (BitVec.ofNat 6 (fld w1 17 6)) (BitVec.ofNat 5 (fld w1 12 5)) (BitVec.ofNat 12 (fld w1 0 12)))
  | 1 => some (.wload (hdrOf w0) (Fin.ofNat 32 (fld w0 11 5)) (Fin.ofNat 32 (fld w0 6 5)) (fld w0 5 1 == 1) (fld w0 4 1 == 1) (BitVec.ofNat 16 (fld w1 6 16)) (BitVec.ofNat 4 (fld w1 2 4)) (BitVec.ofNat 2 (fld w1 0 2)))
  | 2 => some (.wtbl (hdrOf w0) (Fin.ofNat 32 (fld w0 11 5)) (Fin.ofNat 32 (fld w0 6 5)) (fld w0 5 1 == 1) (fld w0 4 1 == 1) (BitVec.ofNat 2 (fld w0 2 2)) (BitVec.ofNat 4 (fld w1 12 4)) (BitVec.ofNat 6 (fld w1 6 6)) (BitVec.ofNat 6 (fld w1 0 6)))
  | _ => none

/-- The instruction that a first word of major 0x3B selects (R30, R31), its fields as they stand. -/
def cand3B (w0 _w1 _w2 : Nat) : Option Instr :=
  match fld w0 0 4 with
  | 0 => some (.fork (hdrOf w0) (Fin.ofNat 32 (fld w0 16 5)) (Fin.ofNat 32 (fld w0 11 5)) (Fin.ofNat 32 (fld w0 6 5)))
  | 1 => some (.choose (hdrOf w0))
  | 2 => some (.abandon (hdrOf w0))
  | 3 => some (.wid (hdrOf w0) (Fin.ofNat 32 (fld w0 16 5)))
  | _ => none

/-- The candidate for a first word by its major opcode (R29). -/
def candidate (w0 w1 w2 : Nat) : Option Instr :=
  match fld w0 21 6 with
  | 1 => cand01 w0 w1 w2
  | 2 => cand02 w0 w1 w2
  | 3 => cand03 w0 w1 w2
  | 4 => cand04 w0 w1 w2
  | 5 => cand05 w0 w1 w2
  | 6 => cand06 w0 w1 w2
  | 7 => cand07 w0 w1 w2
  | 8 => cand08 w0 w1 w2
  | 9 => cand09 w0 w1 w2
  | 10 => cand0A w0 w1 w2
  | 11 => cand0B w0 w1 w2
  | 12 => cand0C w0 w1 w2
  | 13 => cand0D w0 w1 w2
  | 14 => cand0E w0 w1 w2
  | 15 => cand0F w0 w1 w2
  | 16 => cand10 w0 w1 w2
  | 17 => cand11 w0 w1 w2
  | 18 => cand12 w0 w1 w2
  | 19 => cand13 w0 w1 w2
  | 20 => cand14 w0 w1 w2
  | 21 => cand15 w0 w1 w2
  | 22 => cand16 w0 w1 w2
  | 23 => cand17 w0 w1 w2
  | 24 => cand18 w0 w1 w2
  | 25 => cand19 w0 w1 w2
  | 26 => cand1A w0 w1 w2
  | 27 => cand1B w0 w1 w2
  | 32 => cand20 w0 w1 w2
  | 33 => cand21 w0 w1 w2
  | 34 => cand22 w0 w1 w2
  | 35 => cand23 w0 w1 w2
  | 36 => cand24 w0 w1 w2
  | 37 => cand25 w0 w1 w2
  | 38 => cand26 w0 w1 w2
  | 39 => cand27 w0 w1 w2
  | 40 => cand28 w0 w1 w2
  | 41 => cand29 w0 w1 w2
  | 48 => cand30 w0 w1 w2
  | 49 => cand31 w0 w1 w2
  | 50 => cand32 w0 w1 w2
  | 51 => cand33 w0 w1 w2
  | 56 => cand38 w0 w1 w2
  | 57 => cand39 w0 w1 w2
  | 58 => cand3A w0 w1 w2
  | 59 => cand3B w0 w1 w2
  | _ => none
/-- The first word of an instruction: header, major, fixed bits, fields (R11, R21 to R26). -/
def encode0 : Instr → Nat
  | .add h d a b ka kb => encHdr h + 2097152 + d.val * 65536 + a.val * 2048 + b.val * 64 + ka.toNat * 32 + kb.toNat * 16
  | .sub h d a b ka kb => encHdr h + 2097153 + d.val * 65536 + a.val * 2048 + b.val * 64 + ka.toNat * 32 + kb.toNat * 16
  | .and h d a b ka kb => encHdr h + 2097154 + d.val * 65536 + a.val * 2048 + b.val * 64 + ka.toNat * 32 + kb.toNat * 16
  | .or h d a b ka kb => encHdr h + 2097155 + d.val * 65536 + a.val * 2048 + b.val * 64 + ka.toNat * 32 + kb.toNat * 16
  | .xor h d a b ka kb => encHdr h + 2097156 + d.val * 65536 + a.val * 2048 + b.val * 64 + ka.toNat * 32 + kb.toNat * 16
  | .andn h d a b ka kb => encHdr h + 2097157 + d.val * 65536 + a.val * 2048 + b.val * 64 + ka.toNat * 32 + kb.toNat * 16
  | .sll h d a b ka kb => encHdr h + 2097158 + d.val * 65536 + a.val * 2048 + b.val * 64 + ka.toNat * 32 + kb.toNat * 16
  | .srl h d a b ka kb => encHdr h + 2097159 + d.val * 65536 + a.val * 2048 + b.val * 64 + ka.toNat * 32 + kb.toNat * 16
  | .sra h d a b ka kb => encHdr h + 2097160 + d.val * 65536 + a.val * 2048 + b.val * 64 + ka.toNat * 32 + kb.toNat * 16
  | .rol h d a b ka kb => encHdr h + 2097161 + d.val * 65536 + a.val * 2048 + b.val * 64 + ka.toNat * 32 + kb.toNat * 16
  | .min h d a b ka kb => encHdr h + 2097162 + d.val * 65536 + a.val * 2048 + b.val * 64 + ka.toNat * 32 + kb.toNat * 16
  | .max h d a b ka kb => encHdr h + 2097163 + d.val * 65536 + a.val * 2048 + b.val * 64 + ka.toNat * 32 + kb.toNat * 16
  | .minu h d a b ka kb => encHdr h + 2097164 + d.val * 65536 + a.val * 2048 + b.val * 64 + ka.toNat * 32 + kb.toNat * 16
  | .maxu h d a b ka kb => encHdr h + 2097165 + d.val * 65536 + a.val * 2048 + b.val * 64 + ka.toNat * 32 + kb.toNat * 16
  | .slt h d a b ka kb => encHdr h + 2097166 + d.val * 65536 + a.val * 2048 + b.val * 64 + ka.toNat * 32 + kb.toNat * 16
  | .sltu h d a b ka kb => encHdr h + 2097167 + d.val * 65536 + a.val * 2048 + b.val * 64 + ka.toNat * 32 + kb.toNat * 16
  | .mul h d a b ka kb => encHdr h + 4194304 + d.val * 65536 + a.val * 2048 + b.val * 64 + ka.toNat * 32 + kb.toNat * 16
  | .mulh h d a b ka kb => encHdr h + 4194305 + d.val * 65536 + a.val * 2048 + b.val * 64 + ka.toNat * 32 + kb.toNat * 16
  | .mulhu h d a b ka kb => encHdr h + 4194306 + d.val * 65536 + a.val * 2048 + b.val * 64 + ka.toNat * 32 + kb.toNat * 16
  | .div h d a b ka kb => encHdr h + 4194307 + d.val * 65536 + a.val * 2048 + b.val * 64 + ka.toNat * 32 + kb.toNat * 16
  | .divu h d a b ka kb => encHdr h + 4194308 + d.val * 65536 + a.val * 2048 + b.val * 64 + ka.toNat * 32 + kb.toNat * 16
  | .rem h d a b ka kb => encHdr h + 4194309 + d.val * 65536 + a.val * 2048 + b.val * 64 + ka.toNat * 32 + kb.toNat * 16
  | .remu h d a b ka kb => encHdr h + 4194310 + d.val * 65536 + a.val * 2048 + b.val * 64 + ka.toNat * 32 + kb.toNat * 16
  | .clz h d a ka => encHdr h + 4194311 + d.val * 65536 + a.val * 2048 + ka.toNat * 32
  | .ctz h d a ka => encHdr h + 4194312 + d.val * 65536 + a.val * 2048 + ka.toNat * 32
  | .popc h d a ka => encHdr h + 4194313 + d.val * 65536 + a.val * 2048 + ka.toNat * 32
  | .sext h d a b ka kb => encHdr h + 4194314 + d.val * 65536 + a.val * 2048 + b.val * 64 + ka.toNat * 32 + kb.toNat * 16
  | .zext h d a b ka kb => encHdr h + 4194315 + d.val * 65536 + a.val * 2048 + b.val * 64 + ka.toNat * 32 + kb.toNat * 16
  | .sel h d a b ka kb => encHdr h + 4194316 + d.val * 65536 + a.val * 2048 + b.val * 64 + ka.toNat * 32 + kb.toNat * 16
  | .addi h d a ka imm => encHdr h + 6291456 + d.val * 65536 + a.val * 2048 + ka.toNat * 1024 + imm.toNat
  | .andi h d a ka imm => encHdr h + 8388608 + d.val * 65536 + a.val * 2048 + ka.toNat * 1024 + imm.toNat
  | .ori h d a ka imm => encHdr h + 10485760 + d.val * 65536 + a.val * 2048 + ka.toNat * 1024 + imm.toNat
  | .xori h d a ka imm => encHdr h + 12582912 + d.val * 65536 + a.val * 2048 + ka.toNat * 1024 + imm.toNat
  | .slli h d a ka sh => encHdr h + 14680064 + d.val * 65536 + a.val * 2048 + ka.toNat * 1024 + sh.toNat
  | .srli h d a ka sh => encHdr h + 14680128 + d.val * 65536 + a.val * 2048 + ka.toNat * 1024 + sh.toNat
  | .srai h d a ka sh => encHdr h + 14680192 + d.val * 65536 + a.val * 2048 + ka.toNat * 1024 + sh.toNat
  | .slti h d a ka imm => encHdr h + 16777216 + d.val * 65536 + a.val * 2048 + ka.toNat * 1024 + imm.toNat
  | .seqi h d a ka imm => encHdr h + 16777728 + d.val * 65536 + a.val * 2048 + ka.toNat * 1024 + imm.toNat
  | .li h d imm => encHdr h + 18874368 + d.val * 65536 + imm.toNat
  | .lih h d hi _ _ => encHdr h + 20971520 + d.val * 65536 + hi.toNat
  | .apc h d imm => encHdr h + 23068672 + d.val * 65536 + imm.toNat
  | .beq h a b off => encHdr h + 25165824 + a.val * 65536 + b.val * 2048 + off.toNat
  | .bne h a b off => encHdr h + 25166080 + a.val * 65536 + b.val * 2048 + off.toNat
  | .blt h a b off => encHdr h + 25166336 + a.val * 65536 + b.val * 2048 + off.toNat
  | .bge h a b off => encHdr h + 25166592 + a.val * 65536 + b.val * 2048 + off.toNat
  | .bltu h a b off => encHdr h + 25166848 + a.val * 65536 + b.val * 2048 + off.toNat
  | .bgeu h a b off => encHdr h + 25167104 + a.val * 65536 + b.val * 2048 + off.toNat
  | .bz h a off => encHdr h + 25167360 + a.val * 65536 + off.toNat
  | .bnz h a off => encHdr h + 25167616 + a.val * 65536 + off.toNat
  | .br h _ => encHdr h + 27262976
  | .call h a _ => encHdr h + 27263232 + a.val * 65536
  | .ret h a => encHdr h + 27263488 + a.val * 65536
  | .jr h a => encHdr h + 27263744 + a.val * 65536
  | .loop h n a ka len => encHdr h + 29360128 + n.val * 524288 + a.val * 2048 + ka.toNat * 1024 + len.toNat
  | .loopi h n _ len => encHdr h + 29622272 + n.val * 524288 + len.toNat
  | .semadd h n a ka => encHdr h + 31457280 + n.val * 65536 + a.val * 2048 + ka.toNat * 32
  | .semwt h n a ka => encHdr h + 31457281 + n.val * 65536 + a.val * 2048 + ka.toNat * 32
  | .mbrd h d n => encHdr h + 31457282 + d.val * 65536 + n.val * 2048
  | .mbwr h n a b ka kb => encHdr h + 31457283 + n.val * 65536 + a.val * 2048 + b.val * 64 + ka.toNat * 32 + kb.toNat * 16
  | .waitaddr h d a b ka kb => encHdr h + 31457284 + d.val * 65536 + a.val * 2048 + b.val * 64 + ka.toNat * 32 + kb.toNat * 16
  | .park h => encHdr h + 31457285
  | .yield h => encHdr h + 31457286
  | .done h => encHdr h + 31457287
  | .trap h code => encHdr h + 31457288 + code.toNat * 64
  | .tret h => encHdr h + 31457289
  | .crr h d crn => encHdr h + 31457290 + d.val * 65536 + crn.toNat * 64
  | .crw h t crn kt => encHdr h + 31457291 + t.val * 65536 + crn.toNat * 64 + kt.toNat * 32
  | .lvreq h a ka => encHdr h + 31457292 + a.val * 2048 + ka.toNat * 32
  | .lvrel h a ka => encHdr h + 31457293 + a.val * 2048 + ka.toNat * 32
  | .bist h d a ka => encHdr h + 31457294 + d.val * 65536 + a.val * 2048 + ka.toNat * 32
  | .scan h d a ka => encHdr h + 31457358 + d.val * 65536 + a.val * 2048 + ka.toNat * 32
  | .errrd h d a ka => encHdr h + 31457295 + d.val * 65536 + a.val * 2048 + ka.toNat * 32
  | .jcancel h d a ka => encHdr h + 31457359 + d.val * 65536 + a.val * 2048 + ka.toNat * 32
  | .ldb h t a hint off => encHdr h + 33554432 + t.val * 65536 + a.val * 2048 + hint.toNat * 512 + off.toNat
  | .ldbu h t a hint off => encHdr h + 33554496 + t.val * 65536 + a.val * 2048 + hint.toNat * 512 + off.toNat
  | .ldh h t a hint off => encHdr h + 33554560 + t.val * 65536 + a.val * 2048 + hint.toNat * 512 + off.toNat
  | .ldhu h t a hint off => encHdr h + 33554624 + t.val * 65536 + a.val * 2048 + hint.toNat * 512 + off.toNat
  | .ldw h t a hint off => encHdr h + 33554688 + t.val * 65536 + a.val * 2048 + hint.toNat * 512 + off.toNat
  | .ldwu h t a hint off => encHdr h + 33554752 + t.val * 65536 + a.val * 2048 + hint.toNat * 512 + off.toNat
  | .ldd h t a hint off => encHdr h + 33554816 + t.val * 65536 + a.val * 2048 + hint.toNat * 512 + off.toNat
  | .stb h t a hint off => encHdr h + 35651584 + t.val * 65536 + a.val * 2048 + hint.toNat * 512 + off.toNat
  | .sth h t a hint off => encHdr h + 35651712 + t.val * 65536 + a.val * 2048 + hint.toNat * 512 + off.toNat
  | .stw h t a hint off => encHdr h + 35651840 + t.val * 65536 + a.val * 2048 + hint.toNat * 512 + off.toNat
  | .std h t a hint off => encHdr h + 35651968 + t.val * 65536 + a.val * 2048 + hint.toNat * 512 + off.toNat
  | .ldAcq h t a scope => encHdr h + 37749120 + t.val * 65536 + a.val * 2048 + scope.toNat * 512
  | .stRel h t a scope => encHdr h + 37749152 + t.val * 65536 + a.val * 2048 + scope.toNat * 512
  | .amoadd h d a b ka kb => encHdr h + 39845888 + d.val * 65536 + a.val * 2048 + b.val * 64 + ka.toNat * 32 + kb.toNat * 16
  | .amoand h d a b ka kb => encHdr h + 39845889 + d.val * 65536 + a.val * 2048 + b.val * 64 + ka.toNat * 32 + kb.toNat * 16
  | .amoor h d a b ka kb => encHdr h + 39845890 + d.val * 65536 + a.val * 2048 + b.val * 64 + ka.toNat * 32 + kb.toNat * 16
  | .amoxor h d a b ka kb => encHdr h + 39845891 + d.val * 65536 + a.val * 2048 + b.val * 64 + ka.toNat * 32 + kb.toNat * 16
  | .amomin h d a b ka kb => encHdr h + 39845892 + d.val * 65536 + a.val * 2048 + b.val * 64 + ka.toNat * 32 + kb.toNat * 16
  | .amomax h d a b ka kb => encHdr h + 39845893 + d.val * 65536 + a.val * 2048 + b.val * 64 + ka.toNat * 32 + kb.toNat * 16
  | .amominu h d a b ka kb => encHdr h + 39845894 + d.val * 65536 + a.val * 2048 + b.val * 64 + ka.toNat * 32 + kb.toNat * 16
  | .amomaxu h d a b ka kb => encHdr h + 39845895 + d.val * 65536 + a.val * 2048 + b.val * 64 + ka.toNat * 32 + kb.toNat * 16
  | .amoswap h d a b ka kb => encHdr h + 39845896 + d.val * 65536 + a.val * 2048 + b.val * 64 + ka.toNat * 32 + kb.toNat * 16
  | .amocas h d a b ka => encHdr h + 39845897 + d.val * 65536 + a.val * 2048 + b.val * 64 + ka.toNat * 32
  | .amofadd h d a b ka kb => encHdr h + 39845898 + d.val * 65536 + a.val * 2048 + b.val * 64 + ka.toNat * 32 + kb.toNat * 16
  | .amobfadd h d a b ka kb => encHdr h + 39845899 + d.val * 65536 + a.val * 2048 + b.val * 64 + ka.toNat * 32 + kb.toNat * 16
  | .fence h scope => encHdr h + 41943040 + scope.toNat * 65536
  | .mark h scope => encHdr h + 41943041 + scope.toNat * 65536
  | .wb h a b ka kb => encHdr h + 41943042 + a.val * 2048 + b.val * 64 + ka.toNat * 32 + kb.toNat * 16
  | .inv h a b ka kb => encHdr h + 41943043 + a.val * 2048 + b.val * 64 + ka.toNat * 32 + kb.toNat * 16
  | .wbinv h a b ka kb => encHdr h + 41943044 + a.val * 2048 + b.val * 64 + ka.toNat * 32 + kb.toNat * 16
  | .pf h hint a ka => encHdr h + 41943045 + hint.toNat * 65536 + a.val * 2048 + ka.toNat * 32
  | .roinv h a b ka kb => encHdr h + 41943046 + a.val * 2048 + b.val * 64 + ka.toNat * 32 + kb.toNat * 16
  | .ldro h t a hint size off => encHdr h + 44040192 + t.val * 65536 + a.val * 2048 + hint.toNat * 512 + size.toNat * 64 + off.toNat
  | .bbinit h a b ka kb => encHdr h + 46137344 + a.val * 2048 + b.val * 64 + ka.toNat * 32 + kb.toNat * 16
  | .bbexp h a b ka kb => encHdr h + 46137345 + a.val * 2048 + b.val * 64 + ka.toNat * 32 + kb.toNat * 16
  | .bbwait h d a b ka kb => encHdr h + 46137346 + d.val * 65536 + a.val * 2048 + b.val * 64 + ka.toNat * 32 + kb.toNat * 16
  | .cbacq h d n => encHdr h + 46137347 + d.val * 65536 + n.val * 2048
  | .cbrel h n => encHdr h + 46137348 + n.val * 65536
  | .fmst h l a b => encHdr h + 48234496 + l.val * 65536 + a.val * 2048 + b.val * 64
  | .rqpost h d a b ka kb => encHdr h + 48234497 + d.val * 65536 + a.val * 2048 + b.val * 64 + ka.toNat * 32 + kb.toNat * 16
  | .lpost h d a b ka kb => encHdr h + 48234498 + d.val * 65536 + a.val * 2048 + b.val * 64 + ka.toNat * 32 + kb.toNat * 16
  | .fork h d a b => encHdr h + 123731968 + d.val * 65536 + a.val * 2048 + b.val * 64
  | .choose h => encHdr h + 123731969
  | .abandon h => encHdr h + 123731970
  | .wid h d => encHdr h + 123731971 + d.val * 65536
  | .cpy h a b ka src dst _ _ => encHdr h + 50331648 + a.val * 2048 + b.val * 64 + ka.toNat * 32 + src.toNat * 4 + dst.toNat
  | .cpy2 h a b src dst _ _ => encHdr h + 50397184 + a.val * 2048 + b.val * 64 + src.toNat * 4 + dst.toNat
  | .cpyg h a b isp dst _ _ => encHdr h + 50462720 + a.val * 2048 + b.val * 64 + isp.toNat * 4 + dst.toNat
  | .oqld h a b kb src _ _ _ => encHdr h + 52428800 + a.val * 2048 + b.val * 64 + kb.toNat * 16 + src.toNat * 4
  | .tsld h a b src _ _ _ => encHdr h + 54525952 + a.val * 2048 + b.val * 64 + src.toNat * 4
  | .tsst h a b ka dst _ _ _ => encHdr h + 54591488 + a.val * 2048 + b.val * 64 + ka.toNat * 32 + dst.toNat
  | .cbinit h a ka _ _ _ => encHdr h + 56623104 + a.val * 2048 + ka.toNat * 32
  | .vshape h a b ka kb regRows regCols _ _ _ => encHdr h + 67108864 + a.val * 2048 + b.val * 64 + ka.toNat * 32 + kb.toNat * 16 + regRows.toNat * 2 + regCols.toNat
  | .vld h a b ka kb src _ _ _ => encHdr h + 67174400 + a.val * 2048 + b.val * 64 + ka.toNat * 32 + kb.toNat * 16 + src.toNat
  | .vst h a b ka dst _ _ => encHdr h + 67239936 + a.val * 2048 + b.val * 64 + ka.toNat * 32 + dst.toNat
  | .vbcastX h a ka _ => encHdr h + 67305472 + a.val * 2048 + ka.toNat * 32
  | .vbcastRow h _ _ _ => encHdr h + 67305473
  | .vbcastCol h _ _ _ => encHdr h + 67305474
  | .vsel h _ _ _ _ => encHdr h + 67371008
  | .vadd h b kb sb sat _ _ _ => encHdr h + 69206016 + b.val * 64 + kb.toNat * 16 + sb.toNat + sat.toNat * 2
  | .vsub h b kb sb sat _ _ _ => encHdr h + 69271552 + b.val * 64 + kb.toNat * 16 + sb.toNat + sat.toNat * 2
  | .vmul h b kb sb sat _ _ _ => encHdr h + 69337088 + b.val * 64 + kb.toNat * 16 + sb.toNat + sat.toNat * 2
  | .vfma h b kb sb sat _ _ _ _ => encHdr h + 69402624 + b.val * 64 + kb.toNat * 16 + sb.toNat + sat.toNat * 2
  | .vmax h b kb sb sat _ _ _ => encHdr h + 69468160 + b.val * 64 + kb.toNat * 16 + sb.toNat + sat.toNat * 2
  | .vmin h b kb sb sat _ _ _ => encHdr h + 69533696 + b.val * 64 + kb.toNat * 16 + sb.toNat + sat.toNat * 2
  | .vabs h sat _ _ => encHdr h + 69599232 + sat.toNat * 2
  | .vneg h sat _ _ => encHdr h + 69664768 + sat.toNat * 2
  | .vcmp h b kb sb sat _ _ _ _ => encHdr h + 69730304 + b.val * 64 + kb.toNat * 16 + sb.toNat + sat.toNat * 2
  | .vand h b kb sb _ _ _ => encHdr h + 71303168 + b.val * 64 + kb.toNat * 16 + sb.toNat
  | .vor h b kb sb _ _ _ => encHdr h + 71368704 + b.val * 64 + kb.toNat * 16 + sb.toNat
  | .vxor h b kb sb _ _ _ => encHdr h + 71434240 + b.val * 64 + kb.toNat * 16 + sb.toNat
  | .vshl h b kb sb _ _ _ => encHdr h + 71499776 + b.val * 64 + kb.toNat * 16 + sb.toNat
  | .vshr h b kb sb _ _ _ => encHdr h + 71565312 + b.val * 64 + kb.toNat * 16 + sb.toNat
  | .vpopc h _ _ => encHdr h + 71630848
  | .vcvt h a ka _ _ _ _ => encHdr h + 73400320 + a.val * 2048 + ka.toNat * 32
  | .vred h axis sat _ _ _ => encHdr h + 73465856 + axis.toNat + sat.toNat * 2
  | .vgelu h _ _ _ => encHdr h + 75497472
  | .vsilu h _ _ _ => encHdr h + 75563008
  | .vsplus h _ _ _ => encHdr h + 75628544
  | .vtanh h _ _ _ => encHdr h + 75694080
  | .vsigm h _ _ _ => encHdr h + 75759616
  | .vexp h _ _ _ => encHdr h + 77594624
  | .vrcp h _ _ _ => encHdr h + 77660160
  | .vrsqrt h _ _ _ => encHdr h + 77725696
  | .vtblld h a ka src _ => encHdr h + 79691776 + a.val * 2048 + ka.toNat * 32 + src.toNat
  | .vtbl h _ _ _ _ => encHdr h + 79757312
  | .vtolog h _ _ => encHdr h + 81788928
  | .vfrlog h _ _ _ => encHdr h + 81854464
  | .vladd h b kb cf _ _ _ => encHdr h + 81920000 + b.val * 64 + kb.toNat * 16 + cf.toNat
  | .vlsub h b kb cf _ _ _ => encHdr h + 81985536 + b.val * 64 + kb.toNat * 16 + cf.toNat
  | .vlshr h _ _ _ => encHdr h + 82051072
  | .vlmul h b kb _ _ => encHdr h + 82116608 + b.val * 64 + kb.toNat * 16
  | .vhamm h _ _ _ _ => encHdr h + 83886080
  | .vtopk h desc _ _ _ _ _ => encHdr h + 83951616 + desc.toNat
  | .vfilt h a b ka kb src _ _ => encHdr h + 84017152 + a.val * 2048 + b.val * 64 + ka.toNat * 32 + kb.toNat * 16 + src.toNat
  | .vsect h a b hint _ => encHdr h + 85983232 + a.val * 2048 + b.val * 64 + hint.toNat
  | .vuniq h _ _ _ => encHdr h + 86048768
  | .vbkt h _ _ _ _ _ => encHdr h + 86114304
  | .mcfgLevel h a b ka kb lvl => encHdr h + 100663296 + a.val * 2048 + b.val * 64 + ka.toNat * 32 + kb.toNat * 16 + lvl.val
  | .mcfgNest h a ka => encHdr h + 100663302 + a.val * 2048 + ka.toNat * 32
  | .mshp h a ka src _ => encHdr h + 100728832 + a.val * 2048 + ka.toNat * 32 + src.toNat
  | .mshf h a ka _ _ => encHdr h + 100794368 + a.val * 2048 + ka.toNat * 32
  | .mgo h => encHdr h + 102760448
  | .mrst h _ => encHdr h + 102825984
  | .mrstNone h => encHdr h + 102825985
  | .maccClr h _ => encHdr h + 104857600
  | .maccSave h _ _ _ => encHdr h + 104857601
  | .maccLoad h _ _ _ => encHdr h + 104857602
  | .mepi h a b ka kb dest => encHdr h + 104923136 + a.val * 2048 + b.val * 64 + ka.toNat * 32 + kb.toNat * 16 + dest.toNat
  | .mlqSend h a ka _ _ _ => encHdr h + 106954752 + a.val * 2048 + ka.toNat * 32
  | .mlqRecv h a ka _ _ _ => encHdr h + 106954753 + a.val * 2048 + ka.toNat * 32
  | .mlqUnbind h _ => encHdr h + 106954754
  | .gpoolAuto h a b isp dst _ _ _ => encHdr h + 117440512 + a.val * 2048 + b.val * 64 + isp.toNat * 4 + dst.toNat
  | .gpoolDie h a b isp dst _ _ _ => encHdr h + 117506048 + a.val * 2048 + b.val * 64 + isp.toNat * 4 + dst.toNat
  | .gpoolFar h a b isp dst _ _ _ => encHdr h + 117571584 + a.val * 2048 + b.val * 64 + isp.toNat * 4 + dst.toNat
  | .gdeq h a b isp dst _ _ => encHdr h + 117637120 + a.val * 2048 + b.val * 64 + isp.toNat * 4 + dst.toNat
  | .gscan h a b qsp dst _ _ _ _ => encHdr h + 117702656 + a.val * 2048 + b.val * 64 + qsp.toNat * 4 + dst.toNat
  | .grank h a b isp dst _ _ => encHdr h + 117768192 + a.val * 2048 + b.val * 64 + isp.toNat * 4 + dst.toNat
  | .hrpin h a b _ => encHdr h + 117833728 + a.val * 2048 + b.val * 64
  | .hrfree h a b _ => encHdr h + 117899264 + a.val * 2048 + b.val * 64
  | .dupd h a b isp gsp _ _ _ => encHdr h + 119537664 + a.val * 2048 + b.val * 64 + isp.toNat * 4 + gsp.toNat
  | .dord h a b isp gsp _ _ _ => encHdr h + 119603200 + a.val * 2048 + b.val * 64 + isp.toNat * 4 + gsp.toNat
  | .xall h a b kb isp _ _ _ => encHdr h + 121634816 + a.val * 2048 + b.val * 64 + kb.toNat * 16 + isp.toNat * 4
  | .wload h a b ka kb _ _ _ => encHdr h + 121700352 + a.val * 2048 + b.val * 64 + ka.toNat * 32 + kb.toNat * 16
  | .wtbl h a b ka kb src _ _ _ => encHdr h + 121765888 + a.val * 2048 + b.val * 64 + ka.toNat * 32 + kb.toNat * 16 + src.toNat * 4
  | .mswaysDrain _ _ => 0
  | .mswaysConvert _ _ => 0
  | .commandStart _ _ => 0
  | .commandComplete _ _ _ => 0
  | .nestStep _ => 0
  | .epilogue _ => 0
  | .registerWriteLanding _ => 0
  | .loadValueReturn _ _ => 0
  | .heldWordResume _ => 0
  | .stopSpacing _ => 0
  | .pendingTrapDelivery _ => 0
  | .launchPacket _ _ _ _ => 0
  | .launchAccept _ => 0
  | .jobDispatch _ _ => 0
  | .iterationHandout _ => 0
  | .recordPickup _ => 0
  | .schedAge _ => 0
  | .fairnessDue _ => 0
  | .fairnessWindowEnd _ => 0
  | .issuePass _ => 0
  | .mangleTake _ => 0
  | .watchdogExpiry _ => 0
  | .jobComplete _ _ => 0
  | .cancelRequest _ _ _ => 0
  | .linkTileArrival _ _ _ _ => 0
  | .ltqCredit _ _ => 0
  | .ltqBindPacket _ _ _ _ _ _ _ => 0
  | .ltqTimeout _ _ => 0
  | .routePacket _ => 0
  | .multicastForward _ _ _ _ _ _ _ _ _ => 0
  | .fabricWriteArrival _ _ _ _ _ => 0
  | .fabricAck _ _ => 0
  | .fabricAtomicArrival _ _ _ _ _ _ _ => 0
  | .fabricAnswerWrite _ _ _ => 0
  | .monitorRequestArrival _ _ _ _ => 0
  | .wakeWrite _ => 0
  | .requestRecordArrival _ _ _ _ => 0
  | .remoteBarrierAdd _ _ _ _ _ => 0
  | .ethRmaWrite _ _ _ _ => 0
  | .ethUntaggedSend _ _ => 0
  | .ethDeliveryAck _ => 0
  | .hostRead _ _ => 0
  | .hostWrite _ _ => 0
  | .faultQueueAppend => 0
  | .fqPop => 0
  | .fqEnd _ => 0
  | .erPop => 0
  | .trInvalWrite _ _ => 0
  | .trInvalDone _ => 0
  | .skClrWrite _ _ => 0
  | .sketchHalve _ _ => 0
  | .hrCfgWrite _ _ => 0
  | .hrCfgTakeEffect _ => 0
  | .chmWrite _ _ _ _ => 0
  | .migGo _ => 0
  | .migrationDone _ => 0
  | .wvQuotaWrite _ => 0
  | .viewFree _ => 0
  | .opSelWrite _ => 0
  | .opmodeApply => 0
  | .leaveGrant _ _ => 0
  | .testResult _ _ => 0
  | .memoryCorrectedError _ _ _ => 0
  | .arraySoftError _ _ => 0
  | .linkStateChange _ _ _ _ => 0
  | .linkFecCorrection _ _ => 0
  | .powerOnReset => 0
  | .rstCtlWrite _ => 0
  | .boot _ => 0
  | .atGoWrite _ => 0
  | .attestReportDone => 0
  | .replayHoldLimit _ => 0
  | .registerWrite _ _ _ => 0
  | .linkLevelRetry _ _ => 0
  | .skClrDone _ => 0
  | .mswaysOperationEnd _ => 0

/-- The extension words of an instruction (R26, R27, R30). -/
def encodeExt : Instr → List Nat
  | .add _ _ _ _ _ _ => []
  | .sub _ _ _ _ _ _ => []
  | .and _ _ _ _ _ _ => []
  | .or _ _ _ _ _ _ => []
  | .xor _ _ _ _ _ _ => []
  | .andn _ _ _ _ _ _ => []
  | .sll _ _ _ _ _ _ => []
  | .srl _ _ _ _ _ _ => []
  | .sra _ _ _ _ _ _ => []
  | .rol _ _ _ _ _ _ => []
  | .min _ _ _ _ _ _ => []
  | .max _ _ _ _ _ _ => []
  | .minu _ _ _ _ _ _ => []
  | .maxu _ _ _ _ _ _ => []
  | .slt _ _ _ _ _ _ => []
  | .sltu _ _ _ _ _ _ => []
  | .mul _ _ _ _ _ _ => []
  | .mulh _ _ _ _ _ _ => []
  | .mulhu _ _ _ _ _ _ => []
  | .div _ _ _ _ _ _ => []
  | .divu _ _ _ _ _ _ => []
  | .rem _ _ _ _ _ _ => []
  | .remu _ _ _ _ _ _ => []
  | .clz _ _ _ _ => []
  | .ctz _ _ _ _ => []
  | .popc _ _ _ _ => []
  | .sext _ _ _ _ _ _ => []
  | .zext _ _ _ _ _ _ => []
  | .sel _ _ _ _ _ _ => []
  | .addi _ _ _ _ _ => []
  | .andi _ _ _ _ _ => []
  | .ori _ _ _ _ _ => []
  | .xori _ _ _ _ _ => []
  | .slli _ _ _ _ _ => []
  | .srli _ _ _ _ _ => []
  | .srai _ _ _ _ _ => []
  | .slti _ _ _ _ _ => []
  | .seqi _ _ _ _ _ => []
  | .li _ _ _ => []
  | .lih _ _ _ mid lo => [mid.toNat, lo.toNat * 256]
  | .apc _ _ _ => []
  | .beq _ _ _ _ => []
  | .bne _ _ _ _ => []
  | .blt _ _ _ _ => []
  | .bge _ _ _ _ => []
  | .bltu _ _ _ _ => []
  | .bgeu _ _ _ _ => []
  | .bz _ _ _ => []
  | .bnz _ _ _ => []
  | .br _ off => [off.toNat]
  | .call _ _ off => [off.toNat]
  | .ret _ _ => []
  | .jr _ _ => []
  | .loop _ _ _ _ _ => []
  | .loopi _ _ count _ => [count.toNat * 4096]
  | .semadd _ _ _ _ => []
  | .semwt _ _ _ _ => []
  | .mbrd _ _ _ => []
  | .mbwr _ _ _ _ _ _ => []
  | .waitaddr _ _ _ _ _ _ => []
  | .park _ => []
  | .yield _ => []
  | .done _ => []
  | .trap _ _ => []
  | .tret _ => []
  | .crr _ _ _ => []
  | .crw _ _ _ _ => []
  | .lvreq _ _ _ => []
  | .lvrel _ _ _ => []
  | .bist _ _ _ _ => []
  | .scan _ _ _ _ => []
  | .errrd _ _ _ _ => []
  | .jcancel _ _ _ _ => []
  | .ldb _ _ _ _ _ => []
  | .ldbu _ _ _ _ _ => []
  | .ldh _ _ _ _ _ => []
  | .ldhu _ _ _ _ _ => []
  | .ldw _ _ _ _ _ => []
  | .ldwu _ _ _ _ _ => []
  | .ldd _ _ _ _ _ => []
  | .stb _ _ _ _ _ => []
  | .sth _ _ _ _ _ => []
  | .stw _ _ _ _ _ => []
  | .std _ _ _ _ _ => []
  | .ldAcq _ _ _ _ => []
  | .stRel _ _ _ _ => []
  | .amoadd _ _ _ _ _ _ => []
  | .amoand _ _ _ _ _ _ => []
  | .amoor _ _ _ _ _ _ => []
  | .amoxor _ _ _ _ _ _ => []
  | .amomin _ _ _ _ _ _ => []
  | .amomax _ _ _ _ _ _ => []
  | .amominu _ _ _ _ _ _ => []
  | .amomaxu _ _ _ _ _ _ => []
  | .amoswap _ _ _ _ _ _ => []
  | .amocas _ _ _ _ _ => []
  | .amofadd _ _ _ _ _ _ => []
  | .amobfadd _ _ _ _ _ _ => []
  | .fence _ _ => []
  | .mark _ _ => []
  | .wb _ _ _ _ _ => []
  | .inv _ _ _ _ _ => []
  | .wbinv _ _ _ _ _ => []
  | .pf _ _ _ _ => []
  | .roinv _ _ _ _ _ => []
  | .ldro _ _ _ _ _ _ => []
  | .bbinit _ _ _ _ _ => []
  | .bbexp _ _ _ _ _ => []
  | .bbwait _ _ _ _ _ _ => []
  | .cbacq _ _ _ => []
  | .cbrel _ _ => []
  | .fmst _ _ _ _ => []
  | .rqpost _ _ _ _ _ _ => []
  | .lpost _ _ _ _ _ _ => []
  | .fork _ _ _ _ => []
  | .choose _ => []
  | .abandon _ => []
  | .wid _ _ => []
  | .cpy _ _ _ _ _ _ hint len => [hint.toNat * 16777216 + len.toNat]
  | .cpy2 _ _ _ _ _ rows rowbytes => [rows.toNat * 16384 + rowbytes.toNat]
  | .cpyg _ _ _ _ _ count rowbytes => [count.toNat * 65536 + rowbytes.toNat]
  | .oqld _ _ _ _ _ hint rows oq => [hint.toNat * 1048576 + rows.toNat * 16 + oq.val]
  | .tsld _ _ _ _ hint rows rowbytes => [hint.toNat * 2097152 + rows.toNat * 2048 + rowbytes.toNat]
  | .tsst _ _ _ _ _ hint rows rowbytes => [hint.toNat * 2097152 + rows.toNat * 2048 + rowbytes.toNat]
  | .cbinit _ _ _ n size slots => [n.val + size.toNat * 16 + slots.toNat * 65536]
  | .vshape _ _ _ _ _ _ _ ty cols1 rows1 => [ty.toNat * 1024 + cols1.toNat * 16 + rows1.toNat]
  | .vld _ _ _ _ _ _ vd oq hint => [vd.val + oq.val * 16 + hint.toNat * 256]
  | .vst _ _ _ _ _ va hint => [va.val * 16 + hint.toNat * 256]
  | .vbcastX _ _ _ vd => [vd.val]
  | .vbcastRow _ vd va n => [vd.val + va.val * 16 + n.toNat * 65536]
  | .vbcastCol _ vd va n => [vd.val + va.val * 16 + n.toNat * 65536]
  | .vsel _ vd va vb vc => [vd.val + va.val * 16 + vb.val * 256 + vc.val * 4096]
  | .vadd _ _ _ _ _ vd va vb => [vd.val + va.val * 16 + vb.val * 256]
  | .vsub _ _ _ _ _ vd va vb => [vd.val + va.val * 16 + vb.val * 256]
  | .vmul _ _ _ _ _ vd va vb => [vd.val + va.val * 16 + vb.val * 256]
  | .vfma _ _ _ _ _ vd va vb vc => [vd.val + va.val * 16 + vb.val * 256 + vc.val * 4096]
  | .vmax _ _ _ _ _ vd va vb => [vd.val + va.val * 16 + vb.val * 256]
  | .vmin _ _ _ _ _ vd va vb => [vd.val + va.val * 16 + vb.val * 256]
  | .vabs _ _ vd va => [vd.val + va.val * 16]
  | .vneg _ _ vd va => [vd.val + va.val * 16]
  | .vcmp _ _ _ _ _ vd va vb cond => [vd.val + va.val * 16 + vb.val * 256 + cond.toNat * 65536]
  | .vand _ _ _ _ vd va vb => [vd.val + va.val * 16 + vb.val * 256]
  | .vor _ _ _ _ vd va vb => [vd.val + va.val * 16 + vb.val * 256]
  | .vxor _ _ _ _ vd va vb => [vd.val + va.val * 16 + vb.val * 256]
  | .vshl _ _ _ _ vd va vb => [vd.val + va.val * 16 + vb.val * 256]
  | .vshr _ _ _ _ vd va vb => [vd.val + va.val * 16 + vb.val * 256]
  | .vpopc _ vd va => [vd.val + va.val * 16]
  | .vcvt _ _ _ vd va ty mode => [vd.val + va.val * 16 + ty.toNat * 65536 + mode.toNat * 1048576]
  | .vred _ _ _ vd va op => [vd.val + va.val * 16 + op.toNat * 65536]
  | .vgelu _ vd va ty => [vd.val + va.val * 16 + ty.toNat * 65536]
  | .vsilu _ vd va ty => [vd.val + va.val * 16 + ty.toNat * 65536]
  | .vsplus _ vd va ty => [vd.val + va.val * 16 + ty.toNat * 65536]
  | .vtanh _ vd va ty => [vd.val + va.val * 16 + ty.toNat * 65536]
  | .vsigm _ vd va ty => [vd.val + va.val * 16 + ty.toNat * 65536]
  | .vexp _ vd va ty => [vd.val + va.val * 16 + ty.toNat * 65536]
  | .vrcp _ vd va ty => [vd.val + va.val * 16 + ty.toNat * 65536]
  | .vrsqrt _ vd va ty => [vd.val + va.val * 16 + ty.toNat * 65536]
  | .vtblld _ _ _ _ n => [n.val]
  | .vtbl _ vd va ty n => [vd.val + va.val * 16 + ty.toNat * 65536 + n.val * 1048576]
  | .vtolog _ vd va => [vd.val + va.val * 16]
  | .vfrlog _ vd va ty => [vd.val + va.val * 16 + ty.toNat * 65536]
  | .vladd _ _ _ _ vd va vb => [vd.val + va.val * 16 + vb.val * 256]
  | .vlsub _ _ _ _ vd va vb => [vd.val + va.val * 16 + vb.val * 256]
  | .vlshr _ vd va n => [vd.val + va.val * 16 + n.toNat * 65536]
  | .vlmul _ _ _ vd va => [vd.val + va.val * 16]
  | .vhamm _ vd va vb n => [vd.val + va.val * 16 + vb.val * 256 + n.toNat * 65536]
  | .vtopk _ _ vd va vb vc k1 => [vd.val + va.val * 16 + vb.val * 256 + vc.val * 4096 + k1.toNat * 65536]
  | .vfilt _ _ _ _ _ _ vd va => [vd.val + va.val * 16]
  | .vsect _ _ _ _ vd => [vd.val]
  | .vuniq _ vd va vc => [vd.val + va.val * 16 + vc.val * 4096]
  | .vbkt _ vd va vc nb1 sft => [vd.val + va.val * 16 + vc.val * 4096 + nb1.toNat * 65536 + sft.toNat * 4194304]
  | .mcfgLevel _ _ _ _ _ _ => [0]
  | .mcfgNest _ _ _ => [0]
  | .mshp _ _ _ _ n => [n.val]
  | .mshf _ _ _ n field => [n.val + field.toNat * 16]
  | .mgo _ => [0]
  | .mrst _ off => [off.toNat]
  | .mrstNone _ => [0]
  | .maccClr _ n => [n.val]
  | .maccSave _ n row half => [n.val + row.toNat * 2 + half.val * 1024]
  | .maccLoad _ n row half => [n.val + row.toNat * 2 + half.val * 1024]
  | .mepi _ _ _ _ _ _ => [0]
  | .mlqSend _ _ _ n m ty => [n.val + m.val * 16 + ty.toNat * 256]
  | .mlqRecv _ _ _ n m ty => [n.val + m.val * 16 + ty.toNat * 256]
  | .mlqUnbind _ n => [n.val]
  | .gpoolAuto _ _ _ _ _ ty mean bags => [ty.toNat * 16384 + mean.toNat * 4096 + bags.toNat]
  | .gpoolDie _ _ _ _ _ ty mean bags => [ty.toNat * 16384 + mean.toNat * 4096 + bags.toNat]
  | .gpoolFar _ _ _ _ _ ty mean bags => [ty.toNat * 16384 + mean.toNat * 4096 + bags.toNat]
  | .gdeq _ _ _ _ _ ty count => [ty.toNat * 16384 + count.toNat]
  | .gscan _ _ _ _ _ dmax flt nq1 k1 => [dmax.toNat * 8192 + flt.toNat * 4096 + nq1.toNat * 256 + k1.toNat]
  | .grank _ _ _ _ _ ty count => [ty.toNat * 16384 + count.toNat]
  | .hrpin _ _ _ count => [count.toNat]
  | .hrfree _ _ _ count => [count.toNat]
  | .dupd _ _ _ _ _ ty opt count => [ty.toNat * 16384 + opt.toNat * 4096 + count.toNat]
  | .dord _ _ _ _ _ ty opt count => [ty.toNat * 16384 + opt.toNat * 4096 + count.toNat]
  | .xall _ _ _ _ _ nb1 sft count => [nb1.toNat * 131072 + sft.toNat * 4096 + count.toNat]
  | .wload _ _ _ _ _ tiles ty kind => [tiles.toNat * 64 + ty.toNat * 4 + kind.toNat]
  | .wtbl _ _ _ _ _ _ ty n1 first => [ty.toNat * 4096 + n1.toNat * 64 + first.toNat]
  | .mswaysDrain _ _ => []
  | .mswaysConvert _ _ => []
  | .commandStart _ _ => []
  | .commandComplete _ _ _ => []
  | .nestStep _ => []
  | .epilogue _ => []
  | .registerWriteLanding _ => []
  | .loadValueReturn _ _ => []
  | .heldWordResume _ => []
  | .stopSpacing _ => []
  | .pendingTrapDelivery _ => []
  | .launchPacket _ _ _ _ => []
  | .launchAccept _ => []
  | .jobDispatch _ _ => []
  | .iterationHandout _ => []
  | .recordPickup _ => []
  | .schedAge _ => []
  | .fairnessDue _ => []
  | .fairnessWindowEnd _ => []
  | .issuePass _ => []
  | .mangleTake _ => []
  | .watchdogExpiry _ => []
  | .jobComplete _ _ => []
  | .cancelRequest _ _ _ => []
  | .linkTileArrival _ _ _ _ => []
  | .ltqCredit _ _ => []
  | .ltqBindPacket _ _ _ _ _ _ _ => []
  | .ltqTimeout _ _ => []
  | .routePacket _ => []
  | .multicastForward _ _ _ _ _ _ _ _ _ => []
  | .fabricWriteArrival _ _ _ _ _ => []
  | .fabricAck _ _ => []
  | .fabricAtomicArrival _ _ _ _ _ _ _ => []
  | .fabricAnswerWrite _ _ _ => []
  | .monitorRequestArrival _ _ _ _ => []
  | .wakeWrite _ => []
  | .requestRecordArrival _ _ _ _ => []
  | .remoteBarrierAdd _ _ _ _ _ => []
  | .ethRmaWrite _ _ _ _ => []
  | .ethUntaggedSend _ _ => []
  | .ethDeliveryAck _ => []
  | .hostRead _ _ => []
  | .hostWrite _ _ => []
  | .faultQueueAppend => []
  | .fqPop => []
  | .fqEnd _ => []
  | .erPop => []
  | .trInvalWrite _ _ => []
  | .trInvalDone _ => []
  | .skClrWrite _ _ => []
  | .sketchHalve _ _ => []
  | .hrCfgWrite _ _ => []
  | .hrCfgTakeEffect _ => []
  | .chmWrite _ _ _ _ => []
  | .migGo _ => []
  | .migrationDone _ => []
  | .wvQuotaWrite _ => []
  | .viewFree _ => []
  | .opSelWrite _ => []
  | .opmodeApply => []
  | .leaveGrant _ _ => []
  | .testResult _ _ => []
  | .memoryCorrectedError _ _ _ => []
  | .arraySoftError _ _ => []
  | .linkStateChange _ _ _ _ => []
  | .linkFecCorrection _ _ => []
  | .powerOnReset => []
  | .rstCtlWrite _ => []
  | .boot _ => []
  | .atGoWrite _ => []
  | .attestReportDone => []
  | .replayHoldLimit _ => []
  | .registerWrite _ _ _ => []
  | .linkLevelRetry _ _ => []
  | .skClrDone _ => []
  | .mswaysOperationEnd _ => []

/-- The words of an instruction, first word first. -/
def encode (i : Instr) : List Nat := encode0 i :: encodeExt i

/-- Decode an instruction from its first word and the two words that follow it (only those the instruction takes are
looked at): R33's cases each have a name. -/
def decodeWords (w0 w1 w2 : Nat) : Except DecodeError Instr :=
  if fld w0 21 6 = 0 ∨ fld w0 21 6 = 63 then .error .permanentlyIllegal
  else if (28 ≤ fld w0 21 6 ∧ fld w0 21 6 ≤ 31) ∨ (44 ≤ fld w0 21 6 ∧ fld w0 21 6 ≤ 47)
      ∨ (52 ≤ fld w0 21 6 ∧ fld w0 21 6 ≤ 55) ∨ (60 ≤ fld w0 21 6 ∧ fld w0 21 6 ≤ 62) then .error .reservedMajor
  else match candidate w0 w1 w2 with
    | none => .error .unassigned
    | some i =>
      let ext := [w1, w2].take (wordCount w0 - 1)
      if ext.any (fun w => decide (fld w 28 4 ≠ 0)) then .error .extensionHighBits
      else if tableMajor w0 && decide (fld w0 28 4 ≠ 0) then .error .ringBits
      else if encode i ≠ w0 :: ext then .error .nonZeroField
      else if i.wf then .ok i
      else .error .reservedValue

/-- Four bytes, least significant first, as a word (R9). -/
def wordOfBytes (b0 b1 b2 b3 : Byte) : Nat := b0.toNat + b1.toNat * 256 + b2.toNat * 65536 + b3.toNat * 16777216

/-- The words that start a list of bytes. -/
def wordsOfBytes : List Byte → List Nat
  | b0 :: b1 :: b2 :: b3 :: rest => wordOfBytes b0 b1 b2 b3 :: wordsOfBytes rest
  | _ => []

/-- Decode from bytes: the instruction and the bytes after it, or why there is none. -/
def decodeBytes (bs : List Byte) : Except DecodeError (Instr × List Byte) :=
  match wordsOfBytes bs with
  | [] => .error .truncated
  | w0 :: ws =>
    if ws.length + 1 < wordCount w0 then .error .truncated
    else match decodeWords w0 (ws.getD 0 0) (ws.getD 1 0) with
      | .error e => .error e
      | .ok i => .ok (i, bs.drop (4 * wordCount w0))

/-- A word as four bytes, least significant first (R9). -/
def bytesOfWord (w : Nat) : List Byte :=
  [BitVec.ofNat 8 w, BitVec.ofNat 8 (w / 256), BitVec.ofNat 8 (w / 65536), BitVec.ofNat 8 (w / 16777216)]

/-- The instruction that the decoder reads from an instruction whose bits are `w`, its first word in bits 31..0 and each
extension word above it; bits that the table does not give are zero. -/
def decodeTableWord (_nbits w : Nat) : Option Instr :=
  match decodeBytes (bytesOfWord w ++ bytesOfWord (w / 4294967296) ++ bytesOfWord (w / 18446744073709551616)) with
  | .ok (i, _) => some i
  | .error _ => none

end Sys2Proof
end

