-- ==== Sys2Proof/Machine/Access.lean ====
section
/-! DEFINITION. The parts of the device by number, and the management registers as stored words (R389). Partition
`p` = 192 * quarter + 4 * core + partition; core `c` = 48 * quarter + core. -/

namespace Sys2Proof.Machine

/-- Partition `p`. -/
def part (s : State) (p : Nat) : Part := fgetD s.parts p {}

/-- Replaces partition `p`. -/
def setPart (s : State) (p : Nat) (x : Part) : State := { s with parts := fput s.parts p x }

/-- Updates partition `p`. -/
def modPart (s : State) (p : Nat) (f : Part → Part) : State := setPart s p (f (part s p))

/-- Core `c`. -/
def core (s : State) (c : Nat) : Core := fgetD s.cores c {}

/-- Replaces core `c`. -/
def setCore (s : State) (c : Nat) (x : Core) : State := { s with cores := fput s.cores c x }

/-- Updates core `c`. -/
def modCore (s : State) (c : Nat) (f : Core → Core) : State := setCore s c (f (core s c))

/-- Quarter `q`. -/
def quarter (s : State) (q : Nat) : Quarter := fgetD s.quarters q {}

/-- Updates quarter `q`. -/
def modQuarter (s : State) (q : Nat) (f : Quarter → Quarter) : State :=
  { s with quarters := fput s.quarters q (f (quarter s q)) }

/-- The quarter of a partition. -/
def quarterOf (p : Nat) : Nat := p / 192

/-- The core of a partition. -/
def coreOf (p : Nat) : Nat := p / 4

/-- The partitions of a core. -/
def partsOf (c : Nat) : List Nat := [4 * c, 4 * c + 1, 4 * c + 2, 4 * c + 3]

/-- Every partition of the device. -/
def allParts : List Nat := List.range 768

/-- Command queue `k` of partition `p`: 0 F, 1 V, 2 M, 3 gleaner, 4 Darner, 5 exchange and weight (R13). -/
def cmdQueue (s : State) (p k : Nat) : CmdQueue := fgetD (part s p).queues k {}

/-- Updates a command queue. -/
def modQueue (s : State) (p k : Nat) (f : CmdQueue → CmdQueue) : State :=
  modPart s p fun x => { x with queues := fput x.queues k (f (fgetD x.queues k {})) }

/-- The next number of a word, command, monitor or packet, and the state after drawing it. -/
def fresh (s : State) : Nat × State := (s.nextSeq, { s with nextSeq := s.nextSeq + 1 })

/-- The unit identifier of partition `p` (R375). -/
def unitPart (p : Nat) : Nat := 0x10000000 + quarterOf p * 2 ^ 26 + coreOf p % 48 * 2 ^ 20 + 0x40 + p % 4

/-- The unit identifier of command queue `k` of the core of partition `p` (R375). -/
def unitQueue (p k : Nat) : Nat := 0x10000000 + quarterOf p * 2 ^ 26 + coreOf p % 48 * 2 ^ 20 + 0x50 + k

/-- The unit identifier of job queue `n` of quarter `q` (R375). -/
def unitJobQueue (q n : Nat) : Nat := 0x90000000 + q * 2 ^ 26 + n * 2 ^ 20

/-- Where a management register is kept: quarter and offset in the window (R364). -/
def mkey (q off : Nat) : Nat := q * 2 ^ 46 + off

/-- The reset value of a stored management register (R389, R292, R322, R217, R231, R297, R380). -/
def mgmtReset (off : Nat) : W64 :=
  if off = 0x3F0000000008 then 100
  else if off = 0x3F0000000010 then 1000
  else if off = 0x3F0000000030 then 8
  else if off = 0x3F00000000A0 then 10000
  else if off = 0x3F0000108010 then 1000
  else if 0x3F0000200000 ≤ off ∧ off < 0x3F0000204000 ∧ off % 0x100 = 0 then w64 (off / 0x100 % 16)
  else 0

/-- The stored word of a management register. -/
def mget (s : State) (q off : Nat) : W64 := fgetD s.mgmt (mkey q off) (mgmtReset off)

/-- The stored word as a number. -/
def mgetN (s : State) (q off : Nat) : Nat := (mget s q off).toNat

/-- Sets the stored word of a management register. -/
def mset (s : State) (q off : Nat) (v : W64) : State := { s with mgmt := fput s.mgmt (mkey q off) v }

/-- Adds 1 to a counter of `w` bits that holds at all ones. -/
def mbump (s : State) (q off w : Nat) : State :=
  let v := mgetN s q off
  if v % 2 ^ w = 2 ^ w - 1 then s else mset s q off (w64 (v + 1))

/-- Offset of scheduling register `i` of a quarter, in the order of R389. -/
def schedReg (i : Nat) : Nat := 0x3F0000000000 + 8 * i

def regJqbase : Nat := schedReg 0
def regAge : Nat := schedReg 1
def regWdlim : Nat := schedReg 2
def regWdcnt : Nat := schedReg 3
def regWdunit : Nat := schedReg 4
def regWdpc : Nat := schedReg 5
def regThresh : Nat := schedReg 6
def regAdmit : Nat := schedReg 7
def regPeriod : Nat := schedReg 8
def regSkClr : Nat := schedReg 9
def regHrCfg : Nat := schedReg 10
def regAstab : Nat := schedReg 11
def regInval : Nat := schedReg 12
def regMigVa : Nat := schedReg 13
def regMigDst : Nat := schedReg 14
def regMigCtl : Nat := schedReg 15
def regRqWin : Nat := schedReg 16
def regOvtab : Nat := schedReg 17
def regRelfail : Nat := schedReg 18
def regPwHeld : Nat := schedReg 19
def regRpLimit : Nat := schedReg 20
def regTvec : Nat := schedReg 21
def regTrec : Nat := schedReg 22
def regCdis : Nat := schedReg 23

/-- Offset of register `r` of job queue `n` (R388). -/
def regJq (n r : Nat) : Nat := 0x3F0000001000 + 0x40 * n + 8 * r

/-- Offset of `rq.cfg`n (R316). -/
def regRqCfg (n : Nat) : Nat := 0x3F0000002000 + 8 * n

/-- Offset of `tol.cnt`n (R303). -/
def regTol (n : Nat) : Nat := 0x3F0000003000 + 8 * n

/-- Offset of register `r` of logical channel `c` of gleaner slot `g` (R389): 0 `chm`, 1 `chc.corr`, 2 `chc.thr`, 3 `chc.unc`,
4 `chc.rowthr`, 8 + b `chc.bank`b. -/
def regCh (g c r : Nat) : Nat := 0x3F0000200000 + 0x1000 * g + 0x100 * c + 8 * r

/-- Offset of the out-of-range counter of gleaner slot `g` (R178). -/
def regOor (g : Nat) : Nat := 0x3F0000210000 + 0x1000 * g

/-- Offset of the Darner discard counter of gleaner slot `g` (R186). -/
def regDdisc (g : Nat) : Nat := 0x3F0000210008 + 0x1000 * g

/-- Offset of next(t) of gleaner slot `g` (R186). -/
def regNext (g t : Nat) : Nat := 0x3F0000210100 + 0x1000 * g + 8 * t

/-- Offset of a link's registers (R389): kind 0 local link, 1 global port, 2 Ethernet port; `r` 0 `lk.state`, 1 `lk.corr`,
2 `lk.retry`, 3 `lk.thr`. -/
def regLink (kind k r : Nat) : Nat :=
  0x3F0000100000 + (if kind = 0 then 0 else if kind = 1 then 0x2000 else 0x6000) + 0x100 * k + 8 * r

def regFabLost : Nat := 0x3F0000108000
def regEthDrop : Nat := 0x3F0000108008
def regLtqTimeout : Nat := 0x3F0000108010
def regEptab : Nat := 0x3F0000108018
def regWvSel : Nat := 0x3F0000108020
def regWvDesc : Nat := 0x3F0000108028
def regWvQuota : Nat := 0x3F0000108030

/-- Offset of reachability word `w` of router port `p` (R319). -/
def regReach (p w : Nat) : Nat := 0x3F0000110000 + 0x80 * p + 8 * w

/-- Offset of field `r` of Ethernet receive entry `n`: 0 base, 1 length, 2 barrier (R389). -/
def regRx (n r : Nat) : Nat := 0x3F0000120000 + 0x20 * n + 8 * r

/-- Offset of access-control entry `i` (R225). -/
def regAcl (i : Nat) : Nat := 0x3F0000140000 + 8 * i

/-- Offset of a register of the device block at 0x3F00_0030_0000 (R389). -/
def regDev (o : Nat) : Nat := 0x3F0000300000 + o

/-- Whether an offset lies in the management window (R364). -/
def inMgmt (off : Nat) : Bool := 0x3F0000000000 ≤ off

/-- The job a partition works for, and its view (R337). -/
def viewOf (s : State) (p : Nat) : Nat := match (part s p).resident with | some r => r.view | none => 0

/-- The job of the record a partition holds; 0 for none. -/
def jobOf (s : State) (p : Nat) : Nat := match (part s p).resident with | some r => r.job | none => 0

/-- The context of an access by an agent of partition `p`. -/
def ctxOf (s : State) (p : Nat) (a : Agent) : Ctx :=
  { part := p, agent := a, asid := (part s p).asid, view := viewOf s p, job := jobOf s p }

/-- A fault waits to be appended to the fault queue (R371). -/
def raiseFault (s : State) (f : FaultRec) : State := { s with faultsWaiting := s.faultsWaiting ++ [f] }

/-- Appends an error record, or drops it when the queue holds 4,096 (R373). -/
def appendError (s : State) (unit sev kind : Nat) (addr detail : W64) : State :=
  if s.errors.length < 4096 then
    { s with errors := s.errors ++ [{ unit := unit, seq := s.errSeq % 2 ^ 16, sev := sev, kind := kind, addr := addr,
                                      time := s.time % 2 ^ 64, detail := detail }],
             errSeq := s.errSeq + 1, notifyDue := s.notifyDue || s.errors.isEmpty }
  else { s with errLost := min (s.errLost + 1) (2 ^ 32 - 1) }

/-- The agent's unit identifier (R375). -/
def unitOf (c : Ctx) : Nat :=
  match c.agent with
  | .control => unitPart c.part
  | .fetch => unitQueue c.part 0
  | .vector => unitQueue c.part 1
  | .matrix => unitQueue c.part 2
  | .gleaner => unitQueue c.part 3
  | .darner => unitQueue c.part 4
  | .exchange => unitQueue c.part 5

/-- Queues a fault for an access (R371). -/
def faultFor (s : State) (c : Ctx) (va acc kind : Nat) : State :=
  raiseFault s { job := c.job, va := va, unit := unitOf c, asid := c.asid, view := c.view, acc := acc, kind := kind }

/-- Adds a pending trap to a partition (R368). A word or command of which several writes are held has one SIDE_LOG_FULL for them all, and a trap that finds 8
pending adds none (DEDUCED, log entry 129). -/
def pend (s : State) (p : Nat) (t : PendingTrap) : State :=
  modPart s p fun x =>
    if 8 ≤ x.pending.length ∨ x.pending.any fun u => u.src == 7 && t.src == 7 && u.seq == t.seq then x else { x with pending := x.pending ++ [t] }

/-- An entry joins the tail of a level (R216). -/
def joinLevel (s : State) (q lvl : Nat) (i : LevelItem) : State :=
  modQuarter s q fun x => { x with levels := x.levels ++ [{ level := lvl, item := i, since := s.time }] }

/-- The key of a record: its address space and its address (R213). -/
def recKey (asid addr : Nat) : Nat := asid * 2 ^ 64 + addr

/-- Whether a write of a record's bytes is still in a side log (R392). -/
def recordUnwritten (s : State) (addr : Nat) : Bool :=
  s.cores.any fun c => (c.2.sideLog ++ c.2.sideHeld).any fun e => e.cont && e.ctx.asid == addr / 2 ^ 64 && decide (addr % 2 ^ 64 ≤ e.va ∧ e.va < addr % 2 ^ 64 + 64)

/-- No partition holds any more for a record that has ended (R392). -/
def unpick (s : State) (addr : Nat) : State :=
  { s with parts := s.parts.map fun p => (p.1, if p.2.picking.map (·.1) = some addr then { p.2 with picking := none } else p.2) }

/-- Makes a suspended record ready: it joins the tail of its base level, once its bytes are written (R215, R216, R217, R392). A record of a
job that the runtime has ended ends there instead (R228). -/
def recordReady (s : State) (q addr : Nat) : State :=
  match (quarter s q).suspended.find? (fun r => r.addr == addr) with
  | some r =>
    if (quarter s q).jobs.any (fun j => j.addr == r.job && j.status == 6) then
      modQuarter (unpick s addr) q fun x => { x with
        suspended := x.suspended.filter (fun r => r.addr != addr),
        jobs := if r.rival then x.jobs else replaceFirst (fun j => j.addr == r.job) (fun j => { j with live := j.live - 1 }) x.jobs }
    else if (quarter s q).levels.any (fun e => e.item == .record addr) then s else
    let s := modQuarter s q fun x => { x with suspended := replaceFirst (fun r => r.addr == addr) (fun r => { r with wake := .ready }) x.suspended }
    if recordUnwritten s addr then s else joinLevel s q r.base (.record addr)
  | none => s

end Sys2Proof.Machine
end

