-- ==== Sys2Proof/Machine/Memory.lean ====
section
/-! DEFINITION. Memory: physical places (R282), the caches and TLBs (R76, R85, R286, R287), translation (R283 to R285), replicas (R251,
R289), views (R338, R339), and the reads and writes of one place or one range. -/

namespace Sys2Proof.Machine

/-- What an unlisted byte of physical memory reads as: Adeun writes zero through all of it (R383). -/
def memEmpty : Byte := 0

/-- The byte at a physical address. -/
def memGet : List Host.Cell → Nat → Byte
  | [], _ => memEmpty
  | (a', b) :: r, a => if a = a' then b else memGet r a

/-- Writes one byte; the list keeps rising addresses and lists no byte equal to `memEmpty`. -/
def memPut : List Host.Cell → Nat → Byte → List Host.Cell
  | [], a, b => if b = memEmpty then [] else [(a, b)]
  | (a', b') :: r, a, b =>
    if a < a' then (if b = memEmpty then (a', b') :: r else (a, b) :: (a', b') :: r)
    else if a = a' then (if b = memEmpty then r else (a, b) :: r)
    else (a', b') :: memPut r a b

/-- Writes bytes at rising addresses. -/
def memPutAll (m : List Host.Cell) (a : Nat) : List Byte → List Host.Cell
  | [] => m
  | b :: r => memPutAll (memPut m a b) (a + 1) r

/-- The canonical form of memory: rising addresses above `lo`, no byte equal to `memEmpty`. -/
def memWfFrom : Nat → List Host.Cell → Bool
  | _, [] => true
  | lo, (a, b) :: r => decide (lo ≤ a) && b != memEmpty && memWfFrom (a + 1) r

/-- The canonical form of memory. -/
def Memory.wf (m : List Host.Cell) : Bool := memWfFrom 0 m

/-- The bytes of memory from `a` on. -/
def memBytes (m : List Host.Cell) (a : Nat) : Nat → List Byte
  | 0 => []
  | n + 1 => memGet m a :: memBytes m (a + 1) n

/-- GiB of the hot-row cache in force (R294). -/
def hrTotal (s : State) (q : Nat) : Nat :=
  let v := mgetN s q regHrCfg
  nfld v 0 8 + nfld v 8 8 + nfld v 16 8 + nfld v 24 8

/-- `chm.state` of a channel (R292). -/
def chmState (s : State) (q g c : Nat) : Nat := nfld (mgetN s q (regCh g c 0)) 6 2

/-- Bytes of LPDDR6 behind a logical channel (R282, R292). -/
def chSize (s : State) (q g c : Nat) : Nat :=
  if chmState s q g c = 3 then 0 else if chmState s q g c = 0 then 0x600000000 else 0x300000000

/-- The tier of a physical range that lies wholly in one mappable row of R282: 0 HBM, 1 LPDDR6, 2 converted ways. -/
def tierOf (s : State) (pa n : Nat) : Option Nat :=
  let q := pa / 2 ^ 46
  let o := pa % 2 ^ 46
  if 0x10000000 ≤ o ∧ o + n ≤ 0x2000000000 - hrTotal s q * 2 ^ 30 then some 0
  else if 0x100000000000 ≤ o ∧ o < 0x120000000000 then
    let g := (o - 0x100000000000) / 2 ^ 39
    let c := (o - 0x100000000000) / 2 ^ 35 % 16
    if (o - 0x100000000000) % 2 ^ 35 + n ≤ chSize s q g c then some 1 else none
  else if 0x200000000000 ≤ o ∧ o + n ≤ 0x200000000000 + (quarter s q).msways * 2 ^ 25 then some 2
  else none

/-- Whether a physical range is backed, mappable or not (R282). -/
def backed (s : State) (pa n : Nat) : Bool :=
  let o := pa % 2 ^ 46
  decide (0x10000000 ≤ o ∧ o + n ≤ 0x2000000000) || (tierOf s pa n).isSome

/-- Whether a physical range lies in the HBM of a quarter (R66, R341). -/
def inHbm (q pa n : Nat) : Bool :=
  decide (pa / 2 ^ 46 = q ∧ 0x10000000 ≤ pa % 2 ^ 46 ∧ pa % 2 ^ 46 + n ≤ 0x2000000000)

/-- The 32 bytes of a sector as every coherent reader sees them (R238). -/
def sectorBytes (s : State) (sec : Nat) : List Byte :=
  match fget s.die sec with
  | some c => c.bytes
  | none => memBytes s.mem (32 * sec) 32

/-- One byte as every coherent reader sees it. -/
def cohByte (s : State) (pa : Nat) : Byte :=
  match fget s.die (pa / 32) with
  | some c => c.bytes.getD (pa % 32) 0
  | none => memGet s.mem pa

/-- Bytes as every coherent reader sees them. -/
def cohBytes (s : State) (pa : Nat) : Nat → List Byte
  | 0 => []
  | n + 1 => cohByte s pa :: cohBytes s (pa + 1) n

/-- Overwrites part of a sector. -/
def spliceBytes (old : List Byte) (o : Nat) (bs : List Byte) : List Byte :=
  old.take o ++ bs ++ old.drop (o + bs.length)

/-- Writes bytes inside one sector (R85). A write of a whole sector gives it a fresh code; a part of a sector that fails and that no cache
holds is merged in memory, where the sector goes on failing (R281, R291). -/
def putSector (s : State) (pa : Nat) (bs : List Byte) (hint : Nat) : State :=
  let sec := pa / 32
  let s := if bs.length = 32 then { s with failing := s.failing.filter (· != sec) } else s
  match fget s.die sec with
  | some c => { s with die := fput s.die sec { bytes := spliceBytes c.bytes (pa % 32) bs, dirty := true } }
  | none =>
    if hint = 3 ∨ s.failing.contains sec then { s with mem := memPutAll s.mem pa bs }
    else { s with die := fput s.die sec { bytes := spliceBytes (memBytes s.mem (32 * sec) 32) (pa % 32) bs, dirty := true } }

/-- Writes back a sector if it is dirty (R85). -/
def writeBack (s : State) (sec : Nat) : State :=
  match fget s.die sec with
  | some c => if c.dirty then { s with mem := memPutAll s.mem (32 * sec) c.bytes, die := fput s.die sec { c with dirty := false },
                                       failing := s.failing.filter (· != sec) } else s
  | none => s

/-- Discards the copies of a sector (R85). -/
def dropSector (s : State) (sec : Nat) : State := { s with die := fdel s.die sec }

/-- Whether a sector cannot be read: its code fails and no cache holds it (R281, R291). -/
def unreadable (s : State) (pa : Nat) : Bool := (fget s.die (pa / 32)).isNone && s.failing.contains (pa / 32)

/-! ## Cache lines -/

/-- A sector that can be read is brought into the caches (R76). -/
def fillSector (s : State) (pa : Nat) : State :=
  if (fget s.die (pa / 32)).isSome ∨ unreadable s pa then s
  else { s with die := fput s.die (pa / 32) { bytes := memBytes s.mem (pa / 32 * 32) 32, dirty := false } }

/-- The key of a line in a level: 1 + h is the L2 of quarter h, 5 + c the L1 data cache of core c; tagged by view, address space and line
(R287, R340). -/
def lineKey (level asid line : Nat) (view : Nat := 0) : Nat := ((level * 2 ^ 12 + view) * 2 ^ 16 + asid) * 2 ^ 48 + line

/-- The hint that a hit leaves recorded (R76). Hints are their codes; 4 more than a code is a read that allocates nothing (R299) and that a hit
records all the same. -/
def hitHint (old hint : Nat) : Nat := if hint = 3 then old else hint % 4

/-- The memory-side cache records the use of a line (R76): an access that bypasses allocates nothing and leaves the hint. -/
def useMsc (s : State) (pa hint : Nat) : State :=
  let n := s.tags.uses + 1
  match fget s.tags.msc (pa / 128) with
  | none => if 3 ≤ hint then s else { s with tags := { s.tags with msc := fput s.tags.msc (pa / 128) { hint := hint, used := n }, uses := n } }
  | some l => { s with tags := { s.tags with msc := fput s.tags.msc (pa / 128) { hint := hitHint l.hint hint, used := n }, uses := n } }

/-- An L1 or L2 level records the use of a sector of a line (R76, R287). -/
def useVirt (s : State) (key pa hint : Nat) : State :=
  let n := s.tags.uses + 1
  let bit := 2 ^ (pa / 32 % 4)
  let put (l : VLine) : State := { s with tags := { s.tags with virt := fput s.tags.virt key l, uses := n } }
  match fget s.tags.virt key with
  | some l =>
    if l.pa = pa / 128 ∧ l.old.isNone then
      put { l with sectors := if 3 ≤ hint then l.sectors else l.sectors ||| bit, hint := hitHint l.hint hint, used := n }
    else if 3 ≤ hint then s else put { pa := pa / 128, sectors := bit, hint := hint, used := n }
  | none => if 3 ≤ hint then s else put { pa := pa / 128, sectors := bit, hint := hint, used := n }

/-- Whether some cache holds a physical line. -/
def lineHeld (s : State) (line : Nat) : Bool :=
  (fget s.tags.msc line).isSome || s.tags.virt.any fun v => v.2.pa == line && v.2.old.isNone

/-- The sectors of a physical line that no cache holds any more leave, the dirty ones with a write-back. -/
def releaseLine (s : State) (line : Nat) : State :=
  if lineHeld s line then s
  else (List.range 4).foldl (fun s i => dropSector (writeBack s (4 * line + i)) (4 * line + i)) s

/-- Of lines with their hints and last uses, the one that replacement takes first (R76): a streaming line, else the least recently used
line that is not sticky, else the least recently used. -/
def victim (l : List (Nat × LineUse)) : Option Nat :=
  let rank (x : LineUse) : Nat := (if x.hint = 1 then 0 else if x.hint = 2 then 2 else 1)
  ((sortBy (fun a b => decide (rank a.2 < rank b.2 ∨ rank a.2 = rank b.2 ∧ a.2.used ≤ b.2.used)) l).head?).map (·.1)

/-- A level evicts a line from among lines that share a set (R76): level 0 is the memory-side cache, 197 + c the read-only path of core c. Which
lines share a set, and when a set is full, are the agenda's. -/
def evictFrom (s : State) (level : Nat) (set : List Nat) : State :=
  if 197 ≤ level then
    match victim (((core s (level - 197)).roCopies.filter fun l => set.contains l.1).map fun l => (l.1, { hint := l.2.hint, used := l.2.used })) with
    | some k => modCore s (level - 197) fun x => { x with roCopies := fdel x.roCopies k }
    | none => s
  else if level = 0 then
    match victim (s.tags.msc.filter fun l => set.contains l.1) with
    | some k => releaseLine { s with tags := { s.tags with msc := fdel s.tags.msc k } } k
    | none => s
  else
    match victim ((s.tags.virt.filter fun l => l.1 / 2 ^ 76 == level && set.contains l.1).map fun l => (l.1, { hint := l.2.hint, used := l.2.used })) with
    | some k =>
      let line := ((fget s.tags.virt k).map (·.pa)).getD 0
      releaseLine { s with tags := { s.tags with virt := fdel s.tags.virt k } } line
    | none => s

/-! ## Translation -/

/-- Reads a doubleword of physical memory through the caches; nothing where the place is not backed or cannot be read. -/
def physDword (s : State) (pa : Nat) : Option Nat :=
  if backed s (pa / 8 * 8) 8 ∧ ¬ unreadable s pa then some (leNat (cohBytes s (pa / 8 * 8) 8)) else none

/-- Bytes of a page, by its size code (R6, R284). -/
def pageSize (sz : Nat) : Nat := if sz = 0 then 2 ^ 18 else if sz = 1 then 2 ^ 26 else 2 ^ 34

/-- Whether a leaf of quarter `q` may be used (R285). -/
def leafUsable (s : State) (q pte : Nat) : Bool :=
  let sz := nfld pte 1 2
  let f := nfld pte 18 30 * 2 ^ 18
  decide (f % pageSize sz = 0) && decide (f / 2 ^ 46 = q) &&
    (match tierOf s f (pageSize sz) with
     | some t => decide (t = nfld pte 5 2)
     | none => false) &&
    (!nbit pte 48 || decide (nfld pte 5 2 = 0))

/-- One level of the walk: the entry at `tab + 8 * i`; a leaf of size code `sz`, or the next table (R283). -/
def walkEntry (s : State) (q tab i sz : Nat) : Option (Nat ⊕ (Nat × Nat)) :=
  match physDword s (tab + 8 * i) with
  | none => none
  | some e =>
    if ¬ nbit e 0 then none
    else if nfld e 1 2 = sz then (if leafUsable s q e then some (.inr (e, tab + 8 * i)) else none)
    else if nfld e 1 2 = 3 ∧ sz ≠ 0 then some (.inl (nfld e 11 37 * 2 ^ 11))
    else none

/-- The walk of quarter `q`'s tables for an offset (R283): the places read, and the leaf with its place. -/
def walkPath (s : State) (q asid off : Nat) : List Nat × Option (Nat × Nat) :=
  let a := mgetN s q regAstab + 8 * asid
  match physDword s a with
  | none => ([a], none)
  | some e =>
    if e = 0 then ([a], none) else
    let t1 := nfld e 15 33 * 2 ^ 15
    let b := t1 + 8 * (off / 2 ^ 34)
    match walkEntry s q t1 (off / 2 ^ 34) 2 with
    | none => ([a, b], none)
    | some (.inr l) => ([a, b], some l)
    | some (.inl t2) =>
      let c := t2 + 8 * (off / 2 ^ 26 % 256)
      match walkEntry s q t2 (off / 2 ^ 26 % 256) 1 with
      | none => ([a, b, c], none)
      | some (.inr l) => ([a, b, c], some l)
      | some (.inl t3) =>
        match walkEntry s q t3 (off / 2 ^ 18 % 256) 0 with
        | some (.inr l) => ([a, b, c, t3 + 8 * (off / 2 ^ 18 % 256)], some l)
        | _ => ([a, b, c, t3 + 8 * (off / 2 ^ 18 % 256)], none)

/-- The leaf that the tables give for an offset, and its place (R283). -/
def walk (s : State) (q asid off : Nat) : Option (Nat × Nat) := (walkPath s q asid off).2

/-- The number of an address's 128-byte line among all quarters. -/
def lineOf (q off : Nat) : Nat := (q * 2 ^ 46 + off) / 128

/-- Whether a held translation serves an offset (R286): a global one serves every address space. -/
def serves (e : TlbEntry) (q asid off : Nat) : Bool :=
  e.quarter == q && (e.asid == asid || nbit e.pte 7) && e.page == off / pageSize e.size

/-- The translation held for an offset: in the TLB of the line's home, else in the large level (R286). -/
def heldLeaf (s : State) (q asid off : Nat) : Option TlbEntry :=
  match s.tags.homes.find? fun h => h.1 == lineOf q off && serves h.2 q asid off with
  | some h => some h.2
  | none => s.tags.large.find? fun e => serves e q asid off

/-- The leaf that translates an offset, and its place: one that is held, else the walk's; none where it is not usable (R283 to R286). -/
def leafAt (s : State) (q asid off : Nat) : Option (Nat × Nat) :=
  match heldLeaf s q asid off with
  | some e => if leafUsable s q e.pte then some (e.pte, e.place) else none
  | none => walk s q asid off

/-- The physical address of an offset under a leaf. -/
def leafPa (pte off : Nat) : Nat := nfld pte 18 30 * 2 ^ 18 + off % pageSize (nfld pte 1 2)

/-- Where an address leads (R4, R5); the device's own number reads as 0xFFFF. -/
inductive Loc where
  | reserved
  | host
  | remote (dev : Nat)
  | here (q off : Nat)
deriving DecidableEq, Repr

/-- Where an address leads (R4, R5). -/
def locOf (va : Nat) : Loc :=
  let d := va / 2 ^ 48 % 2 ^ 16
  if d = 0xFFFF ∨ d = Config.device then .here (nfld va 46 2) (va % 2 ^ 46)
  else if d = 0xFFFE then .host
  else if 0x8000 ≤ d then .reserved
  else .remote d

/-- What lies at an offset of a quarter: a job-queue window (R202), a request-queue window (R316), the management window (R364), or
translated space. -/
inductive Spot where
  | jobWindow (n o : Nat)
  | rqWindow (n o : Nat)
  | mgmt
  | memory
deriving DecidableEq, Repr

/-- What lies at an offset of a quarter. -/
def spotOf (s : State) (q off : Nat) : Spot :=
  let jb := mgetN s q regJqbase % 2 ^ 46
  let rb := nfld (mgetN s q regRqWin) 6 40 * 64
  if inMgmt off then .mgmt
  else if jb ≤ off ∧ off < jb + 64 * 256 then .jobWindow ((off - jb) / 256) ((off - jb) % 256)
  else if rb ≤ off ∧ off < rb + 64 * 64 then .rqWindow ((off - rb) / 64) ((off - rb) % 64)
  else .memory

/-- Why an access does not complete. -/
inductive MemErr where
  /-- No valid mapping (0), read-only (1), overlay quota (2), overlay pool (3): R371. -/
  | fault (kind va : Nat)
  /-- A non-root world may not write the page (R285). -/
  | world
  /-- An uncorrectable error outside a tolerant region (R77). -/
  | bad (pa : Nat)
deriving DecidableEq, Repr

/-- The overlay-table entry of an address space (R341): base and lines, or nothing when overlays are off. -/
def overlayPool (s : State) (q asid : Nat) : Option (Nat × Nat) :=
  let tab := mgetN s q regOvtab
  if tab = 0 then none else
  match physDword s (tab + 16 * asid), physDword s (tab + 16 * asid + 8) with
  | some lo, some hi =>
    let base := nfld lo 7 41 * 128
    let n := nfld hi 0 32
    if nbit lo 0 ∧ inHbm q base (128 * n) then some (base, n) else none
  | _, _ => none

/-- The views a world reads through, its own first (R338); at most five. -/
def viewChain (s : State) : Nat → Nat → List Nat
  | 0, _ => []
  | f + 1, v => if v = 0 then [] else
      match fget s.views v with
      | some x => v :: viewChain s f x.parent
      | none => []

/-- The private line that answers a read of view `v` (R338). -/
def overlayFind (s : State) (v line : Nat) : Option (Nat × OverlayLine) :=
  (viewChain s 5 v).findSome? fun u =>
    match fget s.views u with
    | some x => (fget x.lines line).map fun l => (u, l)
    | none => none

/-- Whether the pool that the table's entry gives now covers a private line's place (R341); a table that is turned off or cannot be read gives
none, and moves nothing. -/
def inPool (s : State) (q asid : Nat) (l : OverlayLine) : Bool :=
  let tab := mgetN s q regOvtab
  if tab = 0 then true else
  match physDword s (tab + 16 * asid), physDword s (tab + 16 * asid + 8) with
  | some lo, some hi => decide (nfld lo 7 41 * 128 ≤ l.pa ∧ l.pa < nfld lo 7 41 * 128 + 128 * nfld hi 0 32)
  | _, _ => true

/-- The bytes a view reads from a private line: zeros once the pool no longer covers it (R341). -/
def overlayBytes (s : State) (q asid : Nat) (l : OverlayLine) : List Byte :=
  if inPool s q asid l then cohBytes s l.pa 128 else List.replicate 128 0

/-- The physical place of a byte of translated space of this device, as an address space maps it now. -/
def physOf (s : State) (asid va : Nat) : Option Nat :=
  match locOf va with
  | .here q off => match spotOf s q off with
    | .memory => (leafAt s q asid off).map fun l => leafPa l.1 off
    | _ => none
  | _ => none

/-- The substitute of a failing sector (R280). -/
def substitute (kind : Nat) : List Byte :=
  match kind with
  | 1 => (List.replicate 8 [0x00, 0x00, 0xC0, 0x7F]).flatten
  | 2 => (List.replicate 16 [0xC0, 0x7F]).flatten
  | 3 => (List.replicate 16 [0x00, 0x7E]).flatten
  | 4 => List.replicate 32 0x7F
  | 5 => List.replicate 32 0x7E
  | _ => List.replicate 32 0

/-- The stack of a quarter that holds an offset of its HBM. It is not given; bit 36 of the offset names it (DESIGN CHOICE, log entry 91). -/
def hbmStack (o : Nat) : Nat := o / 2 ^ 36 % 2

/-- The channel of its stack that holds a place of HBM: a free value (R375). -/
def hbmChannel (pa : Nat) : Nat := Config.hbmChannel pa % 32

/-- The unit identifier of a physical place (R375): HBM stack and channel, LPDDR6 channel and bank, or the way that is lent there (R290). The bank
of a place is a free value (DESIGN CHOICE, log entry 140). -/
def unitMem (s : State) (pa : Nat) (bank : Nat := Config.lpBank pa) : Nat :=
  let q := pa / 2 ^ 46
  let o := pa % 2 ^ 46
  if o < 0x2000000000 then 0x40000000 + q * 2 ^ 26 + hbmStack o * 2 ^ 20 + hbmChannel pa * 2 ^ 15
  else if 0x200000000000 ≤ o then 0x30000000 + q * 2 ^ 26 + (16 - (quarter s q).msways + (o - 0x200000000000) / 2 ^ 25)
  else 0x60000000 + q * 2 ^ 26 + ((o - 0x100000000000) / 2 ^ 39) * 2 ^ 20 + ((o - 0x100000000000) / 2 ^ 35 % 16) * 2 ^ 16 + bank % 16 * 2 ^ 12 + 3 * 2 ^ 10

/-- A counter of a channel of HBM (R376, R389): `o` is 0 for `hbc.corr`, 8 for `hbc.thr`, 0x10 for `hbc.unc`. -/
def regHbm (pa o : Nat) : Nat := 0x3F0000280000 + 0x1000 * hbmStack (pa % 2 ^ 46) + 0x80 * hbmChannel pa + o

/-- An uncorrectable error is recorded (R374) and counted in its channel (R376). -/
def recordBad (s : State) (pa detail : Nat) : State :=
  let s := appendError s (unitMem s pa) 2 0x04 (w64 (pa / 32 * 32)) (w64 detail)
  if 0x100000000000 ≤ pa % 2 ^ 46 ∧ pa % 2 ^ 46 < 0x120000000000 then
    mbump s (pa / 2 ^ 46) (regCh ((pa % 2 ^ 46 - 0x100000000000) / 2 ^ 39) ((pa % 2 ^ 46 - 0x100000000000) / 2 ^ 35 % 16) 3) 48
  else if pa % 2 ^ 46 < 0x2000000000 then mbump s (pa / 2 ^ 46) (regHbm pa 0x10) 48
  else s

/-- A read meets an uncorrectable error (R281, R303, R374): the sector's substitute in a tolerant page, else nothing. -/
def meetError (s : State) (q pte pa : Nat) : State × Option (List Byte) :=
  let tol := nbit pte 52
  let s := recordBad s pa (if tol then 1 else 0)
  if tol then (mbump s q (regTol (nfld pte 56 6)) 32, some (substitute (nfld pte 53 3))) else (s, none)

/-- The hint of an access: code 0 takes the leaf's default (R76). -/
def hintOf (pte hint : Nat) : Nat :=
  let h := nfld pte 50 2
  if hint = 0 then h else if hint ≠ 4 then hint else if h = 3 then 3 else 4 + h

/-- A translation is made (R283, R286): a walk reads its tables through the caches with the default hint and fills the large level and the
TLB of the line's home; a leaf that is not usable fills nothing. -/
def noteLeaf (s : State) (q asid off : Nat) : State :=
  let line := lineOf q off
  if s.tags.homes.any fun h => h.1 == line && serves h.2 q asid off then s
  else match s.tags.large.find? fun e => serves e q asid off with
    | some e => { s with tags := { s.tags with homes := s.tags.homes ++ [(line, e)] } }
    | none =>
      let w := walkPath s q asid off
      let s := w.1.foldl (fun s a =>
        if unreadable s a then recordBad s a 0
        else if backed s (a / 8 * 8) 8 then useMsc (fillSector s a) a 0 else s) s
      match w.2 with
      | none => s
      | some (pte, place) =>
        let e : TlbEntry := { quarter := q, asid := asid, page := off / pageSize (nfld pte 1 2), size := nfld pte 1 2, pte := pte, place := place }
        { s with tags := { s.tags with large := s.tags.large ++ [e], homes := s.tags.homes ++ [(line, e)] } }

/-- The quarter whose homes and replicas serve a context's reads (R251, R289). -/
def homeQuarter (c : Ctx) : Nat := c.home.getD (quarterOf c.part)

/-- Where a leaf places an offset for an agent of quarter `h`: a replicated page is read at that quarter's replica (R251, R289). -/
def placeFor (pte q h off : Nat) : Nat :=
  let pa := leafPa pte off
  if nbit pte 48 ∧ h ≠ q then h * 2 ^ 46 + pa % 2 ^ 46 else pa

/-- The level of a context's L1 data cache, for the agents whose accesses pass one (R239). -/
def l1Level (c : Ctx) : Option Nat :=
  match c.home, c.agent with
  | none, .control | none, .fetch | none, .vector | none, .matrix => some (5 + coreOf c.part)
  | _, _ => none

/-- The levels that a context's access to a line of quarter `q` passes, the nearest first (R287, R289). -/
def levelsOf (c : Ctx) (q : Nat) : List Nat :=
  let l2 := if homeQuarter c = q then [1 + q] else [1 + homeQuarter c, 1 + q]
  match l1Level c with
  | some l => l :: l2
  | none => l2

/-- The line of an L1 or L2 level that answers a read of a sector of base memory (R287). -/
def hitLine (s : State) (c : Ctx) (q off : Nat) : Option VLine :=
  (levelsOf c q).findSome? fun l =>
    match fget s.tags.virt (lineKey l c.asid (lineOf q off)) with
    | some v => if v.sectors / 2 ^ (off / 32 % 4) % 2 = 1 ∧ (v.old.isSome ∨ (fget s.die (4 * v.pa + off / 32 % 4)).isSome) then some v else none
    | none => none

/-- The levels that record a hit: the L1 data cache, and each level that holds the line (R76). -/
def hitLevels (s : State) (c : Ctx) (q off : Nat) (v : VLine) : List Nat :=
  (levelsOf c q).filter fun l => some l == l1Level c || ((fget s.tags.virt (lineKey l c.asid (lineOf q off))).map (·.pa)) == some v.pa

/-- The lines of a leaf's page that L1 and L2 levels hold for a virtual line but that were filled from another place leave (R287). -/
def dropBehind (s : State) (asid q off pte : Nat) : State :=
  let line := lineOf q off
  let stale := s.tags.virt.filter fun v => v.1 % 2 ^ 76 == lineKey 0 asid line &&
    (v.2.old.isSome || v.2.pa % 2 ^ 39 != leafPa pte off / 128 % 2 ^ 39)
  stale.foldl (fun s v => releaseLine { s with tags := { s.tags with virt := fdel s.tags.virt v.1 } } v.2.pa) s

/-- Before a physical line is written, the lines filled from it whose page now leads elsewhere keep their old bytes (R287). -/
def keepBehind (s : State) (pa : Nat) : State :=
  let away (v : Nat × VLine) : Bool :=
    v.2.pa == pa / 128 && v.2.old.isNone && v.1 / 2 ^ 64 % 2 ^ 12 == 0 &&
      (match leafAt s (v.1 % 2 ^ 48 / 2 ^ 39) (v.1 / 2 ^ 48 % 2 ^ 16) (v.1 % 2 ^ 39 * 128) with
       | some l => leafPa l.1 (v.1 % 2 ^ 39 * 128) / 128 % 2 ^ 39 != v.2.pa % 2 ^ 39
       | none => true)
  if s.tags.virt.any away then
    { s with tags := { s.tags with virt := s.tags.virt.map fun v => if away v then (v.1, { v.2 with old := some (cohBytes s (128 * v.2.pa) 128) }) else v } }
  else s

/-- Writes physical memory directly, as the side log, trap entry and Adeun do (R66, R300): every copy takes the bytes. -/
def physPut (s : State) (pa : Nat) (bs : List Byte) : State :=
  (piecesOf pa bs.length).foldl (fun s x => useMsc (putSector (keepBehind s x.1) x.1 ((bs.drop (x.1 - pa)).take x.2) 0) x.1 0) s

/-- What a replica of quarter `h` holds of the line at an offset (R289): none of it before its first read there. -/
def replicaOf (s : State) (h asid q off pte : Nat) : Replica :=
  let r : Replica := { quarter := h, asid := asid, line := lineOf q off, pa := leafPa pte off / 128, sectors := 0, size := pageSize (nfld pte 1 2), glob := nbit pte 7 }
  (s.tags.replicas.find? fun x => { x with sectors := 0 } == r).getD r

/-- The place of a replica in its quarter (R289). -/
def Replica.place (r : Replica) : Nat := r.quarter * 2 ^ 46 + r.pa * 128 % 2 ^ 46

/-- A home writes a sector of a replica (R251, R289), and allocates nothing for it. -/
def replicaPut (s : State) (pa : Nat) (bs : List Byte) : State := putSector (keepBehind s pa) pa bs 3

/-- The sectors of a replicated line that can be read at the owner are copied into the replica of quarter `h` (R289). -/
def fillReplica (s : State) (h asid q off pte : Nat) : State :=
  let r := replicaOf s h asid q off pte
  let todo := [0, 1, 2, 3].filter fun i => !nbit r.sectors i && !unreadable s (128 * r.pa + 32 * i)
  if todo.isEmpty then s else
  let t := todo.foldl (fun t i => replicaPut t (r.place + 32 * i) (cohBytes s (128 * r.pa + 32 * i) 32)) s
  { t with tags := { t.tags with replicas := s.tags.replicas.filter (· != r) ++ [{ r with sectors := r.sectors + (todo.map fun i => 2 ^ i).sum }] } }

/-- A read passes its levels: each records the use and, unless the access bypasses, holds the sector (R76), under the tag of the view that it
belongs to. -/
def useLevels (s : State) (levels : List Nat) (asid line pa hint : Nat) (view : Nat := 0) : State :=
  let s := if 3 ≤ hint then s else fillSector s pa
  useMsc (levels.foldl (fun s l => useVirt s (lineKey l asid line view) pa hint) s) pa hint

/-! ## Homes under test -/

/-- The L2 slice of a quarter that is the home of a line; the function is a free value (R238). A request travels untranslated to its home
(R286), so the line is that of its address; a walk's table entry is taken at the line of its physical address (DEDUCED, log entry 152). -/
def homeSlice (line : Nat) : Nat := Config.sliceOf line % 384

/-- The L2 slices under test, each with its quarter (R361). -/
def slicesTested (s : State) : List (Nat × Nat) :=
  s.cores.filterMap fun c => match c.2.testing with | some (_, _, u, _) => if 0x10000 ≤ u then some (c.1 / 48, u - 0x10000) else none | none => none

/-- Whether the home of a line in a quarter is a slice under test (R361). -/
def homeTested (s : State) (q line : Nat) : Bool := (slicesTested s).contains (q, homeSlice line)

/-- Whether the L1 data cache of a context holds the sector of an offset, so that a read of it asks no home. -/
def inL1 (s : State) (c : Ctx) (q off : Nat) : Bool :=
  match l1Level c with
  | some l => (match fget s.tags.virt (lineKey l c.asid (lineOf q off)) with
    | some v => decide (v.sectors / 2 ^ (off / 32 % 4) % 2 = 1) && (v.old.isSome || (fget s.die (4 * v.pa + off / 32 % 4)).isSome)
    | none => false)
  | none => false

/-- Whether a translation needs a slice under test: its walk reads the tables through their homes (R361, R286). -/
def walkTested (s : State) (q asid off : Nat) : Bool := (heldLeaf s q asid off).isNone && (walkPath s q asid off).1.any fun pa => homeTested s (pa / 2 ^ 46) (pa / 128)

/-- Whether a table engine's access to a master, which passes no home, holds for its walk (R361, R298). -/
def waitsWalk (s : State) (c : Ctx) (va n : Nat) : Bool :=
  !(slicesTested s).isEmpty && (piecesOf va n).any fun x =>
    match locOf x.1 with
    | .here q off => spotOf s q off == .memory && walkTested s q c.asid off
    | _ => false

/-- The quarters whose home of a line an access asks (R251, R286, R289): the owner's, whether its translation succeeds there or not; a read of a
replicated page asks the home of its own quarter, and the owner's where the replica lacks the sector. -/
def homesAsked (s : State) (c : Ctx) (q off : Nat) (write : Bool) : List Nat :=
  let h := homeQuarter c
  match leafAt s q c.asid off with
  | some l =>
    if nbit l.1 48 && h != q && !write then (if nbit (replicaOf s h c.asid q off l.1).sectors (off / 32 % 4) then [h] else [h, q]) else [q]
  | none => [q]

/-- Whether an access of a context holds at its home while the slice is under test, or for its walk (R361). A read that the L1 data cache
answers asks neither. -/
def waitsHome (s : State) (c : Ctx) (va n : Nat) (write : Bool) : Bool :=
  !(slicesTested s).isEmpty && (piecesOf va n).any fun x =>
    match locOf x.1 with
    | .here q off => spotOf s q off == .memory && (write || !inL1 s c q off) && (walkTested s q c.asid off ||
        (homesAsked s c q off write).any fun h => homeTested s h (lineOf q off))
    | _ => false

/-- The place that answers a read at quarter `h` (R251, R289): the replica there, where it holds the sector, else the owner's. -/
def sourceFor (s : State) (h asid q off pte : Nat) : Nat :=
  if nbit pte 48 && h != q && nbit (replicaOf s h asid q off pte).sectors (off / 32 % 4) then placeFor pte q h off else leafPa pte off

/-- Reads bytes of one sector of base memory under a leaf (R75, R77, R281, R289). -/
def readBase (s : State) (c : Ctx) (q off pte n hint : Nat) : State × Except MemErr (List Byte) :=
  let h := homeQuarter c
  let away := nbit pte 48 && h != q
  let src := sourceFor s h c.asid q off pte
  if unreadable s src then
    match meetError s q pte src with
    | (s, some b) => (s, .ok ((b.drop (src % 32)).take n))
    | (s, none) => (s, .error (.bad src))
  else
    let s := if away then fillReplica s h c.asid q off pte else s
    let pa := placeFor pte q h off
    let levels := (levelsOf c q).filter fun l => l != 1 + (if away then q else h) || h == q
    (useLevels s levels c.asid (lineOf q off) pa (hintOf pte hint), .ok (cohBytes s pa n))

/-- The levels that an access to a line's own home passes (R239, R340). -/
def homeLevels (c : Ctx) (q : Nat) : List Nat := (l1Level c).toList ++ [1 + q]

/-- Reads bytes of one sector of a line that view `u` holds privately (R338, R340, R341). -/
def readOverlay (s : State) (c : Ctx) (u : Nat) (l : OverlayLine) (q off pte n hint : Nat) : State × Except MemErr (List Byte) :=
  let pa := l.pa + off % 128
  if ¬ inPool s q c.asid l then (s, .ok (List.replicate n 0))
  else if unreadable s pa then
    match meetError s q pte pa with
    | (s, some b) => (s, .ok ((b.drop (pa % 32)).take n))
    | (s, none) => (s, .error (.bad pa))
  else (useLevels s (homeLevels c q) c.asid (lineOf q off) pa (hintOf pte hint) u, .ok (cohBytes s pa n))

/-- Reads bytes of one sector at their home, under the leaf (R80): no line that a change of the mapping has left behind answers (R287). -/
def readHome (s : State) (c : Ctx) (va n hint : Nat) : State × Except MemErr (List Byte) :=
  match locOf va with
  | .here q off =>
    match spotOf s q off with
    | .memory =>
      match leafAt s q c.asid off with
      | none => (noteLeaf s q c.asid off, .error (.fault 0 va))
      | some (pte, _) =>
        (match overlayFind s c.view (lineOf q off) with
         | some (u, l) => readOverlay (noteLeaf s q c.asid off) { c with home := some q } u l q off pte n hint
         | none => readBase (noteLeaf s q c.asid off) { c with home := some q } q off pte n hint)
    | .mgmt => (s, .error (.fault 0 va))
    | _ => (s, .ok (List.replicate n 0))
  | _ => (s, .error (.fault 0 va))

/-- Reads bytes of one sector for a context (R75, R287, R338). -/
def readPiece (s : State) (c : Ctx) (va n hint : Nat) : State × Except MemErr (List Byte) :=
  match locOf va with
  | .here q off =>
    match spotOf s q off with
    | .memory =>
      match overlayFind s c.view (lineOf q off), hitLine s c q off with
      | none, some v =>
        let h := match leafAt s q c.asid off with | some l => hintOf l.1 hint | none => if hint % 4 = 0 then hint + v.hint else hint
        let pa := 128 * v.pa + off % 128
        let b := match v.old with | some b => (b.drop (off % 128)).take n | none => cohBytes s pa n
        (match v.old with | some _ => s | none => (hitLevels s c q off v).foldl (fun s l => useVirt s (lineKey l c.asid (lineOf q off)) pa h) s, .ok b)
      | some (u, l), _ =>
        (match leafAt s q c.asid off with
         | none => (noteLeaf s q c.asid off, .error (.fault 0 va))
         | some (pte, _) => readOverlay (noteLeaf s q c.asid off) c u l q off pte n hint)
      | none, none =>
        match leafAt s q c.asid off with
        | none => (noteLeaf s q c.asid off, .error (.fault 0 va))
        | some (pte, _) => readBase (noteLeaf s q c.asid off) c q off pte n hint
    | .mgmt => (s, .error (.fault 0 va))
    | _ => (s, .ok (List.replicate n 0))
  | _ => (s, .error (.fault 0 va))

/-- Reads a list of pieces; the first failure ends the read. -/
def readPieces (s : State) (c : Ctx) (hint : Nat) : List (Nat × Nat) → State × Except MemErr (List Byte)
  | [] => (s, .ok [])
  | (va, n) :: r =>
    match readPiece s c va n hint with
    | (s, .error e) => (s, .error e)
    | (s, .ok b) =>
      match readPieces s c hint r with
      | (s, .error e) => (s, .error e)
      | (s, .ok bs) => (s, .ok (b ++ bs))

/-- Reads `n` bytes at a virtual address. -/
def readVa (s : State) (c : Ctx) (va n hint : Nat) : State × Except MemErr (List Byte) := readPieces s c hint (piecesOf va n)

/-- Reads a little-endian number. -/
def readNum (s : State) (c : Ctx) (va n hint : Nat) : State × Except MemErr Nat :=
  match readVa s c va n hint with
  | (s, .ok b) => (s, .ok (leNat b))
  | (s, .error e) => (s, .error e)

/-- Fires one monitor (R60, R215, R234, R247). -/
def fireMonitor (s : State) (m : Monitor) : State :=
  let s := { s with monitors := s.monitors.filter (fun x => x.id != m.id) }
  match m.owner with
  | .part p => modPart s p fun x => { x with monitor := .fired }
  | .record a => (List.range 4).foldl (fun s q => recordReady s q a) s
  | .remote dev tag => { s with nextSeq := s.nextSeq + 1,
                                packets := s.packets ++ [{ src := Config.device, agent := 0x3000, seq := s.nextSeq, dst := dev, body := .wake tag }] }

/-- Fires every monitor on the line of a physical address, oldest first (R234). -/
def fireLine (s : State) (pa : Nat) : State :=
  (s.monitors.filter (fun m => m.line == pa / 128)).foldl fireMonitor s

/-- The first free place of an overlay pool. -/
def poolFree (s : State) (q asid : Nat) : Option Nat :=
  match overlayPool s q asid with
  | none => none
  | some (b, n) =>
    let used := (s.views.map fun v => v.2.lines.map fun l => l.2.pa).flatten
    ((List.range (min n (used.length + 1))).map (fun i => b + 128 * i)).find? fun pa => !used.contains pa

/-- Overlay bytes a view holds (R337). -/
def viewUsed (v : View) : Nat := 128 * v.lines.length

/-- Sets bits of a written mask. -/
def setMask (m : BitVec 128) (o n : Nat) : BitVec 128 := m ||| BitVec.ofNat 128 ((2 ^ n - 1) * 2 ^ o)

/-- The line of a view's copy as the view reads it now: sectors that fail are met as a read meets them (R281, R338, R339). -/
def copyLine (s : State) (c : Ctx) (q off pte : Nat) : State × Except MemErr (List Byte) :=
  (List.range 4).foldl (fun x i =>
    match x with
    | (s, .error e) => (s, .error e)
    | (s, .ok b) =>
      let o := off / 128 * 128 + 32 * i
      match (match overlayFind s c.view (lineOf q off) with
        | some (u, l) => readOverlay s { c with home := some q } u l q o pte 32 3
        | none => readBase s { c with home := some q } q o pte 32 3) with
      | (s, .ok b') => (s, .ok (b ++ b'))
      | (s, .error e) => (s, .error e)) (s, .ok [])

/-- A sector of a tolerant page that fails is written as its substitute, before a write to part of it (R281). -/
def mendSector (s : State) (pte pa : Nat) : State :=
  if unreadable s pa ∧ nbit pte 52 then
    { s with mem := memPutAll s.mem (pa / 32 * 32) (substitute (nfld pte 53 3)), failing := s.failing.filter (· != pa / 32) }
  else s

/-- The hardware writes a whole line of an overlay pool, and no cache holds what stood there (R339). -/
def poolFill (s : State) (pa : Nat) (bs : List Byte) : State :=
  let mine (sec : Nat) : Bool := sec / 4 == pa / 128
  { s with mem := memPutAll s.mem pa bs, die := s.die.filter (fun d => !mine d.1), failing := s.failing.filter fun x => !mine x }

/-- Writes bytes inside one sector of a private line (R76, R339, R340). -/
def linePut (s : State) (c : Ctx) (q off pte : Nat) (l : OverlayLine) (bs : List Byte) (hint : Nat) : State :=
  if bs.isEmpty then s else
  let pa := l.pa + off % 128
  useLevels (putSector (mendSector s pte pa) pa bs (hintOf pte hint)) (homeLevels c q) c.asid (lineOf q off) pa (hintOf pte hint) c.view

/-- Writes bytes of one line in a view, copying the line on the first write (R339). -/
def overlayWrite (s : State) (c : Ctx) (q off pte va : Nat) (bs : List Byte) (hint : Nat) : State × Except MemErr Unit :=
  match fget s.views c.view with
  | none => (s, .error (.fault 2 va))
  | some v =>
    let line := lineOf q off
    let put (s : State) (l : OverlayLine) : State × Except MemErr Unit :=
      ({ linePut s c q off pte l bs hint with
          views := fput s.views c.view { v with lines := fput v.lines line { l with mask := setMask l.mask (off % 128) bs.length } } }, .ok ())
    match fget v.lines line with
    | some l => put s l
    | none =>
      if v.quota < viewUsed v + 128 then (s, .error (.fault 2 va)) else
      match poolFree s q c.asid with
      | none => (s, .error (.fault 3 va))
      | some pa =>
        match copyLine s c q off pte with
        | (s, .error e) => (s, .error e)
        | (s, .ok b) => put (poolFill s pa b) { pa := pa, mask := 0 }

/-- Counts a discarded write to a job-queue window (R203). -/
def countDiscard (s : State) (q n : Nat) : State := mbump s q (regJq n 7) 32

/-- Whether and where a context may write an offset: the leaf (R285). -/
def writeLeaf (s : State) (c : Ctx) (q off va : Nat) : Except MemErr Nat :=
  match leafAt s q c.asid off with
  | none => .error (.fault 0 va)
  | some (pte, _) =>
    if c.view ≠ 0 ∧ (¬ nbit pte 49 ∨ nbit pte 48) then .error .world
    else if nbit pte 8 then .error (.fault 1 va)
    else .ok pte

/-- A write of one sector of base memory under a leaf: a tolerant sector that fails, the owner's or a replica's, takes its substitute first
(R77, R281); the replicas that hold the line take the bytes (R251); the levels hold the sector (R76). The lock and the update of R251 are one step. -/
def writeBase (s : State) (c : Ctx) (q off pte : Nat) (bs : List Byte) (hint : Nat) : State :=
  let pa := leafPa pte off
  let s := dropBehind (mendSector s pte pa) c.asid q off pte
  let held := s.tags.replicas.filter fun r => r.pa == pa / 128 && nbit r.sectors (pa / 32 % 4)
  let s := held.foldl (fun s r => replicaPut (mendSector s pte (r.place + pa % 128)) (r.place + pa % 128) bs) s
  let s := putSector (keepBehind s pa) pa bs (hintOf pte hint)
  let levels := if nbit pte 48 ∧ homeQuarter c ≠ q then [1 + q] else homeLevels c q
  useLevels s levels c.asid (lineOf q off) pa (hintOf pte hint)

/-- Writes bytes of one sector for a context (R75, R339); the line's monitors fire (R60, R356). `first` marks the first piece of a write
that a job-queue window discards (R203). -/
def writePiece (s : State) (c : Ctx) (va : Nat) (bs : List Byte) (hint : Nat) (first : Bool) : State × Except MemErr Unit :=
  match locOf va with
  | .here q off =>
    match spotOf s q off with
    | .memory =>
      match writeLeaf s c q off va with
      | .error e => (noteLeaf s q c.asid off, .error e)
      | .ok pte =>
        let s := noteLeaf s q c.asid off
        if c.view ≠ 0 then
          match overlayWrite s c q off pte va bs hint with
          | (s, .ok ()) => (fireLine s (leafPa pte off), .ok ())
          | r => r
        else (fireLine (writeBase s c q off pte bs hint) (leafPa pte off), .ok ())
    | .jobWindow n o => (if first ∨ o = 0 then countDiscard s q n else s, .ok ())
    | .rqWindow _ _ => (s, .ok ())
    | .mgmt => (s, .error (.fault 0 va))
  | _ => (s, .error (.fault 0 va))

/-- Writes the pieces of a range; gives the place of the first byte that could not be written. The lines of one write are performed, and their
monitors fire, in ascending order (DESIGN CHOICE, log entry 133). -/
def writePieces (s : State) (c : Ctx) (bs : List Byte) (hint va0 : Nat) : List (Nat × Nat) → State × Except MemErr Unit
  | [] => (s, .ok ())
  | (va, n) :: r =>
    match writePiece s c va ((bs.drop (va - va0)).take n) hint (va == va0) with
    | (s, .error e) => (s, .error e)
    | (s, .ok ()) => writePieces s c bs hint va0 r

/-- Writes bytes at a virtual address. -/
def writeVa (s : State) (c : Ctx) (va : Nat) (bs : List Byte) (hint : Nat) : State × Except MemErr Unit :=
  writePieces s c bs hint va (piecesOf va bs.length)

end Sys2Proof.Machine
end

