-- ==== Sys2Proof/Machine/Numbers.lean ====
section
/-! DEFINITION. Numbers to the bit (R265 to R272, R276 to R280): exact values, the floating formats, rounding in the four
modes, the stochastic draw, and the knots of the special functions (R123 to R125, R279). -/

namespace Sys2Proof.Machine

/-- A value: NaN, an infinity, or (-1)^neg * man * 2^exp. -/
inductive Val where
  | nan
  | inf (neg : Bool)
  | fin (neg : Bool) (man : Nat) (exp : Int)
deriving DecidableEq, Repr

/-- Width in bits of an element type (R107). -/
def tyWidth (t : Nat) : Nat :=
  match t with
  | 0 | 7 | 10 => 32
  | 1 | 2 | 11 => 16
  | 3 | 4 | 6 | 8 => 8
  | _ => 4

/-- Whether a type is of the float class (R107). -/
def isFloat (t : Nat) : Bool := decide (t ≤ 5)

/-- Whether a type is of the integer class (R107). -/
def isInt (t : Nat) : Bool := decide (7 ≤ t ∧ t ≤ 10)

/-- A floating format (R265): width, fraction bits, bias, code of the largest finite magnitude, code of infinity, code that a
NaN writes. -/
structure Fmt where
  w : Nat
  m : Nat
  bias : Nat
  maxC : Nat
  inf : Option Nat
  nan : Nat
deriving DecidableEq, Repr

/-- The floating formats and the E3M5 scale by type code (R107, R265). -/
def fmtOf (t : Nat) : Fmt :=
  match t with
  | 0 => ⟨32, 23, 127, 0x7F7FFFFF, some 0x7F800000, 0x7FC00000⟩
  | 1 => ⟨16, 7, 127, 0x7F7F, some 0x7F80, 0x7FC0⟩
  | 2 => ⟨16, 10, 15, 0x7BFF, some 0x7C00, 0x7E00⟩
  | 3 => ⟨8, 3, 7, 0x7E, none, 0x7F⟩
  | 4 => ⟨8, 2, 15, 0x7B, some 0x7C, 0x7E⟩
  | 5 => ⟨4, 1, 1, 0x7, none, 0⟩
  | _ => ⟨8, 5, 3, 0xFF, none, 0⟩

/-- The value of a code of a floating type (R265). -/
def decodeF (t code : Nat) : Val :=
  let f := fmtOf t
  let neg := t != 6 && nbit code (f.w - 1)
  let mag := if t = 6 then code % 256 else code % 2 ^ (f.w - 1)
  match f.inf with
  | some i => if mag = i then .inf neg else if i < mag then .nan else body f neg mag
  | none => if t = 3 ∧ mag = 0x7F then .nan else body f neg mag
where
  body (f : Fmt) (neg : Bool) (mag : Nat) : Val :=
    let e := mag / 2 ^ f.m
    let x := mag % 2 ^ f.m
    if e = 0 then .fin neg x (1 - (f.bias : Int) - f.m)
    else .fin neg (2 ^ f.m + x) ((e : Int) - f.bias - f.m)

/-- Number of significant bits. -/
def bitLen (n : Nat) : Nat := if n = 0 then 0 else Nat.log2 n + 1

/-- Splits man * 2^exp at the weight 2^q: the multiple of 2^q below it, the rest, and how far the shift goes. -/
def splitAt (man : Nat) (exp q : Int) : Nat × Nat × Nat :=
  if q ≤ exp then (man * 2 ^ (exp - q).toNat, 0, 0)
  else
    let s := (q - exp).toNat
    (man / 2 ^ s, man % 2 ^ s, s)

/-- Rounds the split by a mode (R269, R270): 0 and 2 nearest even, 1 toward zero, 3 stochastic with the draw `r`. -/
def roundSplit (mode r : Nat) (x : Nat × Nat × Nat) : Nat :=
  match x with
  | (n, rem, s) =>
    if rem = 0 then n
    else match mode with
      | 1 => n
      | 3 => if r < rem * 2 ^ 32 / 2 ^ s then n + 1 else n
      | _ => if 2 ^ s < 2 * rem ∨ (2 * rem = 2 ^ s ∧ n % 2 = 1) then n + 1 else n

/-- The magnitude code of man * 2^exp in a format (R269). -/
def roundMag (f : Fmt) (mode r man : Nat) (exp : Int) : Nat :=
  if man = 0 then 0 else
  let e := exp + (bitLen man : Int) - 1
  let q := max e (1 - (f.bias : Int)) - f.m
  let x := splitAt man exp q
  let code (n : Nat) : Nat := ((q + f.m + f.bias) * (2 ^ f.m : Nat) + n - (2 ^ f.m : Nat)).toNat
  let above := f.maxC < code x.1 || (code x.1 == f.maxC && x.2.1 != 0)
  if above then
    match f.inf with
    | none => f.maxC
    | some i => if mode = 1 ∨ mode = 2 then f.maxC else if f.maxC < code (roundSplit 0 0 x) then i else f.maxC
  else code (roundSplit mode r x)

/-- A value written in a float type (R108, R269). -/
def encodeF (t mode r : Nat) (v : Val) : Nat :=
  let f := fmtOf t
  let sgn (neg : Bool) (mag : Nat) : Nat := if neg then mag + 2 ^ (f.w - 1) else mag
  match v with
  | .nan => f.nan
  | .inf neg => sgn neg (match f.inf with | some i => if mode = 1 ∨ mode = 2 then f.maxC else i | none => f.maxC)
  | .fin neg man exp => sgn neg (roundMag f mode r man exp)

/-- A value written as an E3M5 scale (R121): negative values, -0 and NaN give 0. -/
def encodeScale (mode r : Nat) (v : Val) : Nat :=
  match v with
  | .nan => 0
  | .inf neg => if neg then 0 else 0xFF
  | .fin neg man exp => if neg then 0 else roundMag (fmtOf 6) mode r man exp

/-- `rne(v, F)` (R43). -/
def rneF (t : Nat) (v : Val) : Nat := encodeF t 0 0 v

/-- The range of an integer type (R268). -/
def intRange (t : Nat) : Int × Int :=
  match t with
  | 7 => (-2 ^ 31, 2 ^ 31 - 1)
  | 8 => (-128, 127)
  | 9 => (-8, 7)
  | _ => (0, 2 ^ 32 - 1)

/-- A value rounded to an integer type and clamped; NaN gives 0 (R121). -/
def encodeI (t mode r : Nat) (v : Val) : Nat :=
  let lo := (intRange t).1
  let hi := (intRange t).2
  let x : Int := match v with
    | .nan => 0
    | .inf neg => if neg then lo else hi
    | .fin neg man exp =>
      let n : Int := roundSplit mode r (splitAt man exp 0)
      satInt (if neg then -n else n) lo hi
  intBits x (tyWidth t)

/-- An integer as a value; zero is +0. -/
def ofInt (i : Int) : Val := .fin (decide (i < 0)) i.natAbs 0

/-- The integer a code of an integer type stands for (R268). -/
def decodeI (t code : Nat) : Int := if t = 10 then (code % 2 ^ 32 : Nat) else sxInt code (tyWidth t)

/-- The value of an element of any type but L16. -/
def decodeT (t code : Nat) : Val := if isInt t then ofInt (decodeI t code) else decodeF t (code % 2 ^ tyWidth t)

/-- Conversion of a value to a type by a mode (R121). -/
def encodeT (t mode r : Nat) (v : Val) : Nat :=
  if isInt t then encodeI t mode r v else if t = 6 then encodeScale mode r v else encodeF t mode r v

/-- Signed size at a common weight. -/
def atExp (neg : Bool) (man : Nat) (exp q : Int) : Int :=
  let n : Int := man * 2 ^ (exp - q).toNat
  if neg then -n else n

/-- Exact sum (R117): opposite infinities give NaN, an exact zero sum of opposite signs is +0. -/
def addV (a b : Val) : Val :=
  match a, b with
  | .nan, _ | _, .nan => .nan
  | .inf x, .inf y => if x = y then .inf x else .nan
  | .inf x, _ => .inf x
  | _, .inf y => .inf y
  | .fin n1 m1 e1, .fin n2 m2 e2 =>
    let q := min e1 e2
    let s := atExp n1 m1 e1 q + atExp n2 m2 e2 q
    if s = 0 then .fin (n1 && n2) 0 0 else .fin (decide (s < 0)) s.natAbs q

/-- The value with its sign flipped. -/
def negV : Val → Val
  | .nan => .nan
  | .inf n => .inf (!n)
  | .fin n m e => .fin (!n) m e

/-- Exact product (R117): 0 times infinity gives NaN. -/
def mulV (a b : Val) : Val :=
  match a, b with
  | .nan, _ | _, .nan => .nan
  | .inf x, .inf y => .inf (x != y)
  | .inf x, .fin y m _ => if m = 0 then .nan else .inf (x != y)
  | .fin x m _, .inf y => if m = 0 then .nan else .inf (x != y)
  | .fin n1 m1 e1, .fin n2 m2 e2 => .fin (n1 != n2) (m1 * m2) (e1 + e2)

/-- A quotient, exact enough that every rounding of it to a format of this chapter is that of the exact quotient: 128 bits and a
mark of the rest. IEEE 754 gives the special cases. -/
def divV (a b : Val) : Val :=
  match a, b with
  | .nan, _ | _, .nan => .nan
  | .inf _, .inf _ => .nan
  | .inf x, .fin y _ _ => .inf (x != y)
  | .fin x _ _, .inf y => .fin (x != y) 0 0
  | .fin n1 m1 e1, .fin n2 m2 e2 =>
    if m2 = 0 then (if m1 = 0 then .nan else .inf (n1 != n2)) else
    let k := 128 + bitLen m2
    let n := m1 * 2 ^ k
    .fin (n1 != n2) (n / m2 * 2 + if n % m2 = 0 then 0 else 1) (e1 - e2 - k - 1)

/-- Integer square root: the bits from 2^b down, added to `r`. -/
def isqrtFrom : Nat → Nat → Nat → Nat
  | 0, _, r => r
  | b + 1, n, r => if (r + 2 ^ b) * (r + 2 ^ b) ≤ n then isqrtFrom b n (r + 2 ^ b) else isqrtFrom b n r

/-- Integer square root. -/
def isqrt (n : Nat) : Nat := isqrtFrom (bitLen n / 2 + 1) n 0

/-- Square root as `divV` gives a quotient; a negative operand gives NaN, -0 stays -0 (IEEE 754). -/
def sqrtV : Val → Val
  | .nan => .nan
  | .inf n => if n then .nan else .inf false
  | .fin n m e =>
    if m = 0 then .fin n 0 0 else if n then .nan else
    let odd := e % 2 = 1
    let m := if odd then m * 2 else m
    let e := if odd then e - 1 else e
    let x := m * 2 ^ 128
    let r := isqrt x
    .fin false (r * 2 + if r * r = x then 0 else 1) (e / 2 - 65)

/-- Whether a is less than b; NaN compares with nothing, zeros are equal. -/
def ltV (a b : Val) : Bool :=
  match a, b with
  | .nan, _ | _, .nan => false
  | .inf x, .inf y => x && !y
  | .inf x, _ => x
  | _, .inf y => !y
  | .fin n1 m1 e1, .fin n2 m2 e2 => decide (atExp n1 m1 e1 (min e1 e2) < atExp n2 m2 e2 (min e1 e2))

/-- Whether two values are equal; NaN equals nothing, zeros are equal. -/
def eqV (a b : Val) : Bool :=
  match a, b with
  | .nan, _ | _, .nan => false
  | .inf x, .inf y => x == y
  | .fin n1 m1 e1, .fin n2 m2 e2 => decide (atExp n1 m1 e1 (min e1 e2) = atExp n2 m2 e2 (min e1 e2))
  | _, _ => false

/-- The order of `vmax` and `vmin`: as `ltV`, but +0 counts as greater than -0 (R117). -/
def ltZ (a b : Val) : Bool :=
  match a, b with
  | .fin n1 0 _, .fin n2 0 _ => n1 && !n2
  | _, _ => ltV a b

def isNan : Val → Bool
  | .nan => true
  | _ => false

/-- Sum of two FP32 codes, rounded with rne (R81, R147). -/
def add32 (a b : Nat) : Nat := rneF 0 (addV (decodeF 0 a) (decodeF 0 b))

/-- The float atomics (R81). -/
def atomicFloat (op : AtomicOp) (old x : Nat) : Nat :=
  match op with
  | .bfadd => rneF 1 (addV (decodeF 1 old) (decodeF 1 x))
  | _ => rneF 0 (addV (decodeF 0 old) (decodeF 0 x))

/-- The draw r of R271 from key, work identifier, step number and element index. -/
def stochDraw (k w step n : Nat) : Nat :=
  let m := 2 ^ 64
  let z := Nat.xor (Nat.xor (Nat.xor (k % m) (w * 0x9E3779B97F4A7C15 % m)) (step % 2 ^ 32 * 2 ^ 32)) (n % 2 ^ 32)
  let z := Nat.xor z (z / 2 ^ 30) * 0xBF58476D1CE4E5B9 % m
  let z := Nat.xor z (z / 2 ^ 27) * 0x94D049BB133111EB % m
  let z := Nat.xor z (z / 2 ^ 31)
  z / 2 ^ 32

/-! ## Knots. Fixed point with 192 fraction bits; a knot is the nearest multiple of 2^-16. -/

/-- 1.0 in the fixed point of the knots. -/
def fxOne : Nat := 2 ^ 192

/-- The sum of the terms t, t*x/n, t*x/n*x/(n+1), … -/
def fxSeries (x : Nat) : Nat → Nat → Nat → Nat
  | 0, _, _ => 0
  | f + 1, n, t => t + fxSeries x f (n + 1) (t * x / fxOne / n)

/-- e^x for 0 ≤ x ≤ 1. -/
def fxExpSmall (x : Nat) : Nat := fxSeries x 60 1 fxOne

/-- A power in fixed point, by squaring. -/
def fxPow (b : Nat) : Nat → Nat → Nat
  | 0, _ => fxOne
  | f + 1, n =>
    if n = 0 then fxOne else
    let h := fxPow b f (n / 2)
    let s := h * h / fxOne
    if n % 2 = 1 then s * b / fxOne else s

/-- e^(k/16). -/
def fxExp16 (k : Nat) : Nat := fxPow (fxExpSmall (fxOne / 16)) 16 k

/-- The sum of t/(2j+1) with t falling by x^2 each time: the inverse hyperbolic tangent. -/
def fxAtanhTerms (x2 : Nat) : Nat → Nat → Nat → Nat
  | 0, _, _ => 0
  | f + 1, j, t => t / (2 * j + 1) + fxAtanhTerms x2 f (j + 1) (t * x2 / fxOne)

/-- ln of m/n for m ≥ n, near 1. -/
def fxLnRatio (m n : Nat) : Nat :=
  let x := (m - n) * fxOne / (m + n)
  2 * fxAtanhTerms (x * x / fxOne) 70 0 x

/-- ln 2. -/
def fxLn2 : Nat := fxLnRatio 2 1

/-- ln of a fixed-point number at or above 1. -/
def fxLn (v : Nat) : Nat :=
  let k := bitLen v - 193
  k * fxLn2 + fxLnRatio v (fxOne * 2 ^ k)

/-- The alternating series of arctan(1/n). -/
def fxAtanInv (n : Nat) : Nat → Nat → Nat → Int
  | 0, _, _ => 0
  | f + 1, j, t => ((if j % 2 = 0 then (t / (2 * j + 1) : Nat) else -((t / (2 * j + 1) : Nat) : Int)) : Int) + fxAtanInv n f (j + 1) (t / (n * n))

/-- Pi, by Machin's formula. -/
def fxPi : Nat := (16 * fxAtanInv 5 90 0 (fxOne / 5) - 4 * fxAtanInv 239 40 0 (fxOne / 239)).toNat

/-- The series z + z^3/3 + z^5/15 + … of the normal distribution. -/
def fxPhiTerms (z2 : Nat) : Nat → Nat → Nat → Nat
  | 0, _, _ => 0
  | f + 1, j, t => t + fxPhiTerms z2 f (j + 1) (t * z2 / fxOne / (2 * j + 3))

/-- Phi(k/16) - 1/2 for k ≥ 0. -/
def fxPhiHalf (k : Nat) : Nat :=
  let z := k * fxOne / 16
  let e := fxPow (fxExpSmall (fxOne / 512)) 16 (k * k)
  let root := isqrt (2 * fxPi * fxOne)
  fxPhiTerms (z * z / fxOne) 220 0 z * fxOne / e * fxOne / root

/-- Nearest multiple of 2^-16 of a signed fixed-point number, in units of 2^-16. -/
def fxRound (v : Int) : Int := (v * 2 + 2 ^ 176) / 2 ^ 177

/-- The function behind a knot table (R124, R125): 0 GELU, 1 SiLU, 2 softplus, 3 tanh, 4 sigmoid, 5 exponential, 6 reciprocal,
7 reciprocal square root. -/
def knot (fn i : Nat) : Int :=
  let neg := decide (i < 128)
  let k := if i < 128 then 128 - i else i - 128
  let sgn (x : Int) : Int := if neg then -x else x
  let e := fxExp16 k
  match fn with
  | 0 => fxRound (sgn ((k * fxOne / 16 : Nat) * (if neg then (fxOne / 2 : Nat) - (fxPhiHalf k : Int) else (fxOne / 2 + fxPhiHalf k : Nat)) / (fxOne : Int)))
  | 1 => fxRound (sgn ((k * fxOne / 16 * (if neg then fxOne else e) / (fxOne + e) : Nat) : Int))
  | 2 => fxRound (if neg then (fxLn (fxOne + fxOne * fxOne / e) : Int) else (fxLn (fxOne + e) : Int))
  | 3 => fxRound (sgn (((e * e / fxOne - fxOne) * fxOne / (e * e / fxOne + fxOne) : Nat) : Int))
  | 4 => fxRound (((if neg then fxOne else e) * fxOne / (fxOne + e) : Nat) : Int)
  | 5 => if 193 ≤ i then 2 ^ 23 - 1 else fxRound (((if neg then fxOne * fxOne / e else e) : Nat) : Int)
  | 6 => if i < 144 then 0 else (roundSplit 0 0 (splitAt (2 ^ 40 * 2 ^ 20 / k * 2 + if 2 ^ 60 % k = 0 then 0 else 1) (-41) 0) : Nat)
  | _ => if i < 144 then 0 else ((isqrt (2 ^ 38 / k) + 1) / 2 : Nat)

/-- The table step of R123: the position u in the table and its knots give y. -/
def tableStep (kn : Nat → Int) (q : Int) : Int :=
  let u := (q + 32768).toNat
  let i := u / 256
  let f := u % 256
  kn i + ((kn (i + 1) - kn i) * f).fdiv 256

/-- y / 65,536 as a value. -/
def ofQ16 (y : Int) : Val := .fin (decide (y < 0)) y.natAbs (-16)

/-- x * 4096 rounded to an integer, ties to even. -/
def toQ12 (neg : Bool) (man : Nat) (exp : Int) : Int :=
  let n : Int := roundSplit 0 0 (splitAt man (exp + 12) 0)
  if neg then -n else n

/-- One of `vgelu`, `vsilu`, `vsplus`, `vtanh`, `vsigm`, `vexp` before its final rounding (R123, R124). -/
def specialV (fn : Nat) (x : Val) : Val :=
  let above : Val := if fn ≤ 2 then x else if fn ≤ 4 then .fin false 1 0 else .inf false
  let below : Val := if fn = 3 then .fin true 1 0 else .fin false 0 0
  match x with
  | .nan => .nan
  | .inf neg => if neg then below else above
  | .fin neg man exp =>
    let q := toQ12 neg man exp
    if fn = 5 ∧ 16384 ≤ q then .inf false
    else if 32767 < q then above
    else if q < -32768 then below
    else ofQ16 (tableStep (knot fn) q)

/-- A table of the program's own (R126). -/
def userTableV (kn : Nat → Int) (x : Val) : Val :=
  match x with
  | .nan => .nan
  | .inf neg => ofQ16 (kn (if neg then 0 else 256))
  | .fin neg man exp =>
    let q := toQ12 neg man exp
    if 32767 < q then ofQ16 (kn 256) else if q < -32768 then ofQ16 (kn 0) else ofQ16 (tableStep kn q)

/-- A value scaled by a power of two. -/
def scaleV (v : Val) (k : Int) : Val :=
  match v with
  | .fin n m e => .fin n m (e + k)
  | v => v

/-- `vrcp` before its final rounding (R125). -/
def rcpV : Val → Val
  | .nan => .nan
  | .inf n => .fin n 0 0
  | .fin n m e =>
    if m = 0 then .inf n else
    let l : Int := (bitLen m : Int) - 1
    let v := scaleV (ofQ16 (tableStep (knot 6) (toQ12 false m (-l)))) (-(e + l))
    if n then negV v else v

/-- `vrsqrt` before its final rounding (R125). -/
def rsqrtV : Val → Val
  | .nan => .nan
  | .inf n => if n then .nan else .fin false 0 0
  | .fin n m e =>
    if m = 0 then .inf n else if n then .nan else
    let l : Int := (bitLen m : Int) - 1
    let top := e + l
    let ev := if top % 2 = 0 then top else top - 1
    scaleV (ofQ16 (tableStep (knot 7) (toQ12 false m (e - ev)))) (-(ev / 2))

/-! ## The log domain (R127, R128). -/

/-- A log code from an integer log value and a sign (R128). -/
def logCode (p : Int) (s : Bool) : Nat :=
  let sg := if s then 2 ^ 15 else 0
  if p ≤ -16384 then 0x4000 else if 16383 < p then sg + 0x3FFF else sg + intBits p 15

/-- The integer log value of a code. -/
def logK (h : Nat) : Int := sxInt h 15

/-- Whether a code means zero. -/
def logZero (h : Nat) : Bool := h % 2 ^ 15 == 0x4000

/-- log2 of a positive number man * 2^exp, times 1,024, rounded. -/
def log1024 (man : Nat) (exp : Int) : Int := ((bitLen (man ^ 2048) : Int) - 1 + 2048 * exp + 1) / 2

/-- `vtolog` of a value (R127). -/
def toLog : Val → Nat
  | .nan => 0x4000
  | .inf n => (if n then 2 ^ 15 else 0) + 0x3FFF
  | .fin n m e => if m = 0 then 0x4000 else logCode (log1024 m e) n

/-- `vfrlog` of a code before its final rounding (R127): 2^(k/1024). -/
def frLog (h : Nat) : Val :=
  if logZero h then .fin false 0 0 else
  let k := logK h
  let i := k / 1024
  let f := (k % 1024).toNat
  let x := if f = 0 then fxOne else fxExpSmall (fxLn2 * f / 1024)
  .fin (nbit h 15) (x * 2 + if f = 0 then 0 else 1) (i - 193)

/-! ## The dot product (R276, R277). -/

/-- `trunc28(v, E)` (R43). -/
def trunc28 (v : Val) (e : Int) : Val :=
  match v with
  | .fin n m x => .fin n (splitAt m x (e - 27)).1 (e - 27)
  | v => v

/-- Exact sum of a list of values. -/
def sumV (l : List Val) : Val := match l with | [] => .fin false 0 0 | a :: r => r.foldl addV a

/-- The exponent of the leading bit of a non-zero value. -/
def leadExp : Val → Option Int
  | .fin _ m e => if m = 0 then none else some (e + (bitLen m : Int) - 1)
  | _ => none

/-- The greatest exponent of the non-zero terms. -/
def maxExp (l : List Val) : Option Int :=
  l.foldl (fun a v => match a, leadExp v with
    | none, x => x
    | a, none => a
    | some x, some y => some (max x y)) none

/-- A group of 32 products as an FP32 code (R276, R277): the products, and one scale for each block of 8. A padded element is a zero in them, and
makes a NaN with an infinity or a NaN of the other operand (DESIGN CHOICE, log entry 146). -/
def groupSum (prods : List Val) (scales : List Val) : Nat :=
  if prods.any isNan then 0x7FC00000 else
  let infs := prods.filterMap fun v => match v with | .inf n => some n | _ => none
  match infs with
  | n :: r => if r.all (· == n) then (if n then 0xFF800000 else 0x7F800000) else 0x7FC00000
  | [] =>
    let t := (List.range 4).map fun b => mulV (sumV ((prods.drop (8 * b)).take 8)) (scales.getD b (.fin false 1 0))
    match maxExp t with
    | none => if t.all (fun v => match v with | .fin n _ _ => n | _ => false) then 0x80000000 else 0
    | some e => rneF 0 (sumV (t.map fun v => trunc28 v e))

/-- The E3M5 scale of a block (R278): its code, and the scale as a value. -/
def blockScale (vs : List Val) : Nat × Val :=
  let amax : Val := vs.foldl (fun (a : Val) v => match v with
    | .nan => a
    | .inf _ => Val.inf false
    | .fin _ m e => if ltV a (.fin false m e) then .fin false m e else a) (.fin false 0 0)
  match amax with
  | .fin _ 0 _ => (0x60, .fin false 1 0)
  | .fin _ m e =>
    let six := divV (.fin false m e) (.fin false 6 0)
    if ltV (.fin false 63 (-1)) six then (0xFF, .fin false 63 (-1))
    else
      let down := encodeScale 1 0 six
      let c := max 1 (if ltV (decodeF 6 down) six then down + 1 else down)
      (c, decodeF 6 c)
  | _ => (0xFF, .fin false 63 (-1))

end Sys2Proof.Machine
end

