-- ==== Sys2Proof/Machine/Ops.lean ====
section
/-! DEFINITION. The shared operations: queue registers (R44 to R46), tokens (R14 to R17), barriers and dependence tests
(R87, R223), the side log (R300, R301), taking a trap and returning from one (R65 to R67, R368 to R370), and the issue of a word
(R20, R34, R47, R56). -/

namespace Sys2Proof.Machine

/-! ## Barriers -/

/-- A barrier's 32 bytes after an add of `n` (R87); the reserved bits are written as zero (R10). -/
def barrierStep (b : List Byte) (n : Nat) : List Byte :=
  let v := leNat b % 2 ^ 160
  let e := nfld v 64 64
  let arr := (nfld v 0 64 + n) % 2 ^ 64
  let v := if e ≤ arr then nset (nset v 0 64 (arr - e)) 128 32 (nfld v 128 32 + 1) else nset v 0 64 arr
  leBytes 32 v

/-- A job-table entry by its address (R208). -/
def findJob (s : State) (addr : Nat) : Option Job := (quarter s (nfld addr 46 2)).jobs.find? (fun j => j.addr == addr)

/-- Updates a job-table entry. -/
def modJob (s : State) (addr : Nat) (f : Job → Job) : State :=
  modQuarter s (nfld addr 46 2) fun x => { x with jobs := replaceFirst (fun j => j.addr == addr) f x.jobs }

/-- Bits [lo + w - 1 : lo] of a card (R206). -/
def cardFld (c : BitVec 1024) (lo w : Nat) : Nat := c.toNat / 2 ^ lo % 2 ^ w

/-- The context of a job queue's own accesses: the queue's address space, base memory, at the homes. -/
def queueCtx (q asid : Nat) : Ctx := { part := 192 * q, agent := .control, asid := asid, view := 0, job := 0, home := some q }

/-- The barrier of dependence `d` of a card, and the phase it waits for (R206). -/
def depBar (card : BitVec 1024) (d : Nat) : Nat := cardFld card (128 + 64 * d) 64

def depPhase (card : BitVec 1024) (d : Nat) : Nat := cardFld card (256 + 32 * d) 32

/-- Whether a phase has reached another (R223, R379). -/
def phaseReached (ph want : Nat) : Bool := decide ((ph + 2 ^ 32 - want) % 2 ^ 32 < 2 ^ 31)

/-- What a queue or the device itself writes is made (R205, R208, R372). -/
def writeNow (s : State) (q asid va : Nat) (bs : List Byte) (what job n : Nat) : State :=
  match writeVa s (queueCtx q asid) va bs 0 with
  | (s, .ok ()) => s
  | (s, .error e) =>
    if what = 2 then mbump s 0 (regDev 0x388) 32 else
    match what, e with
    | 1, .fault k va' => raiseFault s { job := job, va := va', unit := unitJobQueue q n, asid := asid, view := 0, acc := 1, kind := k }
    | _, _ => s

/-- A queue, or the device itself, writes bytes; at a home under test the write holds there (R361). -/
def homeWrite (s : State) (q asid va : Nat) (bs : List Byte) (what job n : Nat) : State :=
  if waitsHome s (queueCtx q asid) va bs.length true then { s with atHomes := s.atHomes ++ [.write q asid va bs what job n] }
  else writeNow s q asid va bs what job n

/-- Tests dependence `d` of a waiting job (R223): what it finds is noted; once both dependences hold, the job is ready and enters its level
(R216). A job that the runtime has ended becomes ready no more (R228). -/
def testDep (s : State) (addr d : Nat) : State :=
  match findJob s addr with
  | none => s
  | some j =>
    if j.phase ≠ .waiting ∨ j.status = 6 then s else
    let q := nfld addr 46 2
    let dep := depBar j.card d
    let mark (k : Nat) (j : Job) : Job := { j with untested := k :: j.untested.filter fun x => x % 2 != d }
    if dep ≠ 0 ∧ waitsHome s (queueCtx q j.asid) (dep + 16) 4 false then modJob s addr (mark (d + 2)) else
    let r := if dep = 0 then (s, Except.ok (depPhase j.card d)) else readNum s (queueCtx q j.asid) (dep + 16) 4 0
    match r with
    | (s, .error _) =>
      modJob (raiseFault s { job := addr, va := dep, unit := unitJobQueue q j.queue, asid := j.asid, view := 0, acc := 0, kind := 0 }) addr (mark d)
    | (s, .ok v) =>
      let holds := if phaseReached v (depPhase j.card d) then d :: j.holds.filter (· != d) else j.holds.filter (· != d)
      let s := modJob s addr fun j => { j with holds := holds, untested := j.untested.filter fun x => x % 2 != d }
      if [0, 1].all holds.contains then joinLevel (modJob s addr fun j => { j with phase := .ready }) q j.prio (.job addr) else s

/-- Tests both dependences of a job, at its acceptance (R223). -/
def testJob (s : State) (j : Job) : State := testDep (testDep s j.addr 0) j.addr 1

/-- Every job of the device. -/
def allJobs (s : State) : List Job := ((List.range 4).map fun q => (quarter s q).jobs).flatten

/-- The address without its device field, when it is on this device. -/
def localKey (va : Nat) : Option Nat := match locOf va with | .here q off => some (q * 2 ^ 46 + off) | _ => none

/-- The tests of dependences that stand under one of some marks are made again. -/
def testMarked (s : State) (marks : List Nat) : State :=
  (allJobs s).foldl (fun s j => (j.untested.filter marks.contains).foldl (fun s d => testDep s j.addr (d % 2)) s) s

/-- After a write of `tr.inval`, the tests that found no valid mapping are made again (R223). -/
def testAgain (s : State) : State := testMarked s [0, 1]

/-- Whether a dependence of a job names the barrier at an address of an address space: the place they map to decides, and the address
where the dependence's page has no valid mapping (R223). -/
def namesBarrier (s : State) (j : Job) (d asid va : Nat) : Bool :=
  depBar j.card d != 0 &&
    (match physOf s j.asid (depBar j.card d) with
     | some pa => physOf s asid va == some pa
     | none => j.asid == asid && localKey (depBar j.card d) == localKey va)

/-- Tests the dependences that name a barrier, after an add to it (R223). -/
def dependTest (s : State) (asid va : Nat) : State :=
  (allJobs s).foldl (fun s j => ([0, 1].filter fun d => namesBarrier s j d asid va).foldl (fun s d => testDep s j.addr d) s) s

/-! ## Operations at a home -/

/-- Bytes of an atomic (R80). -/
def atomicBytes : AtomicOp → Nat
  | .fadd => 4
  | .bfadd => 2
  | _ => 8

/-- One line of maintenance in base memory (R85): 0 write back, 1 discard, 2 both. A discard reaches every cache that holds the line. -/
def maintainLine (s : State) (kind pa : Nat) : State :=
  let s := (List.range 4).foldl (fun s i =>
    let sec := pa / 128 * 4 + i
    let s := if kind = 1 then s else writeBack s sec
    if kind = 0 then s else dropSector s sec) s
  if kind = 0 then s
  else { s with tags := { s.tags with virt := s.tags.virt.filter (fun v => v.2.pa != pa / 128 || v.2.old.isSome), msc := fdel s.tags.msc (pa / 128) } }

/-- Maintenance of a line of base memory in every cache (R85, R287, R289): at its own place, at its places in replicas, and at those that L1 and L2
levels hold for the virtual line from before a change of the mapping. After a discard the replicas hold nothing of the line: they take it from
its owner again (DEDUCED, log entry 134). -/
def maintainVirt (s : State) (kind asid q off pa : Nat) : State :=
  let mine (v : Nat × VLine) : Bool := v.1 % 2 ^ 76 == lineKey 0 asid (lineOf q off)
  let copies := (s.tags.replicas.filter fun r => r.pa == pa / 128).map Replica.place
  let places := ((s.tags.virt.filter mine).map fun v => 128 * v.2.pa).filter fun a => a != pa / 128 * 128
  let s := (copies ++ places).foldl (fun s a => maintainLine s kind a) (maintainLine s kind pa)
  if kind = 0 then s
  else { s with tags := { s.tags with virt := s.tags.virt.filter (fun v => !mine v), replicas := if kind = 1 then s.tags.replicas.filter (fun r => r.pa != pa / 128) else s.tags.replicas } }

/-- The key of a copy in a core's read-only path: view, address space and sector (R252, R357). -/
def roKey (view asid sec : Nat) : Nat := (view * 2 ^ 16 + asid) * 2 ^ 44 + sec

/-- Discards the copies of a line in a core's read-only path that are tagged with the given views (R85, R357). -/
def roDrop (s : State) (core asid q off : Nat) (views : List Nat) : State :=
  modCore s core fun x => { x with roCopies := views.foldl (fun m v => (List.range 4).foldl (fun m i =>
    fdel m (roKey v asid ((q * 2 ^ 46 + off) / 128 * 4 + i))) m) x.roCopies }

/-- Maintenance of the line that holds an address (R85, R340, R357); an unmapped page is skipped. -/
def maintainAt (s : State) (c : Ctx) (kind va : Nat) : State × Except MemErr Unit :=
  match locOf va with
  | .here q off =>
    match spotOf s q off with
    | .memory =>
      match leafAt s q c.asid off with
      | none => (s, .ok ())
      | some (pte, _) =>
        let s := noteLeaf s q c.asid off
        if nbit pte 8 then (s, .error (.fault 1 va))
        else if kind = 3 then (roDrop s (coreOf c.part) c.asid q off (viewChain s 5 c.view ++ [0]), .ok ())
        else if c.view = 0 then (maintainVirt s kind c.asid q off (leafPa pte off), .ok ())
        else
          match fget s.views c.view with
          | none => (s, .ok ())
          | some v =>
            match fget v.lines (lineOf q off) with
            | none => (s, .ok ())
            | some l => (maintainLine s kind l.pa, .ok ())
    | _ => (s, .ok ())
  | _ => (s, .ok ())

/-- The addresses of the lines that a range touches (R85). -/
def linesOf (va n : Nat) : List Nat :=
  if n = 0 then [] else (List.range ((va + n - 1) / 128 - va / 128 + 1)).map fun i => (va / 128 + i) * 128

/-- Maintenance of a list of lines; a failure names its line. -/
def maintainAll (s : State) (c : Ctx) (kind : Nat) : List Nat → State × Except MemErr Unit
  | [] => (s, .ok ())
  | va :: r =>
    match maintainAt s c kind va with
    | (s, .ok ()) => maintainAll s c kind r
    | x => x

/-- Whether a context may write the place at all; tried before an atomic's read (R77, R285). -/
def mayWrite (s : State) (c : Ctx) (va : Nat) : Except MemErr Unit :=
  match locOf va with
  | .here q off =>
    match spotOf s q off with
    | .memory => (writeLeaf s c q off va).map fun _ => ()
    | .mgmt => .error (.fault 0 va)
    | _ => .ok ()
  | _ => .error (.fault 0 va)

/-- The context of an access that an agent makes at the home of an address (R80). -/
def homeCtx (c : Ctx) (va : Nat) : Ctx := match locOf va with | .here q _ => { c with home := some q } | _ => c

/-- Reads, changes and writes the bytes at a place indivisibly at its home, all under one leaf (R80, R87, R287, R344). `f` gives the new bytes,
none when nothing is written; the old bytes are the answer. -/
def atHome (s : State) (c : Ctx) (va n : Nat) (f : List Byte → Option (List Byte)) : State × Except MemErr (List Byte) :=
  match mayWrite s c va with
  | .error e => (s, .error e)
  | .ok () =>
    match readHome s c va n 0 with
    | (s, .error e) => (s, .error e)
    | (s, .ok old) =>
      match f old with
      | some new =>
        match writeVa s (homeCtx c va) va new 0 with
        | (s, .error e) => (s, .error e)
        | (s, .ok ()) => (s, .ok old)
      | none =>
        if c.view = 0 then (s, .ok old) else
        match locOf va with
        | .here q off =>
          match writeLeaf s c q off va with
          | .ok pte =>
            match overlayWrite s c q off pte va [] 0 with
            | (s, .error e) => (s, .error e)
            | (s, .ok ()) => (s, .ok old)
          | .error e => (s, .error e)
        | _ => (s, .ok old)

/-- The new value of an atomic, and `none` where nothing is written (R80, R81). -/
def atomicNew (op : AtomicOp) (old : Nat) (x y : W64) : Option Nat :=
  let o := w64 old
  match op with
  | .add => some (o + x).toNat
  | .and => some (o &&& x).toNat
  | .or => some (o ||| x).toNat
  | .xor => some (o ^^^ x).toNat
  | .min => some (if o.toInt ≤ x.toInt then o else x).toNat
  | .max => some (if o.toInt ≤ x.toInt then x else o).toNat
  | .minu => some (min old x.toNat)
  | .maxu => some (max old x.toNat)
  | .swap => some x.toNat
  | .cas => if o = x then some y.toNat else none
  | .fadd | .bfadd => some (atomicFloat op old x.toNat)

/-- Performs a write at its home (R73, R300); the answer is an atomic's old value. -/
def performOp (s : State) (c : Ctx) (va : Nat) (op : WriteOp) (hint : Nat) : State × Except MemErr W64 :=
  match op with
  | .bytes bs => match writeVa s c va bs hint with
    | (s, .error e) => (s, .error e)
    | (s, .ok ()) => (s, .ok 0)
  | .atomic op x y =>
    match atHome s c va (atomicBytes op) fun old => (atomicNew op (leNat old) x y).map (leBytes (atomicBytes op)) with
    | (s, .error e) => (s, .error e)
    | (s, .ok old) => (s, .ok (w64 (leNat old)))
  | .bbInit e =>
    match atHome s c va 32 fun _ => some (leBytes 32 (e.toNat * 2 ^ 64)) with
    | (s, .error e) => (s, .error e)
    | (s, .ok _) => (s, .ok 0)
  | .bbExp e =>
    match atHome s c va 32 fun old => some (barrierStep (leBytes 32 (nset (leNat old) 64 64 e.toNat)) 0) with
    | (s, .error e) => (s, .error e)
    | (s, .ok _) => (s, .ok 0)
  | .barrierAdd n =>
    match atHome s c va 32 fun old => some (barrierStep old n) with
    | (s, .error e) => (s, .error e)
    | (s, .ok _) => (if c.view = 0 then dependTest s c.asid va else s, .ok 0)
  | .maintain kind n => match maintainAll s c kind (linesOf va n) with
    | (s, .error e) => (s, .error e)
    | (s, .ok ()) => (s, .ok 0)

/-! ## The side log -/

/-- Whether an agent has a write in its core's side log, or one that waits to enter (R300, R301). -/
def logBusy (s : State) (c : Ctx) : Bool :=
  let x := core s (coreOf c.part)
  (x.sideLog ++ x.sideHeld).any fun e => e.ctx.part == c.part && e.ctx.agent == c.agent

/-- The bytes that an entry keeps in its slot of the spill area (R300): a write's data, an atomic's operands. -/
def spillBytes : WriteOp → List Byte
  | .bytes bs => bs
  | .atomic _ x y => leBytes 8 x.toNat ++ leBytes 8 y.toNat
  | .bbInit e | .bbExp e => leBytes 8 e.toNat
  | .barrierAdd n | .maintain _ n => leBytes 8 n

/-- The lowest slot of a core's spill area that no entry has. -/
def freeSpill (x : Core) : Nat := ((List.range 257).find? fun k => !x.sideLog.any fun e => e.slot == k).getD 256

/-- An entry takes its place at the tail of a core's log, with its data in its slot: written directly, where the spill area lies in the
core's quarter (R300). -/
def addEntry (s : State) (k : Nat) (e : SideEntry) : State :=
  let slot := freeSpill (core s k)
  let a := (core s k).slbase.toNat / 2 ^ 22 * 2 ^ 22 + 2 ^ 14 * slot
  let s := if a / 2 ^ 46 = k / 48 ∧ backed s a (2 ^ 14) then physPut s a (spillBytes e.op) else s
  modCore s k fun x => { x with sideLog := x.sideLog ++ [{ e with slot := slot }] }

/-- The command queue of an engine's agent. -/
def queueOfAgent : Agent → Nat
  | .fetch => 0 | .vector => 1 | .matrix => 2 | .gleaner => 3 | .darner => 4 | .exchange => 5
  | .control => 6

/-- The address that a trap record shows for a command (R370): its first A value, 0 where the command reads no A. -/
def trapAddr (c : Cmd) : W64 :=
  match c.instr with
  | .vadd .. | .vsub .. | .vmul .. | .vfma .. | .vmax .. | .vmin .. | .vcmp .. | .vand .. | .vor .. | .vxor .. | .vshl .. | .vshr ..
  | .vladd .. | .vlsub .. | .vlmul .. => 0
  | _ => c.vals.getD 0 0

/-- The command that a write of an engine belongs to: by the number it carries, which an epilogue or an exchange draws anew; else the one that its
engine has in hand. -/
def entryCmd (s : State) (e : SideEntry) : Option Cmd :=
  let q := cmdQueue s e.ctx.part (queueOfAgent e.ctx.agent)
  let x := core s (coreOf e.ctx.part)
  let mine := q.running.map (·.cmd) ++ q.queued
  [mine.find? fun c => c.id == e.seq, (x.epiAdds.find? fun a => a.id == e.seq).map (·.cmd),
    if e.ctx.agent = .matrix then x.epi.map (·.nest.cmd) else none, mine.head?].findSome? id

/-- SIDE_LOG_FULL for a write that is held, as its trap record shows it (R301, R370). -/
def fullTrap (s : State) (e : SideEntry) : PendingTrap :=
  let t : PendingTrap := { cause := 0x0D, queue := 6, src := 7, pc := (part s e.ctx.part).pc.toNat, word0 := 0, word1 := 0, addr := w64 e.va, seq := e.seq, reg := 0 }
  match e.ctx.agent, entryCmd s e, fget (part s e.ctx.part).words e.seq with
  | .control, _, some w => { t with pc := w.1, word0 := w.2 }
  | .control, _, none => t
  | _, some c, _ => { t with pc := c.pc, word0 := c.word0, word1 := c.word1, addr := trapAddr c }
  | _, none, _ => t

/-- A write enters the side log, or is held when 256 entries are in use; then SIDE_LOG_FULL is pending (R300, R301). -/
def enterLog (s : State) (e : SideEntry) : State :=
  let k := coreOf e.ctx.part
  let x := core s k
  if x.sideLog.length < 256 ∧ x.sideHeld.isEmpty then addEntry s k e
  else pend (setCore s k { x with sideHeld := x.sideHeld ++ [e] }) e.ctx.part (fullTrap s e)

/-- Held writes enter a log as its entries free, the first first (R301). -/
def enterHeld : Nat → State → Nat → State
  | 0, s, _ => s
  | n + 1, s, k =>
    match (core s k).sideHeld with
    | [] => s
    | e :: r => if (core s k).sideLog.length < 256 then enterHeld n (addEntry (modCore s k fun x => { x with sideHeld := r }) k e) k else s

/-- Entries that a test picks leave the log of core `k`, unreplayed; held writes enter in their place (R228, R301, R349). -/
def dropEntries (s : State) (k : Nat) (pick : SideEntry → Bool) : State :=
  enterHeld ((core s k).sideHeld.length) (modCore s k fun x => { x with sideLog := x.sideLog.filter (fun e => !pick e), sideHeld := x.sideHeld.filter fun e => !pick e }) k

/-- Cuts bytes into the contiguous writes that one entry each may hold: at most 16 KiB, inside one page of `span` bytes (R300). -/
def logCuts (span : Nat) : Nat → Nat → List Byte → List (Nat × List Byte)
  | 0, _, _ => []
  | f + 1, va, bs =>
    if bs.isEmpty then [] else
    let n := min (min bs.length (2 ^ 14)) (span - va % span)
    (va, bs.take n) :: logCuts span f (va + n) (bs.drop n)

/-- The size of the page that holds an address; of one without a valid mapping, the least there is (R6). -/
def pageSpan (s : State) (asid va : Nat) : Nat :=
  match locOf va with
  | .here q off => (match leafAt s q asid off with | some l => pageSize (nfld l.1 1 2) | none => 2 ^ 18)
  | _ => 2 ^ 18

/-- The part of a write that is left from `va'` on. -/
def opFrom (va va' : Nat) : WriteOp → WriteOp
  | .bytes bs => .bytes (bs.drop (va' - va))
  | .maintain k n => .maintain k (va + n - va')
  | op => op

/-- Retires a write into the side log (R300). -/
def retire (s : State) (e : SideEntry) : State :=
  match e.op with
  | .bytes bs => (logCuts (pageSpan s e.ctx.asid e.va) (bs.length / 2 ^ 14 + bs.length / 2 ^ 18 + 3) e.va bs).foldl (fun s x => enterLog s { e with va := x.1, op := .bytes x.2 }) s
  | _ => enterLog s e

/-- What became of a write. -/
inductive Sent where
  | done (old : W64)
  | logged
  | world
  | bad (pa : Nat)
deriving DecidableEq, Repr

/-- Whether a world's write of `n` bytes touches a page that its tables map and that it may not write (R285, R352). -/
def escapes (s : State) (c : Ctx) (va n : Nat) : Bool :=
  c.view != 0 && (piecesOf va n).any fun x => (match mayWrite s c x.1 with | .error .world => true | _ => false)

/-- The bytes that a write touches. -/
def opBytes : WriteOp → Nat
  | .bytes bs => bs.length
  | .atomic op _ _ => atomicBytes op
  | .bbInit _ | .bbExp _ | .barrierAdd _ => 32
  | .maintain _ _ => 0

/-- The bytes whose lines a write concerns: those it writes, or the range of maintenance (R85). -/
def opSpan : WriteOp → Nat
  | .maintain _ n => n
  | op => opBytes op

/-- Makes the write that an entry describes: performs it, or retires what cannot be performed into the side log and queues the fault (R77,
R300). A world's write of a page that it may not write is refused, also behind a busy log (R352). One whose home is under test stands in the log
without a fault (R361; DEDUCED, log entry 125). -/
def sendEntry (s : State) (e : SideEntry) : State × Sent :=
  if escapes s e.ctx e.va (opBytes e.op) then (s, .world)
  else if logBusy s e.ctx || waitsHome s e.ctx e.va (opSpan e.op) true then (retire s e, .logged) else
  match performOp s e.ctx e.va e.op e.hint with
  | (s, .ok v) => (s, .done v)
  | (s, .error (.fault k va')) =>
    let v := match e.op with | .bytes _ | .maintain _ _ => va' | _ => e.va
    (retire (faultFor s e.ctx va' e.kind k) { e with va := v, op := opFrom e.va v e.op, seen := s.retries + 1 }, .logged)
  | (s, .error .world) => (s, .world)
  | (s, .error (.bad pa)) => (s, .bad pa)

/-- Makes a write. `acc` is what a fault record says; `seq` and `reg` name the word or command and the register its answer goes to. -/
def sendWrite (s : State) (c : Ctx) (va : Nat) (op : WriteOp) (hint acc seq : Nat) (reg : Option Nat) (cont : Bool) : State × Sent :=
  sendEntry s { ctx := c, va := va, op := op, hint := hint, seq := seq, reg := reg, kind := acc, seen := 0, cont := cont }

/-! ## Queue registers and tokens -/

/-- The queue that a register name reaches (R44): names x24 to x31 above user level reach the supervisor bank, 32 to 39. -/
def regIx (priv : Nat) (r : Reg) : Nat := if 24 ≤ r.val ∧ priv ≠ 0 then r.val + 8 else r.val

/-- Makes the reads of a word in order (R28): the values and the queues after the pops, or the first register that lacks an
entry. -/
def takeReads (m : FMap (List W64)) : List (Nat × Bool) → Except Nat (List W64 × FMap (List W64))
  | [] => .ok ([], m)
  | (r, peek) :: t =>
    if r = 0 then (takeReads m t).map fun x => (0 :: x.1, x.2)
    else match fgetD m r [] with
      | [] => .error r
      | v :: rest => (takeReads (if peek then m else fput m r rest) t).map fun x => (v :: x.1, x.2)

/-- Whether a flight is interlocked (R45). -/
def interlocked (f : Flight) : Bool := match f.val with | .exposed _ _ => false | _ => true

/-- Writes in flight to a register. -/
def inFlight (x : Part) (r : Nat) : Nat := (x.flights.filter fun f => f.reg == r).length

/-- A value joins a queue; x0 discards it (R43). -/
def joinReg (x : Part) (r : Nat) (v : W64) : Part := if r = 0 then x else { x with regs := fput x.regs r (fgetD x.regs r [] ++ [v]) }

/-- Streams: 0 C, 1 F, 2 V, 3 M. The token queues are numbered C→F 0, F→C 1, F→V 2, V→F 3, V→M 4, M→V 5, M→C 6, C→M 7. -/
def waitPrev (st : Nat) : Nat := if st = 0 then 6 else 2 * st - 2

def waitNext (st : Nat) : Nat := 2 * st + 1

def postPrev (st : Nat) : Nat := if st = 0 then 7 else 2 * st - 1

def postNext (st : Nat) : Nat := 2 * st

/-- Consumes the tokens a word waits for, both at once, or nothing (R15). -/
def takeTokens (m : FMap Nat) (st : Nat) (wp wn : Bool) : Option (FMap Nat) :=
  let a := fgetD m (waitPrev st) 0
  let b := fgetD m (waitNext st) 0
  if (wp && a == 0) || (wn && b == 0) then none else
  let m := if wp then fput m (waitPrev st) (a - 1) else m
  some (if wn then fput m (waitNext st) (b - 1) else m)

/-- Posts the tokens of a completed word, both at once, once there is room for them (R15). -/
def putTokens (m : FMap Nat) (st : Nat) (sp sn : Bool) : Option (FMap Nat) :=
  let a := fgetD m (postPrev st) 0
  let b := fgetD m (postNext st) 0
  if (sp && 8 ≤ a) || (sn && 8 ≤ b) then none else
  let m := if sp then fput m (postPrev st) (a + 1) else m
  some (if sn then fput m (postNext st) (b + 1) else m)

/-- The words of a writer whose store to `hr.cfg` has not taken effect, and so is not performed (R294). -/
def hrWords (s : State) (p : Nat) : List Nat :=
  (List.range 4).flatMap fun q => if (quarter s q).hrPending.isSome then ((quarter s q).hrWriters.filter fun w => w.1 == p).map (·.2.1) else []

/-- Whether a store of a stream to `hr.cfg`, from a word before `seq`, is not performed (R294). -/
def hrBefore (s : State) (p seq : Nat) : Bool := (hrWords s p).any fun w => decide (w < seq)

/-- Whether word `seq` of partition `p` is complete (R15): its register writes have landed, its writes have left the store queue and the side
log, a store to `hr.cfg` has taken effect (R294), and a `bbinit` or `bbexp` to another device is performed at its home (R88). -/
def wordDone (s : State) (p seq : Nat) : Bool :=
  let x := core s (coreOf p)
  !(part s p).flights.any (fun f => f.seq == seq) && !(part s p).stores.any (fun w => w.seq == seq) && !(hrWords s p).contains seq &&
    !(s.awaits.any fun a => a.part == p && a.word == seq && a.kind == .atHome) &&
    !(x.sideLog ++ x.sideHeld).any fun e => e.ctx.part == p && e.seq == seq

/-- Posts the tokens of every completed word that finds room (R15, R16). -/
def postReady (s : State) (p : Nat) : State :=
  (part s p).posts.foldl (fun s t =>
    if wordDone s p t.seq then
      match putTokens (part s p).tokens t.stream t.sp t.sn with
      | some m => modPart s p fun x => { x with tokens := m, posts := x.posts.filter (fun y => y.seq != t.seq) }
      | none => s
    else s) s

/-- Whether a completed word of the control stream cannot post and so holds the stream (R16). -/
def postHolds (s : State) (p : Nat) : Bool := (part s p).posts.any fun t => t.stream == 0 && wordDone s p t.seq

/-- The answer of a word's register write arrives (R45). -/
def answerFlight (s : State) (p seq : Nat) (v : W64) : State :=
  modPart s p fun x => { x with
    flights := replaceFirst (fun f => f.seq == seq && f.val == .answer) (fun f => { f with val := .ready v }) x.flights, ords := fdel x.ords seq }

/-- A word's register write is cancelled (R368). -/
def cancelFlight (s : State) (p seq : Nat) : State := modPart s p fun x => { x with flights := x.flights.filter fun f => f.seq != seq }

/-- Lands one register write: it joins its queue (R46). -/
def landFlight (s : State) (p : Nat) (f : Flight) (v : W64) : State :=
  postReady (modPart s p fun x => joinReg { x with flights := dropFirst (· == f) x.flights } f.reg v) p

/-- When a write in flight lands, and its value, where both are known (R45, R46). -/
def landingOf (f : Flight) : Option (Nat × W64) :=
  match f.val with | .exposed t v | .landing t v => some (t, v) | _ => none

/-- Among writes whose landing is known, the one that lands first; of two in one ac, the one issued first (R46). -/
def firstLanding : List Flight → Option (Flight × Nat × W64)
  | [] => none
  | f :: r =>
    match landingOf f, firstLanding r with
    | some (t, v), none => some (f, t, v)
    | some (t, v), some (g, t', v') => if t ≤ t' then some (f, t, v) else some (g, t', v')
    | none, x => x

/-- Lands the writes due at an ac (R45). -/
def landDue (p limit : Nat) : Nat → State → State
  | 0, s => s
  | n + 1, s =>
    match firstLanding (part s p).flights with
    | some (f, t, v) => if t ≤ limit then landDue p limit n (landFlight s p f v) else s
    | none => s

/-! ## Traps -/

/-- The 64 bytes of a trap record (R370). -/
def trapRecord (s : State) (x : Part) (t : TrapEntry) (view : Nat) (more : Bool) : List Byte :=
  leBytes 8 (t.cause + t.code * 2 ^ 8 + x.priv * 2 ^ 26 + (if more then 2 ^ 28 else 0) + t.src * 2 ^ 29 + view * 2 ^ 36) ++
  leBytes 8 t.tpc ++ leBytes 8 t.pc ++ leBytes 4 t.word0 ++ leBytes 4 t.word1 ++ leBytes 8 t.addr.toNat ++
  leBytes 8 x.workid.toNat ++ leBytes 8 x.cont.toNat ++ leBytes 8 s.time

/-- Entry of a trap from its second step on (R65, R66): the record is written where `cr.trec` lies in its quarter's HBM; the queue that its `tret` resumes is
noted (R369). -/
def enterHandler (s : State) (p : Nat) (t : TrapEntry) : State :=
  let x := part s p
  let bs := trapRecord s x t (viewOf s p) (!x.pending.isEmpty)
  let s := if inHbm (quarterOf p) x.trec.toNat 64 then physPut s x.trec.toNat bs else s
  modPart s p fun x => { x with
    tpc := w64 t.tpc, tcause := w64 (t.cause + (if t.cause = 0x10 then t.code else x.tcause.toNat / 2 ^ 8 % 2 ^ 15) * 2 ^ 8), tpriv := x.priv, priv := 1, unflagged := 0, pc := x.tvec,
    entering := none, resumeQueues := t.queue :: x.resumeQueues, atHandler := true, replayAt := none, probe := none, holding := false, flagIgnored := false, fetchSeen := none, leaveWait := none }

/-- Takes a precise trap (R65): the register writes in flight land first, each when it is due; until then the entry waits. -/
def takeTrap (s : State) (p : Nat) (t : TrapEntry) : State :=
  let s := modCore s (coreOf p) fun x => { x with nextIssue := max x.nextIssue (s.time + 1) }
  if (part s p).flights.isEmpty then enterHandler s p t else modPart s p fun x => { x with entering := some t }

/-- The instruction words of a decoded word, as the trap record shows them (R370). -/
def recWords (i : Instr) : Nat × Nat :=
  match encode i with
  | [a] => (a, 0)
  | a :: b :: _ => (a, b)
  | [] => (0, 0)

/-- Takes a precise trap at the word that partition `p` is to issue. -/
def trapAt (s : State) (p : Nat) (i : Instr) (src cause code : Nat) (addr : W64) : State :=
  let w := recWords i
  let pc := (part s p).pc.toNat
  takeTrap s p { cause := cause, code := code, src := src, pc := pc, tpc := if cause = 0x10 then (pc + 4) % 2 ^ 64 else pc,
                 word0 := w.1, word1 := if src = 1 then w.2 else 0, addr := addr }

/-- Delivers the oldest pending trap before the word at the pc (R369). -/
def deliverPending (s : State) (p : Nat) : State :=
  match (part s p).pending with
  | [] => s
  | t :: r =>
    let pc := (part s p).pc.toNat
    enterHandler (modPart s p fun x => { x with pending := r }) p
      { cause := t.cause, code := 0, src := t.src, pc := t.pc, tpc := pc, word0 := t.word0, word1 := t.word1, addr := t.addr, queue := t.queue }

/-- The queue that a `tret` resumes (R369): that of the trap entered last, but not while another trap of that queue still pends or has a handler that has not
returned (DEDUCED, log entry 148). -/
def resumedQueue (x : Part) : Option Nat :=
  match x.resumeQueues with
  | k :: r => if 6 ≤ k ∨ r.contains k ∨ x.pending.any fun t => t.queue == k then none else some k
  | [] => none

/-- `tret` (R67, R369): resumes at `cr.tpc` and `cr.tpriv`; the queue that the delivered trap froze resumes. -/
def returnFromTrap (s : State) (p : Nat) : State :=
  modPart s p fun x => { x with
    pc := x.tpc, priv := x.tpriv, unflagged := 0, resumeQueues := x.resumeQueues.tail,
    queues := match resumedQueue x with
      | some k => fput x.queues k { fgetD x.queues k ({} : CmdQueue) with frozen := false }
      | none => x.queues }

/-! ## Issue of a word -/

/-- What a word does once its register reads and token waits are met. -/
inductive WordOut where
  /-- A precise trap of the word's own entry: nothing else happens (R43). -/
  | trap (cause code : Nat) (addr : W64)
  /-- A precise trap of a word whose read met an error, in the state that has recorded it (R374). -/
  | fail (s : State) (cause : Nat) (addr : W64)
  /-- The word holds; the state, that before the word, may note what it waits for. -/
  | hold (s : State)
  /-- The word holds, and no trap is delivered while it does (R361, R290). -/
  | stall (s : State)
  /-- The word takes effect; loop ends are matched (R56). -/
  | next (s : State)
  /-- A taken branch or jump (R47, R56). -/
  | jump (s : State) (target : Nat)
  /-- A skipped loop: the target issues after 3 ac, and loop ends are matched there (R55). -/
  | skip (s : State) (target : Nat)
  /-- The record leaves the partition, or the return from a trap sets the pc itself. -/
  | away (s : State)

/-- What a word needs before its own effect. -/
structure Need where
  words : Nat := 1
  level : Nat := 0
  reads : List (Nat × Bool) := []
  dst : Nat := 0
  ill : Bool := false
  access : Bool := false
  loads : Bool := false
  command : Bool := false

/-- Sets the loops after the end of a body, latest armed first (R56). -/
def matchLoops (priv q : Nat) : List (Nat × Loop) → FMap Loop → FMap Loop × Nat
  | [], m => (m, q)
  | (n, l) :: r, m =>
    if 1 < l.count then (fput m n { l with count := l.count - 1 }, l.start)
    else matchLoops priv q r (fput m n {})

/-- The armed loops that end at `q` at this level, latest armed first. -/
def endingLoops (m : FMap Loop) (priv q : Nat) : List (Nat × Loop) :=
  sortBy (fun a b => decide (b.2.order ≤ a.2.order)) (m.filter fun x => x.2.armed && x.2.stop == q && x.2.level == priv)

/-- Whether a body ends inside the `nw` words at `pc` (R30). -/
def loopCuts (m : FMap Loop) (priv pc nw : Nat) : Bool :=
  m.any fun x => x.2.armed && x.2.level == priv && decide (pc < x.2.stop ∧ x.2.stop < pc + 4 * nw)

/-- Whether a partition holds at a word that nothing ends early: a `bist` or `scan` (R361), or a write of `cr.msways` (R290), whose hold is none of those
before which a pending trap is taken (R369). -/
def holdsFast (s : State) (p : Nat) : Bool := (part s p).testHeld || (quarter s (quarterOf p)).msQueue.contains p

/-- The partition holds at its word until the next ac; a hold at a word whose stop flag counts (`flag`) ends the window of R220. -/
def keepHolding (s : State) (p : Nat) (flag : Bool) : State :=
  modCore (modPart s p fun x => { x with holding := true, windowEnd := if flag && !x.flagIgnored then 0 else x.windowEnd }) (coreOf p)
    fun c => { c with nextIssue := s.time + 1 }

/-- The word holds: the next try is an ac later; a trap that is pending is delivered once no register write is in flight (R369), but not where nothing ends
the hold early. `flag` is the stop flag of the word. -/
def holdWord (s : State) (p : Nat) (flag : Bool) : State :=
  let x := part s p
  if ¬ x.pending.isEmpty ∧ x.flights.isEmpty ∧ ¬ holdsFast s p then deliverPending s p else keepHolding s p flag

/-- The count of R20 after a word. -/
def countFlag (x : Part) (stop : Bool) : Nat := if stop then 0 else x.unflagged + 1

/-- Whether the stop flag of a word is ignored: it found register writes in flight at its first try (R19). -/
def ignoresFlag (x : Part) (h : Hdr) : Bool := if x.holding then x.flagIgnored else h.stop && !x.flights.isEmpty

/-- A flag that is ignored is counted once (R19). -/
def countIgnored (s : State) (h : Hdr) : State :=
  if !(part s s.cur).holding && ignoresFlag (part s s.cur) h then
    modPart s s.cur fun x => { x with flagIgnored := true, stopbad := min (x.stopbad + 1) (2 ^ 32 - 1) }
  else s

/-- The state in which a word's own effect takes place: its reads and its token waits are done (R28, R15), R20's count is kept, and the
hold is over. -/
def readyWord (s : State) (h : Hdr) (regs : FMap (List W64)) (tokens : FMap Nat) : State :=
  { modPart s s.cur (fun x => { x with
      regs := regs, tokens := tokens, unflagged := countFlag x h.stop, holding := false, atHandler := false, flagIgnored := false, holdSince := s.time, waitSeen := 0, replayAt := none, probe := none }) with
    nextSeq := s.nextSeq + 1, curWord := s.nextSeq }

/-- The token posts that a word of the control stream owes (R15). -/
def owedPosts (s : State) (command : Bool) (h : Hdr) : List TokenPost :=
  if !command && (h.sp || h.sn) then [{ seq := s.nextSeq, stream := 0, sp := h.sp, sn := h.sn }] else []

/-- The end of a word that issued at `s` and whose own effect led to `t`: the pc and the loops are set, the core's next word may issue
`cost` ac later, and the tokens of every complete word are posted (R15, R47). -/
def finishWord (s : State) (command : Bool) (h : Hdr) (pc cost : Nat) (loops : FMap Loop) (t : State) : State :=
  postReady (modCore (modPart t s.cur fun x => { x with pc := w64 pc, loops := loops, posts := x.posts ++ owedPosts s command h })
    (coreOf s.cur) fun c => { c with nextIssue := s.time + cost }) s.cur

/-- Where control goes when it reaches the address `q`, and the loops then (R56). -/
def arriveAt (t : State) (p q : Nat) : FMap Loop × Nat :=
  let y := part t p
  matchLoops y.priv q (endingLoops y.loops y.priv q) y.loops

/-- The end of a word after which control reaches `q`. -/
def moveOn (s : State) (command : Bool) (h : Hdr) (q cost : Nat) (t : State) : State :=
  finishWord s command h (arriveAt t s.cur q).2 cost (arriveAt t s.cur q).1 t

/-- The address after `nw` words. -/
def followingPc (s : State) (nw : Nat) : Nat := ((part s s.cur).pc.toNat + 4 * nw) % 2 ^ 64

/-- What becomes of each outcome of a word's own effect. -/
def settleWord (s : State) (i : Instr) (h : Hdr) (n : Need) : WordOut → State
  | .trap cause code addr => trapAt s s.cur i (if n.command then 1 else 0) cause code addr
  | .fail t cause addr => trapAt (countIgnored t h) s.cur i (if n.command then 1 else 0) cause 0 addr
  | .hold t => holdWord (countIgnored t h) s.cur h.stop
  | .stall t => keepHolding (countIgnored t h) s.cur h.stop
  | .next t => moveOn s n.command h (followingPc s n.words) n.words t
  | .skip t q => moveOn s n.command h q (n.words + 2) t
  | .jump t q => finishWord s n.command h q (n.words + 2) (part t s.cur).loops t
  | .away t =>
    postReady (modCore (if (part t s.cur).resident.isSome then modPart t s.cur fun x => { x with posts := x.posts ++ owedPosts s n.command h } else t)
      (coreOf s.cur) fun c => { c with nextIssue := s.time + n.words }) s.cur

/-- Whether a word that could read its registers holds all the same: the stream may not go on past an unposted token (R16), a load waits for
the trap of an earlier one. -/
def holdsAnyway (s : State) (n : Need) : Bool := postHolds s s.cur || (n.loads && (part s s.cur).pending.any fun t => t.src == 2)

/-- The tokens after a word's waits, where they are met (R15); a command waits in its engine (R14). -/
def waitTokens (x : Part) (h : Hdr) (n : Need) : Option (FMap Nat) := if n.command then some x.tokens else takeTokens x.tokens 0 h.wp h.wn

/-- Issues a word (R34, R46, R15, R20, R47, R56): a word withheld by a full side log holds (R301); then the checks in their order, then its
own effect through `body`, which is given the values read and the state after the pops and the token waits. A trap of the checks is taken
also while an unposted token of a completed word holds the stream (DESIGN CHOICE, log entry 92). -/
def issueWord (s : State) (i : Instr) (h : Hdr) (n : Need) (body : List W64 → State → WordOut) : State :=
  let p := s.cur
  let src := if n.command then 1 else 0
  if (part s p).entering.isSome then s
  else if (part s p).priv = 0 ∧ ¬ (core s (coreOf p)).sideHeld.isEmpty then holdWord (countIgnored s h) p h.stop
  else if ¬ h.stop ∧ 63 ≤ (part s p).unflagged then
    (if (part s p).flights.isEmpty then trapAt s p i 0 0x04 0 0 else holdWord s p h.stop)
  else
    let ignored := ignoresFlag (part s p) h
    let s := countIgnored s h
    let x := part s p
    if h.stop ∧ ¬ ignored ∧ ¬ x.pending.isEmpty ∧ ¬ holdsFast s p then deliverPending s p
    else if n.ill || loopCuts x.loops x.priv x.pc.toNat n.words then trapAt s p i src 0x01 0 0
    else if n.access || decide (x.priv < n.level) then trapAt s p i src 0x06 0 0
    else if ¬ holdsFast s p ∧ x.pending.any (fun t => t.src == 2 && n.reads.any fun r => r.1 == t.reg && r.1 != 0) then deliverPending s p
    else
      match takeReads x.regs n.reads with
      | .error r => if x.flights.any (fun f => f.reg == r && interlocked f) then holdWord s p h.stop else trapAt s p i src 0x02 0 0
      | .ok (vals, regs) =>
        if n.dst ≠ 0 ∧ 4 < (fgetD regs n.dst []).length + inFlight x n.dst + 1 then trapAt s p i src 0x03 0 0
        else if holdsAnyway s n then holdWord s p h.stop
        else
          match waitTokens x h n with
          | none => holdWord s p h.stop
          | some tokens => settleWord s i h n (body vals (readyWord s h regs tokens))

/-- The number of the word that is issuing, as `issueWord` gives it. -/
def wordSeq (t : State) : Nat := t.curWord

/-- The register a destination name reaches for the issuing partition. -/
def dstOf (s : State) (d : Reg) : Nat := regIx (part s s.cur).priv d

/-- A read of the issuing partition. -/
def rd (s : State) (r : Reg) (peek : Bool) : Nat × Bool := (regIx (part s s.cur).priv r, peek)

/-- Puts a register write in flight (R45); x0 discards it. -/
def fly (t : State) (d : Reg) (v : FlightVal) : State :=
  let r := dstOf t d
  if r = 0 then t else modPart t t.cur fun x => { x with flights := x.flights ++ [{ seq := wordSeq t, reg := r, val := v }] }

/-- Puts a register write in flight even where x0 discards it: the word is complete only once the value is bound (R15, R75). -/
def fly0 (t : State) (d : Reg) (v : FlightVal) : State :=
  modPart t t.cur fun x => { x with flights := x.flights ++ [{ seq := wordSeq t, reg := dstOf t d, val := v }] }

/-- An exposed write that lands `lat` ac after the issue of the last of `nw` words (R45). -/
def flyExposed (t : State) (d : Reg) (nw lat : Nat) (v : W64) : State := fly t d (.exposed (t.time + (nw - 1) + lat) v)

/-- The issuing word makes an access: what the record of a trap after issue will say of it is kept (R368, R370), and what is kept of words that
are over goes. -/
def noteWord (t : State) (i : Instr) : State :=
  let kept (w : Nat × Nat × Nat) : Bool := !wordDone t t.cur w.1 || t.awaits.any fun a => a.part == t.cur && a.word == w.1
  modPart t t.cur fun x => { x with words := fput (x.words.filter kept) (wordSeq t) (x.pc.toNat, (recWords i).1) }

/-- Issues a word that makes accesses. -/
def accessWord (s : State) (i : Instr) (h : Hdr) (n : Need) (body : List W64 → State → WordOut) : State :=
  issueWord s i h n fun v t => body v (noteWord t i)

end Sys2Proof.Machine
end

