-- ==== Sys2Proof/Machine/Sched.lean ====
section
/-! DEFINITION. Shared operations of the scheduler and the governor: records (R213, R214, R392), who holds the issue (R219 to
R221), leave (R68, R381), the end of records and jobs (R227, R228). -/

namespace Sys2Proof.Machine

/-- Whether the F, V and M queues of a partition are empty and every command taken from them has completed (R14); one whose tokens are still
to be posted is complete (R16). -/
def streamsDrained (s : State) (p : Nat) : Bool :=
  [0, 1, 2].all fun k => (cmdQueue s p k).queued.isEmpty && (cmdQueue s p k).running.all fun r => r.state == .posting

/-- Whether a store of a partition to `hr.cfg` has not taken effect yet (R294). -/
def poolsWritten (s : State) (p : Nat) : Bool := !(hrWords s p).isEmpty

/-- Whether the port of the host die waits: a write of `hr.cfg` that it received has not taken effect, so it is not performed (R255, R294). -/
def hostWaits (s : State) : Bool := poolsWritten s 768

/-- Whether a write of a partition is not performed at device scope: it waits in its store queue or in a side log, for the host die's
acknowledgement, or to take effect (R61, R255, R294). -/
def writesPending (s : State) (p : Nat) : Bool :=
  let x := core s (coreOf p)
  !(part s p).stores.isEmpty || poolsWritten s p || (x.sideLog ++ x.sideHeld).any (fun e => e.ctx.part == p) ||
    s.awaits.any fun a => a.part == p && a.kind == .ack && locOf a.va == .host

/-- Whether a partition has drained for a suspension point (R61). -/
def drained (s : State) (p : Nat) : Bool := streamsDrained s p && !writesPending s p && (part s p).flights.isEmpty

/-- The governor of a leave class: class 2 is granted by quarter 0 alone (R381). -/
def governorOf (q cls : Nat) : Nat := if cls = 2 then 0 else q

/-- The limit of a class under the profile in force (R381). -/
def leaveLimit (s : State) (cls : Nat) : Nat :=
  if cls = 0 then (if s.profile = 0 then 48 else 24) else if cls = 1 then (if s.profile = 0 then 16 else 8) else 1

/-- A grant returns to the governor (R68, R381). -/
def returnLeave (s : State) (q cls : Nat) : State :=
  modQuarter s (governorOf q cls) fun x => { x with granted := fput x.granted cls (fgetD x.granted cls 0 - 1) }

/-- Releases every class a partition holds, through `lvreq` or for a self-test, and withdraws its waiting requests (R61, R68). -/
def releaseLeave (s : State) (p : Nat) : State :=
  let held := (part s p).leave
  let s := [0, 1, 2].foldl (fun s c => if nbit held c then returnLeave s (quarterOf p) c else s) s
  let s := [0, 1, 2].foldl (fun s c => modQuarter s (governorOf (quarterOf p) c) fun x =>
    { x with leaves := x.leaves.filter fun l => !(l.part == p && (l.cmd.isNone || l.cmd == some 0)) }) s
  let s := if (part s p).testLeave then returnLeave s (quarterOf p) 0 else s
  modPart s p fun x => { x with leave := 0, leaveWait := none, testLeave := false }

/-- Leave classes of a command that takes leave itself (R68). -/
def leaveClass (i : Instr) : Option Nat :=
  match i with
  | .mgo .. => some 0
  | .gpoolAuto .. | .gpoolDie .. | .gpoolFar .. | .gscan .. => some 1
  | _ => none

/-- Withdraws the leave request of a command, or returns its grant, when it is discarded or ends (R68). -/
def dropLeave (s : State) (p : Nat) (r : Run) : State :=
  match leaveClass r.cmd.instr with
  | none => s
  | some c =>
    let s := modQuarter s (governorOf (quarterOf p) c) fun x => { x with leaves := x.leaves.filter fun l => l.cmd != some r.cmd.id }
    if r.tookLeave then returnLeave s (quarterOf p) c else s

/-- A trap from the engine (R368, R369): the command ends without its add and its tokens, its queue is frozen, and the trap is
pending. -/
def engineTrap (s : State) (c : Cmd) (cause : Nat) : State :=
  let p := c.ctx.part
  let k := queueOfAgent c.ctx.agent
  let s := match (cmdQueue s p k).running.find? (fun r => r.cmd.id == c.id) with
    | some r => dropLeave s p r
    | none => s
  let s := modQueue s p k fun q => { q with running := q.running.filter (fun r => r.cmd.id != c.id), frozen := true }
  pend s p { cause := cause, queue := k, src := if k < 3 then 3 + k else 6, pc := c.pc, word0 := c.word0, word1 := c.word1, addr := trapAddr c, seq := 0, reg := 0 }

/-- A write of a command fails after the command's own work is done, at its replay (R285, R352): the command ends without its add, and the
trap is raised from its engine. -/
def lateEngineTrap (s : State) (c : Ctx) (id cause : Nat) : State :=
  match (cmdQueue s c.part (queueOfAgent c.agent)).running.find? fun r => r.cmd.id == id with
  | some r => engineTrap s r.cmd cause
  | none =>
    match (core s (coreOf c.part)).epiAdds.find? fun e => e.id == id with
    | some e => engineTrap (modCore s (coreOf c.part) fun x => { x with epiAdds := x.epiAdds.filter fun y => y.id != id }) e.cmd cause
    | none => s

/-- Discards the queued and running commands that a test picks from queue `k` of a partition (R171, R196, R228). -/
def discardCommands (s : State) (p k : Nat) (pick : Cmd → Bool) : State :=
  let s := ((cmdQueue s p k).running.filter fun r => pick r.cmd).foldl (fun s r => dropLeave s p r) s
  modQueue s p k fun q => { q with queued := q.queued.filter (fun c => !pick c), running := q.running.filter fun r => !pick r.cmd }

/-- The candidates' rank for the issue (R219): highest level, then a due window, then the longest time without the issue; of candidates equal
in all three the lower-numbered partition (DESIGN CHOICE, log entry 94). -/
def rankBefore (s : State) (a b : Nat) : Bool :=
  let x := part s a
  let y := part s b
  let lx := match x.resident with | some r => r.level | none => 0
  let ly := match y.resident with | some r => r.level | none => 0
  if lx ≠ ly then decide (ly < lx)
  else if x.due ≠ y.due then x.due
  else decide (x.issueLost ≤ y.issueLost)

/-- The best-ranked of some partitions. -/
def bestOf (s : State) : List Nat → Option Nat
  | [] => none
  | a :: r => match bestOf s r with
    | none => some a
    | some b => if rankBefore s a b then some a else some b

/-- Whether a command pauses between its rows or element pairs while its partition is pre-empted (R93, R136). -/
def pausable (i : Instr) : Bool :=
  match i with
  | .cpy2 .. | .vsect .. | .vtbl .. | .vgelu .. | .vsilu .. | .vsplus .. | .vtanh .. | .vsigm .. | .vexp .. | .vrcp .. | .vrsqrt .. => true
  | _ => false

/-- Whether a started command keeps its engine: it has work to do and is not paused (R110). -/
def Run.unfinished (r : Run) : Bool := match r.state with | .held _ | .waiting | .row => true | _ => false

/-- A partition waits for `cr.msways` no more (R290); an operation that it started goes on for nobody. -/
def leaveMsways (s : State) (p : Nat) : State :=
  modQuarter s (quarterOf p) fun x => { x with
    msQueue := x.msQueue.filter (· != p), mswaysBusy := x.mswaysBusy.map fun b => (if b.1 = p then 768 else b.1, b.2) }

/-- What a partition that has lost the mangle sheds before it resumes at its restart address (R164): its queued F and V commands, and those
that have paused, with nothing more of them performed. The level stays what it was (DESIGN CHOICE, log entry
93). The tokens that completed words of the control stream have not posted for want of room are dropped with the queues' (DESIGN CHOICE, log entry 147). -/
def restartResume (s : State) (p : Nat) : State :=
  let s := [0, 1].foldl (fun s k => modQueue s p k fun q =>
    { q with queued := [], running := q.running.filter fun r => r.state != .paused }) s
  let s := leaveMsways { s with monitors := s.monitors.filter fun m => m.owner != .part p } p
  modPart s p fun x => { x with
    pc := x.restart, msDone := false, lostMangle := false, restarting := true, tokens := [], regs := [], loops := [], monitor := .off, sems := [], unflagged := 0, posts := [],
    holding := false, flagIgnored := false, replayAt := none, probe := none }

/-- Partition `p` takes the issue of its core (R219, R220, R164). -/
def takeIssue (s : State) (p : Nat) : State :=
  let s := modCore s (coreOf p) fun c => { c with issue := some p }
  let s := modPart s p fun x => { x with windowEnd := if x.due then s.time + 256 else 0, due := false, preempted := false, holdSince := s.time - x.holdSince }
  if (part s p).lostMangle then restartResume s p else s

/-- A command between two rows pauses if its partition is pre-empted (R93, R136). -/
def Run.pauseIf (r : Run) (preempted : Bool) : Run := if preempted ∧ r.state = .row then { r with state := .paused } else r

/-- Partition `p` loses the issue (R219, R221); pre-empted, its F and V commands between two rows pause. -/
def loseIssue (s : State) (p : Nat) (preempt : Bool) : State :=
  let s := [0, 1].foldl (fun s k => modQueue s p k fun q => { q with running := q.running.map fun r => r.pauseIf preempt }) s
  modPart s p fun x => { x with issueLost := s.time, windowEnd := 0, preempted := preempt, holding := false, flagIgnored := false, leaveWait := none,
                                holdSince := s.time - x.holdSince }

/-- Whether a partition could issue a word now (R219): the look ahead did not find that its next word holds, a trap entry does not wait, its
words are not withheld (R301). -/
def canIssue (s : State) (p : Nat) : Bool :=
  let x := part s p
  x.resident.isSome && !x.stuck && (x.entering.isNone || x.flights.isEmpty) && !(x.priv == 0 && !(core s (coreOf p)).sideHeld.isEmpty)

/-- When the issuing partition suspends or ends, the best-ranked resident partition takes the issue (R219). -/
def refillIssue (s : State) (c : Nat) : State :=
  let cand := (partsOf c).filter fun p => (part s p).resident.isSome
  match bestOf s (cand.filter (canIssue s)) with
  | some p => takeIssue s p
  | none => match bestOf s cand with
    | some p => takeIssue s p
    | none => modCore s c fun x => { x with issue := none }

/-- A partition holds no record any more (R218, R219). -/
def freePartition (s : State) (p : Nat) : State :=
  let s := modPart s p fun x => { x with
    resident := none, cont := 0, tokens := [], posts := [], holding := false, flagIgnored := false, preempted := false, lostMangle := false, restarting := false,
    due := false, entering := none, fetchSeen := none, reserved := [] }
  if (core s (coreOf p)).issue = some p then refillIssue s (coreOf p) else s

/-- The 64 bytes of a continuation record (R213). -/
def recordBytes (x : Part) (r : Resident) (resume wake dreg : Nat) : List Byte :=
  leBytes 8 (wake + resume % 2 ^ 48 / 4 * 4 + x.asid * 2 ^ 48) ++ leBytes 8 x.workid.toNat ++ leBytes 8 r.job ++
  leBytes 8 (r.base * 2 ^ 35 + dreg * 2 ^ 47 + r.view * 2 ^ 52) ++
  leBytes 8 (fgetD x.carry 0 0).toNat ++ leBytes 8 (fgetD x.carry 1 0).toNat ++ leBytes 8 (fgetD x.carry 2 0).toNat ++ leBytes 8 (fgetD x.carry 3 0).toNat

/-- Writes bytes of a record as a store of the partition, in base memory of its address space (R392). -/
def putRecord (s : State) (p addr : Nat) (bs : List Byte) : State :=
  (sendWrite s { ctxOf s p .control with view := 0 } (addr % 2 ^ 64) (.bytes bs) 0 1 0 none true).1

/-- The record of partition `p` is written and suspended; the partition becomes free (R61, R226). The record has its monitor before its bytes
are written, so that the write itself can fire it (R60, R392). -/
def suspendRecord (s : State) (p resume wakeCode dreg : Nat) (wake : Wake) (tag : Nat) : State :=
  match (part s p).resident with
  | none => s
  | some r =>
    let bs := recordBytes (part s p) r resume wakeCode dreg
    let u : Suspended := { addr := r.addr, tag := tag, ordinal := r.ordinal, job := r.job, asid := (part s p).asid, view := r.view,
                           base := r.base, wake := wake, rival := r.rival, part := p, gleaned := r.gleaned }
    let s := modQuarter s (quarterOf p) fun x => { x with suspended := x.suspended ++ [u] }
    let s := { s with monitors := s.monitors.map fun m => if m.owner = .part p then { m with owner := .record r.addr } else m }
    let s := putRecord s p r.addr bs
    let s := if wake = .ready then recordReady s (quarterOf p) r.addr else s
    freePartition (modPart s p fun x => { x with monitor := .off }) p

/-- One record fewer is outstanding in a job; the records of rivals never count (R227). -/
def recordGone (s : State) (job : Nat) (rival : Bool) : State :=
  if rival then s else modJob s job fun j => { j with live := j.live - 1 }

/-- The record a partition holds ends there: registers, loops and monitor are discarded (R61, R227). The stores that its words have issued are
still performed, its posts are not (R73, R228). It waits for `cr.msways` no more (R290); a self-test that it started runs to its end, and reports to
nobody (DESIGN CHOICE, log entry 137). -/
def endRecord (s : State) (p : Nat) : State :=
  match (part s p).resident with
  | none => s
  | some r =>
    let nobody (c : Core) : Core := { c with testing := c.testing.map fun t => (t.1, if t.2.1 = p then 768 else t.2.1, t.2.2) }
    let s := { s with monitors := s.monitors.filter (fun m => m.owner != .part p), cores := s.cores.map fun c => (c.1, nobody c.2) }
    let s := leaveMsways s p
    let s := modPart s p fun x => { x with
      testHeld := false, testDone := none, replayAt := none, probe := none, regs := [], flights := [], loops := [], monitor := .off, pending := [], stores := x.stores.filter (fun w => match w.item with | .write .. => true | _ => false), ords := [], mark := 0, resumeQueues := [], posts := [],
      queues := x.queues.map fun q => (q.1, { q.2 with frozen := false }) }
    freePartition (recordGone s r.job r.rival) p

/-- The mangle of a core is given up by its holder (R163, R354): nest, accumulators, weight buffer and leave; nothing of it holds on a link tile
queue any more (R322). -/
def clearMangle (s : State) (c : Nat) : State :=
  modCore s c fun x => { x with nest := none, epi := none, acc := [], weights := [], weightType := none, holder := none,
                                links := x.links.map fun l => (l.1, { l.2 with heldSince := none }) }

/-- The commands of a partition that belong to a record of the job are discarded, and its record ends at once, as for a killed
rival (R196, R228). -/
def killResident (s : State) (p : Nat) : State :=
  let stay := match (part s p).resident with | some r => r.stay | none => 0
  let s := [0, 1, 2].foldl (fun s k => discardCommands s p k fun _ => true) s
  let s := [3, 4, 5].foldl (fun s k => discardCommands s p k fun c => c.record == stay) s
  let s := releaseLeave s p
  let s := if (core s (coreOf p)).holder = some p then clearMangle s (coreOf p) else s
  endRecord (modCore s (coreOf p) fun c => { c with epiAdds := c.epiAdds.filter fun e => e.cmd.ctx.part != p }) p

/-- The pool slots of a queue that no record uses (R212). -/
def slotFree (s : State) (q addr : Nat) : Bool :=
  !(quarter s q).suspended.any (fun r => r.addr == addr && !r.rival) &&
    !((List.range 192).any fun i => match (part s (192 * q + i)).resident with | some r => r.addr == addr && !r.rival | none => false)

end Sys2Proof.Machine
end

