-- ==== Sys2Proof/Machine/Jobs.lean ====
section
/-! DEFINITION. Launch packets, jobs, the walker and the levels (R201 to R229): the steps LAUNCH_PACKET to RECORD_PICKUP, SCHED_AGE,
JOB_COMPLETE and CANCEL_REQUEST, over the shared operations they need. -/

namespace Sys2Proof.Machine

/-- The global address of an offset of this device. -/
def globalAddr (q off : Nat) : Nat := Config.device * 2 ^ 48 + q * 2 ^ 46 + off % 2 ^ 46

/-- A pair of source agent and destination device (R312). -/
def pairKey (agent dst : Nat) : Nat := agent % 2 ^ 16 * 2 ^ 16 + dst % 2 ^ 16

/-- The number of the next packet of a pair (R312). -/
def packetNo (s : State) (agent dst : Nat) : Nat := pairKey agent dst * 2 ^ 64 + fgetD s.sentNo (pairKey agent dst) 0

/-- The next number of a pair is used up. -/
def countPacket (s : State) (agent dst : Nat) : State :=
  { s with sentNo := fput s.sentNo (pairKey agent dst) (fgetD s.sentNo (pairKey agent dst) 0 + 1) }

/-- A packet leaves for another device (R310, R312). -/
def sendPacket (s : State) (agent dst : Nat) (b : Payload) : State :=
  let k : Packet := { src := Config.device, agent := agent, seq := packetNo s agent dst, dst := dst, body := b }
  { countPacket s agent dst with packets := s.packets ++ [k] }

/-- The number under which a packet is sent: the address space in which the owner translates it, and the agent. -/
def senderNo (asid no : Nat) : Nat := asid * 2 ^ 16 + no

/-- The number of an agent among the senders of this device: control 0 to exchange 6 of each partition, then the quarters. -/
def agentNo (p : Nat) (a : Agent) : Nat :=
  8 * p + match a with
    | .control => 0 | .fetch => 1 | .vector => 2 | .matrix => 3 | .gleaner => 4 | .darner => 5 | .exchange => 6

/-- Appends one item to the capture log of a job (R378); a full buffer stops the capture. -/
def captureItem (s : State) (job kind n : Nat) (workid : W64) (view ord addr val : Nat) (data : List Byte) : State :=
  match findJob s job with
  | none => s
  | some j =>
    let q := nfld job 46 2
    if j.replay ∨ ¬ nbit (mgetN s q (regJq j.queue 0)) 3 ∨ ¬ s.capture then s else
    let v := mgetN s q (regJq j.queue 4)
    let pos := mgetN s q (regJq j.queue 5)
    let logst := mgetN s q (regJq j.queue 6)
    let bs := leBytes 8 (kind + n * 2 ^ 8) ++ leBytes 8 workid.toNat ++ leBytes 8 (view * 2 ^ 20 + ord * 2 ^ 32) ++ leBytes 8 addr ++
      leBytes 8 val ++ List.replicate 24 0 ++ data
    if nbit logst 0 then s
    else if 2 ^ nfld v 0 6 < pos + bs.length then mset s q (regJq j.queue 6) (w64 (logst ||| 1))
    else mset (physPut s (nfld v 12 36 * 2 ^ 12 + pos) bs) q (regJq j.queue 5) (w64 (pos + bs.length))

/-- The parent of a committed world joins its level once every entry of the outbox has been released and answered (R351). -/
def parentDue (s : State) (parent : Nat) : State :=
  match s.forks.find? fun (f : Fork) => f.parent == parent with
  | some f => if f.winner.isSome ∧ f.waitAcks.isEmpty ∧ f.outbox.isEmpty then
      recordReady { s with forks := s.forks.filter fun (f : Fork) => f.parent != parent } f.quarter parent else s
  | none => s

/-- A released outbox entry of a fork's parent has been answered; the parent joins its level with the last answer (R351). -/
def releaseAnswered (s : State) (parent sq : Nat) (fail : Option Nat) (job : Nat) : State :=
  let view : Nat := ((s.forks.find? fun (f : Fork) => f.parent == parent).bind fun f => (f.rivals.find? fun x => some x.1 == f.winner).map (·.2.1)).getD 0
  let s := match fail with
    | some st => appendError (mbump s (nfld parent 46 2) regRelfail 32) (0x80000000 + nfld parent 46 2 * 2 ^ 26 + view) 2 0x09 (w64 job) (w64 st)
    | none => s
  parentDue { s with forks := s.forks.map fun (f : Fork) => if f.parent = parent then { f with waitAcks := f.waitAcks.erase sq } else f } parent

/-- The job of a suspended record. -/
def jobOfRecord (s : State) (addr : Nat) : Nat :=
  match ((List.range 4).map fun q => (quarter s q).suspended).flatten.find? fun r => r.addr == addr with
  | some r => r.job
  | none => 0

/-- Whether the record of a partition is captured or replayed (R378, R379). -/
def recording (s : State) (p : Nat) : Bool × Bool :=
  match findJob s (jobOf s p) with
  | some j => (!j.replay && s.capture && nbit (mgetN s (nfld j.addr 46 2) (regJq j.queue 0)) 3, j.replay)
  | none => (false, false)

/-- A late answer reaches the register of its word; a captured job logs it (R378). -/
def landAnswer (s : State) (p seq : Nat) (v : W64) : State :=
  let s := match fget (part s p).ords seq with
    | some (ord, addr) => captureItem s (jobOf s p) 2 0 (part s p).workid (viewOf s p) ord addr v.toNat []
    | none => s
  answerFlight s p seq v

/-- The answer to a post, a cancel or an atomic reaches the one who asked: a word of this device, or another device (R82, R103). -/
def answerTo (s : State) (src tag : Nat) (v : W64) : State :=
  if src = Config.device then
    match s.awaits.find? fun a => a.seq == tag with
    | some { kind := .release parent _, .. } =>
      releaseAnswered { s with awaits := dropFirst (fun a => a.seq == tag) s.awaits } parent tag
        (if v = 0 then none else some v.toNat) (jobOfRecord s parent)
    | some { kind := .value p seq 2, .. } => landAnswer { s with awaits := dropFirst (fun a => a.seq == tag) s.awaits } p seq v
    | _ =>
      match s.parts.find? fun x => x.2.flights.any fun f => f.seq == tag with
      | some x => landAnswer s x.1 tag v
      | none => s
  else if src = 0xFFFE then s
  else sendPacket s 0x3001 src (.answer tag v)

/-- The access-control entry that decides for a source and a queue (R225). -/
def aclFind (s : State) (src q n : Nat) : Option Nat :=
  ((List.range 4096).map fun i => mgetN s 0 (regAcl i)).find? fun e =>
    decide (nfld e 16 16 ≤ src ∧ src ≤ nfld e 32 16 ∧ nfld e 14 2 = q ∧ nfld e 8 6 = n)

/-- Check 3 of R207 (R293): every channel of the mask is full width and acknowledged. -/
def channelsOk (s : State) (card : BitVec 1024) : Bool :=
  (List.range 256).all fun i => !nbit (cardFld card 768 256) i ||
    (let v := mgetN s (i / 64) (regCh (i / 16 % 4) (i % 16) 0)
     nfld v 6 2 == 0 && !nbit v 5)

/-- Widths and counts of a card (R206). -/
def cardW (c : BitVec 1024) (j : Nat) : Nat := cardFld c (448 + 5 * j) 5

def cardN (c : BitVec 1024) (j : Nat) : Nat := cardFld c (320 + 16 * j) 16

/-- N (R208). -/
def cardTotal (c : BitVec 1024) : Nat := (List.range 6).foldl (fun a j => a * cardN c j) 1

/-- Whether a launch packet is malformed (check 2 of R207). -/
def cardBad (pk : Nat) (c : BitVec 1024) : Bool :=
  let entry := cardFld c 0 64
  let done := cardFld c 64 64
  let dep (d : Nat) : Bool := d != 0 && (d % 32 != 0 || (localKey d).isNone)
  nfld pk 16 48 != 0 || nfld pk 192 64 != 0 || cardFld c 484 28 != 0 || cardFld c 478 2 != 0 ||
  entry % 4 != 0 || !(entry / 2 ^ 48 == 0xFFFF || entry / 2 ^ 48 == Config.device) ||
  (List.range 6).any (fun j => decide (16 < cardW c j) || decide (2 ^ cardW c j < cardN c j)) ||
  decide (64 < (List.range 6).foldl (fun a j => a + cardW c j) 0) ||
  dep (cardFld c 128 64) || dep (cardFld c 192 64) ||
  (done != 0 && (done % 32 != 0 || locOf done == .host || locOf done == .reserved))

/-- Writes part of an answer at `lp.reply` as a store of the owning quarter (R205). -/
def replyWrite (s : State) (q n asid job reply o : Nat) (bs : List Byte) : State :=
  if reply = 0 ∨ reply % 32 ≠ 0 then s else
  match locOf reply with
  | .host => { s with hostOut := s.hostOut ++ [(reply + o, bs)] }
  | .reserved => s
  | .remote d => sendPacket s (senderNo asid (0x3010 + q)) d (.write (reply + o) bs)
  | .here _ _ =>
    homeWrite s q asid (reply + o) bs 1 job n

/-- Makes a job's completion add of 0 bytes (R209, R227): whether it has been made. -/
def completionAdd (s : State) (j : Job) : State × Bool :=
  let done := cardFld j.card 64 64
  let q := nfld j.addr 46 2
  if done = 0 then (s, true) else
  match locOf done with
  | .remote d => (sendPacket s (senderNo j.asid (0x3010 + q)) d (.add done 0), true)
  | .here _ _ =>
    match performOp s (queueCtx q j.asid) done (.barrierAdd 0) 0 with
    | (s, .ok _) => (s, true)
    | (s, .error (.fault k va)) =>
      (raiseFault s { job := j.addr, va := va, unit := unitJobQueue q j.queue, asid := j.asid, view := 0, acc := 1, kind := k }, false)
    | (s, .error _) => (s, true)
  | _ => (s, true)

/-- Frees a job-table entry (R227); the entry also leaves its level, and another job that takes it is none that a partition has held a record
of (R252). -/
def freeJob (s : State) (addr : Nat) : State :=
  modQuarter { s with cores := s.cores.map fun c => (c.1, { c.2 with roJob := c.2.roJob.filter fun j => j.2 != addr }) } (nfld addr 46 2) fun x => { x with
    jobs := x.jobs.filter (fun j => j.addr != addr), levels := x.levels.filter fun e => e.item != .job addr }

/-- The final status of a job is written, and logged (R205, R378). -/
def finalStatus (s : State) (j : Job) (st : Nat) : State :=
  captureItem (replyWrite s (nfld j.addr 46 2) j.queue j.asid j.addr j.reply.toNat 16 (leBytes 8 st)) j.addr 0x08 0 0 0 0 0 st []

/-- Whether the end of a job holds at a home under test (R361): that of its answer or of its completion barrier. -/
def endTested (s : State) (j : Job) : Bool :=
  let c := queueCtx (nfld j.addr 46 2) j.asid
  let reply := j.reply.toNat
  let done := cardFld j.card 64 64
  (reply != 0 && reply % 32 == 0 && !j.told && waitsHome s c (reply + 16) 8 true) || (done != 0 && waitsHome s c done 32 true)

/-- A job ends: final status, completion add, entry freed (R227); while the add holds, the job keeps its entry. -/
def finishJob (s : State) (j : Job) : State :=
  if endTested s j then modJob s j.addr fun x => { x with phase := .ending, status := j.status } else
  let s := if j.told then s else finalStatus s j j.status
  match completionAdd s j with
  | (s, true) => freeJob s j.addr
  | (s, false) => modJob s j.addr fun x => { x with phase := .ending, status := j.status, told := true, seen := s.retries + 1 }

/-- The addresses of a quarter's job table in use. -/
def jobAddrs (s : State) (q : Nat) : List Nat := (quarter s q).jobs.map fun j => j.addr

/-- The first free entry of queue `n`'s job table (R208); none when the quarter holds 4,096 jobs. Of several free entries a job takes the lowest
(DESIGN CHOICE, log entry 141). -/
def freeEntry (s : State) (q n : Nat) : Option Nat :=
  if 4096 ≤ (quarter s q).jobs.length then none else
  let tab := nfld (mgetN s q (regJq n 1)) 19 27 * 2 ^ 19
  let used := jobAddrs s q
  ((List.range (used.length + 1)).map fun k => globalAddr q (tab + 128 * k)).find? fun a => !used.contains a

/-- Status codes (R69). -/
def stOk : Nat := 0
def stCancelled : Nat := 1
def stLate : Nat := 2
def stShape : Nat := 3
def stChannels : Nat := 4
def stDenied : Nat := 5
def stFaulted : Nat := 6

/-- The acceptance answer of a packet (R205): the reply write, or the poster's status. -/
def answerLaunch (s : State) (q n src tag : Nat) (pk status job : Nat) : State :=
  let reply := nfld pk 64 64
  let asid := nfld (mgetN s q (regJq n 0)) 48 16
  let s := replyWrite s q n asid job reply 0 (leBytes 8 (status + job / 128 * 128) ++ leBytes 8 (nfld pk 128 64))
  answerTo s src tag (w64 status)

/-- The ceiling of the granting entry (R208); a service queue has none. -/
def prioOf (s : State) (q n src prio : Nat) : Nat :=
  if nbit (mgetN s q (regJq n 0)) 1 then prio else
  match aclFind s src q n with
  | some e => min prio (nfld e 5 3)
  | none => prio

/-- The physical base of a queue's log, and its bytes (R388). -/
def logBase (s : State) (q n : Nat) : Nat := nfld (mgetN s q (regJq n 4)) 12 36 * 2 ^ 12

def logSize (s : State) (q n : Nat) : Nat := 2 ^ nfld (mgetN s q (regJq n 4)) 0 6

/-- The card that a replayed log holds: the data of its first item (R378, R379). -/
def loggedCard (s : State) (q n : Nat) : BitVec 1024 := BitVec.ofNat 1024 (leNat (cohBytes s (logBase s q n + 64) 128))

/-- Whether the log of a replayed job holds no item at the job's place in it (R380): items have kinds 1 to 8. -/
def logEnded (s : State) (job : Nat) : Bool :=
  match findJob s job with
  | none => false
  | some j =>
    let q := nfld job 46 2
    j.replay && (decide (logSize s q j.queue ≤ j.logPos) || nfld (leNat (cohBytes s (logBase s q j.queue + j.logPos) 64)) 0 8 == 0)

/-- Performs the logged arrivals and adds that no observing read still to return precedes (R379), up to the item of the job's completion or one
whose home is under test (R361). -/
def replayArrivals (job : Nat) : Nat → State → State
  | 0, s => s
  | k + 1, s =>
    match findJob s job with
    | none => s
    | some j =>
      let q := nfld job 46 2
      let a := logBase s q j.queue + j.logPos
      let h := leNat (cohBytes s a 64)
      let kind := nfld h 0 8
      if ¬ j.replay ∨ logEnded s job ∨ kind = 8 ∨ (kind = 2 ∧ ¬ j.returned.contains j.logPos) then s else
      let va := nfld h 192 64
      let span := if kind = 3 then nfld h 256 64 else 32
      if (kind = 3 ∨ kind = 4) ∧ waitsHome s (queueCtx (nfld va 46 2) j.asid) va span true then s else
      let s := if kind = 3 then (writeVa s (queueCtx (nfld va 46 2) j.asid) va (cohBytes s (a + 64) (nfld h 256 64)) 0).1
        else if kind = 4 then (performOp s (queueCtx (nfld va 46 2) j.asid) va (.barrierAdd (nfld h 256 64)) 0).1
        else s
      let pos := j.logPos + 64 * (1 + nfld h 8 8)
      replayArrivals job k (mset (modJob s job fun j => { j with logPos := pos }) q (regJq j.queue 5) (w64 pos))

/-- Performs the logged arrivals of a job that are due (R379): those before its first observing read when it is accepted. -/
def replayDue (s : State) (job : Nat) : State :=
  match findJob s job with
  | some j => replayArrivals job (logSize s (nfld job 46 2) j.queue / 64) s
  | none => s

/-- A replay of a job has diverged (R380): `jq.logst.div` is set and a record is appended. -/
def noteDivergence (s : State) (j : Job) (addr ord : Nat) : State :=
  let q := nfld j.addr 46 2
  appendError (mset s q (regJq j.queue 6) (mget s q (regJq j.queue 6) ||| 2)) (unitJobQueue q j.queue) 2 0x0A (w64 addr) (w64 ord)

/-- A job ends with its status (R227), FAULTED where it is replayed and its log has ended before it (R380); the error record of that end, which no read
meets, shows address 0 and ordinal 0 (DESIGN CHOICE, log entry 167). -/
def closeJob (s : State) (j : Job) : State :=
  if j.phase ≠ .ending ∧ j.status = stOk ∧ logEnded s j.addr then finishJob (noteDivergence s j 0 0) { j with status := stFaulted } else finishJob s j

/-- Accepts a packet into entry `addr` (R208, R209): the job waits for its dependences, or completes at once when it is empty. A card that meets a page
without a valid mapping, or that may not be written, is not written, and nobody is told (DESIGN CHOICE, log entry 142). -/
def acceptPacket (s : State) (q n src tag pk addr : Nat) : State :=
  let cfg := mgetN s q (regJq n 0)
  let card := if nbit cfg 4 then loggedCard s q n else BitVec.ofNat 1024 (pk / 2 ^ 256)
  let j : Job := {
    addr := addr, queue := n, card := card, reply := w64 (nfld pk 64 64), tag := w64 (nfld pk 128 64), src := src,
    prio := prioOf s q n src (cardFld card 480 3), asid := nfld cfg 48 16, service := nbit cfg 1, phase := .waiting, handed := 0, live := 0,
    status := stOk, seen := 0, replay := nbit cfg 4, logPos := 0, returned := [] }
  let s := modQuarter s q fun x => { x with jobs := x.jobs ++ [j] }
  let s := homeWrite s q j.asid addr (leBytes 128 (nset card.toNat 480 3 j.prio)) 0 addr n
  let s := answerLaunch s q n src tag pk stOk addr
  let s := replayDue (captureItem s addr 0x01 2 0 0 0 0 0 (leBytes 128 card.toNat)) addr
  if cardTotal card ≠ 0 then testJob s j else
  match findJob s addr with
  | some j => closeJob s j
  | none => s

/-- A queue takes a packet and checks it (R207): refused, accepted, or held while the job table is full: behind those that are held, or, one that
stood there already, in its `place`. -/
def takePacket (s : State) (q n src tag : Nat) (bs : List Byte) (place : Nat := (quarter s q).held.length) : State :=
  let pk := nset (leNat bs) 0 16 src
  let cfg := mgetN s q (regJq n 0)
  let card := if nbit cfg 4 then loggedCard s q n else BitVec.ofNat 1024 (pk / 2 ^ 256)
  let svc := nbit cfg 1
  let denied := !nbit cfg 0 || (if svc then src != 0xFFFE else match aclFind s src q n with | some e => !nbit e 3 | none => true)
  if denied then answerLaunch s q n src tag pk stDenied 0
  else if cardBad pk card then answerLaunch s q n src tag pk stShape 0
  else if ¬ channelsOk s card then answerLaunch s q n src tag pk stChannels 0
  else
    match freeEntry s q n with
    | some a => acceptPacket s q n src tag pk a
    | none =>
      let h : HeldPacket := { checked := true, queue := n, src := src, tag := tag, bytes := leBytes 160 pk }
      modQuarter s q fun x => { x with held := x.held.take place ++ h :: x.held.drop place }

/-- This device's group and member (R5). -/
def ownGroup : Nat := Config.device / 32

def ownMember : Nat := Config.device % 32

/-- The local link to a member of the own group (R309). -/
def linkTo (m : Nat) : Nat := 48 + (m + 31 - ownMember) % 32

/-- Whether a port's reachability mask holds a group (R319); the own group's bit is ignored. -/
def reaches (s : State) (p g : Nat) : Bool := g != ownGroup && nbit (mgetN s 0 (regReach p (g / 64))) (g % 64)

/-- The link by which a device's packets come in: its local link, or the lowest global port that reaches its group; which one a packet of
another group takes is not given (DESIGN CHOICE, log entry 105). -/
def linkFrom (s : State) (src : Nat) : Option Nat :=
  if src / 32 = ownGroup then some (linkTo (src % 32)) else (List.range 48).find? fun p => reaches s p (src / 32)

/-- Whether some of the packets that wait came before one of the same window and fabric link, so that the link carries that one only later (R207, R324). -/
def behind (s : State) (waiting : List HeldPacket) (n src : Nat) : Bool :=
  src != Config.device && src != 0xFFFE &&
    waiting.any fun h => h.queue == n && h.src != Config.device && h.src != 0xFFFE && linkFrom s h.src == linkFrom s src

/-- Whether a packet that reaches its window must wait behind an earlier one there (R207). -/
def stalled (s : State) (q n src : Nat) : Bool := behind s (quarter s q).held n src

/-- A packet reaches its window: it waits behind an earlier one of its link, or is taken (R207). -/
def windowTakes (s : State) (q n src tag : Nat) (bs : List Byte) : State :=
  if stalled s q n src then
    modQuarter s q fun x => { x with held := x.held ++ [{ checked := false, queue := n, src := src, tag := tag, bytes := bs }] }
  else takePacket s q n src tag bs

/-- A 160-byte packet lands at an address (R203, R104): at offset 0 of a job-queue window it is taken; elsewhere an `lpost`
packet is answered ACCESS_DENIED and a write of the host die is counted and discarded. -/
def packetAt (s : State) (va src tag : Nat) (bs : List Byte) : State :=
  match locOf va with
  | .here q off =>
    match spotOf s q off with
    | .jobWindow n 0 => if bs.length = 160 then windowTakes s q n src tag bs else countDiscard s q n
    | .jobWindow n _ => if src = 0xFFFE then countDiscard s q n else answerTo s src tag (w64 stDenied)
    | _ => answerTo s src tag (w64 stDenied)
  | _ => s

/-- The oldest held packet of a quarter that can move, with its place: one that passed its checks, once an entry of the job table is free for it, and one that
stood behind another of its window and link, once that one is gone; other windows and links are not held (R207). -/
def nextHeld (s : State) (q : Nat) : Option (HeldPacket × Nat) :=
  (quarter s q).held.zipIdx.find? fun x =>
    if x.1.checked then (freeEntry s q x.1.queue).isSome else !behind s ((quarter s q).held.take x.2) x.1.queue x.1.src

/-- The oldest held packet that can move is accepted, or, where it stood behind another, meets its checks (R207, R208). -/
def acceptHeld (s : State) (q : Nat) : State :=
  match nextHeld s q with
  | none => s
  | some (h, i) =>
    let t := modQuarter s q fun x => { x with held := x.held.eraseIdx i }
    if ¬ h.checked then takePacket t q h.queue h.src h.tag h.bytes i else
    match freeEntry s q h.queue with
    | some a => acceptPacket t q h.queue h.src h.tag (leNat h.bytes) a
    | none => s

/-- A packet held for a full job table is accepted once an entry frees (R207, R208). -/
def execLaunchAccept (q : Nat) (s : State) : Host.Outcome State Fault Refusal := .next (acceptHeld s q)

/-- The suspended record that a partition holds for, with its level, while the record's bytes cannot be read (R392). -/
def pickingNow (s : State) (p : Nat) : Option (Suspended × Nat) :=
  match (part s p).picking with
  | some (a, lvl) => ((quarter s (quarterOf p)).suspended.find? fun r => r.addr == a).map fun u => (u, lvl)
  | none => none

/-- Whether a partition holds no record (R218). -/
def isFree (s : State) (p : Nat) : Bool := (part s p).resident.isNone && (pickingNow s p).isNone

/-- The free partitions of a core. -/
def freeParts (s : State) (c : Nat) : List Nat := (partsOf c).filter (isFree s)

/-- Whether new placements avoid a core (R218, R71). -/
def coreHeld (s : State) (c : Nat) : Bool :=
  !(core s c).sideHeld.isEmpty || nbit (mgetN s (c / 48) regCdis) (c % 48) || (core s c).testing.isSome

/-- The level of a core's issuing partition. -/
def issueLevel (s : State) (c : Nat) : Nat :=
  match (core s c).issue with
  | some p => match (part s p).resident with | some r => r.level | none => 0
  | none => 0

/-- The partition that a served entry of a quarter goes to (R218); of the chosen core's free partitions the lowest-numbered (DESIGN CHOICE,
log entry 102). -/
def placeOn (s : State) (q : Nat) : Option Nat :=
  let cand := ((List.range 48).map fun i => 48 * q + i).filter fun c => !coreHeld s c && !(freeParts s c).isEmpty
  let idle := cand.find? fun c => (partsOf c).all (isFree s)
  let best := cand.foldl (fun (a : Option Nat) c => match a with
    | none => some c
    | some b => if issueLevel s c < issueLevel s b then some c else some b) none
  match (match idle with | some c => some c | none => best) with
  | some c => (freeParts s c).head?
  | none => none

/-- The address of the lowest free slot of a job's record pool (R212; of several free ones which, DESIGN CHOICE, log entry 141). -/
def freeSlot (s : State) (j : Job) : Option Nat :=
  let q := nfld j.addr 46 2
  let base := nfld (mgetN s q (regJq j.queue 2)) 6 40 * 64
  let n := nfld (mgetN s q (regJq j.queue 3)) 0 32
  let used := (quarter s q).suspended.length + 193
  ((List.range (min n used)).map fun k => recKey j.asid (globalAddr q (base + 64 * k))).find? fun a => slotFree s q a

/-- Whether an entry of a level can be placed, given a partition (R212, R216, R382). -/
def servable (s : State) (e : LevelEntry) : Bool :=
  match e.item with
  | .record _ => true
  | .job a => !s.opBusy && match findJob s a with
    | some j => (freeSlot s j).isSome && (j.phase == .ready || j.phase == .dispatched) && j.status == stOk
    | none => false

/-- The entry a quarter serves next: the first that can be placed on the highest level that has one (R216, R222). -/
def nextEntry (s : State) (q : Nat) : Option LevelEntry :=
  ((quarter s q).levels.filter (servable s)).foldl (fun (a : Option LevelEntry) e => match a with
    | none => some e
    | some b => if b.level < e.level then some e else some b) none

/-- The state of a partition that picks up a record (R63, R106, R140, R100, R14), before the record's own fields. The mailboxes that a launch does not load
keep their values, and the older ones for reads of the ac of a write (R59). -/
def cleared (s : State) (p : Nat) (seed : W64) (level : Nat) : Part :=
  let x := part s p
  let q := quarterOf p
  { resident := none, mailboxes := x.mailboxes, mbWritten := x.mbWritten.filter (4 ≤ ·.1), stopbad := x.stopbad, operandQueues := x.operandQueues, stores := x.stores,
    queues := x.queues.filter (fun k => 3 ≤ k.1), seed := seed, priv := level,
    tvec := w64 (mgetN s q regTvec / 4 * 4),
    trec := w64 (nfld (mgetN s q regTrec) 14 34 * 2 ^ 14 + 64 * (4 * (coreOf p % 48) + p % 4)),
    holdSince := 0, issueLost := s.time }

/-- mb0 to mb3 are loaded from the card of the job's entry (R212, R215). -/
def loadMailboxes (m : FMap W64) (c : BitVec 1024) : FMap W64 :=
  [0, 1, 2, 3].foldl (fun m k => fput m k (w64 (cardFld c (512 + 64 * k) 64))) m

/-- A record becomes resident: the core's read-only path is emptied when the job changes, and an idle core issues for it at
once (R218, R252). -/
def makeResident (s : State) (p : Nat) (x : Part) (r : Resident) : State :=
  let c := coreOf p
  let idle := (partsOf c).all fun p => (part s p).resident.isNone
  let s := modCore s c fun k =>
    { k with roCopies := if fget k.roJob p = some r.job then k.roCopies else [], roJob := fput k.roJob p r.job }
  let s := setPart { s with nextSeq := s.nextSeq + 1 } p { x with resident := some { r with stay := s.nextSeq } }
  if idle then takeIssue (modCore s c fun k => { k with nextIssue := max k.nextIssue s.time }) p else s

/-- The index of field `j` in iteration `k` of a card (R211). -/
def walkIndex (c : BitVec 1024) (k j : Nat) : Nat :=
  let inner := if nbit (cardFld c 480 4) 3 then (List.range 6).filter (fun i => decide (j < i)) else List.range j
  k / inner.foldl (fun a i => a * cardN c i) 1 % cardN c j

/-- The work identifier of iteration `k` (R210). -/
def workidOf (c : BitVec 1024) (k : Nat) : Nat :=
  (List.range 6).foldl (fun a j => a + walkIndex c k j * 2 ^ ((List.range j).foldl (fun o i => o + cardW c i) 0)) 0

/-- Hands one iteration of a dispatched job to partition `p` with pool slot `slot` (R212). -/
def handOut (s : State) (j : Job) (p slot level : Nat) : State :=
  let x := cleared s p (w64 (cardFld j.card 416 32)) (if j.service then 2 else 0)
  let regs : FMap (List W64) := (List.range 6).map fun i => (i + 1, [w64 (walkIndex j.card j.handed i)])
  let x := { x with regs := regs, cont := w64 slot, workid := w64 (workidOf j.card j.handed), asid := j.asid, pc := w64 (cardFld j.card 0 64),
                    mailboxes := loadMailboxes x.mailboxes j.card }
  let s := makeResident s p x { addr := slot, job := j.addr, view := 0, level := level, base := j.prio, rival := false, ordinal := 0, stay := 0 }
  let s := modJob s j.addr fun j => { j with handed := j.handed + 1, live := j.live + 1 }
  let q := nfld j.addr 46 2
  let s := modQuarter s q fun y => { y with levels := y.levels.filter fun e => e.item != .job j.addr }
  if j.handed + 1 < cardTotal j.card then joinLevel s q j.prio (.job j.addr) else s

/-- A ready job is dispatched with the hand-out of its first iteration; the channel check is repeated at that moment (R224). -/
def dispatchJob (s : State) (q job : Nat) : State :=
  match nextEntry s q, placeOn s q with
  | some e, some p =>
    if e.item ≠ .job job then s else
    match findJob s job with
    | some j =>
      if j.phase ≠ .ready then s
      else if channelsOk s j.card then
        (match freeSlot s j with
         | some slot => handOut (modJob s job fun j => { j with phase := .dispatched }) j p slot e.level
         | none => s)
      else freeJob (finalStatus s j stChannels) job
    | none => s
  | _, _ => s

/-- A ready job dispatches with its first hand-out (R224). -/
def execJobDispatch (q job : Nat) (s : State) : Host.Outcome State Fault Refusal := .next (dispatchJob s q job)

/-- The walker hands out the next iteration of the served job (R211, R212, R216). -/
def handOutNext (s : State) (q : Nat) : State :=
  match nextEntry s q, placeOn s q with
  | some e, some p =>
    match e.item with
    | .job a =>
      match findJob s a with
      | some j => if j.phase = .dispatched then (match freeSlot s j with | some slot => handOut s j p slot e.level | none => s) else s
      | none => s
    | .record _ => s
  | _, _ => s

/-- The walker hands out the next iteration into a free partition (R212). -/
def execIterationHandout (q : Nat) (s : State) : Host.Outcome State Fault Refusal := .next (handOutNext s q)

/-- A partition picks up a ready record from its bytes (R215, R214, R63, R392), at the level of its job's queue (R63, R359). The write that
clears `cont.dreg` writes the reserved bits as zero (R10). When the bytes cannot be read, the partition is
taken and holds until the page is mapped. A home under test leaves the record where it is (R361). -/
def pickUp (s : State) (q : Nat) (u : Suspended) (p level : Nat) : State :=
  let ctx : Ctx := { part := p, agent := .control, asid := u.asid, view := 0, job := u.job }
  if waitsHome s ctx (u.addr % 2 ^ 64) 64 false then s else
  match readVa s ctx (u.addr % 2 ^ 64) 64 0 with
  | (s, .error e) =>
    let va := match e with | .fault _ va => va | _ => u.addr % 2 ^ 64
    raiseFault (modPart (modQuarter s q fun y => { y with
        suspended := replaceFirst (fun r => r.addr == u.addr) (fun r => { r with seen := s.retries + 1 }) y.suspended,
        levels := y.levels.filter fun e => e.item != .record u.addr }) p fun x => { x with picking := some (u.addr, level) }) { job := u.job, va := va, unit := unitPart p, asid := u.asid, view := u.view, acc := 2, kind := 0 }
  | (s, .ok bs) =>
    let v := leNat bs
    let job := nfld v 128 64
    let card := match findJob s job with | some j => j.card | none => 0
    let service := match findJob s job with | some j => j.service | none => false
    let x := cleared s p (w64 (cardFld card 416 32)) (if service then 2 else 0)
    let dreg := nfld v 239 5
    let dval := w64 (nfld v 230 8 + nfld v 238 1 * 2 ^ 63)
    let x := { x with
      carry := [0, 1, 2, 3].map fun k => (k, w64 (nfld v (256 + 64 * k) 64)),
      cont := w64 u.addr, workid := w64 (nfld v 64 64), asid := nfld v 48 16, pc := w64 (0xFFFF * 2 ^ 48 + nfld v 2 46 * 4),
      mailboxes := loadMailboxes x.mailboxes card, regs := if dreg = 0 then [] else [(dreg, [dval])] }
    let s := modQuarter s q fun y => { y with
      suspended := y.suspended.filter (fun r => r.addr != u.addr), levels := y.levels.filter fun e => e.item != .record u.addr }
    let s := makeResident s p x
      { addr := u.addr, job := job, view := nfld v 244 12, level := level, base := nfld v 227 3, rival := u.rival, ordinal := u.ordinal, stay := 0, gleaned := u.gleaned }
    if dreg = 0 then s else putRecord s p (u.addr + 24) (leBytes 8 (nset (nfld v 227 29 * 2 ^ 35) 47 5 0))

/-- The partitions of a quarter that hold for a record whose bytes could not be read, and may try again (R392, R372). -/
def pickUpAgain (s : State) (q : Nat) : Option (Suspended × Nat × Nat) :=
  (s.parts.filterMap fun x => if quarterOf x.1 = q then
    (match pickingNow s x.1 with
     | some (u, lvl) => if u.seen ≤ s.retries then some (u, x.1, lvl) else none
     | none => none) else none).head?

/-- A free partition picks up the ready record that its quarter serves next (R215, R216, R218); one that holds for a record tries
again after a retry signal. -/
def pickUpNext (s : State) (q : Nat) : State :=
  match pickUpAgain s q with
  | some (u, p, lvl) => pickUp s q u p lvl
  | none =>
    match nextEntry s q, placeOn s q with
    | some e, some p =>
      match e.item with
      | .record a => match (quarter s q).suspended.find? (fun r => r.addr == a) with
        | some u => pickUp s q u p e.level
        | none => s
      | .job _ => s
    | _, _ => s

/-- A free partition picks up a ready continuation record (R215). -/
def execRecordPickup (q : Nat) (s : State) : Host.Outcome State Fault Refusal := .next (pickUpNext s q)

/-- ac in a microsecond (R2): one ac is 0.8 ns. -/
def acPerUs : Nat := 1250

/-- The first entry below level 7 that has waited longer than `sched.age` moves up (R217). -/
def ageLevels (s : State) (q : Nat) : State :=
  let age := mgetN s q regAge * acPerUs
  match (quarter s q).levels.find? fun e => decide (e.level < 7 ∧ e.since + age < s.time) with
  | some e => joinLevel (modQuarter s q fun x => { x with levels := dropFirst (· == e) x.levels }) q (e.level + 1) e.item
  | none => s

/-- An entry that has waited `sched.age` microseconds moves up one level (R217). -/
def execSchedAge (q : Nat) (s : State) : Host.Outcome State Fault Refusal := .next (ageLevels s q)

/-- Whether a command of the job is queued or running in a table-engine queue (R171, R227). -/
def tableWork (s : State) (job : Nat) : Bool :=
  s.parts.any fun x => x.2.queues.any fun k => decide (3 ≤ k.1) &&
    (k.2.queued.any (fun c => c.ctx.job == job) || k.2.running.any fun r => r.cmd.ctx.job == job)

/-- Whether a write that a record of the job has left behind is not performed at device scope (R249): one of a record that was ended early is performed as it
would have been (R228), from its store queue, at the host die, or in `hr.cfg` once that takes effect. -/
def writesLeft (s : State) (job : Nat) : Bool :=
  s.parts.any (fun x => x.2.stores.any fun w => w.ctx.job == job) ||
    s.awaits.any (fun a => a.job == job && locOf a.va == .host) ||
    (List.range 4).any fun q => (quarter s q).hrPending.isSome && (quarter s q).hrWriters.any fun w => w.1 < 768 && w.2.2 == job

/-- Whether a job may complete (R227): every iteration handed out, or the job ended by the runtime (R228); its flip comes after every write of its records
and of their table-engine commands (R249). -/
def jobMayEnd (s : State) (j : Job) : Bool :=
  (j.phase == .ending && decide (j.seen ≤ s.retries)) ||
  (((j.phase == .dispatched && decide (cardTotal j.card ≤ j.handed)) || (j.status == stFaulted && j.phase != .ending)) && j.live == 0 && !tableWork s j.addr &&
    !writesLeft s j.addr)

/-- Once all records and pushed commands are done, the job completes (R227); one that is replayed and whose log has ended before, FAULTED
(R380). -/
def completeJob (s : State) (_q job : Nat) : State :=
  match findJob s job with
  | some j => if jobMayEnd s j then closeJob s j else s
  | none => s

/-- The job writes its status and makes its completion add (R227). -/
def execJobComplete (q job : Nat) (s : State) : Host.Outcome State Fault Refusal := .next (completeJob s q job)

/-- What a cancel finds (R229): the state after it, and its answer. -/
def cancelJob (s : State) (src a : Nat) : State × Nat :=
  match localKey a with
  | none => (s, stLate)
  | some k =>
    let job := Config.device * 2 ^ 48 + k
    match findJob s job with
    | none => (s, stLate)
    | some j =>
      let q := nfld job 46 2
      match aclFind s src q j.queue with
      | none => (s, stDenied)
      | some e =>
        if ¬ nbit e 4 then (s, stDenied)
        else if j.phase = .waiting ∨ j.phase = .ready then
          (freeJob (finalStatus s j stCancelled) job, stCancelled)
        else (s, stLate)

end Sys2Proof.Machine
end

