-- ==== Sys2Proof/Machine/Fabric.lean ====
section
/-! DEFINITION. The fabric and the Ethernet (R309 to R332, R390): routing, arrivals, acknowledgements and answers, request
queues, multicast, Ethernet arrivals, link events. -/

namespace Sys2Proof.Machine

/-- Whether a router port has an up link (R309, R331): global port p is port p, local link k is port 48 + k. -/
def portUp (s : State) (p : Nat) : Bool :=
  let st := nfld (mgetN s 0 (if p < 48 then regLink 1 p 0 else regLink 0 (p - 48) 0)) 0 3
  st == 2 || st == 3

/-- The up ports that lead towards a device (R311, R313). -/
def leadsTo (s : State) (dst : Nat) : List Nat :=
  if dst / 32 = ownGroup then
    (linkTo (dst % 32) :: (List.range 31).map (48 + ·)).filter (portUp s)
  else (List.range 79).filter fun p => portUp s p && reaches s p (dst / 32)

/-- Whether a packet may leave on a port (R311): one that came in through a global port goes on within its new group only, and no packet makes
a third global hop. -/
def mayLeave (k : Packet) (p : Nat) : Bool :=
  decide (48 ≤ p) || (decide (k.hops < 2) && (match k.port with | some i => decide (48 ≤ i) | none => true))

/-- The port a unicast packet takes (R311): the default route, or another up port where the router routes adaptively. -/
def routePort (s : State) (k : Packet) (adapt : Option Nat) : Option Nat :=
  match (leadsTo s k.dst).filter (mayLeave k) with
  | [] => none
  | p :: _ => match adapt with
    | some a => if a < 79 ∧ portUp s a ∧ mayLeave k a then some a else some p
    | none => some p

/-- A dropped packet is counted and recorded (R313, R374, R390). -/
def recordLost (s : State) (addr dst : Nat) : State :=
  appendError (mbump s 0 regFabLost 32) 0xA0000000 2 0x08 (w64 addr) (w64 dst)

/-- The address that a multicast packet is for: its block's, or its barrier's in the packet of an add, which has no bytes (R320). -/
def castAddr (va bar : Nat) (bs : List Byte) : Nat := if bs.isEmpty then bar else va

/-- An address with its device field replaced (R102). -/
def onDevice (dev va : Nat) : Nat := dev * 2 ^ 48 + va % 2 ^ 48

/-- The address a packet is for; that of a tile, a bind or a credit, which name none, is 0 (DESIGN CHOICE, log entry 160). -/
def payloadAddr : Payload → Nat
  | .write va _ | .add va _ | .barrier va _ _ | .atomic va _ _ _ | .monitor va _ | .record va _ | .launch va _ => va
  | .cancel job => job
  | .multicast _ _ _ _ va bar bs => castAddr va bar bs
  | _ => 0

/-- A link tile queue fails (R323). -/
def failLink (s : State) (c n : Nat) : State :=
  modCore s c fun x => { x with links := fput x.links n { fgetD x.links n {} with failed := true } }

/-- The core and link tile queue that sent a packet of this number (R312). -/
def linkSender (s : State) (sq : Nat) : Option (Nat × Nat) :=
  (s.cores.flatMap fun c => (c.2.links.filter fun l => l.2.sent.any fun x => decide (x.1 ≤ sq ∧ sq < x.1 + x.2)).map fun l => (c.1, l.1)).head?

/-- An acknowledgement returns (R254), or returns marked lost (R313): for a packet of a link tile queue, that queue fails (R323).
A released store that is dropped has no status, and its error record shows 0 (DESIGN CHOICE, log entry 163). -/
def ackArrives (s : State) (sq : Nat) (lost : Bool) : State :=
  match s.awaits.find? fun a => a.seq == sq with
  | none => if ¬ lost then s else (match linkSender s sq with | some x => failLink s x.1 x.2 | none => s)
  | some a =>
    let s := { s with awaits := dropFirst (fun a => a.seq == sq) s.awaits }
    match a.kind with
    | .cmd p k id => if ¬ lost then s else
      let ids := id :: ((core s (coreOf p)).epiAdds.filter fun e => e.id == id).map fun e => e.cmd.id
      let s := modQueue s p k fun q => { q with running := q.running.map fun r => if ids.contains r.cmd.id then { r with lost := true } else r }
      modCore s (coreOf p) fun c => { c with epiAdds := c.epiAdds.map fun e => if e.id = id then { e with lost := true } else e }
    | .release parent _ => releaseAnswered s parent sq (if lost then some 0 else none) (jobOfRecord s parent)
    | .atHome => postReady s a.part
    | .ack => (match fget (part s a.part).answers a.word with | some v => landAnswer (modPart s a.part fun x => { x with answers := fdel x.answers a.word }) a.part a.word v | none => s)
    | _ => s

/-- An acknowledgement returns to the issuing core (R254). -/
def execFabricAck (sq : Nat) (lost : Bool) (s : State) : Host.Outcome State Fault Refusal := .next (ackArrives s sq lost)

/-- The register of a word's write in flight. -/
def flightReg (s : State) (p seq : Nat) : Nat := match (part s p).flights.find? fun f => f.seq == seq with | some f => f.reg | none => 0

/-- A control access fails after issue: its register write is cancelled and the trap is pending, with the pc and the words of the word that made
the access (R368, R370). The word is complete then: it makes its token posts all the same (DESIGN CHOICE, log entry 130). -/
def lateFail (s : State) (p seq cause va : Nat) : State :=
  let w := fgetD (part s p).words seq ((part s p).pc.toNat, 0)
  let t := pend (cancelFlight s p seq) p
    { cause := cause, queue := 6, src := 2, pc := w.1, word0 := w.2, word1 := 0, addr := w64 va, seq := seq, reg := flightReg s p seq }
  postReady t p

/-- An answering write lands at the issuer (R82, R103, R247), or its packet was dropped (R313). -/
def answerArrives (s : State) (sq : Nat) (lost : Bool) (v : W64) : State :=
  match s.awaits.find? fun a => a.seq == sq with
  | none => s
  | some a =>
    let s := { s with awaits := dropFirst (fun a => a.seq == sq) s.awaits }
    match a.kind with
    | .value p seq kind =>
      if kind = 2 then landAnswer s p seq (if lost then w64 stDenied else v)
      else if lost then lateFail (modPart s p fun x => if x.monitor = .armedRemote sq then { x with monitor := .off } else x) p seq 0x0E a.va
      else
        let s := if kind = 1 ∧ (part s p).monitor = .armedRemote sq ∧ fgetD (part s p).answers sq 0 ≠ v then
            modPart s p fun x => { x with monitor := .off } else s
        landAnswer (modPart s p fun x => { x with answers := fdel x.answers sq }) p seq v
    | .probe p => modPart s p fun x => if x.probe = some (sq, none) then { x with probe := if lost then none else some (sq, some v) } else x
    | .release parent _ =>
      let st := if lost then stDenied else v.toNat
      releaseAnswered s parent sq (if st = stOk then none else some st) (jobOfRecord s parent)
    | _ => s

/-- An answering write lands at the issuer (R82). -/
def execFabricAnswerWrite (sq : Nat) (lost : Bool) (val : W64) (s : State) : Host.Outcome State Fault Refusal :=
  .next (answerArrives s sq lost val)

/-- A lost acknowledgement reaches the issuer: this device, or another (R313). -/
def lostAck (s : State) (src sq : Nat) : State := if src = Config.device then ackArrives s sq true else sendPacket s 0x3002 src (.ack sq true)

/-- A packet for an unreachable destination is dropped, and its issuer, on this device or another, meets the outcome of R313. -/
def dropPacket (s : State) (k : Packet) : State :=
  let s := recordLost s (match k.body with | .multicast .. => onDevice k.dst (payloadAddr k.body) | b => payloadAddr b) k.dst
  let own := k.src == Config.device
  match k.body with
  | .write .. | .add .. | .barrier .. | .tile .. | .credit .. | .bind .. => lostAck s k.src k.seq
  | .multicast nums .. => (match nums.find? fun n => n.1 == k.dst with | some n => lostAck s k.src n.2 | none => s)
  | .atomic .. | .monitor .. => if own then answerArrives s k.seq true 0 else sendPacket s 0x3002 k.src (.answerLost k.seq)
  | .record .. | .launch .. | .cancel .. => if own then answerArrives s k.seq true 0 else sendPacket s 0x3002 k.src (.answer k.seq (w64 stDenied))
  | _ => s

/-- A router forwards the oldest packet (R311), or drops it (R313). -/
def routeOne (s : State) (adapt : Option Nat) : State :=
  match s.packets with
  | [] => s
  | k :: r =>
    let s := { s with packets := r }
    match routePort s k adapt with
    | some p => { s with wire := s.wire ++ [(p, { k with hops := k.hops + if p < 48 then 1 else 0, port := none })] }
    | none => dropPacket s k

/-- A packet of another device enters this one's router to cross it (R309, R311). -/
def crossOver (s : State) (k : Packet) : State :=
  if k.src = Config.device ∨ k.dst = Config.device ∨ k.port.isNone then s else { s with packets := s.packets ++ [k] }

/-- A router forwards a unicast packet on a local or global port (R311). -/
def execRoutePacket (adapt : Option Nat) (s : State) : Host.Outcome State Fault Refusal := .next (routeOne s adapt)

/-- The context of an access that arrives from the fabric. -/
def arrivalCtx (agent va : Nat) : Ctx := queueCtx (nfld va 46 2) (agent / 2 ^ 16)

/-- An arriving packet whose translation fails (R390). -/
def arrivalFails (s : State) (agent va acc kind : Nat) : State :=
  raiseFault (recordLost s va Config.device)
    { job := 0, va := va, unit := 0xA0000000, asid := agent / 2 ^ 16, view := 0, acc := acc, kind := kind }

/-- A packet of another device is performed only in the sequence of its pair of source agent and destination (R312, R254): one whose number
is not above the last performed does nothing. -/
def inOrder (s : State) (src agent sq : Nat) (f : State → State) : State :=
  let key := pairKey agent src
  if sq % 2 ^ 64 < fgetD s.arrivedNo key 0 then s else f { s with arrivedNo := fput s.arrivedNo key (sq % 2 ^ 64 + 1) }

/-- A packet whose access holds at a home under test stays there: it is as yet unperformed (R361). -/
def unlessHeld (s : State) (agent va n : Nat) (write : Bool) (t : State) : State := if waitsHome s (arrivalCtx agent va) va n write then s else t

/-- The agent in a packet's number. -/
def numberAgent (sq : Nat) : Nat := sq / 2 ^ 80 % 2 ^ 16

/-- Whether every byte of a range may be written (R390): tried before a packet is performed. -/
def mayWriteAll (s : State) (c : Ctx) (va n : Nat) : Except MemErr Unit :=
  (piecesOf va n).foldl (fun r x => match r with | .error e => .error e | .ok () => mayWrite s c x.1) (.ok ())

/-- Writes an arriving packet, whole or not at all (R390). -/
def writeWhole (s : State) (c : Ctx) (va : Nat) (bs : List Byte) : State × Except MemErr Unit :=
  match mayWriteAll s c va bs.length with
  | .error e => (s, .error e)
  | .ok () => writeVa s c va bs 0

/-- Logs an arrival for every captured job of its address space (R378). -/
def captureArrival (s : State) (asid kind va : Nat) (n val : Nat) (bs : List Byte) : State :=
  ((allJobs s).filter fun j => j.asid == asid).foldl (fun s j => captureItem s j.addr kind n 0 0 0 va val bs) s

/-- Cuts of at most 256 bytes (R310, R378). -/
def cut256 : Nat → Nat → List Byte → List (Nat × List Byte)
  | 0, _, _ => []
  | f + 1, va, bs => if bs.isEmpty then [] else (va, bs.take 256) :: cut256 f (va + 256) (bs.drop 256)

/-- Whether a byte of this device lies in a page, and not in a window. -/
def inPage (s : State) (va : Nat) : Bool := match locOf va with | .here q off => spotOf s q off == .memory | _ => false

/-- The parts of a write to pages: at most 256 bytes each, and what goes to a window left out. -/
def pageParts (s : State) (va : Nat) (bs : List Byte) : List (Nat × List Byte) :=
  let pieces := piecesOf va bs.length
  if pieces.all fun x => inPage s x.1 then cut256 (bs.length / 256 + 1) va bs
  else (pieces.filter fun x => inPage s x.1).map fun x => (x.1, (bs.drop (x.1 - va)).take x.2)

/-- Logs a write that arrived for pages, in items of at most 256 bytes (R378). -/
def captureWrite (s : State) (asid va : Nat) (bs : List Byte) : State :=
  (pageParts s va bs).foldl (fun s x =>
    captureArrival s asid 0x03 x.1 (ceilDiv x.2.length 64) x.2.length (x.2 ++ List.replicate (64 * ceilDiv x.2.length 64 - x.2.length) 0)) s

/-- Logs the bytes that an operation from another device has left at an address, as a write (R378; DEDUCED, log entry 127). -/
def captureLeft (s : State) (asid va n : Nat) : State :=
  match physOf s asid va with
  | some pa => captureWrite s asid va (cohBytes s pa n)
  | none => s

/-- The ring of a request queue (R316, R317): its base and number of slots. -/
def ringBase (cfg : Nat) : Nat := nfld cfg 8 38 * 256

def ringSlots (cfg : Nat) : Nat := 2 ^ min (nfld cfg 4 4) 12

/-- What an append to a request ring finds (R318). -/
inductive Append where
  | denied
  | full
  | ok
deriving DecidableEq, Repr

/-- Appends a record to request queue `n` of quarter `q` (R318). The grant is tested at each try: a record that holds at a full ring and whose entry of the
access-control list is withdrawn is answered ACCESS_DENIED (DESIGN CHOICE, log entry 162). -/
def appendRecord (s : State) (q n src : Nat) (bs : List Byte) : State × Append :=
  let cfg := mgetN s q (regRqCfg n)
  let grant : Bool := match aclFind s src q n with | some e => nbit e 3 | none => false
  if ¬ nbit cfg 0 ∨ ¬ grant then (s, .denied) else
  let c := queueCtx q (nfld cfg 48 16)
  let r := globalAddr q (ringBase cfg)
  let log (s : State) (va : Nat) (b : List Byte) : State := if src = Config.device then s else captureWrite s c.asid va b
  match readNum s c r 8 0 with
  | (s, .error _) => (s, .full)
  | (s, .ok tail) =>
    match readNum s c (r + 128) 8 0 with
    | (s, .error _) => (s, .full)
    | (s, .ok head) =>
      if ringSlots cfg ≤ (tail + 2 ^ 64 - head) % 2 ^ 64 then (s, .full) else
      match writeVa s c (r + 256 + 64 * (tail % ringSlots cfg)) bs 0 with
      | (s, .error _) => (s, .full)
      | (s, .ok ()) =>
        match writeVa s c r (leBytes 8 (tail + 1)) 0 with
        | (s, .error _) => (s, .full)
        | (s, .ok ()) => (log (log s (r + 256 + 64 * (tail % ringSlots cfg)) bs) r (leBytes 8 (tail + 1)), .ok)

/-- Whether the ring of a request queue has a line whose home is under test (R361). -/
def queueTested (s : State) (q n : Nat) : Bool :=
  let cfg := mgetN s q (regRqCfg n)
  waitsHome s (queueCtx q (nfld cfg 48 16)) (globalAddr q (ringBase cfg)) (if (slicesTested s).isEmpty then 0 else 256 + 64 * ringSlots cfg) true

/-- The same for the ring behind a request-queue window. -/
def ringTested (s : State) (va : Nat) : Bool :=
  match locOf va with
  | .here q off => (match spotOf s q off with
    | .rqWindow n _ => queueTested s q n
    | _ => false)
  | _ => false

/-- A request record reaches its window (R318): appended, refused, or held while the ring is full. -/
def recordArrives (s : State) (src tag va : Nat) (bs : List Byte) : State :=
  match locOf va with
  | .here q off =>
    match spotOf s q off with
    | .rqWindow n 0 =>
      if (quarter s q).held2.any fun h => h.queue == n then
        modQuarter s q fun x => { x with held2 := x.held2 ++ [{ src := src, tag := tag, queue := n, bytes := bs }] }
      else
        match appendRecord s q n src bs with
        | (s, .denied) => answerTo s src tag (w64 stDenied)
        | (s, .ok) => answerTo s src tag (w64 stOk)
        | (s, .full) => modQuarter s q fun x => { x with held2 := x.held2 ++ [{ src := src, tag := tag, queue := n, bytes := bs }] }
    | _ => answerTo s src tag (w64 stDenied)
  | _ => s

/-- Tries the held records of a quarter again, oldest first of each queue (R318); those of a ring whose home is under test hold on (R361). -/
def retestQuarter (s : State) (q : Nat) : State :=
  (quarter s q).held2.foldl (fun s h =>
    match (quarter s q).held2.find? fun x => x.queue == h.queue with
    | some f =>
      if f ≠ h ∨ queueTested s q h.queue then s else
      match appendRecord s q h.queue h.src h.bytes with
      | (s, .full) => s
      | (s, .denied) => answerTo (modQuarter s q fun x => { x with held2 := dropFirst (· == h) x.held2 }) h.src h.tag (w64 stDenied)
      | (s, .ok) => answerTo (modQuarter s q fun x => { x with held2 := dropFirst (· == h) x.held2 }) h.src h.tag (w64 stOk)
    | none => s) s

/-- After writes: held request records are tried again (R318). -/
def retestRings (s : State) : State :=
  [0, 1, 2, 3].foldl (fun s q => if (quarter s q).held2.isEmpty then s else retestQuarter s q) s

/-- A write from another device is performed and acknowledged (R254, R390, R203, R316). -/
def writeArrives (s : State) (src agent sq va : Nat) (bs : List Byte) : State :=
  match writeWhole s (arrivalCtx agent va) va bs with
  | (s, .ok ()) =>
    (sendPacket (retestRings (captureWrite s (agent / 2 ^ 16) va bs)) 0x3002 src (.ack sq false))
  | (s, .error (.fault k va')) => (sendPacket (arrivalFails s agent va' 1 k) 0x3002 src (.ack sq true))
  | (s, .error _) => (sendPacket s 0x3002 src (.ack sq true))

/-- A write arriving from another device is performed at device scope in sequence order (R254). -/
def execFabricWriteArrival (src agent sq va : Nat) (bytes : List Byte) (s : State) : Host.Outcome State Fault Refusal :=
  .next (unlessHeld s agent va bytes.length true (inOrder s src agent sq fun s => writeArrives s src agent sq va bytes))

/-- A barrier add from another device (R315, R390). -/
def addArrives (s : State) (src agent sq va n : Nat) : State :=
  match performOp s (arrivalCtx agent va) va (.barrierAdd n) 0 with
  | (s, .ok _) => (sendPacket (captureArrival s (agent / 2 ^ 16) 0x04 va 0 n []) 0x3002 src (.ack sq false))
  | (s, .error (.fault k va')) => (sendPacket (arrivalFails s agent va' 1 k) 0x3002 src (.ack sq true))
  | (s, .error _) => (sendPacket s 0x3002 src (.ack sq true))

/-- A barrier-add packet is performed at the barrier's home (R315). -/
def execRemoteBarrierAdd (src agent sq va cnt : Nat) (s : State) : Host.Outcome State Fault Refusal :=
  .next (unlessHeld s agent va 32 true (inOrder s src agent sq fun s => addArrives s src agent sq va cnt))

/-- The atomics by their minor (R30). -/
def atomicOf (n : Nat) : AtomicOp :=
  match n with
  | 0 => .add | 1 => .and | 2 => .or | 3 => .xor | 4 => .min | 5 => .max | 6 => .minu | 7 => .maxu | 8 => .swap | 9 => .cas | 10 => .fadd
  | _ => .bfadd

/-- A remote atomic is performed at the owner's home and answered (R246, R82, R390). -/
def atomicArrives (s : State) (src agent sq va : Nat) (op : AtomicOp) (x y : W64) : State :=
  match performOp s (arrivalCtx agent va) va (.atomic op x y) 0 with
  | (s, .ok v) =>
    let s := if (atomicNew op v.toNat x y).isSome then captureLeft s (agent / 2 ^ 16) va (atomicBytes op) else s
    (sendPacket (retestRings s) 0x3002 src (.answer sq v))
  | (s, .error (.fault k va')) => (sendPacket (arrivalFails s agent va' 1 k) 0x3002 src (.answerLost sq))
  | (s, .error _) => (sendPacket s 0x3002 src (.answerLost sq))

/-- A remote `bbinit` or `bbexp`, an atomic without an old value (R88), is performed at the barrier's home. -/
def barrierArrives (s : State) (src agent sq va : Nat) (op : WriteOp) : State :=
  match performOp s (arrivalCtx agent va) va op 0 with
  | (s, .ok _) => (sendPacket (captureLeft s (agent / 2 ^ 16) va 32) 0x3002 src (.ack sq false))
  | (s, .error (.fault k va')) => (sendPacket (arrivalFails s agent va' 1 k) 0x3002 src (.ack sq true))
  | (s, .error _) => (sendPacket s 0x3002 src (.ack sq true))

/-- A remote atomic arrives (R246); operations 12 and 13 are `bbinit` and `bbexp` (R88). -/
def execFabricAtomicArrival (src agent sq va op : Nat) (x y : W64) (s : State) : Host.Outcome State Fault Refusal :=
  .next (unlessHeld s agent va 8 true (inOrder s src agent sq fun s =>
    if op = 12 then barrierArrives s src agent sq va (.bbInit x) else if op = 13 then barrierArrives s src agent sq va (.bbExp x)
    else atomicArrives s src agent sq va (atomicOf op) x y))

/-- A remote monitor request reads and arms at the owner's home (R247). The tag's upper part is the address space. -/
def monitorArrives (s : State) (src tag va : Nat) (e : W64) : State :=
  let c := arrivalCtx (tag / 2 ^ 96 * 2 ^ 16) va
  match readNum s c va 8 0 with
  | (s, .ok v) =>
    let s := match physOf s c.asid va with
      | some pa => if w64 v = e then { s with nextSeq := s.nextSeq + 1, monitors := s.monitors ++ [{ id := s.nextSeq, line := pa / 128, owner := .remote src (tag % 2 ^ 96), home := va % 2 ^ 48 / 128 }] } else s
      | none => s
    (sendPacket s 0x3002 src (.answer (tag % 2 ^ 96) (w64 v)))
  | (s, .error (.fault k va')) => (sendPacket (arrivalFails s (tag / 2 ^ 96 * 2 ^ 16) va' 0 k) 0x3002 src (.answerLost (tag % 2 ^ 96)))
  | (s, .error _) => (sendPacket s 0x3002 src (.answerLost (tag % 2 ^ 96)))

/-- A remote monitor request arrives (R247). -/
def execMonitorRequestArrival (src tag va : Nat) (expv : W64) (s : State) : Host.Outcome State Fault Refusal :=
  .next (unlessHeld s (tag / 2 ^ 96 * 2 ^ 16) va 8 false (inOrder s src (numberAgent tag) tag fun s => monitorArrives s src tag va expv))

/-- A wake write fires a monitor that was armed at another device (R247). -/
def wakeArrives (s : State) (tag : Nat) : State :=
  match s.parts.find? fun x => x.2.monitor == .armedRemote tag with
  | some x => modPart s x.1 fun x => { x with monitor := .fired }
  | none =>
    (List.range 4).foldl (fun s q => match (quarter s q).suspended.find? fun r => r.tag == tag && tag != 0 && r.wake == .monitor with
      | some r => recordReady s q r.addr
      | none => s) s

/-- A wake write from the owner fires a remote monitor (R247). -/
def execWakeWrite (tag : Nat) (s : State) : Host.Outcome State Fault Refusal := .next (wakeArrives s tag)

/-- A request record reaches its window (R318). -/
def execRequestRecordArrival (src tag va : Nat) (bytes : List Byte) (s : State) : Host.Outcome State Fault Refusal :=
  .next (if ringTested s va then s else inOrder s src (numberAgent tag) tag fun s => recordArrives s src tag va bytes)

/-- A launch packet or a cancel of another device is taken in the sequence of its pair (R312); its tag is its number. -/
def inPair (s : State) (src tag : Nat) (f : State → State) : State :=
  if src = Config.device ∨ src = 0xFFFE then f s else inOrder s src (numberAgent tag) tag f

/-- A job queue takes a 160-byte packet at its window (R203, R207); the host die's, once the device is ready (R383) and every write that the port received
earlier is performed (R255). -/
def execLaunchPacket (va src tag : Nat) (bytes : List Byte) (s : State) : Host.Outcome State Fault Refusal :=
  .next (if src = 0xFFFE ∧ (¬ s.ready ∨ hostWaits s) then s else inPair s src tag fun s => packetAt s va src tag bytes)

/-- A cancel reaches its job's queue and is answered (R229). -/
def execCancelRequest (src tag job : Nat) (s : State) : Host.Outcome State Fault Refusal :=
  .next (inPair s src tag fun s =>
    let r := cancelJob s src job
    answerTo r.1 src tag (w64 r.2))

/-! ## Multicast -/

/-- Whether the blocks that the packet of an add counts were all performed here: they are those right before it in its pair (R102, R248, R310). One that was
not leaves the add unmade, and its acknowledgement is marked lost (DEDUCED, log entry 158). -/
def castCounted (s : State) (key sq n : Nat) : Bool :=
  let run := fgetD s.castDone key (0, 0)
  run.1 + 1 == sq && decide (ceilDiv n 256 ≤ run.2)

/-- One block more of a pair is performed here. -/
def countCast (s : State) (key sq : Nat) : State :=
  let run := fgetD s.castDone key (0, 0)
  { s with castDone := fput s.castDone key (sq, if run.1 + 1 = sq then run.2 + 1 else 1) }

/-- A block, or the add that follows it, is performed at this device (R320, R102, R390). The packet of an add has no bytes, and in place of the
block's address the number of bytes that it counts; a packet with both does both or neither. A device that is a target of its own packet
meets a page without a mapping as one from the fabric does (DESIGN CHOICE, log entry 159). -/
def deliverCast (s : State) (src agent sq va bar : Nat) (bs : List Byte) : State :=
  let key := pairKey agent src
  if bs.isEmpty ∧ bar ≠ 0 ∧ ¬ castCounted s key (sq % 2 ^ 64) va then lostAck s src sq else
  let c := arrivalCtx agent va
  let b := arrivalCtx agent bar
  let ok := match mayWriteAll s c (onDevice 0xFFFF va) bs.length with
    | .error e => Except.error e
    | .ok () => if bar = 0 then .ok () else mayWrite s b (onDevice 0xFFFF bar)
  match ok with
  | .error (.fault k va') => lostAck (arrivalFails s agent va' 1 k) src sq
  | .error _ => lostAck s src sq
  | .ok () =>
    let away := src != Config.device
    let n := if bs.isEmpty then va else bs.length
    let s := if bs.isEmpty then s else countCast (writeVa s c (onDevice 0xFFFF va) bs 0).1 key (sq % 2 ^ 64)
    let s := retestRings (if away then captureWrite s c.asid (onDevice 0xFFFF va) bs else s)
    let s := if bar = 0 then s else
      let t := (performOp s b (onDevice 0xFFFF bar) (.barrierAdd n) 0).1
      if away then captureArrival t b.asid 0x04 (onDevice 0xFFFF bar) 0 n [] else t
    if src = Config.device then ackArrives s sq false else sendPacket s 0x3002 src (.ack sq false)

/-- Sends one copy on a port. -/
def castOn (s : State) (port : Nat) (k : Packet) : State :=
  { s with wire := s.wire ++ [(port, { k with hops := k.hops + if port < 48 then 1 else 0 })] }

/-- Copies for the other members of the own group (R320), by any up link that leads there (R311). -/
def castFinal (s : State) (k : Packet) (nums : List (Nat × Nat)) (members va bar : Nat) (bs : List Byte) : State :=
  ((List.range 32).filter fun m => nbit members m && m != ownMember).foldl (fun s m =>
    let c := { k with dst := ownGroup * 32 + m, body := .multicast nums 3 [] members va bar bs }
    match leadsTo s c.dst with
    | p :: _ => castOn s p c
    | [] => dropPacket s c) s

/-- The members of a group that a mask selects, as devices. -/
def membersOf (g members : Nat) : List Nat := ((List.range 32).filter fun m => nbit members m).map fun m => 32 * g + m

/-- The number under which a target receives a multicast (R320, R312). -/
def numberFor (nums : List (Nat × Nat)) (dev : Nat) : Nat := ((nums.find? fun n => n.1 == dev).map (·.2)).getD 0

/-- The block reaches this device as a target, in the sequence of its pair. -/
def castHere (s : State) (src agent : Nat) (nums : List (Nat × Nat)) (va bar : Nat) (bs : List Byte) : State :=
  let sq := numberFor nums Config.device
  if src = Config.device then deliverCast s src agent sq va bar bs
  else inOrder s src agent sq fun s => deliverCast s src agent sq va bar bs

/-- A router delivers and forwards a multicast copy (R320): stage 0 source, 1 gateway, 2 entry, 3 final. `nums` gives each target's number. An
empty member mask sends nothing (R102). A dropped group is counted and recorded once, for its member 0, whatever the mask (DESIGN CHOICE, log entry 161). -/
def multicastAt (s : State) (src agent : Nat) (nums : List (Nat × Nat)) (stage : Nat) (groups : List Nat) (members va bar : Nat) (bs : List Byte) : State :=
  if members % 2 ^ 32 = 0 then s else
  let k : Packet := { src := src, agent := agent, seq := numberFor nums Config.device, dst := Config.device, body := .multicast nums stage groups members va bar bs }
  let here (s : State) : State := if nbit members ownMember then castHere s src agent nums va bar bs else s
  if stage = 3 then castHere s src agent nums va bar bs
  else if stage = 2 then castFinal (here s) k nums members va bar bs
  else
    let ports := if stage = 0 then List.range 79 else List.range 48
    let others := groups.filter (· != ownGroup)
    let port (g : Nat) : Option Nat := ports.find? fun p => portUp s p && reaches s p g
    let s := (others.filter fun g => (port g).isNone).foldl (fun s g =>
      (membersOf g members).foldl (fun s d => lostAck s src (numberFor nums d)) (recordLost s (onDevice (32 * g) (castAddr va bar bs)) (32 * g))) s
    let s := ports.foldl (fun s p =>
      let gs := others.filter fun g => port g == some p
      if gs.isEmpty then s else castOn s p { k with body := .multicast nums (if p < 48 then 2 else 1) gs members va bar bs }) s
    if stage = 0 ∧ groups.contains ownGroup then castFinal (here s) k nums members va bar bs else s

/-- Whether a multicast copy that this device is to take holds at a home under test (R361). -/
def castTested (s : State) (agent stage members va bar n : Nat) : Bool :=
  (stage == 3 || nbit members ownMember) && ((n != 0 && waitsHome s (arrivalCtx agent va) (onDevice 0xFFFF va) n true) ||
    (bar != 0 && waitsHome s (arrivalCtx agent bar) (onDevice 0xFFFF bar) 32 true))

/-- A router delivers and forwards a multicast copy by stage (R320). -/
def execMulticastForward (src agent : Nat) (sq : List (Nat × Nat)) (stage : Nat) (groups : List Nat) (members va bar : Nat) (bytes : List Byte) (s : State) :
    Host.Outcome State Fault Refusal :=
  .next (if castTested s agent stage members va bar bytes.length then s else multicastAt s src agent sq stage groups members va bar bytes)

/-! ## Link tile queues -/

/-- Updates a link tile queue. -/
def modLink (s : State) (c n : Nat) (f : LinkQueue → LinkQueue) : State :=
  modCore s c fun x => { x with links := fput x.links n (f (fgetD x.links n {})) }

/-- Cuts a list into rows of `n`. -/
def rowsOf {α : Type} (n : Nat) : Nat → List α → List (List α)
  | 0, _ => []
  | f + 1, l => if l.isEmpty then [] else l.take n :: rowsOf n f (l.drop n)

/-- A tile's two half-tiles (R150, R160) from its codes, row by row, and its block scales. -/
def tileOf (ty : Nat) (codes scales : List Nat) : List HalfTile :=
  [0, 1].map fun h =>
    { ty := ty, rows := (rowsOf 128 128 codes).map fun r => (r.drop (64 * h)).take 64,
      scales := (rowsOf 16 128 scales).map fun r => (r.drop (8 * h)).take 8 }

/-- Whether a tile to the binding that stands can arrive: the pair is bound and its sender has a credit for it (R321). -/
def LinkQueue.expects (l : LinkQueue) : Bool := l.bound && !l.send && l.paired && decide (l.tiles.length < 4)

/-- The peer that a binding names. -/
def LinkQueue.peer (l : LinkQueue) : Nat × Nat × Nat := (l.peerDev, l.peerCore, l.peerQueue)

/-- What may be under way to the bindings of a queue once the one that stands ends (R159): as many tiles as its receiver had room for (R321). -/
def LinkQueue.ended (l : LinkQueue) : List ((Nat × Nat × Nat) × Nat) :=
  l.stale ++ if l.bound && !l.send && decide (l.tiles.length < 4) then [(l.peer, 4 - l.tiles.length)] else []

/-- One tile of entry `k` of those that may be under way to ended bindings is under way no more. -/
def LinkQueue.dropOld (l : LinkQueue) (k : Nat) : LinkQueue :=
  { l with stale := (l.stale.modify k fun e => (e.1, e.2 - 1)).filter fun e => e.2 != 0 }

/-- A tile of the binding that stands becomes visible (R160); a pop that holds for it ends its hold (R322). The tiles of a pair of queues arrive in
push order (R312), so none to an ended binding with the same peer is under way any more. -/
def LinkQueue.takeTile (l : LinkQueue) (codes scales : List Nat) : LinkQueue :=
  { l with tiles := l.tiles ++ [tileOf l.ty codes scales], heldSince := none, stale := l.stale.filter fun e => e.1 != l.peer }

/-- A whole tile becomes visible at a bound receiving queue (R160); a failed or unbound queue discards it (R323, R159). The tiles of a binding follow
its bind packet (R312), so one that finds the pair not bound anew was in flight to a binding that has ended; while such tiles may be under way to
this queue, which binding a tile was sent to is a free value (DESIGN CHOICE, log entry 143). The packets of tiles, credits and binds arrive in the
sequence of their pair (R312), and their steps carry no number (DEDUCED, log entry 157). -/
def tileArrives (s : State) (c n : Nat) (codes scales : List Nat) : State :=
  let l := fgetD (core s c).links n {}
  let k := Config.oldTile s.nextSeq
  let take (s : State) : State := if l.expects ∧ ¬ l.failed then modLink s c n fun l => l.takeTile codes scales else s
  if l.stale = [] then take s
  else
    let s := { s with nextSeq := s.nextSeq + 1 }
    if l.expects ∧ l.stale.length ≤ k then take s else modLink s c n fun l => l.dropOld (k % l.stale.length)

/-- A whole tile arrives (R160). -/
def execLinkTileArrival (c n : Nat) (codes scales : List Nat) (s : State) : Host.Outcome State Fault Refusal :=
  .next (tileArrives s c n codes scales)

/-- A credit packet returns a released slot to the sender (R321); a push that holds for it ends its hold (R322). -/
def creditArrives (s : State) (c n : Nat) : State :=
  let l := fgetD (core s c).links n {}
  if l.bound ∧ l.send ∧ l.paired ∧ ¬ l.failed then modLink s c n fun l => { l with credits := min (l.credits + 1) 4, heldSince := none } else s

/-- A credit packet returns a released slot to the sender (R321). -/
def execLtqCredit (c n : Nat) (s : State) : Host.Outcome State Fault Refusal := .next (creditArrives s c n)

/-- Whether the peer that a binding names has announced the matching one: numbers and type the same, direction opposite (R321). -/
def LinkQueue.matched (l : LinkQueue) : Bool := l.bound && l.offers.contains (l.peerDev, l.peerCore, l.peerQueue, l.ty, !l.send)

/-- A new binding at either end: the pair is bound once each side names the other, with no tile in it and four credits at the sender
(R321). -/
def LinkQueue.bindAnew (l : LinkQueue) : LinkQueue :=
  if l.matched then { l with paired := true, credits := if l.send then 4 else 0, tiles := [], halfUsed := 0, heldSince := if l.send then none else l.heldSince }
  else { l with paired := false }

/-- A bind packet reaches a peer core (R321): the queue keeps what it announces, and where it comes from the peer that its own binding names,
the pair is bound anew. -/
def bindArrives (s : State) (c n dev pc pn ty : Nat) (send : Bool) : State :=
  modLink s c n fun l =>
    let l' := { l with offers := (dev, pc, pn, ty, send) :: l.offers.filter fun o => o.1 != dev || o.2.1 != pc || o.2.2.1 != pn }
    if l.bound ∧ ¬ l.failed ∧ l.peerDev = dev ∧ l.peerCore = pc ∧ l.peerQueue = pn then l'.bindAnew else l'

/-- A bind packet reaches a peer core (R321). -/
def execLtqBindPacket (c n dev pc pn ty : Nat) (send : Bool) (s : State) : Host.Outcome State Fault Refusal :=
  .next (bindArrives s c n dev pc pn ty send)

/-! ## Ethernet -/

/-- An arrival that uses an unsupported feature, or that no entry takes, is dropped and counted (R325, R327, R328). -/
def ethDrop (s : State) : State := mbump s 0 regEthDrop 32

/-- The transport answers a sender (R325, R328). What leaves, and whether anything does, is the transport specification's (DESIGN CHOICE, log
entry 109). -/
def ethAnswer (s : State) (kind : Nat) : State :=
  { s with nextSeq := s.nextSeq + 1, ethOut := s.ethOut ++ [(s.nextSeq, Config.ethAnswer s.nextSeq kind)] }

/-- Writes a message, makes its add, and acknowledges its delivery (R327, R328). The base and the barrier are addresses of the address space that
`ucie.asid` names (DESIGN CHOICE, log entry 164). A message that meets a page without a valid mapping counts in `eth.drop`, its earlier bytes and the
disarming of its entry stand, and a barrier's page without one gives neither add nor acknowledgement (DESIGN CHOICE, log entry 165). -/
def ethPlace (s : State) (base bar : Nat) (bs : List Byte) : State :=
  let asid := mgetN s 0 (regDev 0x380) % 2 ^ 16
  match writeVa s (queueCtx (nfld base 46 2) asid) base bs 0 with
  | (s, .ok ()) =>
    let s := retestRings s
    let s := captureWrite s asid base bs
    if bar = 0 then ethAnswer s 0 else
    match performOp s (queueCtx (nfld bar 46 2) asid) bar (.barrierAdd bs.length) 0 with
    | (s, .ok _) => ethAnswer (captureArrival s asid 0x04 bar 0 bs.length []) 0
    | (s, .error _) => s
  | (s, .error _) => ethDrop s

/-- Whether a message for a receive entry holds at a home under test (R361). -/
def rxTested (s : State) (e off n : Nat) : Bool :=
  let asid := mgetN s 0 (regDev 0x380) % 2 ^ 16
  let base := mgetN s 0 (regRx e 0)
  let bar := mgetN s 0 (regRx e 2)
  waitsHome s (queueCtx (nfld base 46 2) asid) (base + off) n true || (bar != 0 && waitsHome s (queueCtx (nfld bar 46 2) asid) bar 32 true)

/-- An arriving RMA write (R327); `feature` 0 is a supported one (R325). -/
def rmaArrives (s : State) (e off : Nat) (bs : List Byte) (feature : Nat) : State :=
  let len := nfld (mgetN s 0 (regRx e 1)) 0 32
  if feature ≠ 0 then ethAnswer (ethDrop s) 1
  else if 256 ≤ e ∨ len = 0 ∨ len < off + bs.length then ethDrop s
  else if rxTested s e off bs.length then s
  else ethPlace s (mgetN s 0 (regRx e 0) + off) (mgetN s 0 (regRx e 2)) bs

/-- An arriving RMA write is placed in its receive entry (R327). -/
def execEthRmaWrite (entry off : Nat) (bytes : List Byte) (feature : Nat) (s : State) : Host.Outcome State Fault Refusal :=
  .next (rmaArrives s entry off bytes feature)

/-- An arriving untagged send takes the lowest armed entry, which then disarms (R328); what does not fit, or finds no entry, is reported to
the sender. -/
def sendArrives (s : State) (bs : List Byte) (feature : Nat) : State :=
  if feature ≠ 0 then ethAnswer (ethDrop s) 1 else
  match (List.range 256).find? fun e => nbit (mgetN s 0 (regRx e 1)) 63 with
  | none => ethAnswer (ethDrop s) 3
  | some e =>
    let len := nfld (mgetN s 0 (regRx e 1)) 0 32
    if rxTested s e 0 (min len bs.length) then s else
    let s := if len < bs.length then ethAnswer (ethDrop s) 2 else s
    mset (ethPlace s (mgetN s 0 (regRx e 0)) (mgetN s 0 (regRx e 2)) (bs.take len)) 0 (regRx e 1) (w64 len)

/-- An arriving untagged send (R328). -/
def execEthUntaggedSend (bytes : List Byte) (feature : Nat) (s : State) : Host.Outcome State Fault Refusal :=
  .next (sendArrives s bytes feature)

/-- The far device's delivery acknowledgement (R326). -/
def execEthDeliveryAck (sq : Nat) (s : State) : Host.Outcome State Fault Refusal := .next (ackArrives s sq false)

/-! ## Links -/

/-- The unit identifier of a whole link (R332). -/
def unitLink (kind k : Nat) : Nat := 0x70000000 + k * 2 ^ 20 + kind * 2 ^ 16 + 0xFFFF

/-- The lanes of a link of a kind (R331). -/
def linkLanes (kind : Nat) : Nat := if kind = 0 then 16 else if kind = 1 then 48 else 8

/-- The eye margins of a link's lanes are measured as it comes up; when they are measured is not given (DESIGN CHOICE, log entry 108). -/
def measureMargins (s : State) (kind k : Nat) : State :=
  let s' := { s with nextSeq := s.nextSeq + 1 }
  (List.range (linkLanes kind / 8)).foldl (fun t g =>
    mset t 0 (regLink kind k (4 + g)) (w64 (leNat ((List.range 8).map fun i => BitVec.ofNat 8 (Config.eyeMargin s.nextSeq kind k (8 * g + i)))))) s'

/-- A link's state changes and one record is appended (R331, R332, R374); a link below half its lanes goes down; entering training counts a
retraining. -/
def linkState (s : State) (kind k st lanes : Nat) : State :=
  let v := mgetN s 0 (regLink kind k 0)
  let st := if 2 ≤ st ∧ st ≤ 3 ∧ 2 * lanes < linkLanes kind then 0 else st
  if nfld v 0 3 = st then mset s 0 (regLink kind k 0) (w64 (nset v 8 8 lanes)) else
  let s := if st = 2 ∨ st = 3 then measureMargins s kind k else s
  let v' := nset (nset v 0 3 st) 8 8 lanes
  let v' := if st = 1 then nset v' 16 8 (min (nfld v 16 8 + 1) 255) else v'
  appendError (mset s 0 (regLink kind k 0) (w64 v')) (unitLink kind k) 1 0x06 0 (w64 (st % 8 + lanes % 256 * 256))

/-- A link's state changes (R332). -/
def execLinkStateChange (kind link st lanes : Nat) (s : State) : Host.Outcome State Fault Refusal := .next (linkState s kind link st lanes)

/-- A corrected flit increments `lk.corr`; a multiple of `lk.thr` appends a predictive record (R331, R374). -/
def fecCorrection (s : State) (kind k : Nat) : State :=
  let full := mgetN s 0 (regLink kind k 1) % 2 ^ 48 == 2 ^ 48 - 1
  let s := mbump s 0 (regLink kind k 1) 48
  let v := mgetN s 0 (regLink kind k 1) % 2 ^ 48
  let t := mgetN s 0 (regLink kind k 3) % 2 ^ 48
  if ¬ full ∧ t ≠ 0 ∧ v % t = 0 then appendError s (unitLink kind k) 1 0x07 0 (w64 v) else s

/-- A corrected flit (R331). -/
def execLinkFecCorrection (kind link : Nat) (s : State) : Host.Outcome State Fault Refusal := .next (fecCorrection s kind link)

/-- A link resends a flit (R331). -/
def execLinkLevelRetry (kind link : Nat) (s : State) : Host.Outcome State Fault Refusal := .next (mbump s 0 (regLink kind link 2) 32)

end Sys2Proof.Machine
end

