-- ==== Sys2Proof/Machine/Worlds.lean ====
section
/-! DEFINITION. Worlds and views (R193 to R197, R337 to R358): fork, the arbiter, commit and discard, the outbox and its release,
and the end of a job by the runtime (R228). -/

namespace Sys2Proof.Machine

/-! ## Sending -/

/-- The sender's number of an agent of a partition. -/
def senderOf (c : Ctx) : Nat := senderNo c.asid (agentNo c.part c.agent)

/-- The number under which an agent's next packet for an address leaves (R312); one that stays on this device, or goes to the host die, has a
number of the device's own. -/
def numberTo (s : State) (c : Ctx) (va : Nat) : Nat :=
  match locOf va with
  | .remote d => packetNo s (senderOf c) d
  | _ => s.nextSeq

/-- The issuer awaits the answer to a packet: its number, the word or command that made it. -/
def noteAwait (s : State) (c : Ctx) (kind : AwaitKind) (seq word va : Nat) : State :=
  { s with awaits := s.awaits ++ [{ seq := seq, word := word, part := c.part, kind := kind, va := va, job := c.job }] }

/-- A store to another device or to the host die leaves (R254, R255); it is awaited. -/
def storeOut (s : State) (c : Ctx) (kind : AwaitKind) (va : Nat) (bs : List Byte) (word : Nat) : State :=
  let t := noteAwait s c kind (numberTo s c va) word va
  match locOf va with
  | .host => { t with nextSeq := s.nextSeq + 1, hostOut := s.hostOut ++ [(va, bs)] }
  | .remote d => sendPacket t (senderOf c) d (.write va bs)
  | _ => s

/-- A request record leaves for its window (R103, R318). -/
def recordOut (s : State) (c : Ctx) (kind : AwaitKind) (va : Nat) (bs : List Byte) (word : Nat) : State :=
  let t := noteAwait s c kind (numberTo s c va) word va
  match locOf va with
  | .remote d => sendPacket t (senderOf c) d (.record va bs)
  | _ => recordArrives { t with nextSeq := s.nextSeq + 1 } Config.device s.nextSeq va bs

/-- A launch packet leaves for its window (R104). -/
def launchOut (s : State) (c : Ctx) (kind : AwaitKind) (va : Nat) (bs : List Byte) (word : Nat) : State :=
  let t := noteAwait s c kind (numberTo s c va) word va
  match locOf va with
  | .remote d => sendPacket t (senderOf c) d (.launch va bs)
  | _ => packetAt { t with nextSeq := s.nextSeq + 1 } va Config.device s.nextSeq bs

/-- The groups that a route word and a group mask name (R102). -/
def castGroups (route groups : W64) : List Nat :=
  ((List.range 64).filter fun g => nbit groups.toNat g).map fun g => nfld route.toNat 32 10 + g

/-- The targets of a multicast block (R102). -/
def castTargets (route groups : W64) : List Nat := ((castGroups route groups).map fun g => membersOf g (nfld route.toNat 0 32)).flatten

/-- The number of each target's copy of the packet after the next `i` (R312). -/
def castNums (s : State) (c : Ctx) (route groups : W64) (i : Nat := 0) : List (Nat × Nat) :=
  (castTargets route groups).map fun d => (d, numberTo s c (d * 2 ^ 48) + i)

/-- The packets of a multicast block (R310, R320): its bytes by 256, then the packet of its add, where it names a barrier; each with its place or
count, its barrier, and its bytes. -/
def castParts (va bar : Nat) (bs : List Byte) : List (Nat × Nat × List Byte) :=
  (cut256 (bs.length / 256 + 1) va bs).map (fun x => (x.1, 0, x.2)) ++ if bar = 0 then [] else [(bs.length, bar, [])]

/-- A multicast block leaves (R102, R310, R320); each target's acknowledgement of each packet is awaited. An empty target set sends nothing. -/
def castOut (s : State) (c : Ctx) (kind : AwaitKind) (va bar : Nat) (route groups : W64) (bs : List Byte) (word : Nat) : State :=
  let parts := castParts va bar bs
  let note (t : State) (i : Nat) : State :=
    (castNums s c route groups i).foldl (fun t n => countPacket (noteAwait t c kind n.2 word va) (senderOf c) n.1) t
  let t := (List.range parts.length).foldl note s
  parts.zipIdx.foldl (fun t x =>
    multicastAt t Config.device (senderOf c) (castNums s c route groups x.2) 0 (castGroups route groups) (nfld route.toNat 0 32) x.1.1 x.1.2.1 x.1.2.2)
    { t with nextSeq := s.nextSeq + parts.length }

/-! ## The outbox -/

/-- Bytes that an outbox entry takes (R350). -/
def outSize : OutItem → Nat
  | .store _ _ => 16
  | .fmst _ _ _ _ bs => 64 + bs.length
  | .rqpost _ _ => 128
  | .lpost _ _ => 224
  | .darner _ idx grads _ => 64 + idx.length + grads.length

/-- Bytes that an outbox holds. -/
def boxSize (l : List OutEntry) : Nat := l.foldl (fun n i => n + outSize i.item) 0

/-- Bytes that an operation takes in an outbox, `len` of them a block (R350). -/
def itemSize (i : OutItem) (len : Nat) : Nat := match i with | .fmst .. => 64 + len | i => outSize i

/-- Bytes that an entry of a world's store queue will take in the outbox. -/
def waitSize (w : StoreWait) : Nat :=
  match w.item with
  | .post i _ len _ => itemSize i len
  | .write va .. => match locOf va with | .here .. => 0 | _ => 16

/-- Bytes that the operations of a world in store queues will take in its outbox. -/
def boxDue (s : State) (v : Nat) : Nat := (s.parts.map fun p => ((p.2.stores.filter fun w => w.ctx.view == v).map waitSize).sum).sum

/-- Whether the outbox of a world has room for `n` bytes, with the operations that it has issued before (R350). -/
def boxRoom (s : State) (v n : Nat) : Bool :=
  match fget s.views v with
  | none => true
  | some w => decide (boxSize w.outbox + boxDue s v + n ≤ 65536)

/-- Puts an entry into the outbox of a world (R350); none when it does not fit. -/
def boxAdd (s : State) (v : Nat) (e : OutEntry) : Option State :=
  if ¬ boxRoom s v (outSize e.item) then none else
  match fget s.views v with
  | none => some s
  | some w => some { s with views := fput s.views v { w with outbox := w.outbox ++ [e] } }

/-- A fork's parent also waits for the answers to some requests. -/
def awaitFor (s : State) (parent : Nat) (sqs : List Nat) : State :=
  { s with forks := s.forks.map fun (f : Fork) => if f.parent = parent then { f with waitAcks := f.waitAcks ++ sqs } else f }

/-- Performs a released entry as the original operation from the committing rival's partition (R351). -/
def releaseItem (parent : Nat) (c : Ctx) (s : State) (e : OutEntry) : State :=
  match e.item with
  | .store va bs => storeOut (awaitFor s parent [numberTo s c va]) c (.release parent false) va bs e.seq
  | .fmst va bar route groups bs =>
    let nums := (List.range (castParts va bar bs).length).flatMap fun i => (castNums s c route groups i).map (·.2)
    castOut (awaitFor s parent nums) c (.release parent false) va bar route groups bs e.seq
  | .rqpost va bs => recordOut (awaitFor s parent [numberTo s c va]) c (.release parent true) va bs e.seq
  | .lpost va bs => launchOut (awaitFor s parent [numberTo s c va]) c (.release parent true) va bs e.seq
  | .darner cmd idx grads params =>
    let sq := s.nextSeq
    let cmd := { cmd with id := sq, ctx := { cmd.ctx with part := c.part, view := 0 }, held := [idx, grads, params] }
    modQueue { awaitFor s parent [sq] with nextSeq := sq + 1 } c.part 4 fun q => { q with queued := q.queued ++ [cmd] }

/-- Whether an outbox entry must wait for the acknowledgement of those released before it (R351), as in the root world: a record or a packet until
every earlier access is performed at fabric scope (R249), an entry behind a mark for those before the mark (R84), a release for those before it
(R78), each at its scope. -/
def releaseWaits (s : State) (parent : Nat) (e : OutEntry) : Bool :=
  let post : Bool := match e.item with | .rqpost .. | .lpost .. => true | _ => false
  let upTo (a : Await) (seq scope : Nat) : Bool := decide (a.word < seq) && (scope == 3 || (scope == 2 && locOf a.va == .host))
  s.awaits.any fun a => (match a.kind with | .release f _ => f == parent | _ => false) &&
    (post || (e.gate != 0 && upTo a (e.gate / 4) (e.gate % 4)) || (e.rel != 0 && upTo a e.seq (e.rel - 1)))

/-- Releases the entries of a committed world's outbox, up to the first that waits (R351). -/
def releaseSome (parent : Nat) : Nat → State → State
  | 0, s => s
  | n + 1, s =>
    match s.forks.find? fun (f : Fork) => f.parent == parent with
    | none => s
    | some f =>
      match f.outbox, f.sender with
      | i :: r, some c =>
        if releaseWaits s parent i then s else
        releaseSome parent n (releaseItem parent c { s with forks := s.forks.map fun (g : Fork) => if g.parent = parent then { g with outbox := r } else g } i)
      | _, _ => s

/-- Every committed world releases what it may (R351). -/
def releaseDue (s : State) : State :=
  (s.forks.filter fun (f : Fork) => !f.outbox.isEmpty).foldl (fun s f => parentDue (releaseSome f.parent f.outbox.length s) f.parent) s

/-- A released Darner request has completed (R351). -/
def darnerReleased (s : State) (id : Nat) : State :=
  match s.forks.find? fun (f : Fork) => f.waitAcks.contains id with
  | some f => releaseAnswered s f.parent id none 0
  | none => s

/-! ## Ends of worlds -/

/-- The view identifiers that a fork may take (R194): neither allocated nor reserved. -/
def freeViews (s : State) : List Nat :=
  (List.range 4095).filterMap fun i =>
    if (fget s.views (i + 1)).isNone ∧ ¬ s.parts.any (fun p => p.2.reserved.contains (i + 1)) then some (i + 1) else none

/-- Depth of a view (R194). -/
def depthOf (s : State) (v : Nat) : Nat := match fget s.views v with | some x => x.depth | none => 0

/-- The context in which the device writes records of an address space (R392): base memory. -/
def recordCtx (p key job : Nat) : Ctx := { part := p, agent := .control, asid := key / 2 ^ 64, view := 0, job := job }

/-- Sets bits of a doubleword of a record (R348, R213). -/
def recordOr (s : State) (p key off job v : Nat) : State :=
  (sendWrite s (recordCtx p key job) (key % 2 ^ 64 + off) (.atomic .or (w64 v) 0) 0 1 0 none true).1

/-- A record's `cont.dval` takes what a fork delivers, and its reserved bits are written as zero (R10, R213). -/
def deliver (s : State) (f : Fork) (r : Nat) : State :=
  if f.dreg = 0 then s else
  let clear := (sendWrite s (recordCtx f.ctx.part f.parent f.ctx.job) (f.parent % 2 ^ 64 + 24) (.atomic .and (w64 (2 ^ 64 - 2 ^ 35)) 0) 0 1 0 none true).1
  recordOr clear f.ctx.part f.parent 24 f.ctx.job ((0x100 + r % 0x100) * 2 ^ 38)

/-- The partition that holds a rival's record, or held it last (R392). -/
def recordPart (s : State) (f : Fork) (key : Nat) : Nat :=
  match s.parts.find? fun x => match x.2.resident with | some r => r.addr == key | none => false with
  | some x => x.1
  | none => match (quarter s f.quarter).suspended.find? fun r => r.addr == key with
    | some u => u.part
    | none => f.ctx.part

/-- The parent of a fork becomes ready with a delivered value: `r` of the committing rival, or 0xFF (R194, R196, R213). -/
def parentReady (s : State) (f : Fork) (r : Nat) : State :=
  recordReady (deliver s f r) f.quarter f.parent

/-- Logs a fork of a captured job when its world ends (R378). -/
def captureFork (s : State) (f : Fork) (r : Nat) : State :=
  captureItem s f.ctx.job 7 0 f.workid f.parentView f.ord r (f.rivals.foldl (fun a x => a + x.2.1 * 2 ^ (12 * x.1)) 0) []

/-- The partition in which a record is resident. -/
def residentAt (s : State) (key : Nat) : Option Nat :=
  match s.parts.find? fun x => match x.2.resident with | some r => r.addr == key | none => false with
  | some x => some x.1
  | none => none

/-- Drops the side-log entries that a test picks, on every core (R228, R301, R349). -/
def dropEverywhere (s : State) (pick : SideEntry → Bool) : State := (s.cores.map (·.1)).foldl (fun s k => dropEntries s k pick) s

/-- A view is discarded (R349): lines and their copies in the caches (R340), outbox, side-log entries and waiting writes go; the identifier follows
with VIEW_FREE. -/
def discardView (s : State) (v : Nat) : State :=
  let s := dropEverywhere s fun e => e.ctx.view == v
  let s := { s with parts := s.parts.map fun p => (p.1, { p.2 with stores := p.2.stores.filter fun w => w.ctx.view != v }) }
  match fget s.views v with
  | some x =>
    let t := x.lines.foldl (fun s l => maintainLine s 1 l.2.pa) s
    { t with views := fput s.views v { x with ended := true, lines := [], outbox := [] } }
  | none => s

/-- Discards every command that a world pushed, on every partition (R196). -/
def discardWorld (s : State) (v : Nat) : State :=
  (s.parts.map (·.1)).foldl (fun s p => [0, 1, 2, 3, 4, 5].foldl (fun s k => discardCommands s p k fun c => c.ctx.view == v) s) s

/-- The record of a rival ends: at once where it is resident, and wherever it stands suspended (R195, R196, R348). -/
def dropRecord (s : State) (f : Fork) (key : Nat) : State :=
  let p := recordPart s f key
  let s := match residentAt s key with
    | some p => killResident s p
    | none => s
  let s := unpick { s with monitors := s.monitors.filter fun m => m.owner != .record key } key
  let s := modQuarter s f.quarter fun x => { x with
    suspended := x.suspended.filter (fun r => r.addr != key), levels := x.levels.filter fun e => e.item != .record key }
  recordOr s p key 0 f.ctx.job 3

/-- Kills a rival: its descendants, the deepest first, its commands, its record and its view (R196, R349). A fork of it that none has committed ends with it,
and is logged so (R358). -/
def killRival : Nat → State → Fork → Nat → State
  | 0, s, _, _ => s
  | n + 1, s, f, idx =>
    match f.rivals.find? fun x => x.1 == idx with
    | none => s
    | some (_, v, key) =>
      let s := (s.forks.filter fun (g : Fork) => g.parent == key).foldl (fun s g =>
        let s := g.living.foldl (fun s i => killRival n s g i) s
        let s := if g.winner.isNone then captureFork s g 0xFF else s
        { s with forks := s.forks.filter fun (h : Fork) => h.parent != key }) s
      dropRecord (discardView (discardWorld s v) v) f key

/-- A rival has ended without committing (R196, R347). -/
def rivalGone (s : State) (f : Fork) (idx : Nat) : State :=
  let g := { f with living := f.living.erase idx, asks := f.asks.filter fun a => a.1 != idx }
  if g.living.isEmpty ∧ g.winner.isNone then
    parentReady (captureFork { s with forks := s.forks.filter fun (h : Fork) => h.parent != f.parent } g 0xFF) g 0xFF
  else { s with forks := s.forks.map fun (h : Fork) => if h.parent = f.parent then g else h }

/-- The fork that made a view, and the rival's index. -/
def forkOf (s : State) (v : Nat) : Option (Fork × Nat) :=
  (s.forks.find? fun (f : Fork) => f.rivals.any fun x => x.2.1 == v).bind fun f => (f.rivals.find? fun x => x.2.1 == v).map fun x => (f, x.1)

/-- `abandon`, or `done` of a rival (R196). Commands left in the table queues stay (R171). -/
def abandonRival (s : State) (v : Nat) : State :=
  match forkOf s v with
  | none => s
  | some (f, idx) =>
    match f.rivals.find? fun x => x.1 == idx with
    | none => s
    | some (_, _, key) =>
      let p := recordPart s f key
      let s := match residentAt s key with
        | some p =>
          let s := [0, 1, 2].foldl (fun s k => discardCommands s p k fun _ => true) s
          let s := if (core s (coreOf p)).holder = some p then clearMangle s (coreOf p) else s
          endRecord (releaseLeave (discardView s v) p) p
        | none => discardView s v
      rivalGone (recordOr s p key 0 f.ctx.job 3) f idx

/-! ## Commit -/

/-- The runs of written bytes of a line that reads as `cur`: offset and bytes (R346). -/
def maskRuns (mask : BitVec 128) (cur : List Byte) : Nat → List (Nat × List Byte)
  | 0 => []
  | n + 1 =>
    let o := 127 - n
    let rest := maskRuns mask cur n
    if ¬ mask.getLsbD o then rest else
    match rest with
    | (o', bs) :: r => if o' = o + 1 then (o, cur.getD o 0 :: bs) :: r else (o, [cur.getD o 0]) :: rest
    | [] => [(o, [cur.getD o 0])]

/-- The address of a line of this device. -/
def lineVa (line : Nat) : Nat := 0xFFFF * 2 ^ 48 + line * 128

/-- The bytes that a view reads from a private line (R341); those of a sector that its code cannot correct as they stand (DESIGN CHOICE, log
entry 135). -/
def asRead (s : State) (c : Ctx) (x : Nat × OverlayLine) : List Byte := overlayBytes s (nfld (lineVa x.1) 46 2) c.asid x.2

/-- What a commit writes of a line: its runs of written bytes. -/
def lineRuns (s : State) (c : Ctx) (x : Nat × OverlayLine) : List (Nat × List Byte) := maskRuns x.2.mask (asRead s c x) 128

/-- The line, and why, that keeps a commit into base memory from being made: a page that has no valid mapping or may not be written now
(R253, R346). -/
def commitBlocked (s : State) (c : Ctx) (lines : FMap OverlayLine) : Option (Nat × Nat) :=
  lines.findSome? fun (x : Nat × OverlayLine) => if x.2.mask = 0 then none else
    match mayWrite s { c with view := 0 } (lineVa x.1) with
    | .error (.fault k va) => some (k, va)
    | _ => none

/-- One line of a commit into base memory (R346). -/
def commitBase (c : Ctx) (s : State) (x : Nat × OverlayLine) : State :=
  (lineRuns s c x).foldl (fun s r => (sendWrite s { c with view := 0 } (lineVa x.1 + r.1) (.bytes r.2) 0 1 0 none false).1) s

/-- The copy that a parent's view makes of a line that a commit is to write (R339, R345): the line as the parent reads it now; where it cannot
be read, as the child holds it. -/
def parentCopy (s : State) (c : Ctx) (pv : Nat) (x : Nat × OverlayLine) : State × List Byte :=
  let off := lineVa x.1 % 2 ^ 46
  let mine := asRead s c x
  let r : State × Except MemErr (List Byte) := match leafAt s (nfld (lineVa x.1) 46 2) c.asid off with
    | some (pte, _) => copyLine s { c with view := pv } (nfld (lineVa x.1) 46 2) off pte
    | none => (s, .ok mine)
  (r.1, match r.2 with | .ok b => b | .error _ => mine)

/-- One line of a commit into a parent's view (R345): it may take the parent above its quota. A line of which nothing is written adds
nothing. A line that the parent does not hold takes the child's place in the pool. -/
def commitView (c : Ctx) (pv : Nat) (s : State) (x : Nat × OverlayLine) : State :=
  if x.2.mask = 0 then s else
  match fget s.views pv with
  | none => s
  | some p =>
    let runs := lineRuns s c x
    let r : State × OverlayLine := match fget p.lines x.1 with
      | some l =>
        let (q, pte) := (nfld (lineVa x.1) 46 2, ((leafAt s (nfld (lineVa x.1) 46 2) c.asid (lineVa x.1 % 2 ^ 46)).map (·.1)).getD 0)
        (runs.foldl (fun s r => (piecesOf (lineVa x.1 + r.1) r.2.length).foldl (fun s y =>
          linePut s { c with view := pv, home := some q } q (y.1 % 2 ^ 46) pte l ((r.2.drop (y.1 - (lineVa x.1 + r.1))).take y.2) 0) s) s, l)
      | none =>
        let y := parentCopy s c pv x
        (poolFill y.1 x.2.pa (runs.foldl (fun b r => spliceBytes b r.1 r.2) y.2), { pa := x.2.pa, mask := 0 })
    let s := { r.1 with views := fput r.1.views pv { p with lines := fput p.lines x.1 { r.2 with mask := r.2.mask ||| x.2.mask } } }
    match leafAt s (nfld (lineVa x.1) 46 2) c.asid (lineVa x.1 % 2 ^ 46) with
    | some (pte, _) => fireLine s (leafPa pte (lineVa x.1 % 2 ^ 46))
    | none => s

/-- The commit of rival `idx` (R195, R345, R346, R351): lines, siblings, outbox, the end of the record, the parent; a line may hold a `rq.head`
(R318). Table commands that the rival has left queued stay, as at `abandon` (R171), and what they would put into an outbox is never released
(DESIGN CHOICE, log entry 144). -/
def commitRival (s : State) (f : Fork) (idx v p : Nat) (w : View) : State :=
  let c := ctxOf s p .control
  let siblings := f.living.erase idx
  let s := if f.parentView = 0 then w.lines.foldl (commitBase c) s else w.lines.foldl (commitView c f.parentView) s
  let s := siblings.foldl (fun s i => killRival 5 s f i) s
  let key := match f.rivals.find? fun x => x.1 == idx with | some x => x.2.2 | none => 0
  let s := discardView s v
  let s := if f.parentView = 0 then s
    else match fget s.views f.parentView with
      | some pv => { s with views := fput s.views f.parentView { pv with outbox := pv.outbox ++ w.outbox } }
      | none => s
  let s := recordOr (endRecord (releaseLeave s p) p) p key 0 f.ctx.job 3
  let s := deliver s f idx
  let s := captureFork s f idx
  let s := { s with forks := s.forks.map fun (g : Fork) => if g.parent = f.parent then
    { g with living := [], asks := [], winner := some idx, outbox := if f.parentView = 0 then w.outbox else [], sender := some c } else g }
  retestRings (parentDue (releaseSome f.parent w.outbox.length s) f.parent)

/-- What the arbiter answers to a `choose` (R195, R347); `blocked` names the line for which a commit cannot be made yet, and why. -/
inductive Verdict where
  | wait (s : State)
  | blocked (kind va : Nat)
  | outboxFull
  | done (s : State)

/-- Whether the outbox of a committing rival fits behind the parent's (R345). -/
def boxFits (s : State) (f : Fork) (w : View) : Bool :=
  f.parentView == 0 || match fget s.views f.parentView with
    | some pv => decide (boxSize pv.outbox + boxSize w.outbox ≤ 65536)
    | none => true

/-- Whether a line that would commit into base memory has its home under test (R361). -/
def commitTested (s : State) (c : Ctx) (lines : FMap OverlayLine) : Bool :=
  !(slicesTested s).isEmpty && lines.any fun x => x.2.mask != 0 && waitsHome s { c with view := 0 } (lineVa x.1) 128 true

/-- The rival commits, if its outbox fits and every line can be written (R253, R345); a home under test holds it (R361). -/
def commitNow (s : State) (f : Fork) (idx v p : Nat) (w : View) : Verdict :=
  if ¬ boxFits s f w then .outboxFull
  else match if f.parentView = 0 then commitBlocked s (ctxOf s p .control) w.lines else none with
    | some (k, va) => .blocked k va
    | none => if f.parentView = 0 && commitTested s (ctxOf s p .control) w.lines then .wait s else .done (commitRival s f idx v p w)

/-- Whether the outbox of rival `i` of a fork fits behind the parent's (R345); one that does not has been refused, and asks no more. -/
def rivalFits (s : State) (f : Fork) (i : Nat) : Bool :=
  match (f.rivals.find? fun x => x.1 == i).bind fun x => fget s.views x.2.1 with
  | some w => boxFits s f w
  | none => false

/-- The arbiter decides (R195): of the `choose` words that reached it first, the lowest index commits; in a replay the logged rival alone
(R358). A word asks in one ac and is answered from the next on. -/
def arbitrate (s : State) (p : Nat) : Verdict :=
  let v := viewOf s p
  match forkOf s v, fget s.views v with
  | some (f, idx), some w =>
    match f.logged with
    | some r => if r ≠ idx then .done (abandonRival s v) else commitNow s f idx v p w
    | none =>
      if f.winner.isSome then .done (abandonRival s v) else
      match f.asks.find? fun a => a.1 == idx with
      | none => .wait { s with forks := s.forks.map fun (g : Fork) => if g.parent = f.parent then { g with asks := g.asks ++ [(idx, s.time)] } else g }
      | some (_, t) =>
        if s.time ≤ t ∨ f.asks.any (fun a => decide (a.2 < t ∨ (a.2 = t ∧ a.1 < idx)) && rivalFits s f a.1) then .wait s
        else commitNow s f idx v p w
  | _, _ => .done (endRecord (releaseLeave s p) p)

/-! ## The end of a job -/

/-- Ends a job (R228): no hand-out; its worlds that have not committed and its resident records discarded, with their commands; its side-log entries dropped.
What a committed world releases, and commands that other records have left in the table queues, complete (R351, R171, R227). -/
def endJob (s : State) (job : Nat) : State :=
  match findJob s job with
  | none => s
  | some _ =>
    let q := nfld job 46 2
    let s : State := modJob s job fun j => { j with status := stFaulted }
    let s : State := modQuarter s q fun x => { x with levels := x.levels.filter fun e => e.item != .job job }
    let s : State := dropEverywhere s fun e => e.ctx.job == job
    let s : State := (s.forks.filter fun (f : Fork) => f.ctx.job == job && f.parentView == 0 && f.winner.isNone).foldl (fun (s : State) (f : Fork) =>
      let s : State := captureFork (f.living.foldl (fun s i => killRival 5 s f i) s) f 0xFF
      parentReady { s with forks := s.forks.filter fun (g : Fork) => g.parent != f.parent } f 0xFF) s
    let s : State := (s.parts.filter fun (x : Nat × Part) => match x.2.resident with | some r => r.job == job | none => false).foldl (fun s x => killResident s x.1) s
    ((quarter s q).suspended.filter fun r => r.job == job && r.wake == .ready).foldl (fun s r =>
      recordReady (modQuarter s q fun x => { x with levels := x.levels.filter fun e => e.item != .record r.addr }) q r.addr) s

/-! ## The words -/

/-- The level at which the world words may issue, and for which worlds (R193). -/
def worldWordIll (s : State) (rival : Bool) : Bool := (part s s.cur).priv != 0 || (rival && viewOf s s.cur == 0)

/-- Whether a partition holds an entry in a queue register or an armed loop (R62). -/
def isLive (x : Part) : Bool := x.regs.any (fun r => !r.2.isEmpty) || x.loops.any fun l => l.2.armed

/-- The checks of `fork` on its operands (R194). -/
def forkBad (area quota : Nat) : Bool :=
  decide (area % 8 < 2) || decide (4 < area % 8) || area / 8 % 8 != 0 || (localKey area).isNone || quota == 0 || quota % 128 != 0 ||
    decide (2 ^ 40 ≤ quota)

/-- Makes the rivals and suspends the parent (R194, R226). `logged` is what a replayed log says of the fork (R358). -/
def forkNow (s : State) (p area quota : Nat) (dreg : Nat) (ids : List Nat) (logged : Option Nat) : State :=
  match (part s p).resident with
  | none => s
  | some r =>
    let x := part s p
    let resume := (x.pc.toNat + 4) % 2 ^ 48
    let depth := depthOf s r.view + 1
    let base := area / 64 * 64
    let rivals := (List.range ids.length).map fun i => (i, ids.getD i 0, recKey x.asid ((base + 64 * i) % 2 ^ 64))
    let f : Fork := { parent := r.addr, parentView := r.view, quarter := quarterOf p, ctx := ctxOf s p .control, dreg := dreg, base := r.base,
                      rivals := rivals, living := List.range ids.length, asks := [], winner := none, waitAcks := [],
                      workid := x.workid, ord := r.ordinal, logged := logged }
    let s := releaseLeave (modPart s p fun x => { x with resident := some { r with ordinal := r.ordinal + 1 } }) p
    let s := rivals.foldl (fun s v =>
      let s := { s with views := fput s.views v.2.1 { parent := r.view, depth := depth, rival := v.1, quota := quota } }
      let bs := recordBytes x { r with view := v.2.1 } resume 0 dreg
      let bs := leBytes 64 (leNat bs + v.1 * 2 ^ 230)
      let s := putRecord s p v.2.2 bs
      let u : Suspended := { addr := v.2.2, tag := 0, ordinal := 0, job := r.job, asid := x.asid, view := v.2.1, base := r.base,
                             wake := .ready, rival := true, part := p }
      recordReady (modQuarter s (quarterOf p) fun y => { y with suspended := y.suspended ++ [u] }) (quarterOf p) v.2.2) s
    let s := { s with monitors := s.monitors.filter (fun m => m.owner != .part p), forks := s.forks ++ [f] }
    suspendRecord s p resume 2 dreg .world 0

/-- Where an item of a log stands, from place `a` on: one of this kind, work identifier, view and ordinal that has not been used and that a test of
its header picks (R378). -/
def findItem (s : State) (kind w view ord : Nat) (pick : Nat → Bool) (base : Nat) (used : List Nat) (a : Nat) : Nat → Option Nat
  | 0 => none
  | k + 1 =>
    let h := leNat (cohBytes s a 64)
    if nfld h 0 8 = 0 then none
    else if nfld h 0 8 = kind ∧ nfld h 64 64 = w ∧ nfld h 148 12 = view ∧ nfld h 160 32 = ord ∧ ¬ used.contains (a - base) ∧ pick h then some a
    else findItem s kind w view ord pick base used (a + 64 * (1 + nfld h 8 8)) k

/-- The item that the log of a replayed job holds for an event (R379). -/
def logItem (s : State) (j : Job) (kind w view ord : Nat) (pick : Nat → Bool) : Option Nat :=
  let base := logBase s (nfld j.addr 46 2) j.queue
  findItem s kind w view ord pick base j.returned base (logSize s (nfld j.addr 46 2) j.queue / 64)

/-- The item of a replayed log for the next event of a kind of the record that partition `p` holds; none in a job that is not replayed. -/
def replayItem (s : State) (p kind : Nat) : Option (Job × Option Nat) :=
  match findJob s (jobOf s p), (part s p).resident with
  | some j, some r => if j.replay then some (j, logItem s j kind (part s p).workid.toNat r.view r.ordinal fun _ => true) else none
  | _, _ => none

/-- A replay diverges (R380): the job ends FAULTED, `jq.logst.div` is set, and a record is appended. -/
def diverge (s : State) (job addr ord : Nat) : State :=
  match findJob s job with
  | none => s
  | some j => endJob (noteDivergence s j addr ord) job

/-- The ordinal of a partition's record. -/
def ordinalOf (s : State) (p : Nat) : Nat := match (part s p).resident with | some r => r.ordinal | none => 0

/-- The identifiers that a `fork` is to take, and in a replay the place of its logged item: those reserved already, the logged ones, or the
lowest free ones (R194, R358). -/
def forkIds (s : State) (p n : Nat) : List Nat × Option Nat :=
  match replayItem s p 7 with
  | some (_, some a) => ((List.range n).map fun i => nfld (leNat (cohBytes s (a + 32) 8)) (12 * i) 12, some a)
  | _ => (if (part s p).reserved.length = n then (part s p).reserved else (freeViews s).take n, none)

/-- Whether a replayed `fork` must wait for its logged identifiers to be free (R358). -/
def idsTaken (s : State) (p : Nat) (ids : List Nat) : Bool :=
  !ids.all fun v => (part s p).reserved.contains v || (freeViews s).contains v

/-- The log of a replayed job has one item fewer to use. -/
def useItem (s : State) (job a : Nat) : State :=
  match findJob s job with
  | some j => modJob s j.addr fun x => { x with returned := x.returned ++ [a - logBase s (nfld j.addr 46 2) j.queue] }
  | none => s

/-- `fork` (R194): the traps come first, then the identifiers are reserved, then it waits as `park` waits. In a replay it holds until the
logged identifiers are free, and diverges where the log has none (R358, R380). -/
def execFork (h : Hdr) (d a b : Reg) (s : State) : Host.Outcome State Fault Refusal :=
  .next (issueWord s (.fork h d a b) h
    { reads := [rd s a false, rd s b false], ill := worldWordIll s false } fun v t =>
    let p := s.cur
    let area := (v.getD 0 0).toNat
    let quota := (v.getD 1 0).toNat
    if forkBad area quota then .trap 0x06 0 0
    else if ¬ (part t p).flights.isEmpty then .hold s
    else if isLive (part t p) then .trap 0x09 0 0
    else if 4 ≤ depthOf t (viewOf t p) then .trap 0x06 0 0
    else
      let ids := forkIds t p (area % 8)
      if (replayItem t p 7).isSome ∧ ids.2.isNone then .away (diverge t (jobOf t p) area (ordinalOf t p))
      else if ids.2.isSome ∧ idsTaken t p ids.1 then
        .hold (modPart s p fun x => { x with replayAt := some ((x.replayAt.map (·.1)).getD s.time, area) })
      else if ids.1.length < area % 8 then .trap 0x0B 0 0
      else if ¬ drained t p ∨ ¬ (part t p).pending.isEmpty then .hold (modPart s p fun x => { x with reserved := ids.1 })
      else match ids.2 with
        | none => .away (forkNow t p area quota d.val ids.1 none)
        | some a => .away (forkNow (useItem t (jobOf t p) a) p area quota d.val ids.1 (some (leNat (cohBytes t (a + 24) 8)))))

/-- A held word meets a failing translation: the fault is queued once for each retry signal (R77, R372). -/
def holdFault (s : State) (p va acc kind : Nat) : State :=
  if s.retries < (part s p).waitSeen then s
  else modPart (faultFor s (ctxOf s p .control) va acc kind) p fun x => { x with waitSeen := s.retries + 1 }

/-- `choose` (R195): waits as `done` waits, then asks the arbiter. A committed line whose page cannot be written holds it, so that the commit
is one moment (R253). -/
def execChoose (h : Hdr) (s : State) : Host.Outcome State Fault Refusal :=
  .next (issueWord s (.choose h) h { ill := worldWordIll s true } fun _ t =>
    if ¬ drained t t.cur ∨ ¬ (part t t.cur).pending.isEmpty then .hold s else
    match arbitrate t t.cur with
    | .wait u => .hold { s with forks := u.forks }
    | .blocked k va => .hold (holdFault s t.cur va 1 k)
    | .outboxFull => .trap 0x0C 0 0
    | .done u => .away u)

/-- `abandon` (R196). -/
def execAbandon (h : Hdr) (s : State) : Host.Outcome State Fault Refusal :=
  .next (issueWord s (.abandon h) h { ill := worldWordIll s true } fun _ t => .away (abandonRival t (viewOf t t.cur)))

/-- The world word of a partition (R197). -/
def worldWord (s : State) (p : Nat) : W64 :=
  match fget s.views (viewOf s p) with
  | some v => w64 (viewOf s p + v.depth * 2 ^ 12 + v.rival * 2 ^ 16)
  | none => 0

/-- `wid` (R197). -/
def execWid (h : Hdr) (d : Reg) (s : State) : Host.Outcome State Fault Refusal :=
  .next (issueWord s (.wid h d) h { dst := dstOf s d, ill := worldWordIll s false } fun _ t => .next (fly t d (.ready (worldWord t t.cur))))

/-- An ended view's identifier returns to the pool once nothing of the view is left (R337, R349): no command and no side-log entry
carries it, and its copies leave every read-only path. -/
def freeView (s : State) (v : Nat) : State :=
  match fget s.views v with
  | none => s
  | some x =>
    if ¬ x.ended ∨ s.parts.any (fun p => p.2.queues.any fun k => k.2.queued.any (fun c => c.ctx.view == v) || k.2.running.any fun r => r.cmd.ctx.view == v)
      ∨ s.cores.any (fun c => (c.2.sideLog ++ c.2.sideHeld).any fun e => e.ctx.view == v) then s
    else { s with views := fdel s.views v, cores := s.cores.map fun c => (c.1, { c.2 with roCopies := c.2.roCopies.filter fun k => k.1 / 2 ^ 60 != v }) }

/-- An ended view's identifier returns to the pool (R337). -/
def execViewFree (view : Nat) (s : State) : Host.Outcome State Fault Refusal := .next (freeView s view)

end Sys2Proof.Machine
end

