-- ==== Sys2Proof/Machine/Replay.lean ====
section
/-! DEFINITION. Observing reads of captured and replayed jobs (R378 to R380). -/

namespace Sys2Proof.Machine

/-- The logged item of the next observing read of the record that partition `p` holds. -/
def nextRead (s : State) (p : Nat) : Option (Job × Option Nat) := replayItem s p 2

/-- The ordinal of a partition's record moves on (R378). -/
def bumpOrdinal (s : State) (p : Nat) : State :=
  modPart s p fun x => { x with resident := x.resident.map fun r => { r with ordinal := r.ordinal + 1 } }

/-- What a replayed log holds for the next observing read of partition `p`, which names `va`: nothing outside a replay, or its value, none
where the log has no such read there (R379, R380). -/
def loggedValue (s : State) (p va : Nat) : Option (Option W64) :=
  match nextRead s p with
  | none => none
  | some (_, some a) => some (if leNat (cohBytes s (a + 24) 8) = va then some (w64 (leNat (cohBytes s (a + 32) 8))) else none)
  | some (_, none) => some none

/-- A word of partition `p` holds in a replay (R379): since when, and for which address, is kept for `rp.limit` (R380). -/
def replayWait (s : State) (p va : Nat) : State :=
  modPart s p fun x => { x with replayAt := some ((x.replayAt.map (·.1)).getD s.time, va) }

/-- An observing read that the log does not hold ends the job (R380). -/
def readDiverges (s : State) (p va : Nat) : State := diverge s (jobOf s p) va (ordinalOf s p)

/-- An observing read of `addr` that finds `v` (R378, R379, R380): the value it returns; none when the replay diverges there, at another
address or with the end of the log. -/
def observe (s : State) (p addr : Nat) (v : W64) : State × Option W64 :=
  match nextRead s p with
  | none =>
    let s := if (recording s p).1 then
        captureItem s (jobOf s p) 2 0 (part s p).workid (viewOf s p) (ordinalOf s p) addr v.toNat [] else s
    (bumpOrdinal s p, some v)
  | some (j, none) => (diverge s j.addr addr (ordinalOf s p), none)
  | some (j, some a) =>
    if leNat (cohBytes s (a + 24) 8) ≠ addr then (diverge s j.addr addr (ordinalOf s p), none) else
    let q := nfld j.addr 46 2
    let v := w64 (leNat (cohBytes s (a + 32) 8))
    let s := replayDue (modJob (bumpOrdinal s p) j.addr fun j => { j with returned := j.returned ++ [a - logBase s q j.queue] }) j.addr
    if logEnded s j.addr then (diverge s j.addr addr (ordinalOf s p), none) else (s, some v)

/-- An observing read whose value comes later (R378): it takes its ordinal now; in a replay its logged value is known at once. -/
def observeLater (s : State) (p seq addr : Nat) : State × Option W64 :=
  match nextRead s p with
  | none =>
    let o := ordinalOf s p
    let s := bumpOrdinal s p
    (if (recording s p).1 then modPart s p fun x => { x with ords := fput x.ords seq (o, addr) } else s, none)
  | some _ => match observe s p addr 0 with
    | (s, v) => (s, v)

/-- Ends a replayed job of which a word has held for `rp.limit` (R380), counted from its first try (DEDUCED, log entry 139). -/
def holdLimit (s : State) (p : Nat) : State :=
  match (part s p).replayAt with
  | none => s
  | some (since, va) => if since + mgetN s (quarterOf p) regRpLimit * acPerUs ≤ s.time then readDiverges s p va else s

/-- A replay hold that lasts `rp.limit` ends the job (R380). -/
def execReplayHoldLimit (p : Nat) (s : State) : Host.Outcome State Fault Refusal := .next (holdLimit s p)

end Sys2Proof.Machine
end

