-- ==== Sys2Proof/Machine/Mgmt.lean ====
section
/-! DEFINITION. The management registers (R364, R386, R388, R389): what a read gives, what a write does. -/

namespace Sys2Proof.Machine

/-- Which bits of a register a write sets, and which it clears by a 1 (R10, R388, R389): a mask of each; none where the offset is not
assigned, or where `mgmtWrite` gives the register a behaviour of its own. -/
structure RegKind where
  rw : Nat
  w1c : Nat

/-- Bits [hi:lo]. -/
def bitsM (hi lo : Nat) : Nat := 2 ^ (hi + 1) - 2 ^ lo

def kRw (m : Nat) : Option RegKind := some { rw := m, w1c := 0 }

def kW1c (m : Nat) : Option RegKind := some { rw := 0, w1c := m }

/-- The scheduling registers that are plain (R389). -/
def schedKind (i : Nat) : Option RegKind :=
  match i with
  | 0 => kRw (bitsM 45 0)
  | 1 | 2 | 20 => kRw (bitsM 63 0)
  | 3 | 18 => kW1c (bitsM 31 0)
  | 6 => kRw (bitsM 4 0)
  | 7 => kRw (bitsM 15 0)
  | 8 => kRw (bitsM 31 0)
  | 11 | 17 => kRw (bitsM 47 0)
  | 13 => kRw (bitsM 63 48 + bitsM 45 18)
  | 14 => kRw (bitsM 47 18 + bitsM 6 5)
  | 16 => kRw (bitsM 45 6)
  | 21 => kRw (bitsM 63 2)
  | 22 => kRw (bitsM 47 14)
  | 23 => kRw (bitsM 47 0)
  | _ => none

/-- The job-queue registers (R388). `jq.svc` is not among the bits that software writes. -/
def jqKind (r : Nat) : Option RegKind :=
  match r with
  | 0 => kRw (bitsM 63 48 + bitsM 4 3 + 1)
  | 1 => kRw (bitsM 45 19)
  | 2 => kRw (bitsM 45 6)
  | 3 => kRw (bitsM 31 0)
  | 4 => kRw (bitsM 47 12 + bitsM 5 0)
  | 6 => kW1c 3
  | 7 => kW1c (bitsM 31 0)
  | _ => none

/-- The channel registers (R376); `chm` is not plain. -/
def chKind (r : Nat) : Option RegKind :=
  if r = 1 ∨ r = 3 ∨ (8 ≤ r ∧ r < 24) then kW1c (bitsM 47 0)
  else if r = 2 then kRw (bitsM 47 0)
  else if r = 4 then kRw (bitsM 15 0)
  else none

/-- The link registers (R331). -/
def linkKind (r : Nat) : Option RegKind :=
  if r = 1 then kW1c (bitsM 47 0) else if r = 2 then kW1c (bitsM 31 0) else if r = 3 then kRw (bitsM 47 0) else none

/-- Whether an offset is a register of a link: its index there (R389). -/
def linkReg (off : Nat) : Option Nat :=
  let o := off - 0x3F0000100000
  if off < 0x3F0000100000 then none
  else if o < 0x1F00 ∨ (0x2000 ≤ o ∧ o < 0x5000) ∨ (0x6000 ≤ o ∧ o < 0x6800) then some (o % 0x100 / 8) else none

/-- The plain registers of the device that quarter 0 shows (R389). -/
def devKind (off : Nat) : Option RegKind :=
  if off = regFabLost ∨ off = regEthDrop then kW1c (bitsM 31 0)
  else if off = regLtqTimeout then kRw (bitsM 31 0)
  else if off = regEptab then kRw (bitsM 47 0)
  else if off = regWvSel then kRw (bitsM 11 0)
  else if 0x3F0000110000 ≤ off ∧ off < 0x3F0000110000 + 0x80 * 79 then kRw (bitsM 63 0)
  else if 0x3F0000120000 ≤ off ∧ off < 0x3F0000122000 then
    (if off % 0x20 = 8 then kRw (2 ^ 63 + bitsM 31 0) else if off % 0x20 = 0x18 then none else kRw (bitsM 63 0))
  else if 0x3F0000140000 ≤ off ∧ off < 0x3F0000148000 then kRw (bitsM 47 3)
  else if off = regDev 0x38 ∨ off = regDev 0x98 then kRw (bitsM 63 0)
  else if off = regDev 0x388 then kW1c (bitsM 31 0)
  else if regDev 0x100 ≤ off ∧ off ≤ regDev 0x118 then kRw (bitsM 39 0)
  else if regDev 0x280 ≤ off ∧ off ≤ regDev 0x2A0 then kRw (bitsM 63 0)
  else if off = regDev 0x380 then kRw (bitsM 15 0)
  else if off = regDev 0x300 then kRw 2
  else (linkReg off).bind linkKind

/-- The kind of a plain register. -/
def regKind (q off : Nat) : Option RegKind :=
  if off % 8 ≠ 0 then none
  else if off < 0x3F00000000C0 then schedKind ((off - 0x3F0000000000) / 8)
  else if 0x3F0000001000 ≤ off ∧ off < 0x3F0000002000 then jqKind (off % 0x40 / 8)
  else if 0x3F0000002000 ≤ off ∧ off < 0x3F0000002200 then kRw (bitsM 63 48 + bitsM 45 4 + 1)
  else if 0x3F0000003000 ≤ off ∧ off < 0x3F0000003200 then kW1c (bitsM 31 0)
  else if 0x3F0000200000 ≤ off ∧ off < 0x3F0000204000 then chKind (off % 0x100 / 8)
  else if 0x3F0000210000 ≤ off ∧ off < 0x3F0000214000 then
    (let o := off % 0x1000
     if o = 0 ∨ o = 8 then kW1c (bitsM 31 0) else if 0x100 ≤ o ∧ o < 0x300 then kRw (bitsM 31 0) else none)
  else if 0x3F0000280000 ≤ off ∧ off < 0x3F0000282000 then
    (let o := off % 0x80
     if o = 0 ∨ o = 0x10 then kW1c (bitsM 47 0) else if o = 8 then kRw (bitsM 47 0) else none)
  else if q = 0 then devKind off
  else none

/-- The partition and number of a mailbox of a quarter's window (R386). -/
def mailboxAt (q off : Nat) : Option (Nat × Nat) :=
  let o := off - 0x3F0000400000
  if off < 0x3F0000400000 ∨ 0x200 * 48 ≤ o ∨ off % 8 ≠ 0 then none
  else some (192 * q + o / 0x200 * 4 + o / 0x80 % 4, o % 0x80 / 8)

/-- The 32 bytes of a fault record (R371). -/
def faultBytes (f : FaultRec) : List Byte :=
  leBytes 32 (f.kind * 2 ^ 24 + f.acc * 2 ^ 28 + f.view * 2 ^ 68 + f.asid * 2 ^ 80 + f.unit * 2 ^ 96 + f.va * 2 ^ 128 + f.job * 2 ^ 192)

/-- The 64 bytes of an error record (R363). -/
def errorBytes (e : ErrorRec) : List Byte :=
  leBytes 64 (e.unit + e.seq * 2 ^ 32 + e.sev * 2 ^ 48 + e.kind * 2 ^ 56 + e.addr.toNat * 2 ^ 64 + e.time * 2 ^ 128 + e.detail.toNat * 2 ^ 192)

/-- Doubleword `i` of some bytes. -/
def dwordOf (bs : List Byte) (i : Nat) : W64 := w64 (leNat ((bs.drop (8 * i)).take 8))

/-- A view's descriptor (R337). -/
def viewDesc (s : State) (v : Nat) : W64 :=
  match fget s.views v with
  | none => 0
  | some x => w64 (2 ^ 63 + x.parent * 2 ^ 51 + x.depth * 2 ^ 48 + x.rival * 2 ^ 46 + (if x.ended then 2 ^ 45 else 0) + viewUsed x)

/-- What a read of the device block gives (R372, R373, R382 to R386). -/
def devRead (s : State) (off : Nat) : W64 :=
  let o := off - regDev 0
  if o < 0x20 then (match s.faults with | f :: _ => dwordOf (faultBytes f) (o / 8) | [] => 0)
  else if o = 0x20 then w64 s.faults.length
  else if 0x40 ≤ o ∧ o < 0x80 then (match s.errors with | e :: _ => dwordOf (errorBytes e) ((o - 0x40) / 8) | [] => 0)
  else if o = 0x80 then w64 s.errors.length
  else if o = 0x90 then w64 s.errLost
  else if o = 0x120 then mget s 0 off + (if s.opBusy then 256 else 0)
  else if o = 0x200 then w64 (s.bootStage % 256 + s.bootCode % 256 * 2 ^ 8 + if s.ready then 2 ^ 16 else 0)
  else if 0x208 ≤ o ∧ o < 0x248 then dwordOf s.measure ((o - 0x208) / 8)
  else mget s 0 off

/-- What a read of a management register gives (R364, R389). -/
def mgmtRead (s : State) (q off : Nat) : W64 :=
  if off % 8 ≠ 0 then 0 else
  match mailboxAt q off with
  | some (p, n) => fgetD (part s p).mailboxes n 0
  | none =>
    if off = regPwHeld then
      w64 (fgetD (quarter s q).granted 0 0 + fgetD (quarter s q).granted 1 0 * 2 ^ 16 + fgetD (quarter s q).granted 2 0 * 2 ^ 32)
    else if off = regSkClr then (if (quarter s q).clearing.isSome then 256 else 0)
    else if off = regInval then mget s q off + (if s.invalBusy.contains q then 8 else 0)
    else if off = regMigCtl then mget s q off + (if s.migrating.contains q then 1 else 0)
    else if q = 0 ∧ regDev 0 ≤ off ∧ off < regDev 0x1000 then devRead s off
    else if q = 0 ∧ off = regWvDesc then viewDesc s (mgetN s 0 regWvSel)
    else if q = 0 ∧ off = regWvQuota then
      (let v := mgetN s 0 regWvQuota / 2 ^ 52
       w64 (v * 2 ^ 52 + match fget s.views v with | some x => x.quota | none => 0))
    else if q ≠ 0 ∧ 0x3F0000100000 ≤ off ∧ off < 0x3F0000200000 then 0
    else mget s q off

/-- A write of a plain register (R10): RW bits take the value, W1C bits clear where it holds 1. -/
def plainWrite (s : State) (q off : Nat) (v : W64) : State :=
  match regKind q off with
  | none => s
  | some k =>
    let old := mget s q off
    mset s q off ((old &&& ~~~(w64 k.rw)) &&& ~~~(v &&& w64 k.w1c) ||| (v &&& w64 k.rw))

/-! ## Registers with a behaviour of their own -/

/-- A retry signal: a write of `tr.inval` or of `wv.quota` (R372). -/
def retrySignal (s : State) : State := { s with retries := s.retries + 1 }

/-- A write to `tr.inval` (R288); ignored while an invalidation runs. -/
def invalWrite (s : State) (q : Nat) (v : W64) : State :=
  if s.invalBusy.contains q then s else
  retrySignal (mset { s with invalBusy := s.invalBusy ++ [q] } q regInval (v &&& w64 (bitsM 63 48 + bitsM 45 18 + bitsM 2 0)))

/-- Whether an invalidation of quarter `q` concerns a held translation (R288): `scope` 0 a page, 1 an address space, else everything; global
entries only where `glob` says so. -/
def invalHits (scope asid off : Nat) (glob : Bool) (q : Nat) (e : TlbEntry) : Bool :=
  e.quarter == q && (decide (2 ≤ scope) ||
    ((if nbit e.pte 7 then glob else e.asid == asid) && (scope == 1 || e.page == off / pageSize e.size)))

/-- Whether an invalidation of quarter `q` concerns a replica line (R288, R289), by the page and the tags of the leaf that it was filled under. -/
def replicaHits (scope asid off : Nat) (glob : Bool) (q : Nat) (r : Replica) : Bool :=
  r.line * 128 / 2 ^ 46 == q && (decide (2 ≤ scope) ||
    ((if r.glob then glob else r.asid == asid) && (scope == 1 || r.line * 128 % 2 ^ 46 / r.size == off / r.size)))

/-- A replica line is emptied (R289): no L1 or L2 level of its quarter holds it any more. -/
def emptyReplica (s : State) (r : Replica) : State :=
  releaseLine { s with tags := { s.tags with virt := s.tags.virt.filter fun v =>
    !(v.1 % 2 ^ 76 == lineKey 0 r.asid r.line && v.2.pa == r.place / 128 && v.2.old.isNone) } } (r.place / 128)

/-- Removes the translations and the replica lines that an invalidation concerns (R288, R289). -/
def removeTranslations (s : State) (q scope asid off : Nat) (glob : Bool) : State :=
  let hit := invalHits scope asid off glob q
  let away := replicaHits scope asid off glob q
  (s.tags.replicas.filter away).foldl emptyReplica
    { s with tags := { s.tags with large := s.tags.large.filter (fun e => !hit e), homes := s.tags.homes.filter (fun h => !hit h.2),
                                   replicas := s.tags.replicas.filter fun r => !away r } }

/-- The invalidation ends (R288): what it concerns is gone. -/
def invalDone (s : State) (q : Nat) : State :=
  if ¬ s.invalBusy.contains q then s else
  let v := mgetN s q regInval
  removeTranslations { s with invalBusy := s.invalBusy.filter (· != q) } q (nfld v 1 2) (nfld v 48 16) (nfld v 18 28 * 2 ^ 18) (nbit v 0)

/-- A write to `wv.quota` (R343). -/
def quotaWrite (s : State) (v : W64) : State :=
  let view := v.toNat / 2 ^ 52
  let s := mset s 0 regWvQuota (v &&& w64 (bitsM 63 52))
  retrySignal (match fget s.views view with
    | some x => if x.ended then s else { s with views := fput s.views view { x with quota := v.toNat % 2 ^ 40 / 128 * 128 } }
    | none => s)

/-- A write to `sk.clr` (R296): the counters of the slot are zeroed on the quarter's four gleaners. Counters are numbered
65,536 * (64 * gleaner + slot) + 16,384 * row + place. -/
def sketchClear (s : State) (q : Nat) (v : W64) : State :=
  let slot := v.toNat % 64
  modQuarter s q fun x => { x with sketch := x.sketch.filter (fun k => k.1 / 65536 % 64 != slot), clearing := some slot }

/-- The clearing ends (R296). -/
def sketchCleared (s : State) (q : Nat) : State := modQuarter s q fun x => { x with clearing := none }

/-- A write to `hr.cfg` (R294): accepted at once, ignored when the pools exceed 127 GiB. It and every write accepted before it are performed
when it takes effect. -/
def hrWrite (s : State) (q : Nat) (v : W64) (writer word job : Nat) : State :=
  let n := v.toNat
  if 127 < nfld n 0 8 + nfld n 8 8 + nfld n 16 8 + nfld n 24 8 then s
  else modQuarter s q fun x => { x with hrPending := some (w64 (n % 2 ^ 32)), hrWriters := (writer, word, job) :: x.hrWriters }

/-- Whether a command of the gleaner or the Darner queue works on a table of a quarter (R294). -/
def tableOfQuarter (c : Cmd) (q : Nat) : Bool := nfld (c.vals.getD 0 0).toNat 46 2 == q

/-- Whether a table command of a quarter is running (R294). -/
def tableBusy (s : State) (q : Nat) : Bool :=
  s.parts.any fun x => [3, 4].any fun k => (fgetD x.2.queues k {}).running.any fun r => tableOfQuarter r.cmd q

/-- New pools take effect once the quarter's started table commands are done (R294); every row is discarded. The words that wrote them are
complete then (R15). -/
def hrApply (s : State) (q : Nat) : State :=
  match (quarter s q).hrPending with
  | none => s
  | some v =>
    if tableBusy s q then s else
    (quarter s q).hrWriters.foldl (fun s w => postReady s w.1)
      (mset (modQuarter s q fun x => { x with hrPending := none, hrWriters := [], hot := [] }) q regHrCfg v)

/-- A range of physical memory reads 0, and no cache holds a line of it (R292, R290). -/
def zeroRange (s : State) (a n : Nat) : State :=
  { s with tags := { s.tags with virt := s.tags.virt.filter (fun v => v.2.old.isSome || !decide (a ≤ 128 * v.2.pa ∧ 128 * v.2.pa < a + n)),
                                 msc := s.tags.msc.filter fun l => !decide (a ≤ 128 * l.1 ∧ 128 * l.1 < a + n) },
           mem := s.mem.filter (fun c => !decide (a ≤ c.1 ∧ c.1 < a + n)),
           die := s.die.filter (fun c => !decide (a ≤ 32 * c.1 ∧ 32 * c.1 < a + n)),
           failing := s.failing.filter fun x => !decide (a ≤ 32 * x ∧ 32 * x < a + n) }

/-- The physical channels that a gleaner's map names (R292). -/
def chmPhys (f : Nat → Nat) : List Nat := ((List.range 16).filter fun c => nfld (f c) 6 2 != 3).map fun c => nfld (f c) 0 4

/-- A write to a channel-map entry (R292). -/
def chmSet (s : State) (q g c : Nat) (v : W64) : State :=
  let old := mgetN s q (regCh g c 0)
  let new := nfld v.toNat 6 2 * 64 + nfld v.toNat 0 4
  let names := chmPhys fun i => if i = c then new else mgetN s q (regCh g i 0)
  if ¬ names.Nodup then s
  else if nfld old 6 2 = nfld new 6 2 ∧ nfld old 0 4 = nfld new 0 4 then
    (if nbit v.toNat 5 then mset s q (regCh g c 0) (w64 new) else s)
  else mset (zeroRange s (q * 2 ^ 46 + 0x100000000000 + g * 2 ^ 39 + c * 2 ^ 35) (2 ^ 35)) q (regCh g c 0) (w64 (new + 32))

/-- The source leaf and the new leaf of a quarter's migration (R302). -/
def migrationLeaf (s : State) (q : Nat) : Option (Nat × Nat × Nat) :=
  let va := mgetN s q regMigVa
  let dst := mgetN s q regMigDst
  (leafAt s q (nfld va 48 16) (nfld va 18 28 * 2 ^ 18)).map fun l => (l.1, l.2, nset (nset l.1 18 30 (nfld dst 18 30)) 5 2 (nfld dst 5 2))

/-- A write to `mig.ctl` (R302): it starts a migration, or sets `mig.err` when the destination is not usable. -/
def migStart (s : State) (q : Nat) : State :=
  if s.migrating.contains q then s else
  match migrationLeaf s q with
  | some (_, _, new) =>
    if leafUsable s q new then mset { s with migrating := s.migrating ++ [q] } q regMigCtl 0 else mset s q regMigCtl 2
  | none => mset s q regMigCtl 0

/-- The bytes, marks and monitors of `n` bytes at `a` move to `b` (R290). -/
def moveRange (s : State) (a b n : Nat) : State :=
  let inA (x : Nat) : Bool := decide (a ≤ x ∧ x < a + n)
  let s := (s.die.filter fun c => inA (32 * c.1)).foldl (fun s c => dropSector (writeBack s c.1) c.1) s
  let cells := (s.mem.filter fun c => inA c.1).map fun c => (b + (c.1 - a), c.2)
  let bad := (s.failing.filter fun x => inA (32 * x)).map fun x => (b + (32 * x - a)) / 32
  let s := zeroRange (zeroRange s a n) b n
  { s with mem := cells.foldl (fun m c => memPut m c.1 c.2) s.mem, failing := s.failing ++ bad,
           monitors := s.monitors.map fun m => if inA (128 * m.line) then { m with line := (b + (128 * m.line - a)) / 128 } else m }

/-- Each line of `n` bytes at `a` is copied to `b` (R302): its dirty sectors are written back first, a sector that its code cannot correct
stays so, the monitors of `a` are `b`'s, and so are the lines of L1 and L2 levels whose key is one of the page that moves. The old frame
keeps its bytes. -/
def copyRange (s : State) (a b n : Nat) (moves : Nat → Bool) : State :=
  if a = b then s else
  let inA (x : Nat) : Bool := decide (a ≤ x ∧ x < a + n)
  let line (v : Nat × VLine) : Nat × VLine :=
    if inA (128 * v.2.pa) && v.2.old.isNone && moves v.1 then (v.1, { v.2 with pa := (b + (128 * v.2.pa - a)) / 128 }) else v
  let s : State := zeroRange s b n
  let s : State := (s.die.filter fun c => inA (32 * c.1)).foldl (fun (s : State) c => writeBack s c.1) s
  let cells := (s.mem.filter fun c => inA c.1).map fun c => (b + (c.1 - a), c.2)
  let s : State := { s with
    mem := cells.foldl (fun m c => memPut m c.1 c.2) s.mem,
    die := (s.die.filter fun c => inA (32 * c.1)).foldl (fun m c => fput m ((b + (32 * c.1 - a)) / 32) c.2) s.die,
    failing := s.failing ++ (s.failing.filter fun x => inA (32 * x)).map fun x => (b + (32 * x - a)) / 32,
    monitors := s.monitors.map fun m => if inA (128 * m.line) then { m with line := (b + (128 * m.line - a)) / 128 } else m,
    tags := { s.tags with virt := s.tags.virt.map line } }
  (s.die.filter fun c => inA (32 * c.1) || decide (b ≤ 32 * c.1 ∧ 32 * c.1 < b + n)).foldl (fun s c => releaseLine s (c.1 / 4)) s

/-- The leaf that a migration writes (R302): the entry as it stands, with another frame and tier; reserved bits are written as zero (R10). -/
def movedLeaf (s : State) (q place : Nat) : Nat :=
  let dst := mgetN s q regMigDst
  let e := nset (nset (leNat (cohBytes s place 8)) 18 30 (nfld dst 18 30)) 5 2 (nfld dst 5 2)
  nset (nset (nset e 62 2 0) 10 8 0) 3 2 0

/-- Whether a key of an L1 or L2 level is that of a line of the page at an offset of quarter `q` under a leaf (R286, R287). -/
def keyOfPage (pte q asid off k : Nat) : Bool :=
  k / 2 ^ 64 % 2 ^ 12 == 0 && (nbit pte 7 || k / 2 ^ 48 % 2 ^ 16 == asid) && k % 2 ^ 48 * 128 / 2 ^ 46 == q &&
    k % 2 ^ 48 * 128 % 2 ^ 46 / pageSize (nfld pte 1 2) == off / pageSize (nfld pte 1 2)

/-- The migration ends (R302): every line is copied, the leaf names the new frame, the page's translations are gone as after an invalidation of
scope 0. -/
def migDone (s : State) (q : Nat) : State :=
  if ¬ s.migrating.contains q then s else
  let s := { s with migrating := s.migrating.filter (· != q) }
  match migrationLeaf s q with
  | some (old, place, new) =>
    if ¬ leafUsable s q new then mset s q regMigCtl 2 else
    let va := mgetN s q regMigVa
    let s := copyRange s (nfld old 18 30 * 2 ^ 18) (nfld new 18 30 * 2 ^ 18) (pageSize (nfld old 1 2)) (keyOfPage old q (nfld va 48 16) (nfld va 18 28 * 2 ^ 18))
    let s := physPut s place (leBytes 8 (movedLeaf s q place))
    removeTranslations s q 0 (nfld va 48 16) (nfld va 18 28 * 2 ^ 18) true
  | none => s

/-- A write to `op.sel` (R382). -/
def opSelect (s : State) (v : W64) : State := mset { s with opBusy := true } 0 (regDev 0x120) (v &&& 3)

/-- Whether a record of any job is live (R382). -/
def anyLive (s : State) : Bool :=
  s.parts.any (fun x => x.2.resident.isSome) || (List.range 4).any fun q => !(quarter s q).suspended.isEmpty

/-- The top `n` ways of a quarter become the lent ways (R290). A way lent before keeps its bytes, at the place that its number now
gives; bytes newly lent read 0. -/
def setWays (s : State) (q n : Nat) : State :=
  let base := q * 2 ^ 46 + 0x200000000000
  let old := (quarter s q).msways
  let k := min old n
  let s := if old = n then s else moveRange s (base + (old - k) * 2 ^ 25) (base + (n - k) * 2 ^ 25) (k * 2 ^ 25)
  let s := if old ≤ n then zeroRange s base ((n - k) * 2 ^ 25) else zeroRange s (base + n * 2 ^ 25) (2 ^ 29 - n * 2 ^ 25)
  modQuarter s q fun x => { x with msways := n, drained := n, mswaysSt := 0 }

/-- The lines of a quarter's memory-side cache that lie in ways `lo` to 15; which those are is a free value (R290). -/
def linesIn (s : State) (q lo : Nat) : List Nat :=
  (s.tags.msc.map (·.1)).filter fun l => decide (l * 128 / 2 ^ 46 = q ∧ lo ≤ Config.wayOf s.nextSeq l % 16)

/-- Lines leave the memory-side cache with a write-back (R290). -/
def leaveWays (s : State) (lines : List Nat) : State :=
  lines.foldl (fun s l =>
    let s := (List.range 4).foldl (fun s i => writeBack s (4 * l + i)) s
    releaseLine { s with tags := { s.tags with msc := fdel s.tags.msc l } } l) s

/-- A drain of the top ways (R290). -/
def drainWays (s : State) (q n : Nat) : State :=
  if 16 < n then modQuarter s q fun x => { x with mswaysSt := 2 } else
  modQuarter { leaveWays s (linesIn s q (16 - n)) with nextSeq := s.nextSeq + 1 } q fun x => { x with drained := n, mswaysSt := 0 }

/-- Whether a way to be lent holds a dirty line (R290): none among drained ways. -/
def waysDirty (s : State) (q n : Nat) : Bool :=
  let x := quarter s q
  (linesIn s q (16 - n)).any fun l => decide (Config.wayOf s.nextSeq l % 16 < 16 - max x.drained x.msways) &&
    (List.range 4).any fun i => match fget s.die (4 * l + i) with | some c => c.dirty | none => false

/-- A convert (R290). -/
def convertWays (s : State) (q n : Nat) : State :=
  if 16 < n then modQuarter s q fun x => { x with mswaysSt := 2 }
  else if waysDirty s q n then modQuarter { s with nextSeq := s.nextSeq + 1 } q fun x => { x with mswaysSt := 1 }
  else setWays { leaveWays s ((linesIn s q (16 - n)).filter fun l => decide (Config.wayOf s.nextSeq l % 16 < 16 - max (quarter s q).drained (quarter s q).msways)) with
    nextSeq := s.nextSeq + 1 } q n

/-- A set takes effect once no record is live and no table command runs (R382): `hr.cfg`, the ways, drained and then converted, the modes. It is read as it
stands then (DESIGN CHOICE, log entry 150). -/
def opApply (s : State) : State :=
  if ¬ s.opBusy ∨ anyLive s ∨ (List.range 4).any (fun q => tableBusy s q) then s else
  let sel := mgetN s 0 (regDev 0x120) % 4
  let v := mgetN s 0 (regDev (0x100 + 8 * sel))
  let s := (List.range 4).foldl (fun s q =>
    let s := hrApply (hrWrite s q (w64 (nfld v 0 32)) 768 0 0) q
    convertWays (drainWays s q (nfld v 32 5)) q (nfld v 32 5)) s
  { s with opBusy := false, modeSet := sel, profile := nfld v 37 1, ordered := nbit v 38, capture := nbit v 39 }

/-- A write to `at.go` (R385). -/
def attestGo (s : State) (v : W64) : State :=
  if s.reportBusy ∨ ¬ nbit v.toNat 0 then s else mset { s with reportBusy := true } 0 (regDev 0x2A8) 0

/-- Stores that the device makes for the runtime (R372, R373, R385): in `ucie.asid`, to the host die or to another device; one that
finds no mapping is dropped and counted in `ucie.err`. -/
def deviceStore (s : State) (va : Nat) (bs : List Byte) : State :=
  match locOf va with
  | .host => { s with hostOut := s.hostOut ++ [(va, bs)] }
  | .remote d => sendPacket s (senderNo (mgetN s 0 (regDev 0x380) % 2 ^ 16) 0x3020) d (.write va bs)
  | .reserved => mbump s 0 (regDev 0x388) 32
  | .here q _ => homeWrite s q (mgetN s 0 (regDev 0x380) % 2 ^ 16) va bs 2 0 0

/-- A block of `n` bytes: cut, or filled with zeros. -/
def fitBytes (n : Nat) (bs : List Byte) : List Byte := bs.take n ++ List.replicate (n - bs.length) 0

/-- The first 192 bytes of a report (R385). -/
def reportBody (s : State) : List Byte :=
  fitBytes 64 Config.identity ++ fitBytes 64 s.measure ++ fitBytes 31 Config.stageVersions ++ leBytes 1 s.modeSet ++
  leBytes 8 (mgetN s 0 (regDev 0x280)) ++ leBytes 8 (mgetN s 0 (regDev 0x288)) ++ leBytes 8 (mgetN s 0 (regDev 0x290)) ++
  leBytes 8 (mgetN s 0 (regDev 0x298))

/-- Adeun writes the report and sets `at.go`[1] (R385). -/
def attestDone (s : State) : State :=
  if ¬ s.reportBusy then s else
  let body := reportBody s
  mset (deviceStore { s with reportBusy := false } (mgetN s 0 (regDev 0x2A0)) (body ++ fitBytes 64 (Config.ed25519Sign (Config.sha512 body)))) 0
    (regDev 0x2A8) 2

/-- A write to `fq.end` (R372). -/
def faultEnd (s : State) (v : Nat) : State :=
  match localKey v with
  | some k => endJob s (Config.device * 2 ^ 48 + k)
  | none => s

/-- Mailbox `n` of a partition takes a value; the older value stands for reads of the same ac (R59). -/
def setMailbox (s : State) (p n : Nat) (v : W64) : State :=
  modPart s p fun x =>
    let older := match fget x.mbWritten n with
      | some (t, o) => if t = s.time then o else fgetD x.mailboxes n 0
      | none => fgetD x.mailboxes n 0
    { x with mailboxes := fput x.mailboxes n v, mbWritten := fput x.mbWritten n (s.time, older) }

/-- A write to a management register (R364, R389). `writer` is the partition, 768 for the host die, 769 for Adeun, which alone
changes `jq.svc` (R388); `word` is the word that writes, for a partition, and `job` its job. A write of `rq.cfg` lets the records that wait at a window be tried
again (R318). -/
def mgmtWrite (s : State) (writer q off : Nat) (v : W64) (word : Nat := 0) (job : Nat := 0) : State :=
  if off % 8 ≠ 0 then s else
  match mailboxAt q off with
  | some (p, n) => setMailbox s p n v
  | none =>
    if off = regInval then invalWrite s q v
    else if off = regSkClr then sketchClear s q v
    else if off = regHrCfg then hrWrite s q v writer word job
    else if off = regMigCtl then (if nbit v.toNat 0 then migStart s q else s)
    else if 0x3F0000200000 ≤ off ∧ off < 0x3F0000204000 ∧ off % 0x100 = 0 then
      chmSet s q (off / 0x1000 % 4) (off / 0x100 % 16) v
    else if q = 0 ∧ off = regWvQuota then quotaWrite s v
    else if q = 0 ∧ off = regDev 0x28 then { s with faults := s.faults.tail }
    else if q = 0 ∧ off = regDev 0x30 then faultEnd s v.toNat
    else if q = 0 ∧ off = regDev 0x88 then { s with errors := s.errors.tail }
    else if q = 0 ∧ off = regDev 0x90 then { s with errLost := (w64 s.errLost &&& ~~~v).toNat }
    else if q = 0 ∧ off = regDev 0x120 then opSelect s v
    else if q = 0 ∧ off = regDev 0x2A8 then attestGo s v
    else
      let s' := plainWrite s q off v
      if writer = 769 ∧ 0x3F0000001000 ≤ off ∧ off < 0x3F0000002000 ∧ off % 0x40 = 0 then
        mset s' q off (w64 (nset (mgetN s' q off) 1 1 (nfld v.toNat 1 1)))
      else if 0x3F0000002000 ≤ off ∧ off < 0x3F0000002200 then retestRings s'
      else s'

/-- A due notification of the error queue is stored (R373). -/
def notifyErrors (s : State) : State :=
  if ¬ s.notifyDue then s else
  let s := { s with notifyDue := false }
  let a := mgetN s 0 (regDev 0x98)
  if a = 0 then s else deviceStore s a (leBytes 8 s.errors.length)

/-- The oldest waiting fault is appended when there is room (R371); a queue that becomes non-empty is notified (R372). -/
def appendFault (s : State) : State :=
  match s.faultsWaiting with
  | [] => s
  | f :: r =>
    if 1024 ≤ s.faults.length then s else
    let first := s.faults.isEmpty
    let s := { s with faults := s.faults ++ [f], faultsWaiting := r }
    let a := mgetN s 0 (regDev 0x38)
    if first ∧ a ≠ 0 then deviceStore s a (leBytes 8 s.faults.length) else s

end Sys2Proof.Machine
end

