-- ==== Sys2Proof/Machine/SideLog.lean ====
section
/-! DEFINITION. Writes of any kind and place, and the replay of the side logs (R300, R301, R254, R255). -/

namespace Sys2Proof.Machine

/-! ## Places -/

/-- The device field of an address is one that no access may name (R5). -/
def isReserved (va : Nat) : Bool := locOf va == .reserved

def isHost (va : Nat) : Bool := locOf va == .host

def isRemote (va : Nat) : Bool := match locOf va with | .remote _ => true | _ => false

def isHere (va : Nat) : Bool := match locOf va with | .here _ _ => true | _ => false

/-- An address of the management window of a quarter, of this device or of another (R364). -/
def isMgmt (va : Nat) : Bool := match locOf va with | .here _ off => inMgmt off | .remote _ => inMgmt (va % 2 ^ 46) | _ => false

/-- An address with this device named in one way (R4). -/
def normVa (va : Nat) : Nat := match locOf va with | .here q off => 0xFFFF * 2 ^ 48 + q * 2 ^ 46 + off | _ => va

/-- Whether two ranges of an address space have a 128-byte line in common (R241). -/
def linesMeet (va n va' n' : Nat) : Bool :=
  decide (normVa va / 128 ≤ (normVa va' + max n' 1 - 1) / 128 ∧ normVa va' / 128 ≤ (normVa va + max n 1 - 1) / 128)

/-! ## What a stream has under way -/

/-- Loads of a stream whose value is not bound. -/
def pendingLoad (f : Flight) : Option LoadReq := match f.val with | .load r => some r | _ => none

/-- Whether a wait in a store queue is a post, whose local read is a load (R73). -/
def isPost (w : StoreWait) : Bool := match w.item with | .post .. => true | _ => false

/-- Loads of a stream that are not performed, the local reads of posts among them, before word `seq`. -/
def loadsBefore (x : Part) (seq : Nat) : Bool :=
  x.flights.any (fun f => decide (f.seq < seq) && (pendingLoad f).isSome) || x.stores.any fun w => decide (w.seq < seq) && isPost w

/-- Writes of a stream that stand in its store queue, from words before `seq`. -/
def storesBefore (x : Part) (seq : Nat) : Bool := x.stores.any fun w => decide (w.seq < seq)

/-- Writes of a stream that stand in its side log, from words before `seq`. -/
def logBefore (s : State) (p seq : Nat) : Bool :=
  let x := core s (coreOf p)
  (x.sideLog ++ x.sideHeld).any fun e => e.ctx.part == p && e.ctx.agent == .control && decide (e.seq < seq)

/-- Accesses of a stream to other devices or to the host die that are not acknowledged or answered, from words before `seq`, as they matter to a
scope: the read of a `waitaddr`, whose value is not bound, for every scope (R239, R247); the host die's writes for device and fabric scope, and all for
fabric scope (R83, R254, R255). -/
def acksBefore (s : State) (p seq scope : Nat) : Bool :=
  s.awaits.any fun a => decide (a.word < seq) && a.part == p &&
    (match a.kind with | .value _ _ 1 => true | .ack | .atHome | .value _ _ _ => scope == 3 || (scope == 2 && isHost a.va) | _ => false)

/-- Whether a write of word `seq` of a stream is still to wait for what may be under way outside the stream's own queues: any write for an
earlier store to `hr.cfg` (R241 item 2, R294); one behind a mark (R84), or a release (R78), for loads and acknowledgements. `gate` is 0, or the
mark's number; `rel` is 0, or 1 more than the release's scope. -/
def orderHolds (s : State) (p seq gate rel : Nat) : Bool :=
  hrBefore s p seq ||
    (gate != 0 && (loadsBefore (part s p) (gate / 4) || acksBefore s p (gate / 4) (gate % 4))) ||
    (rel != 0 && (loadsBefore (part s p) seq || acksBefore s p seq (rel - 1)))

/-- The order that an entry of a side log keeps: a control stream's own. -/
def entryOrder (s : State) (e : SideEntry) : Bool :=
  match e.ctx.agent with
  | .control => orderHolds s e.ctx.part e.seq e.gate e.rel
  | _ => false

/-! ## Writes of any kind and place -/

/-- What the issuer of a write to another device waits for (R254, R93). -/
def ackKind (c : Ctx) (id : Nat) : AwaitKind :=
  match c.agent with
  | .control => .ack
  | a => .cmd c.part (queueOfAgent a) id

/-- What the issuer of a `bbinit` or `bbexp` to another device waits for (R88). -/
def homeKind (c : Ctx) (id : Nat) : AwaitKind := match ackKind c id with | .ack => .atHome | k => k

/-- A request leaves for another device, and its acknowledgement or answer is awaited (R254, R246). -/
def requestOut (s : State) (c : Ctx) (kind : AwaitKind) (va : Nat) (b : Payload) (id : Nat) : State :=
  match locOf va with
  | .remote d => sendPacket (noteAwait s c kind (numberTo s c va) id va) (senderOf c) d b
  | _ => s

/-- A write of a management register is made; after one that invalidates, the tests of dependences that found no valid mapping are made again (R223). -/
def mgmtNow (s : State) (writer q off : Nat) (v : W64) (word job : Nat) : State :=
  let s' := mgmtWrite s writer q off v word job
  if off = regInval ∧ s'.retries ≠ s.retries then testAgain s' else s'

/-- Performs a write wherever its address leads: on this device, in the management window, on the host die, on another device, where it leaves
in packets of at most 256 bytes (R310). The answer is an atomic's old value, where it is known at once. -/
def performAny (s : State) (c : Ctx) (va : Nat) (op : WriteOp) (hint id : Nat) : State × Except MemErr (Option W64) :=
  match locOf va with
  | .host => match op with
    | .bytes bs => (storeOut s c (ackKind c id) va bs id, .ok none)
    | _ => (s, .ok none)
  | .remote _ => match op with
    | .bytes bs => ((cut256 (bs.length / 256 + 2) va bs).foldl (fun s x => storeOut s c (ackKind c id) x.1 x.2 id) s, .ok none)
    | .atomic o x y => (requestOut s c (.value c.part id 0) va (.atomic va o x y) id, .ok none)
    | .barrierAdd n => (requestOut s c (ackKind c id) va (.add va n) id, .ok none)
    | .bbInit e => (requestOut s c (homeKind c id) va (.barrier va false e) id, .ok none)
    | .bbExp e => (requestOut s c (homeKind c id) va (.barrier va true e) id, .ok none)
    | .maintain _ _ => (s, .ok none)
  | .here q off =>
    if inMgmt off then
      match op with
      | .bytes bs => (mgmtNow s c.part q off (w64 (leNat bs)) id c.job, .ok none)
      | _ => (s, .ok none)
    else match performOp s c va op hint with
      | (s, .ok v) => (s, .ok (some v))
      | (s, .error e) => (s, .error e)
  | .reserved => (s, .ok none)

/-! ## Table masters -/

/-- Writes bytes of one sector of a table's master (R185, R295, R298): the caches of the die keep what they hold, monitors fire. A window
discards them; `first` marks the first piece of a write, which counts (R203). -/
def masterPut (s : State) (c : Ctx) (va : Nat) (bs : List Byte) (first : Bool) : State × Except MemErr Unit :=
  match locOf va with
  | .here q off =>
    match spotOf s q off with
    | .jobWindow n o => (if first ∨ o = 0 then countDiscard s q n else s, .ok ())
    | .rqWindow _ _ => (s, .ok ())
    | .mgmt => (s, .error (.fault 0 va))
    | .memory =>
      match writeLeaf s c q off va with
      | .error e => (noteLeaf s q c.asid off, .error e)
      | .ok pte =>
        let s := noteLeaf s q c.asid off
        let pa := leafPa pte off
        let s := if s.failing.contains (pa / 32) ∧ (nbit pte 52 ∨ bs.length = 32) then
            { s with mem := memPutAll s.mem (pa / 32 * 32) (substitute (nfld pte 53 3)), failing := s.failing.filter (· != pa / 32) } else s
        (fireLine { s with mem := memPutAll s.mem pa bs } pa, .ok ())
  | _ => (s, .error (.fault 0 va))

/-- Writes pieces of a master; the first failure names its piece. -/
def masterPuts (c : Ctx) (va0 : Nat) (bs : List Byte) : List (Nat × Nat) → State → State × Except MemErr Unit
  | [], s => (s, .ok ())
  | (va, n) :: r, s =>
    match masterPut s c va ((bs.drop (va - va0)).take n) (va == va0) with
    | (s, .ok ()) => masterPuts c va0 bs r s
    | (s, .error e) => (s, .error e)

/-- A write of an entry is made (R300): a Darner's write goes to the master, as it would have before it retired (R298). -/
def performEntry (s : State) (e : SideEntry) : State × Except MemErr (Option W64) :=
  match e.ctx.agent, e.op with
  | .darner, .bytes bs => match masterPuts { e.ctx with view := 0 } e.va bs (piecesOf e.va bs.length) s with
    | (s, .ok ()) => (s, .ok none)
    | (s, .error x) => (s, .error x)
  | _, _ => performAny s e.ctx e.va e.op e.hint e.seq

/-! ## Replay -/

/-- The record whose bytes an entry completed: it joins its level when it is ready (R392). -/
def recordPerformed (s : State) (e : SideEntry) : State :=
  if ¬ e.cont then s else
  [0, 1, 2, 3].foldl (fun s q =>
    match (quarter s q).suspended.find? (fun r => r.addr / 2 ^ 64 == e.ctx.asid && r.addr % 2 ^ 64 == e.va / 64 * 64) with
    | some r => if r.wake = .ready then recordReady s q r.addr else s
    | none => s) s

/-- A replayed entry cannot be performed after all: the page has become one that a world may not write (R285, R352), or an atomic meets an
uncorrectable error (R77). -/
def entryFails (s : State) (e : SideEntry) (cause : Nat) : State :=
  match e.ctx.agent with
  | .control => lateFail s e.ctx.part e.seq cause e.va
  | _ => lateEngineTrap s e.ctx e.seq cause

/-- Whether an entry waits for a slice under test (R361). -/
def entryWaits (s : State) (e : SideEntry) : Bool :=
  match e.ctx.agent with
  | .darner => waitsWalk s e.ctx e.va (opSpan e.op)
  | _ => waitsHome s e.ctx e.va (opSpan e.op) true

/-- Retries the head of core `k`'s log (R300): the state after it, and whether the entry is gone. A head that has failed waits for the next
retry signal; one behind a mark, or a release, for what it orders (R84, R78); one whose home is under test, for the end of the test (R361). -/
def retryHead (s : State) (k : Nat) : State × Bool :=
  match (core s k).sideLog with
  | [] => (s, false)
  | e :: r =>
    if s.retries < e.seen ∨ entryOrder s e ∨ entryWaits s e then (s, false) else
    match performEntry s e with
    | (s, .error (.fault kind va)) =>
      let v := match e.op with | .bytes _ | .maintain _ _ => va | _ => e.va
      (modCore (faultFor s e.ctx va e.kind kind) k fun x =>
        { x with sideLog := { e with va := v, op := opFrom e.va v e.op, seen := s.retries + 1 } :: r }, false)
    | (s, res) =>
      let s := modCore s k fun x => { x with sideLog := x.sideLog.tail }
      let s := enterHeld 768 s k
      let s := match res with
        | .ok (some v) => if e.reg.isNone then s else
          landAnswer s e.ctx.part e.seq (match e.op with | .bytes _ => fgetD (part s e.ctx.part).answers e.seq v | _ => v)
        | .ok none => s
        | .error .world => entryFails s e 0x0A
        | .error _ => entryFails s e 0x0F
      (retestRings (postReady (recordPerformed s e) e.ctx.part), true)

/-- Replays the log of core `k` from its head, in log order, up to the first entry that still fails (R300). -/
def replayCore : Nat → State → Nat → State
  | 0, s, _ => s
  | n + 1, s, k =>
    match retryHead s k with
    | (s, true) => replayCore n s k
    | (s, false) => s

/-- Core `k` replays what it may of its log. -/
def replayOne (s : State) (k : Nat) : State := replayCore ((core s k).sideLog.length + (core s k).sideHeld.length) s k

/-- Every core replays its log after a retry signal (R300, R342, R372). -/
def replayLogs (s : State) : State := (s.cores.map (·.1)).foldl replayOne s

/-- A write of a management register, with the retry of the side logs that it may ask for. -/
def mgmtStore (s : State) (writer q off : Nat) (v : W64) (word : Nat := 0) (job : Nat := 0) : State :=
  let s' := mgmtNow s writer q off v word job
  if s'.retries = s.retries then s' else replayLogs s'

end Sys2Proof.Machine
end

