-- ==== Sys2Proof/Machine/Loads.lean ====
section
/-! DEFINITION. The load and store queues of a control stream (R73 to R79, R83, R84, R241 to R243): how a load gets its value, when an
access waits, and when a fabric post leaves. -/

namespace Sys2Proof.Machine

/-- The mark in force, as the word that set it and its scope (R84); the widest scope of successive marks holds. -/
def setMark (x : Part) (seq scope : Nat) : Part := { x with mark := seq * 4 + max scope (x.mark % 4) }

/-- Whether writes of a stream before word `seq` are not performed at a scope (R83, R84, R243, R294): those in the store queue or the side
log, those that are not acknowledged, and stores to `hr.cfg` that have not taken effect. -/
def writesUnperformed (s : State) (p seq scope : Nat) : Bool :=
  storesBefore (part s p) seq || logBefore s p seq || acksBefore s p seq scope || hrBefore s p seq

/-- Whether accesses of a stream before word `seq` are not performed at a scope: its loads, the reads of its posts, its writes (R83, R84). -/
def unperformed (s : State) (p seq scope : Nat) : Bool := loadsBefore (part s p) seq || writesUnperformed s p seq scope

/-- Whether an access must wait for accesses before the mark in force (R84, R243). -/
def markHolds (s : State) (p mark : Nat) : Bool := mark != 0 && unperformed s p (mark / 4) (mark % 4)

/-- A fence of a scope holds (R83, R244, R294). -/
def fenceHolds (s : State) (p seq scope : Nat) : Bool := unperformed s p seq scope

/-- Whether an acquire before word `seq` is not performed (R78, R60, R247): a load that acquires, or the answer to a `waitaddr` on another
device. -/
def acquireHolds (s : State) (p seq : Nat) : Bool :=
  (part s p).flights.any (fun f => decide (f.seq < seq) && (match pendingLoad f with | some r => r.acq | none => false)) ||
    s.awaits.any fun a => a.part == p && decide (a.word < seq) && (match a.kind with | .value _ _ 1 => true | _ => false)

/-- Whether a stream has a write to a line of a range that is not performed, from before word `seq`: in its store queue or its side log, on
its way to the host die, or to `hr.cfg` and without effect yet (R241 item 3, R255, R294, R300). -/
def writeAhead (s : State) (p seq va n : Nat) : Bool :=
  let x := core s (coreOf p)
  (hrBefore s p seq && (List.range 4).any fun q => linesMeet va n (globalAddr q regHrCfg) 8) ||
    (s.awaits.any fun a => a.part == p && decide (a.word < seq) && a.kind == .ack && isHost a.va && linesMeet va n a.va 1) ||
  (part s p).stores.any (fun w => decide (w.seq < seq) && (match w.item with | .write va' op _ _ _ => linesMeet va n va' (opSpan op) | .post .. => false)) ||
    (x.sideLog ++ x.sideHeld).any fun e => e.ctx.part == p && e.ctx.agent == .control && linesMeet va n e.va (opSpan e.op)

/-- The view whose copy of a place a world reads (R338, R340). -/
def viewThat (s : State) (v q off : Nat) : Nat := match overlayFind s v (lineOf q off) with | some (u, _) => u | none => 0

/-- Whether the read-only path of a core holds a copy that answers a read (R79). -/
def roHolds (s : State) (c : Ctx) (va : Nat) : Bool :=
  match locOf va with
  | .here q off => (fget (core s (coreOf c.part)).roCopies (roKey (viewThat s c.view q off) c.asid ((q * 2 ^ 46 + off) / 32))).isSome
  | _ => false

/-- Whether a load must wait although its place may be mapped (R300, R84, R73, R78, R241), or holds at a home under test (R361). -/
def loadWaits (s : State) (p seq : Nat) (r : LoadReq) : Bool :=
  let c := ctxOf s p .control
  loadsBefore (part s p) seq || markHolds s p r.gate || acquireHolds s p seq || writeAhead s p seq r.va r.bytes ||
    (waitsHome s (if r.readOnly then homeCtx c r.va else c) r.va r.bytes false && !(r.readOnly && roHolds s c r.va))

/-- Whether a write of a stream must wait in the store queue (R73, R78, R84, R241 item 3): for a load of one of its lines, for an acquire, or
for what its mark or its release orders. Acknowledgements matter to a write that will stand in the side log only there. -/
def writeHolds (s : State) (e : SideEntry) : Bool :=
  let p := e.ctx.part
  (part s p).flights.any (fun f => decide (f.seq < e.seq) && (match pendingLoad f with | some r => linesMeet e.va (opSpan e.op) r.va r.bytes | none => false)) ||
    acquireHolds s p e.seq || (!logBusy s e.ctx && (orderHolds s p e.seq e.gate e.rel || waitsHome s e.ctx e.va (opSpan e.op) true))

/-- What an attempt at a load finds. -/
inductive LoadTry where
  | value (v : Nat)
  | held
  | bad
deriving DecidableEq, Repr

/-- Whether a read at the home of an address meets a sector that its code cannot correct: what it is given then is kept nowhere (R281). -/
def meetsBad (s : State) (c : Ctx) (q off : Nat) : Bool :=
  match overlayFind s c.view (lineOf q off), hitLine s { c with home := some q } q off with
  | some (_, l), _ => unreadable s (l.pa + off % 128)
  | none, some _ => false
  | none, none => match leafAt s q c.asid off with | some l => unreadable s (leafPa l.1 off) | none => false

/-- A read through the read-only path of a core (R79, R252): its copies answer; a sector not held is filled from its home, and the caches
allocate nothing, while a line that serves the fill records the hint (R76, R299). -/
def readOnly (s : State) (c : Ctx) (va n hint : Nat) : State × Except MemErr Nat :=
  match locOf va with
  | .here q off =>
    let key := roKey (viewThat s c.view q off) c.asid ((q * 2 ^ 46 + off) / 32)
    let h := match leafAt s q c.asid off with | some l => hintOf l.1 hint | none => hint
    let keep (s : State) (b : List Byte) (h : Nat) : State :=
      { modCore s (coreOf c.part) (fun x => { x with roCopies := fput x.roCopies key { bytes := b, hint := h, used := s.tags.uses + 1 } }) with
        tags := { s.tags with uses := s.tags.uses + 1 } }
    match fget (core s (coreOf c.part)).roCopies key with
    | some x => (keep s x.bytes (hitHint x.hint h), .ok (leNat ((x.bytes.drop (va % 32)).take n)))
    | none =>
      match readVa s (homeCtx c va) (va / 32 * 32) 32 (if hint = 3 then 3 else 4 + hint) with
      | (t, .ok bs) => (if meetsBad s c q off then t else keep t bs h, .ok (leNat ((bs.drop (va % 32)).take n)))
      | (t, .error e) => (t, .error e)
  | _ => readNum s c va n 3

/-- The read-only path of a partition's core takes a copy of a sector before anything reads it there (R252): which, and when, the manual leaves
open (DESIGN CHOICE, log entry 136). -/
def readAhead (s : State) (p va : Nat) : State :=
  let c := ctxOf s p .control
  match locOf va with
  | .here q off =>
    if (part s p).resident.isNone ∨ spotOf s q off ≠ .memory ∨ meetsBad s c q off ∨ waitsHome s (homeCtx c va) (va / 32 * 32) 32 false then s
    else match readOnly s c va 1 3 with
      | (t, .ok _) => t
      | _ => s
  | _ => s

/-- A byte range of host-die memory as a load finds it: free values (R5). -/
def hostBytes (draw va : Nat) : Nat → List Byte
  | 0 => []
  | n + 1 => Config.hostByte draw va :: hostBytes draw (va + 1) n

/-- Arms or disarms a partition's monitor on a local line (R60, R356); its home is that of the line's address. -/
def armMonitor (s : State) (p va : Nat) (arm : Bool) : State :=
  let s := { s with monitors := s.monitors.filter fun m => m.owner != .part p }
  match arm, physOf s (part s p).asid va with
  | true, some pa => modPart { s with nextSeq := s.nextSeq + 1, monitors := s.monitors ++ [{ id := s.nextSeq, line := pa / 128, owner := .part p, home := va % 2 ^ 48 / 128 }] } p
      fun x => { x with monitor := .armed s.nextSeq }
  | _, _ => modPart s p fun x => { x with monitor := .off }

/-- Tries a load once (R75, R77, R79, R60, R372): a failing translation queues a fault, once for each retry signal. -/
def tryLoad (s : State) (p : Nat) (r : LoadReq) : State × LoadTry :=
  let c := ctxOf s p .control
  let res := match locOf r.va with
    | .host => ({ s with nextSeq := s.nextSeq + 1 }, Except.ok (leNat (hostBytes s.nextSeq r.va r.bytes)))
    | .here q off => if inMgmt off then (s, .ok (mgmtRead s q off).toNat)
      else if r.readOnly then readOnly s c r.va r.bytes r.hint else readNum s c r.va r.bytes r.hint
    | _ => readNum s c r.va r.bytes r.hint
  match res with
  | (s, .ok v) => (match r.watch with | some e => armMonitor s p r.va (w64 v == e) | none => s, .value v)
  | (s, .error (.bad _)) => (s, .bad)
  | (s, .error (.fault k va)) => (faultFor s c va 0 k, .held)
  | (s, .error .world) => (s, .held)

/-- The value that a load pushes: zero- or sign-extended (R75). -/
def extend (r : LoadReq) (v : Nat) : W64 := if r.signed then sx64 (w64 v) (8 * r.bytes) else w64 v

/-- Sets the value of a word's write in flight. -/
def setFlight (s : State) (p seq : Nat) (v : FlightVal) : State :=
  modPart s p fun x => { x with flights := replaceFirst (fun f => f.seq == seq) (fun f => { f with val := v }) x.flights }

/-! ## The store queue -/

/-- Makes the write that an entry of a control stream describes (R75, R77, R254, R300): behind the stream's entries in the side log, else at
once. -/
def makeWrite (s : State) (e : SideEntry) : State × Sent :=
  match locOf e.va with
  | .here q off =>
    if ¬ inMgmt off then
      (match sendEntry s e with
       | (s, r) => (retestRings s, r))
    else if logBusy s e.ctx then (retire s e, .logged)
    else (match e.op with
      | .bytes bs => (mgmtStore s e.ctx.part q off (w64 (leNat bs)) e.seq e.ctx.job, .done 0)
      | _ => (s, .done 0))
  | _ => if logBusy s e.ctx then (retire s e, .logged) else
    match performAny s e.ctx e.va e.op e.hint e.seq with
    | (s, _) => (s, .done 0)

/-- A write that waits in the store queue, as the side log would hold it. -/
def entryOf (w : StoreWait) (va : Nat) (op : WriteOp) (hint acc : Nat) (reg : Option Nat) : SideEntry :=
  { ctx := w.ctx, va := va, op := op, hint := hint, seq := w.seq, reg := reg, kind := acc, seen := 0, cont := false, gate := w.gate, rel := w.rel }

/-- A write takes its place in the store queue (R73). -/
def queueWrite (s : State) (e : SideEntry) : State :=
  modPart s e.ctx.part fun x => { x with stores := x.stores ++
    [{ ctx := e.ctx, seq := e.seq, gate := e.gate, rel := e.rel, item := .write e.va e.op e.hint e.kind e.reg }] }

/-- The head of a store queue leaves it. -/
def dropStore (s : State) (p seq : Nat) : State := modPart s p fun x => { x with stores := x.stores.filter fun w => w.seq != seq }

/-- A post leaves with the bytes it read (R102 to R104), or joins the outbox of its world (R105). -/
def sendPost (s : State) (w : StoreWait) (i : OutItem) (bs : List Byte) : State :=
  if w.ctx.view ≠ 0 then
    let item : OutItem := match i with
      | .fmst va bar r g _ => .fmst va bar r g bs
      | .rqpost va _ => .rqpost va bs
      | .lpost va _ => .lpost va (List.replicate 32 0 ++ bs)
      | i => i
    (boxAdd s w.ctx.view { item := item, seq := w.seq, gate := w.gate }).getD s
  else match i with
  | .fmst va bar route groups _ => castOut s w.ctx .ack va bar route groups bs w.seq
  | .rqpost va _ => recordOut s w.ctx (.value w.ctx.part w.seq 2) va bs w.seq
  | .lpost va _ => launchOut s w.ctx (.value w.ctx.part w.seq 2) va (List.replicate 32 0 ++ bs) w.seq
  | _ => s

/-- Whether a multicast block that is also for this device holds at a home under test (R361). -/
def castWaits (s : State) (c : Ctx) (i : OutItem) (len : Nat) : Bool :=
  match i with
  | .fmst va bar route groups _ => c.view == 0 && (castNums s c route groups).any (·.1 == Config.device) &&
      (waitsHome s c (0xFFFF * 2 ^ 48 + va % 2 ^ 48) len true || (bar != 0 && waitsHome s c (0xFFFF * 2 ^ 48 + bar % 2 ^ 48) 32 true))
  | _ => false

/-- Whether a post must wait (R73, R249, R241): its read for earlier loads and for the stream's own writes of its lines, the post itself for
the writes in the side log, and a record or a packet until every earlier access is performed at fabric scope. What stays in the outbox of a
world waits for its read alone. -/
def postWaits (s : State) (w : StoreWait) (i : OutItem) (src len : Nat) : Bool :=
  let p := w.ctx.part
  (part s p).flights.any (fun f => decide (f.seq < w.seq) && (pendingLoad f).isSome) || markHolds s p w.gate || acquireHolds s p w.seq ||
    writeAhead s p w.seq src len || waitsHome s w.ctx src len false || castWaits s w.ctx i len ||
    (w.ctx.view == 0 && (logBefore s p w.seq || hrBefore s p w.seq || (match i with | .fmst .. => false | _ => acksBefore s p w.seq 3)))

/-- Tries the read of a post at the head of its queue, and sends it: whether it has left. -/
def tryPost (s : State) (w : StoreWait) (i : OutItem) (src len seen : Nat) : State × Bool :=
  let p := w.ctx.part
  if postWaits s w i src len ∨ s.retries < seen then (s, false) else
  match readVa s w.ctx src len 0 with
  | (s, .ok bs) => (postReady (sendPost (dropStore s p w.seq) w i bs) p, true)
  | (s, .error (.bad _)) => (lateFail (dropStore s p w.seq) p w.seq 0x0F src, true)
  | (s, .error e) =>
    let va := match e with | .fault _ va => va | _ => src
    (modPart (faultFor s w.ctx va 0 0) p fun x => { x with
      stores := replaceFirst (fun y => y.seq == w.seq) (fun y => { y with item := .post i src len (s.retries + 1) }) x.stores }, false)

/-- Tries the write at the head of a store queue: whether it has left. A world's store to another device joins its outbox (R350). -/
def tryWrite (s : State) (w : StoreWait) (e : SideEntry) : State × Bool :=
  let p := w.ctx.part
  if writeHolds s e then (s, false) else
  let s := dropStore s p w.seq
  if w.ctx.view ≠ 0 ∧ ¬ isHere e.va then
    (match e.op with
     | .bytes bs => postReady ((boxAdd s w.ctx.view { item := .store e.va bs, seq := w.seq, gate := w.gate, rel := w.rel }).getD s) p
     | _ => s, true)
  else match makeWrite s e with
    | (s, .world) => (lateFail s p w.seq 0x0A e.va, true)
    | (s, .bad _) => (lateFail s p w.seq 0x0F e.va, true)
    | (s, .logged) => (s, true)
    | (s, .done old) => (postReady (if e.reg.isSome ∧ ¬ isRemote e.va then landAnswer s p w.seq (match e.op with | .bytes _ => fgetD (part s p).answers w.seq old | _ => old) else s) p, true)

/-- Tries the head of a store queue. -/
def tryStore (s : State) (w : StoreWait) : State × Bool :=
  match w.item with
  | .post i src len seen => tryPost s w i src len seen
  | .write va op hint acc reg => tryWrite s w (entryOf w va op hint acc reg)

/-- The read of a `waitaddr` on another device leaves as a monitor request (R60, R247). -/
def sendWatch (s : State) (p seq : Nat) (r : LoadReq) : State :=
  let c := ctxOf s p .control
  let sq := numberTo s c r.va
  let e := r.watch.getD 0
  let s := requestOut { s with monitors := s.monitors.filter fun m => m.owner != .part p } c (.value p seq 1) r.va (.monitor r.va e) seq
  modPart s p fun x => { x with monitor := .armedRemote sq, answers := fput x.answers sq e }

/-- Tries one waiting load: whether it has its value, or has left for another device (R75, R368). -/
def tryFlight (s : State) (p : Nat) (f : Flight) (r : LoadReq) : State × Bool :=
  if loadWaits s p f.seq r ∨ s.retries < r.seen then (s, false) else
  if isRemote r.va then (setFlight (sendWatch s p f.seq r) p f.seq .answer, true) else
  match tryLoad s p r with
  | (s, .value v) =>
    if (recording s p).1 ∧ (fget (part s p).ords f.seq).isSome then (landAnswer (setFlight s p f.seq .answer) p f.seq (extend r v), true)
    else (setFlight s p f.seq (.ready (extend r v)), true)
  | (s, .held) => (setFlight s p f.seq (.load { r with seen := s.retries + 1 }), false)
  | (s, .bad) => (lateFail s p f.seq 0x0F r.va, true)

/-- Tries the first waiting load of a stream. -/
def tryFirstLoad (s : State) (p : Nat) : State × Bool :=
  match (part s p).flights.findSome? fun f => (pendingLoad f).map fun r => (f, r) with
  | some (f, r) => tryFlight s p f r
  | none => (s, false)

/-- Tries the heads of a stream's two queues as long as one of them moves (R73, R241 items 1 and 2). -/
def retryAccesses : Nat → State → Nat → State
  | 0, s, _ => s
  | n + 1, s, p =>
    match tryFirstLoad s p with
    | (s, true) => retryAccesses n s p
    | (s, false) =>
      match (part s p).stores with
      | [] => s
      | w :: _ => match tryStore s w with
        | (s, true) => retryAccesses n s p
        | (s, false) => s

/-- Tries what a stream waits for. -/
def retryStream (s : State) (p : Nat) : State := retryAccesses ((part s p).flights.length + (part s p).stores.length) s p

/-- What a stream has under way moves on (R75): its core's log, its queues; the value of a load, atomic or other interlocked access of word
`seq` returns, and lands from the next ac on in the order of R46. -/
def valueReturns (s : State) (p seq : Nat) : State :=
  let s := retryStream (replayOne s (coreOf p)) p
  match (part s p).flights.find? fun f => f.seq == seq with
  | some f => (match f.val with | .ready v => setFlight s p seq (.landing (s.time + 1) v) | _ => s)
  | none => s

/-- LOAD_VALUE_RETURN (R75). -/
def execLoadValueReturn (p seq : Nat) (s : State) : Host.Outcome State Fault Refusal := .next (valueReturns s p seq)

end Sys2Proof.Machine
end

