-- ==== Sys2Proof/Machine/MemWords.lean ====
section
/-! DEFINITION. The memory words of the control stream: majors 0x10 to 0x17 (R73 to R89, R101 to R105). -/

namespace Sys2Proof.Machine

/-- The checks of a control-stream access of `n` bytes (R74, R5, R364): the cause of the trap. `reads` says that the word reads
memory, `host` that it may name the host die, `mgmt` that it may reach the management windows of this device; those of another device it reaches by no
access of its own (DEDUCED, log entry 151). -/
def accessTrap (va n : Nat) (reads host mgmt : Bool) : Option Nat :=
  if va % n ≠ 0 then some 0x05
  else if isReserved va then some 0x06
  else if reads ∧ isRemote va then some 0x06
  else if ¬ host ∧ isHost va then some 0x06
  else if isMgmt va ∧ ¬ (mgmt ∧ isHere va) then some 0x06
  else none

/-- The address of a format TM access (R75). -/
def tmAddr (a : W64) (off : BitVec 6) (n : Nat) : Nat := (a + BitVec.ofInt 64 (off.toInt * (n : Int))).toNat

/-- A load takes its place in the load queue (R75): bound at once where it can be, else waiting. `obs` marks an observing read
(R378). -/
def pushLoad (t : State) (d : Reg) (r : LoadReq) (obs : Bool) : WordOut :=
  let p := t.cur
  let seq := wordSeq t
  let later (t : State) (r : LoadReq) : WordOut :=
    let t := fly0 t d (.load r)
    if ¬ obs then .next t else
    match observeLater t p seq r.va with
    | (t, some v) => .next (setFlight t p seq (.ready v))
    | (t, none) => .next t
  if loadWaits t p seq r then later t { r with seen := 0 } else
  match tryLoad t p r with
  | (t, .value v) =>
    if ¬ obs then .next (fly t d (.ready (extend r v))) else
    match observe t p r.va (extend r v) with
    | (t, some v) => .next (fly t d (.ready v))
    | (t, none) => .away t
  | (t, .held) => later t { r with seen := t.retries + 1 }
  | (t, .bad) => .next (lateFail (fly0 t d .answer) p seq 0x0F r.va)

/-- A load request of the issuing word. -/
def loadReq (t : State) (va n : Nat) (signed ro : Bool) (hint : Nat) (watch : Option W64) (acq : Bool) : LoadReq :=
  { va := va, bytes := n, signed := signed, readOnly := ro, hint := hint, seen := 0, gate := (part t t.cur).mark, watch := watch, acq := acq }

/-- Asks another device for the doubleword that holds an address, for a word that holds in a replay: by a monitor request with a value that
the place cannot have when it holds the logged one (DEDUCED, log entry 139). -/
def probeRemote (s : State) (p va : Nat) (logged : W64) : State :=
  let c := ctxOf s p .control
  let sq := numberTo s c va
  modPart (requestOut s c (.probe p) (va / 8 * 8) (.monitor (va / 8 * 8) (w64 ((~~~logged).toNat * 2 ^ (8 * (va % 8))))) s.curWord) p fun x =>
    { x with probe := some (sq, none) }

/-- In a replay, an observing access holds until its place can be read and holds the logged value, and it is next (R379), or ends the job
(R380); `none` where it goes on. `s` is the state before the word, `blocked` says that it must wait. -/
def replayHold (s t : State) (va n acc : Nat) (blocked : Bool) : Option WordOut :=
  let p := t.cur
  let wait (u : State) : Option WordOut := some (.hold (replayWait u p va))
  match loggedValue t p va with
  | none => none
  | some none => some (.away (readDiverges t p va))
  | some (some v) =>
    if blocked then wait s
    else if isHost va then
      (if w64 (leNat (hostBytes s.nextSeq va n)) = v then none else wait { s with nextSeq := s.nextSeq + 1 })
    else if isRemote va then
      match (part s p).probe with
      | none => wait (probeRemote s p va v)
      | some (_, none) => wait s
      | some (_, some x) => if leNat (((leBytes 8 x.toNat).drop (va % 8)).take n) = v.toNat then none else wait (probeRemote s p va v)
    else
      match (readNum t (ctxOf t p .control) va n 3).2 with
      | .ok x => if w64 x = v then none else wait s
      | .error (.fault k va') => wait (holdFault s p va' acc k)
      | .error _ => none

/-- A load of major 0x10 or 0x15 (R75, R79). -/
def loadWord (s : State) (i : Instr) (h : Hdr) (d a : Reg) (hint : BitVec 2) (off : BitVec 6) (n : Nat) (signed ro : Bool) : State :=
  accessWord s i h { reads := [rd s a true], dst := dstOf s d, loads := true } fun v t =>
    let va := tmAddr (v.getD 0 0) off n
    match accessTrap va n true (!ro) (!ro && n == 8 && (part s s.cur).priv == 2) with
    | some c => .trap c 0 (w64 va)
    | none => pushLoad t d (loadReq t va n signed ro hint.toNat none false) false

/-- A write of the issuing word, as an entry. `rel` is 0, or 1 more than the scope of a release (R78). -/
def wordEntry (t : State) (va : Nat) (op : WriteOp) (hint acc : Nat) (reg : Option Nat) (rel : Nat) : SideEntry :=
  { ctx := ctxOf t t.cur .control, va := va, op := op, hint := hint, seq := wordSeq t, reg := reg, kind := acc, seen := 0, cont := false,
    gate := (part t t.cur).mark, rel := rel }

/-- Whether a write of the issuing word takes a place in the store queue: behind another, or because it must wait itself (R73). -/
def mustQueue (t : State) (e : SideEntry) : Bool := !(part t e.ctx.part).stores.isEmpty || writeHolds t e

/-- A store of the issuing word (R75): its traps, its wait, its effect; a world's store that leaves the device goes to the outbox (R350). -/
def storeOp (t : State) (va : Nat) (bs : List Byte) (hint rel : Nat) : WordOut :=
  let e := wordEntry t va (.bytes bs) hint 1 none rel
  if e.ctx.view ≠ 0 ∧ ¬ isHere va then
    if ¬ boxRoom t e.ctx.view (outSize (.store va bs)) then .trap 0x0C 0 (w64 va)
    else if (part t t.cur).stores.isEmpty then .next ((boxAdd t e.ctx.view { item := .store va bs, seq := e.seq, gate := e.gate, rel := rel }).getD t)
    else .next (queueWrite t e)
  else if escapes t e.ctx va bs.length then .trap 0x0A 0 (w64 va)
  else if mustQueue t e then .next (queueWrite t e)
  else
    match makeWrite t e with
    | (_, .world) => .trap 0x0A 0 (w64 va)
    | (t, .bad _) => .next (lateFail t t.cur (wordSeq t) 0x0F va)
    | (t, _) => .next t

/-- A store of major 0x11 (R75): the address is read first, then the data. -/
def storeWord (s : State) (i : Instr) (h : Hdr) (d a : Reg) (hint : BitVec 2) (off : BitVec 6) (n : Nat) : State :=
  accessWord s i h { reads := [rd s a true, rd s d false] } fun v t =>
    let va := tmAddr (v.getD 0 0) off n
    match accessTrap va n false true (n == 8 && (part s s.cur).priv == 2) with
    | some c => .trap c 0 (w64 va)
    | none => storeOp t va (leBytes n (v.getD 1 0).toNat) hint.toNat 0

/-- `ldb` (R75). -/
def execLdb (h : Hdr) (t a : Reg) (hint : BitVec 2) (off : BitVec 6) (s : State) : Host.Outcome State Fault Refusal :=
  .next (loadWord s (.ldb h t a hint off) h t a hint off 1 true false)

/-- `ldbu` (R75). -/
def execLdbu (h : Hdr) (t a : Reg) (hint : BitVec 2) (off : BitVec 6) (s : State) : Host.Outcome State Fault Refusal :=
  .next (loadWord s (.ldbu h t a hint off) h t a hint off 1 false false)

/-- `ldh` (R75). -/
def execLdh (h : Hdr) (t a : Reg) (hint : BitVec 2) (off : BitVec 6) (s : State) : Host.Outcome State Fault Refusal :=
  .next (loadWord s (.ldh h t a hint off) h t a hint off 2 true false)

/-- `ldhu` (R75). -/
def execLdhu (h : Hdr) (t a : Reg) (hint : BitVec 2) (off : BitVec 6) (s : State) : Host.Outcome State Fault Refusal :=
  .next (loadWord s (.ldhu h t a hint off) h t a hint off 2 false false)

/-- `ldw` (R75). -/
def execLdw (h : Hdr) (t a : Reg) (hint : BitVec 2) (off : BitVec 6) (s : State) : Host.Outcome State Fault Refusal :=
  .next (loadWord s (.ldw h t a hint off) h t a hint off 4 true false)

/-- `ldwu` (R75). -/
def execLdwu (h : Hdr) (t a : Reg) (hint : BitVec 2) (off : BitVec 6) (s : State) : Host.Outcome State Fault Refusal :=
  .next (loadWord s (.ldwu h t a hint off) h t a hint off 4 false false)

/-- `ldd` (R75). -/
def execLdd (h : Hdr) (t a : Reg) (hint : BitVec 2) (off : BitVec 6) (s : State) : Host.Outcome State Fault Refusal :=
  .next (loadWord s (.ldd h t a hint off) h t a hint off 8 true false)

/-- `stb` (R75). -/
def execStb (h : Hdr) (t a : Reg) (hint : BitVec 2) (off : BitVec 6) (s : State) : Host.Outcome State Fault Refusal :=
  .next (storeWord s (.stb h t a hint off) h t a hint off 1)

/-- `sth` (R75). -/
def execSth (h : Hdr) (t a : Reg) (hint : BitVec 2) (off : BitVec 6) (s : State) : Host.Outcome State Fault Refusal :=
  .next (storeWord s (.sth h t a hint off) h t a hint off 2)

/-- `stw` (R75). -/
def execStw (h : Hdr) (t a : Reg) (hint : BitVec 2) (off : BitVec 6) (s : State) : Host.Outcome State Fault Refusal :=
  .next (storeWord s (.stw h t a hint off) h t a hint off 4)

/-- `std` (R75). -/
def execStd (h : Hdr) (t a : Reg) (hint : BitVec 2) (off : BitVec 6) (s : State) : Host.Outcome State Fault Refusal :=
  .next (storeWord s (.std h t a hint off) h t a hint off 8)

/-- Bytes and extension of a size code (R25). -/
def sizeBytes (c : BitVec 3) : Nat := 2 ^ (c.toNat / 2)

/-- `ldro` (R79). -/
def execLdro (h : Hdr) (t a : Reg) (hint : BitVec 2) (size : BitVec 3) (off : BitVec 6) (s : State) : Host.Outcome State Fault Refusal :=
  .next (loadWord s (.ldro h t a hint size off) h t a hint off (sizeBytes size) (!size.getLsbD 0) true)

/-- `ld.acq` (R78): later loads and writes of the stream wait for it. -/
def execLdAcq (h : Hdr) (t a : Reg) (scope : BitVec 2) (s : State) : Host.Outcome State Fault Refusal :=
  .next (accessWord s (.ldAcq h t a scope) h { reads := [rd s a true], dst := dstOf s t, loads := true } fun v u =>
    let va := (v.getD 0 0).toNat
    match accessTrap va 8 true true false with
    | some c => .trap c 0 (w64 va)
    | none =>
      let r := loadReq u va 8 false false 0 none true
      match replayHold s u va 8 0 (loadWaits u u.cur (wordSeq u) r) with
      | some w => w
      | none => pushLoad u t r true)

/-- `st.rel` (R78): it is performed once every earlier access of the stream is performed at its scope; a write in the side log it stands
behind. -/
def execStRel (h : Hdr) (t a : Reg) (scope : BitVec 2) (s : State) : Host.Outcome State Fault Refusal :=
  .next (accessWord s (.stRel h t a scope) h { reads := [rd s a true, rd s t false] } fun v u =>
    let va := (v.getD 0 0).toNat
    match accessTrap va 8 false true false with
    | some c => .trap c 0 (w64 va)
    | none => storeOp u va (leBytes 8 (v.getD 1 0).toNat) 0 (scope.toNat + 1))

/-- An observed value comes later (R80, R378), and `k` is done meanwhile; in a replay the logged value is known at once, and the log may end there
(R380). -/
def observedLater (t : State) (d : Reg) (va : Nat) (k : State → State) : WordOut :=
  match observeLater (fly0 t d .answer) t.cur (wordSeq t) va with
  | (u, some v) => .next (k (answerFlight u t.cur (wordSeq t) v))
  | (u, none) => if (nextRead t t.cur).isSome then .away u else .next (k u)

/-- The write that an atomic makes in a replay: what the logged old value gives, whatever its place holds once it is made (R379). A compare that
fails writes nothing; in a world it still takes the line (R344), as a write of the bytes that the line holds. -/
def replayedAtomic (e : SideEntry) (op : AtomicOp) (old x y : W64) : Option SideEntry :=
  match atomicNew op old.toNat x y with
  | some k => some { e with op := .bytes (leBytes (atomicBytes op) k), reg := none }
  | none => if e.ctx.view = 0 then none else some { e with op := .atomic .or 0 0, reg := none }

/-- The state once an atomic is under way whose old value comes later: `u`, or in a replay that of the write which the logged value gives. -/
def atomicSent (t u : State) (e : SideEntry) (op : AtomicOp) (x y : W64) : State :=
  match loggedValue t t.cur e.va with
  | some (some old) => (match replayedAtomic e op old x y with | some w => (makeWrite t w).1 | none => t)
  | _ => u

/-- An atomic (R80 to R82): reads A and the operands, then acts at the home; the old value returns interlocked. -/
def atomicWord (s : State) (i : Instr) (h : Hdr) (d : Reg) (reads : List (Nat × Bool)) (op : AtomicOp) : State :=
  accessWord s i h { reads := reads, dst := dstOf s d, loads := true } fun v t =>
    let va := (v.getD 0 0).toNat
    match accessTrap va (atomicBytes op) false false false with
    | some c => .trap c 0 (w64 va)
    | none =>
      let e := wordEntry t va (.atomic op (v.getD 1 0) (v.getD 2 0)) 0 1 (some (dstOf t d)) 0
      if e.ctx.view ≠ 0 ∧ isRemote va ∨ escapes t e.ctx va (atomicBytes op) then .trap 0x0A 0 (w64 va)
      else
        match replayHold s t va (atomicBytes op) 1 (mustQueue t e) with
        | some w => w
        | none =>
          if mustQueue t e then observedLater t d va fun u => queueWrite u e
          else
            match makeWrite t e with
            | (_, .world) => .trap 0x0A 0 (w64 va)
            | (u, .bad _) => .next (lateFail (fly0 u d .answer) t.cur (wordSeq t) 0x0F va)
            | (u, .logged) => observedLater (atomicSent t u e op (v.getD 1 0) (v.getD 2 0)) d va id
            | (u, .done old) =>
              if isRemote va then observedLater (atomicSent t u e op (v.getD 1 0) (v.getD 2 0)) d va id else
              match observe u t.cur va old with
              | (u, some v) => .next (fly u d (.ready v))
              | (u, none) => .away u

/-- An atomic of one operand. -/
def atomic2 (s : State) (i : Instr) (h : Hdr) (d a b : Reg) (ka kb : Bool) (op : AtomicOp) : State :=
  atomicWord s i h d [rd s a ka, rd s b kb] op

/-- `amoadd` (R80). -/
def execAmoadd (h : Hdr) (d a b : Reg) (ka kb : Bool) (s : State) : Host.Outcome State Fault Refusal :=
  .next (atomic2 s (.amoadd h d a b ka kb) h d a b ka kb .add)

/-- `amoand` (R80). -/
def execAmoand (h : Hdr) (d a b : Reg) (ka kb : Bool) (s : State) : Host.Outcome State Fault Refusal :=
  .next (atomic2 s (.amoand h d a b ka kb) h d a b ka kb .and)

/-- `amoor` (R80). -/
def execAmoor (h : Hdr) (d a b : Reg) (ka kb : Bool) (s : State) : Host.Outcome State Fault Refusal :=
  .next (atomic2 s (.amoor h d a b ka kb) h d a b ka kb .or)

/-- `amoxor` (R80). -/
def execAmoxor (h : Hdr) (d a b : Reg) (ka kb : Bool) (s : State) : Host.Outcome State Fault Refusal :=
  .next (atomic2 s (.amoxor h d a b ka kb) h d a b ka kb .xor)

/-- `amomin` (R80). -/
def execAmomin (h : Hdr) (d a b : Reg) (ka kb : Bool) (s : State) : Host.Outcome State Fault Refusal :=
  .next (atomic2 s (.amomin h d a b ka kb) h d a b ka kb .min)

/-- `amomax` (R80). -/
def execAmomax (h : Hdr) (d a b : Reg) (ka kb : Bool) (s : State) : Host.Outcome State Fault Refusal :=
  .next (atomic2 s (.amomax h d a b ka kb) h d a b ka kb .max)

/-- `amominu` (R80). -/
def execAmominu (h : Hdr) (d a b : Reg) (ka kb : Bool) (s : State) : Host.Outcome State Fault Refusal :=
  .next (atomic2 s (.amominu h d a b ka kb) h d a b ka kb .minu)

/-- `amomaxu` (R80). -/
def execAmomaxu (h : Hdr) (d a b : Reg) (ka kb : Bool) (s : State) : Host.Outcome State Fault Refusal :=
  .next (atomic2 s (.amomaxu h d a b ka kb) h d a b ka kb .maxu)

/-- `amoswap` (R80). -/
def execAmoswap (h : Hdr) (d a b : Reg) (ka kb : Bool) (s : State) : Host.Outcome State Fault Refusal :=
  .next (atomic2 s (.amoswap h d a b ka kb) h d a b ka kb .swap)

/-- `amocas` (R80): B is read twice, the compare value and then the new value. -/
def execAmocas (h : Hdr) (d a b : Reg) (ka : Bool) (s : State) : Host.Outcome State Fault Refusal :=
  .next (atomicWord s (.amocas h d a b ka) h d [rd s a ka, rd s b false, rd s b false] .cas)

/-- `amofadd` (R81). -/
def execAmofadd (h : Hdr) (d a b : Reg) (ka kb : Bool) (s : State) : Host.Outcome State Fault Refusal :=
  .next (atomic2 s (.amofadd h d a b ka kb) h d a b ka kb .fadd)

/-- `amobfadd` (R81). -/
def execAmobfadd (h : Hdr) (d a b : Reg) (ka kb : Bool) (s : State) : Host.Outcome State Fault Refusal :=
  .next (atomic2 s (.amobfadd h d a b ka kb) h d a b ka kb .bfadd)

/-- `fence` (R83). -/
def execFence (h : Hdr) (scope : BitVec 2) (s : State) : Host.Outcome State Fault Refusal :=
  .next (issueWord s (.fence h scope) h {} fun _ t => if fenceHolds s s.cur (wordSeq t) scope.toNat then .hold s else .next t)

/-- `mark` (R84). -/
def execMark (h : Hdr) (scope : BitVec 2) (s : State) : Host.Outcome State Fault Refusal :=
  .next (issueWord s (.mark h scope) h {} fun _ t => .next (modPart t t.cur fun x => setMark x (wordSeq t) scope.toNat))

/-! ## Maintenance -/

/-- The checks of a range (R85): it lies on this device, and no byte of it in the management window (R364). -/
def rangeBad (va n : Nat) : Bool :=
  decide (2 ^ 32 < n) || !isHere va || isMgmt va || (decide (0 < n) && (!isHere ((va + n - 1) % 2 ^ 64) || isMgmt ((va + n - 1) % 2 ^ 64)))

/-- `wb`, `inv`, `wbinv` and `roinv` (R85, R340, R357): each line is treated as a store to it. -/
def maintainWord (s : State) (i : Instr) (h : Hdr) (a b : Reg) (ka kb : Bool) (level kind : Nat) : State :=
  accessWord s i h { reads := [rd s a ka, rd s b kb], level := level } fun v t =>
    let va := (v.getD 0 0).toNat
    let n := (v.getD 1 0).toNat
    if rangeBad va n then .trap 0x06 0 (w64 va)
    else if n = 0 then .next t
    else
      let e := wordEntry t va (.maintain kind n) 0 6 none 0
      .next (if mustQueue t e then queueWrite t e else (makeWrite t e).1)

/-- `wb` (R85). -/
def execWb (h : Hdr) (a b : Reg) (ka kb : Bool) (s : State) : Host.Outcome State Fault Refusal :=
  .next (maintainWord s (.wb h a b ka kb) h a b ka kb 0 0)

/-- `inv` (R85): supervisor level. -/
def execInv (h : Hdr) (a b : Reg) (ka kb : Bool) (s : State) : Host.Outcome State Fault Refusal :=
  .next (maintainWord s (.inv h a b ka kb) h a b ka kb 1 1)

/-- `wbinv` (R85). -/
def execWbinv (h : Hdr) (a b : Reg) (ka kb : Bool) (s : State) : Host.Outcome State Fault Refusal :=
  .next (maintainWord s (.wbinv h a b ka kb) h a b ka kb 0 2)

/-- `roinv` (R85). -/
def execRoinv (h : Hdr) (a b : Reg) (ka kb : Bool) (s : State) : Host.Outcome State Fault Refusal :=
  .next (maintainWord s (.roinv h a b ka kb) h a b ka kb 0 3)

/-- The line at an address is brought into the owning quarter's L2 and memory-side cache (R85); a sector that cannot be read stays out. -/
def prefetchLine (s : State) (p va hint : Nat) : State :=
  match locOf va with
  | .here q off =>
    match spotOf s q off, leafAt s q (part s p).asid off with
    | .memory, some (pte, _) =>
      let pa := leafPa pte (off / 128 * 128)
      [0, 1, 2, 3].foldl (fun s i => if unreadable s (pa + 32 * i) then s else
        useLevels s [1 + q] (part s p).asid (lineOf q off) (pa + 32 * i) (hintOf pte hint)) (noteLeaf s q (part s p).asid off)
    | _, _ => s
  | _ => s

/-- A prefetch is made, or holds at a home under test (R85, R361). -/
def prefetch (s : State) (p va hint : Nat) : State :=
  if isHere va && waitsHome s (homeCtx (ctxOf s p .control) va) (va / 128 * 128) 128 false then { s with atHomes := s.atHomes ++ [.fetch p va hint] }
  else prefetchLine s p va hint

/-- `pf` (R85). -/
def execPf (h : Hdr) (hint : BitVec 2) (a : Reg) (ka : Bool) (s : State) : Host.Outcome State Fault Refusal :=
  .next (issueWord s (.pf h hint a ka) h { reads := [rd s a ka] } fun v t =>
    let va := (v.getD 0 0).toNat
    if isReserved va ∨ isMgmt va then .trap 0x06 0 (w64 va)
    else .next (if hint = 3 then t else prefetch t t.cur va hint.toNat))

/-! ## Byte barriers -/

/-- `bbinit` and `bbexp` (R88). -/
def barrierWord (s : State) (i : Instr) (h : Hdr) (a b : Reg) (ka kb : Bool) (op : W64 → WriteOp) : State :=
  accessWord s i h { reads := [rd s a ka, rd s b kb], loads := true } fun v t =>
    let va := (v.getD 0 0).toNat
    match accessTrap va 32 false false false with
    | some c => .trap c 0 (w64 va)
    | none =>
      let e := wordEntry t va (op (v.getD 1 0)) 0 1 none 0
      if e.ctx.view ≠ 0 ∧ isRemote va ∨ escapes t e.ctx va 32 then .trap 0x0A 0 (w64 va)
      else if mustQueue t e then .next (queueWrite t e)
      else
        match makeWrite t e with
        | (_, .world) => .trap 0x0A 0 (w64 va)
        | (t, .bad _) => .next (lateFail t t.cur (wordSeq t) 0x0F va)
        | (t, _) => .next t

/-- `bbinit` (R88). -/
def execBbinit (h : Hdr) (a b : Reg) (ka kb : Bool) (s : State) : Host.Outcome State Fault Refusal :=
  .next (barrierWord s (.bbinit h a b ka kb) h a b ka kb .bbInit)

/-- `bbexp` (R88). -/
def execBbexp (h : Hdr) (a b : Reg) (ka kb : Bool) (s : State) : Host.Outcome State Fault Refusal :=
  .next (barrierWord s (.bbexp h a b ka kb) h a b ka kb .bbExp)

/-- `bbwait` (R88): holds until the phase differs from B[31:0]; in a replay, until it has reached the logged phase (R379). Each try is one read of
the phase, and what that read does stays done where the word holds on (R281, R374; DESIGN CHOICE, log entry 153). -/
def execBbwait (h : Hdr) (d a b : Reg) (ka kb : Bool) (s : State) : Host.Outcome State Fault Refusal :=
  .next (issueWord s (.bbwait h d a b ka kb) h { reads := [rd s a ka, rd s b kb], dst := dstOf s d, loads := true } fun v t =>
    let va := (v.getD 0 0).toNat
    let p := t.cur
    let logged := loggedValue s p va
    let wait (u : State) : WordOut := .hold (if logged.isSome then replayWait u p va else u)
    match accessTrap va 32 true false false with
    | some c => .trap c 0 (w64 va)
    | none =>
      if logged = some none then .away (readDiverges t p va) else
      if loadWaits s p (wordSeq t) (loadReq t va 32 false false 0 none false) then wait s else
      match readNum s (ctxOf s p .control) (va + 16) 4 0 with
      | (_, .error (.fault k va')) => wait (holdFault s p va' 0 k)
      | (_, .error .world) => wait s
      | (u, .error (.bad _)) => .fail u 0x0F (w64 va)
      | (u, .ok ph) =>
        let t := (readNum t (ctxOf t p .control) (va + 16) 4 0).1
        if ph = (v.getD 1 0).toNat % 2 ^ 32 then wait u else
        let early : Bool := match logged with | some (some want) => !phaseReached ph want.toNat | _ => false
        if early then wait u else
        match observe t p va (w64 ph) with
        | (t, some v) => .next (fly t d (.ready v))
        | (t, none) => .away t)

/-! ## Circular buffers -/

/-- Circular buffer `n` of a partition. -/
def circ (s : State) (p n : Nat) : Circ := fgetD (part s p).circs n {}

/-- Updates a circular buffer. -/
def setCirc (s : State) (p n : Nat) (c : Circ) : State := modPart s p fun x => { x with circs := fput x.circs n c }

/-- `cbacq` (R101). -/
def execCbacq (h : Hdr) (d : Reg) (n : Fin 16) (s : State) : Host.Outcome State Fault Refusal :=
  .next (issueWord s (.cbacq h d n) h { dst := dstOf s d } fun _ t =>
    let c := circ t t.cur n
    if c.filled = 0 then .hold s else
    .next (fly (setCirc t t.cur n { c with filled := c.filled - 1, held := c.held + 1, head := (c.head + 1) % c.slots }) d
      (.ready (w64 (c.base + c.head * c.size)))))

/-- `cbrel` (R101). -/
def execCbrel (h : Hdr) (n : Fin 16) (s : State) : Host.Outcome State Fault Refusal :=
  .next (issueWord s (.cbrel h n) h {} fun _ t =>
    let c := circ t t.cur n
    if c.held = 0 then .trap 0x02 0 0 else .next (setCirc t t.cur n { c with held := c.held - 1, free := c.free + 1 }))

/-! ## Fabric posts -/

/-- A post takes its place in the store queue of the issuing partition, and what can move there moves (R73). -/
def queuePost (t : State) (i : OutItem) (src len : Nat) : State :=
  retryStream (modPart t t.cur fun x => { x with stores := x.stores ++
    [{ ctx := ctxOf t t.cur .control, seq := wordSeq t, gate := x.mark, rel := 0, item := .post i src len 0 }] }) t.cur

/-- A post of the issuing word (R73, R102 to R105): it is sent once its read is made; in a world it joins the outbox instead, and its status is
OK at once. `status` names the register of a status. -/
def postOp (t : State) (i : OutItem) (src len : Nat) (status : Option Reg) (dest : Nat) : WordOut :=
  let p := t.cur
  if viewOf t p ≠ 0 then
    if ¬ boxRoom t (viewOf t p) (itemSize i len) then .trap 0x0C 0 (w64 dest) else
    match status with
    | none => .next (queuePost t i src len)
    | some d => match observe t p dest 0 with
      | (u, some v) => .next (queuePost (fly u d (.ready v)) i src len)
      | (u, none) => .away u
  else
    match status with
    | some d => observedLater t d dest fun u => queuePost u i src len
    | none => .next (queuePost t i src len)

/-- The misalignment and access checks of `fmst` (R102, R5), whose block of `len` bytes and barrier reach no management window (R364). -/
def fmstTrap (src dst bar route groups len : Nat) : Option Nat :=
  if src % 256 ≠ 0 ∨ dst % 256 ≠ 0 ∨ bar % 32 ≠ 0 then some 0x05
  else if ¬ isHere src ∨ isMgmt src ∨ isMgmt ((src + len - 1) % 2 ^ 64) ∨ inMgmt (dst % 2 ^ 46) ∨ inMgmt ((dst + len - 1) % 2 ^ 46) ∨
      inMgmt (bar % 2 ^ 46) ∨ route / 2 ^ 42 ≠ 0 ∨ isHost dst ∨ isReserved dst ∨ (bar ≠ 0 ∧ (isHost bar ∨ isReserved bar)) ∨
      (List.range 64).any (fun g => nbit groups g && decide (1023 < nfld route 32 10 + g)) then some 0x06
  else none

/-- `fmst` (R102): A gives source, destination and barrier; B gives the route word and the group mask. -/
def execFmst (h : Hdr) (l a b : Reg) (s : State) : Host.Outcome State Fault Refusal :=
  .next (accessWord s (.fmst h l a b) h
    { reads := [rd s a false, rd s a false, rd s a false, rd s b false, rd s b false], loads := true } fun v t =>
    let src := (v.getD 0 0).toNat
    let dst := (v.getD 1 0).toNat
    let bar := (v.getD 2 0).toNat
    match fmstTrap src dst bar (v.getD 3 0).toNat (v.getD 4 0).toNat ((l.val + 1) * 256) with
    | some c => .trap c 0 (w64 src)
    | none => postOp t (.fmst dst bar (v.getD 3 0) (v.getD 4 0) []) src ((l.val + 1) * 256) none dst)

/-- `rqpost` (R103). -/
def execRqpost (h : Hdr) (d a b : Reg) (ka kb : Bool) (s : State) : Host.Outcome State Fault Refusal :=
  .next (accessWord s (.rqpost h d a b ka kb) h { reads := [rd s a ka, rd s b kb], dst := dstOf s d, loads := true } fun v t =>
    let win := (v.getD 0 0).toNat
    let src := (v.getD 1 0).toNat
    if win % 64 ≠ 0 ∨ src % 64 ≠ 0 then .trap 0x05 0 (w64 win)
    else if isHost win ∨ isReserved win ∨ isMgmt win ∨ ¬ isHere src ∨ isMgmt src then .trap 0x06 0 (w64 win)
    else postOp t (.rqpost win []) src 64 (some d) win)

/-- `lpost` (R104). -/
def execLpost (h : Hdr) (d a b : Reg) (ka kb : Bool) (s : State) : Host.Outcome State Fault Refusal :=
  .next (accessWord s (.lpost h d a b ka kb) h { reads := [rd s a ka, rd s b kb], dst := dstOf s d, loads := true } fun v t =>
    let win := (v.getD 0 0).toNat
    let src := (v.getD 1 0).toNat
    if src % 128 ≠ 0 then .trap 0x05 0 (w64 src)
    else if isHost win ∨ isReserved win ∨ isMgmt win ∨ ¬ isHere src ∨ isMgmt src then .trap 0x06 0 (w64 win)
    else postOp t (.lpost win []) src 128 (some d) win)

end Sys2Proof.Machine
end

