-- ==== Sys2Proof/Machine/System.lean ====
section
/-! DEFINITION. Synchronisation, control registers, suspension, leave, test and service words: major 0x0F (R48, R49, R57 to R72,
R304, R360, R361, R387), and the steps TEST_RESULT, LEAVE_GRANT and MSWAYS_OPERATION_END. -/

namespace Sys2Proof.Machine

/-! ## Semaphores and mailboxes -/

/-- A semaphore of a partition. -/
def sem (s : State) (p n : Nat) : Int := fgetD (part s p).sems n 0

/-- Adds to a semaphore with saturation (R58, R92). -/
def semAdd (s : State) (p n : Nat) (a : Int) : State :=
  modPart s p fun x => { x with sems := fput x.sems n (satInt (fgetD x.sems n 0 + a) (-2 ^ 31) (2 ^ 31 - 1)) }

/-- `semadd` (R58): the add follows the stream's earlier writes. -/
def execSemadd (h : Hdr) (n : Fin 16) (a : Reg) (ka : Bool) (s : State) : Host.Outcome State Fault Refusal :=
  .next (issueWord s (.semadd h n a ka) h { reads := [rd s a ka] } fun v t =>
    if writesUnperformed s s.cur (wordSeq t) 0 then .hold s
    else .next (semAdd t t.cur n (v.getD 0 0).toInt))

/-- `semwt` (R58). -/
def execSemwt (h : Hdr) (n : Fin 16) (a : Reg) (ka : Bool) (s : State) : Host.Outcome State Fault Refusal :=
  .next (issueWord s (.semwt h n a ka) h { reads := [rd s a ka] } fun v t =>
    if (v.getD 0 0).toInt ≤ sem t t.cur n then .next t else .hold s)

/-- What a read of a mailbox gives: the older value in the ac of a write (R59). -/
def mailboxRead (s : State) (p n : Nat) : W64 :=
  match fget (part s p).mbWritten n with
  | some (t, older) => if t = s.time then older else fgetD (part s p).mailboxes n 0
  | none => fgetD (part s p).mailboxes n 0

/-- `mbrd` (R59). -/
def execMbrd (h : Hdr) (d : Reg) (n : Fin 16) (s : State) : Host.Outcome State Fault Refusal :=
  .next (issueWord s (.mbrd h d n) h { dst := dstOf s d } fun _ t =>
    match observe t t.cur n (mailboxRead t t.cur n) with
    | (t, some v) => .next (fly t d (.ready v))
    | (t, none) => .away t)

/-- The partition that a mailbox operand names (R59). -/
def mailboxTarget (a : Nat) : Option Nat :=
  if (a / 2 ^ 48 = 0xFFFF ∨ a / 2 ^ 48 = Config.device) ∧ nfld a 10 38 = 0 ∧ nfld a 2 6 < 48 then
    some (192 * nfld a 8 2 + 4 * nfld a 2 6 + nfld a 0 2)
  else none

/-- `mbwr` (R59): supervisor level; it follows the stream's earlier writes at device scope. -/
def execMbwr (h : Hdr) (n : Fin 16) (a b : Reg) (ka kb : Bool) (s : State) : Host.Outcome State Fault Refusal :=
  .next (issueWord s (.mbwr h n a b ka kb) h { reads := [rd s a ka, rd s b kb], level := 1 } fun v t =>
    match mailboxTarget (v.getD 0 0).toNat with
    | none => .trap 0x06 0 0
    | some q =>
      if viewOf t t.cur ≠ 0 then .trap 0x0A 0 0
      else if writesUnperformed s s.cur (wordSeq t) 2 then .hold s
      else .next (setMailbox t q n (v.getD 1 0)))

/-- `waitaddr` (R60, R247, R356). -/
def execWaitaddr (h : Hdr) (d a b : Reg) (ka kb : Bool) (s : State) : Host.Outcome State Fault Refusal :=
  .next (accessWord s (.waitaddr h d a b ka kb) h { reads := [rd s a ka, rd s b kb], dst := dstOf s d, loads := true } fun v t =>
    let va := (v.getD 0 0).toNat
    let e := v.getD 1 0
    let p := t.cur
    if isReserved va ∨ isHost va ∨ isMgmt va then .trap 0x06 0 (w64 va)
    else if va % 8 ≠ 0 then .trap 0x05 0 (w64 va)
    else if viewOf t p ≠ 0 ∧ isRemote va then .trap 0x0A 0 (w64 va)
    else
      let r := loadReq t va 8 false false 0 (some e) true
      match replayHold s t va 8 0 (loadWaits t p (wordSeq t) r) with
      | some w => w
      | none =>
        if ¬ isRemote va then pushLoad t d r true
        else if ¬ loadWaits t p (wordSeq t) r then observedLater (sendWatch t p (wordSeq t) r) d va id
        else .next (observeLater (fly0 t d (.load r)) p (wordSeq t) va).1)

/-! ## Suspension -/

/-- The address at which a record resumes. -/
def resumePc (s : State) (p : Nat) : Nat := ((part s p).pc.toNat + 4) % 2 ^ 64

/-- Whether a suspension point must still wait: for the drain, or for a pending trap to be taken (R61, R369). -/
def suspendWaits (s : State) (p : Nat) : Bool := !drained s p || !(part s p).pending.isEmpty

/-- `park` (R61, R62): the tokens left after the drain go (R14); a monitor that has fired lets the partition go on, and is then disarmed. -/
def execPark (h : Hdr) (s : State) : Host.Outcome State Fault Refusal :=
  .next (issueWord s (.park h) h { ill := (part s s.cur).priv != 0 } fun _ t =>
    let p := t.cur
    if ¬ (part t p).flights.isEmpty then .hold s
    else if isLive (part t p) then .trap 0x09 0 0
    else if suspendWaits t p then .hold s
    else
      let t := releaseLeave t p
      match (part t p).monitor with
      | .fired => .next (modPart t p fun x => { x with monitor := .off, tokens := [] })
      | .off => .away (suspendRecord t p (resumePc t p) 0 0 .ready 0)
      | .armed _ => .away (suspendRecord t p (resumePc t p) 1 0 .monitor 0)
      | .armedRemote tag => .away (suspendRecord t p (resumePc t p) 1 0 .monitor tag))

/-- `yield` (R61, R62): the record is ready at once, at the tail of its level. -/
def execYield (h : Hdr) (s : State) : Host.Outcome State Fault Refusal :=
  .next (issueWord s (.yield h) h { ill := (part s s.cur).priv != 0 } fun _ t =>
    let p := t.cur
    if ¬ (part t p).flights.isEmpty then .hold s
    else if isLive (part t p) then .trap 0x09 0 0
    else if suspendWaits t p then .hold s
    else
      let t := releaseLeave { t with monitors := t.monitors.filter fun m => m.owner != .part p } p
      .away (suspendRecord t p (resumePc t p) 0 0 .ready 0))

/-- What a `done` in a handler empties first (R369): every frozen queue, then every pending trap. -/
def emptyFrozen (s : State) (p : Nat) : State :=
  let s := [0, 1, 2, 3, 4, 5].foldl (fun s k => if (cmdQueue s p k).frozen then
    modQueue (discardCommands s p k fun _ => true) p k fun q => { q with frozen := false } else s) s
  modPart s p fun x => { x with pending := [], resumeQueues := [] }

/-- `done` (R61, R196, R227, R369). -/
def execDone (h : Hdr) (s : State) : Host.Outcome State Fault Refusal :=
  .next (issueWord s (.done h) h {} fun _ t =>
    let p := t.cur
    let handler := (part t p).priv != 0
    let s' := if handler then emptyFrozen s p else s
    if viewOf t p ≠ 0 then .away (abandonRival (if handler then emptyFrozen t p else t) (viewOf t p)) else
    let t' := if handler then emptyFrozen t p else t
    if suspendWaits t' p then .hold s' else .away (endRecord (releaseLeave t' p) p))

/-- `trap` (R67). -/
def execTrap (h : Hdr) (code : BitVec 15) (s : State) : Host.Outcome State Fault Refusal :=
  .next (issueWord s (.trap h code) h {} fun _ _ => .trap 0x10 code.toNat 0)

/-- `tret` (R67, R369). -/
def execTret (h : Hdr) (s : State) : Host.Outcome State Fault Refusal :=
  .next (issueWord s (.tret h) h { level := 1 } fun _ t => .away (returnFromTrap t t.cur))

/-! ## Control registers -/

/-- The levels at which a control register is read and written (R49, R304, R387): none where it is not assigned; no write level
where it is read-only. -/
def crLevels (n : Nat) : Option (Nat × Option Nat) :=
  if n ≤ 0x004 then some (0, none)
  else if 0x008 ≤ n ∧ n ≤ 0x00B then some (0, some 0)
  else if 0x010 ≤ n ∧ n ≤ 0x013 then some (0, some 0)
  else if n = 0x018 then some (0, none)
  else if n = 0x019 then some (0, some 1)
  else if n = 0x01A then some (0, none)
  else if n = 0x020 then some (0, some 1)
  else if n = 0x030 ∨ n = 0x031 ∨ n = 0x032 ∨ n = 0x034 then some (1, some 1)
  else if n = 0x033 then some (1, none)
  else if 0x040 ≤ n ∧ n ≤ 0x04F then some (0, some 0)
  else if n = 0x050 ∨ n = 0x051 then some (1, some 1)
  else if n = 0x052 then some (1, none)
  else if n = 0x060 ∨ n = 0x061 then some (0, none)
  else if n = 0x062 then some (1, none)
  else none

/-- `cr.msways` as it reads (R290). -/
def mswaysValue (q : Quarter) : W64 := w64 (q.mswaysSt * 2 ^ 14 + q.drained * 2 ^ 9 + q.msways)

/-- The value of a control register (R49, R304, R387). -/
def crValue (s : State) (p n : Nat) : W64 :=
  let x := part s p
  let c := core s (coreOf p)
  if n = 0x000 then w64 (Config.device * 2 ^ 48 + quarterOf p * 2 ^ 8 + coreOf p % 48 * 4 + p % 4)
  else if n = 0x001 then w64 x.priv
  else if n = 0x002 then x.cont
  else if n = 0x003 then x.workid
  else if n = 0x004 then w64 x.asid
  else if n ≤ 0x00B then fgetD x.carry (n - 8) 0
  else if n ≤ 0x013 then w64 (fgetD x.loops (n - 0x10) {}).count
  else if n = 0x018 then w64 s.time
  else if n = 0x019 then w64 x.stopbad
  else if n = 0x01A then w64 x.leave
  else if n = 0x020 then x.seed
  else if n = 0x030 then x.tvec
  else if n = 0x031 then x.trec
  else if n = 0x032 then x.tpc
  else if n = 0x033 then x.tcause
  else if n = 0x034 then w64 x.tpriv
  else if n ≤ 0x04F then fgetD c.formats (n - 0x40) 0
  else if n = 0x050 then mswaysValue (quarter s (quarterOf p))
  else if n = 0x051 then c.slbase
  else if n = 0x052 then w64 (c.sideLog.length + if c.sideHeld.isEmpty then 0 else 2 ^ 16)
  else if n = 0x060 then w64 (s.modeSet + s.profile * 4 + (if s.ordered then 8 else 0) + if s.capture then 16 else 0)
  else if n = 0x061 then w64 ((if (recording s p).1 then 1 else 0) + if (recording s p).2 then 2 else 0)
  else w64 x.pending.length

/-- `crr` (R48): exposed, it lands after 2 ac; reads of `cr.id` and `cr.time` are observing reads (R378). -/
def execCrr (h : Hdr) (d : Reg) (crn : BitVec 10) (s : State) : Host.Outcome State Fault Refusal :=
  .next (issueWord s (.crr h d crn) h
    { dst := dstOf s d, ill := (crLevels crn.toNat).isNone,
      level := match crLevels crn.toNat with | some (r, _) => r | none => 0 } fun _ t =>
    let v := crValue t t.cur crn.toNat
    if crn.toNat = 0x000 ∨ crn.toNat = 0x018 then
      match observe t t.cur crn.toNat v with
      | (t, some v) => .next (flyExposed t d 1 2 v)
      | (t, none) => .away t
    else .next (flyExposed t d 1 2 v))

/-- MSWAYS_DRAIN (R290). -/
def execMswaysDrain (q ways : Nat) (s : State) : Host.Outcome State Fault Refusal := .next (drainWays s q ways)

/-- MSWAYS_CONVERT (R290). -/
def execMswaysConvert (q ways : Nat) (s : State) : Host.Outcome State Fault Refusal := .next (convertWays s q ways)

/-- The operation of `cr.msways` ends: the held `crw` and the next queued write are released (R290); 768 stands for a writer whose job has
ended. -/
def mswaysEnd (s : State) (q : Nat) : State :=
  match (quarter s q).mswaysBusy with
  | some (p, _, _) =>
    let s := modQuarter s q fun x => { x with mswaysBusy := none }
    if p < 768 then modPart s p fun x => { x with msDone := true } else s
  | none => s

/-- MSWAYS_OPERATION_END (R290). -/
def execMswaysOperationEnd (q : Nat) (s : State) : Host.Outcome State Fault Refusal := .next (mswaysEnd s q)

/-- A `crw` to `cr.msways` starts its operation in its turn and holds until it ends (R290). -/
def mswaysWrite (s t : State) (v : Nat) : WordOut :=
  let p := t.cur
  let q := quarterOf p
  if (part s p).msDone then
    .next (modQuarter (modPart t p fun x => { x with msDone := false }) q fun x => { x with msQueue := x.msQueue.filter (· != p) })
  else
    let s := if (quarter s q).msQueue.contains p then s else modQuarter s q fun x => { x with msQueue := x.msQueue ++ [p] }
    if (quarter s q).mswaysBusy.isNone ∧ (quarter s q).msQueue.head? = some p then
      let s := if nbit v 8 then convertWays s q (v % 32) else drainWays s q (v % 32)
      .stall (modQuarter s q fun x => { x with mswaysBusy := some (p, nbit v 8, v % 32) })
    else .stall s

/-- A write to a loop counter (R49). -/
def writeLoop (x : Part) (n v : Nat) : Part :=
  let l := fgetD x.loops n {}
  let v := v % 2 ^ 32
  if v = 0 then { x with loops := fput x.loops n {} }
  else if l.armed then { x with loops := fput x.loops n { l with count := v } }
  else x

/-- A write of a control register that holds plain state (R49, R304). -/
def crSet (s : State) (p n : Nat) (v : W64) : State :=
  if 0x008 ≤ n ∧ n ≤ 0x00B then modPart s p fun x => { x with carry := fput x.carry (n - 8) v }
  else if 0x010 ≤ n ∧ n ≤ 0x013 then modPart s p fun x => writeLoop x (n - 0x10) v.toNat
  else if n = 0x019 then modPart s p fun x => { x with stopbad := v.toNat % 2 ^ 32 }
  else if n = 0x020 then modPart s p fun x => { x with seed := v }
  else if n = 0x030 then modPart s p fun x => { x with tvec := w64 (v.toNat / 4 * 4) }
  else if n = 0x031 then modPart s p fun x => { x with trec := w64 (v.toNat % 2 ^ 48 / 64 * 64) }
  else if n = 0x032 then modPart s p fun x => { x with tpc := w64 (v.toNat / 4 * 4) }
  else if n = 0x034 then (if v.toNat % 4 = 3 then s else modPart s p fun x => { x with tpriv := v.toNat % 4 })
  else if 0x040 ≤ n ∧ n ≤ 0x04F then modCore s (coreOf p) fun c => { c with formats := fput c.formats (n - 0x40) (w64 (v.toNat % 64)) }
  else if n = 0x051 then modCore s (coreOf p) fun c => { c with slbase := w64 (v.toNat / 2 ^ 22 * 2 ^ 22) }
  else s

/-- `crw` (R48). -/
def execCrw (h : Hdr) (t : Reg) (crn : BitVec 10) (kt : Bool) (s : State) : Host.Outcome State Fault Refusal :=
  .next (issueWord s (.crw h t crn kt) h
    { reads := [rd s t kt],
      ill := match crLevels crn.toNat with | some (_, some _) => false | _ => true,
      level := match crLevels crn.toNat with | some (_, some w) => w | _ => 0 } fun v u =>
    let n := crn.toNat
    if n = 0x050 then (if viewOf u u.cur ≠ 0 then .trap 0x0A 0 0 else mswaysWrite s u (v.getD 0 0).toNat)
    else if 0x040 ≤ n ∧ n ≤ 0x04F ∧ 12 ≤ (v.getD 0 0).toNat % 16 then .trap 0x01 0 0
    else .next (crSet u u.cur n (v.getD 0 0)))

/-! ## Leave -/

/-- A waiting request of a class joins the governor's queue, behind those that came before it (R68, R381). The governor is that of the partition's own
quarter, for a test of a mangle of another quarter too (R361; DESIGN CHOICE, log entry 166). -/
def askLeave (s : State) (p cls : Nat) (cmd : Option Nat) : State :=
  modQuarter s (governorOf (quarterOf p) cls) fun x =>
    { x with leaves := x.leaves.filter (fun l => !(l.part == p && l.cmd == cmd)) ++ [{ cls := cls, part := p, cmd := cmd }] }

/-- `lvreq` (R68): holds until LEAVE_GRANT sets the bit of `cr.leave`. -/
def execLvreq (h : Hdr) (a : Reg) (ka : Bool) (s : State) : Host.Outcome State Fault Refusal :=
  .next (issueWord s (.lvreq h a ka) h { reads := [rd s a ka] } fun v t =>
    let c := (v.getD 0 0).toNat
    if 2 < c then .trap 0x06 0 0
    else if nbit (part t t.cur).leave c then .next (modPart t t.cur fun x => { x with leaveWait := none })
    else if (part s s.cur).leaveWait = some c then .hold s
    else .hold (askLeave (modPart s s.cur fun x => { x with leaveWait := some c }) s.cur c none))

/-- `lvrel` (R68). -/
def execLvrel (h : Hdr) (a : Reg) (ka : Bool) (s : State) : Host.Outcome State Fault Refusal :=
  .next (issueWord s (.lvrel h a ka) h { reads := [rd s a ka] } fun v t =>
    let c := (v.getD 0 0).toNat
    if 2 < c then .trap 0x06 0 0
    else if nbit (part t t.cur).leave c then
      .next (returnLeave (modPart t t.cur fun x => { x with leave := nset x.leave c 1 0 }) (quarterOf t.cur) c)
    else .next t)

/-- Counts a grant of a class. -/
def countGrant (s : State) (g cls : Nat) : State :=
  modQuarter s g fun x => { x with granted := fput x.granted cls (fgetD x.granted cls 0 + 1) }

/-- The governor grants the oldest request of a class within the limit (R381); a request withdrawn since then leaves the queue. -/
def grantLeave (s : State) (g cls : Nat) : State :=
  match (quarter s g).leaves.find? fun l => l.cls == cls with
  | none => s
  | some l =>
    let drop (s : State) : State := modQuarter s g fun x => { x with leaves := dropFirst (· == l) x.leaves }
    let room : Bool := decide (fgetD (quarter s g).granted cls 0 < leaveLimit s cls)
    match l.cmd with
    | none =>
      if (part s l.part).leaveWait ≠ some cls then drop s
      else if ¬ room then s
      else modPart (countGrant (drop s) g cls) l.part fun x => { x with leave := x.leave + if nbit x.leave cls then 0 else 2 ^ cls, leaveWait := none }
    | some 0 =>
      if ¬ room then s else modPart (countGrant (drop s) g cls) l.part fun x => { x with testLeave := true }
    | some id =>
      match [2, 3].find? fun k => (cmdQueue s l.part k).running.any fun r => r.cmd.id == id with
      | none => drop s
      | some k =>
        if ¬ room then s else
        modQueue (countGrant (drop s) g cls) l.part k fun q => { q with running := q.running.map fun r => if r.cmd.id = id then { r with tookLeave := true } else r }

/-- LEAVE_GRANT (R381). -/
def execLeaveGrant (q cls : Nat) (s : State) : Host.Outcome State Fault Refusal := .next (grantLeave s q cls)

/-! ## Self-test and scan -/

/-- The core that a testable unit belongs to, and its sub-block (R360): for a slice, sub-block 0x10000 + slice. -/
def testUnit (a : Nat) : Option (Nat × Nat) :=
  let q := nfld a 26 2
  let c := nfld a 20 6
  let u := nfld a 0 20
  if a / 2 ^ 32 ≠ 0 then none
  else if nfld a 28 4 = 1 then
    (if c < 48 ∧ (u = 1 ∨ u = 2 ∨ (0x10 ≤ u ∧ u < 0x20) ∨ u = 0x20 ∨ u = 0x30) then some (48 * q + c, u) else none)
  else if nfld a 28 4 = 2 then (if u < 384 ∧ c = u / 8 then some (48 * q + c, 0x10000 + u) else none)
  else none

/-- The core that `scan` names (R71). -/
def scanUnit (a : Nat) : Option (Nat × Nat) :=
  if a / 2 ^ 32 = 0 ∧ nfld a 28 4 = 1 ∧ nfld a 20 6 < 48 ∧ nfld a 0 20 = 0 then some (48 * nfld a 26 2 + nfld a 20 6, 0) else none

/-- Whether a core is idle (R71): no record held, and every command queue empty. -/
def coreIdle (s : State) (c : Nat) : Bool :=
  (partsOf c).all fun p => isFree s p && [0, 1, 2, 3, 4, 5].all fun k => (cmdQueue s p k).queued.isEmpty && (cmdQueue s p k).running.isEmpty

/-- The lines that a test picks leave a level of L1 or L2. -/
def dropLevel (s : State) (level : Nat) (pick : Nat → VLine → Bool) : State :=
  (s.tags.virt.filter fun v => v.1 / 2 ^ 76 == level && pick v.1 v.2).foldl (fun s v =>
    releaseLine { s with tags := { s.tags with virt := fdel s.tags.virt v.1 } } v.2.pa) s

/-- What an L2 slice does before its test (R361): dirty lines written back, every line discarded, every monitor fired. Its lines are those its
level holds under an address that hashes to it. -/
def emptySlice (s : State) (c u : Nat) : State :=
  let q := c / 48
  let mine (line : Nat) : Bool := homeSlice line == u - 0x10000
  let held := s.tags.virt.filter fun v => v.1 / 2 ^ 76 == 1 + q && mine (v.1 % 2 ^ 48)
  let s := (held.filter (·.2.old.isNone)).foldl (fun s v => (List.range 4).foldl (fun s i => writeBack s (4 * v.2.pa + i)) s) s
  let s := dropLevel s (1 + q) fun k _ => mine (k % 2 ^ 48)
  (s.monitors.filter fun m => m.home / 2 ^ 39 == q && mine m.home).foldl fireMonitor s

/-- How long the test of a sub-block takes (R362, R377). -/
def testTime (u : Nat) : Nat :=
  if u = 0 then 131072 else if u = 1 then 49152 else if 0x10000 ≤ u then 102400
  else if u = 0x30 then 32768 else if u = 2 ∨ u = 0x20 then 16384 else 8192

/-- A test that is refused asks for no leave, and keeps none (R71). -/
def dropTestLeave (s : State) (p : Nat) : State :=
  let s := modQuarter s (governorOf (quarterOf p) 0) fun x => { x with leaves := x.leaves.filter fun l => !(l.part == p && l.cmd == some 0) }
  if (part s p).testLeave then returnLeave (modPart s p fun x => { x with testLeave := false }) (quarterOf p) 0 else s

/-- `bist` and `scan` (R71, R361, R362): `unit` names the core and the sub-block; the word holds until TEST_RESULT, or for the 8 ac of
a refusal, and its result lands in the ac in which that ends. A core under another test is tested after it (DESIGN CHOICE, log entry 138). -/
def testWord (s : State) (i : Instr) (h : Hdr) (d a : Reg) (ka : Bool) (unit : Nat → Option (Nat × Nat)) : State :=
  issueWord s i h { reads := [rd s a ka], dst := dstOf s d, level := 2 } fun v t =>
    let p := t.cur
    let finish (t : State) (r : W64) : WordOut := .next (fly (modPart t p fun x => { x with testDone := none, testHeld := false }) d (.landing s.time r))
    let stall (s : State) : WordOut := .stall (modPart s p fun x => { x with testHeld := true })
    let refuse (r : W64) : WordOut := stall (modPart (dropTestLeave s p) p fun x => { x with testDone := some (s.time + 8, r) })
    match (part s p).testDone with
    | some (at8, r) => if at8 ≤ s.time then finish t r else stall s
    | none =>
      if s.cores.any fun c => match c.2.testing with | some (_, q, _, _) => q == p | none => false then stall s else
      match unit (v.getD 0 0).toNat with
      | none => refuse 3
      | some (c, u) =>
        if ¬ coreIdle s c then refuse 2
        else if (core s c).testing.isSome then stall s
        else if u = 1 ∧ ¬ nbit (part s p).leave 0 ∧ ¬ (part s p).testLeave then
          stall (if (quarter s (quarterOf p)).leaves.any (fun l => l.part == p && l.cmd == some 0) then s else askLeave s p 0 (some 0))
        else
          stall (modCore (if 0x10000 ≤ u then emptySlice s c u else s) c fun x => { x with testing := some ((v.getD 0 0).toNat, p, u, s.time + testTime u) })

/-- `bist` (R71). -/
def execBist (h : Hdr) (d a : Reg) (ka : Bool) (s : State) : Host.Outcome State Fault Refusal :=
  .next (testWord s (.bist h d a ka) h d a ka testUnit)

/-- `scan` (R71). -/
def execScan (h : Hdr) (d a : Reg) (ka : Bool) (s : State) : Host.Outcome State Fault Refusal :=
  .next (testWord s (.scan h d a ka) h d a ka scanUnit)

/-- The vector state of a partition at its pick-up values (R377, R106). -/
def resetVector (x : Part) : Part := { x with vregs := [], shapeRows := 16, shapeCols := 64, shapeType := 0, tables := [] }

/-- What a test leaves behind in the tested unit (R361, R377). -/
def testEffect (s : State) (c u : Nat) : State :=
  if u = 0 then
    let s := modCore s c fun x => { x with
      formats := [], slbase := 0, acc := [], nest := none, epi := none, weightType := none, weights := [],
      links := (x.links.map fun l => (l.1, ({ stale := l.2.ended } : LinkQueue))).filter fun l => !l.2.stale.isEmpty,
      tables := [], tableTypes := [], roCopies := [], roJob := [], holder := none }
    (partsOf c).foldl (fun s p => setPart s p { stores := (part s p).stores }) (dropLevel s (5 + c) fun _ _ => true)
  else if u = 1 then modCore s c fun x => { x with acc := [], weightType := none, weights := [] }
  else if u = 2 then (partsOf c).foldl (fun s p => modPart s p resetVector) s
  else if 0x10 ≤ u ∧ u < 0x20 then
    modCore s c fun x => { x with scratch := x.scratch.filter fun b => b.1 / 2 ^ 17 != u - 0x10 }
  else if u = 0x20 then modCore s c fun x => { x with tile := [] }
  else if u = 0x30 then modCore (dropLevel s (5 + c) fun _ _ => true) c fun x => { x with roCopies := [] }
  else s

/-- A request that held at a home is served, or holds there yet (R361). -/
def serveHome (s : State) (x : HomeItem) : State :=
  match x with
  | .write q asid va bs what job n => homeWrite s q asid va bs what job n
  | .fetch p va hint => prefetch s p va hint

/-- After a test the slice serves requests again (R361): what held there, in order, the tests of dependences, the held request records and the
logged arrivals of replays. -/
def serveHomes (s : State) : State :=
  let s := retestRings (testMarked (s.atHomes.foldl serveHome { s with atHomes := [] }) [2, 3])
  ((List.range 4).flatMap fun q => (quarter s q).jobs.map (·.addr)).foldl replayDue s

/-- A test of partition `p`'s word ends (R71, R362, R363): records first, then the unit's state, what held at a slice, the leave and the result, which
the word lands in the same ac. -/
def testEnds (s : State) (p : Nat) (fails : List W64) : State :=
  match s.cores.find? fun c => match c.2.testing with | some (_, q, _, ends) => q == p && decide (ends ≤ s.time) | none => false with
  | none => s
  | some (c, x) =>
    match x.testing with
    | none => s
    | some (a, _, u, _) =>
      let s := fails.foldl (fun s f => appendError s a 2 (if u = 0 then 0x02 else 0x01) 0 f) s
      let s := modCore (testEffect s c u) c fun x => { x with testing := none }
      let s := if 0x10000 ≤ u then serveHomes s else s
      if 768 ≤ p then s else
      let s := if (part s p).testLeave then returnLeave (modPart s p fun x => { x with testLeave := false }) (quarterOf p) 0 else s
      modPart (modCore s (coreOf p) fun x => { x with nextIssue := min x.nextIssue s.time }) p fun x =>
        { x with testDone := some (s.time, if fails.isEmpty then 0 else 1) }

/-- TEST_RESULT (R362). -/
def execTestResult (p : Nat) (fails : List W64) (s : State) : Host.Outcome State Fault Refusal := .next (testEnds s p fails)

/-! ## Error records and jobs -/

/-- `errrd` (R72). -/
def execErrrd (h : Hdr) (d a : Reg) (ka : Bool) (s : State) : Host.Outcome State Fault Refusal :=
  .next (accessWord s (.errrd h d a ka) h { reads := [rd s a ka], dst := dstOf s d, level := 2 } fun v t =>
    let va := (v.getD 0 0).toNat
    match accessTrap va 64 false false false with
    | some c => .trap c 0 (w64 va)
    | none =>
      match t.errors with
      | [] => .next (fly t d (.ready (-1)))
      | e :: r =>
        let w := wordEntry t va (.bytes (errorBytes e)) 0 1 (some (dstOf t d)) 0
        let left := w64 r.length
        let u := { t with errors := r }
        let later (u : State) : State := modPart (fly0 u d .answer) t.cur fun x => { x with answers := fput x.answers (wordSeq t) left }
        if escapes t w.ctx va 64 then .trap 0x0A 0 (w64 va)
        else if mustQueue t w then .next (queueWrite (later u) w)
        else
          match makeWrite u w with
          | (_, .world) => .trap 0x0A 0 (w64 va)
          | (u, .done _) => .next (if isRemote va then later u else fly u d (.ready left))
          | (u, _) => .next (later u))

/-- `jcancel` (R70, R229). -/
def execJcancel (h : Hdr) (d a : Reg) (ka : Bool) (s : State) : Host.Outcome State Fault Refusal :=
  .next (issueWord s (.jcancel h d a ka) h { reads := [rd s a ka], dst := dstOf s d, level := 1 } fun v t =>
    let va := (v.getD 0 0).toNat
    let p := t.cur
    if va % 128 ≠ 0 then .trap 0x05 0 (w64 va)
    else if isHost va ∨ isReserved va then .trap 0x06 0 (w64 va)
    else if viewOf t p ≠ 0 then .trap 0x0A 0 (w64 va)
    else
      match locOf va with
      | .remote _ =>
        observedLater (requestOut t (ctxOf t p .control) (.value p (wordSeq t) 2) va (.cancel va) (wordSeq t)) d va id
      | _ =>
        let r := cancelJob t Config.device va
        match observe r.1 p va (w64 r.2) with
        | (t, some v) => .next (fly t d (.ready v))
        | (t, none) => .away t)

end Sys2Proof.Machine
end

