-- ==== Sys2Proof/Machine/Operands.lean ====
section
/-! DEFINITION. Operands of commands (R91, R92), the push of a command (R13, R90, R110), and the reads and writes that engines make
(R93, R94, R99, R136, R170). -/

namespace Sys2Proof.Machine

/-! ## Checks of operands at push -/

/-- The cause of the trap for a place value of a space (R91, R5, R364): 0 memory, 1 scratchpad, 2 circular buffer, 4 tile store. -/
def placeTrap (sp v : Nat) (reads : Bool) : Option Nat :=
  if sp = 0 then (if isReserved v || isHost v || isMgmt v || (reads && isRemote v) then some 0x06 else none)
  else if sp = 1 then (if v < 2 ^ 21 then none else some 0x06)
  else if sp = 2 then (if v < 16 then none else some 0x06)
  else (if v < 2 ^ 19 then none else some 0x06)

/-- Whether a barrier operand is in semaphore form (R92). -/
def semForm (v : Nat) : Bool := decide (v < 256 ∧ v % 16 = 1)

/-- The semaphore that a barrier operand in semaphore form names (R92). -/
def semOf (v : Nat) : Nat := v / 16 % 16

/-- The cause of the trap for a barrier operand (R91, R92, R5). -/
def barTrap (v : Nat) : Option Nat :=
  if v = 0 ∨ semForm v then none
  else if v % 32 ≠ 0 then some 0x05
  else if isReserved v || isHost v || isMgmt v then some 0x06
  else none

/-- The cause of the trap for a barrier operand that must be local (R168). -/
def localBarTrap (v : Nat) : Option Nat :=
  match barTrap v with
  | some c => some c
  | none => if v ≠ 0 ∧ ¬ semForm v ∧ isRemote v then some 0x06 else none

/-- The first trap among checks in order. -/
def firstTrap (l : List (Option Nat)) : Option Nat := l.findSome? id

/-- A check that raises a cause unless it holds. -/
def need (ok : Bool) (cause : Nat) : Option Nat := if ok then none else some cause

/-- Whether `n` bytes at a scratchpad place lie inside its bank (R94). -/
def inBank (place n : Nat) : Bool := decide (place % 2 ^ 17 + n ≤ 2 ^ 17)

/-- A place `k` strides on (R96, R98, R99). -/
def strided (base stride : W64) (k : Nat) : W64 := base + stride * w64 k

/-! ## The push -/

/-- The command queue of an instruction's engine (R12, R13). -/
def pushAgent (k : Nat) : Agent :=
  match k with
  | 0 => .fetch | 1 => .vector | 2 => .matrix | 3 => .gleaner | 4 => .darner | _ => .exchange

/-- A command as it is pushed (R13, R26, R172): what it was, the values it read, and what it inherits from its record. -/
def pushedCmd (t : State) (k : Nat) (i : Instr) (v : List W64) : Cmd :=
  let x := part t t.cur
  { id := wordSeq t, instr := i, vals := v, pc := x.pc.toNat, word0 := (recWords i).1, word1 := (recWords i).2, seed := x.seed,
    workid := x.workid, ctx := ctxOf t t.cur (pushAgent k), record := match x.resident with | some r => r.stay | none => 0,
    ord := match x.resident with | some r => r.gleaned | none => 0 }

/-- A command joins the tail of queue `k`; the record counts its gleaner commands (R378). -/
def enqueue (t : State) (k : Nat) (c : Cmd) : State :=
  let t := if k = 3 then modPart t t.cur fun x => { x with resident := x.resident.map fun r => { r with gleaned := r.gleaned + 1 } } else t
  modQueue t t.cur k fun q => { q with queued := q.queued ++ [c] }

/-- Pushes a command into queue `k` (R13): `na` reads of register A, then `nb` of register B; `check` is given the values read. -/
def pushCommand (s : State) (i : Instr) (h : Hdr) (k : Nat) (a : Reg) (ka : Bool) (na : Nat) (b : Reg) (kb : Bool) (nb : Nat)
    (check : List W64 → State → Option Nat) : State :=
  issueWord s i h { words := 2, command := true, reads := List.replicate na (rd s a ka) ++ List.replicate nb (rd s b kb) } fun v t =>
    match check v t with
    | some c => .trap c 0 (if na = 0 then 0 else v.getD 0 0)
    | none => if 16 ≤ (cmdQueue t t.cur k).queued.length then .hold s else .next (enqueue t k (pushedCmd t k i v))

/-- Value `i` that a command read at push. -/
def cval (c : Cmd) (i : Nat) : Nat := (c.vals.getD i 0).toNat

/-- Value `i` as a 64-bit value. -/
def cval64 (c : Cmd) (i : Nat) : W64 := c.vals.getD i 0

/-! ## What an engine does -/

/-- Why an engine stops inside a command. -/
inductive Stop where
  /-- A page without a valid mapping: the engine holds until the runtime maps it (R93, R136, R170). -/
  | page (kind va : Nat)
  /-- A trap from the engine (R368). -/
  | trap (cause : Nat)
  /-- Something of the core or partition that is not there yet. -/
  | wait
deriving DecidableEq, Repr

/-- The work of an engine: the state it leaves, and a result or a stop. -/
abbrev Eng (α : Type) := ExceptT Stop (StateM State) α

/-- Runs an engine's work. -/
def Eng.go {α : Type} (m : Eng α) (s : State) : Except Stop α × State := (ExceptT.run m : StateM State _) s

/-- SHAPE_INVALID from the engine unless a check holds. -/
def shapeCheck (ok : Bool) : Eng Unit := if ok then pure () else throw (.trap 0x08)

/-- A read of memory that fails stops the engine (R93, R136, R170). -/
def stopOf (e : MemErr) : Stop :=
  match e with
  | .fault k va => .page k va
  | .world => .trap 0x0A
  | .bad _ => .trap 0x0F

/-- Whether a range of bytes names what an engine may not: a reserved device, the host die (R5), the management window (R364), for a read
another device (R74). A range that an engine reads or writes is shorter than the window, so its ends decide. -/
def strays (va n : Nat) (reads : Bool) : Bool :=
  n != 0 && [va % 2 ^ 64, (va + n - 1) % 2 ^ 64].any fun a => isReserved a || isHost a || isMgmt a || (reads && isRemote a)

/-- Reads memory as an engine (R74); a home under test holds it (R361). A place that only the command's strides or indices lead to, and that an
engine may not name, is ACCESS from the engine (DEDUCED, log entry 131). -/
def engRead (c : Ctx) (va n hint : Nat) : Eng (List Byte) := do
  if strays va n true then throw (.trap 0x06)
  if waitsHome (← get) c va n false then throw .wait
  let (s, r) := readVa (← get) c va n hint
  set s
  match r with
  | .ok bs => pure bs
  | .error e => throw (stopOf e)

/-- A byte array that wraps at its size. -/
def ringRead (m : FMap Byte) (size off : Nat) : Nat → List Byte
  | 0 => []
  | n + 1 => fgetD m (off % size) 0 :: ringRead m size (off + 1) n

/-- Writes a byte array that wraps at its size. -/
def ringWrite (m : FMap Byte) (size off : Nat) : List Byte → FMap Byte
  | [] => m
  | b :: r => ringWrite (if b = 0 then fdel m (off % size) else fput m (off % size) b) size (off + 1) r

/-- Bytes of a core's scratchpad and of its tile store (R2). -/
def scratchSize : Nat := 2 ^ 21

def tileSize : Nat := 2 ^ 19

/-- Reads a place of a space (R91). -/
def placeRead (c : Ctx) (sp : Nat) (a : W64) (n hint : Nat) : Eng (List Byte) := do
  if sp = 0 then engRead c a.toNat n hint
  else
    let x := core (← get) (coreOf c.part)
    pure (if sp = 1 then ringRead x.scratch scratchSize (a.toNat % scratchSize) n else ringRead x.tile tileSize (a.toNat % tileSize) n)

/-- Writes memory as an engine (R93, R77, R300, R352): what cannot be performed retires into the side log. `acc` is what a fault
record says; a home under test holds the engine (R361). ACCESS as for a read (log entry 131). -/
def engWrite (c : Ctx) (va : Nat) (bs : List Byte) (hint acc id : Nat) : Eng Unit := do
  if strays va bs.length false then throw (.trap 0x06)
  let s ← get
  match locOf va with
  | .remote _ =>
    if c.view ≠ 0 then throw (.trap 0x0A)
    else if logBusy s c then
      set (retire s { ctx := c, va := va, op := .bytes bs, hint := hint, seq := id, reg := none, kind := acc, seen := 0, cont := false })
    else set (performAny s c va (.bytes bs) 0 id).1
  | _ =>
    if !logBusy s c && waitsHome s c va bs.length true then throw .wait
    let (s, r) := sendWrite s c va (.bytes bs) hint acc id none false
    set s
    match r with
    | .world => throw (.trap 0x0A)
    | .bad _ => throw (.trap 0x0F)
    | _ => pure ()

/-- Writes a place of a space (R91). -/
def placeWrite (c : Ctx) (sp : Nat) (a : W64) (bs : List Byte) (hint acc id : Nat) : Eng Unit := do
  if sp = 0 then engWrite c a.toNat bs hint acc id
  else modify fun s => modCore s (coreOf c.part) fun x =>
    if sp = 1 then { x with scratch := ringWrite x.scratch scratchSize (a.toNat % scratchSize) bs }
    else { x with tile := ringWrite x.tile tileSize (a.toNat % tileSize) bs }

/-- Inside a world, a destination or barrier on another device is an escape, before any write (R352). -/
def escapeCheck (c : Ctx) (sp : Nat) (dst : W64) (bar : Nat) : Eng Unit :=
  if c.view ≠ 0 ∧ ((sp = 0 ∧ ¬ isHere dst.toNat) ∨ (bar ≠ 0 ∧ ¬ semForm bar ∧ ¬ isHere bar)) then throw (.trap 0x0A) else pure ()

/-- The rows of a strided operand in memory, when its command starts: ACCESS for one that an engine may not name (log entry 131), then, inside a
world, WORLD_ESCAPE for a written one on another device, before any write (R352). -/
def startRows (c : Ctx) (sp : Nat) (base stride : W64) (rows n : Nat) (reads : Bool) : Eng Unit :=
  if sp ≠ 0 then pure ()
  else if (List.range rows).any fun k => strays (strided base stride k).toNat n reads then throw (.trap 0x06)
  else if ¬ reads ∧ c.view ≠ 0 ∧ (List.range rows).any fun k => !isHere (strided base stride k).toNat then throw (.trap 0x0A)
  else pure ()

/-- Whether the writes that carry a number are performed (R93): none in a side log, none unacknowledged. -/
def writesDone (s : State) (p id : Nat) : Bool :=
  let x := core s (coreOf p)
  !(x.sideLog ++ x.sideHeld).any (fun e => e.ctx.part == p && e.ctx.agent != .control && e.seq == id) &&
    !s.awaits.any fun a => match a.kind with | .cmd q _ i => q == p && i == id | _ => false

/-- The register of a circular buffer. -/
def circOf (s : State) (p n : Nat) : Circ := circ s p n

/-- Elements of a row, low bits first (R112). -/
def unpackBits (w : Nat) : Nat → Nat → List Nat
  | 0, _ => []
  | n + 1, v => v % 2 ^ w :: unpackBits w n (v / 2 ^ w)

/-- Elements packed into a row (R112, R113). -/
def packBits (w : Nat) : List Nat → Nat
  | [] => 0
  | x :: r => x % 2 ^ w + 2 ^ w * packBits w r

end Sys2Proof.Machine
end

