-- ==== Sys2Proof/Machine/Fetch.lean ====
section
/-! DEFINITION. The fetch engine: copies (R94 to R96, R273 to R275), gathers (R97), operand queues (R98), the tile store (R99) and
circular buffers (R100). -/

namespace Sys2Proof.Machine

/-! ## Push -/

/-- A source or destination place with its bank check at push (R91, R94). -/
def rangeTrap (sp v n : Nat) (reads : Bool) : Option Nat :=
  firstTrap [placeTrap sp v reads, need (sp != 1 || inBank v n) 0x06]

/-- Rows of a scratchpad block, each inside one bank (R96). -/
def rowsIn (base stride : W64) (rows n : Nat) : Bool :=
  (List.range rows).all fun k => decide ((strided base stride k).toNat < 2 ^ 21) && inBank (strided base stride k).toNat n

/-- The trap at push of `cpy`, from the values read (R94). -/
def checkCpy (src dst : BitVec 2) (len : BitVec 24) (v : List W64) : Option Nat :=
    let x (i : Nat) := (v.getD i 0).toNat
    firstTrap [rangeTrap src.toNat (x 0) len.toNat true,
      if src = 1 then placeTrap dst.toNat (x 1) false else rangeTrap dst.toNat (x 1) len.toNat false, barTrap (x 2)]

/-- `cpy` (R94). -/
def execCpy (h : Hdr) (a b : Reg) (ka : Bool) (src dst hint : BitVec 2) (len : BitVec 24) (s : State) : Host.Outcome State Fault Refusal :=
  .next (pushCommand s (.cpy h a b ka src dst hint len) h 0 a ka 1 b false 2 fun v _ => checkCpy src dst len v)

/-- The trap at push of `cpy2`, from the values read (R96). -/
def checkCpy2 (src dst : BitVec 2) (rows rowbytes : BitVec 14) (v : List W64) : Option Nat :=
    let x (i : Nat) := v.getD i 0
    firstTrap [placeTrap src.toNat (x 0).toNat true, need (src != 1 || rowsIn (x 0) (x 1) rows.toNat rowbytes.toNat) 0x06,
      placeTrap dst.toNat (x 2).toNat false, need (src == 1 || dst != 1 || rowsIn (x 2) (x 3) rows.toNat rowbytes.toNat) 0x06,
      barTrap (x 4).toNat]

/-- `cpy2` (R96). -/
def execCpy2 (h : Hdr) (a b : Reg) (src dst : BitVec 2) (rows rowbytes : BitVec 14) (s : State) : Host.Outcome State Fault Refusal :=
  .next (pushCommand s (.cpy2 h a b src dst rows rowbytes) h 0 a false 2 b false 3 fun v _ => checkCpy2 src dst rows rowbytes v)

/-- The trap at push of `cpyg`, from the values read (R97). -/
def checkCpyg (isp dst : BitVec 2) (v : List W64) : Option Nat :=
    let x (i : Nat) := (v.getD i 0).toNat
    firstTrap [placeTrap 0 (x 0) true, placeTrap isp.toNat (x 1) true, placeTrap dst.toNat (x 2) false, barTrap (x 3)]

/-- `cpyg` (R97). -/
def execCpyg (h : Hdr) (a b : Reg) (isp dst : BitVec 2) (count : BitVec 12) (rowbytes : BitVec 16) (s : State) :
    Host.Outcome State Fault Refusal :=
  .next (pushCommand s (.cpyg h a b isp dst count rowbytes) h 0 a false 2 b false 2 fun v _ => checkCpyg isp dst v)

/-- The trap at push of `oqld`, from the values read (R98). -/
def checkOqld (src : BitVec 2) (v : List W64) : Option Nat :=
    let x (i : Nat) := (v.getD i 0).toNat
    firstTrap [placeTrap src.toNat (x 0) true, barTrap (x 2)]

/-- `oqld` (R98). -/
def execOqld (h : Hdr) (a b : Reg) (kb : Bool) (src hint : BitVec 2) (rows : BitVec 16) (oq : Fin 8) (s : State) :
    Host.Outcome State Fault Refusal :=
  .next (pushCommand s (.oqld h a b kb src hint rows oq) h 0 a false 2 b kb 1 fun v _ => checkOqld src v)

/-- Whether a transfer lies inside the tile store (R99). -/
def tileFits (place rows rowbytes : Nat) : Bool := decide (place / 1024 + rows ≤ 512 ∧ place % 1024 + rowbytes ≤ 1024)

/-- The trap at push of `tsld`, from the values read (R99). -/
def checkTsld (src : BitVec 2) (rows : BitVec 10) (rowbytes : BitVec 11) (v : List W64) : Option Nat :=
    let x (i : Nat) := (v.getD i 0).toNat
    firstTrap [placeTrap src.toNat (x 0) true, placeTrap 4 (x 2) false, need (tileFits (x 2) rows.toNat rowbytes.toNat) 0x06, barTrap (x 3)]

/-- `tsld` (R99). -/
def execTsld (h : Hdr) (a b : Reg) (src hint : BitVec 2) (rows : BitVec 10) (rowbytes : BitVec 11) (s : State) :
    Host.Outcome State Fault Refusal :=
  .next (pushCommand s (.tsld h a b src hint rows rowbytes) h 0 a false 2 b false 2 fun v _ => checkTsld src rows rowbytes v)

/-- The trap at push of `tsst`, from the values read (R99). -/
def checkTsst (dst : BitVec 2) (rows : BitVec 10) (rowbytes : BitVec 11) (v : List W64) : Option Nat :=
    let x (i : Nat) := (v.getD i 0).toNat
    firstTrap [placeTrap 4 (x 0) true, need (tileFits (x 0) rows.toNat rowbytes.toNat) 0x06, placeTrap dst.toNat (x 1) false, barTrap (x 3)]

/-- `tsst` (R99). -/
def execTsst (h : Hdr) (a b : Reg) (ka : Bool) (dst hint : BitVec 2) (rows : BitVec 10) (rowbytes : BitVec 11) (s : State) :
    Host.Outcome State Fault Refusal :=
  .next (pushCommand s (.tsst h a b ka dst hint rows rowbytes) h 0 a ka 1 b false 3 fun v _ => checkTsst dst rows rowbytes v)

/-- The trap at push of `cbinit`, from the values read (R100). -/
def checkCbinit (size : BitVec 12) (slots : BitVec 8) (v : List W64) : Option Nat :=
    let x := (v.getD 0 0).toNat
    firstTrap [placeTrap 1 x false, need (x % 32 == 0) 0x05, need (inBank x (slots.toNat * (32 * size.toNat))) 0x06]

/-- `cbinit` (R100). -/
def execCbinit (h : Hdr) (a : Reg) (ka : Bool) (n : Fin 16) (size : BitVec 12) (slots : BitVec 8) (s : State) :
    Host.Outcome State Fault Refusal :=
  .next (pushCommand s (.cbinit h a ka n size slots) h 0 a ka 1 0 false 0 fun v _ => checkCbinit size slots v)

/-! ## Copies -/

/-- The format register of the bank of a scratchpad place (R273). -/
def bankFormat (formats : FMap W64) (place : Nat) : Nat := (fgetD formats (place / 2 ^ 17 % 16) 0).toNat

/-- A conversion that a copy makes: source type, destination type, rounding field (R94, R275). -/
structure Conv where
  src : Nat
  dst : Nat
  mode : Nat
deriving DecidableEq, Repr

/-- The conversion of a copy between banks; none when the types are equal; SHAPE_INVALID between L16 and another type (R275). -/
def convOf (fs fd : Nat) : Eng (Option Conv) :=
  if fs % 16 = fd % 16 then pure none
  else if fs % 16 = 11 ∨ fd % 16 = 11 then throw (.trap 0x08)
  else pure (some { src := fs % 16, dst := fd % 16, mode := nfld fd 4 2 })

/-- Destination bytes of `n` source bytes; the element counts must be whole (R94). -/
def convBytes (k : Option Conv) (n : Nat) : Eng Nat :=
  match k with
  | none => pure n
  | some k =>
    let e := 8 * n / tyWidth k.src
    if 8 * n % tyWidth k.src = 0 ∧ e * tyWidth k.dst % 8 = 0 then pure (e * tyWidth k.dst / 8) else throw (.trap 0x08)

/-- Converts elements, the first with index `i` (R275, R272). -/
def convElems (k : Conv) (seed workid step : Nat) : Nat → List Nat → List Nat
  | _, [] => []
  | i, x :: r => encodeT k.dst k.mode (stochDraw seed workid step i) (decodeT k.src x) :: convElems k seed workid step (i + 1) r

/-- Converts bytes, whose first element has index `i` (R94, R275). -/
def convRow (k : Option Conv) (c : Cmd) (step i : Nat) (bs : List Byte) : List Byte :=
  match k with
  | none => bs
  | some k =>
    let e := 8 * bs.length / tyWidth k.src
    leBytes (e * tyWidth k.dst / 8) (packBits (tyWidth k.dst) (convElems k c.seed.toNat c.workid.toNat step i (unpackBits (tyWidth k.src) e (leNat bs))))

/-- Copies `n` source bytes in ascending units of 128 source bytes, each read whole before it is written (R95); the units are counted from
the first source byte (DESIGN CHOICE, log entry 95). `i` is the index of the first element. -/
def moveUnits (c : Cmd) (ss ds : Nat) (k : Option Conv) (step hint : Nat) : Nat → W64 → W64 → Nat → Nat → Eng Unit
  | 0, _, _, _, _ => pure ()
  | f + 1, src, dst, n, i =>
    if n = 0 then pure () else do
    let m := min n 128
    let bs ← placeRead c.ctx ss src m hint
    let out := convRow k c step i bs
    placeWrite c.ctx ds dst out hint 4 c.id
    moveUnits c ss ds k step hint f (src + w64 m) (dst + w64 out.length) (n - m) (match k with | some k => i + 8 * m / tyWidth k.src | none => 0)

/-- Copies `n` source bytes. -/
def move (c : Cmd) (ss ds : Nat) (k : Option Conv) (step hint : Nat) (src dst : W64) (n i : Nat) : Eng Unit :=
  moveUnits c ss ds k step hint (n / 128 + 1) src dst n i

/-- A command whose work is done; its barrier add will count `n` bytes (R93). -/
def Run.finish (r : Run) (n : Nat) : Run := { r with state := .done, count := n }

/-- The conversion of a copy from `src` to `dst`: only between banks (R94). -/
def copyConv (formats : FMap W64) (ss ds : Nat) (src dst : W64) : Eng (Option Conv) :=
  if ss = 1 ∧ ds = 1 then convOf (bankFormat formats src.toNat) (bankFormat formats dst.toNat) else pure none

/-- `cpy` when it starts (R94, R101). -/
def workCpy (r : Run) (ss ds hint len : Nat) : Eng Run := do
  let c := r.cmd
  let src := cval64 c 0
  escapeCheck c.ctx ds (cval64 c 1) (cval c 2)
  if ds = 2 then
    let b := circOf (← get) c.ctx.part (cval c 1)
    if b.slots = 0 ∨ b.free = 0 then throw .wait
    let dst := w64 (b.base + b.tail * b.size)
    let k ← copyConv r.formats ss 1 src dst
    let n ← convBytes k len
    shapeCheck (decide (n ≤ b.size))
    modify fun s => setCirc s c.ctx.part (cval c 1) { b with free := b.free - 1, tail := (b.tail + 1) % b.slots }
    move c ss 1 k (dst.toNat % 2 ^ 21) hint src dst len 0
    pure (r.finish n)
  else
    let dst := cval64 c 1
    let k ← copyConv r.formats ss ds src dst
    let n ← convBytes k len
    shapeCheck (ss != 1 || ds != 1 || inBank dst.toNat n)
    move c ss ds k (dst.toNat % 2 ^ 21) hint src dst len 0
    pure (r.finish n)

/-- Row `i` of `cpy2` (R96): its source and destination places, its conversion and its destination bytes, with the checks of the start. -/
def rowPlan (r : Run) (ss ds rowbytes i : Nat) : Eng (W64 × W64 × Option Conv × Nat) := do
  let src := strided (cval64 r.cmd 0) (cval64 r.cmd 1) i
  let dst := strided (cval64 r.cmd 2) (cval64 r.cmd 3) i
  let k ← copyConv r.formats ss ds src dst
  let m ← convBytes k rowbytes
  shapeCheck (ss != 1 || ds != 1 || (decide (dst.toNat < 2 ^ 21) && inBank dst.toNat m))
  pure (src, dst, k, m)

/-- The checks of every row of `cpy2` (R96). -/
def rowPlans (r : Run) (ss ds rowbytes : Nat) : Nat → Eng Unit
  | 0 => pure ()
  | n + 1 => do
    rowPlans r ss ds rowbytes n
    let _ ← rowPlan r ss ds rowbytes n
    pure ()

/-- A command that has finished one row of `n`: it goes on with the next, or its work is done (R93, R136). `count` is what its add counts so
far. -/
def Run.afterRow (r : Run) (n count : Nat) : Run :=
  if n ≤ r.step + 1 then { r with step := r.step + 1 }.finish count else { r with state := .row, step := r.step + 1, count := count }

/-- One row of `cpy2` (R93, R96): the checks of all rows come before the first (R352). -/
def workCpy2 (r : Run) (ss ds rows rowbytes : Nat) : Eng Run := do
  if r.step = 0 then
    escapeCheck r.cmd.ctx ds (cval64 r.cmd 2) (cval r.cmd 4)
    startRows r.cmd.ctx ss (cval64 r.cmd 0) (cval64 r.cmd 1) rows rowbytes true
    startRows r.cmd.ctx ds (cval64 r.cmd 2) (cval64 r.cmd 3) rows rowbytes false
    rowPlans r ss ds rowbytes rows
  if rows = 0 then return r.finish 0
  let (src, dst, k, m) ← rowPlan r ss ds rowbytes r.step
  let per := match k with | some k => 8 * rowbytes / tyWidth k.src | none => 0
  move r.cmd ss ds k (cval r.cmd 2 % 2 ^ 21) 0 src dst rowbytes (r.step * per)
  pure (r.afterRow rows (r.count + m))

/-- The rows of `cpyg` (R97). -/
def gatherRows (c : Cmd) (isp dst rowbytes : Nat) : Nat → Eng Unit
  | 0 => pure ()
  | n + 1 => do
    gatherRows c isp dst rowbytes n
    let i := leNat (← placeRead c.ctx isp (cval64 c 1 + w64 (4 * n)) 4 0)
    let row ← if i = 0xFFFFFFFF then pure (List.replicate rowbytes 0) else engRead c.ctx ((cval64 c 0 + w64 (i * rowbytes)).toNat) rowbytes 0
    placeWrite c.ctx dst (cval64 c 2 + w64 (n * rowbytes)) row 0 4 c.id

/-- `cpyg` when it starts (R97). -/
def workCpyg (r : Run) (isp dst count rowbytes : Nat) : Eng Run := do
  escapeCheck r.cmd.ctx dst (cval64 r.cmd 2) (cval r.cmd 3)
  gatherRows r.cmd isp dst rowbytes count
  pure (r.finish (count * rowbytes))

/-- One row of `oqld`, or its end (R98). It holds while the queue holds 8 rows. -/
def workOqld (r : Run) (src hint rows oq : Nat) : Eng Run := do
  escapeCheck r.cmd.ctx 1 0 (cval r.cmd 2)
  if rows ≤ r.step then pure (r.finish (256 * rows)) else
  let q := fgetD (part (← get) r.cmd.ctx.part).operandQueues oq []
  if 8 ≤ q.length then throw .wait
  let row ← placeRead r.cmd.ctx src (strided (cval64 r.cmd 0) (cval64 r.cmd 1) r.step) 256 hint
  modify fun s => modPart s r.cmd.ctx.part fun x => { x with operandQueues := fput x.operandQueues oq (q ++ [row]) }
  if rows = r.step + 1 then pure ({ r with step := r.step + 1 }.finish (256 * rows))
  else pure { r with state := .waiting, step := r.step + 1 }

/-- The place `k` rows on in the tile store. -/
def tileRow (place : W64) (k : Nat) : W64 := place + w64 (1024 * k)

/-- The rows of `tsld` and `tsst` (R99). -/
def tileRows (c : Cmd) (load : Bool) (sp hint rowbytes : Nat) (tile side stride : W64) : Nat → Eng Unit
  | 0 => pure ()
  | n + 1 => do
    tileRows c load sp hint rowbytes tile side stride n
    if load then
      let bs ← placeRead c.ctx sp (strided side stride n) rowbytes hint
      placeWrite c.ctx 4 (tileRow tile n) bs 0 4 c.id
    else
      let bs ← placeRead c.ctx 4 (tileRow tile n) rowbytes 0
      placeWrite c.ctx sp (strided side stride n) bs hint 4 c.id

/-- `tsld` when it starts (R99). -/
def workTsld (r : Run) (src hint rows rowbytes : Nat) : Eng Run := do
  escapeCheck r.cmd.ctx 4 0 (cval r.cmd 3)
  startRows r.cmd.ctx src (cval64 r.cmd 0) (cval64 r.cmd 1) rows rowbytes true
  tileRows r.cmd true src hint rowbytes (cval64 r.cmd 2) (cval64 r.cmd 0) (cval64 r.cmd 1) rows
  pure (r.finish (rows * rowbytes))

/-- `tsst` when it starts (R99). -/
def workTsst (r : Run) (dst hint rows rowbytes : Nat) : Eng Run := do
  escapeCheck r.cmd.ctx dst (cval64 r.cmd 1) (cval r.cmd 3)
  startRows r.cmd.ctx dst (cval64 r.cmd 1) (cval64 r.cmd 2) rows rowbytes false
  tileRows r.cmd false dst hint rowbytes (cval64 r.cmd 0) (cval64 r.cmd 1) (cval64 r.cmd 2) rows
  pure (r.finish (rows * rowbytes))

/-- `cbinit` when it starts (R100). -/
def workCbinit (r : Run) (n size slots : Nat) : Eng Run := do
  modify fun s => setCirc s r.cmd.ctx.part n { slots := slots, size := 32 * size, base := cval r.cmd 0, free := slots }
  pure (r.finish 0)

end Sys2Proof.Machine
end

