-- ==== Sys2Proof/Machine/Vector.lean ====
section
/-! DEFINITION. The vector engine (R106 to R137): shape, loads and stores, movement, arithmetic, logic, conversion, reduction. -/

namespace Sys2Proof.Machine

/-! ## Lanes -/

/-- Where lane (r, c) of register v is kept (R106). -/
def laneKey (v r c : Nat) : Nat := 1024 * v + 64 * r + c

/-- Lane (r, c) of register v. -/
def lane (x : Part) (v r c : Nat) : Nat := (fgetD x.vregs (laneKey v r c) 0).toNat

/-- Writes one lane; a lane of 0 is not listed. -/
def setLane (x : Part) (v r c n : Nat) : Part :=
  { x with vregs := if n % 2 ^ 32 = 0 then fdel x.vregs (laneKey v r c) else fput x.vregs (laneKey v r c) (BitVec.ofNat 32 n) }

/-- The in-shape lanes, row-major (R109, R110). -/
def shapeCells (x : Part) : List (Nat × Nat) :=
  ((List.range x.shapeRows).map fun r => (List.range x.shapeCols).map fun c => (r, c)).flatten

/-- The element of a lane: its low bits (R106). -/
def elem (x : Part) (v r c : Nat) : Nat := lane x v r c % 2 ^ tyWidth x.shapeType

/-- Writes lanes of register v. -/
def writeLanes (x : Part) (v : Nat) (l : List ((Nat × Nat) × Nat)) : Part := l.foldl (fun x e => setLane x v e.1.1 e.1.2 e.2) x

/-- Fills the shape of register v: every source lane is read before a lane is written (R110). -/
def fillShape (x : Part) (v : Nat) (f : Nat → Nat → Nat) : Part := writeLanes x v ((shapeCells x).map fun e => (e, f e.1 e.2))

/-- The partition of a command. -/
def cmdPart (s : State) (c : Cmd) : Part := part s c.ctx.part

/-- A V command that changes its partition's vector state and makes no barrier add. -/
def vecDone (r : Run) (f : Part → Part) : Eng Run := do
  modify fun s => modPart s r.cmd.ctx.part f
  pure (r.finish 0)

/-! ## Push -/

/-- A push with no operand from a register. -/
def pushPlain (s : State) (i : Instr) (h : Hdr) (k : Nat) : State := pushCommand s i h k 0 false 0 0 false 0 fun _ _ => none

/-- A push whose operand B is a register when `sb` is set (R116). -/
def pushScalar (s : State) (i : Instr) (h : Hdr) (b : Reg) (kb sb : Bool) : State :=
  pushCommand s i h 1 0 false 0 b kb (if sb then 1 else 0) fun _ _ => none

/-- A push with one value from register A. -/
def pushA (s : State) (i : Instr) (h : Hdr) (k : Nat) (a : Reg) (ka : Bool) (check : Nat → Option Nat) : State :=
  pushCommand s i h k a ka 1 0 false 0 fun v _ => check (v.getD 0 0).toNat

/-- The trap at push of `vshape`, from the values read (R109). -/
def checkVshape (regRows regCols : Bool) (v : List W64) : Option Nat :=
      let cols := (v.getD 0 0).toNat
      let rows := (v.getD (if regCols then 1 else 0) 0).toNat
      firstTrap [need (!regCols || decide (1 ≤ cols ∧ cols ≤ 64)) 0x08, need (!regRows || decide (1 ≤ rows ∧ rows ≤ 16)) 0x08]

/-- `vshape` (R109). -/
def execVshape (h : Hdr) (a b : Reg) (ka kb regRows regCols : Bool) (ty : BitVec 4) (cols1 : BitVec 6) (rows1 : BitVec 4) (s : State) :
    Host.Outcome State Fault Refusal :=
  .next (pushCommand s (.vshape h a b ka kb regRows regCols ty cols1 rows1) h 1 a ka (if regCols then 1 else 0) b kb (if regRows then 1 else 0) fun v _ => checkVshape regRows regCols v)

/-- The trap at push of `vld`, from the values read (R112). -/
def checkVld (src : BitVec 2) (v : List W64) : Option Nat :=
    if src = 2 then none else placeTrap src.toNat (v.getD 0 0).toNat true

/-- `vld` (R112). -/
def execVld (h : Hdr) (a b : Reg) (ka kb : Bool) (src : BitVec 2) (vd : Fin 16) (oq : Fin 8) (hint : BitVec 2) (s : State) :
    Host.Outcome State Fault Refusal :=
  let n := if src = 2 then 0 else 1
  .next (pushCommand s (.vld h a b ka kb src vd oq hint) h 1 a ka n b kb n fun v _ => checkVld src v)

/-- The trap at push of `vst`, from the values read (R113). -/
def checkVst (dst : BitVec 2) (v : List W64) : Option Nat :=
    firstTrap [placeTrap dst.toNat (v.getD 0 0).toNat true, barTrap (v.getD 2 0).toNat]

/-- `vst` (R113). -/
def execVst (h : Hdr) (a b : Reg) (ka : Bool) (dst : BitVec 2) (va : Fin 16) (hint : BitVec 2) (s : State) : Host.Outcome State Fault Refusal :=
  .next (pushCommand s (.vst h a b ka dst va hint) h 1 a ka 1 b false 2 fun v _ => checkVst dst v)

/-- `vbcast.x` (R114). -/
def execVbcastX (h : Hdr) (a : Reg) (ka : Bool) (vd : Fin 16) (s : State) : Host.Outcome State Fault Refusal :=
  .next (pushA s (.vbcastX h a ka vd) h 1 a ka fun _ => none)

/-- `vbcast.row` (R114). -/
def execVbcastRow (h : Hdr) (vd va : Fin 16) (n : BitVec 4) (s : State) : Host.Outcome State Fault Refusal :=
  .next (pushPlain s (.vbcastRow h vd va n) h 1)

/-- `vbcast.col` (R114). -/
def execVbcastCol (h : Hdr) (vd va : Fin 16) (n : BitVec 6) (s : State) : Host.Outcome State Fault Refusal :=
  .next (pushPlain s (.vbcastCol h vd va n) h 1)

/-- `vsel` (R115). -/
def execVsel (h : Hdr) (vd va vb vc : Fin 16) (s : State) : Host.Outcome State Fault Refusal := .next (pushPlain s (.vsel h vd va vb vc) h 1)

/-- `vadd` (R116). -/
def execVadd (h : Hdr) (b : Reg) (kb sb sat : Bool) (vd va vb : Fin 16) (s : State) : Host.Outcome State Fault Refusal :=
  .next (pushScalar s (.vadd h b kb sb sat vd va vb) h b kb sb)

/-- `vsub` (R116). -/
def execVsub (h : Hdr) (b : Reg) (kb sb sat : Bool) (vd va vb : Fin 16) (s : State) : Host.Outcome State Fault Refusal :=
  .next (pushScalar s (.vsub h b kb sb sat vd va vb) h b kb sb)

/-- `vmul` (R116). -/
def execVmul (h : Hdr) (b : Reg) (kb sb sat : Bool) (vd va vb : Fin 16) (s : State) : Host.Outcome State Fault Refusal :=
  .next (pushScalar s (.vmul h b kb sb sat vd va vb) h b kb sb)

/-- `vfma` (R116). -/
def execVfma (h : Hdr) (b : Reg) (kb sb sat : Bool) (vd va vb vc : Fin 16) (s : State) : Host.Outcome State Fault Refusal :=
  .next (pushScalar s (.vfma h b kb sb sat vd va vb vc) h b kb sb)

/-- `vmax` (R116). -/
def execVmax (h : Hdr) (b : Reg) (kb sb sat : Bool) (vd va vb : Fin 16) (s : State) : Host.Outcome State Fault Refusal :=
  .next (pushScalar s (.vmax h b kb sb sat vd va vb) h b kb sb)

/-- `vmin` (R116). -/
def execVmin (h : Hdr) (b : Reg) (kb sb sat : Bool) (vd va vb : Fin 16) (s : State) : Host.Outcome State Fault Refusal :=
  .next (pushScalar s (.vmin h b kb sb sat vd va vb) h b kb sb)

/-- `vabs` (R116). -/
def execVabs (h : Hdr) (sat : Bool) (vd va : Fin 16) (s : State) : Host.Outcome State Fault Refusal := .next (pushPlain s (.vabs h sat vd va) h 1)

/-- `vneg` (R116). -/
def execVneg (h : Hdr) (sat : Bool) (vd va : Fin 16) (s : State) : Host.Outcome State Fault Refusal := .next (pushPlain s (.vneg h sat vd va) h 1)

/-- `vcmp` (R116, R119). -/
def execVcmp (h : Hdr) (b : Reg) (kb sb sat : Bool) (vd va vb : Fin 16) (cond : BitVec 3) (s : State) : Host.Outcome State Fault Refusal :=
  .next (pushScalar s (.vcmp h b kb sb sat vd va vb cond) h b kb sb)

/-- `vand` (R120). -/
def execVand (h : Hdr) (b : Reg) (kb sb : Bool) (vd va vb : Fin 16) (s : State) : Host.Outcome State Fault Refusal :=
  .next (pushScalar s (.vand h b kb sb vd va vb) h b kb sb)

/-- `vor` (R120). -/
def execVor (h : Hdr) (b : Reg) (kb sb : Bool) (vd va vb : Fin 16) (s : State) : Host.Outcome State Fault Refusal :=
  .next (pushScalar s (.vor h b kb sb vd va vb) h b kb sb)

/-- `vxor` (R120). -/
def execVxor (h : Hdr) (b : Reg) (kb sb : Bool) (vd va vb : Fin 16) (s : State) : Host.Outcome State Fault Refusal :=
  .next (pushScalar s (.vxor h b kb sb vd va vb) h b kb sb)

/-- `vshl` (R120). -/
def execVshl (h : Hdr) (b : Reg) (kb sb : Bool) (vd va vb : Fin 16) (s : State) : Host.Outcome State Fault Refusal :=
  .next (pushScalar s (.vshl h b kb sb vd va vb) h b kb sb)

/-- `vshr` (R120). -/
def execVshr (h : Hdr) (b : Reg) (kb sb : Bool) (vd va vb : Fin 16) (s : State) : Host.Outcome State Fault Refusal :=
  .next (pushScalar s (.vshr h b kb sb vd va vb) h b kb sb)

/-- `vpopc` (R120). -/
def execVpopc (h : Hdr) (vd va : Fin 16) (s : State) : Host.Outcome State Fault Refusal := .next (pushPlain s (.vpopc h vd va) h 1)

/-- `vcvt` (R121): the step number is read for the stochastic mode alone. -/
def execVcvt (h : Hdr) (a : Reg) (ka : Bool) (vd va : Fin 16) (ty : BitVec 4) (mode : BitVec 2) (s : State) : Host.Outcome State Fault Refusal :=
  .next (pushCommand s (.vcvt h a ka vd va ty mode) h 1 a ka (if mode = 3 then 1 else 0) 0 false 0 fun _ _ => none)

/-- `vred` (R122). -/
def execVred (h : Hdr) (axis sat : Bool) (vd va : Fin 16) (op : BitVec 3) (s : State) : Host.Outcome State Fault Refusal :=
  .next (pushPlain s (.vred h axis sat vd va op) h 1)

/-! ## Shape, loads and stores -/

/-- `vshape` when it starts (R109). -/
def workVshape (r : Run) (regRows regCols : Bool) (ty cols1 rows1 : Nat) : Eng Run :=
  let c := r.cmd
  let cols := if regCols then cval c 0 else cols1 + 1
  let rows := if regRows then cval c (if regCols then 1 else 0) else rows1 + 1
  vecDone r fun x => { x with shapeRows := rows, shapeCols := cols, shapeType := ty }

/-- Bytes of a packed row of the shape (R112). -/
def rowBytes (x : Part) : Nat := ceilDiv (x.shapeCols * tyWidth x.shapeType) 8

/-- A row start of a vector load or store: the bank that the operand names, with the offset moved by the stride (R112, R370). -/
def rowStart (sp : Nat) (base stride : W64) (k : Nat) : Int :=
  if sp = 0 then ((strided base stride k).toNat : Int) else (base.toNat : Int) % 2 ^ 17 + stride.toInt * k

/-- The alignment and bank checks of a vector load or store (R112). -/
def rowsCheck (x : Part) (sp : Nat) (base stride : W64) : Bool :=
  let al : Int := ceilDiv (tyWidth x.shapeType) 8
  (List.range x.shapeRows).all fun k =>
    let a := rowStart sp base stride k
    decide (a % al = 0) && (sp == 0 || decide (0 ≤ a ∧ a + rowBytes x ≤ 2 ^ 17))

/-- Reads packed rows. -/
def readRows (c : Ctx) (sp hint n : Nat) (base stride : W64) : Nat → Eng (List (List Byte))
  | 0 => pure []
  | k + 1 => do
    let l ← readRows c sp hint n base stride k
    let b ← placeRead c sp (strided base stride k) n hint
    pure (l ++ [b])

/-- Rows unpacked into the shape of a register (R112). -/
def loadRows (x : Part) (vd : Nat) (rows : List (List Byte)) : Part :=
  writeLanes x vd ((rows.zipIdx.map fun e =>
    ((unpackBits (tyWidth x.shapeType) x.shapeCols (leNat e.1)).zipIdx.map fun y => ((e.2, y.2), y.1))).flatten)

/-- `vld` when it starts (R112). From an operand queue it takes rows as they come. -/
def workVld (r : Run) (src vd oq hint : Nat) : Eng Run := do
  let c := r.cmd
  let x := cmdPart (← get) c
  if src = 2 then
    match fgetD x.operandQueues oq [] with
    | [] => throw .wait
    | b :: q =>
      let rows := r.rows ++ [b.take (rowBytes x)]
      modify fun s => modPart s c.ctx.part fun x => { x with operandQueues := fput x.operandQueues oq q }
      if rows.length < x.shapeRows then pure { r with state := .waiting, step := r.step + 1, rows := rows }
      else vecDone { r with rows := [] } fun x => loadRows x vd rows
  else
    shapeCheck (tyWidth x.shapeType != 4)
    shapeCheck (rowsCheck x src (cval64 c 0) (cval64 c 1))
    startRows c.ctx src (cval64 c 0) (cval64 c 1) x.shapeRows (rowBytes x) true
    let rows ← readRows c.ctx src hint (rowBytes x) (cval64 c 0) (cval64 c 1) x.shapeRows
    vecDone r fun x => loadRows x vd rows

/-- Row `k` of a register as packed bytes (R113). -/
def packRow (x : Part) (va k : Nat) : List Byte :=
  leBytes (rowBytes x) (packBits (tyWidth x.shapeType) ((List.range x.shapeCols).map fun c => elem x va k c))

/-- Writes packed rows. -/
def writeRows (c : Ctx) (sp hint id : Nat) (base stride : W64) : Nat → List (List Byte) → Eng Unit
  | _, [] => pure ()
  | k, b :: l => do
    placeWrite c sp (strided base stride k) b hint 4 id
    writeRows c sp hint id base stride (k + 1) l

/-- `vst` when it starts (R113). A world's escape (R352) is tried before the shape (DESIGN CHOICE, log entry 132). -/
def workVst (r : Run) (dst va hint : Nat) : Eng Run := do
  let c := r.cmd
  let x := cmdPart (← get) c
  escapeCheck c.ctx dst (cval64 c 0) (cval c 2)
  startRows c.ctx dst (cval64 c 0) (cval64 c 1) x.shapeRows (rowBytes x) false
  shapeCheck (rowsCheck x dst (cval64 c 0) (cval64 c 1))
  writeRows c.ctx dst hint c.id (cval64 c 0) (cval64 c 1) 0 ((List.range x.shapeRows).map (packRow x va))
  pure (r.finish (x.shapeRows * rowBytes x))

/-! ## Movement -/

/-- `vbcast.x` (R114). -/
def workVbcastX (r : Run) (vd : Nat) : Eng Run := vecDone r fun x => fillShape x vd fun _ _ => cval r.cmd 0 % 2 ^ tyWidth x.shapeType

/-- `vbcast.row` (R114). -/
def workVbcastRow (r : Run) (vd va n : Nat) : Eng Run := do
  shapeCheck (decide (n < (cmdPart (← get) r.cmd).shapeRows))
  vecDone r fun x => fillShape x vd fun _ c => elem x va n c

/-- `vbcast.col` (R114). -/
def workVbcastCol (r : Run) (vd va n : Nat) : Eng Run := do
  shapeCheck (decide (n < (cmdPart (← get) r.cmd).shapeCols))
  vecDone r fun x => fillShape x vd fun i _ => elem x va i n

/-- `vsel` (R115). -/
def workVsel (r : Run) (vd va vb vc : Nat) : Eng Run :=
  vecDone r fun x => fillShape x vd fun i j => if lane x vc i j = 0 then elem x vb i j else elem x va i j

/-! ## Arithmetic -/

/-- The arithmetic commands of major 0x21. -/
inductive VOp where
  | add | sub | mul | fma | max | min | abs | neg
deriving DecidableEq, Repr

/-- Float results (R117, R108). -/
def floatOp (t : Nat) (op : VOp) (a b c : Nat) : Nat :=
  let x := decodeF t a
  let y := decodeF t b
  let sign := 2 ^ (tyWidth t - 1)
  match op with
  | .add => rneF t (addV x y)
  | .sub => rneF t (addV x (negV y))
  | .mul => rneF t (mulV x y)
  | .fma => rneF t (addV (mulV x y) (decodeF t c))
  | .max => rneF t (if isNan x || isNan y then .nan else if ltZ x y then y else x)
  | .min => rneF t (if isNan x || isNan y then .nan else if ltZ y x then y else x)
  | .abs => a % sign
  | .neg => (a + sign) % (2 * sign)

/-- The exact integer result (R118). -/
def intOp (op : VOp) (a b c : Int) : Int :=
  match op with
  | .add => a + b
  | .sub => a - b
  | .mul => a * b
  | .fma => a * b + c
  | .max => max a b
  | .min => min a b
  | .abs => a.natAbs
  | .neg => -a

/-- An integer reduced to a type: wrapped, or clamped with `sat` (R118). -/
def reduceInt (t : Nat) (sat : Bool) (v : Int) : Nat :=
  intBits (if sat then satInt v (intRange t).1 (intRange t).2 else v) (tyWidth t)

/-- One lane of an arithmetic command (R116). -/
def arith (t : Nat) (op : VOp) (sat : Bool) (a b c : Nat) : Nat :=
  if isFloat t then floatOp t op a b c else reduceInt t sat (intOp op (decodeI t a) (decodeI t b) (decodeI t c))

/-- A condition of `vcmp` (R119): 0 eq, 1 ne, 2 lt, 3 le, 4 gt, 5 ge. -/
def vcond (cond : Nat) (lt eq : Bool) : Bool :=
  match cond with
  | 0 => eq
  | 1 => !eq
  | 2 => lt
  | 3 => lt || eq
  | 4 => !lt && !eq
  | _ => !lt

/-- Whether a condition holds of two elements (R119). -/
def compareElems (t cond a b : Nat) : Bool :=
  if isFloat t then
    let x := decodeF t a
    let y := decodeF t b
    if isNan x || isNan y then cond == 1 else vcond cond (ltV x y) (eqV x y)
  else vcond cond (decide (decodeI t a < decodeI t b)) (decide (decodeI t a = decodeI t b))

/-- Operand B of a command with an `sb` flag (R116). -/
def operandB (x : Part) (c : Cmd) (sb : Bool) (vb i j : Nat) : Nat := if sb then cval c 0 % 2 ^ tyWidth x.shapeType else elem x vb i j

/-- The checks of major 0x21 at start (R116). -/
def arithCheck (x : Part) (sat : Bool) : Bool := (isFloat x.shapeType || isInt x.shapeType) && !(sat && isFloat x.shapeType)

/-- An arithmetic command when it starts (R116). -/
def workArith (r : Run) (op : VOp) (sb sat : Bool) (vd va vb vc : Nat) : Eng Run := do
  shapeCheck (arithCheck (cmdPart (← get) r.cmd) sat)
  vecDone r fun x => fillShape x vd fun i j => arith x.shapeType op sat (elem x va i j) (operandB x r.cmd sb vb i j) (elem x vc i j)

/-- `vcmp` when it starts (R119). -/
def workVcmp (r : Run) (sb sat : Bool) (vd va vb cond : Nat) : Eng Run := do
  shapeCheck (arithCheck (cmdPart (← get) r.cmd) sat)
  vecDone r fun x => fillShape x vd fun i j => if compareElems x.shapeType cond (elem x va i j) (operandB x r.cmd sb vb i j) then 1 else 0

/-! ## Logic -/

/-- The logic commands of major 0x22. -/
inductive LOp where
  | and | or | xor | shl | shr | popc
deriving DecidableEq, Repr

/-- One lane of a logic command on the w-bit element (R120). -/
def logic (t : Nat) (op : LOp) (a b : Nat) : Nat :=
  let w := tyWidth t
  let sh := b % 256
  match op with
  | .and => Nat.land a b
  | .or => Nat.lor a b
  | .xor => Nat.xor a b
  | .shl => if w ≤ sh then 0 else a * 2 ^ sh % 2 ^ w
  | .shr => if 7 ≤ t ∧ t ≤ 9 then intBits (sxInt a w / 2 ^ min sh w) w else if w ≤ sh then 0 else a / 2 ^ sh
  | .popc => ((List.range w).filter (nbit a)).length

/-- A logic command when it starts (R120). -/
def workLogic (r : Run) (op : LOp) (sb : Bool) (vd va vb : Nat) : Eng Run :=
  vecDone r fun x => fillShape x vd fun i j => logic x.shapeType op (elem x va i j) (operandB x r.cmd sb vb i j)

/-! ## Conversion and reduction -/

/-- `vcvt` when it starts (R121, R272). -/
def workVcvt (r : Run) (vd va ty mode : Nat) : Eng Run := do
  shapeCheck ((cmdPart (← get) r.cmd).shapeType != 11 && ty != 11)
  let c := r.cmd
  let step := cval c 0 % 2 ^ 32
  vecDone r fun x => fillShape x vd fun i j =>
    encodeT ty mode (stochDraw c.seed.toNat c.workid.toNat step (i * 64 + j)) (decodeT x.shapeType (elem x va i j))

/-- The index of the first greatest (or least) element; NaN elements are skipped (R122). -/
def firstBest (before : Val → Val → Bool) : Nat → Option (Nat × Val) → List Val → Nat
  | _, none, [] => 0xFFFFFFFF
  | _, some b, [] => b.1
  | i, best, v :: r =>
    if isNan v then firstBest before (i + 1) best r else
    match best with
    | none => firstBest before (i + 1) (some (i, v)) r
    | some b => firstBest before (i + 1) (if before b.2 v then some (i, v) else some b) r

/-- A float reduction (R122): 0 sum, 1 max, 2 min, 3 amax, 4 amin. -/
def redFloat (op : Nat) (l : List Val) : Nat :=
  match op with
  | 0 => (match l with | [] => 0 | a :: r => r.foldl (fun acc v => rneF 0 (addV (decodeF 0 acc) v)) (rneF 0 a))
  | 3 => firstBest ltZ 0 none l
  | 4 => firstBest (fun a b => ltZ b a) 0 none l
  | _ =>
    if l.any isNan then 0x7FC00000 else
    match l with
    | [] => 0
    | a :: r => rneF 0 (r.foldl (fun m v => if op = 1 then (if ltZ m v then v else m) else (if ltZ v m then v else m)) a)

/-- An integer reduction to 32 bits (R122). -/
def redInt (t op : Nat) (sat : Bool) (l : List Int) : Nat :=
  match op with
  | 0 => reduceInt (if t = 10 then 10 else 7) sat l.sum
  | 3 => firstBest ltV 0 none (l.map ofInt)
  | 4 => firstBest (fun a b => ltV b a) 0 none (l.map ofInt)
  | _ =>
    match l with
    | [] => 0
    | a :: r => intBits (r.foldl (fun m v => if op = 1 then max m v else min m v) a) 32

/-- One reduction of elements (R122). -/
def reduceElems (t op : Nat) (sat : Bool) (l : List Nat) : Nat :=
  if isFloat t then redFloat op (l.map (decodeF t)) else redInt t op sat (l.map (decodeI t))

/-- `vred` when it starts (R122): `axis` set reduces down the rows. `sat` set for a float type, or for another operation than `.sum`, is
ignored (DESIGN CHOICE, log entry 98). -/
def workVred (r : Run) (axis sat : Bool) (vd va op : Nat) : Eng Run := do
  let t := (cmdPart (← get) r.cmd).shapeType
  shapeCheck (isFloat t || isInt t)
  vecDone r fun x =>
    let cells : List ((Nat × Nat) × Nat) :=
      if axis then (List.range x.shapeCols).map fun c => ((0, c), reduceElems t op sat ((List.range x.shapeRows).map fun i => elem x va i c))
      else (List.range x.shapeRows).map fun i => ((i, 0), reduceElems t op sat ((List.range x.shapeCols).map fun c => elem x va i c))
    writeLanes x vd cells

end Sys2Proof.Machine
end

