-- ==== Sys2Proof/Machine/VectorFn.lean ====
section
/-! DEFINITION. The vector engine's special functions and user tables (R123 to R126), the log domain (R127, R128), and the index and
stream operations (R129 to R134). -/

namespace Sys2Proof.Machine

/-! ## Push -/

/-- `vgelu` (R123). -/
def execVgelu (h : Hdr) (vd va : Fin 16) (ty : BitVec 4) (s : State) : Host.Outcome State Fault Refusal := .next (pushPlain s (.vgelu h vd va ty) h 1)

/-- `vsilu` (R123). -/
def execVsilu (h : Hdr) (vd va : Fin 16) (ty : BitVec 4) (s : State) : Host.Outcome State Fault Refusal := .next (pushPlain s (.vsilu h vd va ty) h 1)

/-- `vsplus` (R123). -/
def execVsplus (h : Hdr) (vd va : Fin 16) (ty : BitVec 4) (s : State) : Host.Outcome State Fault Refusal := .next (pushPlain s (.vsplus h vd va ty) h 1)

/-- `vtanh` (R123). -/
def execVtanh (h : Hdr) (vd va : Fin 16) (ty : BitVec 4) (s : State) : Host.Outcome State Fault Refusal := .next (pushPlain s (.vtanh h vd va ty) h 1)

/-- `vsigm` (R123). -/
def execVsigm (h : Hdr) (vd va : Fin 16) (ty : BitVec 4) (s : State) : Host.Outcome State Fault Refusal := .next (pushPlain s (.vsigm h vd va ty) h 1)

/-- `vexp` (R123). -/
def execVexp (h : Hdr) (vd va : Fin 16) (ty : BitVec 4) (s : State) : Host.Outcome State Fault Refusal := .next (pushPlain s (.vexp h vd va ty) h 1)

/-- `vrcp` (R125). -/
def execVrcp (h : Hdr) (vd va : Fin 16) (ty : BitVec 4) (s : State) : Host.Outcome State Fault Refusal := .next (pushPlain s (.vrcp h vd va ty) h 1)

/-- `vrsqrt` (R125). -/
def execVrsqrt (h : Hdr) (vd va : Fin 16) (ty : BitVec 4) (s : State) : Host.Outcome State Fault Refusal := .next (pushPlain s (.vrsqrt h vd va ty) h 1)

/-- The trap at push of `vtblld`, from the values read (R126). -/
def checkVtblld (src : BitVec 2) (v : Nat) : Option Nat := firstTrap [need (v % 4 == 0) 0x05, placeTrap src.toNat v true]

/-- `vtblld` (R126): its checks come in the order of R74. -/
def execVtblld (h : Hdr) (a : Reg) (ka : Bool) (src : BitVec 2) (n : Fin 4) (s : State) : Host.Outcome State Fault Refusal :=
  .next (pushA s (.vtblld h a ka src n) h 1 a ka (checkVtblld src))

/-- `vtbl` (R126). -/
def execVtbl (h : Hdr) (vd va : Fin 16) (ty : BitVec 4) (n : Fin 4) (s : State) : Host.Outcome State Fault Refusal :=
  .next (pushPlain s (.vtbl h vd va ty n) h 1)

/-- `vtolog` (R127). -/
def execVtolog (h : Hdr) (vd va : Fin 16) (s : State) : Host.Outcome State Fault Refusal := .next (pushPlain s (.vtolog h vd va) h 1)

/-- `vfrlog` (R127). -/
def execVfrlog (h : Hdr) (vd va : Fin 16) (ty : BitVec 4) (s : State) : Host.Outcome State Fault Refusal := .next (pushPlain s (.vfrlog h vd va ty) h 1)

/-- `vladd` (R128). -/
def execVladd (h : Hdr) (b : Reg) (kb : Bool) (cf : BitVec 2) (vd va vb : Fin 16) (s : State) : Host.Outcome State Fault Refusal :=
  .next (pushScalar s (.vladd h b kb cf vd va vb) h b kb (cf.toNat % 2 == 1))

/-- `vlsub` (R128). -/
def execVlsub (h : Hdr) (b : Reg) (kb : Bool) (cf : BitVec 2) (vd va vb : Fin 16) (s : State) : Host.Outcome State Fault Refusal :=
  .next (pushScalar s (.vlsub h b kb cf vd va vb) h b kb (cf.toNat % 2 == 1))

/-- `vlshr` (R128). -/
def execVlshr (h : Hdr) (vd va : Fin 16) (n : BitVec 4) (s : State) : Host.Outcome State Fault Refusal := .next (pushPlain s (.vlshr h vd va n) h 1)

/-- `vlmul` (R128). -/
def execVlmul (h : Hdr) (b : Reg) (kb : Bool) (vd va : Fin 16) (s : State) : Host.Outcome State Fault Refusal :=
  .next (pushScalar s (.vlmul h b kb vd va) h b kb true)

/-- `vhamm` (R129). -/
def execVhamm (h : Hdr) (vd va vb : Fin 16) (n : BitVec 4) (s : State) : Host.Outcome State Fault Refusal := .next (pushPlain s (.vhamm h vd va vb n) h 1)

/-- `vtopk` (R130). -/
def execVtopk (h : Hdr) (desc : Bool) (vd va vb vc : Fin 16) (k1 : BitVec 6) (s : State) : Host.Outcome State Fault Refusal :=
  .next (pushPlain s (.vtopk h desc vd va vb vc k1) h 1)

/-- The trap at push of `vfilt`, from the values read (R131). -/
def checkVfilt (src : BitVec 2) (v : List W64) : Option Nat :=
    firstTrap [placeTrap src.toNat (v.getD 0 0).toNat true, need (decide ((v.getD 1 0).toNat < 2 ^ 32)) 0x06]

/-- `vfilt` (R131). -/
def execVfilt (h : Hdr) (a b : Reg) (ka kb : Bool) (src : BitVec 2) (vd va : Fin 16) (s : State) : Host.Outcome State Fault Refusal :=
  .next (pushCommand s (.vfilt h a b ka kb src vd va) h 1 a ka 1 b kb 1 fun v _ => checkVfilt src v)

/-- Whether `n` values of 4 bytes from an address lie on this device, inside the quarter's space (R132). -/
def streamOk (va n : Nat) : Bool := (placeTrap 0 va true).isNone && decide (va % 2 ^ 46 + 4 * n ≤ 2 ^ 46)

/-- The trap at push of `vsect`, from the values read (R132). -/
def checkVsect (v : List W64) : Option Nat :=
    let x (i : Nat) := (v.getD i 0).toNat
    firstTrap [need (x 0 % 4 == 0 && x 2 % 4 == 0 && x 3 % 4 == 0) 0x05,
      need (decide (x 1 < 2 ^ 32 ∧ x 4 < 2 ^ 32) && streamOk (x 0) (x 1) && streamOk (x 3) (x 4) && streamOk (x 2) (min (x 1) (x 4))) 0x06,
      barTrap (x 5)]

/-- `vsect` (R132): MISALIGNED before ACCESS. -/
def execVsect (h : Hdr) (a b : Reg) (hint : BitVec 2) (vd : Fin 16) (s : State) : Host.Outcome State Fault Refusal :=
  .next (pushCommand s (.vsect h a b hint vd) h 1 a false 3 b false 3 fun v _ => checkVsect v)

/-- `vuniq` (R133). -/
def execVuniq (h : Hdr) (vd va vc : Fin 16) (s : State) : Host.Outcome State Fault Refusal := .next (pushPlain s (.vuniq h vd va vc) h 1)

/-- `vbkt` (R134). -/
def execVbkt (h : Hdr) (vd va vc : Fin 16) (nb1 : BitVec 6) (sft : BitVec 5) (s : State) : Host.Outcome State Fault Refusal :=
  .next (pushPlain s (.vbkt h vd va vc nb1 sft) h 1)

/-! ## Special functions -/

/-- One row of a function applied to each in-shape lane, and written in type `ty` (R123); the command can pause after it (R136). -/
def workFunction (r : Run) (vd va ty : Nat) (f : Part → Val → Val) : Eng Run := do
  let x := cmdPart (← get) r.cmd
  shapeCheck (isFloat ty && x.shapeType != 11)
  modify fun s => modPart s r.cmd.ctx.part fun x =>
    writeLanes x vd ((List.range x.shapeCols).map fun j => ((r.step, j), rneF ty (f x (decodeT x.shapeType (elem x va r.step j)))))
  pure (r.afterRow x.shapeRows 0)

/-- Where knot `i` of user table `n` is kept (R126). -/
def knotKey (n i : Nat) : Nat := 512 * n + i

/-- A knot of a user table. -/
def userKnot (x : Part) (n i : Nat) : Int := fgetD x.tables (knotKey n i) 0

/-- `vtbl` when it starts (R126). -/
def workVtbl (r : Run) (vd va ty n : Nat) : Eng Run := workFunction r vd va ty fun x => userTableV (userKnot x n)

/-- `vtblld` when it starts (R126). -/
def workVtblld (r : Run) (src n : Nat) : Eng Run := do
  shapeCheck (src != 1 || inBank (cval r.cmd 0) 1028)
  let bs ← placeRead r.cmd.ctx src (cval64 r.cmd 0) 1028 0
  let ks := (unpackBits 32 257 (leNat bs)).map fun k => sxInt k 32
  shapeCheck (ks.all fun k => decide (-2 ^ 23 ≤ k ∧ k ≤ 2 ^ 23 - 1))
  vecDone r fun x => { x with tables := ks.zipIdx.foldl (fun m k => fput m (knotKey n k.2) k.1) x.tables }

/-! ## The log domain -/

/-- The log code of a lane (R127). -/
def logLane (x : Part) (v r c : Nat) : Nat := lane x v r c % 2 ^ 16

/-- `vtolog` when it starts (R127). -/
def workVtolog (r : Run) (vd va : Nat) : Eng Run := do
  let t := (cmdPart (← get) r.cmd).shapeType
  shapeCheck (isFloat t || isInt t)
  vecDone r fun x => fillShape x vd fun i j => toLog (decodeT t (elem x va i j))

/-- `vfrlog` when it starts (R127). A destination type that is not float, for which the manual names no trap, raises SHAPE_INVALID at the start
(DESIGN CHOICE, log entry 96). -/
def workVfrlog (r : Run) (vd va ty : Nat) : Eng Run := do
  shapeCheck (isFloat ty)
  vecDone r fun x => fillShape x vd fun i j => rneF ty (frLog (logLane x va i j))

/-- `vladd` and `vlsub` of two codes (R128). -/
def logAdd (sub : Bool) (a b : Nat) : Nat :=
  let s := nbit a 15 != nbit b 15
  if logZero a then 0x4000
  else if logZero b then (if sub then (if s then 2 ^ 15 else 0) + 0x3FFF else 0x4000)
  else logCode (if sub then logK a - logK b else logK a + logK b) s

/-- `vlshr` of a code (R128). -/
def logShr (a n : Nat) : Nat :=
  if logZero a then 0x4000 else
  let k := logK a
  let m : Int := roundSplit 0 0 (splitAt k.natAbs 0 n)
  logCode (if k < 0 then -m else m) (nbit a 15)

/-- `vlmul` of a code by an integer (R128). -/
def logMul (a : Nat) (k : Int) : Nat :=
  if logZero a then (if 0 < k then 0x4000 else if k = 0 then 0 else 0x3FFF)
  else logCode (logK a * k) (nbit a 15 && decide (k % 2 = 1))

/-- `vladd` and `vlsub` when they start (R128). Their codes saturate in any case; what cf[1] of R135 adds is not given, and it is ignored (DESIGN
CHOICE, log entry 106). -/
def workLogAdd (r : Run) (sub sb : Bool) (vd va vb : Nat) : Eng Run :=
  vecDone r fun x => fillShape x vd fun i j => logAdd sub (logLane x va i j) (if sb then cval r.cmd 0 % 2 ^ 16 else logLane x vb i j)

/-- `vlshr` when it starts (R128). -/
def workVlshr (r : Run) (vd va n : Nat) : Eng Run := vecDone r fun x => fillShape x vd fun i j => logShr (logLane x va i j) n

/-- `vlmul` when it starts (R128). -/
def workVlmul (r : Run) (vd va : Nat) : Eng Run :=
  vecDone r fun x => fillShape x vd fun i j => logMul (logLane x va i j) (sxInt (cval r.cmd 0) 16)

/-! ## Index and stream operations -/

/-- Differing bits of two sketches of eight lanes (R129). -/
def sketchDistance (x : Part) (va r g vb n : Nat) : Nat :=
  ((List.range 8).map fun l => popcount (Nat.xor (lane x va r (8 * g + l)) (lane x vb n l))).sum
where
  popcount (v : Nat) : Nat := ((List.range 32).filter (nbit v)).length

/-- `vhamm` when it starts (R129). -/
def workVhamm (r : Run) (vd va vb n : Nat) : Eng Run := do
  let x := cmdPart (← get) r.cmd
  shapeCheck (x.shapeCols % 8 == 0 && decide (n < x.shapeRows))
  vecDone r fun x => writeLanes x vd (((List.range x.shapeRows).map fun i =>
    (List.range (x.shapeCols / 8)).map fun g => ((i, g), sketchDistance x va i g vb n)).flatten)

/-- The order of a top-k pool (R130): NaN keys last, then the key, then the id. NaN keys are equal among themselves (DESIGN CHOICE, log
entry 97). -/
def topBefore (t : Nat) (desc : Bool) (a b : Nat × Nat) : Bool :=
  let x := decodeT t a.1
  let y := decodeT t b.1
  if isNan x != isNan y then isNan y
  else if isNan x || eqV x y then decide (a.2 ≤ b.2)
  else if desc then ltV y x else ltV x y

/-- `vtopk` when it starts (R130). -/
def workVtopk (r : Run) (desc : Bool) (vd va vb vc k1 : Nat) : Eng Run := do
  let t := (cmdPart (← get) r.cmd).shapeType
  shapeCheck (isFloat t || isInt t)
  vecDone r fun x =>
    let pool := ((List.range (k1 + 1)).map fun j => (elem x vd 0 j, lane x vc 0 j)) ++ (shapeCells x).map fun e => (elem x va e.1 e.2, lane x vb e.1 e.2)
    let best := ((sortBy (topBefore t desc) pool).take (k1 + 1)).zipIdx
    writeLanes (writeLanes x vd (best.map fun e => ((0, e.2), e.1.1))) vc (best.map fun e => ((0, e.2), e.1.2))

/-- Tests ids against a bitmap of `len` bits (R131). -/
def filterLanes (c : Ctx) (src : Nat) (base : W64) (len : Nat) : List Nat → Eng (List Nat)
  | [] => pure []
  | e :: l => do
    let hit ← if len ≤ e then pure 0 else do
      let b ← placeRead c src (base + w64 (e / 8)) 1 0
      pure (if nbit (leNat b) (e % 8) then 1 else 0)
    let r ← filterLanes c src base len l
    pure (hit :: r)

/-- `vfilt` when it starts (R131). -/
def workVfilt (r : Run) (src vd va : Nat) : Eng Run := do
  let c := r.cmd
  let x := cmdPart (← get) c
  shapeCheck (src != 1 || inBank (cval c 0) (ceilDiv (cval c 1) 8))
  let hits ← filterLanes c.ctx src (cval64 c 0) (cval c 1) ((shapeCells x).map fun e => lane x va e.1 e.2)
  vecDone r fun x => writeLanes x vd ((shapeCells x).zip hits)

/-- One read, or one element pair, of the merge of two ascending streams (R132): no element is read twice, also where the read of its partner
holds; the command can pause after a pair and goes on from there (R136). `marks` holds i, j, n and the element of each stream that is read and
not passed, 1 more than its value. -/
def workVsect (r : Run) (hint vd : Nat) : Eng Run := do
  let c := r.cmd
  if r.marks = [] then escapeCheck c.ctx 0 (cval64 c 2) (cval c 5)
  let m (k : Nat) := r.marks.getD k 0
  let (i, j, n) := (m 0, m 1, m 2)
  if cval c 1 ≤ i ∨ cval c 4 ≤ j then
    modify fun s => modPart s c.ctx.part fun x => setLane x vd 0 0 n
    return r.finish (4 * n)
  match m 3, m 4 with
  | 0, q => do
    let bs ← engRead c.ctx (cval c 0 + 4 * i) 4 hint
    pure { r with state := .waiting, marks := [i, j, n, leNat bs + 1, q] }
  | p, 0 => do
    let bs ← engRead c.ctx (cval c 3 + 4 * j) 4 hint
    pure { r with state := .waiting, marks := [i, j, n, p, leNat bs + 1] }
  | p + 1, q + 1 => do
    if p = q then
      engWrite c.ctx (cval c 2 + 4 * n) (leBytes 4 p) hint 4 c.id
      pure { r with state := .row, marks := [i + 1, j + 1, n + 1, 0, 0] }
    else if p < q then pure { r with state := .row, marks := [i + 1, j, n, 0, q + 1] }
    else pure { r with state := .row, marks := [i, j + 1, n, p + 1, 0] }

/-- The padding id (R130, R133, R134). -/
def noId : Nat := 0xFFFFFFFF

/-- Distinct ids in order of first appearance, without padding (R133). -/
def distinctIds (l : List Nat) : List Nat := l.foldl (fun d e => if e = noId ∨ d.contains e then d else d ++ [e]) []

/-- `vuniq` when it starts (R133). -/
def workVuniq (r : Run) (vd va vc : Nat) : Eng Run :=
  vecDone r fun x =>
    let cells := shapeCells x
    let ids := cells.map fun e => lane x va e.1 e.2
    let d := distinctIds ids
    let index := ids.map fun e => if e = noId then noId else d.idxOf e
    writeLanes (writeLanes x vd (cells.zip (d ++ List.replicate (cells.length - d.length) noId))) vc (cells.zip index)

/-- `vbkt` when it starts (R134). -/
def workVbkt (r : Run) (vd va vc nb1 sft : Nat) : Eng Run :=
  vecDone r fun x =>
    let cells := shapeCells x
    let ids := (cells.map fun e => lane x va e.1 e.2).filter (· != noId)
    let owner (e : Nat) : Nat := e / 2 ^ sft % (nb1 + 1)
    let buckets := (List.range (nb1 + 1)).map fun b => ids.filter fun e => owner e == b
    let order := buckets.flatten
    writeLanes (writeLanes x vd (cells.zip (order ++ List.replicate (cells.length - order.length) noId)))
      vc (buckets.zipIdx.map fun b => ((0, b.2), b.1.length))

end Sys2Proof.Machine
end

