-- ==== Sys2Proof/Machine/Matrix.lean ====
section
/-! DEFINITION. The mangle (R139 to R167, R276 to R278): shapes, the shadow nest, the checks at `mgo`, steps, the epilogue,
accumulators, link tile queues, and the taking of the mangle. -/

namespace Sys2Proof.Machine

/-! ## Shapes -/

/-- Low bit and width of field `n` of a shape record (R141). -/
def shapeField (n : Nat) : Nat × Nat :=
  match n with
  | 0 => (0, 64)
  | 1 => (64, 64)
  | 2 => (128, 64)
  | 3 => (192, 64)
  | 4 => (288, 32)
  | 5 => (256, 32)
  | 6 => (352, 32)
  | 7 => (320, 32)
  | 8 => (384, 4)
  | 9 => (388, 2)
  | 10 => (390, 2)
  | 11 => (392, 2)
  | 12 => (394, 1)
  | 13 => (395, 1)
  | _ => (448, 32)

/-- Field `n` of a shape record. -/
def shp (v n : Nat) : Nat := nfld v (shapeField n).1 (shapeField n).2

/-- A shape record with field `n` replaced. -/
def setShp (v n x : Nat) : Nat := nset v (shapeField n).1 (shapeField n).2 x

/-- A record with its reserved bits 0 (R10, R144). -/
def cleanShape (v : Nat) : Nat := (List.range 15).foldl (fun r n => setShp r n (shp v n)) 0

/-- Bytes of a data row of a shape (R142). -/
def shapeRowBytes (v : Nat) : Nat :=
  if shp v 11 = 1 then shp v 5 / 128 * 48 else if shp v 11 = 2 then shp v 5 / 2 else ceilDiv (shp v 5 * tyWidth (shp v 8)) 8

/-- Entries and entry bytes of a codebook table (R142). -/
def bookEntries (v : Nat) : Nat := if shp v 11 = 1 then 8 else 16

def entryBytes (ty : Nat) : Nat := if ty = 1 then 2 else 1

/-- The planes in use: place and length (R142). -/
def shapePlanes (v : Nat) : List (Nat × Nat) :=
  let rows := shp v 4
  [(shp v 0, (rows - 1) * shp v 6 + shapeRowBytes v)] ++
  (if shp v 12 = 1 then [(shp v 1, (rows - 1) * shp v 7 + shp v 5 / 8)] else []) ++
  (if shp v 13 = 1 then [(shp v 2, 2 * ceilDiv rows 64)] else []) ++
  (if shp v 11 = 0 then [] else [(shp v 3, rows * ceilDiv (shp v 5) 128 * bookEntries v * entryBytes (shp v 8))])

/-- Whether a shape is valid (R143). -/
def shapeValid (v : Nat) : Bool :=
  let fmt := shp v 8
  let cols := shp v 5
  decide (fmt ≤ 11 ∧ shp v 9 ≤ 1 ∧ shp v 11 ≤ 2 ∧ 1 ≤ shp v 4 ∧ 1 ≤ cols) &&
  (shp v 11 == 0 || (decide ((fmt = 1 ∨ fmt = 3) ∧ cols % 128 = 0 ∧ shp v 12 = 0))) &&
  (shp v 12 == 0 || decide (fmt = 5 ∧ cols % 8 = 0)) &&
  (tyWidth fmt != 4 || cols % 2 == 0) &&
  (shp v 13 == 0 || isFloat fmt) &&
  decide (shapeRowBytes v ≤ shp v 6) && (shp v 12 == 0 || decide (cols / 8 ≤ shp v 7)) &&
  shp v 0 % ceilDiv (tyWidth fmt) 8 == 0 && shp v 2 % 2 == 0 &&
  (shp v 9 == 0 || (shapePlanes v).all fun p => decide (p.1 < 2 ^ 21) && inBank p.1 p.2)

/-! ## Push -/

/-- The trap at push of `mcfg.lN`, from the values read (R148). -/
def checkMcfgLevel (v : List W64) : Option Nat :=
    need (decide ((v.getD 0 0).toNat < 2 ^ 18 ∧ (v.getD 1 0).toNat < 2 ^ 48)) 0x08

/-- `mcfg.lN` (R148). -/
def execMcfgLevel (h : Hdr) (a b : Reg) (ka kb : Bool) (lvl : Fin 6) (s : State) : Host.Outcome State Fault Refusal :=
  .next (pushCommand s (.mcfgLevel h a b ka kb lvl) h 2 a ka 1 b kb 1 fun v _ => checkMcfgLevel v)

/-- The trap at push of `mcfg.nest`, from the values read (R148). -/
def checkMcfgNest (v : Nat) : Option Nat :=
    need (decide (v < 2 ^ 32 ∧ nfld v 20 2 = 0 ∧ nfld v 24 8 ≠ 0 ∧ nfld v 8 2 < 2 ∧ nfld v 10 2 < 3)) 0x08

/-- `mcfg.nest` (R148). -/
def execMcfgNest (h : Hdr) (a : Reg) (ka : Bool) (s : State) : Host.Outcome State Fault Refusal :=
  .next (pushA s (.mcfgNest h a ka) h 2 a ka checkMcfgNest)

/-- The trap at push of `mshp`, from the values read (R144). -/
def checkMshp (src : BitVec 2) (v : Nat) : Option Nat := firstTrap [need (v % 64 == 0) 0x05, placeTrap src.toNat v true]

/-- `mshp` (R144). -/
def execMshp (h : Hdr) (a : Reg) (ka : Bool) (src : BitVec 2) (n : Fin 16) (s : State) : Host.Outcome State Fault Refusal :=
  .next (pushA s (.mshp h a ka src n) h 2 a ka (checkMshp src))

/-- The trap at push of `mshf`, from the values read (R145). -/
def checkMshf (field : BitVec 5) (v : Nat) : Option Nat := need (decide (v < 2 ^ (shapeField field.toNat).2)) 0x08

/-- `mshf` (R145). -/
def execMshf (h : Hdr) (a : Reg) (ka : Bool) (n : Fin 16) (field : BitVec 5) (s : State) : Host.Outcome State Fault Refusal :=
  .next (pushA s (.mshf h a ka n field) h 2 a ka (checkMshf field))

/-- `mgo` (R153). -/
def execMgo (h : Hdr) (s : State) : Host.Outcome State Fault Refusal := .next (pushPlain s (.mgo h) h 2)

/-- `mrst` (R161). -/
def execMrst (h : Hdr) (off : BitVec 28) (s : State) : Host.Outcome State Fault Refusal := .next (pushPlain s (.mrst h off) h 2)

/-- `mrst.none` (R161). -/
def execMrstNone (h : Hdr) (s : State) : Host.Outcome State Fault Refusal := .next (pushPlain s (.mrstNone h) h 2)

/-- `macc.clr` (R158). -/
def execMaccClr (h : Hdr) (n : Fin 2) (s : State) : Host.Outcome State Fault Refusal := .next (pushPlain s (.maccClr h n) h 2)

/-- A push of `macc.save` or `macc.load`: the rows must lie in the tile store (R158). -/
def pushMacc (s : State) (i : Instr) (h : Hdr) (row : BitVec 9) : State :=
  pushCommand s i h 2 0 false 0 0 false 0 fun _ _ => need (decide (row.toNat + 127 ≤ 511)) 0x06

/-- `macc.save` (R158). -/
def execMaccSave (h : Hdr) (n : Fin 2) (row : BitVec 9) (half : Fin 2) (s : State) : Host.Outcome State Fault Refusal :=
  .next (pushMacc s (.maccSave h n row half) h row)

/-- `macc.load` (R158). -/
def execMaccLoad (h : Hdr) (n : Fin 2) (row : BitVec 9) (half : Fin 2) (s : State) : Host.Outcome State Fault Refusal :=
  .next (pushMacc s (.maccLoad h n row half) h row)

/-- The bits of an epilogue word that a destination uses (R155). -/
def epiMask (dest : Nat) : Nat :=
  match dest with
  | 0 => 0xFFFE01F
  | 1 => 0x1FF
  | 2 => 0x1E1F
  | _ => 0

/-- The types of a `.ts` destination (R155). -/
def tsTypes : List Nat := [0, 1, 2, 3, 4, 7, 8]

/-- The trap at push of `mepi`, from the values read (R155). -/
def checkMepi (dest : BitVec 2) (v : List W64) : Option Nat :=
    let w := (v.getD 0 0).toNat
    let bar := (v.getD 1 0).toNat
    let d := dest.toNat
    firstTrap [need (decide (nfld w 24 4 < 12)) 0x01,
      need (Nat.land w (epiMask d) == w && decide (nfld w 0 4 ≤ 6) && (d != 0 || tsTypes.contains (nfld w 24 4)) && (decide (d < 2) || bar == 0)) 0x08,
      need (d != 0 || decide (nfld w 13 9 + 128 * (nfld w 22 2 + 1) ≤ 512)) 0x06,
      barTrap bar]

/-- `mepi` (R155): ILLEGAL before the entry's other checks (R34). -/
def execMepi (h : Hdr) (a b : Reg) (ka kb : Bool) (dest : BitVec 2) (s : State) : Host.Outcome State Fault Refusal :=
  .next (pushCommand s (.mepi h a b ka kb dest) h 2 a ka 1 b kb 1 fun v _ => checkMepi dest v)

/-- The types of a link tile queue (R159). -/
def linkTypes : List Nat := [1, 3, 4, 5, 8]

/-- The checks of a peer register and a type (R159). -/
def peerTrap (a ty : Nat) : Option Nat :=
  firstTrap [need (nfld a 10 38 == 0 && nfld a 0 2 == 0 && decide (nfld a 2 6 < 48) && isRemote a) 0x06, need (linkTypes.contains ty) 0x08]

/-- `mlq.send` (R159). -/
def execMlqSend (h : Hdr) (a : Reg) (ka : Bool) (n m : Fin 16) (ty : BitVec 4) (s : State) : Host.Outcome State Fault Refusal :=
  .next (pushA s (.mlqSend h a ka n m ty) h 2 a ka fun v => peerTrap v ty.toNat)

/-- `mlq.recv` (R159). -/
def execMlqRecv (h : Hdr) (a : Reg) (ka : Bool) (n m : Fin 16) (ty : BitVec 4) (s : State) : Host.Outcome State Fault Refusal :=
  .next (pushA s (.mlqRecv h a ka n m ty) h 2 a ka fun v => peerTrap v ty.toNat)

/-- `mlq.unbind` (R159). -/
def execMlqUnbind (h : Hdr) (n : Fin 16) (s : State) : Host.Outcome State Fault Refusal := .next (pushPlain s (.mlqUnbind h n) h 2)

/-! ## Shadow writers -/

/-- An M command that changes its partition's matrix state (R154). -/
def matDone (r : Run) (f : Part → Part) : Eng Run := do
  modify fun s => modPart s r.cmd.ctx.part f
  pure (r.finish 0)

/-- `mcfg.lN` when it starts (R148). -/
def workMcfgLevel (r : Run) (lvl : Nat) : Eng Run :=
  matDone r fun x => { x with nestLevels := fput x.nestLevels lvl (cval64 r.cmd 0), nestStrides := fput x.nestStrides lvl (cval64 r.cmd 1) }

/-- `mcfg.nest` when it starts (R148). -/
def workMcfgNest (r : Run) : Eng Run := matDone r fun x => { x with nestWord := cval64 r.cmd 0 }

/-- Shape register `n`. -/
def shapeReg (x : Part) (n : Nat) : Nat := (fgetD x.shapes n 0).toNat

/-- `mshp` when it starts (R144). -/
def workMshp (r : Run) (src n : Nat) : Eng Run := do
  shapeCheck (src != 1 || inBank (cval r.cmd 0) 64)
  let bs ← placeRead r.cmd.ctx src (cval64 r.cmd 0) 64 0
  matDone r fun x => { x with shapes := fput x.shapes n (BitVec.ofNat 512 (cleanShape (leNat bs))) }

/-- `mshf` when it starts (R145). -/
def workMshf (r : Run) (n field : Nat) : Eng Run :=
  matDone r fun x => { x with shapes := fput x.shapes n (BitVec.ofNat 512 (setShp (shapeReg x n) field (cval r.cmd 0))) }

/-- `mepi` when it starts (R155). -/
def workMepi (r : Run) (dest : Nat) : Eng Run :=
  matDone r fun x => { x with epiDest := dest, epiWord := cval64 r.cmd 0, epiBarrier := cval64 r.cmd 1 }

/-- `mrst` when it starts (R161): the label lies at an offset from the `mrst` word's pc. -/
def workMrst (r : Run) (off : Int) : Eng Run := matDone r fun x => { x with restart := w64 (intBits (r.cmd.pc + 4 * off) 64) }

/-- `mrst.none` when it starts (R161). -/
def workMrstNone (r : Run) : Eng Run := matDone r fun x => { x with restart := 0 }

/-! ## Accumulators -/

/-- A row of an accumulator: what is not listed is +0 (R140). -/
def accRow (x : Core) (n i : Nat) : List (BitVec 32) := fgetD x.acc (128 * n + i) []

/-- Clears an accumulator (R153, R158). -/
def accClear (x : Core) (n : Nat) : Core := { x with acc := x.acc.filter fun r => r.1 / 128 != n }

/-- Partition `p` holds the mangle (R162). -/
def holdMangle (s : State) (p : Nat) : State := modCore s (coreOf p) fun x => { x with holder := some p }

/-- The place of accumulator row `i` in the tile store (R158). -/
def accPlace (row half i : Nat) : W64 := w64 (1024 * (row + i) + 512 * half)

/-- `macc` when it starts (R158): 0 clear, 1 save, 2 load. It waits for an epilogue that reads the accumulator. -/
def workMacc (r : Run) (op n row half : Nat) : Eng Run := do
  let c := coreOf r.cmd.ctx.part
  modify fun s => holdMangle s r.cmd.ctx.part
  let x := core (← get) c
  if (match x.epi with | some e => e.acc == n | none => false) then throw .wait
  if op = 0 then modify fun s => modCore s c fun x => accClear x n
  else if op = 1 then
    modify fun s => modCore s c fun x => { x with tile := (List.range 128).foldl (fun m i =>
      ringWrite m tileSize (accPlace row half i).toNat (((List.range 128).map fun j => leBytes 4 ((accRow x n i).getD j 0).toNat).flatten)) x.tile }
  else
    modify fun s => modCore s c fun x =>
      (List.range 128).foldl (fun y i =>
        { y with acc := fput y.acc (128 * n + i) ((unpackBits 32 128 (leNat (ringRead x.tile tileSize (accPlace row half i).toNat 512))).map (BitVec.ofNat 32)) }) (accClear x n)
  pure (r.finish 0)

/-! ## Link tile queues -/

/-- A queue has sent some packets, from number `no` on: those that may be under way are kept. -/
def LinkQueue.noteSent (l : LinkQueue) (no k : Nat) : LinkQueue := { l with sent := (l.sent ++ [(no, k)]).drop (l.sent.length + 1 - 5) }

/-- `mlq` when it starts (R159, R321): 0 send, 1 receive, 2 unbind. -/
def workMlq (r : Run) (mode n m ty : Nat) : Eng Run := do
  let c := coreOf r.cmd.ctx.part
  if r.cmd.ctx.view ≠ 0 then throw (.trap 0x0A)
  let agent := agentNo r.cmd.ctx.part .matrix
  if mode = 2 then modify fun s => modLink s c n fun l => { offers := l.offers, stale := l.ended }
  else
    let a := cval r.cmd 0
    let pc := 48 * nfld a 8 2 + nfld a 2 6
    modify fun s =>
      let no := packetNo s agent (nfld a 48 16)
      let s := modLink s c n fun l => LinkQueue.bindAnew
        { bound := true, send := mode == 0, ty := ty, peerDev := nfld a 48 16, peerCore := pc, peerQueue := m, offers := l.offers,
          sent := [(no, 1)], stale := l.ended }
      sendPacket s agent (nfld a 48 16) (.bind pc m c n ty (mode == 0))
  pure (r.finish 0)

/-! ## The nest -/

/-- Trip count and action of a level word; strides of a strides word (R148). -/
def trips (n : Nest) : List Nat := n.levels.map fun v => nfld v 0 16

def actions (n : Nest) : List Nat := n.levels.map fun v => nfld v 16 2

/-- One of the strides of every level: 0 A, 1 B, 2 C (R148). -/
def stridesOf (n : Nest) (k : Nat) : List Int := n.strides.map fun v => sxInt (v / 2 ^ (16 * k)) 16

/-- Steps of a nest; none when a trip is 0 (R149). -/
def totalSteps (n : Nest) : Nat := (trips n).foldl (· * ·) 1

/-- The indices at a step, L0 fastest (R149). -/
def indexAt : List Nat → Nat → List Nat
  | [], _ => []
  | t :: r, k => k % t :: indexAt r (k / t)

/-- The indices at a step of a nest. -/
def nestIndex (n : Nest) (k : Nat) : List Nat := indexAt (trips n) k

/-- A tile index at a step (R149). -/
def tileIndex (n : Nest) (k step : Nat) : Int := ((nestIndex n step).zipWith (fun (i : Nat) (x : Int) => i * x) (stridesOf n k)).sum

/-- The extreme tile indices over a nest (R151). -/
def tileExtremes (n : Nest) (k : Nat) : Int × Int :=
  let l := (trips n).zipWith (fun (t : Nat) (x : Int) => ((t : Int) - 1) * x) (stridesOf n k)
  ((l.map (min 0)).sum, (l.map (max 0)).sum)

/-- The boundary action after a step: that of the outermost level that ended an iteration and does not accumulate (R149). -/
def boundary : List Nat → List Nat → List Nat → Nat → Nat
  | i :: is, t :: ts, a :: as, act =>
    let act := if a = 0 then act else a
    if i + 1 = t then boundary is ts as act else act
  | _, _, _, act => act

/-- Whether strides read a stream once, in order (R150): trips and strides of the levels whose trip exceeds 1, in ascending order; one of them
is level j1. -/
def streamStrides : List (Nat × Int) → Bool
  | [] => false
  | (t, x) :: r => if x = 0 then streamStrides r else x == 1 && rising (t : Int) r
where
  rising (prod : Int) : List (Nat × Int) → Bool
    | [] => true
    | (t, x) :: r => x == prod && rising (prod * t) r

/-- Whether the strides of an operand meet the rule of R150: those of a stream, or all zero. -/
def operandStreams (n : Nest) (k : Nat) : Bool :=
  (stridesOf n k).all (· == 0) || streamStrides (((trips n).zip (stridesOf n k)).filter fun x => decide (1 < x.1))

/-- Sources that a nest word names (R148): A from 0 scratchpad or 1 queue; B also from 2 the weight buffer. -/
def srcA (n : Nest) : Nat := nfld n.word 8 2

def srcB (n : Nest) : Nat := nfld n.word 10 2

/-- The type of an operand, whether its blocks are scaled, and whether it is coded (R146). -/
def operandKind (s : State) (c : Nat) (n : Nest) (b : Bool) : Option (Nat × Bool × Bool) :=
  let src := if b then srcB n else srcA n
  let sh := if b then n.shapeB else n.shapeA
  if src = 0 then some (shp sh 8, shp sh 12 == 1, shp sh 11 != 0)
  else if src = 1 then
    let l := fgetD (core s c).links (if b then nfld n.word 16 4 else nfld n.word 12 4) {}
    some (l.ty, true, false)
  else (core s c).weightType.map fun t => (t, true, false)

/-- Whether a pair of operands may be multiplied (R146). -/
def pairOk (a b : Nat × Bool × Bool) : Bool :=
  if a.2.2 then false
  else if b.2.2 then a.1 == b.1 && (a.1 == 1 || a.1 == 3)
  else if a.1 = 5 ∧ b.1 = 5 then a.2.1 && b.2.1
  else
    let in_ (l : List Nat) : Bool := l.contains a.1 && l.contains b.1
    in_ [3, 4] || in_ [8, 9] || in_ [1] || in_ [2]

/-- Whether a queue that a nest names is bound in the right direction (R151). -/
def linkOk (s : State) (c n : Nat) (send : Bool) : Bool := let l := fgetD (core s c).links n {}; l.bound && l.send == send

/-- Tiles of an operand's grid (R151). -/
def gridTiles (sh : Nat) : Nat := ceilDiv (shp sh 4) 128 * ceilDiv (shp sh 5) 64

/-- The checks of step 2 of R151; for an empty nest those of the tiles and of the destination grid pass. -/
def nestShapesOk (s : State) (c : Nat) (n : Nest) : Bool :=
  let runs := totalSteps n != 0
  let ctpr := nfld n.word 24 8
  let inGrid (k sh : Nat) : Bool := decide (0 ≤ (tileExtremes n k).1 ∧ (tileExtremes n k).2 < (gridTiles sh : Int))
  (srcA n != 0 || shapeValid n.shapeA) && (srcB n != 0 || shapeValid n.shapeB) && (n.epiDest != 1 || shapeValid n.shapeD) &&
  (match operandKind s c n false, operandKind s c n true with
   | some a, some b => pairOk a b
   | _, _ => false) &&
  (srcA n != 1 || linkOk s c (nfld n.word 12 4) false) && (srcB n != 1 || linkOk s c (nfld n.word 16 4) false) &&
  (n.epiDest != 2 || linkOk s c (nfld n.epiWord 9 4) true) &&
  (srcA n == 0 || operandStreams n 0) && (srcB n == 0 || operandStreams n 1) &&
  (!runs || srcA n != 0 || inGrid 0 n.shapeA) && (!runs || srcB n != 0 || inGrid 1 n.shapeB) &&
  (!runs || decide (0 ≤ (tileExtremes n 2).1)) &&
  (n.epiDest != 1 || (shp n.shapeD 8 != 11 &&
    (!runs || decide (ctpr = ceilDiv (shp n.shapeD 5) 128 ∧ (tileExtremes n 2).2 < (ceilDiv (shp n.shapeD 4) 128 * ctpr : Nat)))))

/-- The bank of a scratchpad place. -/
def bankOf (place : Nat) : Nat := place / 2 ^ 17 % 16

/-- The banks of a shape's data and scale planes (R152). -/
def planeBanks (sh : Nat) : List Nat := bankOf (shp sh 0) :: (if shp sh 12 = 1 then [bankOf (shp sh 1)] else [])

/-- The bank rule (R152). Each plane of a valid shape lies inside one bank. -/
def banksOk (n : Nest) : Bool :=
  let a := if srcA n = 0 then planeBanks n.shapeA else []
  let b := if srcB n = 0 then planeBanks n.shapeB else []
  let band (src sh : Nat) : List Nat := if src = 0 ∧ nbit n.epiWord 4 ∧ shp sh 13 = 1 ∧ shp sh 9 = 1 then [bankOf (shp sh 2)] else []
  let e := band (srcA n) n.shapeA ++ band (srcB n) n.shapeB ++ (if n.epiDest = 1 ∧ shp n.shapeD 9 = 1 then planeBanks n.shapeD else [])
  (srcA n != 0 || shp n.shapeA 9 == 1) && (srcB n != 0 || shp n.shapeB 9 == 1) &&
  a.all (fun k => decide (k < 8)) && b.all (fun k => decide (8 ≤ k)) && a.all (fun k => !e.contains k) && b.all (fun k => !e.contains k)

/-- The nest that an `mgo` latches (R153, R274). -/
def latchNest (s : State) (r : Run) : Nest :=
  let x := cmdPart s r.cmd
  let w := x.nestWord.toNat
  { cmd := r.cmd, levels := (List.range 6).map fun k => (fgetD x.nestLevels k 1).toNat, strides := (List.range 6).map fun k => (fgetD x.nestStrides k 0).toNat,
    word := w, shapeA := shapeReg x (nfld w 0 4), shapeB := shapeReg x (nfld w 4 4), shapeD := shapeReg x (nfld x.epiWord.toNat 5 4),
    epiDest := x.epiDest, epiWord := x.epiWord.toNat, epiBarrier := x.epiBarrier.toNat, formats := (core s (coreOf r.cmd.ctx.part)).formats,
    ints := false, leave := false, steps := 0, cur := nfld w 23 1, releasedA := 0, releasedB := 0, hold := none, ended := false }

/-- The tiles that the epilogues of a nest write: those of the steps after which an action runs one (R149). -/
def writtenTiles (n : Nest) : List Nat :=
  ((List.range (totalSteps n)).filter fun k => decide (2 ≤ boundary (nestIndex n k) (trips n) (actions n) 0)).map fun k => (tileIndex n 2 k).toNat

/-- The first and the last byte of each data and scale row that the epilogue of a tile writes to a shape (R157). -/
def shapePlaces (n : Nest) (tile : Nat) : List Nat :=
  let sh := n.shapeD
  let ctpr := nfld n.word 24 8
  let n0 := 128 * (tile % ctpr)
  let w := tyWidth (shp sh 8)
  let k := min 128 (shp sh 5 - n0)
  (List.range 128).flatMap fun i =>
    let m := 128 * (tile / ctpr) + i
    if shp sh 4 ≤ m ∨ shp sh 5 ≤ n0 then [] else
    let d := shp sh 0 + m * shp sh 6 + n0 * w / 8
    let x := shp sh 1 + m * shp sh 7 + n0 / 8
    [d, d + ceilDiv (k * w) 8 - 1] ++ if shp sh 12 = 1 then [x, x + ceilDiv k 8 - 1] else []

/-- Whether a nest inside a world is to write rows of its destination shape on another device (R352). -/
def nestEscapes (c : Ctx) (n : Nest) : Bool :=
  c.view != 0 && n.epiDest == 1 && shp n.shapeD 9 == 0 && (writtenTiles n).any fun t => (shapePlaces n t).any fun a => !isHere (w64 a).toNat

/-- `mgo` when it starts (R151, R153, R162); a row that its epilogues are to write outside the device escapes here, before any write (R352). -/
def workMgo (r : Run) : Eng Run := do
  let p := r.cmd.ctx.part
  let c := coreOf p
  modify fun s => holdMangle s p
  let s ← get
  let n := latchNest s r
  if r.cmd.ctx.view ≠ 0 ∧ (srcA n = 1 ∨ srcB n = 1 ∨ n.epiDest = 2) then throw (.trap 0x0A)
  escapeCheck r.cmd.ctx (if n.epiDest = 1 then shp n.shapeD 9 else 1) (w64 (shp n.shapeD 0)) n.epiBarrier
  escapeCheck r.cmd.ctx (if n.epiDest = 1 ∧ shp n.shapeD 12 = 1 then shp n.shapeD 9 else 1) (w64 (shp n.shapeD 1)) 0
  shapeCheck (nestShapesOk s c n)
  if totalSteps n ≠ 0 ∧ ¬ banksOk n then throw (.trap 0x07)
  if nestEscapes r.cmd.ctx n then throw (.trap 0x0A)
  let ty := match operandKind s c n false with | some k => k.1 | none => 0
  let n := { n with ints := isInt ty, leave := ty == 5 && !nbit (part s p).leave 0 }
  modify fun s => modCore s c fun x => { (if nbit n.word 22 then { x with acc := [] } else x) with nest := some n }
  if n.leave then modify fun s => askLeave s p 0 (some r.cmd.id)
  pure { r with state := .nest }

/-! ## Steps -/

/-- A zero element (R139). -/
def zeroV : Val := .fin false 0 0

/-- One row of an operand's tile: 64 elements and the scales of its 8 blocks. -/
abbrev OpRow := List Val × List Val

/-- The codes of `n` elements of row `r` of a plain or coded shape, from element `k0` on, as elements (R142, R268). -/
def shapeElems (x : Core) (sh r k0 n : Nat) : List Val :=
  let fmt := shp sh 8
  let row := shp sh 0 + r * shp sh 6
  let w := if shp sh 11 = 1 then 3 else if shp sh 11 = 2 then 4 else tyWidth fmt
  let off := if shp sh 11 = 1 then k0 / 128 * 48 + k0 % 128 * 3 / 8 else k0 * w / 8
  let codes := unpackBits w n (leNat (ringRead x.scratch scratchSize (row + off) (ceilDiv (n * w) 8)))
  if shp sh 11 = 0 then codes.map (decodeT fmt) else
  let s := entryBytes fmt
  let tab := shp sh 3 + (r * ceilDiv (shp sh 5) 128 + k0 / 128) * bookEntries sh * s
  codes.map fun v => decodeT fmt (leNat (ringRead x.scratch scratchSize (tab + v * s) s))

/-- A tile of a scratchpad operand (R149): elements outside the shape are zero (R139). -/
def shapeTile (x : Core) (sh t : Nat) : List OpRow :=
  let tpr := ceilDiv (shp sh 5) 64
  let k0 := 64 * (t % tpr)
  let n := min 64 (shp sh 5 - k0)
  (List.range 128).map fun i =>
    let r := 128 * (t / tpr) + i
    if shp sh 4 ≤ r then (List.replicate 64 zeroV, []) else
    (shapeElems x sh r k0 n ++ List.replicate (64 - n) zeroV,
     if shp sh 12 = 1 then (ringRead x.scratch scratchSize (shp sh 1 + r * shp sh 7 + k0 / 8) (ceilDiv n 8)).map fun b => decodeF 6 b.toNat else [])

/-- A half-tile as operand rows (R150). -/
def halfRows (t : HalfTile) : List OpRow :=
  (List.range 128).map fun i =>
    let r := t.rows.getD i []
    ((List.range 64).map fun k => decodeT t.ty (r.getD k 0),
     if t.ty = 5 then (List.range 8).map fun b => decodeF 6 ((t.scales.getD i []).getD b 0) else [])

/-- The half-tile at stream position `k` past what has been released (R150). -/
def linkHalf (l : LinkQueue) (k : Nat) : Option HalfTile := (l.tiles[(k + l.halfUsed) / 2]?).bind fun t => t[(k + l.halfUsed) % 2]?

/-- The operand rows of a step; none when a half-tile has not arrived (R149, R150). -/
def operandRows (x : Core) (n : Nest) (b : Bool) : Option (List OpRow) :=
  let src := if b then srcB n else srcA n
  let t := tileIndex n (if b then 1 else 0) n.steps
  let rel := if b then n.releasedB else n.releasedA
  if src = 0 then some (shapeTile x (if b then n.shapeB else n.shapeA) t.toNat)
  else if src = 1 then (linkHalf (fgetD x.links (if b then nfld n.word 16 4 else nfld n.word 12 4) {}) (t.toNat - rel)).map halfRows
  else (x.weights[t.toNat - rel]?).map halfRows

/-- One float element after a group (R147, R276). -/
def addGroup (acc g : Nat) (a b : OpRow) : Nat :=
  let cut (l : List Val) : List Val := (l.drop (32 * g)).take 32
  let blk (l : List Val) : List Val := (l.drop (4 * g)).take 4
  add32 acc (groupSum ((cut a.1).zipWith mulV (cut b.1)) ((blk a.2).zipWith mulV (blk b.2)))

/-- The integer that a value of an integer type stands for. -/
def intOf (v : Val) : Int :=
  match v with
  | .fin n m _ => if n then -(m : Int) else m
  | _ => 0

/-- One integer element after a group (R147). -/
def addGroupInt (acc : Int) (g : Nat) (a b : OpRow) : Int :=
  satInt (acc + (((a.1.drop (32 * g)).take 32).zipWith (fun x y => intOf x * intOf y) ((b.1.drop (32 * g)).take 32)).sum) (-2 ^ 31) (2 ^ 31 - 1)

/-- One element after a step (R147). -/
def stepElem (ints : Bool) (acc : BitVec 32) (a b : OpRow) : BitVec 32 :=
  if ints then BitVec.ofInt 32 (addGroupInt (addGroupInt acc.toInt 0 a b) 1 a b)
  else BitVec.ofNat 32 (addGroup (addGroup acc.toNat 0 a b) 1 a b)

/-- An accumulator after a step (R139, R147). -/
def stepAcc (x : Core) (n : Nat) (ints : Bool) (ra rb : List OpRow) : Core :=
  { x with acc := (List.range 128).foldl (fun m i =>
      let old := fgetD m (128 * n + i) []
      let a := ra.getD i ([], [])
      fput m (128 * n + i) ((List.range 128).map fun j => stepElem ints (old.getD j 0) a (rb.getD j ([], [])))) x.acc }

/-- The M engine of partition `p` releases `k` half-tiles of a link tile queue (R150); each slot freed returns a credit (R321). -/
def releaseLink (s : State) (p n : Nat) : Nat → State
  | 0 => s
  | k + 1 =>
    let c := coreOf p
    let s := releaseLink s p n k
    let l := fgetD (core s c).links n {}
    if l.halfUsed = 0 then modLink s c n fun l => { l with halfUsed := 1 } else
    let s := modLink s c n fun l => { l with halfUsed := 0, tiles := l.tiles.tail }
    if ¬ l.paired then s else
    let no := packetNo s (agentNo p .matrix) l.peerDev
    sendPacket (modLink s c n fun l => l.noteSent no 1) (agentNo p .matrix) l.peerDev (.credit l.peerCore l.peerQueue)

/-- Releases the half-tiles of an operand that no later step uses (R150). -/
def releaseOperand (s : State) (c : Nat) (n : Nest) (b : Bool) : State × Nat :=
  let src := if b then srcB n else srcA n
  let rel := if b then n.releasedB else n.releasedA
  if src = 0 then (s, rel) else
  let k := if b then 1 else 0
  let last := n.steps + 1 = totalSteps n
  let upto := if last then (tileIndex n k n.steps).toNat + 1 else (tileIndex n k (n.steps + 1)).toNat
  let m := upto - rel
  if src = 1 then (releaseLink s n.cmd.ctx.part (if b then nfld n.word 16 4 else nfld n.word 12 4) m, max upto rel)
  else (modCore s c fun x => { x with weights := x.weights.drop m }, max upto rel)

/-- The run of a nest. -/
def nestRun (s : State) (n : Nest) : Option Run := (cmdQueue s n.cmd.ctx.part 2).running.find? fun r => r.cmd.id == n.cmd.id

/-- Starts the epilogue on the accumulator in use (R153); a swap turns to the other. -/
def startEpilogue (s : State) (c : Nat) (n : Nest) (act tile : Nat) : State :=
  let m := { n with hold := none, cur := if act = 3 then 1 - n.cur else n.cur }
  modCore s c fun x => { x with nest := some m, epi := some { acc := n.cur, tile := tile, nest := n, seen := none } }

/-- The link tile queues from which a nest pops. -/
def sourceLinks (n : Nest) : List Nat := (if srcA n = 1 then [nfld n.word 12 4] else []) ++ if srcB n = 1 then [nfld n.word 16 4] else []

/-- Nothing holds on a link tile queue (R322). -/
def endHold (c : Nat) (s : State) (q : Nat) : State := modLink s c q fun l => { l with heldSince := none }

/-- The nest stops on a trap (R165): no further step, its leave is released, and the M queue is frozen. -/
def stopNest (s : State) (c : Nat) (n : Nest) (cause : Nat) : State :=
  let s := (sourceLinks n).foldl (endHold c) s
  let s := modCore s c fun x => { x with nest := if (x.nest.map fun m => m.cmd.id) = some n.cmd.id then none else x.nest }
  if (nestRun s n).isSome then engineTrap s n.cmd cause else s

/-- Whether an epilogue still reads an accumulator (R153). -/
def epiReads (x : Core) (acc : Nat) : Bool := match x.epi with | some e => e.acc == acc | none => false

/-- Once no steps remain, and no epilogue still reads the accumulator that holds the steps, the nest releases the leave it took (R153). -/
def endSteps (s : State) (c : Nat) : State :=
  match (core s c).nest with
  | none => s
  | some n =>
    if n.ended ∨ n.hold.isSome ∨ n.steps < totalSteps n ∨ epiReads (core s c) n.cur then s else
    let s := modCore s c fun x => { x with nest := some { n with ended := true } }
    match nestRun s n with
    | some r => modQueue (dropLeave s n.cmd.ctx.part r) n.cmd.ctx.part 2 fun q => { q with
        running := q.running.map fun x => if x.cmd.id = r.cmd.id then { x with tookLeave := false } else x }
    | none => s

/-- A pop or push on a link tile queue starts to hold (R322), or fails at once on a failed queue (R323). -/
def linkHolds (s : State) (c q : Nat) (n : Nest) : State :=
  let l := fgetD (core s c).links q {}
  if l.failed then stopNest s c n 0x0E
  else if l.heldSince.isNone then modLink s c q fun l => { l with heldSince := some s.time } else s

/-- The queues of operands whose half-tile has not arrived. -/
def waitingLinks (x : Core) (n : Nest) : List Nat :=
  (if srcA n = 1 ∧ (operandRows x n false).isNone then [nfld n.word 12 4] else []) ++
    if srcB n = 1 ∧ (operandRows x n true).isNone then [nfld n.word 16 4] else []

/-- A step that waits for half-tiles holds on each queue that owes one, and on no other (R160, R322). -/
def nestWaits (s : State) (c : Nat) (n : Nest) : State :=
  let w := waitingLinks (core s c) n
  w.foldl (fun s q => linkHolds s c q n) (((sourceLinks n).filter fun q => !w.contains q).foldl (endHold c) s)

/-- One step with its boundary action (R149, R153). -/
def runStep (s : State) (c : Nat) (n : Nest) (ra rb : List OpRow) : State :=
  let s := modCore s c fun x => stepAcc x n.cur n.ints ra rb
  let s := (sourceLinks n).foldl (endHold c) s
  let a := releaseOperand s c n false
  let b := releaseOperand a.1 c n true
  let s := b.1
  let act := boundary (nestIndex n n.steps) (trips n) (actions n) 0
  let tile := (tileIndex n 2 n.steps).toNat
  let m := { n with steps := n.steps + 1, releasedA := a.2, releasedB := b.2 }
  let s := modCore s c fun x => { x with nest := some m }
  if act = 0 then s
  else if act = 1 then modCore s c fun x => accClear x n.cur
  else if (core s c).epi.isNone then startEpilogue s c m act tile
  else modCore s c fun x => { x with nest := some { m with hold := some (4 * tile + act) } }

/-- What the mangle of a core does next (R149, R153). -/
def nestNext (s : State) (c : Nat) : State :=
  match (core s c).nest with
  | none => s
  | some n =>
    if n.ended then s
    else if n.leave && !(match nestRun s n with | some r => r.tookLeave | none => false) then s
    else match n.hold with
      | some h => if (core s c).epi.isNone then endSteps (startEpilogue s c n (h % 4) (h / 4)) c else s
      | none =>
        if totalSteps n ≤ n.steps then endSteps s c
        else if epiReads (core s c) n.cur then s
        else match operandRows (core s c) n false, operandRows (core s c) n true with
          | some ra, some rb => endSteps (runStep s c n ra rb) c
          | _, _ => nestWaits s c n

/-- NEST_STEP (R149). -/
def execNestStep (c : Nat) (s : State) : Host.Outcome State Fault Refusal := .next (nestNext s c)

/-! ## The epilogue -/

/-- A plane that an epilogue reads or writes lies where no plane can (R165): SHAPE_INVALID (DEDUCED, log entry 107). -/
def planeCheck (sp place : Nat) (reads : Bool) : Eng Unit := shapeCheck (sp != 0 || (placeTrap 0 (place % 2 ^ 64) reads).isNone)

/-- The band scale of output row or column `m` (R156, R142): 1 for a queue operand, a shape without bands, and beyond the plane. -/
def bandAt (c : Ctx) (src sh m : Nat) : Eng Val := do
  if src ≠ 0 ∨ shp sh 13 = 0 ∨ shp sh 4 ≤ m / 64 * 64 then pure (.fin false 1 0)
  else
    planeCheck (shp sh 9) (shp sh 2 + 2 * (m / 64)) true
    let b ← placeRead c (shp sh 9) (w64 (shp sh 2 + 2 * (m / 64))) 2 (shp sh 10)
    pure (decodeF 1 (leNat b))

/-- The value of an accumulator element before its conversion (R156). -/
def epiValue (ints band : Bool) (act ty : Nat) (acc : BitVec 32) (ba bb : Val) : Val :=
  let r (v : Val) : Val := decodeF 0 (rneF 0 v)
  let v := if ints then (let i := ofInt acc.toInt; if band || act != 0 || isFloat ty then r i else i) else decodeF 0 acc.toNat
  let v := if band then r (mulV (r (mulV v ba)) bb) else v
  if act = 0 then v
  else if act = 1 then
    match v with
    | .nan => .nan
    | .inf n => if n then zeroV else v
    | .fin n _ _ => if n then zeroV else v
  else specialV (act - 2) v

/-- The values of a C tile (R156). -/
def epiValues (x : Core) (e : Epi) (ty : Nat) (ba bb : List Val) : List (List Val) :=
  let band := nbit e.nest.epiWord 4
  (List.range 128).map fun i =>
    let row := accRow x e.acc i
    (List.range 128).map fun j => epiValue e.nest.ints band (nfld e.nest.epiWord 0 4) ty (row.getD j 0) (ba.getD (i / 64) zeroV) (bb.getD (j / 64) zeroV)

/-- One block of values as a scale and codes (R278). -/
def blockCodes (mode : Nat) (vs : List (Val × Nat)) : Nat × List Nat :=
  let s := blockScale (vs.map (·.1))
  (s.1, vs.map fun v => encodeF 5 mode v.2 (divV v.1 s.2))

/-- A row of values as codes and, for block-scaled FP4, scales (R156, R278). Each value comes with its draw. -/
def rowCodes (ty mode : Nat) (blk : Bool) (vs : List (Val × Nat)) : List Nat × List Nat :=
  if blk then
    let l := (rowsOf 8 16 vs).map (blockCodes mode)
    ((l.map (·.2)).flatten, l.map (·.1))
  else (vs.map fun v => encodeT ty mode v.2 v.1, [])

/-- Writes the rows of a C tile to the tile store (R157). -/
def writeTile (e : Epi) (ty : Nat) : Nat → List (List Val) → Eng Unit
  | _, [] => pure ()
  | i, vs :: r => do
    let row := nfld e.nest.epiWord 13 9 + 128 * (e.tile % (nfld e.nest.epiWord 22 2 + 1)) + i
    placeWrite e.nest.cmd.ctx 4 (w64 (1024 * row)) (leBytes (16 * tyWidth ty) (packBits (tyWidth ty) (rowCodes ty 0 false (vs.map fun v => (v, 0))).1)) 0 4 0
    writeTile e ty (i + 1) r

/-- Writes the rows of a C tile to its place in the destination shape (R157, R278); gives the bytes written. -/
def writeShape (e : Epi) (id m0 n0 : Nat) : Nat → List (List Val) → Eng Nat
  | _, [] => pure 0
  | i, vs :: r => do
    let sh := e.nest.shapeD
    let m := m0 + i
    if shp sh 4 ≤ m ∨ shp sh 5 ≤ n0 then pure 0 else
    let ty := shp sh 8
    let n := min 128 (shp sh 5 - n0)
    let mode := if shp sh 9 = 1 ∧ ¬ isInt ty then nfld (fgetD e.nest.formats (bankOf (shp sh 0)) 0).toNat 4 2 else 0
    let c := e.nest.cmd
    let draws := (vs.take n).zipIdx.map fun v => (v.1, stochDraw c.seed.toNat c.workid.toNat e.tile (i * 128 + v.2))
    let codes := rowCodes ty mode (shp sh 12 == 1) draws
    let bytes := ceilDiv (n * tyWidth ty) 8
    planeCheck (shp sh 9) (shp sh 0 + m * shp sh 6 + n0 * tyWidth ty / 8) false
    planeCheck (if shp sh 12 = 1 then shp sh 9 else 1) (shp sh 1 + m * shp sh 7 + n0 / 8) false
    placeWrite c.ctx (shp sh 9) (w64 (shp sh 0 + m * shp sh 6 + n0 * tyWidth ty / 8)) (leBytes bytes (packBits (tyWidth ty) codes.1)) (shp sh 10) 4 id
    if shp sh 12 = 1 then placeWrite c.ctx (shp sh 9) (w64 (shp sh 1 + m * shp sh 7 + n0 / 8)) (codes.2.map (BitVec.ofNat 8)) (shp sh 10) 4 id
    let rest ← writeShape e id m0 n0 (i + 1) r
    pure (bytes + (if shp sh 12 = 1 then codes.2.length else 0) + rest)

/-- The type that an epilogue writes (R157). -/
def epiType (x : Core) (e : Epi) : Nat :=
  match e.nest.epiDest with
  | 0 => nfld e.nest.epiWord 24 4
  | 1 => shp e.nest.shapeD 8
  | _ => (fgetD x.links (nfld e.nest.epiWord 9 4) {}).ty

/-- The bytes of a tile as it travels (R321): its codes row by row, then the block scales. -/
def tileBytes (ty : Nat) (rows : List (List Nat × List Nat)) : List Byte :=
  (rows.map fun r => leBytes (16 * tyWidth ty) (packBits (tyWidth ty) r.1)).flatten ++ (rows.map fun r => r.2.map (BitVec.ofNat 8)).flatten

/-- Pushes a C tile into a link tile queue (R157, R160, R321): it holds without a credit, and leaves in packets of 256 bytes (R310). -/
def pushTile (c : Nat) (e : Epi) (vals : List (List Val)) : Eng Unit := do
  let q := nfld e.nest.epiWord 9 4
  let l := fgetD (core (← get) c).links q {}
  if l.failed then throw (.trap 0x0E)
  if l.credits = 0 ∨ ¬ l.paired then throw .wait
  let rows := vals.map fun vs => rowCodes l.ty 0 (l.ty == 5) (vs.map fun v => (v, 0))
  let pieces := cut256 129 0 (tileBytes l.ty rows)
  modify fun s =>
    let agent := agentNo e.nest.cmd.ctx.part .matrix
    let no := packetNo s agent l.peerDev
    let s := modLink s c q fun l => { l with credits := l.credits - 1, heldSince := none }.noteSent no pieces.length
    pieces.foldl (fun s b => sendPacket s agent l.peerDev (.tile l.peerCore l.peerQueue b.2)) s

/-- The work of an epilogue (R156, R157): gives the number its writes carry, and the bytes that its barrier add counts. -/
def epiWork (c : Nat) (e : Epi) : Eng (Nat × Nat) := do
  let n := e.nest
  if n.epiDest = 3 then return (0, 0)
  let ctpr := nfld n.word 24 8
  let m0 := 128 * (e.tile / ctpr)
  let n0 := 128 * (e.tile % ctpr)
  let band := nbit n.epiWord 4
  let one : List Val := [.fin false 1 0, .fin false 1 0]
  let ba ← if band then do pure [← bandAt n.cmd.ctx (srcA n) n.shapeA m0, ← bandAt n.cmd.ctx (srcA n) n.shapeA (m0 + 64)] else pure one
  let bb ← if band then do pure [← bandAt n.cmd.ctx (srcB n) n.shapeB n0, ← bandAt n.cmd.ctx (srcB n) n.shapeB (n0 + 64)] else pure one
  let s ← get
  let id := s.nextSeq
  set { s with nextSeq := id + 1 }
  let vals := epiValues (core s c) e (epiType (core s c) e) ba bb
  let count ← match n.epiDest with
    | 0 => do
      writeTile e (epiType (core s c) e) 0 vals
      pure (2048 * tyWidth (epiType (core s c) e))
    | 1 => writeShape e id m0 n0 0 vals
    | _ => do
      pushTile c e vals
      pure 0
  modify fun s => modCore s c fun x => accClear x e.acc
  pure (id, count)

/-- Adds 1 to a semaphore, unless the pushing record has left the partition (R92). -/
def semaphoreAdd (s : State) (c : Cmd) (bar : Nat) : State :=
  match (part s c.ctx.part).resident with
  | some r => if r.stay = c.record then semAdd s c.ctx.part (semOf bar) 1 else s
  | none => s

/-- The add of a command to its barrier, or to its semaphore (R92, R93, R315, R391). -/
def barrierAddFor (s : State) (c : Cmd) (bar n id : Nat) : State :=
  if bar = 0 then s
  else if semForm bar then semaphoreAdd s c bar
  else match locOf bar with
    | .remote _ => if logBusy s c.ctx
        then retire s { ctx := c.ctx, va := bar, op := .barrierAdd n, hint := 0, seq := id, reg := none, kind := 4, seen := 0, cont := false }
        else (performAny s c.ctx bar (.barrierAdd n) 0 id).1
    | _ => match sendWrite s c.ctx bar (.barrierAdd n) 0 4 id none false with
      | (s, .world) => engineTrap s c 0x0A
      | (s, .bad _) => engineTrap s c 0x0F
      | (s, _) => s

/-- Makes the epilogue adds whose writes are performed (R157, R313). -/
def settleAdds (s : State) (c : Nat) : State :=
  (core s c).epiAdds.foldl (fun s e =>
    if ¬ writesDone s e.cmd.ctx.part e.id then s else
    let s := modCore s c fun x => { x with epiAdds := x.epiAdds.filter fun y => y.id != e.id }
    if e.lost then s else barrierAddFor s e.cmd e.bar e.count e.cmd.id) s

/-- What the epilogue unit of a core does next (R156): it scales, activates, writes, clears and adds; or holds; or traps. -/
def epilogueNext (s : State) (c : Nat) : State :=
  match (core s c).epi with
  | none => settleAdds s c
  | some e =>
    if (match e.seen with | some n => decide (s.retries ≤ n) | none => false) then s else
    let drop (s : State) : State := modCore s c fun x => { x with epi := none }
    match (epiWork c e).go s with
    | (.ok (id, n), t) =>
      let t := retestRings (drop t)
      settleAdds (modCore t c fun x =>
        { x with epiAdds := x.epiAdds ++ [{ cmd := e.nest.cmd, bar := e.nest.epiBarrier, id := id, count := n, lost := false }] }) c
    | (.error (.page k va), _) => modCore (faultFor s e.nest.cmd.ctx va 3 k) c fun x => { x with epi := some { e with seen := some s.retries } }
    | (.error (.trap cause), t) => stopNest (drop t) c e.nest cause
    | (.error .wait, _) => if e.nest.epiDest = 2 then linkHolds s c (nfld e.nest.epiWord 9 4) e.nest else s

/-- EPILOGUE (R156). -/
def execEpilogue (c : Nat) (s : State) : Host.Outcome State Fault Refusal := .next (epilogueNext s c)

/-- Whether a nest has finished with every epilogue and add (R153). -/
def nestFinished (s : State) (c id : Nat) : Bool :=
  let x := core s c
  (match x.nest with | some n => n.cmd.id != id || n.ended | none => true) &&
  (match x.epi with | some e => e.nest.cmd.id != id | none => true) && !x.epiAdds.any fun e => e.cmd.id == id

/-! ## Time-out, and the taking of the mangle -/

/-- A push or pop that has held for `ltq.timeout` raises LINK_DOWN, and its queue fails (R160, R322, R323). -/
def linkTimesOut (s : State) (c q : Nat) : State :=
  let limit := max 1 (mgetN s 0 regLtqTimeout % 2 ^ 32) * acPerUs
  let l := fgetD (core s c).links q {}
  match l.heldSince with
  | none => s
  | some t =>
    if s.time < t + limit then s else
    let fail (s : State) : State := modLink s c q fun l => { l with failed := true, heldSince := none }
    match (core s c).epi, (core s c).nest with
    | some e, n =>
      if e.nest.epiDest = 2 ∧ nfld e.nest.epiWord 9 4 = q ∧ l.send then stopNest (modCore (fail s) c fun x => { x with epi := none }) c e.nest 0x0E
      else popFails fail n
    | none, n => popFails fail n
where
  popFails (fail : State → State) : Option Nest → State
    | some n => if (waitingLinks (core s c) n).contains q then stopNest (fail s) c n 0x0E else endHold c s q
    | none => endHold c s q

/-- LTQ_TIMEOUT (R322). -/
def execLtqTimeout (c n : Nat) (s : State) : Host.Outcome State Fault Refusal := .next (linkTimesOut s c n)

/-- Whether partition `p`'s next M command may start for the holder rule, when the mangle passes freely (R162): the holder has none queued, no
nest, and none that holds or waits. -/
def mangleFree (s : State) (p : Nat) : Bool :=
  match (core s (coreOf p)).holder with
  | none => true
  | some h => h == p || ((cmdQueue s h 2).queued.isEmpty && !(cmdQueue s h 2).running.any fun r => r.state == .nest || r.unfinished)

/-- Whether partition `p` may take the mangle (R162). -/
def mayTake (s : State) (p : Nat) : Bool :=
  match (core s (coreOf p)).holder with
  | none => false
  | some h => h != p && (core s (coreOf p)).issue == some p && !(cmdQueue s p 2).queued.isEmpty && !(cmdQueue s p 2).frozen &&
      (part s h).restart != 0 && !mangleFree s p

/-- Partition `p` takes the mangle from its holder, whose matrix work is discarded (R163, R191). -/
def takeMangle (s : State) (p : Nat) : State :=
  let c := coreOf p
  match (core s c).holder with
  | none => s
  | some h =>
    if ¬ mayTake s p then s else
    let s := discardCommands s h 2 fun _ => true
    let s := discardCommands s h 5 fun k => match k.instr with | .wload .. => true | _ => false
    let s := clearMangle s c
    holdMangle (modPart s h fun x => { x with lostMangle := true }) p

/-- MANGLE_TAKE (R163). -/
def execMangleTake (p : Nat) (s : State) : Host.Outcome State Fault Refusal := .next (takeMangle s p)

end Sys2Proof.Machine
end

