-- ==== Sys2Proof/Machine/Tables.lean ====
section
/-! DEFINITION. The table engines (R168 to R192, R294 to R299): gleaners, hot rows and sketches, the Darners, the exchange, and the
weight path. -/

namespace Sys2Proof.Machine

/-! ## Table words -/

/-- A table word, with the layout of a row (R174): element bytes `re`, row bytes `rb`, row stride `rs`. -/
structure TableWord where
  rows : Nat
  slot : Nat
  fmt : Nat
  dim : Nat
  re : Nat
  rb : Nat
  rs : Nat
deriving DecidableEq, Repr

/-- Whether rows of a type carry a scale and an offset (R174). -/
def hasTrailer (fmt : Nat) : Bool := fmt == 8 || fmt == 9 || fmt == 5

/-- The layout that a table word gives (R174). Its hint [25:24] is dropped: table engines touch no line that keeps one (R298), and the spec gives it no
other effect there (DESIGN CHOICE, log entry 156). -/
def tableOf (w : Nat) : TableWord :=
  let fmt := nfld w 20 4
  let dim := nfld w 0 12 + 1
  let re := ceilDiv (dim * tyWidth fmt) 8
  let rb := if hasTrailer fmt then re + 4 else re
  { rows := nfld w 32 32, slot := nfld w 26 6, fmt := fmt, dim := dim, re := re, rb := rb, rs := 32 * ceilDiv rb 32 }

/-- Whether a table word keeps its layout and limits, for a base (R168, R174). A row type of code 12 to 15 is a field outside its limits
(DESIGN CHOICE, log entry 100). -/
def tableOk (base w : Nat) : Bool :=
  let t := tableOf w
  [0, 1, 2, 3, 4, 8, 9, 5].contains t.fmt && nfld w 12 8 == 0 && decide (1 ≤ t.rows ∧ t.rs ≤ 16384) &&
    decide (base % 2 ^ 46 + (t.rows - 1) * t.rs + t.rb ≤ 2 ^ 46)

/-- The cause of the trap for a place that must lie on this device (R168). -/
def localPlace (sp v : Nat) : Option Nat := placeTrap sp v true

/-- The cause of the trap for a memory base with an alignment. -/
def baseTrap (v align : Nat) : Option Nat := firstTrap [localPlace 0 v, need (v % align == 0) 0x05]

/-- The cause of the trap for a base and its table word (R174). -/
def tableTrap (base w : Nat) : Option Nat := firstTrap [baseTrap base 32, need (tableOk base w) 0x08]

/-- Output types (R176). -/
def outType (ty : BitVec 4) : Option Nat := need (decide (ty.toNat ≤ 2)) 0x08

/-! ## Push -/

/-- The trap at push of `gpool`, from the values read (R176). -/
def checkGpool (isp dst : BitVec 2) (ty : BitVec 4) (v : List W64) : Option Nat :=
    let x (i : Nat) := (v.getD i 0).toNat
    firstTrap [tableTrap (x 0) (x 1), localPlace isp.toNat (x 2), localPlace isp.toNat (x 3), localPlace dst.toNat (x 4), localBarTrap (x 5),
      outType ty]

/-- The push of the three forms of `gpool` (R176). -/
def pushGpool (s : State) (i : Instr) (h : Hdr) (a b : Reg) (isp dst : BitVec 2) (ty : BitVec 4) : State :=
  pushCommand s i h 3 a false 2 b false 4 fun v _ => checkGpool isp dst ty v

/-- `gpool.auto` (R176). -/
def execGpoolAuto (h : Hdr) (a b : Reg) (isp dst : BitVec 2) (ty : BitVec 4) (mean : Bool) (bags : BitVec 12) (s : State) :
    Host.Outcome State Fault Refusal := .next (pushGpool s (.gpoolAuto h a b isp dst ty mean bags) h a b isp dst ty)

/-- `gpool.die` (R176). -/
def execGpoolDie (h : Hdr) (a b : Reg) (isp dst : BitVec 2) (ty : BitVec 4) (mean : Bool) (bags : BitVec 12) (s : State) :
    Host.Outcome State Fault Refusal := .next (pushGpool s (.gpoolDie h a b isp dst ty mean bags) h a b isp dst ty)

/-- `gpool.far` (R176). -/
def execGpoolFar (h : Hdr) (a b : Reg) (isp dst : BitVec 2) (ty : BitVec 4) (mean : Bool) (bags : BitVec 12) (s : State) :
    Host.Outcome State Fault Refusal := .next (pushGpool s (.gpoolFar h a b isp dst ty mean bags) h a b isp dst ty)

/-- The trap at push of `gdeq`, from the values read (R179). -/
def checkGdeq (isp dst : BitVec 2) (ty : BitVec 4) (v : List W64) : Option Nat :=
    let x (i : Nat) := (v.getD i 0).toNat
    firstTrap [tableTrap (x 0) (x 1), localPlace isp.toNat (x 2), localPlace dst.toNat (x 3), localBarTrap (x 4), outType ty]

/-- `gdeq` (R179). -/
def execGdeq (h : Hdr) (a b : Reg) (isp dst : BitVec 2) (ty : BitVec 4) (count : BitVec 12) (s : State) : Host.Outcome State Fault Refusal :=
  .next (pushCommand s (.gdeq h a b isp dst ty count) h 3 a false 2 b false 3 fun v _ => checkGdeq isp dst ty v)

/-- The trap at push of `grank`, from the values read (R179). -/
def checkGrank (isp dst : BitVec 2) (ty : BitVec 4) (v : List W64) : Option Nat :=
    let x (i : Nat) := (v.getD i 0).toNat
    firstTrap [tableTrap (x 0) (x 1), localPlace isp.toNat (x 2), localPlace dst.toNat (x 4), localBarTrap (x 5), outType ty]

/-- `grank` (R179). -/
def execGrank (h : Hdr) (a b : Reg) (isp dst : BitVec 2) (ty : BitVec 4) (count : BitVec 12) (s : State) : Host.Outcome State Fault Refusal :=
  .next (pushCommand s (.grank h a b isp dst ty count) h 3 a false 2 b false 4 fun v _ => checkGrank isp dst ty v)

/-- The trap at push of `gscan`, from the values read (R180). -/
def checkGscan (qsp dst : BitVec 2) (dmax : BitVec 9) (flt : Bool) (v : List W64) : Option Nat :=
    let x (i : Nat) := (v.getD i 0).toNat
    firstTrap [baseTrap (x 0) 32, need (decide (nfld (x 1) 32 32 + nfld (x 1) 0 32 ≤ 0xFFFFFFFF)) 0x06,
      localPlace qsp.toNat (x 2), if flt then localPlace qsp.toNat (x 3) else need (x 3 == 0) 0x06, localPlace dst.toNat (x 4), localBarTrap (x 5),
      need (decide (dmax.toNat ≤ 256)) 0x08]

/-- `gscan` (R180). -/
def execGscan (h : Hdr) (a b : Reg) (qsp dst : BitVec 2) (dmax : BitVec 9) (flt : Bool) (nq1 : BitVec 4) (k1 : BitVec 8) (s : State) :
    Host.Outcome State Fault Refusal :=
  .next (pushCommand s (.gscan h a b qsp dst dmax flt nq1 k1) h 3 a false 2 b false 4 fun v _ => checkGscan qsp dst dmax flt v)

/-- The trap at push of `hot`, from the values read (R182). -/
def checkHot (count : BitVec 16) (v : List W64) : Option Nat :=
    let x (i : Nat) := (v.getD i 0).toNat
    firstTrap [tableTrap (x 0) (x 1), localBarTrap (x 3), need (count != 0) 0x08]

/-- The push of `hrpin` and `hrfree` (R182). -/
def pushHot (s : State) (i : Instr) (h : Hdr) (a b : Reg) (count : BitVec 16) : State :=
  pushCommand s i h 3 a false 2 b false 2 fun v _ => checkHot count v

/-- `hrpin` (R182). -/
def execHrpin (h : Hdr) (a b : Reg) (count : BitVec 16) (s : State) : Host.Outcome State Fault Refusal :=
  .next (pushHot s (.hrpin h a b count) h a b count)

/-- `hrfree` (R182). -/
def execHrfree (h : Hdr) (a b : Reg) (count : BitVec 16) (s : State) : Host.Outcome State Fault Refusal :=
  .next (pushHot s (.hrfree h a b count) h a b count)

/-- Bytes of a gradient row (R183). -/
def gradBytes (ty dim : Nat) : Nat := dim * tyWidth ty / 8

/-- The checks of a Darner command, whose B values start at value `n` (R183). The state operand of `sgd` may be 0 in place of a state base. -/
def darnerTrap (v : List W64) (n : Nat) (isp gsp : BitVec 2) (ty : BitVec 4) (opt : BitVec 2) : Option Nat :=
  let x (i : Nat) := (v.getD i 0).toNat
  firstTrap [tableTrap (x 0) (x 1), need (decide ((tableOf (x 1)).fmt ≤ 2)) 0x08, if opt = 0 ∧ x 2 = 0 then none else baseTrap (x 2) 32,
    need (n == 3 || decide (x 3 < 2 ^ 38)) 0x08,
    localPlace isp.toNat (x n), localPlace gsp.toNat (x (n + 1)), need (ty.toNat > 1 || x (n + 1) % (tyWidth ty.toNat / 8) == 0) 0x05,
    baseTrap (x (n + 2)) 32, localBarTrap (x (n + 3)), need (decide (ty.toNat ≤ 1)) 0x08]

/-- `dupd` (R183). -/
def execDupd (h : Hdr) (a b : Reg) (isp gsp : BitVec 2) (ty : BitVec 4) (opt : BitVec 2) (count : BitVec 12) (s : State) :
    Host.Outcome State Fault Refusal :=
  .next (pushCommand s (.dupd h a b isp gsp ty opt count) h 4 a false 3 b false 4 fun v _ => darnerTrap v 3 isp gsp ty opt)

/-- `dord` (R186). -/
def execDord (h : Hdr) (a b : Reg) (isp gsp : BitVec 2) (ty : BitVec 4) (opt : BitVec 2) (count : BitVec 12) (s : State) :
    Host.Outcome State Fault Refusal :=
  .next (pushCommand s (.dord h a b isp gsp ty opt count) h 4 a false 4 b false 4 fun v _ => darnerTrap v 4 isp gsp ty opt)

/-- The trap at push of `xall`, from the values read (R188). -/
def checkXall (isp : BitVec 2) (v : List W64) : Option Nat :=
    let x (i : Nat) := (v.getD i 0).toNat
    firstTrap [localPlace isp.toNat (x 0), baseTrap (x 1) 32, barTrap (x 2)]

/-- `xall` (R188). -/
def execXall (h : Hdr) (a b : Reg) (kb : Bool) (isp : BitVec 2) (nb1 : BitVec 6) (sft : BitVec 5) (count : BitVec 12) (s : State) :
    Host.Outcome State Fault Refusal :=
  .next (pushCommand s (.xall h a b kb isp nb1 sft count) h 5 a false 2 b kb 1 fun v _ => checkXall isp v)

/-- Bytes of a weight record; 0 for a type outside the kind's list (R190). -/
def recordSize (kind ty : Nat) : Nat :=
  if kind = 0 then
    (match ty with
     | 5 => 5120 | 9 => 4096 | 3 => 8192 | 4 => 8192 | 8 => 8192 | 1 => 16384 | 2 => 16384
     | _ => 0)
  else if ty = 1 ∨ ty = 3 then (if kind = 1 then 3200 else 4224) else 0

/-- The trap at push of `wload`, from the values read (R190). -/
def checkWload (tiles : BitVec 16) (ty : BitVec 4) (kind : BitVec 2) (v : List W64) : Option Nat :=
    let x (i : Nat) := (v.getD i 0).toNat
    firstTrap [baseTrap (x 0) 32, localBarTrap (x 1), need (tiles != 0 && recordSize kind.toNat ty.toNat != 0) 0x08]

/-- `wload` (R190). -/
def execWload (h : Hdr) (a b : Reg) (ka kb : Bool) (tiles : BitVec 16) (ty : BitVec 4) (kind : BitVec 2) (s : State) :
    Host.Outcome State Fault Refusal :=
  .next (pushCommand s (.wload h a b ka kb tiles ty kind) h 5 a ka 1 b kb 1 fun v _ => checkWload tiles ty kind v)

/-- The trap at push of `wtbl`, from the values read (R189). -/
def checkWtbl (src : BitVec 2) (ty : BitVec 4) (n1 first : BitVec 6) (v : List W64) : Option Nat :=
    let x (i : Nat) := (v.getD i 0).toNat
    firstTrap [localPlace src.toNat (x 0), need (ty != 1 || x 0 % 2 == 0) 0x05, localBarTrap (x 1),
      need ((ty == 1 || ty == 3) && decide (first.toNat + n1.toNat + 1 ≤ 64)) 0x08]

/-- `wtbl` (R189). -/
def execWtbl (h : Hdr) (a b : Reg) (ka kb : Bool) (src : BitVec 2) (ty : BitVec 4) (n1 first : BitVec 6) (s : State) :
    Host.Outcome State Fault Refusal :=
  .next (pushCommand s (.wtbl h a b ka kb src ty n1 first) h 5 a ka 1 b kb 1 fun v _ => checkWtbl src ty n1 first v)

/-! ## Masters -/

/-- The context of a table engine's accesses to base memory (R172). -/
def baseCtx (c : Ctx) : Ctx := { c with view := 0 }

/-- Whether an address lies in a job-queue or request-queue window, which reads zeros (R203). -/
def inWindow (s : State) (va : Nat) : Bool :=
  match locOf va with
  | .here q off => (match spotOf s q off with | .jobWindow _ _ | .rqWindow _ _ => true | _ => false)
  | _ => false

/-- The leaf and the physical address behind an address, for a table engine (R170); a walk through a slice under test holds it (R361). A window
has neither: a number that is no physical address stands for its place. What the engine may not name is ACCESS (log entry 131). -/
def masterPlace (c : Ctx) (va : Nat) : Eng (Nat × Nat) := do
  let s ← get
  if strays va 1 true then throw (.trap 0x06)
  match locOf va with
  | .here q off =>
    if inWindow s va then pure (0, 2 ^ 48 + off)
    else if waitsWalk s c va 1 then throw .wait
    else match leafAt s q c.asid off with
    | some (pte, _) => do
      set (noteLeaf s q c.asid off)
      pure (pte, leafPa pte off)
    | none => throw (.page 0 va)
  | _ => throw (.page 0 va)

/-- Reads bytes of one sector of a master, past every cache of the die (R298). -/
def masterPiece (c : Ctx) (va n : Nat) : Eng (List Byte) := do
  let (pte, pa) ← masterPlace c va
  let s ← get
  if inWindow s va then pure (List.replicate n 0)
  else if s.failing.contains (pa / 32) then
    let (t, r) := meetError s (pa / 2 ^ 46) pte pa
    set t
    match r with
    | some bs => pure ((bs.drop (pa % 32)).take n)
    | none => throw (.trap 0x0F)
  else pure (memBytes s.mem pa n)

/-- Reads a list of pieces of masters. -/
def masterPieces (c : Ctx) : List (Nat × Nat) → Eng (List Byte)
  | [] => pure []
  | (va, n) :: r => do
    let a ← masterPiece c va n
    let b ← masterPieces c r
    pure (a ++ b)

/-- Reads `n` bytes of a master. -/
def masterRead (c : Ctx) (va n : Nat) : Eng (List Byte) := masterPieces c (piecesOf va n)

/-- Writes a master (R185, R298); what cannot be performed retires into the side log (R170). -/
def masterWrite (c : Ctx) (va : Nat) (bs : List Byte) (id : Nat) : Eng Unit := do
  let s ← get
  let e : SideEntry := { ctx := c, va := va, op := .bytes bs, hint := 3, seq := id, reg := none, kind := 5, seen := 0, cont := false }
  if strays va bs.length true then throw (.trap 0x06)
  else if logBusy s c then set (retire s e)
  else if waitsWalk s c va bs.length then throw .wait
  else match masterPuts c va bs (piecesOf va bs.length) s with
  | (s, .ok ()) => set s
  | (s, .error (.fault k va')) => set (retire (faultFor s c va' 5 k) { e with va := va', op := opFrom va va' e.op, seen := s.retries + 1 })
  | (s, .error _) => set (retire (faultFor s c va 5 0) { e with seen := s.retries + 1 })

/-! ## Hot rows and sketches -/

/-- The gleaner slot that holds a physical place; slot 0 outside the LPDDR6 tier (R178, R180). -/
def gleanerOf (pa : Nat) : Nat :=
  let o := pa % 2 ^ 46
  if 0x100000000000 ≤ o ∧ o < 0x120000000000 then (o - 0x100000000000) / 2 ^ 39 % 4 else 0

/-- The entry size of the pool for a row stride; 0 when rows are too long (R294). -/
def poolSize (rs : Nat) : Nat := if rs ≤ 64 then 64 else if rs ≤ 128 then 128 else if rs ≤ 256 then 256 else if rs ≤ 512 then 512 else 0

/-- Sets of the pool of an entry size (R294). -/
def poolSets (s : State) (q e : Nat) : Nat :=
  let v := mgetN s q regHrCfg
  let g := if e = 64 then nfld v 0 8 else if e = 128 then nfld v 8 8 else if e = 256 then nfld v 16 8 else nfld v 24 8
  g * 2 ^ 30 / (8 * e)

/-- Whether the hot-row cache of a quarter holds a row (R177, R297). -/
def isHot (s : State) (q pa rs : Nat) : Bool := (quarter s q).hot.any fun h => h.pa == pa && h.size == poolSize rs

/-- A row that is held has been used (R294). -/
def useHot (s : State) (q pa rs : Nat) : State :=
  if isHot s q pa rs then
    modQuarter { s with nextSeq := s.nextSeq + 1 } q fun x => { x with
      hot := x.hot.map fun h => if h.pa = pa ∧ h.size = poolSize rs then { h with used := s.nextSeq } else h }
  else s

/-- The rows that share a set with a row (R294). -/
def hotSet (s : State) (q pa e : Nat) : List HotRow :=
  let n := poolSets s q e
  (quarter s q).hot.filter fun h => h.size == e && h.pa / e % n == pa / e % n

/-- The least of some rows by a number. -/
def leastBy (f : HotRow → Nat) : List HotRow → Option HotRow
  | [] => none
  | a :: r => match leastBy f r with
    | none => some a
    | some b => if f a ≤ f b then some a else some b

/-- Admits a row that is absent: it replaces the least recently used unpinned way of a full set (R294). -/
def admitRow (s : State) (q pa rs : Nat) (pin : Bool) : State :=
  let e := poolSize rs
  if e = 0 ∨ poolSets s q e = 0 ∨ isHot s q pa rs then s else
  let set := hotSet s q pa e
  let row : HotRow := { pa := pa, size := e, pinned := if pin then some s.nextSeq else none, used := s.nextSeq }
  let add (s : State) (gone : Option HotRow) : State :=
    modQuarter { s with nextSeq := s.nextSeq + 1 } q fun x => { x with
      hot := (match gone with | some g => x.hot.filter (· != g) | none => x.hot) ++ [row] }
  if set.length < 8 then add s none
  else match leastBy (·.used) (set.filter fun h => h.pinned.isNone) with
    | some g => add s (some g)
    | none => s

/-- `hrpin` of one row (R182). A row that is pinned already counts as pinned now (DESIGN CHOICE, log entry 124); the pin of a row that is present is
no use of it for replacement (DESIGN CHOICE, log entry 154). -/
def pinRow (s : State) (q pa rs : Nat) : State :=
  let e := poolSize rs
  if isHot s q pa rs then
    modQuarter { s with nextSeq := s.nextSeq + 1 } q fun x => { x with
      hot := x.hot.map fun h => if h.pa = pa ∧ h.size = e then { h with pinned := some s.nextSeq } else h }
  else if e = 0 ∨ poolSets s q e = 0 then s
  else
    let pinned := (hotSet s q pa e).filter fun h => h.pinned.isSome
    let s := if pinned.length < 8 then s else
      match leastBy (fun h => h.pinned.getD 0) pinned with
      | some g => modQuarter s q fun x => { x with hot := x.hot.map fun h => if h = g then { h with pinned := none } else h }
      | none => s
    admitRow s q pa rs true

/-- `hrfree` of one row (R182). -/
def freeRow (s : State) (q pa rs : Nat) : State :=
  modQuarter s q fun x => { x with hot := x.hot.map fun h => if h.pa = pa ∧ h.size = poolSize rs then { h with pinned := none } else h }

/-- The places of a row's four counters, in units of R296. -/
def sketchPlaces (row : Nat) : List Nat :=
  [0x9E3779B1, 0x85EBCA77, 0xC2B2AE3D, 0x27D4EB2F].map fun c => row * c % 2 ^ 32 / 2 ^ 18

/-- The number of counter `p` of row `j` of a slot's sketch on a gleaner. -/
def sketchKey (g slot j p : Nat) : Nat := 65536 * (64 * g + slot) + 16384 * j + p

/-- Whether a slot's sketch on a gleaner is due to halve (R296). -/
def halveDue (s : State) (q g slot : Nat) : Bool :=
  let period := mgetN s q regPeriod % 2 ^ 32
  period != 0 && decide (period ≤ fgetD (quarter s q).sketchAdds (64 * g + slot) 0)

/-- Every counter of a slot on a gleaner halves, and its count restarts (R296). -/
def halveSlot (s : State) (q g slot : Nat) : State :=
  if ¬ halveDue s q g slot then s else
  modQuarter s q fun x => { x with
    sketch := (x.sketch.map fun k => if k.1 / 65536 = 64 * g + slot then (k.1, k.2 / 2) else k).filter fun k => k.2 != 0,
    sketchAdds := fdel x.sketchAdds (64 * g + slot) }

/-- SKETCH_HALVE: after `sk.period` adds to a slot every counter of that slot halves (R296). -/
def execSketchHalve (q slot : Nat) (s : State) : Host.Outcome State Fault Refusal :=
  .next ([0, 1, 2, 3].foldl (fun s g => halveSlot s q g slot) s)

/-- A read counts in its slot's sketch; the estimate after the add (R296). -/
def sketchAdd (s : State) (q g slot row : Nat) : State × Nat :=
  let s := halveSlot s q g slot
  let keys := (sketchPlaces row).zipIdx.map fun x => sketchKey g slot x.2 x.1
  let m := keys.foldl (fun m k => fput m k (min (fgetD m k 0 + 1) 0xFFFF)) (quarter s q).sketch
  (modQuarter s q fun x => { x with
      sketch := m, sketchAdds := fput x.sketchAdds (64 * g + slot) (fgetD x.sketchAdds (64 * g + slot) 0 + 1) },
   keys.foldl (fun e k => min e (fgetD m k 0)) 0xFFFF)

/-- The logged decision of a command in a replay (R379), with its place: none outside a replay. -/
def decision (s : State) (c : Cmd) (kind : Nat) (pick : Nat → Bool) : Option (Option (Nat × Nat)) :=
  match findJob s c.ctx.job with
  | none => none
  | some j => if j.replay then some ((logItem s j kind c.workid.toNat c.ctx.view c.ord pick).map fun a => (a, leNat (cohBytes s a 64))) else none

/-- A logged decision that is taken is used up. -/
def useDecision (s : State) (c : Cmd) : Option (Option (Nat × Nat)) → State
  | some (some x) => useItem s c.ctx.job x.1
  | _ => s

/-- The quarter that a table's base names. -/
def baseQuarter (base : Nat) : Nat := nfld base 46 2

/-- The address of row `i` of a table (R174). -/
def rowAt (base : W64) (t : TableWord) (i : Nat) : Nat := (base + w64 (i * t.rs)).toNat

/-- The physical places of pieces of masters, each with its bytes: a row that goes on in another page goes on where that page leads. -/
def masterPlaces (c : Ctx) : List (Nat × Nat) → Eng (List (Nat × Nat))
  | [] => pure []
  | (va, n) :: r => do
    let (_, pa) ← masterPlace c va
    let l ← masterPlaces c r
    pure ((pa, n) :: l)

/-- Reads row `i` (R175): its hot copy, where the die path finds one (R177), else its master. The two hold the same bytes (R295); a read of the
hot copy meets no error of the master. The far path, the gathers and the Darner read the master (DEDUCED, log entry 110). -/
def readRow (c : Ctx) (die : Bool) (base : W64) (t : TableWord) (i : Nat) : Eng (Nat × List Byte) := do
  let va := rowAt base t i
  let q := baseQuarter base.toNat
  let (_, pa) ← masterPlace (baseCtx c) va
  let s ← get
  if die ∧ isHot s q pa t.rs then
    set (useHot s q pa t.rs)
    let places ← masterPlaces (baseCtx c) (piecesOf va t.rb)
    pure (pa, places.flatMap fun x => memBytes s.mem x.1 x.2)
  else
    let bs ← masterRead (baseCtx c) va t.rb
    pure (pa, bs)

/-- What a row's hot copy takes over when it is admitted, piece by piece: the bytes read, substitutes in place of sectors that cannot be corrected
(R170, R295). The master keeps its error. -/
def copyHot : List (Nat × Nat) → List Byte → State → State
  | [], _, s => s
  | (pa, n) :: r, bs, s => copyHot r (bs.drop n) (if s.failing.contains (pa / 32) then { s with mem := memPutAll s.mem pa (bs.take n) } else s)

/-- Reads row `i` as `gpool`, `gdeq` and `grank` do: it counts in the sketch, which may let it in (R177, R296). -/
def readCounted (c : Cmd) (die : Bool) (base : W64) (t : TableWord) (i : Nat) : Eng (List Byte) := do
  let (pa, bs) ← readRow c.ctx die base t i
  let q := baseQuarter base.toNat
  let (s, e) := sketchAdd (← get) q (gleanerOf pa) t.slot i
  set s
  let limit := mgetN s q regAdmit % 2 ^ 16
  let logged := decision s c 6 fun h => nfld h 192 64 == pa
  let take : Bool := match logged with
    | none => limit != 0 && decide (limit ≤ e) && !isHot s q pa t.rs
    | some x => x.isSome && !isHot s q pa t.rs
  if take then
    let places ← masterPlaces (baseCtx c.ctx) (piecesOf (rowAt base t i) t.rb)
    let s' := admitRow (← get) q pa t.rs false
    set (if isHot s' q pa t.rs then captureItem (useDecision (copyHot places bs s') c logged) c.ctx.job 6 0 c.workid c.ctx.view c.ord pa 0 [] else s')
  pure bs

/-- The FP32 codes of a row's elements (R175). -/
def decodeRow (t : TableWord) (bs : List Byte) : List Nat :=
  let codes := unpackBits (tyWidth t.fmt) t.dim (leNat (bs.take t.re))
  if hasTrailer t.fmt then
    let tr := leNat ((bs.drop t.re).take 4)
    let sc := decodeF 1 (tr % 2 ^ 16)
    let o := decodeF 1 (tr / 2 ^ 16)
    codes.map fun k => rneF 0 (addV (mulV sc (decodeT t.fmt k)) o)
  else codes.map fun k => rneF 0 (decodeF t.fmt k)

/-- FP32 codes written as a type, packed (R176). -/
def encodeRow (ty : Nat) (l : List Nat) : List Byte :=
  leBytes (l.length * tyWidth ty / 8) (packBits (tyWidth ty) (l.map fun k => rneF ty (decodeF 0 k)))

/-- An index at or above rows is counted at the gleaner that holds the page of the table base (R178). -/
def countOor (c : Ctx) (base : W64) : Eng Unit := do
  let (_, pa) ← masterPlace (baseCtx c) base.toNat
  modify fun s => mbump s (baseQuarter base.toNat) (regOor (gleanerOf pa)) 32

/-- Reads a UINT32 of a list. -/
def listWord (c : Ctx) (sp : Nat) (base : W64) (k : Nat) : Eng Nat := do
  let bs ← placeRead c sp (base + w64 (4 * k)) 4 0
  pure (leNat bs)

/-! ## Gathers -/

/-- The valid rows of positions `p` to `p + n - 1` of an index list (R176, R178). -/
def bagRows (c : Ctx) (isp : Nat) (idx base : W64) (t : TableWord) : Nat → Nat → Eng (List Nat)
  | 0, _ => pure []
  | n + 1, p => do
    let i ← listWord c isp idx p
    if i = 0xFFFFFFFF then bagRows c isp idx base t n (p + 1)
    else if t.rows ≤ i then do
      countOor c base
      bagRows c isp idx base t n (p + 1)
    else do
      let l ← bagRows c isp idx base t n (p + 1)
      pure (i :: l)

/-- Counts the rows that the hot-row cache holds (R177). -/
def hotCount (c : Ctx) (base : W64) (t : TableWord) : List Nat → Eng Nat
  | [] => pure 0
  | i :: r => do
    let (_, pa) ← masterPlace (baseCtx c) (rowAt base t i)
    let n ← hotCount c base t r
    pure (n + if isHot (← get) (baseQuarter base.toNat) pa t.rs then 1 else 0)

/-- Adds rows to an accumulator in order (R176). -/
def sumRows (c : Cmd) (die : Bool) (base : W64) (t : TableWord) : List Nat → List Nat → Eng (List Nat)
  | acc, [] => pure acc
  | acc, i :: r => do
    let bs ← readCounted c die base t i
    sumRows c die base t (acc.zipWith add32 (decodeRow t bs)) r

/-- The path of a bag: true for the die path (R177). -/
def bagPath (c : Cmd) (base : W64) (t : TableWord) (b : Nat) (rows : List Nat) : Eng Bool := do
  let h ← hotCount c.ctx base t rows
  let s ← get
  let th := mgetN s (baseQuarter base.toNat) regThresh % 32
  let own := !rows.isEmpty && decide (th * rows.length ≤ 16 * h)
  let logged := decision s c 5 fun h => nfld h 256 64 / 2 == b
  let path := match logged with
    | some (some x) => nfld x.2 256 64 % 2 == 1
    | _ => own
  set (captureItem (useDecision s c logged) c.ctx.job 5 0 c.workid c.ctx.view c.ord base.toNat (2 * b + if path then 1 else 0) [])
  pure path

/-- One bag of `gpool` (R176): `path` is some when the form forces it. -/
def poolBag (c : Cmd) (path : Option Bool) (isp dst ty : Nat) (mean : Bool) (b : Nat) : Eng Unit := do
  let base := cval64 c 0
  let t := tableOf (cval c 1)
  let lo ← listWord c.ctx isp (cval64 c 3) b
  let hi ← listWord c.ctx isp (cval64 c 3) (b + 1)
  let rows ← bagRows c.ctx isp (cval64 c 2) base t (hi - lo) lo
  let die ← match path with
    | some d => pure d
    | none => bagPath c base t b rows
  if die ∧ (part (← get) c.ctx.part).preempted then throw .wait
  let acc ← sumRows c die base t (List.replicate t.dim 0) rows
  let acc := if mean ∧ rows ≠ [] then acc.map fun x => rneF 0 (divV (decodeF 0 x) (ofInt rows.length)) else acc
  let ob := t.dim * tyWidth ty / 8
  placeWrite c.ctx dst (cval64 c 4 + w64 (b * ob)) (encodeRow ty acc) 0 5 c.id

/-- Takes leave of class 1 for a command that starts, unless its partition holds it (R173): step 0 asks, step 1 waits. -/
def startLeave (r : Run) : Eng Run := do
  let s ← get
  let p := r.cmd.ctx.part
  if r.step = 0 ∧ ¬ nbit (part s p).leave 1 then
    set (askLeave s p 1 (some r.cmd.id))
    pure { r with state := .waiting, step := 1 }
  else if r.step = 1 ∧ ¬ r.tookLeave then throw .wait
  else pure { r with state := .waiting, step := 2 }

/-- `gpool` (R176, R171): leave first, then a bag at each attempt, the first as soon as it finds its leave granted (R263). -/
def workGpool (r : Run) (path : Option Bool) (isp dst ty : Nat) (mean : Bool) (bags : Nat) : Eng Run := do
  if r.step = 0 ∨ (r.step = 1 ∧ ¬ r.tookLeave) then startLeave r
  else
    let n := max r.step 2
    if bags ≤ n - 2 then pure (r.finish (bags * ((tableOf (cval r.cmd 1)).dim * tyWidth ty / 8)))
    else do
      poolBag r.cmd path isp dst ty mean (n - 2)
      pure { r with state := .waiting, step := n + 1 }

/-- The entries of `gdeq` and `grank` (R179). -/
def gatherEntries (c : Cmd) (isp ty : Nat) (list dest : W64) (sp : Nat) (first : W64) : Nat → Eng Unit
  | 0 => pure ()
  | k + 1 => do
    gatherEntries c isp ty list dest sp first k
    let t := tableOf (cval c 1)
    let id ← listWord c.ctx isp list k
    let i := (w64 id - first).toNat
    let row ← if id = 0xFFFFFFFF ∨ t.rows ≤ i then pure (List.replicate t.dim 0) else do
      let bs ← readCounted c false (cval64 c 0) t i
      pure (decodeRow t bs)
    placeWrite c.ctx sp (dest + w64 (k * (t.dim * tyWidth ty / 8))) (encodeRow ty row) 0 5 c.id

/-- `gdeq` (R179). -/
def workGdeq (r : Run) (isp dst ty count : Nat) : Eng Run := do
  gatherEntries r.cmd isp ty (cval64 r.cmd 2) (cval64 r.cmd 3) dst 0 count
  pure (r.finish (count * ((tableOf (cval r.cmd 1)).dim * tyWidth ty / 8)))

/-- `grank` (R179). -/
def workGrank (r : Run) (isp dst ty count : Nat) : Eng Run := do
  gatherEntries r.cmd isp ty (cval64 r.cmd 2) (cval64 r.cmd 4) dst (cval64 r.cmd 3) count
  pure (r.finish (count * ((tableOf (cval r.cmd 1)).dim * tyWidth ty / 8)))

/-! ## Sketch scan -/

/-- Set bits of a number. -/
def popBits : Nat → Nat → Nat
  | 0, _ => 0
  | f + 1, v => v % 2 + popBits f (v / 2)

/-- The sketches of items 0 to `n - 1`: gleaner slot, id and sketch (R180). -/
def scanItems (c : Ctx) (base : W64) (first : Nat) : Nat → Eng (List (Nat × Nat × Nat))
  | 0 => pure []
  | n + 1 => do
    let l ← scanItems c base first n
    let va := (base + w64 (32 * n)).toNat
    let (_, pa) ← masterPlace (baseCtx c) va
    let bs ← masterRead (baseCtx c) va 32
    pure (l ++ [(gleanerOf pa, first + n, leNat bs)])

/-- The items that the bitmap lets through (R180). -/
def scanFilter (c : Ctx) (sp : Nat) (map : W64) : List (Nat × Nat × Nat) → Eng (List (Nat × Nat × Nat))
  | [] => pure []
  | x :: r => do
    let b ← placeRead c sp (map + w64 (x.2.1 / 8)) 1 0
    let l ← scanFilter c sp map r
    pure (if nbit (leNat b) (x.2.1 % 8) then x :: l else l)

/-- The matches of a query on a slot, as distance and id, in order (R180). -/
def scanMatches (items : List (Nat × Nat × Nat)) (g query dmax : Nat) : List (Nat × Nat) :=
  sortBy (fun a b => decide (a.1 < b.1 ∨ a.1 = b.1 ∧ a.2 ≤ b.2))
    (((items.filter fun x => x.1 == g).map fun x => (popBits 256 (Nat.xor x.2.2 query), x.2.1)).filter fun m => decide (m.1 ≤ dmax))

/-- UINT32 values in memory order. -/
def words32 (l : List Nat) : List Byte := (l.map fun v => leBytes 4 v).flatten

/-- Writes the lists and count words of queries 0 to `n - 1` (R181). -/
def scanQueries (c : Cmd) (items : List (Nat × Nat × Nat)) (qsp dst dmax k nq : Nat) : Nat → Eng Unit
  | 0 => pure ()
  | n + 1 => do
    scanQueries c items qsp dst dmax k nq n
    let q := leNat (← placeRead c.ctx qsp (cval64 c 2 + w64 (32 * n)) 32 0)
    let ms := (List.range 4).map fun g => scanMatches items g q dmax
    let lists := ms.map fun m =>
      let best := m.take k
      words32 (best.map (·.2) ++ List.replicate (k - best.length) 0xFFFFFFFF) ++ words32 (best.map (·.1) ++ List.replicate (k - best.length) 0xFFFF)
    placeWrite c.ctx dst (cval64 c 4 + w64 (32 * k * n)) lists.flatten 0 5 c.id
    placeWrite c.ctx dst (cval64 c 4 + w64 (32 * k * nq + 16 * n)) (words32 (ms.map List.length)) 0 5 c.id

/-- `gscan` (R180, R181): leave first, then the scan. -/
def workGscan (r : Run) (qsp dst dmax : Nat) (flt : Bool) (nq k : Nat) : Eng Run := do
  if r.step < 2 then startLeave r else do
    let w := cval r.cmd 1
    let items ← scanItems r.cmd.ctx (cval64 r.cmd 0) (nfld w 32 32) (nfld w 0 32)
    let items ← if flt then scanFilter r.cmd.ctx qsp (cval64 r.cmd 3) items else pure items
    scanQueries r.cmd items qsp dst dmax k nq nq
    pure (r.finish (nq * (32 * k + 16)))

/-! ## Hot rows -/

/-- Pins or frees row `i` (R182). An absent row is read to be copied, where its pool has room for any (R170). -/
def hotRow (c : Ctx) (base : W64) (t : TableWord) (pin : Bool) (i : Nat) : Eng Unit := do
  let q := baseQuarter base.toNat
  let (_, pa) ← masterPlace (baseCtx c) (rowAt base t i)
  let s ← get
  if ¬ pin then set (freeRow s q pa t.rs)
  else if isHot s q pa t.rs ∨ poolSets s q (poolSize t.rs) = 0 then set (pinRow s q pa t.rs)
  else
    let bs ← masterRead (baseCtx c) (rowAt base t i) t.rb
    let places ← masterPlaces (baseCtx c) (piecesOf (rowAt base t i) t.rb)
    modify fun s => copyHot places bs (pinRow s q pa t.rs)

/-- `hrpin` and `hrfree` (R182): the checks first, then a row at each attempt (R263). -/
def workHot (r : Run) (pin : Bool) (count : Nat) : Eng Run := do
  let t := tableOf (cval r.cmd 1)
  let f := cval r.cmd 2
  if r.step = 0 then
    shapeCheck (decide (f + count ≤ t.rows ∧ t.rs ≤ 512))
    pure { r with state := .waiting, step := 1 }
  else if count < r.step then pure (r.finish (count * t.rs))
  else
    hotRow r.cmd.ctx (cval64 r.cmd 0) t pin (f + r.step - 1)
    if r.step = count then pure ({ r with step := r.step + 1 }.finish (count * t.rs))
    else pure { r with state := .waiting, step := r.step + 1 }

/-! ## The Darner -/

/-- Rounds to FP32 (R184). -/
def r32 (v : Val) : Nat := rneF 0 v

/-- The value of an FP32 code. -/
def f32 (k : Nat) : Val := decodeF 0 k

/-- The distinct rows of a request in order of first appearance, with their summed gradients (R184). -/
def coalesce (t : TableWord) (gty : Nat) : List Nat → List (List Nat) → List (Nat × List Nat) → List (Nat × List Nat)
  | i :: is, g :: gs, d =>
    if i = 0xFFFFFFFF ∨ t.rows ≤ i then coalesce t gty is gs d else
    let d := if d.any (fun x => x.1 == i) then d else d ++ [(i, List.replicate t.dim 0)]
    coalesce t gty is gs (d.map fun x => if x.1 = i then (i, x.2.zipWith (fun a b => r32 (addV (f32 a) (decodeF gty b))) g) else x)
  | _, _, d => d

/-- The mean square of a gradient (R184). -/
def meanSquare (dim : Nat) (g : List Nat) : Nat :=
  let s := g.foldl (fun s x => r32 (addV (f32 s) (mulV (f32 x) (f32 x)))) 0
  r32 (divV (f32 s) (ofInt dim))

/-- Reads the state of a row (R183): G for `adagrad`; v and m for `adam`. -/
def optState (c : Cmd) (opt : Nat) (t : TableWord) (i : Nat) : Nat × Nat :=
  if opt = 1 then ((cval64 c 2 + w64 (4 * i)).toNat, 4)
  else ((cval64 c 2 + w64 (i * (32 * ceilDiv (4 + 4 * t.dim) 32))).toNat, 4 + 4 * t.dim)

/-- Whether a Darner write of another command to some of these bytes still stands in a side log: its update of a row is not over (R185, R170; DEDUCED,
log entry 155). -/
def darnerPends (s : State) (c : Cmd) (va n : Nat) : Bool :=
  let places (asid va n : Nat) : List (Nat × Nat) := (piecesOf va n).filterMap fun x => (physOf s asid x.1).map (·, x.2)
  let mine := places c.ctx.asid va n
  s.cores.any fun k => (k.2.sideLog ++ k.2.sideHeld).any fun e => e.ctx.agent == .darner && e.seq != c.id &&
    (places e.ctx.asid e.va (opBytes e.op)).any fun a => mine.any fun b => decide (a.1 < b.1 + b.2 ∧ b.1 < a.1 + a.2)

/-- Applies one row of a request (R184, R185), once no earlier update of it is under way. `ps` are lr, eps, b1, b2, c1 and c2. -/
def applyRow (c : Cmd) (opt : Nat) (t : TableWord) (ps : List Nat) (i : Nat) (g : List Nat) : Eng Unit := do
  let b := baseCtx c.ctx
  if darnerPends (← get) c (rowAt (cval64 c 0) t i) t.rb then throw .wait
  let (_, bs) ← readRow c.ctx false (cval64 c 0) t i
  let w := decodeRow t bs
  let pv (k : Nat) : Val := f32 (ps.getD k 0)
  let put (l : List Nat) : Eng Unit := masterWrite b (rowAt (cval64 c 0) t i) (encodeRow t.fmt l) c.id
  if opt = 0 then put (w.zipWith (fun x y => r32 (addV (f32 x) (negV (mulV (pv 0) (f32 y))))) g)
  else
    let (va, n) := optState c opt t i
    if darnerPends (← get) c va n then throw .wait
    let st := unpackBits 32 (n / 4) (leNat (← masterRead b va n))
    let s := meanSquare t.dim g
    if opt = 1 then
      let G := r32 (addV (f32 (st.getD 0 0)) (f32 s))
      let r := r32 (sqrtV (f32 G))
      let d := r32 (addV (f32 r) (pv 1))
      let u := r32 (divV (pv 0) (f32 d))
      put (w.zipWith (fun x y => r32 (addV (f32 x) (negV (mulV (f32 u) (f32 y))))) g)
      masterWrite b va (leBytes 4 G) c.id
    else
      let one : Val := .fin false 1 0
      let mix (k x y : Val) : Nat := r32 (addV (mulV k x) (mulV (addV one (negV k)) y))
      let v := mix (pv 3) (f32 (st.getD 0 0)) (f32 s)
      let m := (st.drop 1).zipWith (fun x y => mix (pv 2) (f32 x) (f32 y)) g
      let r := r32 (sqrtV (mulV (pv 5) (f32 v)))
      let d := r32 (addV (f32 r) (pv 1))
      put (w.zipWith (fun x y => r32 (addV (f32 x) (negV (divV (mulV (mulV (pv 0) (pv 4)) (f32 y)) (f32 d))))) m)
      masterWrite b va (words32 (v :: m)) c.id

/-- Applies rows in order. -/
def applyRows (c : Cmd) (opt : Nat) (t : TableWord) (ps : List Nat) : List (Nat × List Nat) → Eng Unit
  | [] => pure ()
  | (i, g) :: r => do
    applyRow c opt t ps i g
    applyRows c opt t ps r

/-- Counts the indices at or above rows (R178, R184). -/
def countOors (c : Cmd) (t : TableWord) : List Nat → Eng Unit
  | [] => pure ()
  | i :: r => do
    if i ≠ 0xFFFFFFFF ∧ t.rows ≤ i then countOor c.ctx (cval64 c 0)
    countOors c t r

/-- The rows of a request that each gleaner's Darner holds. -/
def splitRows (c : Cmd) (t : TableWord) : List (Nat × List Nat) → Eng (List (Nat × Nat × List Nat))
  | [] => pure []
  | (i, g) :: r => do
    let (_, pa) ← masterPlace (baseCtx c.ctx) (rowAt (cval64 c 0) t i)
    let l ← splitRows c t r
    pure ((gleanerOf pa, i, g) :: l)

/-- The parts of a `dord` at Darners 0 to `n - 1` (R186): `done` has a bit for each part applied or discarded. -/
def orderedParts (c : Cmd) (opt : Nat) (t : TableWord) (ps : List Nat) (rows : List (Nat × Nat × List Nat)) (done : Nat) : Nat → Eng Nat
  | 0 => pure done
  | g + 1 => do
    let done ← orderedParts c opt t ps rows done g
    if nbit done g then pure done else
    let q := baseQuarter (cval c 0)
    let k := nfld (cval c 3) 0 32
    let o := regNext g (nfld (cval c 3) 32 6)
    let nx := mgetN (← get) q o % 2 ^ 32
    if k = nx then do
      applyRows c opt t ps ((rows.filter fun x => x.1 == g).map (·.2))
      modify fun s => mset s q o (w64 ((k + 1) % 2 ^ 32))
      pure (done + 2 ^ g)
    else if (k + 2 ^ 32 - nx) % 2 ^ 32 < 2 ^ 31 then pure done
    else do
      modify fun s => mbump s q (regDdisc g) 32
      pure (done + 2 ^ g)

/-- The index list, the gradients and the parameter block of a request (R183, R187): as released from an outbox, as read before, or
read now. -/
def darnerData (r : Run) (n isp gsp gb count : Nat) : Eng (List (List Byte)) := do
  let c := r.cmd
  if c.held ≠ [] then pure c.held
  else if r.rows ≠ [] then pure r.rows
  else do
    let idx ← placeRead c.ctx isp (cval64 c n) (4 * count) 0
    let grads ← placeRead c.ctx gsp (cval64 c (n + 1)) (count * gb) 0
    let ps ← engRead c.ctx (cval c (n + 2)) 32 0
    pure [idx, grads, ps]

/-- `dupd` and `dord` (R184 to R187); `n` is the number of A reads. In a world the request goes to the outbox. -/
def workDarner (r : Run) (n isp gsp gty opt count : Nat) : Eng Run := do
  let c := r.cmd
  let t := tableOf (cval c 1)
  let gb := gradBytes gty t.dim
  let data ← darnerData r n isp gsp gb count
  let idx := data.getD 0 []
  let grads := data.getD 1 []
  let pb := data.getD 2 []
  if c.ctx.view ≠ 0 then
    match boxAdd (← get) c.ctx.view { item := .darner c idx grads pb, seq := c.id } with
    | none => throw (.trap 0x0C)
    | some s => do
      set s
      pure (r.finish (count * gb))
  else do
    let ids := unpackBits 32 count (leNat idx)
    if r.step = 0 then countOors c t ids
    let w := tyWidth gty
    let d := coalesce t gty ids ((List.range count).map fun p => unpackBits w t.dim (leNat ((grads.drop (p * gb)).take gb))) []
    let ps := unpackBits 32 6 (leNat pb)
    if n = 4 ∧ (← get).ordered then do
      let rows ← splitRows c t d
      let done ← orderedParts c opt t ps rows (r.step % 16) 4
      if done = 15 then pure ({ r with step := 16 + done }.finish (count * gb))
      else pure { r with state := .waiting, step := 16 + done, rows := data }
    else do
      applyRows c opt t ps d
      pure (r.finish (count * gb))

/-! ## The exchange -/

/-- A route entry (R188): receive area, owner's barrier, flags. -/
structure Route where
  area : Nat
  bar : Nat
  flags : Nat
deriving DecidableEq, Repr

/-- Reads route entries 0 to `n - 1`. -/
def routes (c : Ctx) (tab : W64) : Nat → Eng (List Route)
  | 0 => pure []
  | n + 1 => do
    let l ← routes c tab n
    let bs ← engRead c (tab + w64 (32 * n)).toNat 32 0
    let v := leNat bs
    pure (l ++ [{ area := nfld v 0 64, bar := nfld v 64 64, flags := nfld v 128 64 }])

/-- The endpoint entry that a route names (R326). -/
def endpointOf (s : State) (r : Route) : List Byte := cohBytes s (mgetN s 0 regEptab + 32 * nfld r.flags 16 16) 32

/-- The cause of the trap for a route entry (R188, R326), before anything is sent. -/
def routeTrap (s : State) (r : Route) : Option Nat :=
  let off (v : Nat) : Bool := isReserved v || isHost v || isMgmt v
  if nbit r.flags 0 then need (nbit (leNat (endpointOf s r)) 159 && r.bar == 0) 0x06
  else firstTrap [need (!off r.area && !off r.bar) 0x06, need (r.bar % 32 == 0) 0x05]

/-- The first trap among route entries. -/
def routesOk (s : State) : List Route → Option Nat
  | [] => none
  | r :: l => match routeTrap s r with
    | some c => some c
    | none => routesOk s l

/-- Sends the buckets (R188, R326): each owner's add waits for its bucket's writes. -/
def sendBuckets (c : Cmd) : List (Route × List Nat) → Eng Unit
  | [] => pure ()
  | (r, ids) :: l => do
    let s ← get
    let msg := words32 ([ids.length, 0] ++ ids)
    if nbit r.flags 0 then
      let w : Await := { seq := s.nextSeq, word := c.id, part := c.ctx.part, kind := .cmd c.ctx.part 5 c.id, va := r.area, job := c.ctx.job }
      let t : State := { s with nextSeq := s.nextSeq + 1, ethOut := s.ethOut ++ [(s.nextSeq, endpointOf s r ++ leBytes 8 r.area ++ msg)],
                                awaits := s.awaits ++ [w] }
      set t
    else
      let t : State := { s with nextSeq := s.nextSeq + 1 }
      set t
      engWrite c.ctx r.area msg 0 5 s.nextSeq
      modify fun t => modCore t (coreOf c.ctx.part) fun x => { x with
        epiAdds := x.epiAdds ++ [{ cmd := c, bar := r.bar, id := s.nextSeq, count := msg.length, lost := false }] }
    sendBuckets c l

/-- `xall` (R188): it sends, then waits until every owner has acknowledged. -/
def workXall (r : Run) (isp nb sft count : Nat) : Eng Run := do
  let c := r.cmd
  if c.ctx.view ≠ 0 then throw (.trap 0x0A)
  if r.step = 0 then
    let ids := unpackBits 32 count (leNat (← placeRead c.ctx isp (cval64 c 0) (4 * count) 0))
    let rs ← routes c.ctx (cval64 c 1) nb
    match routesOk (← get) rs with
    | some k => throw (.trap k)
    | none => do
      let ids := ids.filter (· != 0xFFFFFFFF)
      sendBuckets c (rs.zipIdx.map fun x => (x.1, ids.filter fun e => e / 2 ^ sft % nb == x.2))
      pure ({ r with state := .waiting, step := 1, count := 8 * nb + 4 * ids.length } : Run)
  else do
    modify fun s => settleAdds s (coreOf c.ctx.part)
    if (core (← get) (coreOf c.ctx.part)).epiAdds.any fun e => e.cmd.id == c.id then throw .wait
    pure (r.finish r.count)

/-! ## The weight path -/

/-- Reads sectors of a weight record through the read-only path (R190, R299), from base memory (R172); its copies are those of view 0
(DESIGN CHOICE, log entry 99). -/
def weightSectors (c : Ctx) (va : Nat) : Nat → Eng (List Byte)
  | 0 => pure []
  | n + 1 => do
    let l ← weightSectors c va n
    let a := va + 32 * n
    if waitsHome (← get) (homeCtx (baseCtx c) a) a 32 false && !roHolds (← get) (baseCtx c) a then throw .wait
    let (s, r) := readOnly (← get) (baseCtx c) a 32 3
    set s
    match r with
    | .ok v => pure (l ++ leBytes 32 v)
    | .error e => throw (stopOf e)

/-- The half-tile of a plain record (R190). -/
def plainTile (ty : Nat) (bs : List Byte) : HalfTile :=
  let n := 8 * tyWidth ty
  { ty := ty, rows := (List.range 128).map fun j => unpackBits (tyWidth ty) 64 (leNat ((bs.drop (j * n)).take n)),
    scales := if ty = 5 then (List.range 128).map fun j => ((bs.drop (4096 + 8 * j)).take 8).map BitVec.toNat else [] }

/-- The half-tile of a codebook record (R190). -/
def bookTile (x : Core) (kind ty : Nat) (bs : List Byte) : HalfTile :=
  let w := if kind = 1 then 3 else 4
  let n := 8 * w
  { ty := ty, scales := [],
    rows := (List.range 128).map fun j =>
      (unpackBits w 64 (leNat ((bs.drop (128 + j * n)).take n))).map fun v => fgetD (fgetD x.tables (bs.getD j 0).toNat []) v 0 }

/-- Checks the table bytes of records 0 to `n - 1` (R190). A table that nothing has loaded has type BF16 (DESIGN CHOICE, log entry 2), and a
byte of 64 or more names no table of type T (DESIGN CHOICE, log entry 123). -/
def checkBooks (c : Cmd) (size ty : Nat) : Nat → Eng Unit
  | 0 => pure ()
  | n + 1 => do
    checkBooks c size ty n
    let bs ← weightSectors c.ctx (cval64 c 0 + w64 (n * size)).toNat 4
    let x := core (← get) (coreOf c.ctx.part)
    shapeCheck (bs.all fun b => decide (b.toNat < 64) && fgetD x.tableTypes b.toNat 1 == ty)

/-- `wload` (R190, R191): one record at each attempt, each of which holds while the buffer holds tiles of another type. The buffer takes the
type when a hold at the start has ended (DESIGN CHOICE, log entry 101). -/
def workWload (r : Run) (kind ty tiles : Nat) : Eng Run := do
  let c := r.cmd
  let k := coreOf c.ctx.part
  let size := recordSize kind ty
  let x := core (← get) k
  if x.weights ≠ [] ∧ x.weightType ≠ some ty then throw .wait
  if r.step = 0 then
    if kind ≠ 0 then checkBooks c size ty tiles
    modify fun s => modCore s k fun x => { x with weightType := some ty }
    pure { r with state := .waiting, step := 1 }
  else if tiles < r.step then pure (r.finish (tiles * size))
  else
    if 8 ≤ (core (← get) k).weights.length then throw .wait
    let bs ← weightSectors c.ctx (cval64 c 0 + w64 ((r.step - 1) * size)).toNat (size / 32)
    modify fun s => modCore s k fun x => { x with weightType := some ty, weights := x.weights ++ [if kind = 0 then plainTile ty bs else bookTile x kind ty bs] }
    if r.step = tiles then pure ({ r with step := r.step + 1 }.finish (tiles * size))
    else pure { r with state := .waiting, step := r.step + 1 }

/-- `wtbl` (R189). -/
def workWtbl (r : Run) (src ty n first : Nat) : Eng Run := do
  let c := r.cmd
  let e := tyWidth ty
  let bs ← placeRead c.ctx src (cval64 c 0) (2 * n * e) 0
  modify fun s => modCore s (coreOf c.ctx.part) fun x => (List.range n).foldl (fun (x : Core) j =>
    let codes := unpackBits e 16 (leNat ((bs.drop (2 * j * e)).take (2 * e)))
    { x with tables := fput x.tables (first + j) (codes.zipIdx.map fun v => (v.2, v.1)), tableTypes := fput x.tableTypes (first + j) ty }) x
  pure (r.finish (2 * n * e))

end Sys2Proof.Machine
end

