-- ==== Sys2Proof/Machine/Engines.lean ====
section
/-! DEFINITION. The start and the completion of commands (R13, R15, R90, R93, R110, R154, R162, R169 to R171): COMMAND_START and
COMMAND_COMPLETE. -/

namespace Sys2Proof.Machine

/-- The work of a vector command (R105 to R121). -/
def workVector (r : Run) : Eng Run :=
  match r.cmd.instr with
  | .vshape _ _ _ _ _ regRows regCols ty cols1 rows1 => workVshape r regRows regCols ty.toNat cols1.toNat rows1.toNat
  | .vld _ _ _ _ _ src vd oq hint => workVld r src.toNat vd oq hint.toNat
  | .vst _ _ _ _ dst va hint => workVst r dst.toNat va hint.toNat
  | .vbcastX _ _ _ vd => workVbcastX r vd
  | .vbcastRow _ vd va n => workVbcastRow r vd va n.toNat
  | .vbcastCol _ vd va n => workVbcastCol r vd va n.toNat
  | .vsel _ vd va vb vc => workVsel r vd va vb vc
  | .vadd _ _ _ sb sat vd va vb => workArith r .add sb sat vd va vb 0
  | .vsub _ _ _ sb sat vd va vb => workArith r .sub sb sat vd va vb 0
  | .vmul _ _ _ sb sat vd va vb => workArith r .mul sb sat vd va vb 0
  | .vfma _ _ _ sb sat vd va vb vc => workArith r .fma sb sat vd va vb vc
  | .vmax _ _ _ sb sat vd va vb => workArith r .max sb sat vd va vb 0
  | .vmin _ _ _ sb sat vd va vb => workArith r .min sb sat vd va vb 0
  | .vabs _ sat vd va => workArith r .abs false sat vd va 0 0
  | .vneg _ sat vd va => workArith r .neg false sat vd va 0 0
  | .vcmp _ _ _ sb sat vd va vb cond => workVcmp r sb sat vd va vb cond.toNat
  | .vand _ _ _ sb vd va vb => workLogic r .and sb vd va vb
  | .vor _ _ _ sb vd va vb => workLogic r .or sb vd va vb
  | .vxor _ _ _ sb vd va vb => workLogic r .xor sb vd va vb
  | .vshl _ _ _ sb vd va vb => workLogic r .shl sb vd va vb
  | .vshr _ _ _ sb vd va vb => workLogic r .shr sb vd va vb
  | .vpopc _ vd va => workLogic r .popc false vd va 0
  | .vcvt _ _ _ vd va ty mode => workVcvt r vd va ty.toNat mode.toNat
  | .vred _ axis sat vd va op => workVred r axis sat vd va op.toNat
  | .vgelu _ vd va ty => workFunction r vd va ty.toNat fun _ => specialV 0
  | .vsilu _ vd va ty => workFunction r vd va ty.toNat fun _ => specialV 1
  | .vsplus _ vd va ty => workFunction r vd va ty.toNat fun _ => specialV 2
  | .vtanh _ vd va ty => workFunction r vd va ty.toNat fun _ => specialV 3
  | .vsigm _ vd va ty => workFunction r vd va ty.toNat fun _ => specialV 4
  | .vexp _ vd va ty => workFunction r vd va ty.toNat fun _ => specialV 5
  | .vrcp _ vd va ty => workFunction r vd va ty.toNat fun _ => rcpV
  | .vrsqrt _ vd va ty => workFunction r vd va ty.toNat fun _ => rsqrtV
  | .vtblld _ _ _ src n => workVtblld r src.toNat n
  | .vtbl _ vd va ty n => workVtbl r vd va ty.toNat n
  | .vtolog _ vd va => workVtolog r vd va
  | .vfrlog _ vd va ty => workVfrlog r vd va ty.toNat
  | .vladd _ _ _ cf vd va vb => workLogAdd r false (cf.toNat % 2 == 1) vd va vb
  | .vlsub _ _ _ cf vd va vb => workLogAdd r true (cf.toNat % 2 == 1) vd va vb
  | .vlshr _ vd va n => workVlshr r vd va n.toNat
  | .vlmul _ _ _ vd va => workVlmul r vd va
  | .vhamm _ vd va vb n => workVhamm r vd va vb n.toNat
  | .vtopk _ desc vd va vb vc k1 => workVtopk r desc vd va vb vc k1.toNat
  | .vfilt _ _ _ _ _ src vd va => workVfilt r src.toNat vd va
  | .vsect _ _ _ hint vd => workVsect r hint.toNat vd
  | .vuniq _ vd va vc => workVuniq r vd va vc
  | .vbkt _ vd va vc nb1 sft => workVbkt r vd va vc nb1.toNat sft.toNat
  | _ => pure (r.finish 0)

/-- The work of a matrix command (R139 to R161). -/
def workMatrix (r : Run) : Eng Run :=
  match r.cmd.instr with
  | .mcfgLevel _ _ _ _ _ lvl => workMcfgLevel r lvl
  | .mcfgNest .. => workMcfgNest r
  | .mshp _ _ _ src n => workMshp r src.toNat n
  | .mshf _ _ _ n field => workMshf r n field.toNat
  | .mgo _ => workMgo r
  | .mrst _ off => workMrst r off.toInt
  | .mrstNone _ => workMrstNone r
  | .maccClr _ n => workMacc r 0 n 0 0
  | .maccSave _ n row half => workMacc r 1 n row.toNat half
  | .maccLoad _ n row half => workMacc r 2 n row.toNat half
  | .mepi _ _ _ _ _ dest => workMepi r dest.toNat
  | .mlqSend _ _ _ n m ty => workMlq r 0 n m ty.toNat
  | .mlqRecv _ _ _ n m ty => workMlq r 1 n m ty.toNat
  | .mlqUnbind _ n => workMlq r 2 n 0 0
  | _ => pure (r.finish 0)

/-- The work of a fetch or table command (R94 to R100, R176 to R191). -/
def workOther (r : Run) : Eng Run :=
  match r.cmd.instr with
  | .cpy _ _ _ _ src dst hint len => workCpy r src.toNat dst.toNat hint.toNat len.toNat
  | .cpy2 _ _ _ src dst rows rowbytes => workCpy2 r src.toNat dst.toNat rows.toNat rowbytes.toNat
  | .cpyg _ _ _ isp dst count rowbytes => workCpyg r isp.toNat dst.toNat count.toNat rowbytes.toNat
  | .oqld _ _ _ _ src hint rows oq => workOqld r src.toNat hint.toNat rows.toNat oq
  | .tsld _ _ _ src hint rows rowbytes => workTsld r src.toNat hint.toNat rows.toNat rowbytes.toNat
  | .tsst _ _ _ _ dst hint rows rowbytes => workTsst r dst.toNat hint.toNat rows.toNat rowbytes.toNat
  | .cbinit _ _ _ n size slots => workCbinit r n size.toNat slots.toNat
  | .gpoolAuto _ _ _ isp dst ty mean bags => workGpool r none isp.toNat dst.toNat ty.toNat mean bags.toNat
  | .gpoolDie _ _ _ isp dst ty mean bags => workGpool r (some true) isp.toNat dst.toNat ty.toNat mean bags.toNat
  | .gpoolFar _ _ _ isp dst ty mean bags => workGpool r (some false) isp.toNat dst.toNat ty.toNat mean bags.toNat
  | .gdeq _ _ _ isp dst ty count => workGdeq r isp.toNat dst.toNat ty.toNat count.toNat
  | .gscan _ _ _ qsp dst dmax flt nq1 k1 => workGscan r qsp.toNat dst.toNat dmax.toNat flt (nq1.toNat + 1) (k1.toNat + 1)
  | .grank _ _ _ isp dst ty count => workGrank r isp.toNat dst.toNat ty.toNat count.toNat
  | .hrpin _ _ _ count => workHot r true count.toNat
  | .hrfree _ _ _ count => workHot r false count.toNat
  | .dupd _ _ _ isp gsp ty opt count => workDarner r 3 isp.toNat gsp.toNat ty.toNat opt.toNat count.toNat
  | .dord _ _ _ isp gsp ty opt count => workDarner r 4 isp.toNat gsp.toNat ty.toNat opt.toNat count.toNat
  | .xall _ _ _ _ isp nb1 sft count => workXall r isp.toNat (nb1.toNat + 1) sft.toNat count.toNat
  | .wload _ _ _ _ _ tiles ty kind => workWload r kind.toNat ty.toNat tiles.toNat
  | .wtbl _ _ _ _ _ src ty n1 first => workWtbl r src.toNat ty.toNat (n1.toNat + 1) first.toNat
  | _ => pure (r.finish 0)

/-- One attempt at the work of a command of queue `k`. -/
def work (k : Nat) (r : Run) : Eng Run := if k = 1 then workVector r else if k = 2 then workMatrix r else workOther r

/-- Replaces a run of queue `k` of partition `p`. -/
def setRun (s : State) (p k : Nat) (r : Run) : State :=
  modQueue s p k fun q => { q with running := q.running.map fun x => if x.cmd.id = r.cmd.id then r else x }

/-- Lets a started command work (R93, R136, R170): it holds on a page, waits, traps, or goes on, and pauses after a row while its partition is
pre-empted; a trap that finds eight pending waits until one is delivered (R368). What it has begun of a row when it holds is done again, and nobody sees it; the rows before stay done. -/
def attempt (s : State) (p k : Nat) (r : Run) : State :=
  match (work k r).go s with
  | (.ok r', t) => retestRings (setRun t p k (r'.pauseIf (part t p).preempted))
  | (.error (.page kind va), _) => setRun (faultFor s r.cmd.ctx va (if k < 3 then 3 else 5) kind) p k { r with state := .held s.retries }
  | (.error .wait, _) => setRun s p k { r with state := .waiting }
  | (.error (.trap cause), t) => if (part s p).pending.length < 8 then engineTrap t r.cmd cause else setRun s p k { r with state := .waiting }

/-- Whether engine `k` of a core has a command of some partition in hand (R110). -/
def engineBusy (s : State) (c k : Nat) : Bool := (partsOf c).any fun p => (cmdQueue s p k).running.any Run.unfinished

/-- A row of `cpy2` completes before the next starts (R96): its writes are performed (R93). -/
def rowPerformed (s : State) (p : Nat) (r : Run) : Bool := match r.cmd.instr with | .cpy2 .. => writesDone s p r.cmd.id | _ => true

/-- Whether a started command of queue `k` may go on (R93, R136, R372); one that has paused goes on once its partition issues again and the
engine is free. -/
def retryable (s : State) (p k : Nat) (r : Run) : Bool :=
  match r.state with
  | .held seen => decide (seen < s.retries)
  | .waiting => true
  | .row => rowPerformed s p r
  | .paused => !(part s p).preempted && !engineBusy s (coreOf p) k && rowPerformed s p r
  | _ => false

/-- Whether a command only writes the shadow nest (R154). -/
def isShadow (i : Instr) : Bool :=
  match i with
  | .mcfgLevel .. | .mcfgNest .. | .mshp .. | .mshf .. | .mepi .. | .mrst .. | .mrstNone .. => true
  | _ => false

/-- Whether a header carries a ring bit. -/
def hasRing (h : Hdr) : Bool := h.wp || h.wn || h.sp || h.sn

/-- Whether queue `k`'s engine is free for a command (R13, R110, R154, R162, R169): the queue's last command is complete, and no other partition's
command has the core's fetch engine, vector engine or mangle. -/
def engineFree (s : State) (p k : Nat) (c : Cmd) : Bool :=
  let running := (cmdQueue s p k).running
  if k = 3 then decide (running.length < 4)
  else if k < 3 ∧ engineBusy s (coreOf p) k then false
  else if k = 2 ∧ isShadow c.instr ∧ ¬ hasRing (hdrOf c.word0) then
    running.all fun r => r.state != .posting && match r.cmd.instr with | .mgo _ => true | _ => false
  else running.isEmpty

/-- Whether the weight path lets a command start (R189, R191). -/
def weightFree (s : State) (p : Nat) (c : Cmd) : Bool :=
  match c.instr with
  | .wload .. => (match (core s (coreOf p)).holder with | some h => h == p | none => true)
  | .wtbl .. => !(partsOf (coreOf p)).any fun x => (cmdQueue s x 5).running.any fun r => match r.cmd.instr with | .wload .. => true | _ => false
  | _ => true

/-- Whether a pending change of the hot-row pools keeps a table command from starting (R294). -/
def poolsChange (s : State) (k : Nat) (c : Cmd) : Bool :=
  (k == 3 || k == 4) && (List.range 4).any fun q => (quarter s q).hrPending.isSome && tableOfQuarter c q

/-- The command that queue `k` of partition `p` may start now, with the tokens left after it takes its own (R13, R15, R162, R164,
R171, R369). -/
def nextStart (s : State) (p k : Nat) : Option (Cmd × FMap Nat) :=
  let x := part s p
  let q := cmdQueue s p k
  match q.queued with
  | [] => none
  | c :: _ =>
    if q.frozen ∨ x.preempted ∨ x.lostMangle ∧ k < 3 ∨ ¬ engineFree s p k c ∨ poolsChange s k c ∨ ¬ weightFree s p c ∨ (k = 2 ∧ ¬ mangleFree s p) then none
    else if 3 ≤ k then some (c, x.tokens)
    else
      let h := hdrOf c.word0
      (takeTokens x.tokens (k + 1) h.wp h.wn).map fun m => (c, m)

/-- Starts the next command of a queue, or tries again those that hold or wait (R13, R93). Tokens it takes make room for posts (R16). -/
def startCommand (s : State) (p k : Nat) : State :=
  match nextStart s p k with
  | some (c, m) =>
    let r : Run := { cmd := c, count := 0, state := .waiting, tookLeave := false, lost := false, added := false, step := 0, rows := [],
                     formats := if k = 0 then (core s (coreOf p)).formats else [] }
    let s := modQueue (postReady (modPart s p fun x => { x with tokens := m }) p) p k fun q => { q with queued := q.queued.tail, running := q.running ++ [r] }
    let s := if k = 2 ∧ (core s (coreOf p)).holder.isSome then holdMangle s p else s
    attempt s p k r
  | none => ((cmdQueue s p k).running.filter (retryable s p k)).foldl (fun s r => attempt s p k r) s

/-- COMMAND_START (R13). -/
def execCommandStart (p cq : Nat) (s : State) : Host.Outcome State Fault Refusal := .next (startCommand s p cq)

/-! ## Completion -/

/-- The barrier operand of a command that makes an add when it completes (R93, R138, R169); a request released from an outbox has made
its add in the world (R187). -/
def barrierOf (c : Cmd) : Nat :=
  if c.held ≠ [] then 0 else
  match c.instr with
  | .cpy .. | .cpy2 .. | .cpyg .. | .oqld .. | .tsld .. | .tsst .. | .vst .. | .vsect .. | .gpoolAuto .. | .gpoolDie .. | .gpoolFar ..
  | .gdeq .. | .gscan .. | .grank .. | .hrpin .. | .hrfree .. | .dupd .. | .dord .. | .xall .. | .wload .. | .wtbl .. =>
    (c.vals.getLast?.getD 0).toNat
  | _ => 0

/-- The run of a command. -/
def findRun (s : State) (p k id : Nat) : Option Run := (cmdQueue s p k).running.find? fun r => r.cmd.id == id

/-- A nest that has finished is off the mangle (R153). -/
def nestEnds (s : State) (p k id : Nat) : State :=
  let s := settleAdds s (coreOf p)
  match findRun s p k id with
  | some r =>
    if r.state = .nest ∧ nestFinished s (coreOf p) id then
      setRun (modCore s (coreOf p) fun c => { c with nest := none }) p k { r with state := .done, added := true }
    else s
  | none => s

/-- The barrier add, once the writes are performed (R93); a lost write keeps the add away (R313). -/
def addDue (s : State) (p k id : Nat) : State :=
  match findRun s p k id with
  | some r =>
    if r.state = .done ∧ ¬ r.added ∧ writesDone s p id then
      let s := setRun s p k { r with added := true }
      if r.lost then s else barrierAddFor s r.cmd (barrierOf r.cmd) r.count id
    else s
  | none => s

/-- What else comes with completion: a circular buffer's slot is filled (R101), leave returns (R173), a released Darner request is
answered (R351). -/
def settle (s : State) (p k id : Nat) : State :=
  match findRun s p k id with
  | some r =>
    if r.state = .done ∧ r.added ∧ writesDone s p id then
      let s := setRun s p k { r with state := .posting, tookLeave := false }
      let s := dropLeave s p r
      let s := if r.cmd.held = [] then s else darnerReleased s id
      match r.cmd.instr with
      | .cpy _ _ _ _ _ dst _ _ => if dst = 2 then
          (let n := cval r.cmd 1
           setCirc s p n { circOf s p n with filled := (circOf s p n).filled + 1 }) else s
      | _ => s
    else s
  | none => s

/-- The token posts of a completed command, once there is room (R15, R16). -/
def postDue (s : State) (p k id : Nat) : State :=
  match findRun s p k id with
  | some r =>
    if r.state ≠ .posting then s else
    let h := hdrOf r.cmd.word0
    match if k < 3 then putTokens (part s p).tokens (k + 1) h.sp h.sn else some (part s p).tokens with
    | some m => modQueue (modPart s p fun x => { x with tokens := m }) p k fun q => { q with running := q.running.filter fun x => x.cmd.id != id }
    | none => s
  | none => s

/-- A command of the gleaner queue, where up to four run together in no order (R169), goes on with its work alone. -/
def goOn (s : State) (p k id : Nat) : State :=
  match findRun s p k id with
  | some r => if k = 3 ∧ retryable s p k r then attempt s p k r else s
  | none => s

/-- A command completes (R15, R93). -/
def completeCommand (s : State) (p k id : Nat) : State :=
  let s := goOn s p k id
  postDue (settle (addDue (nestEnds s p k id) p k id) p k id) p k id

/-- COMMAND_COMPLETE (R93). -/
def execCommandComplete (p cq id : Nat) (s : State) : Host.Outcome State Fault Refusal := .next (completeCommand s p cq id)

end Sys2Proof.Machine
end

