-- ==== Sys2Proof/Machine/Issue.lean ====
section
/-! DEFINITION. Fetching a word and making ready its issue (R33, R285, R371), and the steps of the control core without a word:
REGISTER_WRITE_LANDING, HELD_WORD_RESUME, STOP_SPACING, PENDING_TRAP_DELIVERY, FAIRNESS_DUE, FAIRNESS_WINDOW_END, ISSUE_PASS and
WATCHDOG_EXPIRY. -/

namespace Sys2Proof.Machine

/-! ## Fetch -/

/-- What a fetch of one word finds. -/
inductive FetchedWord where
  | word (w : Nat)
  /-- ACCESS: the page may not be executed, or the place is none that a fetch may name (R5, R285). -/
  | denied (va : Nat)
  /-- No valid mapping: the partition holds (R371). -/
  | unmapped (va : Nat)
  /-- An uncorrectable error. -/
  | bad
  /-- The home of the word is under test (R361). -/
  | busy
deriving DecidableEq, Repr

/-- Whether the page of an address may be executed; none where no valid mapping leads to it (R285). -/
def mayExecute (s : State) (asid va : Nat) : Option Bool :=
  match locOf va with
  | .here q off =>
    match spotOf s q off with
    | .memory => (leafAt s q asid off).map fun x => nbit x.1 9
    | .mgmt => some false
    | _ => some true
  | _ => some false

/-- The translation that a fetch makes where it reads nothing (R286). -/
def noteFetch (s : State) (asid va : Nat) : State :=
  match locOf va with
  | .here q off => if spotOf s q off = .memory then noteLeaf s q asid off else s
  | _ => s

/-- Fetches one word (R285, R338); a home under test holds it (R361). From a failing sector of a tolerant page the substitute is fetched, and counted,
as any read of it (DESIGN CHOICE, log entry 75). -/
def fetchWord (s : State) (c : Ctx) (va : Nat) : State × FetchedWord :=
  if waitsHome s c va 4 false then (s, .busy) else
  match mayExecute s c.asid va with
  | none => (noteFetch s c.asid va, .unmapped va)
  | some false => (noteFetch s c.asid va, .denied va)
  | some true =>
    match readVa s c va 4 0 with
    | (s, .ok bs) => (s, .word (leNat bs))
    | (s, .error (.bad _)) => (s, .bad)
    | (s, .error _) => (s, .unmapped va)

/-- What the fetch of an instruction finds. -/
inductive Fetched where
  | instr (i : Instr)
  /-- No instruction (R33): its words and its stop flag. -/
  | illegal (w0 w1 : Nat)
  /-- ACCESS at the fetch of a word: its address, and the words read so far. -/
  | denied (va w0 : Nat)
  /-- UNCORRECTABLE at the fetch, with the words read so far. -/
  | bad (w0 : Nat)
  /-- No valid mapping at the fetch of a word, with the words read so far. -/
  | unmapped (w0 : Nat)
  /-- The home of a word is under test (R361), with the words read so far. -/
  | busy (w0 : Nat)
deriving DecidableEq, Repr

/-- Fetches extension words `k` to `n`. -/
def fetchRest (s : State) (c : Ctx) (pc : Nat) : Nat → List Nat → State × Except FetchedWord (List Nat)
  | 0, ws => (s, .ok ws)
  | n + 1, ws =>
    match fetchWord s c (pc + 4 * ws.length) with
    | (s, .word w) => fetchRest s c pc n (ws ++ [w])
    | (s, f) => (s, .error f)

/-- Fetches the instruction at the pc of a partition (R29, R30, R33). -/
def fetchInstr (s : State) (p : Nat) : State × Fetched :=
  let c := ctxOf s p .control
  let pc := (part s p).pc.toNat
  match fetchWord s c pc with
  | (s, .denied va) => (s, .denied va 0)
  | (s, .bad) => (s, .bad 0)
  | (s, .unmapped _) => (s, .unmapped 0)
  | (s, .busy) => (s, .busy 0)
  | (s, .word w0) =>
    match fetchRest s c pc (wordCount w0 - 1) [w0] with
    | (s, .error (.denied va)) => (s, .denied va w0)
    | (s, .error .bad) => (s, .bad w0)
    | (s, .error (.unmapped _)) => (s, .unmapped w0)
    | (s, .error .busy) => (s, .busy w0)
    | (s, .error (.word _)) => (s, .illegal w0 0)
    | (s, .ok ws) =>
      match decodeWords w0 (ws.getD 1 0) (ws.getD 2 0) with
      | .ok i => (s, .instr i)
      | .error _ => (s, .illegal w0 (ws.getD 1 0))

/-- Whether a first word is that of a command (R12, R13, R29): every other major is one of the control stream, a reserved one too. -/
def commandMajor (w0 : Nat) : Bool :=
  let m := fld w0 21 6
  decide ((0x18 ≤ m ∧ m ≤ 0x1B) ∨ (0x20 ≤ m ∧ m ≤ 0x2B) ∨ (0x30 ≤ m ∧ m ≤ 0x33) ∨ (0x38 ≤ m ∧ m ≤ 0x3A))

/-- A word that traps before it is an instruction (R20, R33, R34, R285); one that is withheld holds (R301). -/
def trapWord (s : State) (p cause w0 w1 : Nat) : State :=
  let x := part s p
  let pc := x.pc.toNat
  let cmd := commandMajor w0
  let entry (cause : Nat) : TrapEntry :=
    { cause := cause, code := 0, src := if cmd && cause != 0x04 then 1 else 0, pc := pc, tpc := pc, word0 := w0, word1 := if cmd && cause != 0x04 then w1 else 0, addr := 0 }
  let stop := (hdrOf w0).stop
  if x.priv = 0 ∧ ¬ (core s (coreOf p)).sideHeld.isEmpty then holdWord (countIgnored s (hdrOf w0)) p stop
  else if ¬ stop ∧ 63 ≤ x.unflagged then
    (if x.flights.isEmpty then takeTrap s p (entry 0x04) else holdWord s p stop)
  else
    let ignored := ignoresFlag x (hdrOf w0)
    let s := countIgnored s (hdrOf w0)
    if stop ∧ ¬ ignored ∧ ¬ x.pending.isEmpty then deliverPending s p else takeTrap s p (entry cause)

/-- The partition tries its fetch again in the next ac; a hold at a flagged word ends the window of R220. -/
def awaitWord (s : State) (p w0 : Nat) : State :=
  modCore (modPart s p fun x => { x with windowEnd := if (hdrOf w0).stop && x.flights.isEmpty then 0 else x.windowEnd }) (coreOf p)
    fun c => { c with nextIssue := s.time + 1 }

/-- An instruction fetch without a valid mapping holds the partition, and queues one fault for each retry signal, at the pc (R11, R371, R372). So
does the first word of a handler whose page may not be executed (R66; the kind in the record is 0, DESIGN CHOICE, log entry 111). `w0` is the first word,
where it has been read. -/
def holdFetch (s : State) (p w0 : Nat) : State :=
  let va := (part s p).pc.toNat
  let s := awaitWord s p w0
  match (part s p).fetchSeen with
  | some n => if s.retries ≤ n then s else
      modPart (faultFor s (ctxOf s p .control) va 2 0) p fun x => { x with fetchSeen := some s.retries }
  | none => modPart (faultFor s (ctxOf s p .control) va 2 0) p fun x => { x with fetchSeen := some s.retries }

/-- What a core issues next. -/
inductive Ready where
  /-- This instruction, in this state. -/
  | run (i : Instr) (s : State)
  /-- No instruction issues: a trap is entered, or the partition holds. -/
  | none (s : State)

/-- Makes ready the next word of a core (R219): the writes due land (R45), a trap whose register writes have all landed is entered
(R65), pending traps come before a restart word (R369), and the word is fetched. A held fetch is tried again after a retry
signal. -/
def readyIssue (s : State) (c : Nat) : Ready :=
  match (core s c).issue with
  | none => .none s
  | some p =>
    let s := landDue p s.time (part s p).flights.length s
    let s := { s with cur := p }
    match (part s p).entering with
    | some t =>
      if (part s p).flights.isEmpty then .none (enterHandler s p t)
      else .none (modCore s c fun x => { x with nextIssue := s.time + 1 })
    | none =>
      let x := part s p
      if x.restarting ∧ x.pc = x.restart ∧ ¬ x.pending.isEmpty ∧ x.flights.isEmpty then .none (deliverPending s p) else
      let s := if x.restarting ∧ x.pc = x.restart ∧ x.pending.isEmpty then modPart s p fun x => { x with restarting := false } else s
      let wait : Bool := match (part s p).fetchSeen with | some n => decide (s.retries ≤ n) | none => false
      if wait then .none (modCore s c fun x => { x with nextIssue := s.time + 1 }) else
      match fetchInstr s p with
      | (s, .instr i) => .run i (modPart s p fun x => { x with fetchSeen := none })
      | (s, .illegal w0 w1) => .none (trapWord s p 0x01 w0 w1)
      | (s, .denied _ w0) => .none (if (part s p).atHandler then holdFetch s p w0 else trapWord s p 0x06 w0 0)
      | (s, .bad w0) => .none (trapWord s p 0x0F w0 0)
      | (s, .unmapped w0) => .none (holdFetch s p w0)
      | (s, .busy w0) => .none (awaitWord s p w0)

/-- The first word of an instruction, as the issue looks ahead to it. -/
def headOf (i : Instr) : Nat := (encode i).headD 0

/-- The word that a partition would issue next, where it can be seen; nothing changes. -/
def peekInstr (s : State) (p : Nat) : Option Instr := match (fetchInstr s p).2 with | .instr i => some i | _ => none

/-- The first word at the pc of a partition, where it can be seen, be it an instruction or not; 0 where it cannot. -/
def peekHead (s : State) (p : Nat) : Nat :=
  match (fetchInstr s p).2 with
  | .instr i => headOf i
  | .illegal w0 _ | .denied _ w0 | .bad w0 | .unmapped w0 | .busy w0 => w0

/-! ## Events -/

/-- The earliest exposed write of a partition lands, if it is due (R45, R46). -/
def landOne (s : State) (p : Nat) : State := landDue p s.time 1 s

/-- REGISTER_WRITE_LANDING (R45). -/
def execRegisterWriteLanding (p : Nat) (s : State) : Host.Outcome State Fault Refusal := .next (landOne s p)

/-- A held word is tried again in this ac: the core issues it at once (R47). -/
def resumeHeld (s : State) (c : Nat) : State :=
  match (core s c).issue with
  | some p => if (part s p).holding ∧ s.time < (core s c).nextIssue then modCore s c fun x => { x with nextIssue := s.time } else s
  | none => s

/-- HELD_WORD_RESUME (R47). -/
def execHeldWordResume (c : Nat) (s : State) : Host.Outcome State Fault Refusal := .next (resumeHeld s c)

/-- Whether a partition holds the issue of its core. -/
def hasIssue (s : State) (p : Nat) : Bool := (core s (coreOf p)).issue == some p && (part s p).resident.isSome

/-- The count at 63 stops a word without the flag, once the writes in flight have landed (R20); not while a full side log withholds it
(R301). -/
def stopSpacing (s : State) (p : Nat) : State :=
  let x := part s p
  if ¬ hasIssue s p ∨ x.entering.isSome ∨ x.unflagged < 63 ∨ ¬ x.flights.isEmpty ∨ (x.priv = 0 ∧ ¬ (core s (coreOf p)).sideHeld.isEmpty) then s else
  match peekInstr s p with
  | some i => if (hdrOf (headOf i)).stop then s else trapAt s p i 0 0x04 0 0
  | none => s

/-- STOP_SPACING (R20). -/
def execStopSpacing (p : Nat) (s : State) : Host.Outcome State Fault Refusal := .next (stopSpacing s p)

/-- Whether the next word of a partition carries a stop flag that R19 honours. -/
def flagHonoured (s : State) (p : Nat) : Bool :=
  let x := part s p
  x.flights.isEmpty && !(x.holding && x.flagIgnored) && (hdrOf (peekHead s p)).stop

/-- Whether a `bist` or `scan` of a partition holds: nothing ends that hold early (R361). -/
def inTest (s : State) (p : Nat) : Bool := (part s p).testHeld

/-- The oldest pending trap is taken before a flagged word or a word that holds (R369). -/
def deliverDue (s : State) (p : Nat) : State :=
  let x := part s p
  if hasIssue s p ∧ x.entering.isNone ∧ ¬ x.pending.isEmpty ∧ x.flights.isEmpty ∧ ¬ holdsFast s p ∧ (x.holding ∨ flagHonoured s p) then deliverPending s p
  else s

/-- PENDING_TRAP_DELIVERY (R369). -/
def execPendingTrapDelivery (p : Nat) (s : State) : Host.Outcome State Fault Refusal := .next (deliverDue s p)

/-- ac without the issue after which a partition is due (R220). -/
def dueAfter : Nat := 79744

/-- A resident partition without the issue becomes due (R220). -/
def becomesDue (s : State) (p : Nat) : State :=
  let x := part s p
  if x.resident.isSome ∧ ¬ hasIssue s p ∧ ¬ x.due ∧ x.issueLost + dueAfter ≤ s.time then modPart s p fun x => { x with due := true } else s

/-- FAIRNESS_DUE (R220). -/
def execFairnessDue (p : Nat) (s : State) : Host.Outcome State Fault Refusal := .next (becomesDue s p)

/-- A window of 256 ac ends; the issue then passes by R219 (R220). -/
def windowEnds (s : State) (p : Nat) : State :=
  if (part s p).windowEnd ≠ 0 ∧ (part s p).windowEnd ≤ s.time then modPart s p fun x => { x with windowEnd := 0 } else s

/-- FAIRNESS_WINDOW_END (R220). -/
def execFairnessWindowEnd (p : Nat) (s : State) : Host.Outcome State Fault Refusal := .next (windowEnds s p)

/-- Whether the issuer holds at its word in one of the ways of R219 (b). -/
def holdsForPass (s : State) (p : Nat) (i : Instr) : Bool :=
  let x := part s p
  let h := hdrOf (headOf i)
  x.holding && !postHolds s p &&
    ((match i with | .semwt .. | .bbwait .. | .cbacq .. | .lvreq .. => true | _ => false) ||
      (!commandMajor (headOf i) && (takeTokens x.tokens 0 h.wp h.wn).isNone))

/-- The level of the record that a partition holds. -/
def levelOf (s : State) (p : Nat) : Nat := match (part s p).resident with | some r => r.level | none => 0

/-- Whether a partition's window of 256 ac is over (R220): it has passed, or the partition has held at a flagged word. -/
def windowOver (s : State) (p : Nat) : Bool := decide ((part s p).windowEnd ≤ s.time)

/-- The partition that takes the issue from `p` at its flagged word (R219, R220). One of a higher level takes it where it can issue, as the rule says of Q: it
issues in the ac of the pass (DEDUCED, log entry 149). -/
def passTo (s : State) (p : Nat) : Option Nat :=
  let held := match peekInstr s p with | some i => holdsForPass s p i | none => false
  bestOf s ((partsOf (coreOf p)).filter fun q =>
    q != p && (part s q).resident.isSome &&
      ((held && canIssue s q) || (windowOver s p && ((decide (levelOf s p < levelOf s q) && canIssue s q) || (part s q).due))))

/-- Core `c` may issue in this ac: the word that held does not issue in it (R219). -/
def issueNow (s : State) (c : Nat) : State := modCore s c fun x => { x with nextIssue := min x.nextIssue s.time }

/-- The issue passes from its holder (R219, R221) in the ac in which its flagged word would issue, or holds; its successor issues in the same ac.
A core without an issuer gives it to its best-ranked resident partition. -/
def passIssue (s : State) (c : Nat) : State :=
  match (core s c).issue with
  | none => if (partsOf c).any fun p => (part s p).resident.isSome then refillIssue s c else s
  | some p =>
    if (part s p).resident.isNone then refillIssue s c
    else if (part s p).entering.isSome ∨ inTest s p ∨ ¬ flagHonoured s p ∨ (s.time < (core s c).nextIssue ∧ ¬ (part s p).holding) then s
    else match passTo s p with
      | none => s
      | some q =>
        let t := takeIssue (loseIssue s p (decide (levelOf s p < levelOf s q))) q
        if (part s p).holding then issueNow t c else t

/-- ISSUE_PASS (R219). -/
def execIssuePass (c : Nat) (s : State) : Host.Outcome State Fault Refusal := .next (passIssue s c)

/-- The hold timer of a partition reaches `sched.wdlim` (R231). -/
def watchdog (s : State) (p : Nat) : State :=
  let q := quarterOf p
  let lim := mgetN s q regWdlim
  if hasIssue s p ∧ lim ≠ 0 ∧ (part s p).holdSince + lim * acPerUs ≤ s.time then
    let s := mset (mset (mbump s q regWdcnt 32) q regWdunit (w64 (unitPart p))) q regWdpc (part s p).pc
    modPart s p fun x => { x with holdSince := s.time }
  else s

/-- WATCHDOG_EXPIRY (R231). -/
def execWatchdogExpiry (p : Nat) (s : State) : Host.Outcome State Fault Refusal := .next (watchdog s p)

/-! ## The look ahead -/

/-- Whether the next word of partition `q` would hold if `q` had the issue of its core now (R219); `run` issues an instruction. -/
def wouldHold (run : Instr → State → State) (s : State) (q : Nat) : Bool :=
  let c := coreOf q
  if (part s q).entering.isSome then !(part s q).flights.isEmpty else
  let s := match (core s c).issue with | some p => loseIssue s p false | none => s
  let t := match readyIssue (issueNow (takeIssue s q) c) c with | .run i u => run i u | .none u => u
  (part t q).resident.isSome && ((part t q).holding || (part t q).fetchSeen.isSome)

/-- Notes for core `c` which of its partitions without the issue would hold at their next word: what R219 asks when the issue passes. -/
def lookAhead (run : Instr → State → State) (s : State) (c : Nat) : State :=
  (partsOf c).foldl (fun t p =>
    if (core s c).issue = some p ∨ (part s p).resident.isNone then t
    else
      let b := wouldHold run s p
      if (part t p).stuck = b then t else modPart t p fun x => { x with stuck := b }) s

end Sys2Proof.Machine
end

