-- ==== Sys2Proof/Machine/Scalar.lean ====
section
/-! DEFINITION. The arithmetic, immediate, branch, jump and loop words of the control core: majors 0x01 to 0x0E (R50 to R56). -/

namespace Sys2Proof.Machine

/-- A word that reads registers, pushes one result, and has no trap of its own (R50, R52). -/
def aluWord (s : State) (i : Instr) (h : Hdr) (d : Reg) (reads : List (Nat × Bool)) (words lat : Nat) (f : List W64 → W64) : State :=
  issueWord s i h { words := words, reads := reads, dst := dstOf s d } fun v t => .next (flyExposed t d words lat (f v))

/-- Format T3: reads A and then B, pushes f(A, B) (R28, R50). -/
def alu3 (s : State) (i : Instr) (h : Hdr) (d a b : Reg) (ka kb : Bool) (lat : Nat) (f : W64 → W64 → W64) : State :=
  aluWord s i h d [rd s a ka, rd s b kb] 1 lat fun v => f (v.getD 0 0) (v.getD 1 0)

/-- Reads A, pushes f(A). -/
def alu2 (s : State) (i : Instr) (h : Hdr) (d a : Reg) (ka : Bool) (f : W64 → W64) : State :=
  aluWord s i h d [rd s a ka] 1 1 fun v => f (v.getD 0 0)

/-- A conditional branch: pops A and then B (R24, R53). -/
def branchWord (s : State) (i : Instr) (h : Hdr) (reads : List (Nat × Bool)) (off : BitVec 8) (c : List W64 → Bool) : State :=
  issueWord s i h { reads := reads } fun v t => if c v then .jump t (offTarget (part t t.cur).pc off.toInt) else .next t

/-- `ret` and `jr` (R54, R36). -/
def jumpReg (s : State) (i : Instr) (h : Hdr) (a : Reg) : State :=
  issueWord s i h { reads := [rd s a false] } fun v t =>
    let x := (v.getD 0 0).toNat
    if x % 4 ≠ 0 then .trap 0x05 0 0 else .jump t x

/-- The latest arming order in use. -/
def loopOrder (m : FMap Loop) : Nat := m.foldl (fun a x => max a x.2.order) 0

/-- `loop` and `loopi` (R55): arms loop `n` for a count, or skips the body. -/
def armLoop (t : State) (n : Nat) (count words len : Nat) : WordOut :=
  let x := part t t.cur
  let first := (x.pc.toNat + 4 * words) % 2 ^ 64
  let last := (first + 4 * len) % 2 ^ 64
  if count = 0 then .skip t last
  else
    let l : Loop := { armed := true, count := count, start := first, stop := last, level := x.priv, order := loopOrder x.loops + 1 }
    .next (setPart t t.cur { x with loops := fput x.loops n l })

/-- Whether loop `n` is armed (R55). -/
def loopArmed (s : State) (n : Nat) : Bool := (fgetD (part s s.cur).loops n {}).armed

/-- `add` (R50). -/
def execAdd (h : Hdr) (d a b : Reg) (ka kb : Bool) (s : State) : Host.Outcome State Fault Refusal :=
  .next (alu3 s (.add h d a b ka kb) h d a b ka kb 1 fun x y => x + y)

/-- `sub` (R50). -/
def execSub (h : Hdr) (d a b : Reg) (ka kb : Bool) (s : State) : Host.Outcome State Fault Refusal :=
  .next (alu3 s (.sub h d a b ka kb) h d a b ka kb 1 fun x y => x - y)

/-- `and` (R50). -/
def execAnd (h : Hdr) (d a b : Reg) (ka kb : Bool) (s : State) : Host.Outcome State Fault Refusal :=
  .next (alu3 s (.and h d a b ka kb) h d a b ka kb 1 fun x y => x &&& y)

/-- `or` (R50). -/
def execOr (h : Hdr) (d a b : Reg) (ka kb : Bool) (s : State) : Host.Outcome State Fault Refusal :=
  .next (alu3 s (.or h d a b ka kb) h d a b ka kb 1 fun x y => x ||| y)

/-- `xor` (R50). -/
def execXor (h : Hdr) (d a b : Reg) (ka kb : Bool) (s : State) : Host.Outcome State Fault Refusal :=
  .next (alu3 s (.xor h d a b ka kb) h d a b ka kb 1 fun x y => x ^^^ y)

/-- `andn` (R50). -/
def execAndn (h : Hdr) (d a b : Reg) (ka kb : Bool) (s : State) : Host.Outcome State Fault Refusal :=
  .next (alu3 s (.andn h d a b ka kb) h d a b ka kb 1 fun x y => x &&& ~~~y)

/-- `sll` (R50). -/
def execSll (h : Hdr) (d a b : Reg) (ka kb : Bool) (s : State) : Host.Outcome State Fault Refusal :=
  .next (alu3 s (.sll h d a b ka kb) h d a b ka kb 1 fun x y => x <<< shamt y)

/-- `srl` (R50). -/
def execSrl (h : Hdr) (d a b : Reg) (ka kb : Bool) (s : State) : Host.Outcome State Fault Refusal :=
  .next (alu3 s (.srl h d a b ka kb) h d a b ka kb 1 fun x y => x >>> shamt y)

/-- `sra` (R50). -/
def execSra (h : Hdr) (d a b : Reg) (ka kb : Bool) (s : State) : Host.Outcome State Fault Refusal :=
  .next (alu3 s (.sra h d a b ka kb) h d a b ka kb 1 fun x y => x.sshiftRight (shamt y))

/-- `rol` (R50). -/
def execRol (h : Hdr) (d a b : Reg) (ka kb : Bool) (s : State) : Host.Outcome State Fault Refusal :=
  .next (alu3 s (.rol h d a b ka kb) h d a b ka kb 1 fun x y => rolW x y)

/-- `min` (R50). -/
def execMin (h : Hdr) (d a b : Reg) (ka kb : Bool) (s : State) : Host.Outcome State Fault Refusal :=
  .next (alu3 s (.min h d a b ka kb) h d a b ka kb 1 fun x y => if ltS y x then y else x)

/-- `max` (R50). -/
def execMax (h : Hdr) (d a b : Reg) (ka kb : Bool) (s : State) : Host.Outcome State Fault Refusal :=
  .next (alu3 s (.max h d a b ka kb) h d a b ka kb 1 fun x y => if ltS x y then y else x)

/-- `minu` (R50). -/
def execMinu (h : Hdr) (d a b : Reg) (ka kb : Bool) (s : State) : Host.Outcome State Fault Refusal :=
  .next (alu3 s (.minu h d a b ka kb) h d a b ka kb 1 fun x y => if ltU y x then y else x)

/-- `maxu` (R50). -/
def execMaxu (h : Hdr) (d a b : Reg) (ka kb : Bool) (s : State) : Host.Outcome State Fault Refusal :=
  .next (alu3 s (.maxu h d a b ka kb) h d a b ka kb 1 fun x y => if ltU x y then y else x)

/-- `slt` (R50). -/
def execSlt (h : Hdr) (d a b : Reg) (ka kb : Bool) (s : State) : Host.Outcome State Fault Refusal :=
  .next (alu3 s (.slt h d a b ka kb) h d a b ka kb 1 fun x y => boolW (ltS x y))

/-- `sltu` (R50). -/
def execSltu (h : Hdr) (d a b : Reg) (ka kb : Bool) (s : State) : Host.Outcome State Fault Refusal :=
  .next (alu3 s (.sltu h d a b ka kb) h d a b ka kb 1 fun x y => boolW (ltU x y))

/-- `mul` (R50). -/
def execMul (h : Hdr) (d a b : Reg) (ka kb : Bool) (s : State) : Host.Outcome State Fault Refusal :=
  .next (alu3 s (.mul h d a b ka kb) h d a b ka kb 4 fun x y => x * y)

/-- `mulh` (R50). -/
def execMulh (h : Hdr) (d a b : Reg) (ka kb : Bool) (s : State) : Host.Outcome State Fault Refusal :=
  .next (alu3 s (.mulh h d a b ka kb) h d a b ka kb 4 fun x y => mulHS x y)

/-- `mulhu` (R50). -/
def execMulhu (h : Hdr) (d a b : Reg) (ka kb : Bool) (s : State) : Host.Outcome State Fault Refusal :=
  .next (alu3 s (.mulhu h d a b ka kb) h d a b ka kb 4 fun x y => mulHU x y)

/-- `div` (R51). -/
def execDiv (h : Hdr) (d a b : Reg) (ka kb : Bool) (s : State) : Host.Outcome State Fault Refusal :=
  .next (alu3 s (.div h d a b ka kb) h d a b ka kb 24 fun x y => divS x y)

/-- `divu` (R51). -/
def execDivu (h : Hdr) (d a b : Reg) (ka kb : Bool) (s : State) : Host.Outcome State Fault Refusal :=
  .next (alu3 s (.divu h d a b ka kb) h d a b ka kb 24 fun x y => divU x y)

/-- `rem` (R51). -/
def execRem (h : Hdr) (d a b : Reg) (ka kb : Bool) (s : State) : Host.Outcome State Fault Refusal :=
  .next (alu3 s (.rem h d a b ka kb) h d a b ka kb 24 fun x y => remS x y)

/-- `remu` (R51). -/
def execRemu (h : Hdr) (d a b : Reg) (ka kb : Bool) (s : State) : Host.Outcome State Fault Refusal :=
  .next (alu3 s (.remu h d a b ka kb) h d a b ka kb 24 fun x y => remU x y)

/-- `sext` (R50). -/
def execSext (h : Hdr) (d a b : Reg) (ka kb : Bool) (s : State) : Host.Outcome State Fault Refusal :=
  .next (alu3 s (.sext h d a b ka kb) h d a b ka kb 1 fun x y => sx64 x (extWidth y))

/-- `zext` (R50). -/
def execZext (h : Hdr) (d a b : Reg) (ka kb : Bool) (s : State) : Host.Outcome State Fault Refusal :=
  .next (alu3 s (.zext h d a b ka kb) h d a b ka kb 1 fun x y => zx64 x (extWidth y))

/-- `sel` (R50). -/
def execSel (h : Hdr) (d a b : Reg) (ka kb : Bool) (s : State) : Host.Outcome State Fault Refusal :=
  .next (alu3 s (.sel h d a b ka kb) h d a b ka kb 1 fun x y => if x = 0 then 0 else y)

/-- `clz` (R50). -/
def execClz (h : Hdr) (d a : Reg) (ka : Bool) (s : State) : Host.Outcome State Fault Refusal :=
  .next (alu2 s (.clz h d a ka) h d a ka fun x => w64 (leadZ x))

/-- `ctz` (R50). -/
def execCtz (h : Hdr) (d a : Reg) (ka : Bool) (s : State) : Host.Outcome State Fault Refusal :=
  .next (alu2 s (.ctz h d a ka) h d a ka fun x => w64 (trailZ 64 x.toNat))

/-- `popc` (R50). -/
def execPopc (h : Hdr) (d a : Reg) (ka : Bool) (s : State) : Host.Outcome State Fault Refusal :=
  .next (alu2 s (.popc h d a ka) h d a ka fun x => w64 (onesIn 64 x.toNat))

/-- `addi` (R52). -/
def execAddi (h : Hdr) (d a : Reg) (ka : Bool) (imm : BitVec 10) (s : State) : Host.Outcome State Fault Refusal :=
  .next (alu2 s (.addi h d a ka imm) h d a ka fun x => x + imm.signExtend 64)

/-- `andi` (R52). -/
def execAndi (h : Hdr) (d a : Reg) (ka : Bool) (imm : BitVec 10) (s : State) : Host.Outcome State Fault Refusal :=
  .next (alu2 s (.andi h d a ka imm) h d a ka fun x => x &&& imm.signExtend 64)

/-- `ori` (R52). -/
def execOri (h : Hdr) (d a : Reg) (ka : Bool) (imm : BitVec 10) (s : State) : Host.Outcome State Fault Refusal :=
  .next (alu2 s (.ori h d a ka imm) h d a ka fun x => x ||| imm.signExtend 64)

/-- `xori` (R52). -/
def execXori (h : Hdr) (d a : Reg) (ka : Bool) (imm : BitVec 10) (s : State) : Host.Outcome State Fault Refusal :=
  .next (alu2 s (.xori h d a ka imm) h d a ka fun x => x ^^^ imm.signExtend 64)

/-- `slti` (R52). -/
def execSlti (h : Hdr) (d a : Reg) (ka : Bool) (imm : BitVec 9) (s : State) : Host.Outcome State Fault Refusal :=
  .next (alu2 s (.slti h d a ka imm) h d a ka fun x => boolW (ltS x (imm.signExtend 64)))

/-- `seqi` (R52). -/
def execSeqi (h : Hdr) (d a : Reg) (ka : Bool) (imm : BitVec 9) (s : State) : Host.Outcome State Fault Refusal :=
  .next (alu2 s (.seqi h d a ka imm) h d a ka fun x => boolW (x == imm.signExtend 64))

/-- `slli` (R52). -/
def execSlli (h : Hdr) (d a : Reg) (ka : Bool) (sh : BitVec 6) (s : State) : Host.Outcome State Fault Refusal :=
  .next (alu2 s (.slli h d a ka sh) h d a ka fun x => x <<< sh.toNat)

/-- `srli` (R52). -/
def execSrli (h : Hdr) (d a : Reg) (ka : Bool) (sh : BitVec 6) (s : State) : Host.Outcome State Fault Refusal :=
  .next (alu2 s (.srli h d a ka sh) h d a ka fun x => x >>> sh.toNat)

/-- `srai` (R52). -/
def execSrai (h : Hdr) (d a : Reg) (ka : Bool) (sh : BitVec 6) (s : State) : Host.Outcome State Fault Refusal :=
  .next (alu2 s (.srai h d a ka sh) h d a ka fun x => x.sshiftRight sh.toNat)

/-- `li` (R30, R52). -/
def execLi (h : Hdr) (d : Reg) (imm : BitVec 16) (s : State) : Host.Outcome State Fault Refusal :=
  .next (aluWord s (.li h d imm) h d [] 1 1 fun _ => imm.signExtend 64)

/-- `lih` (R30): imm16, then 28 bits, then 20 bits; the write lands 1 ac after the issue of the last word (R45). -/
def execLih (h : Hdr) (d : Reg) (hi : BitVec 16) (mid : BitVec 28) (lo : BitVec 20) (s : State) : Host.Outcome State Fault Refusal :=
  .next (aluWord s (.lih h d hi mid lo) h d [] 3 1 fun _ => hi ++ mid ++ lo)

/-- `apc` (R30, R52). -/
def execApc (h : Hdr) (d : Reg) (imm : BitVec 16) (s : State) : Host.Outcome State Fault Refusal :=
  .next (aluWord s (.apc h d imm) h d [] 1 1 fun _ => w64 (offTarget (part s s.cur).pc imm.toInt))

/-- `beq` (R53). -/
def execBeq (h : Hdr) (a b : Reg) (off : BitVec 8) (s : State) : Host.Outcome State Fault Refusal :=
  .next (branchWord s (.beq h a b off) h [rd s a false, rd s b false] off fun v => (v.getD 0 0) == (v.getD 1 0))

/-- `bne` (R53). -/
def execBne (h : Hdr) (a b : Reg) (off : BitVec 8) (s : State) : Host.Outcome State Fault Refusal :=
  .next (branchWord s (.bne h a b off) h [rd s a false, rd s b false] off fun v => (v.getD 0 0) != (v.getD 1 0))

/-- `blt` (R53). -/
def execBlt (h : Hdr) (a b : Reg) (off : BitVec 8) (s : State) : Host.Outcome State Fault Refusal :=
  .next (branchWord s (.blt h a b off) h [rd s a false, rd s b false] off fun v => ltS (v.getD 0 0) (v.getD 1 0))

/-- `bge` (R53). -/
def execBge (h : Hdr) (a b : Reg) (off : BitVec 8) (s : State) : Host.Outcome State Fault Refusal :=
  .next (branchWord s (.bge h a b off) h [rd s a false, rd s b false] off fun v => !ltS (v.getD 0 0) (v.getD 1 0))

/-- `bltu` (R53). -/
def execBltu (h : Hdr) (a b : Reg) (off : BitVec 8) (s : State) : Host.Outcome State Fault Refusal :=
  .next (branchWord s (.bltu h a b off) h [rd s a false, rd s b false] off fun v => ltU (v.getD 0 0) (v.getD 1 0))

/-- `bgeu` (R53). -/
def execBgeu (h : Hdr) (a b : Reg) (off : BitVec 8) (s : State) : Host.Outcome State Fault Refusal :=
  .next (branchWord s (.bgeu h a b off) h [rd s a false, rd s b false] off fun v => !ltU (v.getD 0 0) (v.getD 1 0))

/-- `bz` (R53). -/
def execBz (h : Hdr) (a : Reg) (off : BitVec 8) (s : State) : Host.Outcome State Fault Refusal :=
  .next (branchWord s (.bz h a off) h [rd s a false] off fun v => v.getD 0 0 == 0)

/-- `bnz` (R53). -/
def execBnz (h : Hdr) (a : Reg) (off : BitVec 8) (s : State) : Host.Outcome State Fault Refusal :=
  .next (branchWord s (.bnz h a off) h [rd s a false] off fun v => v.getD 0 0 != 0)

/-- `br` (R54). -/
def execBr (h : Hdr) (off : BitVec 28) (s : State) : Host.Outcome State Fault Refusal :=
  .next (issueWord s (.br h off) h { words := 2 } fun _ t => .jump t (offTarget (part t t.cur).pc off.toInt))

/-- `call` (R54): the link is pc + 8. -/
def execCall (h : Hdr) (a : Reg) (off : BitVec 28) (s : State) : Host.Outcome State Fault Refusal :=
  .next (issueWord s (.call h a off) h { words := 2, dst := dstOf s a } fun _ t =>
    .jump (flyExposed t a 1 1 ((part t t.cur).pc + 8)) (offTarget (part t t.cur).pc off.toInt))

/-- `ret` (R54). -/
def execRet (h : Hdr) (a : Reg) (s : State) : Host.Outcome State Fault Refusal := .next (jumpReg s (.ret h a) h a)

/-- `jr` (R54). -/
def execJr (h : Hdr) (a : Reg) (s : State) : Host.Outcome State Fault Refusal := .next (jumpReg s (.jr h a) h a)

/-- `loop` (R55): the trip count is bits [31:0] of register A. -/
def execLoop (h : Hdr) (n : Fin 4) (a : Reg) (ka : Bool) (len : BitVec 10) (s : State) : Host.Outcome State Fault Refusal :=
  .next (issueWord s (.loop h n a ka len) h { reads := [rd s a ka], ill := loopArmed s n } fun v t =>
    armLoop t n ((v.getD 0 0).toNat % 2 ^ 32) 1 len.toNat)

/-- `loopi` (R55): the trip count is in the TX word. -/
def execLoopi (h : Hdr) (n : Fin 4) (count : BitVec 16) (len : BitVec 10) (s : State) : Host.Outcome State Fault Refusal :=
  .next (issueWord s (.loopi h n count len) h { words := 2, ill := loopArmed s n } fun _ t => armLoop t n count.toNat 2 len.toNat)

end Sys2Proof.Machine
end

