-- ==== Sys2Proof/Machine/Service.lean ====
section
/-! DEFINITION. The host die, the fault and error queues, the management registers as steps of their own, errors of memories and
arrays, operating modes, reset, boot and attestation (R292, R294, R296, R302, R343, R371 to R389). -/

namespace Sys2Proof.Machine

/-! ## The port -/

/-- A write of the host die to one register (R386): discarded before the device is ready (R383), after every write received earlier (R255). -/
def hostStore (s : State) (q off : Nat) (v : W64) : State := if ¬ s.ready ∨ hostWaits s then s else mgmtStore s 768 q off v

/-! ## Reset and boot -/

/-- The device after a reset (R383): registers at their reset values, records, queues and logs discarded; memory zero, or kept. -/
def resetDevice (s : State) (keep : Bool) : State :=
  { State.reset with agenda := s.agenda, resets := s.resets + 1, kept := keep, mem := if keep then s.mem else [], failing := if keep then s.failing else [] }

/-- POWER_ON_RESET (R383). -/
def execPowerOnReset (s : State) : Host.Outcome State Fault Refusal := .next (resetDevice s false)

/-- A write of the host die to `rst.ctl` (R383); before the device is ready the port discards it, and it is performed after every write received
earlier (R255). Bit 1 is kept (R389). -/
def resetWrite (s : State) (v : W64) : State :=
  if ¬ s.ready ∨ hostWaits s then s else if nbit v.toNat 0 then resetDevice s (nbit v.toNat 1) else mgmtStore s 768 0 (regDev 0x300) v

/-- RST_CTL_WRITE (R383). -/
def execRstCtlWrite (v : W64) (s : State) : Host.Outcome State Fault Refusal := .next (resetWrite s v)

/-- Why an image is refused; 0 when it is good (R384). -/
def imageCode (i : BootImage) : Nat :=
  if Config.sha512 i.body ≠ i.digest then 1
  else if ¬ Config.ed25519Verify i.key i.digest i.signature then 2
  else if Config.sha512 i.key ≠ Config.fusedKeyDigest then 3
  else if i.version < Config.fusedVersion then 4
  else 0

/-- The images are verified: the device is ready, unless Adeun was to initialise memory and could not (R383, R384; that this is found last, DESIGN
CHOICE, log entry 145). -/
def bootDone (s : State) : State := if ¬ s.kept ∧ Config.memoryFails s.resets then { s with bootCode := 5 } else { s with ready := true }

/-- Verifies the images in order (R384): each good one extends the measurement; a bad one leaves the device in reset. -/
def bootImages (s : State) : List BootImage → State
  | [] => bootDone s
  | i :: r =>
    if imageCode i = 0 then
      bootImages { s with bootStage := (s.bootStage + 1) % 256, measure := fitBytes 64 (Config.sha512 (s.measure ++ i.digest)) } r
    else { s with bootCode := imageCode i }

/-- BOOT (R384): only a device that waits for its images boots. -/
def execBoot (images : List BootImage) (s : State) : Host.Outcome State Fault Refusal :=
  .next (if s.ready ∨ s.bootCode ≠ 0 ∨ images = [] then s else bootImages s images)

/-- AT_GO_WRITE (R385). -/
def execAtGoWrite (v : W64) (s : State) : Host.Outcome State Fault Refusal := .next (hostStore s 0 (regDev 0x2A8) v)

/-- ATTEST_REPORT_DONE (R385). -/
def execAttestReportDone (s : State) : Host.Outcome State Fault Refusal := .next (attestDone s)

/-! ## The host die -/

/-- A naturally aligned access of 1 to 64 bytes (R386). -/
def hostShape (va n : Nat) : Bool := [1, 2, 4, 8, 16, 32, 64].contains n && va % n == 0

/-- The bytes of registers from an offset on. -/
def mgmtBytes (s : State) (q off n : Nat) : List Byte :=
  (((List.range ((off % 8 + n + 7) / 8)).map fun i => leBytes 8 (mgmtRead s q (off / 8 * 8 + 8 * i)).toNat).flatten.drop (off % 8)).take n

/-- A host access that finds no page is counted (R386). -/
def hostMiss (s : State) : State := mbump s 0 (regDev 0x388) 32

/-- What a read of the host die gives (R386, R203, R316). -/
def hostReads (s : State) (va n : Nat) : State × List Byte :=
  match locOf va with
  | .here q off =>
    if inMgmt off then (s, mgmtBytes s q off n)
    else match readVa s (queueCtx q (mgetN s 0 (regDev 0x380) % 2 ^ 16)) va n 0 with
      | (s, .ok bs) => (s, bs)
      | (s, .error _) => (hostMiss s, List.replicate n 0xFF)
  | _ => (hostMiss s, List.replicate n 0xFF)

/-- Whether an address is that of `boot.st` in quarter 0 (R383, R389). -/
def isBootSt (va : Nat) : Bool := match locOf va with | .here q off => q == 0 && off / 8 * 8 == regDev 0x200 | _ => false

/-- Whether an access of the host die holds at a home under test (R361). -/
def hostTested (s : State) (va n : Nat) (write : Bool) : Bool :=
  match locOf va with
  | .here q off => !inMgmt off && waitsHome s (queueCtx q (mgetN s 0 (regDev 0x380) % 2 ^ 16)) va n write
  | _ => false

/-- A read of the host die is answered, after every write received earlier is performed (R386, R383, R255). -/
def hostReadArrives (s : State) (va n : Nat) : State :=
  if ¬ hostShape va n ∨ hostWaits s ∨ hostTested s va n false ∨ (¬ s.ready ∧ ¬ (isBootSt va ∧ n ≤ 8)) then s else
  let r := hostReads s va n
  { r.1 with hostAnswers := r.1.hostAnswers ++ [(va, r.2)] }

/-- HOST_READ (R386). -/
def execHostRead (va len : Nat) (s : State) : Host.Outcome State Fault Refusal := .next (hostReadArrives s va len)

/-- Writes registers from an offset on, a doubleword at a time; the host die's write of `rst.ctl` resets the device (R383). -/
def mgmtWrites (s : State) (q off : Nat) : List W64 → State
  | [] => s
  | v :: r =>
    let s := if q = 0 ∧ off = regDev 0x300 then resetWrite s v else mgmtStore s 768 q off v
    mgmtWrites s q (off + 8) r

/-- The doubleword that a write of fewer than 8 bytes makes of a register (R386): the bits it does not name keep what is stored where they can be
written, and are 0 elsewhere (DESIGN CHOICE, log entry 34). -/
def mgmtMerge (s : State) (q off : Nat) (bs : List Byte) : W64 :=
  let a := off / 8 * 8
  let names := w64 ((2 ^ (8 * bs.length) - 1) * 2 ^ (8 * (off % 8)))
  let kept : W64 :=
    if (mailboxAt q a).isSome ∨ (q = 0 ∧ a = regWvQuota) then mgmtRead s q a else mget s q a &&& w64 (match regKind q a with
    | some k => k.rw
    | none => if a = regInval ∨ a = regHrCfg ∨ (0x3F0000200000 ≤ a ∧ a < 0x3F0000204000) then 2 ^ 64 - 1 else if q = 0 ∧ a = regDev 0x120 then 3 else 0)
  (kept &&& ~~~names) ||| w64 (leNat bs * 2 ^ (8 * (off % 8)))

/-- A write of the host die is performed, after every write received earlier (R386, R203, R255, R378). -/
def hostWriteArrives (s : State) (va : Nat) (bs : List Byte) : State :=
  if ¬ s.ready ∨ hostWaits s ∨ (bs.length ≤ 64 ∧ hostTested s va bs.length true) then s
  else if bs.length = 160 then (if isHere va then packetAt s va 0xFFFE 0 bs else s)
  else if ¬ hostShape va bs.length then s else
  match locOf va with
  | .here q off =>
    if inMgmt off then
      (if bs.length < 8 then mgmtWrites s q (off / 8 * 8) [mgmtMerge s q off bs]
       else mgmtWrites s q off ((List.range (bs.length / 8)).map fun i => dwordOf bs i))
    else
      let asid := mgetN s 0 (regDev 0x380) % 2 ^ 16
      match writeVa s (queueCtx q asid) va bs 0 with
      | (t, .ok ()) =>
        retestRings (match spotOf s q off with
          | .memory => captureArrival t asid 0x03 va 1 bs.length (fitBytes 64 bs)
          | _ => t)
      | (t, .error _) => hostMiss t
  | _ => hostMiss s

/-- HOST_WRITE (R386). -/
def execHostWrite (va : Nat) (bytes : List Byte) (s : State) : Host.Outcome State Fault Refusal := .next (hostWriteArrives s va bytes)

/-! ## Fault and error queues -/

/-- FAULT_QUEUE_APPEND (R371). -/
def execFaultQueueAppend (s : State) : Host.Outcome State Fault Refusal := .next (appendFault s)

/-- FQ_POP (R372). -/
def execFqPop (s : State) : Host.Outcome State Fault Refusal := .next (hostStore s 0 (regDev 0x28) 0)

/-- FQ_END (R372, R228). -/
def execFqEnd (job : Nat) (s : State) : Host.Outcome State Fault Refusal := .next (hostStore s 0 (regDev 0x30) (w64 job))

/-- ER_POP (R373). -/
def execErPop (s : State) : Host.Outcome State Fault Refusal := .next (hostStore s 0 (regDev 0x88) 0)

/-! ## Registers with a behaviour of their own -/

/-- TR_INVAL_WRITE (R288, R300, R372, R223). -/
def execTrInvalWrite (q : Nat) (v : W64) (s : State) : Host.Outcome State Fault Refusal := .next (hostStore s q regInval v)

/-- TR_INVAL_DONE (R288). -/
def execTrInvalDone (q : Nat) (s : State) : Host.Outcome State Fault Refusal := .next (invalDone s q)

/-- SK_CLR_WRITE (R296). -/
def execSkClrWrite (q : Nat) (v : W64) (s : State) : Host.Outcome State Fault Refusal := .next (hostStore s q regSkClr v)

/-- SK_CLR_DONE (R296). -/
def execSkClrDone (q : Nat) (s : State) : Host.Outcome State Fault Refusal := .next (sketchCleared s q)

/-- HR_CFG_WRITE (R294). -/
def execHrCfgWrite (q : Nat) (v : W64) (s : State) : Host.Outcome State Fault Refusal := .next (hostStore s q regHrCfg v)

/-- HR_CFG_TAKE_EFFECT (R294). -/
def execHrCfgTakeEffect (q : Nat) (s : State) : Host.Outcome State Fault Refusal := .next (hrApply s q)

/-- CHM_WRITE (R292). -/
def execChmWrite (q slot ch : Nat) (v : W64) (s : State) : Host.Outcome State Fault Refusal :=
  .next (if slot < 4 ∧ ch < 16 then hostStore s q (regCh slot ch 0) v else s)

/-- MIG_GO (R302): a write of 1 to `mig.ctl`[0]. -/
def execMigGo (q : Nat) (s : State) : Host.Outcome State Fault Refusal := .next (hostStore s q regMigCtl 1)

/-- MIGRATION_DONE (R302). -/
def execMigrationDone (q : Nat) (s : State) : Host.Outcome State Fault Refusal := .next (migDone s q)

/-- WV_QUOTA_WRITE (R343). -/
def execWvQuotaWrite (v : W64) (s : State) : Host.Outcome State Fault Refusal := .next (hostStore s 0 regWvQuota v)

/-- OP_SEL_WRITE (R382). -/
def execOpSelWrite (v : W64) (s : State) : Host.Outcome State Fault Refusal := .next (hostStore s 0 (regDev 0x120) v)

/-- OPMODE_APPLY (R382). -/
def execOpmodeApply (s : State) : Host.Outcome State Fault Refusal := .next (opApply s)

/-- REGISTER_WRITE (R389): Adeun's write of a register without a behaviour of its own (R388). -/
def execRegisterWrite (q off : Nat) (v : W64) (s : State) : Host.Outcome State Fault Refusal :=
  .next (if (regKind q off).isSome then mgmtStore s 769 q off v else s)

/-! ## Errors -/

/-- The row that a channel corrected, with the rows it tracks after that (R376): the last 8 distinct ones. -/
def trackRow (rows : List (Nat × Nat × Bool)) (row thr : Nat) : List (Nat × Nat × Bool) × Option Nat :=
  let (n, told) := match rows.find? fun r => r.1 == row with
    | some r => (min (r.2.1 + 1) 0xFFFF, r.2.2)
    | none => (1, false)
  let others := rows.filter fun r => r.1 != row
  let tell := decide (thr ≠ 0 ∧ n = thr) && !told
  ((if 8 ≤ others.length then others.drop (others.length - 7) else others) ++ [(row, n, told || tell)], if tell then some n else none)

/-- A channel's counter has grown; at a multiple of its threshold a record is appended (R376). -/
def channelThreshold (s : State) (q corr thr unit row : Nat) : State :=
  let n := mgetN s q corr
  let t := mgetN s q thr
  let s := mbump s q corr 48
  if t ≠ 0 ∧ n + 1 < 2 ^ 48 ∧ (n + 1) % t = 0 then appendError s unit 1 0x03 (w64 row) (w64 (n + 1)) else s

/-- A memory sector is corrected (R376). `row` is the physical address of its row, `bank` its bank; HBM keeps no counters of banks or rows. -/
def memoryCorrected (s : State) (pa bank row : Nat) : State :=
  let q := pa / 2 ^ 46 % 4
  let o := pa % 2 ^ 46
  if 0x100000000000 ≤ o ∧ o < 0x120000000000 then
    let g := (o - 0x100000000000) / 2 ^ 39
    let c := (o - 0x100000000000) / 2 ^ 35 % 16
    let s := mbump s q (regCh g c (8 + bank % 16)) 48
    let s := channelThreshold s q (regCh g c 1) (regCh g c 2) (unitMem s pa bank) row
    let key := mkey q (regCh g c 4)
    let t := trackRow (fgetD s.rowCounts key []) row (mgetN s q (regCh g c 4))
    let s := { s with rowCounts := fput s.rowCounts key t.1 }
    match t.2 with
    | some n => appendError s (unitMem s pa bank) 1 0x03 (w64 row) (w64 n)
    | none => s
  else if o < 0x2000000000 then channelThreshold s q (regHbm pa 0) (regHbm pa 8) (unitMem s pa) row
  else s

/-- MEMORY_CORRECTED_ERROR (R376). -/
def execMemoryCorrectedError (pa bank row : Nat) (s : State) : Host.Outcome State Fault Refusal := .next (memoryCorrected s pa bank row)

/-- ARRAY_SOFT_ERROR (R377). -/
def execArraySoftError (unit : Nat) (detail : W64) (s : State) : Host.Outcome State Fault Refusal :=
  .next (appendError s (unit % 2 ^ 32) 0 0x05 0 detail)

end Sys2Proof.Machine
end

