-- ==== Sys2Proof/Machine/Dispatch.lean ====
section
/-! DEFINITION. The meaning of each row of the opcode table: one arm per constructor. -/

namespace Sys2Proof.Machine

/-- What an instruction or step does. -/
def exec (i : Instr) (s : State) : Host.Outcome State Fault Refusal :=
  match i with
  | .add h d a b ka kb => Sys2Proof.Machine.execAdd h d a b ka kb s
  | .sub h d a b ka kb => Sys2Proof.Machine.execSub h d a b ka kb s
  | .and h d a b ka kb => Sys2Proof.Machine.execAnd h d a b ka kb s
  | .or h d a b ka kb => Sys2Proof.Machine.execOr h d a b ka kb s
  | .xor h d a b ka kb => Sys2Proof.Machine.execXor h d a b ka kb s
  | .andn h d a b ka kb => Sys2Proof.Machine.execAndn h d a b ka kb s
  | .sll h d a b ka kb => Sys2Proof.Machine.execSll h d a b ka kb s
  | .srl h d a b ka kb => Sys2Proof.Machine.execSrl h d a b ka kb s
  | .sra h d a b ka kb => Sys2Proof.Machine.execSra h d a b ka kb s
  | .rol h d a b ka kb => Sys2Proof.Machine.execRol h d a b ka kb s
  | .min h d a b ka kb => Sys2Proof.Machine.execMin h d a b ka kb s
  | .max h d a b ka kb => Sys2Proof.Machine.execMax h d a b ka kb s
  | .minu h d a b ka kb => Sys2Proof.Machine.execMinu h d a b ka kb s
  | .maxu h d a b ka kb => Sys2Proof.Machine.execMaxu h d a b ka kb s
  | .slt h d a b ka kb => Sys2Proof.Machine.execSlt h d a b ka kb s
  | .sltu h d a b ka kb => Sys2Proof.Machine.execSltu h d a b ka kb s
  | .mul h d a b ka kb => Sys2Proof.Machine.execMul h d a b ka kb s
  | .mulh h d a b ka kb => Sys2Proof.Machine.execMulh h d a b ka kb s
  | .mulhu h d a b ka kb => Sys2Proof.Machine.execMulhu h d a b ka kb s
  | .div h d a b ka kb => Sys2Proof.Machine.execDiv h d a b ka kb s
  | .divu h d a b ka kb => Sys2Proof.Machine.execDivu h d a b ka kb s
  | .rem h d a b ka kb => Sys2Proof.Machine.execRem h d a b ka kb s
  | .remu h d a b ka kb => Sys2Proof.Machine.execRemu h d a b ka kb s
  | .clz h d a ka => Sys2Proof.Machine.execClz h d a ka s
  | .ctz h d a ka => Sys2Proof.Machine.execCtz h d a ka s
  | .popc h d a ka => Sys2Proof.Machine.execPopc h d a ka s
  | .sext h d a b ka kb => Sys2Proof.Machine.execSext h d a b ka kb s
  | .zext h d a b ka kb => Sys2Proof.Machine.execZext h d a b ka kb s
  | .sel h d a b ka kb => Sys2Proof.Machine.execSel h d a b ka kb s
  | .addi h d a ka imm => Sys2Proof.Machine.execAddi h d a ka imm s
  | .andi h d a ka imm => Sys2Proof.Machine.execAndi h d a ka imm s
  | .ori h d a ka imm => Sys2Proof.Machine.execOri h d a ka imm s
  | .xori h d a ka imm => Sys2Proof.Machine.execXori h d a ka imm s
  | .slli h d a ka sh => Sys2Proof.Machine.execSlli h d a ka sh s
  | .srli h d a ka sh => Sys2Proof.Machine.execSrli h d a ka sh s
  | .srai h d a ka sh => Sys2Proof.Machine.execSrai h d a ka sh s
  | .slti h d a ka imm => Sys2Proof.Machine.execSlti h d a ka imm s
  | .seqi h d a ka imm => Sys2Proof.Machine.execSeqi h d a ka imm s
  | .li h d imm => Sys2Proof.Machine.execLi h d imm s
  | .lih h d hi mid lo => Sys2Proof.Machine.execLih h d hi mid lo s
  | .apc h d imm => Sys2Proof.Machine.execApc h d imm s
  | .beq h a b off => Sys2Proof.Machine.execBeq h a b off s
  | .bne h a b off => Sys2Proof.Machine.execBne h a b off s
  | .blt h a b off => Sys2Proof.Machine.execBlt h a b off s
  | .bge h a b off => Sys2Proof.Machine.execBge h a b off s
  | .bltu h a b off => Sys2Proof.Machine.execBltu h a b off s
  | .bgeu h a b off => Sys2Proof.Machine.execBgeu h a b off s
  | .bz h a off => Sys2Proof.Machine.execBz h a off s
  | .bnz h a off => Sys2Proof.Machine.execBnz h a off s
  | .br h off => Sys2Proof.Machine.execBr h off s
  | .call h a off => Sys2Proof.Machine.execCall h a off s
  | .ret h a => Sys2Proof.Machine.execRet h a s
  | .jr h a => Sys2Proof.Machine.execJr h a s
  | .loop h n a ka len => Sys2Proof.Machine.execLoop h n a ka len s
  | .loopi h n count len => Sys2Proof.Machine.execLoopi h n count len s
  | .semadd h n a ka => Sys2Proof.Machine.execSemadd h n a ka s
  | .semwt h n a ka => Sys2Proof.Machine.execSemwt h n a ka s
  | .mbrd h d n => Sys2Proof.Machine.execMbrd h d n s
  | .mbwr h n a b ka kb => Sys2Proof.Machine.execMbwr h n a b ka kb s
  | .waitaddr h d a b ka kb => Sys2Proof.Machine.execWaitaddr h d a b ka kb s
  | .park h => Sys2Proof.Machine.execPark h s
  | .yield h => Sys2Proof.Machine.execYield h s
  | .done h => Sys2Proof.Machine.execDone h s
  | .trap h code => Sys2Proof.Machine.execTrap h code s
  | .tret h => Sys2Proof.Machine.execTret h s
  | .crr h d crn => Sys2Proof.Machine.execCrr h d crn s
  | .crw h t crn kt => Sys2Proof.Machine.execCrw h t crn kt s
  | .lvreq h a ka => Sys2Proof.Machine.execLvreq h a ka s
  | .lvrel h a ka => Sys2Proof.Machine.execLvrel h a ka s
  | .bist h d a ka => Sys2Proof.Machine.execBist h d a ka s
  | .scan h d a ka => Sys2Proof.Machine.execScan h d a ka s
  | .errrd h d a ka => Sys2Proof.Machine.execErrrd h d a ka s
  | .jcancel h d a ka => Sys2Proof.Machine.execJcancel h d a ka s
  | .ldb h t a hint off => Sys2Proof.Machine.execLdb h t a hint off s
  | .ldbu h t a hint off => Sys2Proof.Machine.execLdbu h t a hint off s
  | .ldh h t a hint off => Sys2Proof.Machine.execLdh h t a hint off s
  | .ldhu h t a hint off => Sys2Proof.Machine.execLdhu h t a hint off s
  | .ldw h t a hint off => Sys2Proof.Machine.execLdw h t a hint off s
  | .ldwu h t a hint off => Sys2Proof.Machine.execLdwu h t a hint off s
  | .ldd h t a hint off => Sys2Proof.Machine.execLdd h t a hint off s
  | .stb h t a hint off => Sys2Proof.Machine.execStb h t a hint off s
  | .sth h t a hint off => Sys2Proof.Machine.execSth h t a hint off s
  | .stw h t a hint off => Sys2Proof.Machine.execStw h t a hint off s
  | .std h t a hint off => Sys2Proof.Machine.execStd h t a hint off s
  | .ldAcq h t a scope => Sys2Proof.Machine.execLdAcq h t a scope s
  | .stRel h t a scope => Sys2Proof.Machine.execStRel h t a scope s
  | .amoadd h d a b ka kb => Sys2Proof.Machine.execAmoadd h d a b ka kb s
  | .amoand h d a b ka kb => Sys2Proof.Machine.execAmoand h d a b ka kb s
  | .amoor h d a b ka kb => Sys2Proof.Machine.execAmoor h d a b ka kb s
  | .amoxor h d a b ka kb => Sys2Proof.Machine.execAmoxor h d a b ka kb s
  | .amomin h d a b ka kb => Sys2Proof.Machine.execAmomin h d a b ka kb s
  | .amomax h d a b ka kb => Sys2Proof.Machine.execAmomax h d a b ka kb s
  | .amominu h d a b ka kb => Sys2Proof.Machine.execAmominu h d a b ka kb s
  | .amomaxu h d a b ka kb => Sys2Proof.Machine.execAmomaxu h d a b ka kb s
  | .amoswap h d a b ka kb => Sys2Proof.Machine.execAmoswap h d a b ka kb s
  | .amocas h d a b ka => Sys2Proof.Machine.execAmocas h d a b ka s
  | .amofadd h d a b ka kb => Sys2Proof.Machine.execAmofadd h d a b ka kb s
  | .amobfadd h d a b ka kb => Sys2Proof.Machine.execAmobfadd h d a b ka kb s
  | .fence h scope => Sys2Proof.Machine.execFence h scope s
  | .mark h scope => Sys2Proof.Machine.execMark h scope s
  | .wb h a b ka kb => Sys2Proof.Machine.execWb h a b ka kb s
  | .inv h a b ka kb => Sys2Proof.Machine.execInv h a b ka kb s
  | .wbinv h a b ka kb => Sys2Proof.Machine.execWbinv h a b ka kb s
  | .pf h hint a ka => Sys2Proof.Machine.execPf h hint a ka s
  | .roinv h a b ka kb => Sys2Proof.Machine.execRoinv h a b ka kb s
  | .ldro h t a hint size off => Sys2Proof.Machine.execLdro h t a hint size off s
  | .bbinit h a b ka kb => Sys2Proof.Machine.execBbinit h a b ka kb s
  | .bbexp h a b ka kb => Sys2Proof.Machine.execBbexp h a b ka kb s
  | .bbwait h d a b ka kb => Sys2Proof.Machine.execBbwait h d a b ka kb s
  | .cbacq h d n => Sys2Proof.Machine.execCbacq h d n s
  | .cbrel h n => Sys2Proof.Machine.execCbrel h n s
  | .fmst h l a b => Sys2Proof.Machine.execFmst h l a b s
  | .rqpost h d a b ka kb => Sys2Proof.Machine.execRqpost h d a b ka kb s
  | .lpost h d a b ka kb => Sys2Proof.Machine.execLpost h d a b ka kb s
  | .fork h d a b => Sys2Proof.Machine.execFork h d a b s
  | .choose h => Sys2Proof.Machine.execChoose h s
  | .abandon h => Sys2Proof.Machine.execAbandon h s
  | .wid h d => Sys2Proof.Machine.execWid h d s
  | .cpy h a b ka src dst hint len => Sys2Proof.Machine.execCpy h a b ka src dst hint len s
  | .cpy2 h a b src dst rows rowbytes => Sys2Proof.Machine.execCpy2 h a b src dst rows rowbytes s
  | .cpyg h a b isp dst count rowbytes => Sys2Proof.Machine.execCpyg h a b isp dst count rowbytes s
  | .oqld h a b kb src hint rows oq => Sys2Proof.Machine.execOqld h a b kb src hint rows oq s
  | .tsld h a b src hint rows rowbytes => Sys2Proof.Machine.execTsld h a b src hint rows rowbytes s
  | .tsst h a b ka dst hint rows rowbytes => Sys2Proof.Machine.execTsst h a b ka dst hint rows rowbytes s
  | .cbinit h a ka n size slots => Sys2Proof.Machine.execCbinit h a ka n size slots s
  | .vshape h a b ka kb regRows regCols ty cols1 rows1 => Sys2Proof.Machine.execVshape h a b ka kb regRows regCols ty cols1 rows1 s
  | .vld h a b ka kb src vd oq hint => Sys2Proof.Machine.execVld h a b ka kb src vd oq hint s
  | .vst h a b ka dst va hint => Sys2Proof.Machine.execVst h a b ka dst va hint s
  | .vbcastX h a ka vd => Sys2Proof.Machine.execVbcastX h a ka vd s
  | .vbcastRow h vd va n => Sys2Proof.Machine.execVbcastRow h vd va n s
  | .vbcastCol h vd va n => Sys2Proof.Machine.execVbcastCol h vd va n s
  | .vsel h vd va vb vc => Sys2Proof.Machine.execVsel h vd va vb vc s
  | .vadd h b kb sb sat vd va vb => Sys2Proof.Machine.execVadd h b kb sb sat vd va vb s
  | .vsub h b kb sb sat vd va vb => Sys2Proof.Machine.execVsub h b kb sb sat vd va vb s
  | .vmul h b kb sb sat vd va vb => Sys2Proof.Machine.execVmul h b kb sb sat vd va vb s
  | .vfma h b kb sb sat vd va vb vc => Sys2Proof.Machine.execVfma h b kb sb sat vd va vb vc s
  | .vmax h b kb sb sat vd va vb => Sys2Proof.Machine.execVmax h b kb sb sat vd va vb s
  | .vmin h b kb sb sat vd va vb => Sys2Proof.Machine.execVmin h b kb sb sat vd va vb s
  | .vabs h sat vd va => Sys2Proof.Machine.execVabs h sat vd va s
  | .vneg h sat vd va => Sys2Proof.Machine.execVneg h sat vd va s
  | .vcmp h b kb sb sat vd va vb cond => Sys2Proof.Machine.execVcmp h b kb sb sat vd va vb cond s
  | .vand h b kb sb vd va vb => Sys2Proof.Machine.execVand h b kb sb vd va vb s
  | .vor h b kb sb vd va vb => Sys2Proof.Machine.execVor h b kb sb vd va vb s
  | .vxor h b kb sb vd va vb => Sys2Proof.Machine.execVxor h b kb sb vd va vb s
  | .vshl h b kb sb vd va vb => Sys2Proof.Machine.execVshl h b kb sb vd va vb s
  | .vshr h b kb sb vd va vb => Sys2Proof.Machine.execVshr h b kb sb vd va vb s
  | .vpopc h vd va => Sys2Proof.Machine.execVpopc h vd va s
  | .vcvt h a ka vd va ty mode => Sys2Proof.Machine.execVcvt h a ka vd va ty mode s
  | .vred h axis sat vd va op => Sys2Proof.Machine.execVred h axis sat vd va op s
  | .vgelu h vd va ty => Sys2Proof.Machine.execVgelu h vd va ty s
  | .vsilu h vd va ty => Sys2Proof.Machine.execVsilu h vd va ty s
  | .vsplus h vd va ty => Sys2Proof.Machine.execVsplus h vd va ty s
  | .vtanh h vd va ty => Sys2Proof.Machine.execVtanh h vd va ty s
  | .vsigm h vd va ty => Sys2Proof.Machine.execVsigm h vd va ty s
  | .vexp h vd va ty => Sys2Proof.Machine.execVexp h vd va ty s
  | .vrcp h vd va ty => Sys2Proof.Machine.execVrcp h vd va ty s
  | .vrsqrt h vd va ty => Sys2Proof.Machine.execVrsqrt h vd va ty s
  | .vtblld h a ka src n => Sys2Proof.Machine.execVtblld h a ka src n s
  | .vtbl h vd va ty n => Sys2Proof.Machine.execVtbl h vd va ty n s
  | .vtolog h vd va => Sys2Proof.Machine.execVtolog h vd va s
  | .vfrlog h vd va ty => Sys2Proof.Machine.execVfrlog h vd va ty s
  | .vladd h b kb cf vd va vb => Sys2Proof.Machine.execVladd h b kb cf vd va vb s
  | .vlsub h b kb cf vd va vb => Sys2Proof.Machine.execVlsub h b kb cf vd va vb s
  | .vlshr h vd va n => Sys2Proof.Machine.execVlshr h vd va n s
  | .vlmul h b kb vd va => Sys2Proof.Machine.execVlmul h b kb vd va s
  | .vhamm h vd va vb n => Sys2Proof.Machine.execVhamm h vd va vb n s
  | .vtopk h desc vd va vb vc k1 => Sys2Proof.Machine.execVtopk h desc vd va vb vc k1 s
  | .vfilt h a b ka kb src vd va => Sys2Proof.Machine.execVfilt h a b ka kb src vd va s
  | .vsect h a b hint vd => Sys2Proof.Machine.execVsect h a b hint vd s
  | .vuniq h vd va vc => Sys2Proof.Machine.execVuniq h vd va vc s
  | .vbkt h vd va vc nb1 sft => Sys2Proof.Machine.execVbkt h vd va vc nb1 sft s
  | .mcfgLevel h a b ka kb lvl => Sys2Proof.Machine.execMcfgLevel h a b ka kb lvl s
  | .mcfgNest h a ka => Sys2Proof.Machine.execMcfgNest h a ka s
  | .mshp h a ka src n => Sys2Proof.Machine.execMshp h a ka src n s
  | .mshf h a ka n field => Sys2Proof.Machine.execMshf h a ka n field s
  | .mgo h => Sys2Proof.Machine.execMgo h s
  | .mrst h off => Sys2Proof.Machine.execMrst h off s
  | .mrstNone h => Sys2Proof.Machine.execMrstNone h s
  | .maccClr h n => Sys2Proof.Machine.execMaccClr h n s
  | .maccSave h n row half => Sys2Proof.Machine.execMaccSave h n row half s
  | .maccLoad h n row half => Sys2Proof.Machine.execMaccLoad h n row half s
  | .mepi h a b ka kb dest => Sys2Proof.Machine.execMepi h a b ka kb dest s
  | .mlqSend h a ka n m ty => Sys2Proof.Machine.execMlqSend h a ka n m ty s
  | .mlqRecv h a ka n m ty => Sys2Proof.Machine.execMlqRecv h a ka n m ty s
  | .mlqUnbind h n => Sys2Proof.Machine.execMlqUnbind h n s
  | .gpoolAuto h a b isp dst ty mean bags => Sys2Proof.Machine.execGpoolAuto h a b isp dst ty mean bags s
  | .gpoolDie h a b isp dst ty mean bags => Sys2Proof.Machine.execGpoolDie h a b isp dst ty mean bags s
  | .gpoolFar h a b isp dst ty mean bags => Sys2Proof.Machine.execGpoolFar h a b isp dst ty mean bags s
  | .gdeq h a b isp dst ty count => Sys2Proof.Machine.execGdeq h a b isp dst ty count s
  | .gscan h a b qsp dst dmax flt nq1 k1 => Sys2Proof.Machine.execGscan h a b qsp dst dmax flt nq1 k1 s
  | .grank h a b isp dst ty count => Sys2Proof.Machine.execGrank h a b isp dst ty count s
  | .hrpin h a b count => Sys2Proof.Machine.execHrpin h a b count s
  | .hrfree h a b count => Sys2Proof.Machine.execHrfree h a b count s
  | .dupd h a b isp gsp ty opt count => Sys2Proof.Machine.execDupd h a b isp gsp ty opt count s
  | .dord h a b isp gsp ty opt count => Sys2Proof.Machine.execDord h a b isp gsp ty opt count s
  | .xall h a b kb isp nb1 sft count => Sys2Proof.Machine.execXall h a b kb isp nb1 sft count s
  | .wload h a b ka kb tiles ty kind => Sys2Proof.Machine.execWload h a b ka kb tiles ty kind s
  | .wtbl h a b ka kb src ty n1 first => Sys2Proof.Machine.execWtbl h a b ka kb src ty n1 first s
  | .mswaysDrain q ways => Sys2Proof.Machine.execMswaysDrain q ways s
  | .mswaysConvert q ways => Sys2Proof.Machine.execMswaysConvert q ways s
  | .commandStart p cq => Sys2Proof.Machine.execCommandStart p cq s
  | .commandComplete p cq id => Sys2Proof.Machine.execCommandComplete p cq id s
  | .nestStep c => Sys2Proof.Machine.execNestStep c s
  | .epilogue c => Sys2Proof.Machine.execEpilogue c s
  | .registerWriteLanding p => Sys2Proof.Machine.execRegisterWriteLanding p s
  | .loadValueReturn p seq => Sys2Proof.Machine.execLoadValueReturn p seq s
  | .heldWordResume c => Sys2Proof.Machine.execHeldWordResume c s
  | .stopSpacing p => Sys2Proof.Machine.execStopSpacing p s
  | .pendingTrapDelivery p => Sys2Proof.Machine.execPendingTrapDelivery p s
  | .launchPacket va src tag bytes => Sys2Proof.Machine.execLaunchPacket va src tag bytes s
  | .launchAccept q => Sys2Proof.Machine.execLaunchAccept q s
  | .jobDispatch q job => Sys2Proof.Machine.execJobDispatch q job s
  | .iterationHandout q => Sys2Proof.Machine.execIterationHandout q s
  | .recordPickup q => Sys2Proof.Machine.execRecordPickup q s
  | .schedAge q => Sys2Proof.Machine.execSchedAge q s
  | .fairnessDue p => Sys2Proof.Machine.execFairnessDue p s
  | .fairnessWindowEnd p => Sys2Proof.Machine.execFairnessWindowEnd p s
  | .issuePass c => Sys2Proof.Machine.execIssuePass c s
  | .mangleTake p => Sys2Proof.Machine.execMangleTake p s
  | .watchdogExpiry p => Sys2Proof.Machine.execWatchdogExpiry p s
  | .jobComplete q job => Sys2Proof.Machine.execJobComplete q job s
  | .cancelRequest src tag job => Sys2Proof.Machine.execCancelRequest src tag job s
  | .linkTileArrival c n codes scales => Sys2Proof.Machine.execLinkTileArrival c n codes scales s
  | .ltqCredit c n => Sys2Proof.Machine.execLtqCredit c n s
  | .ltqBindPacket c n dev pc pn ty send => Sys2Proof.Machine.execLtqBindPacket c n dev pc pn ty send s
  | .ltqTimeout c n => Sys2Proof.Machine.execLtqTimeout c n s
  | .routePacket adapt => Sys2Proof.Machine.execRoutePacket adapt s
  | .multicastForward src agent sq stage groups members va bar bytes => Sys2Proof.Machine.execMulticastForward src agent sq stage groups members va bar bytes s
  | .fabricWriteArrival src agent sq va bytes => Sys2Proof.Machine.execFabricWriteArrival src agent sq va bytes s
  | .fabricAck sq lost => Sys2Proof.Machine.execFabricAck sq lost s
  | .fabricAtomicArrival src agent sq va op x y => Sys2Proof.Machine.execFabricAtomicArrival src agent sq va op x y s
  | .fabricAnswerWrite sq lost val => Sys2Proof.Machine.execFabricAnswerWrite sq lost val s
  | .monitorRequestArrival src tag va expv => Sys2Proof.Machine.execMonitorRequestArrival src tag va expv s
  | .wakeWrite tag => Sys2Proof.Machine.execWakeWrite tag s
  | .requestRecordArrival src tag va bytes => Sys2Proof.Machine.execRequestRecordArrival src tag va bytes s
  | .remoteBarrierAdd src agent sq va cnt => Sys2Proof.Machine.execRemoteBarrierAdd src agent sq va cnt s
  | .ethRmaWrite entry off bytes feature => Sys2Proof.Machine.execEthRmaWrite entry off bytes feature s
  | .ethUntaggedSend bytes feature => Sys2Proof.Machine.execEthUntaggedSend bytes feature s
  | .ethDeliveryAck sq => Sys2Proof.Machine.execEthDeliveryAck sq s
  | .hostRead va len => Sys2Proof.Machine.execHostRead va len s
  | .hostWrite va bytes => Sys2Proof.Machine.execHostWrite va bytes s
  | .faultQueueAppend => Sys2Proof.Machine.execFaultQueueAppend s
  | .fqPop => Sys2Proof.Machine.execFqPop s
  | .fqEnd job => Sys2Proof.Machine.execFqEnd job s
  | .erPop => Sys2Proof.Machine.execErPop s
  | .trInvalWrite q v => Sys2Proof.Machine.execTrInvalWrite q v s
  | .trInvalDone q => Sys2Proof.Machine.execTrInvalDone q s
  | .skClrWrite q v => Sys2Proof.Machine.execSkClrWrite q v s
  | .sketchHalve q slot => Sys2Proof.Machine.execSketchHalve q slot s
  | .hrCfgWrite q v => Sys2Proof.Machine.execHrCfgWrite q v s
  | .hrCfgTakeEffect q => Sys2Proof.Machine.execHrCfgTakeEffect q s
  | .chmWrite q slot ch v => Sys2Proof.Machine.execChmWrite q slot ch v s
  | .migGo q => Sys2Proof.Machine.execMigGo q s
  | .migrationDone q => Sys2Proof.Machine.execMigrationDone q s
  | .wvQuotaWrite v => Sys2Proof.Machine.execWvQuotaWrite v s
  | .viewFree view => Sys2Proof.Machine.execViewFree view s
  | .opSelWrite v => Sys2Proof.Machine.execOpSelWrite v s
  | .opmodeApply => Sys2Proof.Machine.execOpmodeApply s
  | .leaveGrant q cls => Sys2Proof.Machine.execLeaveGrant q cls s
  | .testResult p fails => Sys2Proof.Machine.execTestResult p fails s
  | .memoryCorrectedError pa bank row => Sys2Proof.Machine.execMemoryCorrectedError pa bank row s
  | .arraySoftError unit detail => Sys2Proof.Machine.execArraySoftError unit detail s
  | .linkStateChange kind link st lanes => Sys2Proof.Machine.execLinkStateChange kind link st lanes s
  | .linkFecCorrection kind link => Sys2Proof.Machine.execLinkFecCorrection kind link s
  | .powerOnReset => Sys2Proof.Machine.execPowerOnReset s
  | .rstCtlWrite v => Sys2Proof.Machine.execRstCtlWrite v s
  | .boot images => Sys2Proof.Machine.execBoot images s
  | .atGoWrite v => Sys2Proof.Machine.execAtGoWrite v s
  | .attestReportDone => Sys2Proof.Machine.execAttestReportDone s
  | .replayHoldLimit p => Sys2Proof.Machine.execReplayHoldLimit p s
  | .registerWrite q off v => Sys2Proof.Machine.execRegisterWrite q off v s
  | .linkLevelRetry kind link => Sys2Proof.Machine.execLinkLevelRetry kind link s
  | .skClrDone q => Sys2Proof.Machine.execSkClrDone q s
  | .mswaysOperationEnd q => Sys2Proof.Machine.execMswaysOperationEnd q s

end Sys2Proof.Machine
end

