-- ==== Sys2Proof/Machine/Step.lean ====
section
/-! DEFINITION. One step of the device: one word of one core, one step without a word, the passing of one ac, or one thing that no
rule fixes in time. What moves next stands in the agenda; when it is empty, the order below decides. -/

namespace Sys2Proof.Machine

/-- What follows every step: what committed worlds may release leaves (R351), and a notification of the error queue that is due is stored
(R373); that store can itself append the next record, which is notified then. -/
def settleStep (s : State) : State := notifyErrors (notifyErrors (releaseDue s))

/-- The end of a step that ran an instruction. -/
def afterExec (o : Host.Outcome State Fault Refusal) : Host.Outcome State Fault Refusal :=
  match o with
  | .next s => .next (settleStep s)
  | .fault r => .fault r
  | .refused r => .refused r

/-- Whether a row of the opcode table is a step without a word of its own. -/
def isEvent (i : Instr) : Bool :=
  headOf i == 0 && match i with | .mswaysDrain .. | .mswaysConvert .. => false | _ => true

/-- One word of a core (R47, R219): what has been made ready issues. -/
def issueCore (s : State) (c : Nat) : Host.Outcome State Fault Refusal :=
  match readyIssue s c with
  | .run i s => afterExec (exec i s)
  | .none s => afterExec (.next s)

/-- Whether a core may issue in this ac. -/
def mayIssue (s : State) (c : Nat) : Bool := s.ready && (core s c).issue.isSome && decide ((core s c).nextIssue ≤ s.time)

/-- The state after an instruction, where it gives one. -/
def runInstr (i : Instr) (s : State) : State := match exec i s with | .next t => t | _ => s

/-- What R219 asks of the partitions that could take an issue is noted before each step. -/
def lookAll (s : State) : State := if s.ready then (s.cores.map (·.1)).foldl (lookAhead runInstr) s else s

/-- What a choice does. -/
def takeChoice (s : State) (c : Choice) : Host.Outcome State Fault Refusal :=
  match c with
  | .event i => if isEvent i then afterExec (exec i s) else .next s
  | .issue k => if mayIssue s k then issueCore s k else .next s
  | .tick => .next { s with time := s.time + 1 }
  | .evict level set => .next (evictFrom s level set)
  | .readAhead p va => .next (readAhead s p va)
  | .forget n => .next { s with tags := { s.tags with large := s.tags.large.eraseIdx n } }
  | .forgetHome n => .next { s with tags := { s.tags with homes := s.tags.homes.eraseIdx n } }
  | .transit k => .next (crossOver s k)
  | .corrupt sec => .next (if s.failing.contains sec then s else { s with failing := s.failing ++ [sec] })
  | .reclaim id => .next (match s.monitors.find? fun m => m.id == id with | some m => fireMonitor s m | none => s)

/-! ## The order of steps when the agenda is empty -/

/-- A step without a word, as what it does. -/
abbrev Move := State → Host.Outcome State Fault Refusal

/-- Steps without a word that partition `p` may be due. -/
def partEvents (s : State) (p : Nat) : List Move :=
  let x := part s p
  (if x.flights.isEmpty then [] else execRegisterWriteLanding p :: x.flights.map fun f => execLoadValueReturn p f.seq) ++
  (x.stores.map fun w => execLoadValueReturn p w.seq) ++
  (x.queues.map fun k => k.2.running.map fun r => execCommandComplete p k.1 r.cmd.id).flatten ++
  (x.queues.filterMap fun k => if k.2.queued.isEmpty && k.2.running.isEmpty then none else some (execCommandStart p k.1)) ++
  (if x.resident.isSome then [execFairnessDue p, execFairnessWindowEnd p, execMangleTake p, execWatchdogExpiry p, execReplayHoldLimit p] else [])

/-- Steps without a word that core `c` may be due. -/
def coreEvents (s : State) (c : Nat) : List Move :=
  let x := core s c
  (x.sideLog.take 1 |>.map fun e => execLoadValueReturn e.ctx.part e.seq) ++
  (match x.testing with | some (_, p, _, _) => [execTestResult p []] | none => []) ++ (if x.nest.isSome then [execNestStep c] else []) ++ (if x.epi.isSome || !x.epiAdds.isEmpty then [execEpilogue c] else []) ++
  (x.links.filterMap fun l => if l.2.heldSince.isSome then some (execLtqTimeout c l.1) else none) ++ [execIssuePass c]

/-- Steps without a word that quarter `q` may be due. -/
def quarterEvents (s : State) (q : Nat) : List Move :=
  let x := quarter s q
  [execLaunchAccept q, execIterationHandout q, execRecordPickup q, execSchedAge q, execLeaveGrant q 0, execLeaveGrant q 1, execLeaveGrant q 2,
   execHrCfgTakeEffect q, execSkClrDone q, execMswaysOperationEnd q, execMigrationDone q, execTrInvalDone q] ++
  (x.jobs.map fun j => [execJobDispatch q j.addr, execJobComplete q j.addr]).flatten ++
  x.sketchAdds.map fun k => execSketchHalve q (k.1 % 64)

/-- Steps without a word that the device may be due. -/
def dueEvents (s : State) : List Move :=
  (s.parts.map fun x => partEvents s x.1).flatten ++ (s.cores.map fun x => coreEvents s x.1).flatten ++
  (s.quarters.map fun x => quarterEvents s x.1).flatten ++
  (if s.faultsWaiting.isEmpty then [] else [execFaultQueueAppend]) ++ (if s.opBusy then [execOpmodeApply] else []) ++
  (if s.reportBusy then [execAttestReportDone] else []) ++ (s.views.filterMap fun v => if v.2.ended then some (execViewFree v.1) else none) ++
  (if s.packets.isEmpty then [] else [execRoutePacket none])

/-- The first of some steps that changes the state. -/
def firstChange (s : State) : List Move → Option State
  | [] => none
  | m :: r =>
    match m s with
    | .next t => if settleStep t = s then firstChange s r else some t
    | _ => firstChange s r

/-- The lowest core that may issue in this ac. -/
def firstCore (s : State) : Option Nat := (s.cores.map (·.1)).find? (mayIssue s)

/-- What moves when the agenda is empty: the first due event that changes anything, else the lowest core that may issue, else one ac
passes. -/
def ownStep (s : State) : Host.Outcome State Fault Refusal :=
  if ¬ s.ready then .next { s with time := s.time + 1 } else
  match firstChange s (dueEvents s) with
  | some t => .next (settleStep t)
  | none =>
    match firstCore s with
    | some c => issueCore s c
    | none => .next { s with time := s.time + 1 }

/-- One step of the device, once the look ahead is made. -/
def stepOn (s : State) : Host.Outcome State Fault Refusal :=
  match s.agenda with
  | c :: r => takeChoice { s with agenda := r } c
  | [] => if s.bootCode ≠ 0 then .fault .heldInReset else ownStep s

/-- One step of the device. -/
def step (s : State) : Host.Outcome State Fault Refusal := stepOn (lookAll s)

/-! ## Placing a word -/

/-- Where `withFetchWord` places the instruction: its address, and the physical places of the address-space table, the level-1 table
and the word. -/
def wordVa : Nat := 0xFFFF000400000000

def wordTables : Nat := 0x10000000

def wordLevel1 : Nat := 0x10008000

def wordPa : Nat := 0x400000000

/-- Physical memory with bytes at a place: the caches hold no other copy, and no translation is held. -/
def placeBytes (s : State) (pa : Nat) (bs : List Byte) : State :=
  { s with mem := memPutAll s.mem pa bs, die := fdel s.die (pa / 32), failing := s.failing.filter (· != pa / 32), tags := {} }

/-- The state with an instruction placed where core 0's partition 0 fetches its next word: the device booted, a record resident that
holds the issue, an executable 16 GiB page mapped, the words there. -/
def State.withFetchWord (s : State) (_nbits w : Nat) : State :=
  let s := placeBytes s wordTables (leBytes 8 wordLevel1)
  let s := placeBytes s (wordLevel1 + 8) (leBytes 8 (wordPa + 0x205))
  let s := placeBytes s wordPa (leBytes 12 w)
  let s := mset { s with ready := true, bootCode := 0, agenda := [.issue 0] } 0 regAstab (w64 wordTables)
  let s := modPart s 0 fun x => { x with
    resident := some { addr := 0, job := 0, view := 0, level := 0, base := 0, rival := false, ordinal := 0, stay := 0 },
    pc := w64 wordVa, asid := 0, entering := none, fetchSeen := none, restarting := false }
  modCore s 0 fun x => { x with issue := some 0, nextIssue := min x.nextIssue s.time }

end Sys2Proof.Machine
end

