-- ==== Sys2Proof/Safety.lean ====
section
/-! DEFINITION. What counts as a safe run, in the terms that claims use: the invariants of the device, when a word issues without a
trap or a hold, and what every word that takes effect does beside its own effect. -/

namespace Sys2Proof.Machine.Safety

/-! ## Invariants -/

/-- Physical memory is in its one canonical form: rising addresses, no byte equal to what an unlisted address reads as. -/
def MemoryCanonical (s : State) : Prop := Memory.wf s.mem = true

/-- Memory is sound: canonical, and every cached sector holds its 32 bytes. -/
def MemorySound (s : State) : Prop := MemoryCanonical s ∧ ∀ e ∈ s.die, e.2.bytes.length = 32

/-- No notification of the error queue is overdue (R373). -/
def NoticesStored (s : State) : Prop := s.notifyDue = false

/-! ## The issue of a word -/

/-- The conditions under which a word of the issuing partition takes effect: no trap is entered or pending, the count of R20 allows
it, it is legal at its level (R33, R68), no loop body ends inside it (R30), its register reads give `vals` and leave `regs` (R28,
R46), its destination has room (R46), nothing it must wait for is outstanding (R16, R301), and the tokens it waits for are there and
leave `tokens` (R15; a command waits in its engine, R14). -/
structure Issues (s : State) (h : Hdr) (n : Need) (vals : List W64) (regs : FMap (List W64)) (tokens : FMap Nat) : Prop where
  calm : (part s s.cur).entering = none
  quiet : (part s s.cur).pending = []
  spaced : h.stop = true ∨ (part s s.cur).unflagged < 63
  legal : n.ill = false
  whole : loopCuts (part s s.cur).loops (part s s.cur).priv (part s s.cur).pc.toNat n.words = false
  allowed : n.access = false ∧ n.level ≤ (part s s.cur).priv
  read : takeReads (part s s.cur).regs n.reads = .ok (vals, regs)
  room : n.dst = 0 ∨ (fgetD regs n.dst []).length + inFlight (part s s.cur) n.dst + 1 ≤ 4
  posted : postHolds s s.cur = false
  logged : (part s s.cur).priv ≠ 0 ∨ (core s (coreOf s.cur)).sideHeld = []
  waited : waitTokens (part s s.cur) h n = some tokens

/-- A word of the issuing partition is tried: no trap is entered or pending, the count of R20 allows it, and it is not withheld by a full side
log (R301). What the checks of the word find is left open. -/
structure Tries (s : State) (h : Hdr) : Prop where
  calm : (part s s.cur).entering = none
  quiet : (part s s.cur).pending = []
  spaced : h.stop = true ∨ (part s s.cur).unflagged < 63
  logged : (part s s.cur).priv ≠ 0 ∨ (core s (coreOf s.cur)).sideHeld = []

/-- The state after a word whose own effect led to `t`, where control goes on to the word after it: one ac for each of its words
(R47). -/
def onward (s : State) (h : Hdr) (command : Bool) (nw : Nat) (t : State) : State :=
  moveOn (countIgnored s h) command h (followingPc s nw) nw t

/-- The state after a jump: two ac more, and no loop body ends (R47, R56). -/
def jumped (s : State) (h : Hdr) (nw target : Nat) (t : State) : State :=
  finishWord (countIgnored s h) false h target (nw + 2) (part t s.cur).loops t

/-- The state in which the own effect of a word that issues takes place. -/
def issued (s : State) (h : Hdr) (regs : FMap (List W64)) (tokens : FMap Nat) : State := readyWord (countIgnored s h) h regs tokens

/-- The state in which the own effect of word `i` takes place where that makes accesses: what the record of a trap after issue will say of the
word is kept (R370). -/
def noted (s : State) (h : Hdr) (regs : FMap (List W64)) (tokens : FMap Nat) (i : Instr) : State := noteWord (issued s h regs tokens) i

/-- The state after a word whose own effect, which led to `t`, took the record from the partition or set its pc itself. -/
def departed (s : State) (h : Hdr) (t : State) : State :=
  postReady (modCore (if (part t s.cur).resident.isSome then modPart t s.cur fun x => { x with posts := x.posts ++ owedPosts s false h } else t)
    (coreOf s.cur) fun c => { c with nextIssue := s.time + 1 }) s.cur

/-- No earlier access of the issuing partition's control stream is outstanding: no load without its value, no post or write in its store queue, nothing
in the core's side log, no write unacknowledged, no store to `hr.cfg` that has not taken effect; and no L2 slice of the device is under test,
so that no access holds at its home (R361). -/
structure Settled (s : State) : Prop where
  loads : ∀ f ∈ (part s s.cur).flights, pendingLoad f = none
  posts : (part s s.cur).stores = []
  logs : (core s (coreOf s.cur)).sideLog = [] ∧ (core s (coreOf s.cur)).sideHeld = []
  acks : s.awaits = []
  pools : poolsWritten s s.cur = false
  homes : slicesTested s = []

/-- The job of the issuing partition's record is neither captured nor replayed (R378, R379). -/
def Unrecorded (s : State) : Prop := s.capture = false ∧ ∀ j, findJob s (jobOf s s.cur) = some j → j.replay = false

/-- The issuing partition's record reads and writes base memory (R337). -/
def BaseView (s : State) : Prop := viewOf s s.cur = 0

/-- An address of this device's translated space, aligned to `n` bytes. -/
def Plain (va n : Nat) : Prop := isHere va = true ∧ isMgmt va = false ∧ va % n = 0

/-- No L1 or L2 level holds the line of an offset from a place that its page no longer leads to (R287). -/
def InPlace (s : State) (asid q off pte : Nat) : Prop :=
  ∀ v ∈ s.tags.virt, v.1 % 2 ^ 64 = lineKey 0 asid (lineOf q off) → v.2.old = none ∧ v.2.pa % 2 ^ 39 = leafPa pte off / 128 % 2 ^ 39

/-- Where two states hold the same but for the issuing partition, its core's next issue and the model's own counts. -/
def OnlyIssuer (s t : State) : Prop :=
  { t with parts := s.parts, cores := s.cores, nextSeq := s.nextSeq, curWord := s.curWord } = s ∧
  (∀ p, p ≠ s.cur → part t p = part s p) ∧
  (∀ c, { core t c with nextIssue := (core s c).nextIssue } = core s c) ∧
  (∀ c, c ≠ coreOf s.cur → core t c = core s c)

/-- The issuing partition of `t` holds what it held in `s`, but for what the issue of any word may change: where control goes, the loops
whose ends it meets, its tokens, the counts of R19 and R20, and what the hold of a word leaves. -/
def SameIssuer (s t : State) : Prop :=
  let x := part s s.cur
  { part t s.cur with pc := x.pc, loops := x.loops, tokens := x.tokens, posts := x.posts, unflagged := x.unflagged, stopbad := x.stopbad, holding := x.holding, atHandler := x.atHandler, flagIgnored := x.flagIgnored, holdSince := x.holdSince, waitSeen := x.waitSeen, replayAt := x.replayAt, probe := x.probe, regs := x.regs, flights := x.flights } = x

end Sys2Proof.Machine.Safety
end

