-- ==== Sys2Proof/Certificates/Slice0/Obligations.lean ====
section
/-! DEFINITION. The statements for the provers. -/

open Sys2Proof (Instr Hdr Reg Byte W32 W64 encode decodeWords wordCount decodeTableWord)

open Sys2Proof.Machine Sys2Proof.Machine.Safety

/-- Two-operand arithmetic and bit-count words push the result of R50 and go on -/
def Obligations.ArithmeticPushesResult : Prop :=
  (∀ (s : State) (h : Hdr) (regs : FMap (List W64)) (tokens : FMap Nat) (d a b : Reg) (ka kb : Bool) (x y : W64),
    Issues s h { reads := [rd s a ka, rd s b kb], dst := dstOf s d } [x, y] regs tokens →
    let push (lat : Nat) (v : W64) : Host.Outcome State Fault Refusal := .next (onward s h false 1 (flyExposed (issued s h regs tokens) d 1 lat v))
    exec (.add h d a b ka kb) s = push 1 (x + y) ∧
    exec (.sub h d a b ka kb) s = push 1 (x - y) ∧
    exec (.and h d a b ka kb) s = push 1 (x &&& y) ∧
    exec (.or h d a b ka kb) s = push 1 (x ||| y) ∧
    exec (.xor h d a b ka kb) s = push 1 (x ^^^ y) ∧
    exec (.andn h d a b ka kb) s = push 1 (x &&& ~~~y) ∧
    exec (.sll h d a b ka kb) s = push 1 (x <<< (y.toNat % 64)) ∧
    exec (.srl h d a b ka kb) s = push 1 (x >>> (y.toNat % 64)) ∧
    exec (.sra h d a b ka kb) s = push 1 (x.sshiftRight (y.toNat % 64)) ∧
    exec (.rol h d a b ka kb) s = push 1 (x.rotateLeft (y.toNat % 64)) ∧
    exec (.min h d a b ka kb) s = push 1 (if x.toInt ≤ y.toInt then x else y) ∧
    exec (.max h d a b ka kb) s = push 1 (if x.toInt ≤ y.toInt then y else x) ∧
    exec (.minu h d a b ka kb) s = push 1 (if x.toNat ≤ y.toNat then x else y) ∧
    exec (.maxu h d a b ka kb) s = push 1 (if x.toNat ≤ y.toNat then y else x) ∧
    exec (.slt h d a b ka kb) s = push 1 (if x.toInt < y.toInt then 1 else 0) ∧
    exec (.sltu h d a b ka kb) s = push 1 (if x.toNat < y.toNat then 1 else 0) ∧
    exec (.mul h d a b ka kb) s = push 4 (BitVec.ofNat 64 (x.toNat * y.toNat)) ∧
    exec (.mulh h d a b ka kb) s = push 4 (BitVec.ofInt 64 (x.toInt * y.toInt / 2 ^ 64)) ∧
    exec (.mulhu h d a b ka kb) s = push 4 (BitVec.ofNat 64 (x.toNat * y.toNat / 2 ^ 64)) ∧
    exec (.sext h d a b ka kb) s = push 1 (if y.toNat % 64 = 0 then x else (x.setWidth (y.toNat % 64)).signExtend 64) ∧
    exec (.zext h d a b ka kb) s = push 1 (if y.toNat % 64 = 0 then x else BitVec.ofNat 64 (x.toNat % 2 ^ (y.toNat % 64))) ∧
    exec (.sel h d a b ka kb) s = push 1 (if x = 0 then 0 else y)) ∧
  (∀ (s : State) (h : Hdr) (regs : FMap (List W64)) (tokens : FMap Nat) (d a : Reg) (ka : Bool) (x : W64),
    Issues s h { reads := [rd s a ka], dst := dstOf s d } [x] regs tokens →
    let push (n : Nat) : Host.Outcome State Fault Refusal := .next (onward s h false 1 (flyExposed (issued s h regs tokens) d 1 1 (BitVec.ofNat 64 n)))
    (∃ n, exec (.clz h d a ka) s = push n ∧ n ≤ 64 ∧ x.toNat < 2 ^ (64 - n) ∧ (n = 64 ∨ 2 ^ (63 - n) ≤ x.toNat)) ∧
    (∃ n, exec (.ctz h d a ka) s = push n ∧ n ≤ 64 ∧ x.toNat % 2 ^ n = 0 ∧ (n = 64 ∨ x.toNat / 2 ^ n % 2 = 1)) ∧
    exec (.popc h d a ka) s = push ((List.range 64).filter fun i => x.getLsbD i).length)

/-- The division words push the quotient and the remainder of R51, with its two fixed cases -/
def Obligations.DivisionPushesQuotientAndRemainder : Prop :=
  ∀ (s : State) (h : Hdr) (regs : FMap (List W64)) (tokens : FMap Nat) (d a b : Reg) (ka kb : Bool) (x y : W64),
    Issues s h { reads := [rd s a ka, rd s b kb], dst := dstOf s d } [x, y] regs tokens →
    let push (v : W64) : Host.Outcome State Fault Refusal := .next (onward s h false 1 (flyExposed (issued s h regs tokens) d 1 24 v))
    (y = 0 → exec (.div h d a b ka kb) s = push 0xFFFFFFFFFFFFFFFF ∧ exec (.rem h d a b ka kb) s = push x ∧
      exec (.divu h d a b ka kb) s = push 0xFFFFFFFFFFFFFFFF ∧ exec (.remu h d a b ka kb) s = push x) ∧
    (x = 0x8000000000000000 ∧ y = 0xFFFFFFFFFFFFFFFF → exec (.div h d a b ka kb) s = push x ∧ exec (.rem h d a b ka kb) s = push 0) ∧
    (y ≠ 0 → exec (.divu h d a b ka kb) s = push (BitVec.ofNat 64 (x.toNat / y.toNat)) ∧
      exec (.remu h d a b ka kb) s = push (BitVec.ofNat 64 (x.toNat % y.toNat))) ∧
    (y ≠ 0 ∧ ¬(x = 0x8000000000000000 ∧ y = 0xFFFFFFFFFFFFFFFF) → ∃ q r : W64,
      exec (.div h d a b ka kb) s = push q ∧ exec (.rem h d a b ka kb) s = push r ∧
      x.toInt = q.toInt * y.toInt + r.toInt ∧ r.toInt.natAbs < y.toInt.natAbs ∧
      (0 ≤ x.toInt → 0 ≤ r.toInt) ∧ (x.toInt ≤ 0 → r.toInt ≤ 0))

/-- The immediate words push the results of R30 and R52 -/
def Obligations.ImmediateFormsPushResult : Prop :=
  (∀ (s : State) (h : Hdr) (regs : FMap (List W64)) (tokens : FMap Nat) (d a : Reg) (ka : Bool) (imm : BitVec 10) (imm9 : BitVec 9) (sh : BitVec 6) (x : W64),
    Issues s h { reads := [rd s a ka], dst := dstOf s d } [x] regs tokens →
    let push (v : W64) : Host.Outcome State Fault Refusal := .next (onward s h false 1 (flyExposed (issued s h regs tokens) d 1 1 v))
    exec (.addi h d a ka imm) s = push (x + imm.signExtend 64) ∧
    exec (.andi h d a ka imm) s = push (x &&& imm.signExtend 64) ∧
    exec (.ori h d a ka imm) s = push (x ||| imm.signExtend 64) ∧
    exec (.xori h d a ka imm) s = push (x ^^^ imm.signExtend 64) ∧
    exec (.slli h d a ka sh) s = push (x <<< sh.toNat) ∧
    exec (.srli h d a ka sh) s = push (x >>> sh.toNat) ∧
    exec (.srai h d a ka sh) s = push (x.sshiftRight sh.toNat) ∧
    exec (.slti h d a ka imm9) s = push (if x.toInt < imm9.toInt then 1 else 0) ∧
    exec (.seqi h d a ka imm9) s = push (if x.toInt = imm9.toInt then 1 else 0)) ∧
  (∀ (s : State) (h : Hdr) (regs : FMap (List W64)) (tokens : FMap Nat) (d : Reg) (imm hi : BitVec 16) (mid : BitVec 28) (lo : BitVec 20),
    (Issues s h { dst := dstOf s d } [] regs tokens →
      exec (.li h d imm) s = .next (onward s h false 1 (flyExposed (issued s h regs tokens) d 1 1 (imm.signExtend 64))) ∧
      exec (.apc h d imm) s = .next (onward s h false 1 (flyExposed (issued s h regs tokens) d 1 1
        ((part s s.cur).pc + (imm.signExtend 64) * 4)))) ∧
    (Issues s h { words := 3, dst := dstOf s d } [] regs tokens →
      exec (.lih h d hi mid lo) s = .next (onward s h false 3 (flyExposed (issued s h regs tokens) d 3 1 (hi ++ mid ++ lo)))))

/-- A branch goes to its target where its condition holds, and on else; the jumps, calls and returns reach their targets, with their link -/
def Obligations.BranchesAndJumpsReachTheirTarget : Prop :=
  (∀ (s : State) (h : Hdr) (regs : FMap (List W64)) (tokens : FMap Nat) (a b : Reg) (off : BitVec 8) (x y : W64),
    let took (c : Prop) [Decidable c] : Host.Outcome State Fault Refusal :=
      .next (if c then jumped s h 1 ((part s s.cur).pc + off.signExtend 64 * 4).toNat (issued s h regs tokens)
        else onward s h false 1 (issued s h regs tokens))
    (Issues s h { reads := [rd s a false, rd s b false] } [x, y] regs tokens →
    exec (.beq h a b off) s = took (x = y) ∧
    exec (.bne h a b off) s = took (x ≠ y) ∧
    exec (.blt h a b off) s = took (x.toInt < y.toInt) ∧
    exec (.bge h a b off) s = took (y.toInt ≤ x.toInt) ∧
    exec (.bltu h a b off) s = took (x.toNat < y.toNat) ∧
    exec (.bgeu h a b off) s = took (y.toNat ≤ x.toNat)) ∧
    (Issues s h { reads := [rd s a false] } [x] regs tokens →
      exec (.bz h a off) s = took (x = 0) ∧ exec (.bnz h a off) s = took (x ≠ 0))) ∧
  (∀ (s : State) (h : Hdr) (regs : FMap (List W64)) (tokens : FMap Nat) (a : Reg) (off : BitVec 28) (x : W64),
    let target : Nat := ((part s s.cur).pc + off.signExtend 64 * 4).toNat
    (Issues s h { words := 2 } [] regs tokens → exec (.br h off) s = .next (jumped s h 2 target (issued s h regs tokens))) ∧
    (Issues s h { words := 2, dst := dstOf s a } [] regs tokens →
      exec (.call h a off) s = .next (jumped s h 2 target (flyExposed (issued s h regs tokens) a 1 1 ((part s s.cur).pc + 8)))) ∧
    (Issues s h { reads := [rd s a false] } [x] regs tokens →
      (x.toNat % 4 = 0 → exec (.ret h a) s = .next (jumped s h 1 x.toNat (issued s h regs tokens)) ∧
        exec (.jr h a) s = .next (jumped s h 1 x.toNat (issued s h regs tokens))) ∧
      (x.toNat % 4 ≠ 0 → exec (.ret h a) s = .next (trapAt (countIgnored s h) s.cur (.ret h a) 0 0x05 0 0) ∧
        exec (.jr h a) s = .next (trapAt (countIgnored s h) s.cur (.jr h a) 0 0x05 0 0))))

/-- loop and loopi arm a counter or skip the body; at a body end the loop armed last decides, and control returns to its start or the loop is disarmed -/
def Obligations.LoopsArmSkipAndEnd : Prop :=
  (∀ (s : State) (h : Hdr) (regs : FMap (List W64)) (tokens : FMap Nat) (n : Fin 4) (a : Reg) (ka : Bool) (count : BitVec 16) (len : BitVec 10) (x : W64),
    let loop (words trips : Nat) : Loop := {
      armed := true, count := trips, start := followingPc s words, stop := (followingPc s words + 4 * len.toNat) % 2 ^ 64, level := (part s s.cur).priv, order := loopOrder (part s s.cur).loops + 1 }
    let armed (words trips : Nat) : State :=
      modPart (issued s h regs tokens) s.cur fun x => { x with loops := fput (part s s.cur).loops n (loop words trips) }
    let skipped (words : Nat) : State :=
      moveOn (countIgnored s h) false h ((followingPc s words + 4 * len.toNat) % 2 ^ 64) (words + 2) (issued s h regs tokens)
    (fgetD (part s s.cur).loops n {}).armed = false →
    (Issues s h { reads := [rd s a ka] } [x] regs tokens →
      exec (.loop h n a ka len) s = .next (if x.toNat % 2 ^ 32 = 0 then skipped 1 else onward s h false 1 (armed 1 (x.toNat % 2 ^ 32)))) ∧
    (Issues s h { words := 2 } [] regs tokens →
      exec (.loopi h n count len) s = .next (if count.toNat = 0 then skipped 2 else onward s h false 2 (armed 2 count.toNat)))) ∧
  ((∀ (s : State) (h : Hdr) (n : Fin 4) (a : Reg) (ka : Bool) (len : BitVec 10),
    (fgetD (part s s.cur).loops n {}).armed = true → Tries s h →
    exec (.loop h n a ka len) s = .next (trapAt (countIgnored s h) s.cur (.loop h n a ka len) 0 0x01 0 0)) ∧
  (∀ (s : State) (h : Hdr) (n : Fin 4) (count : BitVec 16) (len : BitVec 10),
    (fgetD (part s s.cur).loops n {}).armed = true → Tries s h →
    exec (.loopi h n count len) s = .next (trapAt (countIgnored s h) s.cur (.loopi h n count len) 0 0x01 0 0)) ∧
  (∀ (t : State) (p q n : Nat) (l : Loop), (part t p).loops = [(n, l)] → l.armed = true → l.stop = q → l.level = (part t p).priv →
    (1 < l.count → arriveAt t p q = ([(n, { l with count := l.count - 1 })], l.start)) ∧
    (l.count ≤ 1 → arriveAt t p q = ([(n, {})], q))) ∧
  (∀ (t : State) (p q m n : Nat) (k l : Loop), m < n → (part t p).loops = [(m, k), (n, l)] → k.armed = true → l.armed = true →
    k.stop = q → l.stop = q → k.level = (part t p).priv → l.level = (part t p).priv → k.order < l.order → l.count ≤ 1 → 1 < k.count →
    arriveAt t p q = ([(m, { k with count := k.count - 1 }), (n, {})], k.start)) ∧
  (∀ (t : State) (p q m n : Nat) (k l : Loop), m < n → (part t p).loops = [(m, k), (n, l)] → k.armed = true → l.armed = true →
    k.stop = q → l.stop = q → k.level = (part t p).priv → l.level = (part t p).priv → l.order < k.order → k.count ≤ 1 → 1 < l.count →
    arriveAt t p q = ([(m, {}), (n, { l with count := l.count - 1 })], l.start)) ∧
  (∀ (t : State) (p q m n : Nat) (k l : Loop), m < n → (part t p).loops = [(m, k), (n, l)] → k.armed = true → l.armed = true →
    k.stop = q → l.stop = q → k.level = (part t p).priv → l.level = (part t p).priv → k.order ≠ l.order → k.count ≤ 1 → l.count ≤ 1 →
    arriveAt t p q = ([(m, {}), (n, {})], q)) ∧
  (∀ (t : State) (p q m n : Nat) (k l : Loop), m < n → (part t p).loops = [(m, k), (n, l)] → k.armed = true → l.armed = true →
    k.stop = q → l.stop = q → k.level = (part t p).priv → l.level = (part t p).priv →
    (k.order < l.order → 1 < l.count → arriveAt t p q = ([(m, k), (n, { l with count := l.count - 1 })], l.start)) ∧
    (l.order < k.order → 1 < k.count → arriveAt t p q = ([(m, { k with count := k.count - 1 }), (n, l)], k.start))) ∧
  (∀ (t : State) (p q : Nat), (∀ x ∈ (part t p).loops, x.2.stop = q → x.2.armed = true → x.2.level ≠ (part t p).priv) →
    arriveAt t p q = ((part t p).loops, q)))

/-- A due register write joins the tail of its queue, the earliest landing first, and in one ac the one issued first -/
def Obligations.RegisterWritesLandInOrder : Prop :=
  (∀ (s : State) (p : Nat) (f : Flight) (t : Nat) (v : W64), firstLanding (part s p).flights = some (f, t, v) →
    (t ≤ s.time → exec (.registerWriteLanding p) s = .next (landFlight s p f v)) ∧ (s.time < t → exec (.registerWriteLanding p) s = .next s)) ∧
  (∀ (s : State) (p : Nat) (f : Flight) (v : W64), (part s p).posts = [] →
    part (landFlight s p f v) p = { part s p with
      flights := dropFirst (· == f) (part s p).flights,
      regs := if f.reg = 0 then (part s p).regs else fput (part s p).regs f.reg (fgetD (part s p).regs f.reg [] ++ [v]) } ∧
    { landFlight s p f v with parts := s.parts } = s ∧ ∀ q, q ≠ p → part (landFlight s p f v) q = part s q) ∧
  (∀ (fs : List Flight) (f : Flight) (t : Nat) (v : W64), firstLanding fs = some (f, t, v) →
    (f.val = .exposed t v ∨ f.val = .landing t v) ∧
    ∃ before after, fs = before ++ f :: after ∧ (∀ g ∈ before, ∀ t' v', g.val = .exposed t' v' ∨ g.val = .landing t' v' → t < t') ∧
      ∀ g ∈ after, ∀ t' v', g.val = .exposed t' v' ∨ g.val = .landing t' v' → t ≤ t') ∧
  (∀ (fs : List Flight), firstLanding fs = none → ∀ g ∈ fs, ∀ t v, g.val ≠ .exposed t v ∧ g.val ≠ .landing t v)

/-- An empty queue holds the reader or raises QUEUE_UNDERFLOW (the first lacking one decides: log entry 6, the model's choice); a fifth entry raises QUEUE_OVERFLOW. The model's choice, not the manual's: which operand's lack decides when several registers hold no value: the first in the order of R28 (log entry 6 (DEDUCED)). -/
def Obligations.QueueChecksAtIssue : Prop :=
  (∀ (s : State) (h : Hdr) (d a b : Reg) (ka kb : Bool) (r : Nat),
    Tries s h →
    loopCuts (part s s.cur).loops (part s s.cur).priv (part s s.cur).pc.toNat 1 = false →
    takeReads (part s s.cur).regs [rd s a ka, rd s b kb] = .error r →
    exec (.add h d a b ka kb) s = .next
      (if (part s s.cur).flights.any (fun f => f.reg == r && interlocked f) then holdWord (countIgnored s h) s.cur h.stop
       else trapAt (countIgnored s h) s.cur (.add h d a b ka kb) 0 0x02 0 0) ∧
    exec (.sub h d a b ka kb) s = .next
      (if (part s s.cur).flights.any (fun f => f.reg == r && interlocked f) then holdWord (countIgnored s h) s.cur h.stop
       else trapAt (countIgnored s h) s.cur (.sub h d a b ka kb) 0 0x02 0 0)) ∧
  (∀ (s : State) (h : Hdr) (d a b : Reg) (ka kb : Bool) (vals : List W64) (regs : FMap (List W64)),
    Tries s h →
    loopCuts (part s s.cur).loops (part s s.cur).priv (part s s.cur).pc.toNat 1 = false →
    takeReads (part s s.cur).regs [rd s a ka, rd s b kb] = .ok (vals, regs) → dstOf s d ≠ 0 →
    4 < (fgetD regs (dstOf s d) []).length + inFlight (part s s.cur) (dstOf s d) + 1 →
    exec (.add h d a b ka kb) s = .next (trapAt (countIgnored s h) s.cur (.add h d a b ka kb) 0 0x03 0 0) ∧
    exec (.mul h d a b ka kb) s = .next (trapAt (countIgnored s h) s.cur (.mul h d a b ka kb) 0 0x03 0 0))

/-- trap enters the handler with cause and code, and a trap entry writes the 64 bytes of R370 at cr.trec -/
def Obligations.TrapWordTakesBreakAndRecords : Prop :=
  (∀ (s : State) (h : Hdr) (regs : FMap (List W64)) (tokens : FMap Nat) (code : BitVec 15),
    Issues s h {} [] regs tokens → (part s s.cur).flights = [] →
    ∃ t, exec (.trap h code) s = .next t ∧
      part t s.cur = { part s s.cur with
        tpc := (part s s.cur).pc + 4, tcause := BitVec.ofNat 64 (0x10 + code.toNat * 256), tpriv := (part s s.cur).priv,
        priv := 1, unflagged := 0, pc := (part s s.cur).tvec, resumeQueues := 6 :: (part s s.cur).resumeQueues, atHandler := true, replayAt := none, probe := none, holding := false, flagIgnored := false, fetchSeen := none, leaveWait := none } ∧
      (∀ q, q ≠ s.cur → part t q = part s q) ∧
      (∀ c, { core t c with nextIssue := (core s c).nextIssue } = core s c) ∧
      (inHbm (quarterOf s.cur) (part s s.cur).trec.toNat 64 = false → t.mem = s.mem ∧ t.die = s.die)) ∧
  (∀ (s : State) (p : Nat) (t : TrapEntry), inHbm (quarterOf p) (part s p).trec.toNat 64 = true →
    let u := enterHandler s p t
    let x := part s p
    let bs := trapRecord s x t (viewOf s p) (!x.pending.isEmpty)
    u.mem = (physPut s x.trec.toNat bs).mem ∧ u.die = (physPut s x.trec.toNat bs).die ∧ bs.length = 64 ∧
    (t.cause < 256 → t.code < 2 ^ 15 → x.priv < 4 → t.src < 8 → viewOf s p < 2 ^ 12 →
      leNat (bs.take 8) = t.cause + t.code * 2 ^ 8 + x.priv * 2 ^ 26 + (if x.pending.isEmpty then 0 else 2 ^ 28) + t.src * 2 ^ 29 + viewOf s p * 2 ^ 36) ∧
    (t.tpc < 2 ^ 64 → leNat ((bs.drop 8).take 8) = t.tpc) ∧ (t.pc < 2 ^ 64 → leNat ((bs.drop 16).take 8) = t.pc) ∧
    (t.word0 < 2 ^ 32 → leNat ((bs.drop 24).take 4) = t.word0) ∧ (t.word1 < 2 ^ 32 → leNat ((bs.drop 28).take 4) = t.word1) ∧
    leNat ((bs.drop 32).take 8) = t.addr.toNat ∧ leNat ((bs.drop 40).take 8) = x.workid.toNat ∧
    leNat ((bs.drop 48).take 8) = x.cont.toNat ∧ (s.time < 2 ^ 64 → leNat ((bs.drop 56).take 8) = s.time))

/-- tret resumes at cr.tpc and at the level in cr.tpriv; at user level it raises ACCESS. The model's choice, not the manual's: that a tret resumes the queues that the entry of its own trap froze (log entry 148 (DEDUCED)). -/
def Obligations.TrapReturnResumes : Prop :=
  ∀ (s : State) (h : Hdr) (regs : FMap (List W64)) (tokens : FMap Nat),
    (Issues s h { level := 1 } [] regs tokens →
      ∃ t, exec (.tret h) s = .next (postReady (modCore t (coreOf s.cur) fun c => { c with nextIssue := s.time + 1 }) s.cur) ∧
        (part t s.cur).pc = (part s s.cur).tpc ∧ (part t s.cur).priv = (part s s.cur).tpriv ∧ (part t s.cur).unflagged = 0 ∧
        (part t s.cur).regs = (part s s.cur).regs ∧ (part t s.cur).flights = (part s s.cur).flights ∧
        (part t s.cur).loops = (part s s.cur).loops ∧ (part t s.cur).tokens = tokens ∧
        (part t s.cur).resumeQueues = (part s s.cur).resumeQueues.tail ∧
        (∀ k r, (part s s.cur).resumeQueues = k :: r → k < 6 → k ∉ r → (∀ u ∈ (part s s.cur).pending, u.queue ≠ k) →
          cmdQueue t s.cur k = { cmdQueue s s.cur k with frozen := false }) ∧
        (∀ k, (part s s.cur).resumeQueues.head? ≠ some k → cmdQueue t s.cur k = cmdQueue s s.cur k) ∧ t.mem = s.mem ∧ t.die = s.die) ∧
    ((part s s.cur).priv = 0 → Tries s h →
      loopCuts (part s s.cur).loops 0 (part s s.cur).pc.toNat 1 = false →
      exec (.tret h) s = .next (trapAt (countIgnored s h) s.cur (.tret h) 0 0x06 0 0))

/-- At a count of 63 a word without the stop flag does not issue: the partition waits for its writes and takes STOP_SPACING -/
def Obligations.StopSpacingEnforced : Prop :=
  (∀ (s : State) (h : Hdr) (d a b : Reg) (ka kb : Bool), (part s s.cur).entering = none →
    (part s s.cur).priv ≠ 0 ∨ (core s (coreOf s.cur)).sideHeld = [] → h.stop = false → 63 ≤ (part s s.cur).unflagged →
    exec (.add h d a b ka kb) s = .next (if (part s s.cur).flights.isEmpty then trapAt s s.cur (.add h d a b ka kb) 0 0x04 0 0 else holdWord s s.cur h.stop) ∧
    exec (.fence h 1) s = .next (if (part s s.cur).flights.isEmpty then trapAt s s.cur (.fence h 1) 0 0x04 0 0 else holdWord s s.cur h.stop)) ∧
  (∀ (s : State) (p : Nat) (i : Instr), hasIssue s p = true → (part s p).entering = none → (part s p).priv ≠ 0 ∨ (core s (coreOf p)).sideHeld = [] →
    63 ≤ (part s p).unflagged → (part s p).flights = [] → peekInstr s p = some i → (Sys2Proof.hdrOf (headOf i)).stop = false →
    exec (.stopSpacing p) s = .next (trapAt s p i 0 0x04 0 0)) ∧
  (∀ (s : State) (h : Hdr) (regs : FMap (List W64)) (tokens : FMap Nat),
    (part (issued s h regs tokens) s.cur).unflagged = if h.stop then 0 else (part s s.cur).unflagged + 1)

/-- A word takes both its tokens or holds, and posts both or none; a queue holds at most 8 -/
def Obligations.TokensTakenAndPostedTogether : Prop :=
  ((∀ (m : FMap Nat) (st : Nat) (wp wn : Bool), st < 4 →
    (takeTokens m st wp wn = none ↔ (wp = true ∧ fgetD m (waitPrev st) 0 = 0) ∨ (wn = true ∧ fgetD m (waitNext st) 0 = 0)) ∧
    ∀ m', takeTokens m st wp wn = some m' → ∀ k, fgetD m' k 0 =
      fgetD m k 0 - (if wp = true ∧ k = waitPrev st then 1 else 0) - (if wn = true ∧ k = waitNext st then 1 else 0)) ∧
  (∀ (m : FMap Nat) (st : Nat) (sp sn : Bool), st < 4 →
    (putTokens m st sp sn = none ↔ (sp = true ∧ 8 ≤ fgetD m (postPrev st) 0) ∨ (sn = true ∧ 8 ≤ fgetD m (postNext st) 0)) ∧
    ∀ m', putTokens m st sp sn = some m' → ∀ k, fgetD m' k 0 =
      fgetD m k 0 + (if sp = true ∧ k = postPrev st then 1 else 0) + (if sn = true ∧ k = postNext st then 1 else 0)) ∧
  (∀ st, st < 4 → postNext st = waitPrev ((st + 1) % 4) ∧ postPrev st = waitNext ((st + 3) % 4))) ∧
  (∀ (s : State) (h : Hdr) (d a b : Reg) (ka kb : Bool) (vals : List W64) (regs : FMap (List W64)),
    Tries s h →
    loopCuts (part s s.cur).loops (part s s.cur).priv (part s s.cur).pc.toNat 1 = false →
    takeReads (part s s.cur).regs [rd s a ka, rd s b kb] = .ok (vals, regs) →
    dstOf s d = 0 ∨ (fgetD regs (dstOf s d) []).length + inFlight (part s s.cur) (dstOf s d) + 1 ≤ 4 →
    takeTokens (part s s.cur).tokens 0 h.wp h.wn = none →
    let u := holdWord (countIgnored s h) s.cur h.stop
    exec (.add h d a b ka kb) s = .next u ∧ (part u s.cur).regs = (part s s.cur).regs ∧ (part u s.cur).flights = (part s s.cur).flights ∧
    (part u s.cur).tokens = (part s s.cur).tokens ∧ (part u s.cur).pc = (part s s.cur).pc ∧ u.mem = s.mem)

/-- crr pushes the register of R49, R304 or R387 that it names, as read at issue, 2 ac later -/
def Obligations.ControlRegistersRead : Prop :=
  ∀ (s : State) (h : Hdr) (regs : FMap (List W64)) (tokens : FMap Nat) (d : Reg),
    let x := part s s.cur
    let c := core s (coreOf s.cur)
    let get (n : BitVec 10) (v : W64) : Prop := exec (.crr h d n) s = .next (onward s h false 1 (flyExposed (issued s h regs tokens) d 1 2 v))
    (Issues s h { dst := dstOf s d } [] regs tokens →
    get 0x001 (w64 x.priv) ∧
    get 0x002 (x.cont) ∧
    get 0x003 (x.workid) ∧
    get 0x004 (w64 x.asid) ∧
    get 0x008 (fgetD x.carry 0 0) ∧
    get 0x009 (fgetD x.carry 1 0) ∧
    get 0x00A (fgetD x.carry 2 0) ∧
    get 0x00B (fgetD x.carry 3 0) ∧
    get 0x010 (w64 (fgetD x.loops 0 {}).count) ∧
    get 0x011 (w64 (fgetD x.loops 1 {}).count) ∧
    get 0x012 (w64 (fgetD x.loops 2 {}).count) ∧
    get 0x013 (w64 (fgetD x.loops 3 {}).count) ∧
    get 0x019 (w64 (part (countIgnored s h) s.cur).stopbad) ∧
    get 0x01A (w64 x.leave) ∧
    get 0x020 (x.seed) ∧
    get 0x060 (w64 (s.modeSet + s.profile * 4 + (if s.ordered then 8 else 0) + if s.capture then 16 else 0)) ∧
    get 0x061 (w64 ((if (recording s s.cur).1 then 1 else 0) + if (recording s s.cur).2 then 2 else 0)) ∧
    (∀ n : Fin 16, get (0x040 + BitVec.ofNat 10 n.val) (fgetD c.formats n.val 0))) ∧
    (Issues s h { dst := dstOf s d, level := 1 } [] regs tokens →
    get 0x030 (x.tvec) ∧
    get 0x031 (x.trec) ∧
    get 0x032 (x.tpc) ∧
    get 0x033 (x.tcause) ∧
    get 0x034 (w64 x.tpriv) ∧
    get 0x050 (w64 ((quarter s (quarterOf s.cur)).mswaysSt * 2 ^ 14 + (quarter s (quarterOf s.cur)).drained * 2 ^ 9 + (quarter s (quarterOf s.cur)).msways)) ∧
    get 0x051 (c.slbase) ∧
    get 0x052 (w64 (c.sideLog.length + if c.sideHeld.isEmpty then 0 else 2 ^ 16)) ∧
    get 0x062 (w64 x.pending.length)) ∧
    (Issues s h { dst := dstOf s d } [] regs tokens → Unrecorded s →
      exec (.crr h d 0x018) s = .next (onward s h false 1 (flyExposed (bumpOrdinal (issued s h regs tokens) s.cur) d 1 2 (w64 s.time))) ∧
      exec (.crr h d 0x000) s = .next (onward s h false 1 (flyExposed (bumpOrdinal (issued s h regs tokens) s.cur) d 1 2
        (w64 (Sys2Proof.Config.device * 2 ^ 48 + quarterOf s.cur * 2 ^ 8 + coreOf s.cur % 48 * 4 + s.cur % 4)))))

/-- crw writes the register it names at issue; the next word sees the new value -/
def Obligations.ControlRegistersWritten : Prop :=
  ∀ (s : State) (h : Hdr) (regs : FMap (List W64)) (tokens : FMap Nat) (r : Reg) (kt : Bool) (v : W64),
    let set (n : BitVec 10) (f : Part → Part) : Prop :=
      exec (.crw h r n kt) s = .next (onward s h false 1 (modPart (issued s h regs tokens) s.cur f))
    let setCore (n : BitVec 10) (f : Core → Core) : Prop :=
      exec (.crw h r n kt) s = .next (onward s h false 1 (modCore (issued s h regs tokens) (coreOf s.cur) f))
    (Issues s h { reads := [rd s r kt] } [v] regs tokens →
      (∀ i, i < 4 → let lc := fgetD (part s s.cur).loops i {}
        let n : BitVec 10 := BitVec.ofNat 10 (0x010 + i)
        set (BitVec.ofNat 10 (0x008 + i)) (fun x => { x with carry := fput x.carry i v }) ∧
        (v.toNat % 2 ^ 32 = 0 → set n fun x => { x with loops := fput x.loops i {} }) ∧
        (v.toNat % 2 ^ 32 ≠ 0 → lc.armed = true → set n fun x => { x with loops := fput x.loops i { lc with count := v.toNat % 2 ^ 32 } }) ∧
        (v.toNat % 2 ^ 32 ≠ 0 → lc.armed = false → set n fun x => x)) ∧
      (∀ i, i < 16 → let n : BitVec 10 := BitVec.ofNat 10 (0x040 + i)
        (v.toNat % 16 < 12 → setCore n fun c => { c with formats := fput c.formats i (w64 (v.toNat % 64)) }) ∧
        (12 ≤ v.toNat % 16 → exec (.crw h r n kt) s = .next (trapAt (countIgnored s h) s.cur (.crw h r n kt) 0 0x01 0 0)))) ∧
    (Issues s h { reads := [rd s r kt], level := 1 } [v] regs tokens →
      set 0x019 (fun x => { x with stopbad := v.toNat % 2 ^ 32 }) ∧ set 0x020 (fun x => { x with seed := v }) ∧
      set 0x030 (fun x => { x with tvec := w64 (v.toNat / 4 * 4) }) ∧ set 0x031 (fun x => { x with trec := w64 (v.toNat % 2 ^ 48 / 64 * 64) }) ∧
      set 0x032 (fun x => { x with tpc := w64 (v.toNat / 4 * 4) }) ∧
      (v.toNat % 4 ≠ 3 → set 0x034 fun x => { x with tpriv := v.toNat % 4 }) ∧
      (v.toNat % 4 = 3 → exec (.crw h r 0x034 kt) s = .next (onward s h false 1 (issued s h regs tokens))) ∧
      setCore 0x051 (fun c => { c with slbase := w64 (v.toNat / 2 ^ 22 * 2 ^ 22) }) ∧
      ((part s s.cur).msDone = true → BaseView s → exec (.crw h r 0x050 kt) s = .next (onward s h false 1
        (modQuarter (modPart (issued s h regs tokens) s.cur fun x => { x with msDone := false }) (quarterOf s.cur)
          fun x => { x with msQueue := x.msQueue.filter (· != s.cur) }))))

/-- An unassigned register number and a write of a read-only register raise ILLEGAL; too low a level raises ACCESS -/
def Obligations.ControlRegisterTraps : Prop :=
  ∀ (s : State) (h : Hdr) (d r : Reg) (kt : Bool),
    Tries s h →
    loopCuts (part s s.cur).loops (part s s.cur).priv (part s s.cur).pc.toNat 1 = false →
    let trapR (n : BitVec 10) (cause : Nat) : Prop := exec (.crr h d n) s = .next (trapAt (countIgnored s h) s.cur (.crr h d n) 0 cause 0 0)
    let trapW (n : BitVec 10) (cause : Nat) : Prop := exec (.crw h r n kt) s = .next (trapAt (countIgnored s h) s.cur (.crw h r n kt) 0 cause 0 0)
    (trapR 0x005 0x01 ∧ trapR 0x014 0x01 ∧ trapR 0x035 0x01 ∧ trapR 0x053 0x01 ∧ trapR 0x3FF 0x01 ∧ trapW 0x005 0x01 ∧
      trapW 0x000 0x01 ∧ trapW 0x001 0x01 ∧ trapW 0x004 0x01 ∧ trapW 0x018 0x01 ∧ trapW 0x01A 0x01 ∧ trapW 0x033 0x01 ∧
      trapW 0x052 0x01 ∧ trapW 0x060 0x01 ∧ trapW 0x061 0x01 ∧ trapW 0x062 0x01) ∧
    ((part s s.cur).priv = 0 →
      trapR 0x030 0x06 ∧ trapR 0x031 0x06 ∧ trapR 0x032 0x06 ∧ trapR 0x033 0x06 ∧ trapR 0x034 0x06 ∧ trapR 0x050 0x06 ∧ trapR 0x051 0x06 ∧
      trapR 0x052 0x06 ∧ trapR 0x062 0x06 ∧ trapW 0x019 0x06 ∧ trapW 0x020 0x06 ∧ trapW 0x030 0x06 ∧ trapW 0x032 0x06 ∧ trapW 0x034 0x06 ∧
      trapW 0x050 0x06 ∧ trapW 0x051 0x06)

/-- Semaphore words add and wait; mbrd reads a box of its own partition, mbwr writes a box of the partition that its operand names -/
def Obligations.SemaphoresAndMailboxes : Prop :=
  (∀ (s : State) (h : Hdr) (regs : FMap (List W64)) (tokens : FMap Nat) (n : Fin 16) (a : Reg) (ka : Bool) (v : W64),
    Issues s h { reads := [rd s a ka] } [v] regs tokens →
    (Settled s → exec (.semadd h n a ka) s = .next (onward s h false 1 (modPart (issued s h regs tokens) s.cur fun x =>
      { x with sems := fput x.sems n (min (max (fgetD x.sems n 0 + v.toInt) (-2 ^ 31)) (2 ^ 31 - 1)) }))) ∧
    (v.toInt ≤ fgetD (part s s.cur).sems n 0 → exec (.semwt h n a ka) s = .next (onward s h false 1 (issued s h regs tokens))) ∧
    (fgetD (part s s.cur).sems n 0 < v.toInt → exec (.semwt h n a ka) s = .next (holdWord (countIgnored s h) s.cur h.stop))) ∧
  (∀ (s : State) (h : Hdr) (regs : FMap (List W64)) (tokens : FMap Nat) (d a b : Reg) (n : Fin 16) (ka kb : Bool) (x y : W64),
    (Issues s h { dst := dstOf s d } [] regs tokens → Unrecorded s →
      exec (.mbrd h d n) s = .next (onward s h false 1 (fly (bumpOrdinal (issued s h regs tokens) s.cur) d (.ready (mailboxRead s s.cur n))))) ∧
    (Issues s h { reads := [rd s a ka, rd s b kb], level := 1 } [x, y] regs tokens → BaseView s → Settled s → ∀ q,
      mailboxTarget x.toNat = some q →
      exec (.mbwr h n a b ka kb) s = .next (onward s h false 1 (setMailbox (issued s h regs tokens) q n y))) ∧
    (Issues s h { reads := [rd s a ka, rd s b kb], level := 1 } [x, y] regs tokens → mailboxTarget x.toNat = none →
      exec (.mbwr h n a b ka kb) s = .next (trapAt (countIgnored s h) s.cur (.mbwr h n a b ka kb) 0 0x06 0 0)) ∧
    (∀ q, fgetD (part (setMailbox s q n y) q).mailboxes n 0 = y))

/-- lvreq waits for leave of its class, LEAVE_GRANT grants it within the limit, and lvrel gives it back; an invalid class raises ACCESS -/
def Obligations.LeaveAskedGrantedAndReleased : Prop :=
  (∀ (s : State) (h : Hdr) (regs : FMap (List W64)) (tokens : FMap Nat) (a : Reg) (ka : Bool) (v : W64),
    Issues s h { reads := [rd s a ka] } [v] regs tokens →
    let held : Bool := nbit (part s s.cur).leave v.toNat
    (2 < v.toNat → exec (.lvreq h a ka) s = .next (trapAt (countIgnored s h) s.cur (.lvreq h a ka) 0 0x06 0 0) ∧
      exec (.lvrel h a ka) s = .next (trapAt (countIgnored s h) s.cur (.lvrel h a ka) 0 0x06 0 0)) ∧
    (v.toNat ≤ 2 → held = true →
      exec (.lvreq h a ka) s = .next (onward s h false 1 (modPart (issued s h regs tokens) s.cur fun x => { x with leaveWait := none })) ∧
      exec (.lvrel h a ka) s = .next (onward s h false 1 (returnLeave (modPart (issued s h regs tokens) s.cur fun x =>
        { x with leave := x.leave - 2 ^ v.toNat }) (quarterOf s.cur) v.toNat))) ∧
    (v.toNat ≤ 2 → held = false →
      exec (.lvrel h a ka) s = .next (onward s h false 1 (issued s h regs tokens)) ∧
      ((part s s.cur).leaveWait = none → exec (.lvreq h a ka) s = .next (holdWord (countIgnored
        (askLeave (modPart s s.cur fun x => { x with leaveWait := some v.toNat }) s.cur v.toNat none) h) s.cur h.stop)))) ∧
  (∀ (s : State) (q p cls : Nat) (l : LeaveReq), cls ≤ 2 → (quarter s q).leaves = [l] → l = { cls := cls, part := p, cmd := none } →
    (part s p).leaveWait = some cls → nbit (part s p).leave cls = false →
    let limit : Nat := if cls = 0 then (if s.profile = 0 then 48 else 24) else if cls = 1 then (if s.profile = 0 then 16 else 8) else 1
    (fgetD (quarter s q).granted cls 0 < limit → ∃ t, exec (.leaveGrant q cls) s = .next t ∧
      part t p = { part s p with leave := (part s p).leave + 2 ^ cls, leaveWait := none } ∧
      quarter t q = { quarter s q with leaves := [], granted := fput (quarter s q).granted cls (fgetD (quarter s q).granted cls 0 + 1) } ∧
      (∀ r, r ≠ p → part t r = part s r) ∧ t.mem = s.mem) ∧
    (limit ≤ fgetD (quarter s q).granted cls 0 → exec (.leaveGrant q cls) s = .next s))

/-- park, yield and done release the held leave and give up the record, once nothing is in flight or queued; park goes on at a fired monitor (log entry 27: the model's choice). The model's choice, not the manual's: that park turns off a monitor that has fired (log entry 27 (DEDUCED)). -/
def Obligations.SuspensionPointsLeave : Prop :=
  ∀ (s : State) (h : Hdr) (regs : FMap (List W64)) (tokens : FMap Nat),
    (part s s.cur).priv = 0 → Issues s h {} [] regs tokens → (part s s.cur).flights = [] →
    (∀ k, k < 3 → (cmdQueue s s.cur k).queued = [] ∧ (cmdQueue s s.cur k).running = []) → Settled s →
    let away (t : State) : Host.Outcome State Fault Refusal := .next (postReady (modCore
      (if (part t s.cur).resident.isSome then modPart t s.cur fun x => { x with posts := x.posts ++ owedPosts (countIgnored s h) false h } else t)
      (coreOf s.cur) fun c => { c with nextIssue := s.time + 1 }) s.cur)
    let free := releaseLeave (issued s h regs tokens) s.cur
    let resume := ((part s s.cur).pc.toNat + 4) % 2 ^ 64
    (isLive (part s s.cur) = false →
      ((part s s.cur).monitor = .off → exec (.park h) s = away (suspendRecord free s.cur resume 0 0 .ready 0)) ∧
      (∀ id, (part s s.cur).monitor = .armed id → exec (.park h) s = away (suspendRecord free s.cur resume 1 0 .monitor 0)) ∧
      (∀ tag, (part s s.cur).monitor = .armedRemote tag → exec (.park h) s = away (suspendRecord free s.cur resume 1 0 .monitor tag)) ∧
      ((part s s.cur).monitor = .fired → exec (.park h) s = .next (onward s h false 1 (modPart free s.cur fun x => { x with monitor := .off, tokens := [] }))) ∧
      exec (.yield h) s = away (suspendRecord (releaseLeave { issued s h regs tokens with
        monitors := s.monitors.filter fun m => m.owner != .part s.cur } s.cur) s.cur resume 0 0 .ready 0)) ∧
    (BaseView s → exec (.done h) s = away (endRecord free s.cur) ∧
      ((part s s.cur).resident.isSome = true → let x := part (endRecord free s.cur) s.cur
        x.regs = [] ∧ x.loops = [] ∧ x.monitor = .off ∧ x.flights = [] ∧ x.resident = none))

/-- park and yield raise PARK_LIVE while a queue register holds an entry or a loop is armed, and ILLEGAL above user level -/
def Obligations.LiveStateStopsSuspension : Prop :=
  (∀ (s : State) (h : Hdr) (regs : FMap (List W64)) (tokens : FMap Nat), Issues s h {} [] regs tokens → (part s s.cur).flights = [] →
    (part s s.cur).priv = 0 → isLive (part s s.cur) = true →
    exec (.park h) s = .next (trapAt (countIgnored s h) s.cur (.park h) 0 0x09 0 0) ∧
    exec (.yield h) s = .next (trapAt (countIgnored s h) s.cur (.yield h) 0 0x09 0 0)) ∧
  (∀ (s : State) (h : Hdr) (regs : FMap (List W64)) (tokens : FMap Nat), Issues s h {} [] regs tokens → (part s s.cur).flights ≠ [] →
    (part s s.cur).priv = 0 →
    exec (.park h) s = .next (holdWord (countIgnored s h) s.cur h.stop) ∧ exec (.yield h) s = .next (holdWord (countIgnored s h) s.cur h.stop)) ∧
  (∀ (s : State) (h : Hdr), Tries s h →
    (part s s.cur).priv ≠ 0 →
    exec (.park h) s = .next (trapAt (countIgnored s h) s.cur (.park h) 0 0x01 0 0) ∧
    exec (.yield h) s = .next (trapAt (countIgnored s h) s.cur (.yield h) 0 0x01 0 0)) ∧
  (∀ (x : Part), isLive x = true ↔ (∃ e ∈ x.regs, e.2 ≠ []) ∨ ∃ l ∈ x.loops, l.2.armed = true)

/-- waitaddr pushes the doubleword it reads and arms the monitor exactly when it equals the operand, on its physical line (log entry 11, the model's choice). The model's choice, not the manual's: that the line armed is the physical line (log entry 11 (DEDUCED)). -/
def Obligations.WaitaddrReadsAndArms : Prop :=
  ∀ (s : State) (h : Hdr) (regs : FMap (List W64)) (tokens : FMap Nat) (d a b : Reg) (ka kb : Bool) (x e : W64) (u : State) (bs : List Byte),
    Issues s h { reads := [rd s a ka, rd s b kb], dst := dstOf s d, loads := true } [x, e] regs tokens → Settled s → Unrecorded s → Plain x.toNat 8 →
    readVa (noted s h regs tokens (.waitaddr h d a b ka kb)) (ctxOf s s.cur .control) x.toNat 8 0 = (u, .ok bs) →
    exec (.waitaddr h d a b ka kb) s = .next (onward s h false 1
      (fly (bumpOrdinal (armMonitor u s.cur x.toNat (w64 (leNat bs) == e)) s.cur) d (.ready (w64 (leNat bs))))) ∧
    (part (armMonitor u s.cur x.toNat false) s.cur).monitor = .off ∧
    (∀ pa, physOf u (part u s.cur).asid x.toNat = some pa → ∃ id, (part (armMonitor u s.cur x.toNat true) s.cur).monitor = .armed id ∧
      ∃ m ∈ (armMonitor u s.cur x.toNat true).monitors, m.id = id ∧ m.line = pa / 128 ∧ m.owner = .part s.cur)

/-- bist and scan start the test of an idle unit, hold, and push its result, which TEST_RESULT gives at the end of the test. The model's choice, not the manual's: that a test may end once the time of R362 has passed (log entry 5 (DEDUCED)). -/
def Obligations.SelfTestsRunAndReport : Prop :=
  (∀ (s : State) (h : Hdr) (regs : FMap (List W64)) (tokens : FMap Nat) (d a : Reg) (ka : Bool) (v : W64),
    Issues s h { reads := [rd s a ka], dst := dstOf s d, level := 2 } [v] regs tokens →
    let stalled (u : State) : Host.Outcome State Fault Refusal :=
      .next (modCore (modPart (countIgnored (modPart u s.cur fun x => { x with testHeld := true }) h) s.cur fun x => { x with holding := true }) (coreOf s.cur) fun c => { c with nextIssue := s.time + 1 })
    let refused (r : W64) : Host.Outcome State Fault Refusal :=
      stalled (modPart (dropTestLeave s s.cur) s.cur fun x => { x with testDone := some (s.time + 8, r) })
    (part (dropTestLeave s s.cur) s.cur).testLeave = false ∧
    (∀ (ac : Nat) (r : W64), (part s s.cur).testDone = some (ac, r) → ac ≤ s.time →
      exec (.bist h d a ka) s = .next (onward s h false 1 (fly (modPart (issued s h regs tokens) s.cur fun x => { x with testDone := none, testHeld := false }) d (.landing s.time r))) ∧
      exec (.scan h d a ka) s = .next (onward s h false 1 (fly (modPart (issued s h regs tokens) s.cur fun x => { x with testDone := none, testHeld := false }) d (.landing s.time r)))) ∧
    ((part s s.cur).testDone = none → (∀ e ∈ s.cores, e.2.testing = none) →
      (testUnit v.toNat = none → exec (.bist h d a ka) s = refused 3) ∧ (scanUnit v.toNat = none → exec (.scan h d a ka) s = refused 3) ∧
      (∀ c u, testUnit v.toNat = some (c, u) → coreIdle s c = false → exec (.bist h d a ka) s = refused 2) ∧
      (∀ c u, scanUnit v.toNat = some (c, u) → coreIdle s c = false → exec (.scan h d a ka) s = refused 2) ∧
      (∀ c u, testUnit v.toNat = some (c, u) → coreIdle s c = true → u < 0x10000 →
        u ≠ 1 ∨ nbit (part s s.cur).leave 0 = true ∨ (part s s.cur).testLeave = true →
        exec (.bist h d a ka) s = stalled (modCore s c fun x => { x with testing := some (v.toNat, s.cur, u, s.time + testTime u) })) ∧
      (∀ c, testUnit v.toNat = some (c, 1) → coreIdle s c = true → nbit (part s s.cur).leave 0 = false → (part s s.cur).testLeave = false →
        (quarter s (quarterOf s.cur)).leaves = [] → exec (.bist h d a ka) s = stalled (askLeave s s.cur 0 (some 0))) ∧
      (∀ c u, testUnit v.toNat = some (c, u) → coreIdle s c = true → 0x10000 ≤ u →
        exec (.bist h d a ka) s = stalled (modCore (emptySlice s c u) c fun x =>
          { x with testing := some (v.toNat, s.cur, u, s.time + 102400) })) ∧
      (∀ c, scanUnit v.toNat = some (c, 0) → coreIdle s c = true →
        exec (.scan h d a ka) s = stalled (modCore s c fun x => { x with testing := some (v.toNat, s.cur, 0, s.time + 131072) })))) ∧
  (∀ (s : State) (p : Nat) (fails : List W64),
    let due : Option (Nat × Core) := s.cores.find? fun c => match c.2.testing with | some (_, q, _, ends) => q == p && decide (ends ≤ s.time) | none => false
    (due = none → exec (.testResult p fails) s = .next s) ∧
    (∀ c x a u ends, due = some (c, x) → x.testing = some (a, p, u, ends) → u < 0x10000 ∨ s.atHomes = [] → (part s p).testLeave = false → p < 768 →
      ∃ t, exec (.testResult p fails) s = .next t ∧
      (part t p).testDone = some (s.time, if fails.isEmpty then 0 else 1) ∧ (core t (coreOf p)).nextIssue ≤ s.time ∧ (core t c).testing = none ∧
      (s.errors.length + fails.length ≤ 4096 → t.errors.length = s.errors.length + fails.length) ∧
      (u = 0x20 → (core t c).tile = []) ∧ (u = 1 → (core t c).acc = []) ∧ (u ≠ 0 → u ≠ 0x30 → u < 0x10000 → t.mem = s.mem)))

/-- errrd stores the oldest error record and pushes how many remain; jcancel pushes the status of its cancel -/
def Obligations.ErrorsReadAndJobsCancelled : Prop :=
  ∀ (s : State) (h : Hdr) (regs : FMap (List W64)) (tokens : FMap Nat) (d a : Reg) (ka : Bool) (x : W64),
    (Issues s h { reads := [rd s a ka], dst := dstOf s d, level := 2 } [x] regs tokens → Plain x.toNat 64 → Settled s → BaseView s →
      (s.errors = [] → exec (.errrd h d a ka) s = .next (onward s h false 1 (fly (noted s h regs tokens (.errrd h d a ka)) d (.ready (-1))))) ∧
      (∀ e r u old, s.errors = e :: r →
        performOp { noted s h regs tokens (.errrd h d a ka) with errors := r } (ctxOf s s.cur .control) x.toNat (.bytes (errorBytes e)) 0 = (u, .ok old) →
        exec (.errrd h d a ka) s = .next (onward s h false 1 (fly (retestRings u) d (.ready (w64 r.length)))))) ∧
    (Issues s h { reads := [rd s a ka], dst := dstOf s d, level := 1 } [x] regs tokens → BaseView s → Unrecorded s → x.toNat % 128 = 0 → isHere x.toNat = true →
      Unrecorded { (cancelJob (issued s h regs tokens) Sys2Proof.Config.device x.toNat).1 with cur := s.cur } →
      exec (.jcancel h d a ka) s = .next (onward s h false 1
        (fly (bumpOrdinal (cancelJob (issued s h regs tokens) Sys2Proof.Config.device x.toNat).1 s.cur) d
          (.ready (w64 (cancelJob (issued s h regs tokens) Sys2Proof.Config.device x.toNat).2)))))

/-- A load of a mapped aligned address pushes the bytes there, little-endian, sign- or zero-extended -/
def Obligations.LoadsPushWhatTheyRead : Prop :=
  ∀ (s : State) (h : Hdr) (regs : FMap (List W64)) (tokens : FMap Nat) (d a : Reg) (hint : BitVec 2) (off : BitVec 6) (x : W64),
    Issues s h { reads := [rd s a true], dst := dstOf s d, loads := true } [x] regs tokens → Settled s →
    let at_ (n : Nat) : Nat := (x + BitVec.ofInt 64 (off.toInt * n)).toNat
    let loads (n : Nat) (i : Instr) (f : List Byte → W64) : Prop := ∀ u bs, Plain (at_ n) n →
      readVa (noted s h regs tokens (i)) (ctxOf s s.cur .control) (at_ n) n hint.toNat = (u, .ok bs) →
      exec i s = .next (onward s h false 1 (fly u d (.ready (f bs))))
    loads 1 (.ldb h d a hint off) (fun bs => (BitVec.ofNat 8 (leNat bs)).signExtend 64) ∧
    loads 1 (.ldbu h d a hint off) (fun bs => BitVec.ofNat 64 (leNat bs)) ∧
    loads 2 (.ldh h d a hint off) (fun bs => (BitVec.ofNat 16 (leNat bs)).signExtend 64) ∧
    loads 2 (.ldhu h d a hint off) (fun bs => BitVec.ofNat 64 (leNat bs)) ∧
    loads 4 (.ldw h d a hint off) (fun bs => (BitVec.ofNat 32 (leNat bs)).signExtend 64) ∧
    loads 4 (.ldwu h d a hint off) (fun bs => BitVec.ofNat 64 (leNat bs)) ∧
    loads 8 (.ldd h d a hint off) (fun bs => BitVec.ofNat 64 (leNat bs)) ∧
    ((part s s.cur).priv = 2 → at_ 8 % 8 = 0 → ∀ q o, locOf (at_ 8) = .here q o → inMgmt o = true →
      exec (.ldd h d a hint off) s = .next (onward s h false 1 (fly (noted s h regs tokens (.ldd h d a hint off)) d (.ready (mgmtRead (noted s h regs tokens (.ldd h d a hint off)) q o))))) ∧
    (∀ (t : State) (c : Ctx) (va n hint q o pte place : Nat), c.view = 0 → 0 < n → va % 32 + n ≤ 32 → locOf va = .here q o → spotOf t q o = .memory →
      leafAt t q c.asid o = some (pte, place) → nbit pte 48 = false ∨ homeQuarter c = q → unreadable t (leafPa pte o) = false →
      (∀ l, hitLine t c q o = some l → l.old = none ∧ 128 * l.pa + o % 128 = leafPa pte o) →
      (readVa t c va n hint).2 = .ok (cohBytes t (leafPa pte o) n) ∧ (readNum t c va n hint).2 = .ok (leNat (cohBytes t (leafPa pte o) n)) ∧
      ∀ i, i < n → (cohBytes t (leafPa pte o) n).getD i 0 = cohByte t (leafPa pte o + i))

/-- ldro reads through the read-only path of its core; ld.acq pushes what it reads, and later accesses of its stream wait until it has its value -/
def Obligations.ReadOnlyAndAcquireLoads : Prop :=
  ∀ (s : State) (h : Hdr) (regs : FMap (List W64)) (tokens : FMap Nat) (d a : Reg) (hint scope : BitVec 2) (size : BitVec 3) (off : BitVec 6) (x : W64),
    Issues s h { reads := [rd s a true], dst := dstOf s d, loads := true } [x] regs tokens → Settled s →
    let n : Nat := 2 ^ (size.toNat / 2)
    let va := (x + BitVec.ofInt 64 (off.toInt * (n : Int))).toNat
    (∀ u v, Plain va n → readOnly (noted s h regs tokens (.ldro h d a hint size off)) (ctxOf s s.cur .control) va n hint.toNat = (u, .ok v) →
      exec (.ldro h d a hint size off) s = .next (onward s h false 1 (fly u d (.ready
        (if size.getLsbD 0 then w64 v else sx64 (w64 v) (8 * n)))))) ∧
    (∀ u bs, Plain x.toNat 8 → Unrecorded s → readVa (noted s h regs tokens (.ldAcq h d a scope)) (ctxOf s s.cur .control) x.toNat 8 0 = (u, .ok bs) →
      exec (.ldAcq h d a scope) s = .next (onward s h false 1 (fly (bumpOrdinal u s.cur) d (.ready (w64 (leNat bs)))))) ∧
    (∀ u k va', Plain x.toNat 8 → Unrecorded s → readVa (noted s h regs tokens (.ldAcq h d a scope)) (ctxOf s s.cur .control) x.toNat 8 0 = (u, .error (.fault k va')) →
      exec (.ldAcq h d a scope) s = .next (onward s h false 1 (bumpOrdinal (fly0 (faultFor u (ctxOf s s.cur .control) va' 0 k) d (.load
        { va := x.toNat, bytes := 8, signed := false, readOnly := false, hint := 0, seen := u.retries + 1, gate := (part s s.cur).mark, watch := none, acq := true }))
        s.cur))) ∧
    (∀ (t : State) (p seq : Nat) (f : Flight) (r r' : LoadReq) (e : SideEntry), f ∈ (part t p).flights → f.val = .load r → r.acq = true → f.seq < seq →
      loadWaits t p seq r' = true ∧ (e.ctx.part = p → e.seq = seq → writeHolds t e = true)) ∧
    (∀ (t : State) (c : Ctx) (va n hint q o : Nat), locOf va = .here q o → va % 32 + n ≤ 32 →
      let copy := fget (core t (coreOf c.part)).roCopies (roKey (viewThat t c.view q o) c.asid ((q * 2 ^ 46 + o) / 32))
      (∀ y, copy = some y → (readOnly t c va n hint).2 = .ok (leNat ((y.bytes.drop (va % 32)).take n))) ∧
      (∀ pte place, copy = none → c.view = 0 → spotOf t q (o / 32 * 32) = .memory → leafAt t q c.asid (o / 32 * 32) = some (pte, place) →
        unreadable t (leafPa pte (o / 32 * 32)) = false →
        (∀ l, hitLine t { c with home := some q } q (o / 32 * 32) = some l → l.old = none ∧ 128 * l.pa + o / 32 * 32 % 128 = leafPa pte (o / 32 * 32)) →
        (readOnly t c va n hint).2 = .ok (leNat (cohBytes t (leafPa pte (o / 32 * 32) + o % 32) n))))

/-- A store changes exactly the bytes it names, least significant first, and no register but those it pops -/
def Obligations.StoresWriteTheirBytes : Prop :=
  ∀ (s : State) (h : Hdr) (regs : FMap (List W64)) (tokens : FMap Nat) (r a : Reg) (hint : BitVec 2) (off : BitVec 6) (x v : W64),
    Issues s h { reads := [rd s a true, rd s r false] } [x, v] regs tokens → Settled s → MemorySound s → BaseView s → (∀ q, q < 4 → (quarter s q).held2 = []) →
    let at_ (n : Nat) : Nat := (x + BitVec.ofInt 64 (off.toInt * n)).toNat
    let stores (va n : Nat) (i : Instr) : Prop := ∀ q o pte leaf, Plain va n → locOf va = .here q o → spotOf s q o = .memory →
      leafAt s q (part s s.cur).asid o = some (pte, leaf) → nbit pte 8 = false → nbit pte 48 = false → InPlace s (part s s.cur).asid q o pte → (∀ r ∈ s.tags.replicas, r.pa ≠ leafPa pte o / 128) →
      s.failing.contains (leafPa pte o / 32) = false →
      ∃ u, exec i s = .next (onward s h false 1 u) ∧
        (∀ pa, cohByte u pa = if leafPa pte o ≤ pa ∧ pa < leafPa pte o + n then BitVec.ofNat 8 (v.toNat / 2 ^ (8 * (pa - leafPa pte o))) else cohByte s pa) ∧
        (part u s.cur).regs = regs ∧ (part u s.cur).flights = (part s s.cur).flights ∧ (∀ c, core u c = core s c)
    stores (at_ 1) 1 (.stb h r a hint off) ∧
    stores (at_ 2) 2 (.sth h r a hint off) ∧
    stores (at_ 4) 4 (.stw h r a hint off) ∧
    stores (at_ 8) 8 (.std h r a hint off) ∧
    (∀ scope : BitVec 2, stores x.toNat 8 (.stRel h r a scope))

/-- An atomic acts once at its home, where the place takes the new value of its rule, and pushes the value it found there -/
def Obligations.AtomicsReturnTheOldValue : Prop :=
  (∀ (s : State) (h : Hdr) (regs : FMap (List W64)) (tokens : FMap Nat) (d a b : Reg) (ka kb : Bool) (x y z : W64),
    Settled s → Unrecorded s →
    let acts (op : AtomicOp) (y z : W64) (i : Instr) : Prop := ∀ u old, Plain x.toNat (atomicBytes op) →
      performOp (noted s h regs tokens (i)) (ctxOf s s.cur .control) x.toNat (.atomic op y z) 0 = (u, .ok old) → Unrecorded { retestRings u with cur := s.cur } →
      exec i s = .next (onward s h false 1 (fly (bumpOrdinal (retestRings u) s.cur) d (.ready old)))
    (Issues s h { reads := [rd s a ka, rd s b kb], dst := dstOf s d, loads := true } [x, y] regs tokens →
    acts .add y 0 (.amoadd h d a b ka kb) ∧
    acts .and y 0 (.amoand h d a b ka kb) ∧
    acts .or y 0 (.amoor h d a b ka kb) ∧
    acts .xor y 0 (.amoxor h d a b ka kb) ∧
    acts .min y 0 (.amomin h d a b ka kb) ∧
    acts .max y 0 (.amomax h d a b ka kb) ∧
    acts .minu y 0 (.amominu h d a b ka kb) ∧
    acts .maxu y 0 (.amomaxu h d a b ka kb) ∧
    acts .swap y 0 (.amoswap h d a b ka kb) ∧
    acts .fadd y 0 (.amofadd h d a b ka kb) ∧ acts .bfadd y 0 (.amobfadd h d a b ka kb)) ∧
    (Issues s h { reads := [rd s a ka, rd s b false, rd s b false], dst := dstOf s d, loads := true } [x, y, z] regs tokens → acts .cas y z (.amocas h d a b ka))) ∧
  ((∀ (old : Nat) (x y : W64), old < 2 ^ 64 →
    atomicNew .add old x y = some ((old + x.toNat) % 2 ^ 64) ∧ atomicNew .swap old x y = some x.toNat ∧
    atomicNew .and old x y = some (w64 old &&& x).toNat ∧ atomicNew .or old x y = some (w64 old ||| x).toNat ∧
    atomicNew .xor old x y = some (w64 old ^^^ x).toNat ∧
    atomicNew .minu old x y = some (min old x.toNat) ∧ atomicNew .maxu old x y = some (max old x.toNat) ∧
    (∃ v : W64, atomicNew .min old x y = some v.toNat ∧ v.toInt = min (w64 old).toInt x.toInt) ∧
    (∃ v : W64, atomicNew .max old x y = some v.toNat ∧ v.toInt = max (w64 old).toInt x.toInt) ∧
    (old = x.toNat → atomicNew .cas old x y = some y.toNat) ∧ (old ≠ x.toNat → atomicNew .cas old x y = none) ∧
    (∀ sum, addV (decodeF 0 old) (decodeF 0 x.toNat) = sum → atomicNew .fadd old x y = some (rneF 0 sum) ∧ (sum = .nan → atomicNew .fadd old x y = some 0x7FC00000)) ∧
    (∀ sum, addV (decodeF 1 old) (decodeF 1 x.toNat) = sum → atomicNew .bfadd old x y = some (rneF 1 sum) ∧ (sum = .nan → atomicNew .bfadd old x y = some 0x7FC0))) ∧
  (∀ (s u : State) (c : Ctx) (va : Nat) (op : AtomicOp) (x y old : W64), performOp s c va (.atomic op x y) 0 = (u, .ok old) →
    ∃ r bs, readHome s c va (atomicBytes op) 0 = (r, .ok bs) ∧ old = w64 (leNat bs) ∧
      (∀ n, atomicNew op (leNat bs) x y = some n → writeVa r (homeCtx c va) va (leBytes (atomicBytes op) n) 0 = (u, .ok ())) ∧
      (atomicNew op (leNat bs) x y = none → c.view = 0 → u = r)) ∧
  (∀ (s : State) (c : Ctx) (va n q o pte place : Nat), c.view = 0 → locOf va = .here q o → spotOf s q o = .memory → leafAt s q c.asid o = some (pte, place) →
    unreadable s (leafPa pte o) = false → (readHome s c va n 0).2 = .ok (cohBytes s (leafPa pte o) n)))

/-- bbinit and bbexp set up a byte barrier at its home; bbwait goes on once the phase differs from its operand. The model's choice, not the manual's: that each try of a bbwait is a read whose effects stay (log entry 153 (DESIGN CHOICE)). -/
def Obligations.BarrierWordsActOnTheirBarrier : Prop :=
  ∀ (s : State) (h : Hdr) (regs : FMap (List W64)) (tokens : FMap Nat) (d a b : Reg) (ka kb : Bool) (x y : W64),
    Settled s → Plain x.toNat 32 →
    (Issues s h { reads := [rd s a ka, rd s b kb], loads := true } [x, y] regs tokens →
      (∀ u old, performOp (noted s h regs tokens (.bbinit h a b ka kb)) (ctxOf s s.cur .control) x.toNat (.bbInit y) 0 = (u, .ok old) →
        exec (.bbinit h a b ka kb) s = .next (onward s h false 1 (retestRings u))) ∧
      (∀ u old, performOp (noted s h regs tokens (.bbexp h a b ka kb)) (ctxOf s s.cur .control) x.toNat (.bbExp y) 0 = (u, .ok old) →
        exec (.bbexp h a b ka kb) s = .next (onward s h false 1 (retestRings u)))) ∧
    (Issues s h { reads := [rd s a ka, rd s b kb], dst := dstOf s d, loads := true } [x, y] regs tokens → Unrecorded s → ∀ u v ph,
      readNum s (ctxOf s s.cur .control) (x.toNat + 16) 4 0 = (v, .ok ph) → readNum (issued s h regs tokens) (ctxOf s s.cur .control) (x.toNat + 16) 4 0 = (u, .ok ph) →
      (ph ≠ y.toNat % 2 ^ 32 → exec (.bbwait h d a b ka kb) s = .next (onward s h false 1 (fly (bumpOrdinal u s.cur) d (.ready (w64 ph))))) ∧
      (ph = y.toNat % 2 ^ 32 → exec (.bbwait h d a b ka kb) s = .next (holdWord (countIgnored v h) s.cur h.stop))) ∧
    (Issues s h { reads := [rd s a ka, rd s b kb], dst := dstOf s d, loads := true } [x, y] regs tokens → Unrecorded s → ∀ v k, readNum s (ctxOf s s.cur .control) (x.toNat + 16) 4 0 = (v, .error (.bad k)) →
      exec (.bbwait h d a b ka kb) s = .next (trapAt (countIgnored v h) s.cur (.bbwait h d a b ka kb) 0 0x0F 0 x))

/-- An add to a byte barrier counts bytes; when the count reaches the expectation it is taken off and the phase moves on -/
def Obligations.BarrierAddsCountToTheirExpectation : Prop :=
  (∀ (b : List Byte) (n : Nat), b.length = 32 → n < 2 ^ 64 →
    let v := leNat b
    let arrived := (nfld v 0 64 + n) % 2 ^ 64
    let expect := nfld v 64 64
    let w := leNat (barrierStep b n)
    (barrierStep b n).length = 32 ∧ nfld w 64 64 = expect ∧ nfld w 160 96 = 0 ∧
    (arrived < expect → nfld w 0 64 = arrived ∧ nfld w 128 32 = nfld v 128 32) ∧
    (expect ≤ arrived → nfld w 0 64 = arrived - expect ∧ nfld w 128 32 = (nfld v 128 32 + 1) % 2 ^ 32)) ∧
  (∀ (s u : State) (c : Ctx) (va n : Nat) (old : W64), performOp s c va (.barrierAdd n) 0 = (u, .ok old) →
    ∃ r t bs, readHome s c va 32 0 = (r, .ok bs) ∧ writeVa r (homeCtx c va) va (barrierStep bs n) 0 = (t, .ok ()) ∧
      u = if c.view = 0 then dependTest t c.asid va else t) ∧
  (∀ (s u : State) (c : Ctx) (va : Nat) (e old : W64), performOp s c va (.bbInit e) 0 = (u, .ok old) →
    ∃ r bs, readHome s c va 32 0 = (r, .ok bs) ∧
      writeVa r (homeCtx c va) va (List.replicate 8 0 ++ leBytes 8 e.toNat ++ List.replicate 16 0) 0 = (u, .ok ())) ∧
  (∀ (s u : State) (c : Ctx) (va : Nat) (e old : W64), performOp s c va (.bbExp e) 0 = (u, .ok old) →
    ∃ r bs, readHome s c va 32 0 = (r, .ok bs) ∧
      writeVa r (homeCtx c va) va (barrierStep (leBytes 32 (nset (leNat bs) 64 64 e.toNat)) 0) 0 = (u, .ok ()))

/-- fence goes on once every earlier access is performed and holds while a load waits; mark notes itself and its scope -/
def Obligations.FencesWaitAndMarksDivide : Prop :=
  ∀ (s : State) (h : Hdr) (regs : FMap (List W64)) (tokens : FMap Nat) (scope : BitVec 2),
    Issues s h {} [] regs tokens →
    (Settled s → exec (.fence h scope) s = .next (onward s h false 1 (issued s h regs tokens))) ∧
    (∀ f r, f ∈ (part s s.cur).flights → f.seq < s.nextSeq → f.val = .load r →
      exec (.fence h scope) s = .next (holdWord (countIgnored s h) s.cur h.stop)) ∧
    exec (.mark h scope) s = .next (onward s h false 1 (modPart (issued s h regs tokens) s.cur fun x => setMark x s.nextSeq scope.toNat))

/-- wb, inv, wbinv and roinv act on every line of their range; a range of no bytes does nothing -/
def Obligations.MaintenanceActsOnItsLines : Prop :=
  ∀ (s : State) (h : Hdr) (regs : FMap (List W64)) (tokens : FMap Nat) (a b : Reg) (ka kb : Bool) (x y : W64),
    Settled s → isHere x.toNat = true → isMgmt x.toNat = false → y.toNat ≤ 2 ^ 32 →
    (y.toNat = 0 ∨ (isHere ((x.toNat + y.toNat - 1) % 2 ^ 64) = true ∧ isMgmt ((x.toNat + y.toNat - 1) % 2 ^ 64) = false)) →
    let acts (kind : Nat) (i : Instr) : Prop :=
      (y = 0 → exec i s = .next (onward s h false 1 (noted s h regs tokens (i)))) ∧
      (y ≠ 0 → ∀ u old, performOp (noted s h regs tokens (i)) (ctxOf s s.cur .control) x.toNat (.maintain kind y.toNat) 0 = (u, .ok old) → exec i s = .next (onward s h false 1 (retestRings u)))
    (Issues s h { reads := [rd s a ka, rd s b kb] } [x, y] regs tokens → acts 0 (.wb h a b ka kb) ∧ acts 2 (.wbinv h a b ka kb) ∧ acts 3 (.roinv h a b ka kb)) ∧
    (Issues s h { reads := [rd s a ka, rd s b kb], level := 1 } [x, y] regs tokens → acts 1 (.inv h a b ka kb)) ∧
    (∀ (pa : Nat) (e : Sector), s.die = [(pa / 32, e)] →
      (maintainLine s 0 pa).die = [(pa / 32, { e with dirty := false })] ∧ (maintainLine s 1 pa).die = [] ∧ (maintainLine s 2 pa).die = [] ∧
      (maintainLine s 1 pa).mem = s.mem ∧
      (e.dirty = true → (maintainLine s 0 pa).mem = memPutAll s.mem (32 * (pa / 32)) e.bytes ∧
        (maintainLine s 2 pa).mem = memPutAll s.mem (32 * (pa / 32)) e.bytes)) ∧
    (∀ (t u : State) (c : Ctx) (kind va n : Nat) (old : W64), performOp t c va (.maintain kind n) 0 = (u, .ok old) →
      u = (linesOf va n).foldl (fun t l => (maintainAt t c kind l).1) t) ∧
    (∀ (va n l : Nat), l ∈ linesOf va n ↔ 0 < n ∧ l % 128 = 0 ∧ va / 128 * 128 ≤ l ∧ l ≤ va + n - 1) ∧
    (∀ (t : State) (c : Ctx) (kind va q o pte place : Nat), locOf va = .here q o → spotOf t q o = .memory → leafAt t q c.asid o = some (pte, place) → nbit pte 8 = false →
      let u := (maintainAt t c kind va).1
      (kind < 3 → c.view = 0 → u = maintainVirt (noteLeaf t q c.asid o) kind c.asid q o (leafPa pte o)) ∧
      (kind = 3 → (core t (coreOf c.part)).roCopies.Pairwise (fun a b => a.1 ≠ b.1) →
        (∀ v ∈ 0 :: viewChain t 5 c.view, ∀ i, i < 4 → fget (core u (coreOf c.part)).roCopies (roKey v c.asid ((q * 2 ^ 46 + o) / 128 * 4 + i)) = none) ∧
        (∀ k, (∀ v ∈ 0 :: viewChain t 5 c.view, ∀ i, i < 4 → k ≠ roKey v c.asid ((q * 2 ^ 46 + o) / 128 * 4 + i)) →
          fget (core u (coreOf c.part)).roCopies k = fget (core t (coreOf c.part)).roCopies k) ∧
        (∀ d, d ≠ coreOf c.part → core u d = core t d) ∧ ∀ a, cohByte u a = cohByte t a)) ∧
    (∀ (t : State) (kind asid q o pa : Nat), t.tags.replicas = [] → t.tags.virt = [] →
      { maintainVirt t kind asid q o pa with tags := t.tags } = { maintainLine t kind pa with tags := t.tags })

/-- pf brings a line into the caches; cbacq takes the oldest filled slot and cbrel returns one -/
def Obligations.PrefetchAndCircularBuffers : Prop :=
  ∀ (s : State) (h : Hdr) (regs : FMap (List W64)) (tokens : FMap Nat) (hint : BitVec 2) (a d : Reg) (ka : Bool) (n : Fin 16) (x : W64),
    (Issues s h { reads := [rd s a ka] } [x] regs tokens → isHere x.toNat = true → isMgmt x.toNat = false →
      exec (.pf h hint a ka) s = .next (onward s h false 1 (if hint = 3 then (issued s h regs tokens) else prefetch (issued s h regs tokens) s.cur x.toNat hint.toNat))) ∧
    (∀ (t : State) (p va hint : Nat), slicesTested t = [] → let u := prefetch t p va hint
      { u with die := t.die, tags := t.tags, errors := t.errors, errSeq := t.errSeq, errLost := t.errLost, notifyDue := t.notifyDue, mgmt := t.mgmt } = t ∧
      (∀ b, cohByte u b = cohByte t b) ∧
      (∀ q o pte place i, locOf va = .here q o → spotOf t q o = .memory → leafAt t q (part t p).asid o = some (pte, place) → hintOf pte hint < 3 → i < 4 →
        unreadable t (leafPa pte (o / 128 * 128) + 32 * i) = false → (fget u.die ((leafPa pte (o / 128 * 128) + 32 * i) / 32)).isSome = true)) ∧
    (let c := fgetD (part s s.cur).circs n {}
     (Issues s h { dst := dstOf s d } [] regs tokens →
      (c.filled = 0 → exec (.cbacq h d n) s = .next (holdWord (countIgnored s h) s.cur h.stop)) ∧
      (c.filled ≠ 0 → exec (.cbacq h d n) s = .next (onward s h false 1
        (fly (modPart (issued s h regs tokens) s.cur fun x => { x with circs := fput x.circs n { c with filled := c.filled - 1, held := c.held + 1, head := (c.head + 1) % c.slots } })
          d (.ready (w64 (c.base + c.head * c.size))))))) ∧
     (Issues s h {} [] regs tokens →
      (c.held = 0 → exec (.cbrel h n) s = .next (trapAt (countIgnored s h) s.cur (.cbrel h n) 0 0x02 0 0)) ∧
      (c.held ≠ 0 → exec (.cbrel h n) s = .next (onward s h false 1
        (modPart (issued s h regs tokens) s.cur fun x => { x with circs := fput x.circs n { c with held := c.held - 1, free := c.free + 1 } })))))

/-- fmst, rqpost and lpost read their source and leave with its bytes; the two posts of a record await a status -/
def Obligations.FabricPostsLeave : Prop :=
  ∀ (s : State) (h : Hdr) (regs : FMap (List W64)) (tokens : FMap Nat) (l d a b : Reg) (ka kb : Bool) (x0 x1 x2 x3 x4 win src : W64),
    BaseView s → Settled s → Unrecorded s → (part s s.cur).mark / 4 ≤ s.nextSeq →
    let waits (t : State) (i : OutItem) (src len : Nat) : State := modPart t s.cur fun x => { x with
      stores := [{ ctx := (ctxOf s s.cur .control), seq := s.nextSeq, gate := (part s s.cur).mark, rel := 0, item := .post i src len 0 }] }
    let gone (u : State) : State := modPart u s.cur fun x => { x with stores := x.stores.filter fun y => y.seq != s.nextSeq }
    (Issues s h { reads := [rd s a false, rd s a false, rd s a false, rd s b false, rd s b false], loads := true } [x0, x1, x2, x3, x4] regs tokens →
      fmstTrap x0.toNat x1.toNat x2.toNat x3.toNat x4.toNat ((l.val + 1) * 256) = none → ∀ u bs,
      readVa (waits (noted s h regs tokens (.fmst h l a b)) (.fmst x1.toNat x2.toNat x3 x4 []) x0.toNat ((l.val + 1) * 256)) (ctxOf s s.cur .control) x0.toNat ((l.val + 1) * 256) 0 = (u, .ok bs) →
      exec (.fmst h l a b) s = .next (onward s h false 1
        (postReady (castOut (gone u) (ctxOf s s.cur .control) .ack x1.toNat x2.toNat x3 x4 bs s.nextSeq) s.cur))) ∧
    (Issues s h { reads := [rd s a ka, rd s b kb], dst := dstOf s d, loads := true } [win, src] regs tokens →
      isHost win.toNat = false → isReserved win.toNat = false → isMgmt win.toNat = false →
      (win.toNat % 64 = 0 → Plain src.toNat 64 → ∀ u bs,
        readVa (waits (bumpOrdinal (fly0 (noted s h regs tokens (.rqpost h d a b ka kb)) d .answer) s.cur) (.rqpost win.toNat []) src.toNat 64)
          (ctxOf s s.cur .control) src.toNat 64 0 = (u, .ok bs) →
        exec (.rqpost h d a b ka kb) s = .next (onward s h false 1 
          (postReady (recordOut (gone u) (ctxOf s s.cur .control) (.value s.cur s.nextSeq 2) win.toNat bs s.nextSeq) s.cur))) ∧
      (Plain src.toNat 128 → ∀ u bs,
        readVa (waits (bumpOrdinal (fly0 (noted s h regs tokens (.lpost h d a b ka kb)) d .answer) s.cur) (.lpost win.toNat []) src.toNat 128)
          (ctxOf s s.cur .control) src.toNat 128 0 = (u, .ok bs) →
        exec (.lpost h d a b ka kb) s = .next (onward s h false 1
          (postReady (launchOut (gone u) (ctxOf s s.cur .control) (.value s.cur s.nextSeq 2) win.toNat (List.replicate 32 0 ++ bs) s.nextSeq) s.cur))))

/-- Each fetch command whose operands pass its checks joins the tail of its command queue -/
def Obligations.FetchCommandsPushed : Prop :=
  ∀ (s : State) (h : Hdr) (regs : FMap (List W64)) (tokens : FMap Nat) (v : List W64), (cmdQueue s s.cur 0).queued.length < 16 →
    let reads (a : Reg) (ka : Bool) (na : Nat) (b : Reg) (kb : Bool) (nb : Nat) : Prop :=
      Issues s h { words := 2, command := true, reads := List.replicate na (rd s a ka) ++ List.replicate nb (rd s b kb) } v regs tokens
    let pushes (i : Instr) : Prop :=
      exec i s = .next (onward s h true 2 (enqueue (issued s h regs tokens) 0 (pushedCmd (issued s h regs tokens) 0 i v)))
    (∀ (a b : Reg) (ka : Bool) (src dst hint : BitVec 2) (len : BitVec 24), reads a ka 1 b false 2 → checkCpy src dst len v = none → pushes (.cpy h a b ka src dst hint len)) ∧
    (∀ (a b : Reg) (src dst : BitVec 2) (rows rowbytes : BitVec 14), reads a false 2 b false 3 → checkCpy2 src dst rows rowbytes v = none → pushes (.cpy2 h a b src dst rows rowbytes)) ∧
    (∀ (a b : Reg) (isp dst : BitVec 2) (count : BitVec 12) (rowbytes : BitVec 16), reads a false 2 b false 2 → checkCpyg isp dst v = none → pushes (.cpyg h a b isp dst count rowbytes)) ∧
    (∀ (a b : Reg) (kb : Bool) (src hint : BitVec 2) (rows : BitVec 16) (oq : Fin 8), reads a false 2 b kb 1 → checkOqld src v = none → pushes (.oqld h a b kb src hint rows oq)) ∧
    (∀ (a b : Reg) (src hint : BitVec 2) (rows : BitVec 10) (rowbytes : BitVec 11), reads a false 2 b false 2 → checkTsld src rows rowbytes v = none → pushes (.tsld h a b src hint rows rowbytes)) ∧
    (∀ (a b : Reg) (ka : Bool) (dst hint : BitVec 2) (rows : BitVec 10) (rowbytes : BitVec 11), reads a ka 1 b false 3 → checkTsst dst rows rowbytes v = none → pushes (.tsst h a b ka dst hint rows rowbytes)) ∧
    (∀ (a : Reg) (ka : Bool) (n : Fin 16) (size : BitVec 12) (slots : BitVec 8), reads a ka 1 0 false 0 → checkCbinit size slots v = none → pushes (.cbinit h a ka n size slots))

/-- Each vector command whose operands pass its checks joins the tail of its command queue -/
def Obligations.VectorCommandsPushed : Prop :=
  ∀ (s : State) (h : Hdr) (regs : FMap (List W64)) (tokens : FMap Nat) (v : List W64), (cmdQueue s s.cur 1).queued.length < 16 →
    let reads (a : Reg) (ka : Bool) (na : Nat) (b : Reg) (kb : Bool) (nb : Nat) : Prop :=
      Issues s h { words := 2, command := true, reads := List.replicate na (rd s a ka) ++ List.replicate nb (rd s b kb) } v regs tokens
    let pushes (i : Instr) : Prop :=
      exec i s = .next (onward s h true 2 (enqueue (issued s h regs tokens) 1 (pushedCmd (issued s h regs tokens) 1 i v)))
    (∀ (a b : Reg) (ka kb regRows regCols : Bool) (ty : BitVec 4) (cols1 : BitVec 6) (rows1 : BitVec 4), reads a ka (if regCols then 1 else 0) b kb (if regRows then 1 else 0) → checkVshape regRows regCols v = none → pushes (.vshape h a b ka kb regRows regCols ty cols1 rows1)) ∧
    (∀ (a b : Reg) (ka kb : Bool) (src : BitVec 2) (vd : Fin 16) (oq : Fin 8) (hint : BitVec 2), reads a ka (if src = 2 then 0 else 1) b kb (if src = 2 then 0 else 1) → checkVld src v = none → pushes (.vld h a b ka kb src vd oq hint)) ∧
    (∀ (a b : Reg) (ka : Bool) (dst : BitVec 2) (va : Fin 16) (hint : BitVec 2), reads a ka 1 b false 2 → checkVst dst v = none → pushes (.vst h a b ka dst va hint)) ∧
    (∀ (a : Reg) (ka : Bool) (vd : Fin 16), reads a ka 1 0 false 0 → pushes (.vbcastX h a ka vd)) ∧
    (∀ (vd va : Fin 16) (n : BitVec 4), reads 0 false 0 0 false 0 → pushes (.vbcastRow h vd va n)) ∧
    (∀ (vd va : Fin 16) (n : BitVec 6), reads 0 false 0 0 false 0 → pushes (.vbcastCol h vd va n)) ∧
    (∀ (vd va vb vc : Fin 16), reads 0 false 0 0 false 0 → pushes (.vsel h vd va vb vc)) ∧
    (∀ (b : Reg) (kb sb sat : Bool) (vd va vb : Fin 16), reads 0 false 0 b kb (if sb then 1 else 0) → pushes (.vadd h b kb sb sat vd va vb)) ∧
    (∀ (b : Reg) (kb sb sat : Bool) (vd va vb : Fin 16), reads 0 false 0 b kb (if sb then 1 else 0) → pushes (.vsub h b kb sb sat vd va vb)) ∧
    (∀ (b : Reg) (kb sb sat : Bool) (vd va vb : Fin 16), reads 0 false 0 b kb (if sb then 1 else 0) → pushes (.vmul h b kb sb sat vd va vb)) ∧
    (∀ (b : Reg) (kb sb sat : Bool) (vd va vb vc : Fin 16), reads 0 false 0 b kb (if sb then 1 else 0) → pushes (.vfma h b kb sb sat vd va vb vc)) ∧
    (∀ (b : Reg) (kb sb sat : Bool) (vd va vb : Fin 16), reads 0 false 0 b kb (if sb then 1 else 0) → pushes (.vmax h b kb sb sat vd va vb)) ∧
    (∀ (b : Reg) (kb sb sat : Bool) (vd va vb : Fin 16), reads 0 false 0 b kb (if sb then 1 else 0) → pushes (.vmin h b kb sb sat vd va vb)) ∧
    (∀ (sat : Bool) (vd va : Fin 16), reads 0 false 0 0 false 0 → pushes (.vabs h sat vd va)) ∧
    (∀ (sat : Bool) (vd va : Fin 16), reads 0 false 0 0 false 0 → pushes (.vneg h sat vd va)) ∧
    (∀ (b : Reg) (kb sb sat : Bool) (vd va vb : Fin 16) (cond : BitVec 3), reads 0 false 0 b kb (if sb then 1 else 0) → pushes (.vcmp h b kb sb sat vd va vb cond)) ∧
    (∀ (b : Reg) (kb sb : Bool) (vd va vb : Fin 16), reads 0 false 0 b kb (if sb then 1 else 0) → pushes (.vand h b kb sb vd va vb)) ∧
    (∀ (b : Reg) (kb sb : Bool) (vd va vb : Fin 16), reads 0 false 0 b kb (if sb then 1 else 0) → pushes (.vor h b kb sb vd va vb)) ∧
    (∀ (b : Reg) (kb sb : Bool) (vd va vb : Fin 16), reads 0 false 0 b kb (if sb then 1 else 0) → pushes (.vxor h b kb sb vd va vb)) ∧
    (∀ (b : Reg) (kb sb : Bool) (vd va vb : Fin 16), reads 0 false 0 b kb (if sb then 1 else 0) → pushes (.vshl h b kb sb vd va vb)) ∧
    (∀ (b : Reg) (kb sb : Bool) (vd va vb : Fin 16), reads 0 false 0 b kb (if sb then 1 else 0) → pushes (.vshr h b kb sb vd va vb)) ∧
    (∀ (vd va : Fin 16), reads 0 false 0 0 false 0 → pushes (.vpopc h vd va)) ∧
    (∀ (a : Reg) (ka : Bool) (vd va : Fin 16) (ty : BitVec 4) (mode : BitVec 2), reads a ka (if mode = 3 then 1 else 0) 0 false 0 → pushes (.vcvt h a ka vd va ty mode)) ∧
    (∀ (axis sat : Bool) (vd va : Fin 16) (op : BitVec 3), reads 0 false 0 0 false 0 → pushes (.vred h axis sat vd va op)) ∧
    (∀ (vd va : Fin 16) (ty : BitVec 4), reads 0 false 0 0 false 0 → pushes (.vgelu h vd va ty)) ∧
    (∀ (vd va : Fin 16) (ty : BitVec 4), reads 0 false 0 0 false 0 → pushes (.vsilu h vd va ty)) ∧
    (∀ (vd va : Fin 16) (ty : BitVec 4), reads 0 false 0 0 false 0 → pushes (.vsplus h vd va ty)) ∧
    (∀ (vd va : Fin 16) (ty : BitVec 4), reads 0 false 0 0 false 0 → pushes (.vtanh h vd va ty)) ∧
    (∀ (vd va : Fin 16) (ty : BitVec 4), reads 0 false 0 0 false 0 → pushes (.vsigm h vd va ty)) ∧
    (∀ (vd va : Fin 16) (ty : BitVec 4), reads 0 false 0 0 false 0 → pushes (.vexp h vd va ty)) ∧
    (∀ (vd va : Fin 16) (ty : BitVec 4), reads 0 false 0 0 false 0 → pushes (.vrcp h vd va ty)) ∧
    (∀ (vd va : Fin 16) (ty : BitVec 4), reads 0 false 0 0 false 0 → pushes (.vrsqrt h vd va ty)) ∧
    (∀ (a : Reg) (ka : Bool) (src : BitVec 2) (n : Fin 4), reads a ka 1 0 false 0 → checkVtblld src (v.getD 0 0).toNat = none → pushes (.vtblld h a ka src n)) ∧
    (∀ (vd va : Fin 16) (ty : BitVec 4) (n : Fin 4), reads 0 false 0 0 false 0 → pushes (.vtbl h vd va ty n)) ∧
    (∀ (vd va : Fin 16), reads 0 false 0 0 false 0 → pushes (.vtolog h vd va)) ∧
    (∀ (vd va : Fin 16) (ty : BitVec 4), reads 0 false 0 0 false 0 → pushes (.vfrlog h vd va ty)) ∧
    (∀ (b : Reg) (kb : Bool) (cf : BitVec 2) (vd va vb : Fin 16), reads 0 false 0 b kb (if cf.getLsbD 0 then 1 else 0) → pushes (.vladd h b kb cf vd va vb)) ∧
    (∀ (b : Reg) (kb : Bool) (cf : BitVec 2) (vd va vb : Fin 16), reads 0 false 0 b kb (if cf.getLsbD 0 then 1 else 0) → pushes (.vlsub h b kb cf vd va vb)) ∧
    (∀ (vd va : Fin 16) (n : BitVec 4), reads 0 false 0 0 false 0 → pushes (.vlshr h vd va n)) ∧
    (∀ (b : Reg) (kb : Bool) (vd va : Fin 16), reads 0 false 0 b kb 1 → pushes (.vlmul h b kb vd va)) ∧
    (∀ (vd va vb : Fin 16) (n : BitVec 4), reads 0 false 0 0 false 0 → pushes (.vhamm h vd va vb n)) ∧
    (∀ (desc : Bool) (vd va vb vc : Fin 16) (k1 : BitVec 6), reads 0 false 0 0 false 0 → pushes (.vtopk h desc vd va vb vc k1)) ∧
    (∀ (a b : Reg) (ka kb : Bool) (src : BitVec 2) (vd va : Fin 16), reads a ka 1 b kb 1 → checkVfilt src v = none → pushes (.vfilt h a b ka kb src vd va)) ∧
    (∀ (a b : Reg) (hint : BitVec 2) (vd : Fin 16), reads a false 3 b false 3 → checkVsect v = none → pushes (.vsect h a b hint vd)) ∧
    (∀ (vd va vc : Fin 16), reads 0 false 0 0 false 0 → pushes (.vuniq h vd va vc)) ∧
    (∀ (vd va vc : Fin 16) (nb1 : BitVec 6) (sft : BitVec 5), reads 0 false 0 0 false 0 → pushes (.vbkt h vd va vc nb1 sft))

/-- Each matrix command whose operands pass its checks joins the tail of its command queue -/
def Obligations.MatrixCommandsPushed : Prop :=
  ∀ (s : State) (h : Hdr) (regs : FMap (List W64)) (tokens : FMap Nat) (v : List W64), (cmdQueue s s.cur 2).queued.length < 16 →
    let reads (a : Reg) (ka : Bool) (na : Nat) (b : Reg) (kb : Bool) (nb : Nat) : Prop :=
      Issues s h { words := 2, command := true, reads := List.replicate na (rd s a ka) ++ List.replicate nb (rd s b kb) } v regs tokens
    let pushes (i : Instr) : Prop :=
      exec i s = .next (onward s h true 2 (enqueue (issued s h regs tokens) 2 (pushedCmd (issued s h regs tokens) 2 i v)))
    (∀ (a b : Reg) (ka kb : Bool) (lvl : Fin 6), reads a ka 1 b kb 1 → checkMcfgLevel v = none → pushes (.mcfgLevel h a b ka kb lvl)) ∧
    (∀ (a : Reg) (ka : Bool), reads a ka 1 0 false 0 → checkMcfgNest (v.getD 0 0).toNat = none → pushes (.mcfgNest h a ka)) ∧
    (∀ (a : Reg) (ka : Bool) (src : BitVec 2) (n : Fin 16), reads a ka 1 0 false 0 → checkMshp src (v.getD 0 0).toNat = none → pushes (.mshp h a ka src n)) ∧
    (∀ (a : Reg) (ka : Bool) (n : Fin 16) (field : BitVec 5), reads a ka 1 0 false 0 → checkMshf field (v.getD 0 0).toNat = none → pushes (.mshf h a ka n field)) ∧
    (reads 0 false 0 0 false 0 → pushes (.mgo h)) ∧
    (∀ (off : BitVec 28), reads 0 false 0 0 false 0 → pushes (.mrst h off)) ∧
    (reads 0 false 0 0 false 0 → pushes (.mrstNone h)) ∧
    (∀ (n : Fin 2), reads 0 false 0 0 false 0 → pushes (.maccClr h n)) ∧
    (∀ (n : Fin 2) (row : BitVec 9) (half : Fin 2), reads 0 false 0 0 false 0 → row.toNat + 127 ≤ 511 → pushes (.maccSave h n row half)) ∧
    (∀ (n : Fin 2) (row : BitVec 9) (half : Fin 2), reads 0 false 0 0 false 0 → row.toNat + 127 ≤ 511 → pushes (.maccLoad h n row half)) ∧
    (∀ (a b : Reg) (ka kb : Bool) (dest : BitVec 2), reads a ka 1 b kb 1 → checkMepi dest v = none → pushes (.mepi h a b ka kb dest)) ∧
    (∀ (a : Reg) (ka : Bool) (n m : Fin 16) (ty : BitVec 4), reads a ka 1 0 false 0 → peerTrap (v.getD 0 0).toNat ty.toNat = none → pushes (.mlqSend h a ka n m ty)) ∧
    (∀ (a : Reg) (ka : Bool) (n m : Fin 16) (ty : BitVec 4), reads a ka 1 0 false 0 → peerTrap (v.getD 0 0).toNat ty.toNat = none → pushes (.mlqRecv h a ka n m ty)) ∧
    (∀ (n : Fin 16), reads 0 false 0 0 false 0 → pushes (.mlqUnbind h n))

/-- Each gleaner, Darner, exchange and weight command whose operands pass its checks joins the tail of its command queue -/
def Obligations.TableCommandsPushed : Prop :=
(∀ (s : State) (h : Hdr) (regs : FMap (List W64)) (tokens : FMap Nat) (v : List W64), (cmdQueue s s.cur 3).queued.length < 16 →
    let reads (a : Reg) (ka : Bool) (na : Nat) (b : Reg) (kb : Bool) (nb : Nat) : Prop :=
      Issues s h { words := 2, command := true, reads := List.replicate na (rd s a ka) ++ List.replicate nb (rd s b kb) } v regs tokens
    let pushes (i : Instr) : Prop :=
      exec i s = .next (onward s h true 2 (enqueue (issued s h regs tokens) 3 (pushedCmd (issued s h regs tokens) 3 i v)))
    (∀ (a b : Reg) (isp dst : BitVec 2) (ty : BitVec 4) (mean : Bool) (bags : BitVec 12), reads a false 2 b false 4 → checkGpool isp dst ty v = none → pushes (.gpoolAuto h a b isp dst ty mean bags)) ∧
    (∀ (a b : Reg) (isp dst : BitVec 2) (ty : BitVec 4) (mean : Bool) (bags : BitVec 12), reads a false 2 b false 4 → checkGpool isp dst ty v = none → pushes (.gpoolDie h a b isp dst ty mean bags)) ∧
    (∀ (a b : Reg) (isp dst : BitVec 2) (ty : BitVec 4) (mean : Bool) (bags : BitVec 12), reads a false 2 b false 4 → checkGpool isp dst ty v = none → pushes (.gpoolFar h a b isp dst ty mean bags)) ∧
    (∀ (a b : Reg) (isp dst : BitVec 2) (ty : BitVec 4) (count : BitVec 12), reads a false 2 b false 3 → checkGdeq isp dst ty v = none → pushes (.gdeq h a b isp dst ty count)) ∧
    (∀ (a b : Reg) (isp dst : BitVec 2) (ty : BitVec 4) (count : BitVec 12), reads a false 2 b false 4 → checkGrank isp dst ty v = none → pushes (.grank h a b isp dst ty count)) ∧
    (∀ (a b : Reg) (qsp dst : BitVec 2) (dmax : BitVec 9) (flt : Bool) (nq1 : BitVec 4) (k1 : BitVec 8), reads a false 2 b false 4 → checkGscan qsp dst dmax flt v = none → pushes (.gscan h a b qsp dst dmax flt nq1 k1)) ∧
    (∀ (a b : Reg) (count : BitVec 16), reads a false 2 b false 2 → checkHot count v = none → pushes (.hrpin h a b count)) ∧
    (∀ (a b : Reg) (count : BitVec 16), reads a false 2 b false 2 → checkHot count v = none → pushes (.hrfree h a b count))) ∧
  (∀ (s : State) (h : Hdr) (regs : FMap (List W64)) (tokens : FMap Nat) (v : List W64), (cmdQueue s s.cur 4).queued.length < 16 →
    let reads (a : Reg) (ka : Bool) (na : Nat) (b : Reg) (kb : Bool) (nb : Nat) : Prop :=
      Issues s h { words := 2, command := true, reads := List.replicate na (rd s a ka) ++ List.replicate nb (rd s b kb) } v regs tokens
    let pushes (i : Instr) : Prop :=
      exec i s = .next (onward s h true 2 (enqueue (issued s h regs tokens) 4 (pushedCmd (issued s h regs tokens) 4 i v)))
    (∀ (a b : Reg) (isp gsp : BitVec 2) (ty : BitVec 4) (opt : BitVec 2) (count : BitVec 12), reads a false 3 b false 4 → darnerTrap v 3 isp gsp ty opt = none → pushes (.dupd h a b isp gsp ty opt count)) ∧
    (∀ (a b : Reg) (isp gsp : BitVec 2) (ty : BitVec 4) (opt : BitVec 2) (count : BitVec 12), reads a false 4 b false 4 → darnerTrap v 4 isp gsp ty opt = none → pushes (.dord h a b isp gsp ty opt count))) ∧
  (∀ (s : State) (h : Hdr) (regs : FMap (List W64)) (tokens : FMap Nat) (v : List W64), (cmdQueue s s.cur 5).queued.length < 16 →
    let reads (a : Reg) (ka : Bool) (na : Nat) (b : Reg) (kb : Bool) (nb : Nat) : Prop :=
      Issues s h { words := 2, command := true, reads := List.replicate na (rd s a ka) ++ List.replicate nb (rd s b kb) } v regs tokens
    let pushes (i : Instr) : Prop :=
      exec i s = .next (onward s h true 2 (enqueue (issued s h regs tokens) 5 (pushedCmd (issued s h regs tokens) 5 i v)))
    (∀ (a b : Reg) (kb : Bool) (isp : BitVec 2) (nb1 : BitVec 6) (sft : BitVec 5) (count : BitVec 12), reads a false 2 b kb 1 → checkXall isp v = none → pushes (.xall h a b kb isp nb1 sft count)) ∧
    (∀ (a b : Reg) (ka kb : Bool) (tiles : BitVec 16) (ty : BitVec 4) (kind : BitVec 2), reads a ka 1 b kb 1 → checkWload tiles ty kind v = none → pushes (.wload h a b ka kb tiles ty kind)) ∧
    (∀ (a b : Reg) (ka kb : Bool) (src : BitVec 2) (ty : BitVec 4) (n1 first : BitVec 6), reads a ka 1 b kb 1 → checkWtbl src ty n1 first v = none → pushes (.wtbl h a b ka kb src ty n1 first)))

/-- LOAD_VALUE_RETURN: a waiting load with nothing before it reads its place, and a value that has returned lands in the next ac -/
def Obligations.LoadsReturnTheirValue : Prop :=
  (∀ (s u : State) (p : Nat) (f : Flight) (r : LoadReq) (v : Nat), (part s p).flights = [f] → f.val = .load r → (part s p).stores = [] → (part s p).ords = [] →
    s.awaits = [] → poolsWritten s p = false → (core s (coreOf p)).sideLog = [] → (core s (coreOf p)).sideHeld = [] → r.gate = 0 → r.seen ≤ s.retries → r.watch = none →
    r.readOnly = false → isHere r.va = true → isMgmt r.va = false → slicesTested s = [] → readNum s (ctxOf s p .control) r.va r.bytes r.hint = (u, .ok v) →
    exec (.loadValueReturn p f.seq) s = .next (modPart u p fun x => { x with flights := [{ f with val := .landing (s.time + 1) (extend r v) }] })) ∧
  (∀ (s : State) (p seq : Nat) (f : Flight) (v : W64), (part s p).flights.find? (fun f => f.seq == seq) = some f → f.val = .ready v →
    (∀ g ∈ (part s p).flights, pendingLoad g = none) → (part s p).stores = [] → (core s (coreOf p)).sideLog = [] → (core s (coreOf p)).sideHeld = [] →
    exec (.loadValueReturn p seq) s = .next (setFlight s p seq (.landing (s.time + 1) v))) ∧
  (∀ (s : State) (p seq : Nat), (part s p).flights = [] → (part s p).stores = [] → (core s (coreOf p)).sideLog = [] → (core s (coreOf p)).sideHeld = [] →
    exec (.loadValueReturn p seq) s = .next s) ∧
  (∀ (r : LoadReq) (v : Nat), (r.signed = false → extend r v = w64 v) ∧
    (r.signed = true → 0 < r.bytes → r.bytes ≤ 8 → v < 2 ^ (8 * r.bytes) →
      (extend r v).toInt = if v < 2 ^ (8 * r.bytes - 1) then (v : Int) else (v : Int) - 2 ^ (8 * r.bytes)))

/-- HELD_WORD_RESUME lets a held word be tried again at once (log entry 5, the model's choice); WATCHDOG_EXPIRY counts a hold that lasts sched.wdlim. The model's choice, not the manual's: that the step HELD_WORD_RESUME has the word of a hold ask again, and may do so in the same ac (log entry 5 (DEDUCED)). -/
def Obligations.HeldWordsResumeAndTimeOut : Prop :=
  (∀ (s : State) (c p : Nat), (core s c).issue = some p →
    ((part s p).holding = true → s.time < (core s c).nextIssue → exec (.heldWordResume c) s = .next (modCore s c fun x => { x with nextIssue := s.time })) ∧
    ((part s p).holding = false → exec (.heldWordResume c) s = .next s)) ∧
  (∀ (s : State) (p : Nat), hasIssue s p = true → mgetN s (quarterOf p) regWdlim ≠ 0 →
    (part s p).holdSince + mgetN s (quarterOf p) regWdlim * 1250 ≤ s.time → ∃ t, exec (.watchdogExpiry p) s = .next t ∧
    (part t p).holdSince = s.time ∧ mget t (quarterOf p) regWdpc = (part s p).pc ∧ mget t (quarterOf p) regWdunit = w64 (unitPart p) ∧
    mgetN t (quarterOf p) regWdcnt = (if mgetN s (quarterOf p) regWdcnt % 2 ^ 32 = 2 ^ 32 - 1 then mgetN s (quarterOf p) regWdcnt else mgetN s (quarterOf p) regWdcnt + 1) ∧
    { part t p with holdSince := (part s p).holdSince } = part s p ∧ (∀ q, q ≠ p → part t q = part s q) ∧ t.cores = s.cores ∧ t.mem = s.mem) ∧
  (∀ (s : State) (p : Nat), mgetN s (quarterOf p) regWdlim = 0 ∨ s.time < (part s p).holdSince + mgetN s (quarterOf p) regWdlim * 1250 →
    exec (.watchdogExpiry p) s = .next s)

/-- PENDING_TRAP_DELIVERY enters the oldest pending trap before a flagged word or at a hold, but not in a hold that nothing ends early or over a write in flight. The model's choice, not the manual's: that a step without a word delivers, for a partition that does not hold the issue (log entry 1 (DESIGN CHOICE)). -/
def Obligations.PendingTrapsAreDelivered : Prop :=
  (∀ (s : State) (p : Nat) (t : PendingTrap) (r : List PendingTrap), hasIssue s p = true → (part s p).entering = none → (part s p).pending = t :: r →
    (part s p).flights = [] → holdsFast s p = false → (part s p).holding = true ∨ flagHonoured s p = true →
    ∃ u, exec (.pendingTrapDelivery p) s = .next u ∧
    part u p = { part s p with
      pending := r, resumeQueues := t.queue :: (part s p).resumeQueues, tpc := (part s p).pc,
      tcause := w64 (t.cause + (if t.cause = 0x10 then 0 else (part s p).tcause.toNat / 2 ^ 8 % 2 ^ 15) * 2 ^ 8), tpriv := (part s p).priv,
      priv := 1, unflagged := 0, pc := (part s p).tvec, atHandler := true, replayAt := none, probe := none, holding := false, flagIgnored := false, fetchSeen := none, leaveWait := none } ∧
    (∀ q, q ≠ p → part u q = part s q) ∧ u.cores = s.cores ∧
    (inHbm (quarterOf p) (part s p).trec.toNat 64 = false → u.mem = s.mem ∧ u.die = s.die)) ∧
  (∀ (s : State) (p : Nat), hasIssue s p = false ∨ (part s p).entering.isSome = true ∨ (part s p).pending = [] ∨ (part s p).flights ≠ [] ∨ holdsFast s p = true ∨
      ((part s p).holding = false ∧ flagHonoured s p = false) →
    exec (.pendingTrapDelivery p) s = .next s)

/-- REPLAY_HOLD_LIMIT ends a replayed job of which a word has held for rp.limit, with a 0x0A record that names the address of the read. The model's choice, not the manual's: from when rp.limit counts, and that a word asks its remote place again (log entry 139 (DEDUCED)). -/
def Obligations.ReplayHoldLimitEndsTheJob : Prop :=
  (∀ (s : State) (p since va : Nat) (j : Job), (part s p).replayAt = some (since, va) → findJob s (jobOf s p) = some j →
    since + mgetN s (quarterOf p) regRpLimit * 1250 ≤ s.time →
    let q := nfld j.addr 46 2
    exec (.replayHoldLimit p) s = .next (endJob (appendError (mset s q (regJq j.queue 6) (mget s q (regJq j.queue 6) ||| 2))
      (unitJobQueue q j.queue) 2 0x0A (w64 va) (w64 (ordinalOf s p))) (jobOf s p))) ∧
  (∀ (s : State) (p : Nat), (∀ since va, (part s p).replayAt = some (since, va) → s.time < since + mgetN s (quarterOf p) regRpLimit * 1250) →
    exec (.replayHoldLimit p) s = .next s) ∧
  (∀ (s : State) (p va : Nat), { part (replayWait s p va) p with replayAt := (part s p).replayAt } = part s p ∧
    ((part s p).replayAt = none → (part (replayWait s p va) p).replayAt = some (s.time, va)) ∧
    ∀ since va', (part s p).replayAt = some (since, va') → (part (replayWait s p va) p).replayAt = some (since, va)) ∧
  (∀ (s : State) (h : Hdr) (regs : FMap (List W64)) (tokens : FMap Nat), (part (issued s h regs tokens) s.cur).replayAt = none)

/-- FAIRNESS_DUE, FAIRNESS_WINDOW_END, ISSUE_PASS and MANGLE_TAKE: who becomes due, when a window ends, who takes the issue of a core, who takes its mangle. The model's choice, not the manual's: that the partition that is passed to issues in the same ac (log entry 5 (DEDUCED)); that a take of the mangle drops an epilogue that has not written (log entry 85 (DEDUCED)); that the lower number comes first at a tie (log entry 94 (DESIGN CHOICE)); that a higher level takes the issue where it can issue (log entry 149 (DEDUCED)). -/
def Obligations.IssueAndManglePass : Prop :=
  (∀ (s : State) (p : Nat), (part s p).resident.isSome = true → hasIssue s p = false → (part s p).due = false → (part s p).issueLost + 79744 ≤ s.time →
    exec (.fairnessDue p) s = .next (modPart s p fun x => { x with due := true })) ∧
  (∀ (s : State) (p : Nat), (part s p).windowEnd ≠ 0 → (part s p).windowEnd ≤ s.time →
    exec (.fairnessWindowEnd p) s = .next (modPart s p fun x => { x with windowEnd := 0 })) ∧
  (∀ (s : State) (p q : Nat), (core s (coreOf p)).issue = some p → (part s p).resident.isSome = true → (part s p).entering = none →
    inTest s p = false → flagHonoured s p = true → (core s (coreOf p)).nextIssue ≤ s.time ∨ (part s p).holding = true → passTo s p = some q → ∃ t, exec (.issuePass (coreOf p)) s = .next t ∧
    (core t (coreOf p)).issue = some q ∧ q ≠ p ∧ coreOf q = coreOf p ∧ (part t q).due = false ∧
    ((part s p).holding = true → (core t (coreOf p)).nextIssue ≤ s.time) ∧
    (part t q).windowEnd = (if (part s q).due then s.time + 256 else 0) ∧ (part t p).issueLost = s.time ∧
    (part t p).preempted = decide (levelOf s p < levelOf s q) ∧ (part t p).windowEnd = 0 ∧ (part t p).pc = (part s p).pc ∧
    (part t p).regs = (part s p).regs ∧ (part t p).loops = (part s p).loops ∧ (part t p).tokens = (part s p).tokens ∧ t.mem = s.mem) ∧
  (∀ (s : State) (c q : Nat), (core s c).issue = none → bestOf s ((partsOf c).filter fun p => (part s p).resident.isSome && canIssue s p) = some q →
    ∃ t, exec (.issuePass c) s = .next t ∧ (core t c).issue = some q ∧ (part t q).due = false ∧ t.mem = s.mem) ∧
  (∀ (s : State) (l : List Nat) (b : Nat), bestOf s l = some b → b ∈ l ∧ ∀ a ∈ l, levelOf s a ≤ levelOf s b) ∧
  (∀ (s : State) (p h : Nat), mayTake s p = true → (core s (coreOf p)).holder = some h → ∃ t, exec (.mangleTake p) s = .next t ∧
    (core t (coreOf p)).holder = some p ∧ (core t (coreOf p)).acc = [] ∧ (core t (coreOf p)).weights = [] ∧ (core t (coreOf p)).nest = none ∧
    (part t h).lostMangle = true ∧ (cmdQueue t h 2).queued = [] ∧ (cmdQueue t h 2).running = [] ∧ (part t p).regs = (part s p).regs ∧
    (core t (coreOf p)).links = (core s (coreOf p)).links.map (fun l => (l.1, { l.2 with heldSince := none })) ∧ t.mem = s.mem ∧ t.die = s.die)

/-- COMMAND_START takes the oldest command and its tokens and does its work, COMMAND_COMPLETE posts its tokens, NEST_STEP and EPILOGUE move the mangle on; shadow writes, shape fields and integer and logic lanes get the values of their rules. The model's choice, not the manual's: that a scalar operand is cut to the width of its elements (log entry 59 (DEDUCED)). -/
def Obligations.CommandsStartWorkAndComplete : Prop :=
  (∀ (s : State) (p k : Nat) (c : Cmd) (r : List Cmd) (m : FMap Nat), 1 ≤ k → k ≤ 2 → cmdQueue s p k = { queued := c :: r, running := [], frozen := false } →
    engineBusy s (coreOf p) k = false → (part s p).preempted = false → (part s p).lostMangle = false → (core s (coreOf p)).holder = none → (part s p).posts = [] → c.ctx.part = p →
    (∀ q, q < 4 → (quarter s q).held2 = []) → takeTokens (part s p).tokens (k + 1) (Sys2Proof.hdrOf c.word0).wp (Sys2Proof.hdrOf c.word0).wn = some m →
    let starts (f : Part → Part) : Prop :=
      exec (.commandStart p k) s = .next (modPart s p fun x => { f { x with tokens := m } with
        queues := fput x.queues k { queued := r, running := [{ cmd := c, count := 0, state := .done, tookLeave := false, lost := false, added := false, step := 0, rows := [] }], frozen := false } })
    let val (i : Nat) : W64 := c.vals.getD i 0
    let x := part s p
    let width := tyWidth x.shapeType
    (∀ h a b ka kb (lvl : Fin 6), k = 2 → c.instr = .mcfgLevel h a b ka kb lvl → starts fun x => { x with nestLevels := fput x.nestLevels lvl (val 0), nestStrides := fput x.nestStrides lvl (val 1) }) ∧
    (∀ h a ka, k = 2 → c.instr = .mcfgNest h a ka → starts fun x => { x with nestWord := val 0 }) ∧
    (∀ h a b ka kb dest, k = 2 → c.instr = .mepi h a b ka kb dest → starts fun x => { x with epiDest := dest.toNat, epiWord := val 0, epiBarrier := val 1 }) ∧
    (∀ h off, k = 2 → c.instr = .mrst h off → starts fun x => { x with restart := BitVec.ofInt 64 (c.pc + 4 * off.toInt) }) ∧
    (∀ h, k = 2 → c.instr = .mrstNone h → starts fun x => { x with restart := 0 }) ∧
    (∀ h a ka (n : Fin 16) field, k = 2 → c.instr = .mshf h a ka n field →
      starts fun x => { x with shapes := fput x.shapes n (BitVec.ofNat 512 (setShp (fgetD x.shapes n 0).toNat field.toNat (val 0).toNat)) }) ∧
    (∀ h b kb sb sat (vd va vb : Fin 16) (op : VOp) (i : Instr), k = 1 → c.instr = i →
      (i, op) ∈ [(Instr.vadd h b kb sb sat vd va vb, VOp.add), (.vsub h b kb sb sat vd va vb, .sub), (.vmul h b kb sb sat vd va vb, .mul),
        (.vmax h b kb sb sat vd va vb, .max), (.vmin h b kb sb sat vd va vb, .min)] → isInt x.shapeType = true →
      starts fun y => fillShape y vd fun i j =>
        intBits (if sat then max (intRange x.shapeType).1 (min (intRange x.shapeType).2 (intOp op (decodeI x.shapeType (elem x va i j)) (decodeI x.shapeType (if sb then (val 0).toNat % 2 ^ width else elem x vb i j)) (decodeI x.shapeType (elem x 0 i j))))
          else intOp op (decodeI x.shapeType (elem x va i j)) (decodeI x.shapeType (if sb then (val 0).toNat % 2 ^ width else elem x vb i j)) (decodeI x.shapeType (elem x 0 i j))) width) ∧
    (∀ h b kb sb (vd va vb : Fin 16) (f : Nat → Nat → Nat) (i : Instr), k = 1 → c.instr = i →
      (i, f) ∈ [(Instr.vand h b kb sb vd va vb, Nat.land), (.vor h b kb sb vd va vb, Nat.lor), (.vxor h b kb sb vd va vb, Nat.xor)] →
      starts fun y => fillShape y vd fun i j => f (elem x va i j) (if sb then (val 0).toNat % 2 ^ width else elem x vb i j))) ∧
  (∀ (x : Part) (v : Nat) (f : Nat → Nat → Nat), x.shapeRows ≤ 16 → x.shapeCols ≤ 64 → x.vregs.Pairwise (fun a b => a.1 < b.1) →
    { fillShape x v f with vregs := x.vregs } = x ∧
    (∀ i j, i < x.shapeRows → j < x.shapeCols → lane (fillShape x v f) v i j = f i j % 2 ^ 32) ∧
    (∀ w i j, i < 16 → j < 64 → (w ≠ v ∨ x.shapeRows ≤ i ∨ x.shapeCols ≤ j) → lane (fillShape x v f) w i j = lane x w i j)) ∧
  (∀ (s : State) (p k : Nat) (r : Run) (q : List Cmd), k < 3 → cmdQueue s p k = { queued := q, running := [r], frozen := false } → r.state = .done → r.added = true →
    writesDone s p r.cmd.id = true → r.cmd.held = [] → leaveClass r.cmd.instr = none → (∀ h a b ka src hint len, r.cmd.instr ≠ .cpy h a b ka src 2 hint len) →
    (core s (coreOf p)).epiAdds = [] →
    (∀ m, putTokens (part s p).tokens (k + 1) (Sys2Proof.hdrOf r.cmd.word0).sp (Sys2Proof.hdrOf r.cmd.word0).sn = some m →
      exec (.commandComplete p k r.cmd.id) s = .next (modPart s p fun x => { x with tokens := m, queues := fput x.queues k { queued := q, running := [], frozen := false } })) ∧
    (putTokens (part s p).tokens (k + 1) (Sys2Proof.hdrOf r.cmd.word0).sp (Sys2Proof.hdrOf r.cmd.word0).sn = none →
      ∃ t, exec (.commandComplete p k r.cmd.id) s = .next t ∧ (part t p).tokens = (part s p).tokens ∧ (cmdQueue t p k).queued = q ∧
        (cmdQueue t p k).running.map (fun r => r.cmd) = [r.cmd])) ∧
  (∀ (s : State) (c : Nat) (n : Nest) (ra rb : List OpRow), (core s c).nest = some n → n.ended = false → n.leave = false → n.hold = none →
    srcA n = 0 → srcB n = 0 → n.steps + 1 < totalSteps n → (core s c).epi = none → operandRows (core s c) n false = some ra → operandRows (core s c) n true = some rb →
    boundary (nestIndex n n.steps) (trips n) (actions n) 0 = 0 →
    exec (.nestStep c) s = .next (modCore s c fun x => { stepAcc x n.cur n.ints ra rb with nest := some { n with steps := n.steps + 1 } })) ∧
  (∀ (x : Core) (n i j : Nat) (ra rb : List OpRow) (a b : OpRow), i < 128 → j < 128 → ra[i]? = some a → rb[j]? = some b →
    ((fgetD (stepAcc x n true ra rb).acc (128 * n + i) []).getD j 0).toInt =
      let sum (g : Nat) : Int := (((a.1.drop (32 * g)).take 32).zipWith (fun u v => intOf u * intOf v) ((b.1.drop (32 * g)).take 32)).sum
      let first := min (max (((fgetD x.acc (128 * n + i) []).getD j 0).toInt + sum 0) (-2147483648)) 2147483647
      min (max (first + sum 1) (-2147483648)) 2147483647) ∧
  (∀ (s : State) (c : Nat) (e : Epi) (l : LinkQueue), (core s c).epi = some e → e.seen = none → e.nest.epiDest = 2 → nbit e.nest.epiWord 4 = false → e.nest.epiBarrier = 0 →
    fgetD (core s c).links (nfld e.nest.epiWord 9 4) {} = l → l.failed = false → l.paired = true → l.credits ≠ 0 → (core s c).epiAdds = [] →
    (∀ q, q < 4 → (quarter s q).held2 = []) → ∃ t, exec (.epilogue c) s = .next t ∧
    let one : List Val := [.fin false 1 0, .fin false 1 0]
    let rows := (epiValues (core s c) e l.ty one one).map fun vs => rowCodes l.ty 0 (l.ty == 5) (vs.map fun v => (v, 0))
    (core t c).epi = none ∧ t.packets.map (fun p => (p.dst, p.body)) = s.packets.map (fun p => (p.dst, p.body)) ++
      (cut256 129 0 (tileBytes l.ty rows)).map (fun b => (l.peerDev, .tile l.peerCore l.peerQueue b.2)) ∧
    (fgetD (core t c).links (nfld e.nest.epiWord 9 4) {}).credits = l.credits - 1 ∧
    (∀ i, i < 128 → fgetD (core t c).acc (128 * e.acc + i) [] = []) ∧
    (∀ k, k / 128 ≠ e.acc → fgetD (core t c).acc k [] = fgetD (core s c).acc k []) ∧
    (core t c).nest = (core s c).nest ∧ t.parts = s.parts ∧ t.mem = s.mem ∧ t.die = s.die) ∧
  (∀ (s : State) (c : Nat) (e : Epi), (core s c).epi = some e → e.seen = none → e.nest.epiDest = 3 → e.nest.epiBarrier = 0 → (∀ q, q < 4 → (quarter s q).held2 = []) →
    (core s c).epiAdds = [] → ∃ t, exec (.epilogue c) s = .next t ∧ (core t c).epi = none ∧ (core t c).acc = (core s c).acc ∧ t.packets = s.packets ∧
    t.mem = s.mem ∧ t.die = s.die)

/-- LAUNCH_PACKET refuses or accepts, LAUNCH_ACCEPT waits for an entry, JOB_DISPATCH, ITERATION_HANDOUT and RECORD_PICKUP fill a partition, SCHED_AGE raises an entry, JOB_COMPLETE frees and CANCEL_REQUEST answers. The model's choice, not the manual's: that operand queues and mailboxes 4 to 15 are kept at a pick-up (log entry 20 (DEDUCED)); that bits [63:48] of a resumed pc are 0xFFFF (log entry 22 (DEDUCED)); where a log has ended (log entry 128 (DEDUCED)); that a launch packet whose number is below one performed changes nothing (log entry 115 (DEDUCED)); that the lowest free entry and slot are taken (log entry 141 (DESIGN CHOICE)); that a card is not written to a page that cannot be written (log entry 142 (DESIGN CHOICE)). -/
def Obligations.JobsAcceptedHandedOutAndCompleted : Prop :=
  (∀ (s t : State) (va q off n src tag : Nat) (bytes : List Byte), locOf va = .here q off → spotOf s q off = .jobWindow n 0 → bytes.length = 160 →
    (src = 0xFFFE → s.ready = true ∧ hostWaits s = false) →
    (if src = Sys2Proof.Config.device ∨ src = 0xFFFE then t = s else fgetD s.arrivedNo (pairKey (numberAgent tag) src) 0 ≤ tag % 2 ^ 64 ∧
      t = { s with arrivedNo := fput s.arrivedNo (pairKey (numberAgent tag) src) (tag % 2 ^ 64 + 1) }) →
    (stalled t q n src = true → exec (.launchPacket va src tag bytes) s = .next (modQuarter t q fun x =>
      { x with held := x.held ++ [{ checked := false, queue := n, src := src, tag := tag, bytes := bytes }] })) ∧
    (stalled t q n src = false → nbit (mgetN t q (regJq n 0)) 1 = false →
    let card := if nbit (mgetN t q (regJq n 0)) 4 then loggedCard t q n else BitVec.ofNat 1024 (nset (leNat bytes) 0 16 src / 2 ^ 256)
    let answered (st : Nat) : State := answerLaunch t q n src tag (nset (leNat bytes) 0 16 src) st 0
    let granted : Prop := ∃ e, aclFind t src q n = some e ∧ nbit e 3 = true
    (nbit (mgetN t q (regJq n 0)) 0 = false ∨ ¬ granted → exec (.launchPacket va src tag bytes) s = .next (answered 5)) ∧
    (nbit (mgetN t q (regJq n 0)) 0 = true ∧ granted → cardBad (nset (leNat bytes) 0 16 src) card = true → exec (.launchPacket va src tag bytes) s = .next (answered 3)) ∧
    (nbit (mgetN t q (regJq n 0)) 0 = true ∧ granted → cardBad (nset (leNat bytes) 0 16 src) card = false → channelsOk t card = false →
      exec (.launchPacket va src tag bytes) s = .next (answered 4)) ∧
    (nbit (mgetN t q (regJq n 0)) 0 = true ∧ granted → cardBad (nset (leNat bytes) 0 16 src) card = false → channelsOk t card = true → freeEntry t q n = none →
      exec (.launchPacket va src tag bytes) s = .next (modQuarter t q fun x =>
        { x with held := x.held ++ [{ checked := true, queue := n, src := src, tag := tag, bytes := leBytes 160 (nset (leNat bytes) 0 16 src) }] })) ∧
    (nbit (mgetN t q (regJq n 0)) 0 = true ∧ granted → cardBad (nset (leNat bytes) 0 16 src) card = false → channelsOk t card = true → ∀ a, freeEntry t q n = some a →
      exec (.launchPacket va src tag bytes) s = .next (acceptPacket t q n src tag (nset (leNat bytes) 0 16 src) a) ∧ a ∉ jobAddrs s q))) ∧
  (∀ (s : State) (va src tag : Nat) (bytes : List Byte), (src = 0xFFFE ∧ (s.ready = false ∨ hostWaits s = true)) ∨
      (src ≠ Sys2Proof.Config.device ∧ src ≠ 0xFFFE ∧ tag % 2 ^ 64 < fgetD s.arrivedNo (pairKey (numberAgent tag) src) 0) →
    exec (.launchPacket va src tag bytes) s = .next s) ∧
  (∀ (s : State) (q a i : Nat) (h : HeldPacket), nextHeld s q = some (h, i) →
    let t := modQuarter s q fun x => { x with held := x.held.eraseIdx i }
    let card := BitVec.ofNat 1024 (nset (leNat h.bytes) 0 16 h.src / 2 ^ 256)
    (quarter s q).held[i]? = some h ∧ (∀ k g, k < i → (quarter s q).held[k]? = some g →
      (g.checked = true → freeEntry s q g.queue = none) ∧ (g.checked = false → behind s ((quarter s q).held.take k) g.queue g.src = true)) ∧
    (h.checked = true → freeEntry s q h.queue = some a →
      exec (.launchAccept q) s = .next (acceptPacket t q h.queue h.src h.tag (leNat h.bytes) a)) ∧
    (h.checked = false → nbit (mgetN s q (regJq h.queue 0)) 0 = false →
      exec (.launchAccept q) s = .next (answerLaunch t q h.queue h.src h.tag (nset (leNat h.bytes) 0 16 h.src) 5 0)) ∧
    (h.checked = false → nbit (mgetN s q (regJq h.queue 0)) 0 = true → nbit (mgetN s q (regJq h.queue 0)) 1 = false → nbit (mgetN s q (regJq h.queue 0)) 4 = false →
      (∃ e, aclFind s h.src q h.queue = some e ∧ nbit e 3 = true) → cardBad (nset (leNat h.bytes) 0 16 h.src) card = false → channelsOk s card = true →
      (freeEntry s q h.queue = none → exec (.launchAccept q) s = .next (modQuarter s q fun x =>
        { x with held := x.held.set i { h with checked := true, bytes := leBytes 160 (nset (leNat h.bytes) 0 16 h.src) } })) ∧
      (freeEntry s q h.queue = some a → exec (.launchAccept q) s = .next (acceptPacket t q h.queue h.src h.tag (nset (leNat h.bytes) 0 16 h.src) a)))) ∧
  (∀ (s : State) (q : Nat), nextHeld s q = none → exec (.launchAccept q) s = .next s) ∧
  (∀ (s : State) (q p job : Nat) (e : LevelEntry) (j : Job), nextEntry s q = some e → placeOn s q = some p → e.item = .job job → findJob s job = some j →
    (j.phase = .ready → channelsOk s j.card = false → exec (.jobDispatch q job) s = .next (freeJob (finalStatus s j 4) job)) ∧
    (∀ slot i, freeSlot s j = some slot →
      (i = .jobDispatch q job ∧ j.phase = .ready ∧ channelsOk s j.card = true) ∨ (i = .iterationHandout q ∧ j.phase = .dispatched) →
      ∃ t, exec i s = .next t ∧ ∃ x, part t p = x ∧
      x.pc = w64 (cardFld j.card 0 64) ∧ x.workid = w64 (workidOf j.card j.handed) ∧ x.asid = j.asid ∧ x.cont = w64 slot ∧
      x.priv = (if j.service then 2 else 0) ∧ x.unflagged = 0 ∧ x.flights = [] ∧ x.loops = [] ∧ x.tokens = [] ∧ x.sems = [] ∧ x.carry = [] ∧
      (∀ i, i < 6 → fgetD x.regs (i + 1) [] = [w64 (walkIndex j.card j.handed i)]) ∧ (∀ r, r = 0 ∨ 6 < r → fgetD x.regs r [] = []) ∧
      (∀ i, i < 4 → fgetD x.mailboxes i 0 = w64 (cardFld j.card (512 + 64 * i) 64)) ∧
      (∀ i, 4 ≤ i → fgetD x.mailboxes i 0 = fgetD (part s p).mailboxes i 0) ∧
      ∃ r, x.resident = some r ∧ r.addr = slot ∧ r.job = j.addr ∧ r.view = 0 ∧ r.level = e.level ∧ r.base = j.prio ∧ r.rival = false)) ∧
  (∀ (s u : State) (q p a : Nat) (e : LevelEntry) (r : Suspended) (bs : List Byte), pickUpAgain s q = none → nextEntry s q = some e → placeOn s q = some p → e.item = .record a →
    (quarter s q).suspended.find? (fun r => r.addr == a) = some r →
    readVa s { part := p, agent := .control, asid := r.asid, view := 0, job := r.job } (r.addr % 2 ^ 64) 64 0 = (u, .ok bs) → nfld (leNat bs) 239 5 = 0 →
    slicesTested s = [] → ∃ t, exec (.recordPickup q) s = .next t ∧ ∃ x, part t p = x ∧
      x.pc = w64 (0xFFFF * 2 ^ 48 + nfld (leNat bs) 2 46 * 4) ∧ x.workid = w64 (nfld (leNat bs) 64 64) ∧ x.asid = nfld (leNat bs) 48 16 ∧ x.cont = w64 r.addr ∧
      x.priv = (match findJob s (nfld (leNat bs) 128 64) with | some j => if j.service then 2 else 0 | none => 0) ∧
      x.regs = [] ∧ x.loops = [] ∧ x.flights = [] ∧ (∀ i, i < 4 → fgetD x.carry i 0 = w64 (nfld (leNat bs) (256 + 64 * i) 64)) ∧
      (∃ y, x.resident = some y ∧ y.addr = r.addr ∧ y.view = nfld (leNat bs) 244 12 ∧ y.base = nfld (leNat bs) 227 3 ∧ y.level = e.level) ∧
      ∀ z ∈ (quarter t q).suspended, z.addr ≠ r.addr) ∧
  (∀ (s : State) (q : Nat) (e : LevelEntry), (quarter s q).levels.find? (fun e => decide (e.level < 7 ∧ e.since + mgetN s q regAge * 1250 < s.time)) = some e →
    exec (.schedAge q) s = .next (modQuarter s q fun x => { x with levels := dropFirst (· == e) x.levels ++ [{ level := e.level + 1, item := e.item, since := s.time }] })) ∧
  (∀ (s : State) (q job : Nat) (j : Job), findJob s job = some j → j.phase = .dispatched → cardTotal j.card ≤ j.handed → j.live = 0 → tableWork s job = false → j.addr = job →
    (∀ p e, e ∈ (part s p).stores → e.ctx.job = job → exec (.jobComplete q job) s = .next s) ∧ (writesLeft s job = false → j.reply = 0 → cardFld j.card 64 64 = 0 →
    (s.capture = false → j.status ≠ 0 ∨ logEnded s job = false → exec (.jobComplete q job) s = .next (freeJob s job)) ∧
    (j.status = 0 → logEnded s job = true → exec (.jobComplete q job) s = .next (freeJob (noteDivergence s j 0 0) job)))) ∧
  (∀ (s : State) (j : Job) (st : Nat), j.reply = 0 → s.capture = false → finalStatus s j st = s) ∧
  (∀ (s t : State) (src tag k e job : Nat) (j : Job),
    (if src = Sys2Proof.Config.device ∨ src = 0xFFFE then t = s else fgetD s.arrivedNo (pairKey (numberAgent tag) src) 0 ≤ tag % 2 ^ 64 ∧
      t = { s with arrivedNo := fput s.arrivedNo (pairKey (numberAgent tag) src) (tag % 2 ^ 64 + 1) }) →
    localKey job = some k → findJob s (Sys2Proof.Config.device * 2 ^ 48 + k) = some j →
    (aclFind s src (nfld (Sys2Proof.Config.device * 2 ^ 48 + k) 46 2) j.queue = some e → nbit e 4 = true → (j.phase = .dispatched ∨ j.phase = .ending) →
      exec (.cancelRequest src tag job) s = .next (answerTo t src tag 2)) ∧
    (aclFind s src (nfld (Sys2Proof.Config.device * 2 ^ 48 + k) 46 2) j.queue = some e → nbit e 4 = true → (j.phase = .waiting ∨ j.phase = .ready) →
      exec (.cancelRequest src tag job) s = .next (answerTo (freeJob (finalStatus t j 1) (Sys2Proof.Config.device * 2 ^ 48 + k)) src tag 1)) ∧
    ((∀ e, aclFind s src (nfld (Sys2Proof.Config.device * 2 ^ 48 + k) 46 2) j.queue = some e → nbit e 4 = false) →
      exec (.cancelRequest src tag job) s = .next (answerTo t src tag 5)))

/-- A packet is routed to the port of R311 or dropped; arrivals are performed in the sequence of their pair at their home and answered; answers, acknowledgements and wakes reach the issuer; a lost answer pends a trap while fewer than 8 pend (the model's choice of log entry 129). The model's choice, not the manual's: that an arrival whose number is below one performed changes nothing (log entry 115 (DEDUCED)); that the agent number of a packet carries the address space (log entry 19 (DESIGN CHOICE)); that a trap that finds 8 pending adds none (log entry 129 (DEDUCED)); what is asked of the home of an arrival (log entry 152 (DEDUCED)); what the record of a dropped packet without an address, or of a dropped group, shows (log entry 160, 161 (DESIGN CHOICE)); that the add of a multicast whose blocks were not all performed is answered as lost and not made (log entry 158 (DEDUCED)). -/
def Obligations.FabricStepsFollowTheirRules : Prop :=
  (∀ (s : State) (adapt : Option Nat) (k : Packet) (r : List Packet), s.packets = k :: r →
    (∀ p, routePort s k adapt = some p → exec (.routePacket adapt) s = .next { s with packets := r, wire := s.wire ++ [(p, { k with
      hops := k.hops + if p < 48 then 1 else 0, port := none })] }) ∧
    (routePort s k adapt = none → ∀ va bs, k.body = .write va bs →
      (k.src = Sys2Proof.Config.device → exec (.routePacket adapt) s = .next (ackArrives (recordLost { s with packets := r } va k.dst) k.seq true)) ∧
      (k.src ≠ Sys2Proof.Config.device → exec (.routePacket adapt) s = .next (sendPacket (recordLost { s with packets := r } va k.dst) 0x3002 k.src (.ack k.seq true)))) ∧
    (routePort s k adapt = none → k.src = Sys2Proof.Config.device → ∀ va op x y, k.body = .atomic va op x y →
      exec (.routePacket adapt) s = .next (answerArrives (recordLost { s with packets := r } va k.dst) k.seq true 0)) ∧
    (routePort s k adapt = none → (∃ c n, (∃ piece, k.body = .tile c n piece) ∨ k.body = .credit c n ∨ ∃ pc pn ty d, k.body = .bind c n pc pn ty d) →
      exec (.routePacket adapt) s = .next (lostAck (recordLost { s with packets := r } 0 k.dst) k.src k.seq)) ∧
    (∀ nums stage gs members va bar bs n, routePort s k adapt = none → k.body = .multicast nums stage gs members va bar bs → nums.find? (fun x => x.1 == k.dst) = some (k.dst, n) →
      exec (.routePacket adapt) s = .next (lostAck (recordLost { s with packets := r } (onDevice k.dst (castAddr va bar bs)) k.dst) k.src n))) ∧
  (∀ (s : State) (k : Packet) (p : Nat),
    (k.dst / 32 = ownGroup → portUp s (linkTo (k.dst % 32)) = true → routePort s k none = some (linkTo (k.dst % 32))) ∧
    (k.dst / 32 ≠ ownGroup → k.hops < 2 → k.port = none → routePort s k none = some p →
      p < 79 ∧ portUp s p = true ∧ reaches s p (k.dst / 32) = true ∧ ∀ q, q < p → portUp s q = true → reaches s q (k.dst / 32) = false) ∧
    (∀ adapt, routePort s k adapt = some p → 48 ≤ p ∨ (k.hops < 2 ∧ ∀ i, k.port = some i → 48 ≤ i))) ∧
  (∀ (s u : State) (src agent sq va : Nat) (bytes : List Byte) (old : W64), let key := pairKey agent src
    let o : State := { s with arrivedNo := fput s.arrivedNo key (sq % 2 ^ 64 + 1) }
    (sq % 2 ^ 64 < fgetD s.arrivedNo key 0 → exec (.fabricWriteArrival src agent sq va bytes) s = .next s ∧
      (∀ cnt, exec (.remoteBarrierAdd src agent sq va cnt) s = .next s) ∧ ∀ op x y, exec (.fabricAtomicArrival src agent sq va op x y) s = .next s) ∧
    (fgetD s.arrivedNo key 0 ≤ sq % 2 ^ 64 → slicesTested s = [] →
      (writeWhole o (arrivalCtx agent va) va bytes = (u, .ok ()) → u.capture = false →
        exec (.fabricWriteArrival src agent sq va bytes) s = .next (sendPacket (retestRings u) 0x3002 src (.ack sq false))) ∧
      (∀ kind at_, mayWriteAll o (arrivalCtx agent va) va bytes.length = .error (.fault kind at_) →
        exec (.fabricWriteArrival src agent sq va bytes) s = .next (sendPacket (arrivalFails o agent at_ 1 kind) 0x3002 src (.ack sq true))) ∧
      (∀ cnt, performOp o (arrivalCtx agent va) va (.barrierAdd cnt) 0 = (u, .ok old) → u.capture = false →
        exec (.remoteBarrierAdd src agent sq va cnt) s = .next (sendPacket u 0x3002 src (.ack sq false))) ∧
      (∀ op x y, op < 12 → performOp o (arrivalCtx agent va) va (.atomic (atomicOf op) x y) 0 = (u, .ok old) → u.capture = false →
        exec (.fabricAtomicArrival src agent sq va op x y) s = .next (sendPacket (retestRings u) 0x3002 src (.answer sq old))) ∧
      (∀ x y, performOp o (arrivalCtx agent va) va (.bbInit x) 0 = (u, .ok old) → u.capture = false →
        exec (.fabricAtomicArrival src agent sq va 12 x y) s = .next (sendPacket u 0x3002 src (.ack sq false))) ∧
      (∀ x y, performOp o (arrivalCtx agent va) va (.bbExp x) 0 = (u, .ok old) → u.capture = false →
        exec (.fabricAtomicArrival src agent sq va 13 x y) s = .next (sendPacket u 0x3002 src (.ack sq false))))) ∧
  (∀ (s : State) (sq word p seq : Nat) (va part_ job : Nat) (val : W64),
    s.awaits.find? (fun a => a.seq == sq) = some { seq := sq, word := word, part := part_, kind := .value p seq 0, va := va, job := job } →
    (part s p).ords = [] → (part s p).monitor = .off →
    exec (.fabricAnswerWrite sq false val) s = .next (modPart { s with awaits := dropFirst (fun a => a.seq == sq) s.awaits } p fun x => { x with
      answers := fdel x.answers sq, flights := replaceFirst (fun f => f.seq == seq && f.val == .answer) (fun f => { f with val := .ready val }) x.flights }) ∧
    ∃ t, exec (.fabricAnswerWrite sq true val) s = .next t ∧ (part t p).flights = (part s p).flights.filter (fun f => f.seq != seq) ∧
      (part t p).pending.map (fun t => t.cause) = (part s p).pending.map (fun t => t.cause) ++ (if 8 ≤ (part s p).pending.length then [] else [0x0E]) ∧ (part t p).regs = (part s p).regs ∧ t.mem = s.mem) ∧
  (∀ (s : State) (sq word part_ va job : Nat) (lost : Bool), s.awaits.find? (fun a => a.seq == sq) = some { seq := sq, word := word, part := part_, kind := .ack, va := va, job := job } →
    let u : State := { s with awaits := dropFirst (fun a => a.seq == sq) s.awaits }
    (fget (part s part_).answers word = none → exec (.fabricAck sq lost) s = .next u ∧ exec (.ethDeliveryAck sq) s = .next u) ∧
    (∀ v, fget (part s part_).answers word = some v → (part s part_).ords = [] → exec (.fabricAck sq lost) s = .next (modPart u part_ fun x => { x with
      answers := fdel x.answers word, flights := replaceFirst (fun f => f.seq == word && f.val == .answer) (fun f => { f with val := .ready v }) x.flights }))) ∧
  (∀ (s u : State) (src tag va pa v : Nat) (e : W64), let key := pairKey (numberAgent tag) src
    fgetD s.arrivedNo key 0 ≤ tag % 2 ^ 64 → slicesTested s = [] →
    readNum { s with arrivedNo := fput s.arrivedNo key (tag % 2 ^ 64 + 1) } (arrivalCtx (tag / 2 ^ 96 * 2 ^ 16) va) va 8 0 = (u, .ok v) →
    physOf u (tag / 2 ^ 96) va = some pa →
    exec (.monitorRequestArrival src tag va e) s = .next (sendPacket
      (if w64 v = e then { u with nextSeq := u.nextSeq + 1, monitors := u.monitors ++ [{ id := u.nextSeq, line := pa / 128, owner := .remote src (tag % 2 ^ 96), home := va % 2 ^ 48 / 128 }] } else u)
      0x3002 src (.answer (tag % 2 ^ 96) (w64 v)))) ∧
  (∀ (s : State) (tag p : Nat) (x : Part), s.parts.find? (fun x => x.2.monitor == .armedRemote tag) = some (p, x) →
    exec (.wakeWrite tag) s = .next (modPart s p fun x => { x with monitor := .fired })) ∧
  (∀ (s u : State) (src tag va q off n : Nat) (bytes : List Byte), let key := pairKey (numberAgent tag) src
    let o : State := { s with arrivedNo := fput s.arrivedNo key (tag % 2 ^ 64 + 1) }
    fgetD s.arrivedNo key 0 ≤ tag % 2 ^ 64 → slicesTested s = [] → locOf va = .here q off → spotOf s q off = .rqWindow n 0 → (∀ h ∈ (quarter s q).held2, h.queue ≠ n) →
    (appendRecord o q n src bytes = (u, .ok) → exec (.requestRecordArrival src tag va bytes) s = .next (answerTo u src tag 0)) ∧
    (appendRecord o q n src bytes = (u, .denied) → exec (.requestRecordArrival src tag va bytes) s = .next (answerTo u src tag 5)) ∧
    (appendRecord o q n src bytes = (u, .full) → exec (.requestRecordArrival src tag va bytes) s = .next (modQuarter u q fun x =>
      { x with held2 := x.held2 ++ [{ src := src, tag := tag, queue := n, bytes := bytes }] }))) ∧
  (∀ (s a b c d : State) (q n src e tail head : Nat) (bytes : List Byte),
    let ctx := queueCtx q (nfld (mgetN s q (regRqCfg n)) 48 16)
    let r := globalAddr q (nfld (mgetN s q (regRqCfg n)) 8 38 * 256)
    let slots := 2 ^ min (nfld (mgetN s q (regRqCfg n)) 4 4) 12
    aclFind s src q n = some e → nbit e 3 = true → nbit (mgetN s q (regRqCfg n)) 0 = true → readNum s ctx r 8 0 = (a, .ok tail) → readNum a ctx (r + 128) 8 0 = (b, .ok head) →
    (slots ≤ (tail + 2 ^ 64 - head) % 2 ^ 64 → appendRecord s q n src bytes = (b, .full)) ∧
    ((tail + 2 ^ 64 - head) % 2 ^ 64 < slots → writeVa b ctx (r + 256 + 64 * (tail % slots)) bytes 0 = (c, .ok ()) → writeVa c ctx r (leBytes 8 (tail + 1)) 0 = (d, .ok ()) → d.capture = false →
      appendRecord s q n src bytes = (d, .ok))) ∧
  (∀ (s : State) (src agent members va bar : Nat) (nums : List (Nat × Nat)) (groups : List Nat) (bytes : List Byte), src ≠ Sys2Proof.Config.device →
    let sq := numberFor nums Sys2Proof.Config.device
    let key := pairKey agent src
    let o : State := { s with arrivedNo := fput s.arrivedNo key (sq % 2 ^ 64 + 1) }
    let at_ := 0xFFFF * 2 ^ 48 + va % 2 ^ 48
    (members % 2 ^ 32 = 0 → exec (.multicastForward src agent nums 3 groups members va 0 bytes) s = .next s) ∧
    (members % 2 ^ 32 ≠ 0 → fgetD s.arrivedNo key 0 ≤ sq % 2 ^ 64 → slicesTested s = [] →
      (bytes ≠ [] → mayWriteAll o (arrivalCtx agent va) at_ bytes.length = .ok () → (writeVa o (arrivalCtx agent va) at_ bytes 0).1.capture = false →
        exec (.multicastForward src agent nums 3 groups members va 0 bytes) s =
        .next (sendPacket (retestRings (countCast (writeVa o (arrivalCtx agent va) at_ bytes 0).1 key (sq % 2 ^ 64))) 0x3002 src (.ack sq false))) ∧
      (bar ≠ 0 → castCounted o key (sq % 2 ^ 64) va = false →
        exec (.multicastForward src agent nums 3 groups members va bar []) s = .next (sendPacket o 0x3002 src (.ack sq true))) ∧
      (∀ w old, bar ≠ 0 → castCounted o key (sq % 2 ^ 64) va = true → s.capture = false → mayWrite o (arrivalCtx agent bar) (0xFFFF * 2 ^ 48 + bar % 2 ^ 48) = .ok () →
        performOp (retestRings o) (arrivalCtx agent bar) (0xFFFF * 2 ^ 48 + bar % 2 ^ 48) (.barrierAdd va) 0 = (w, .ok old) → w.capture = false →
        exec (.multicastForward src agent nums 3 groups members va bar []) s = .next (sendPacket w 0x3002 src (.ack sq false))) ∧
      (∀ k a, mayWriteAll o (arrivalCtx agent va) at_ bytes.length = .error (.fault k a) → exec (.multicastForward src agent nums 3 groups members va 0 bytes) s =
        .next (sendPacket (arrivalFails o agent a 1 k) 0x3002 src (.ack sq true))))) ∧
  (∀ (s : State) (kind link : Nat), mgetN s 0 (regLink kind link 2) < 2 ^ 32 - 1 →
    exec (.linkLevelRetry kind link) s = .next (mset s 0 (regLink kind link 2) (w64 (mgetN s 0 (regLink kind link 2) + 1))))

/-- A tile, a credit, a bind packet and a time-out act on their link tile queue; an RMA write and an untagged send land in their receive entry, or are dropped and counted; senders are answered (what may be an old tile: log entry 143; answers: log entry 109). The model's choice, not the manual's: that announcements are kept and a pair is bound whenever both match (log entry 116 (DEDUCED)); what the transport is answered (log entry 109 (DESIGN CHOICE)); which arrivals are tiles of a binding that has ended (log entry 143 (DESIGN CHOICE)); that the steps of tiles, credits and binds carry no packet number (log entry 157 (DEDUCED)); the address space and the unmapped pages of an Ethernet arrival (log entry 164, 165 (DESIGN CHOICE)). -/
def Obligations.LinkQueuesAndEthernetArrivals : Prop :=
  (∀ (s : State) (c n : Nat),
    let l := fgetD (core s c).links n {}
    l.bound = true → l.failed = false →
    let live : Bool := !l.send && l.paired && decide (l.tiles.length < 4)
    let k := Sys2Proof.Config.oldTile s.nextSeq
    (∀ codes scales, l.stale = [] → live = true →
      exec (.linkTileArrival c n codes scales) s = .next (modLink s c n fun l => { l with tiles := l.tiles ++ [tileOf l.ty codes scales], heldSince := none })) ∧
    (∀ codes scales, l.stale = [] → live = false → exec (.linkTileArrival c n codes scales) s = .next s) ∧
    (∀ codes scales, l.stale ≠ [] → ∃ l', exec (.linkTileArrival c n codes scales) s = .next (modLink { s with nextSeq := s.nextSeq + 1 } c n fun _ => l') ∧
      if live = true ∧ l.stale.length ≤ k then
        l' = { l with tiles := l.tiles ++ [tileOf l.ty codes scales], heldSince := none, stale := l.stale.filter fun e => e.1 != (l.peerDev, l.peerCore, l.peerQueue) }
      else { l' with stale := l.stale } = l ∧
        ∀ e, l.stale[k % l.stale.length]? = some e → l'.stale = (l.stale.set (k % l.stale.length) (e.1, e.2 - 1)).filter fun e => e.2 != 0) ∧
    (l.send = true → l.paired = true → exec (.ltqCredit c n) s = .next (modLink s c n fun l => { l with credits := min (l.credits + 1) 4, heldSince := none })) ∧
    (∀ dev pc pn ty send,
      let kept := (dev, pc, pn, ty, send) :: l.offers.filter fun o => o.1 != dev || o.2.1 != pc || o.2.2.1 != pn
      (dev = l.peerDev → pc = l.peerCore → pn = l.peerQueue → ty = l.ty → send = !l.send →
        exec (.ltqBindPacket c n dev pc pn ty send) s = .next (modLink s c n fun l => { l with
          offers := kept, paired := true, credits := if l.send then 4 else 0, tiles := [], halfUsed := 0, heldSince := if l.send then none else l.heldSince })) ∧
      (dev = l.peerDev → pc = l.peerCore → pn = l.peerQueue → ty ≠ l.ty ∨ send = l.send →
        exec (.ltqBindPacket c n dev pc pn ty send) s = .next (modLink s c n fun l => { l with offers := kept, paired := false })) ∧
      (dev ≠ l.peerDev ∨ pc ≠ l.peerCore ∨ pn ≠ l.peerQueue →
        exec (.ltqBindPacket c n dev pc pn ty send) s = .next (modLink s c n fun l => { l with offers := kept }))) ∧
    (∀ at_, l.heldSince = some at_ → let limit := max 1 (mgetN s 0 regLtqTimeout % 2 ^ 32) * 1250
      (s.time < at_ + limit → exec (.ltqTimeout c n) s = .next s) ∧
      (at_ + limit ≤ s.time → (core s c).epi = none → (core s c).nest = none →
        exec (.ltqTimeout c n) s = .next (modLink s c n fun l => { l with heldSince := none })) ∧
      (at_ + limit ≤ s.time →
        ((core s c).epi = none ∧ ∃ m, (core s c).nest = some m ∧ (waitingLinks (core s c) m).contains n = true) ∨
          (l.send = true ∧ ∃ e, (core s c).epi = some e ∧ e.nest.epiDest = 2 ∧ nfld e.nest.epiWord 9 4 = n) →
        ∃ t, exec (.ltqTimeout c n) s = .next t ∧ fgetD (core t c).links n {} = { l with failed := true, heldSince := none } ∧ t.mem = s.mem))) ∧
  (∀ (s u : State) (entry off feature : Nat) (bytes : List Byte),
    let base := mgetN s 0 (regRx entry 0)
    let len := nfld (mgetN s 0 (regRx entry 1)) 0 32
    let bar := mgetN s 0 (regRx entry 2)
    let ctx (a : Nat) : Ctx := queueCtx (nfld a 46 2) (mgetN s 0 (regDev 0x380) % 2 ^ 16)
    (feature ≠ 0 → exec (.ethRmaWrite entry off bytes feature) s = .next (ethAnswer (mbump s 0 regEthDrop 32) 1)) ∧
    (feature = 0 → (256 ≤ entry ∨ len = 0 ∨ len < off + bytes.length) → exec (.ethRmaWrite entry off bytes feature) s = .next (mbump s 0 regEthDrop 32)) ∧
    (feature = 0 → entry < 256 → len ≠ 0 → off + bytes.length ≤ len → slicesTested s = [] → writeVa s (ctx (base + off)) (base + off) bytes 0 = (u, .ok ()) → (retestRings u).capture = false →
      (bar = 0 → exec (.ethRmaWrite entry off bytes feature) s = .next (ethAnswer (retestRings u) 0)) ∧
      (bar ≠ 0 → ∀ w old, performOp (retestRings u) (ctx bar) bar (.barrierAdd bytes.length) 0 = (w, .ok old) → w.capture = false →
        exec (.ethRmaWrite entry off bytes feature) s = .next (ethAnswer w 0)))) ∧
  (∀ (s u : State) (bytes : List Byte) (e : Nat),
    let len := nfld (mgetN s 0 (regRx e 1)) 0 32
    let ctx (a : Nat) : Ctx := queueCtx (nfld a 46 2) (mgetN s 0 (regDev 0x380) % 2 ^ 16)
    let told : State := if len < bytes.length then ethAnswer (mbump s 0 regEthDrop 32) 2 else s
    (∀ feature, feature ≠ 0 → exec (.ethUntaggedSend bytes feature) s = .next (ethAnswer (mbump s 0 regEthDrop 32) 1)) ∧
    ((∀ k, k < 256 → nbit (mgetN s 0 (regRx k 1)) 63 = false) → exec (.ethUntaggedSend bytes 0) s = .next (ethAnswer (mbump s 0 regEthDrop 32) 3)) ∧
    (e < 256 → nbit (mgetN s 0 (regRx e 1)) 63 = true → (∀ k, k < e → nbit (mgetN s 0 (regRx k 1)) 63 = false) → mgetN s 0 (regRx e 2) = 0 → slicesTested s = [] →
      writeVa told (ctx (mgetN s 0 (regRx e 0))) (mgetN s 0 (regRx e 0)) (bytes.take len) 0 = (u, .ok ()) → (retestRings u).capture = false →
      exec (.ethUntaggedSend bytes 0) s = .next (mset (ethAnswer (retestRings u) 0) 0 (regRx e 1) (w64 len))))

/-- HOST_READ and HOST_WRITE reach memory, registers and windows, or are counted; REGISTER_WRITE changes the writable bits; the fault and error queues are filled, popped and ended. The model's choice, not the manual's: that HOST_WRITE is a write of the host and REGISTER_WRITE one of Adeun (log entry 33 (DEDUCED)); how a host write of fewer or more than 8 bytes reaches a register (log entry 34 (DESIGN CHOICE)); that a host read that cannot be made is answered with all ones (log entry 77 (DEDUCED)). -/
def Obligations.HostDieReachesTheDevice : Prop :=
  (∀ (s : State) (va n : Nat) (bytes : List Byte), hostWaits s = true → exec (.hostRead va n) s = .next s ∧ exec (.hostWrite va bytes) s = .next s) ∧
  (∀ (s u : State) (va q off : Nat), s.ready = true → hostWaits s = false → locOf va = .here q off → inMgmt off = false →
    let ctx := queueCtx q (mgetN s 0 (regDev 0x380) % 2 ^ 16)
    (∀ n, waitsHome s ctx va n false = true → exec (.hostRead va n) s = .next s) ∧
    (∀ bytes, bytes.length ≤ 64 → waitsHome s ctx va bytes.length true = true → exec (.hostWrite va bytes) s = .next s) ∧
    (∀ n, n ∈ [1, 2, 4, 8, 16, 32, 64] → va % n = 0 → waitsHome s ctx va n false = false →
      (∀ bs, readVa s ctx va n 0 = (u, .ok bs) → exec (.hostRead va n) s = .next { u with hostAnswers := u.hostAnswers ++ [(va, bs)] }) ∧
      (∀ e, readVa s ctx va n 0 = (u, .error e) → exec (.hostRead va n) s = .next { mbump u 0 (regDev 0x388) 32 with
        hostAnswers := u.hostAnswers ++ [(va, List.replicate n 0xFF)] })) ∧
    (∀ bytes, bytes.length ∈ [1, 2, 4, 8, 16, 32, 64] → va % bytes.length = 0 → waitsHome s ctx va bytes.length true = false →
      (writeVa s ctx va bytes 0 = (u, .ok ()) → u.capture = false → exec (.hostWrite va bytes) s = .next (retestRings u)) ∧
      (∀ e, writeVa s ctx va bytes 0 = (u, .error e) → exec (.hostWrite va bytes) s = .next (mbump u 0 (regDev 0x388) 32))) ∧
    (∀ bytes, bytes.length = 160 → exec (.hostWrite va bytes) s = .next (packetAt s va 0xFFFE 0 bytes))) ∧
  (∀ (s : State) (va q off : Nat) (bytes : List Byte), s.ready = true → hostWaits s = false → locOf va = .here q off → inMgmt off = true →
    va % bytes.length = 0 → (q = 0 → off / 8 * 8 ≠ regDev 0x300) →
    (bytes.length = 8 → exec (.hostWrite va bytes) s = .next (mgmtStore s 768 q off (w64 (leNat bytes)))) ∧
    (bytes.length ∈ [1, 2, 4] → exec (.hostWrite va bytes) s = .next (mgmtStore s 768 q (off / 8 * 8) (mgmtMerge s q off bytes)))) ∧
  (∀ (s : State) (va n : Nat) (bytes : List Byte), s.ready = false → exec (.hostWrite va bytes) s = .next s ∧
    (isBootSt va = false → exec (.hostRead va n) s = .next s) ∧
    (va = 0xFFFF * 2 ^ 48 + regDev 0x200 → hostWaits s = false → exec (.hostRead va 8) s = .next { s with
      hostAnswers := s.hostAnswers ++ [(va, leBytes 8 (s.bootStage % 256 + s.bootCode % 256 * 2 ^ 8))] })) ∧
  (∀ (s : State) (q off : Nat) (v : W64) (k : RegKind), regKind q off = some k →
    ∃ t, exec (.registerWrite q off v) s = .next (if 0x3F0000002000 ≤ off ∧ off < 0x3F0000002200 then retestRings t else t) ∧
    (¬(0x3F0000001000 ≤ off ∧ off < 0x3F0000002000 ∧ off % 0x40 = 0) →
      mget t q off = ((mget s q off &&& ~~~(w64 k.rw)) &&& ~~~(v &&& w64 k.w1c)) ||| (v &&& w64 k.rw)) ∧
    (∀ n, n < 64 → off = regJq n 0 → nbit (mgetN t q off) 1 = nbit v.toNat 1 ∧ nbit (mgetN t q off) 0 = nbit v.toNat 0 ∧ nfld (mgetN t q off) 48 16 = nfld v.toNat 48 16) ∧
    (∀ r o, mkey r o ≠ mkey q off → mget t r o = mget s r o) ∧ { t with mgmt := s.mgmt } = s) ∧
  (∀ (s : State) (f : FaultRec) (r : List FaultRec), s.faultsWaiting = f :: r →
    (s.faults.length < 1024 → ∃ t, exec .faultQueueAppend s = .next t ∧ t.faults = s.faults ++ [f] ∧ t.faultsWaiting = r ∧
      (s.faults = [] → ∀ va, locOf (mgetN s 0 (regDev 0x38)) = .host → va = mgetN s 0 (regDev 0x38) → t.hostOut = s.hostOut ++ [(va, leBytes 8 1)]) ∧
      (s.faults ≠ [] ∨ mgetN s 0 (regDev 0x38) = 0 → t.hostOut = s.hostOut ∧ t.mem = s.mem)) ∧
    (1024 ≤ s.faults.length → exec .faultQueueAppend s = .next s)) ∧
  (∀ (s : State), (s.ready = true → hostWaits s = false → exec .fqPop s = .next { s with faults := s.faults.tail } ∧ exec .erPop s = .next { s with errors := s.errors.tail }) ∧
    (s.ready = false ∨ hostWaits s = true → exec .fqPop s = .next s ∧ exec .erPop s = .next s)) ∧
  (∀ (s : State) (va k : Nat) (j : Job), s.ready = true → hostWaits s = false → va < 2 ^ 64 → localKey va = some k →
    (findJob s (Sys2Proof.Config.device * 2 ^ 48 + k) = none → exec (.fqEnd va) s = .next s) ∧
    (findJob s (Sys2Proof.Config.device * 2 ^ 48 + k) = some j → ∃ t, exec (.fqEnd va) s = .next t ∧
      (∀ p r, (part t p).resident = some r → r.job ≠ Sys2Proof.Config.device * 2 ^ 48 + k) ∧
      (s.forks = [] → (∃ i, findJob t (Sys2Proof.Config.device * 2 ^ 48 + k) = some i ∧ i.status = 6) ∧
        (∀ e, e ∈ (quarter t (nfld (Sys2Proof.Config.device * 2 ^ 48 + k) 46 2)).levels → e.item ≠ .job (Sys2Proof.Config.device * 2 ^ 48 + k)) ∧
        ∀ p r, (part s p).resident = some r → r.job = Sys2Proof.Config.device * 2 ^ 48 + k →
          (part t p).regs = [] ∧ (part t p).flights = [] ∧ (part t p).loops = [] ∧ (part t p).monitor = .off ∧
          ∀ n, n < 3 → (cmdQueue t p n).queued = [] ∧ (cmdQueue t p n).running = [])) ∧
    (findJob s (Sys2Proof.Config.device * 2 ^ 48 + k) = some j → s.forks = [] → s.cores = [] → s.parts = [] → (quarter s (nfld (Sys2Proof.Config.device * 2 ^ 48 + k) 46 2)).suspended = [] →
      exec (.fqEnd va) s = .next (modQuarter (modJob s (Sys2Proof.Config.device * 2 ^ 48 + k) fun j => { j with status := 6 }) (nfld (Sys2Proof.Config.device * 2 ^ 48 + k) 46 2)
        fun x => { x with levels := x.levels.filter fun e => e.item != .job (Sys2Proof.Config.device * 2 ^ 48 + k) })))

/-- tr.inval, wv.quota, sk.clr, hr.cfg, chm, mig.ctl and cr.msways start and end their operations; a view identifier returns; a sketch halves. The model's choice, not the manual's: whose commands hr.cfg waits for and that a later write replaces its value (log entry 35 (DEDUCED)); that a retry signal tries every entry of every side log (log entry 38 (DEDUCED)); what a migration reads of its registers, and when (log entry 126 (DESIGN CHOICE)). -/
def Obligations.ManagementOperationsTakeEffect : Prop :=
  (∀ (s : State) (q : Nat) (v : W64), s.ready = false ∨ hostWaits s = true → exec (.trInvalWrite q v) s = .next s ∧ exec (.wvQuotaWrite v) s = .next s ∧
    exec (.skClrWrite q v) s = .next s ∧ exec (.hrCfgWrite q v) s = .next s ∧ exec (.migGo q) s = .next s ∧ exec (.opSelWrite v) s = .next s ∧ exec (.atGoWrite v) s = .next s) ∧
  (∀ (s : State) (q : Nat) (v : W64), s.ready = true → hostWaits s = false →
    (s.invalBusy.contains q = true → exec (.trInvalWrite q v) s = .next s) ∧
    (s.invalBusy.contains q = false → exec (.trInvalWrite q v) s = .next (replayLogs (testAgain { mset s q regInval (v &&& 0xFFFF3FFFFFFC0007) with
      invalBusy := s.invalBusy ++ [q], retries := s.retries + 1 }))) ∧
    (s.invalBusy.contains q = false → exec (.trInvalDone q) s = .next s) ∧
    (s.invalBusy.contains q = true → let inval := mgetN s q regInval
      let hit := invalHits (nfld inval 1 2) (nfld inval 48 16) (nfld inval 18 28 * 2 ^ 18) (nbit inval 0) q
      let away := replicaHits (nfld inval 1 2) (nfld inval 48 16) (nfld inval 18 28 * 2 ^ 18) (nbit inval 0) q
      ∃ t, exec (.trInvalDone q) s = .next t ∧ t.invalBusy = s.invalBusy.filter (· != q) ∧ t.tags.large = s.tags.large.filter (fun e => !hit e) ∧
        t.tags.homes = s.tags.homes.filter (fun h => !hit h.2) ∧ t.tags.replicas = s.tags.replicas.filter (fun r => !away r) ∧ ((∀ r ∈ s.tags.replicas, away r = false) → t.mem = s.mem ∧ t.die = s.die) ∧ t.parts = s.parts) ∧
    (∀ x, fget s.views (v.toNat / 2 ^ 52) = some x → x.ended = false → exec (.wvQuotaWrite v) s = .next (replayLogs { mset s 0 regWvQuota (v &&& 0xFFF0000000000000) with
      views := fput s.views (v.toNat / 2 ^ 52) { x with quota := v.toNat % 2 ^ 40 / 128 * 128 }, retries := s.retries + 1 })) ∧
    (fget s.views (v.toNat / 2 ^ 52) = none → exec (.wvQuotaWrite v) s = .next (replayLogs { mset s 0 regWvQuota (v &&& 0xFFF0000000000000) with retries := s.retries + 1 }))) ∧
  (∀ (s : State) (q : Nat) (v : W64), s.ready = true → hostWaits s = false → ∃ t, exec (.skClrWrite q v) s = .next t ∧ (quarter t q).clearing = some (v.toNat % 64) ∧
    (∀ k, k / 65536 % 64 = v.toNat % 64 → fgetD (quarter t q).sketch k 0 = 0) ∧
    (∀ k, k / 65536 % 64 ≠ v.toNat % 64 → fgetD (quarter t q).sketch k 0 = fgetD (quarter s q).sketch k 0) ∧
    exec (.skClrDone q) t = .next (modQuarter t q fun x => { x with clearing := none })) ∧
  (∀ (s : State) (q slot : Nat), slot < 64 → (∀ g, g < 4 → halveDue s q g slot = true) → (quarter s q).sketchAdds.Pairwise (fun a b => a.1 < b.1) → (quarter s q).sketch.Pairwise (fun a b => a.1 < b.1) →
    ∃ t, exec (.sketchHalve q slot) s = .next t ∧
    (∀ g k, g < 4 → k / 65536 = 64 * g + slot → fgetD (quarter t q).sketch k 0 = fgetD (quarter s q).sketch k 0 / 2) ∧
    (∀ k, (∀ g, g < 4 → k / 65536 ≠ 64 * g + slot) → fgetD (quarter t q).sketch k 0 = fgetD (quarter s q).sketch k 0) ∧
    (∀ g, g < 4 → fgetD (quarter t q).sketchAdds (64 * g + slot) 0 = 0)) ∧
  (∀ (s : State) (q : Nat) (v : W64), s.ready = true → hostWaits s = false → let n := v.toNat
    (127 < nfld n 0 8 + nfld n 8 8 + nfld n 16 8 + nfld n 24 8 → exec (.hrCfgWrite q v) s = .next s) ∧
    (nfld n 0 8 + nfld n 8 8 + nfld n 16 8 + nfld n 24 8 ≤ 127 → exec (.hrCfgWrite q v) s = .next (modQuarter s q fun x => { x with hrPending := some (w64 (n % 2 ^ 32)), hrWriters := (768, 0) :: x.hrWriters })) ∧
    ((quarter s q).hrPending = some v → tableBusy s q = true → exec (.hrCfgTakeEffect q) s = .next s) ∧
    ((quarter s q).hrPending = some v → tableBusy s q = false → exec (.hrCfgTakeEffect q) s = .next ((quarter s q).hrWriters.foldl (fun s w => postReady s w.1)
      (mset (modQuarter s q fun x => { x with hrPending := none, hrWriters := [], hot := [] }) q regHrCfg v)))) ∧
  (∀ (s : State) (q slot ch : Nat) (v : W64), s.ready = true → hostWaits s = false → slot < 4 → ch < 16 →
    let old := mgetN s q (regCh slot ch 0)
    let new := nfld v.toNat 6 2 * 64 + nfld v.toNat 0 4
    let names := chmPhys fun i => if i = ch then new else mgetN s q (regCh slot i 0)
    (¬ names.Nodup → exec (.chmWrite q slot ch v) s = .next s) ∧
    (names.Nodup → (nfld old 6 2 ≠ nfld new 6 2 ∨ nfld old 0 4 ≠ nfld new 0 4) → ∃ t, exec (.chmWrite q slot ch v) s = .next t ∧ mgetN t q (regCh slot ch 0) = new + 32 ∧
      (∀ a, q * 2 ^ 46 + 0x100000000000 + slot * 2 ^ 39 + ch * 2 ^ 35 ≤ a → a < q * 2 ^ 46 + 0x100000000000 + slot * 2 ^ 39 + (ch + 1) * 2 ^ 35 → cohByte t a = 0) ∧
      (∀ a, a < q * 2 ^ 46 + 0x100000000000 + slot * 2 ^ 39 + ch * 2 ^ 35 ∨ q * 2 ^ 46 + 0x100000000000 + slot * 2 ^ 39 + (ch + 1) * 2 ^ 35 ≤ a → cohByte t a = cohByte s a)) ∧
    (names.Nodup → nfld old 6 2 = nfld new 6 2 → nfld old 0 4 = nfld new 0 4 →
      exec (.chmWrite q slot ch v) s = .next (if nbit v.toNat 5 then mset s q (regCh slot ch 0) (w64 new) else s))) ∧
  (∀ (s : State) (q old place new : Nat),
    (s.ready = true → hostWaits s = false → s.migrating.contains q = false → migrationLeaf s q = some (old, place, new) →
      exec (.migGo q) s = .next (if leafUsable s q new then mset { s with migrating := s.migrating ++ [q] } q regMigCtl 0 else mset s q regMigCtl 2)) ∧
    (s.migrating.contains q = false → exec (.migrationDone q) s = .next s) ∧
    (s.migrating.contains q = true → migrationLeaf s q = some (old, place, new) → leafUsable s q new = true →
      let va := mgetN s q regMigVa
      let t : State := copyRange { s with migrating := s.migrating.filter (· != q) } (nfld old 18 30 * 2 ^ 18)
        (nfld new 18 30 * 2 ^ 18) (pageSize (nfld old 1 2)) (keyOfPage old q (nfld va 48 16) (nfld va 18 28 * 2 ^ 18))
      exec (.migrationDone q) s = .next (removeTranslations (physPut t place (leBytes 8 (movedLeaf t q place))) q 0 (nfld va 48 16) (nfld va 18 28 * 2 ^ 18) true))) ∧
  (∀ (s : State) (view : Nat) (x : View), fget s.views view = some x →
    (x.ended = false → exec (.viewFree view) s = .next s) ∧
    (x.ended = true → (∀ p ∈ s.parts, ∀ k ∈ p.2.queues, k.2.queued = [] ∧ k.2.running = []) → (∀ c ∈ s.cores, c.2.sideLog = [] ∧ c.2.sideHeld = []) → s.views.Pairwise (fun a b => a.1 < b.1) →
      ∃ t, exec (.viewFree view) s = .next t ∧ fget t.views view = none ∧ (∀ w, w ≠ view → fget t.views w = fget s.views w) ∧ t.parts = s.parts ∧ t.mem = s.mem)) ∧
  (∀ (s : State) (q n : Nat),
    (16 < n → exec (.mswaysDrain q n) s = .next (modQuarter s q fun x => { x with mswaysSt := 2 }) ∧ exec (.mswaysConvert q n) s = .next (modQuarter s q fun x => { x with mswaysSt := 2 })) ∧
    (n ≤ 16 → (∃ t, exec (.mswaysDrain q n) s = .next t ∧ quarter t q = { quarter s q with drained := n, mswaysSt := 0 } ∧ t.parts = s.parts ∧
        (MemorySound s → s.die.Pairwise (fun a b => a.1 < b.1) → (∀ e ∈ s.die, e.2.dirty = false → e.2.bytes = memBytes s.mem (32 * e.1) 32) → ∀ a, cohByte t a = cohByte s a)) ∧
      (waysDirty s q n = true → exec (.mswaysConvert q n) s = .next (modQuarter { s with nextSeq := s.nextSeq + 1 } q fun x => { x with mswaysSt := 1 })) ∧
      (waysDirty s q n = false → ∃ t, exec (.mswaysConvert q n) s = .next t ∧ quarter t q = { quarter s q with msways := n, drained := n, mswaysSt := 0 } ∧ t.parts = s.parts)) ∧
    (∀ p b k, p < 768 → (quarter s q).mswaysBusy = some (p, b, k) → exec (.mswaysOperationEnd q) s = .next (modPart (modQuarter s q fun x => { x with mswaysBusy := none }) p fun x => { x with msDone := true })))

/-- Corrected errors and link changes are counted and recorded; op.sel applies a mode once nothing is live; reset, boot and attestation do what their rules say. The model's choice, not the manual's: that the step of a corrected error carries its bank and row (log entry 76 (DEDUCED)); what is kept of memory when rst.ctl[1] is set (log entry 78 (DEDUCED)); how a new hot-row size and the ways of a set are applied (log entry 82 (DEDUCED)); when a failed memory initialisation is found (log entry 145 (DESIGN CHOICE)); that the set of op.sel is read when it is applied (log entry 150 (DESIGN CHOICE)). -/
def Obligations.ErrorsResetBootAndAttestation : Prop :=
  (∀ (s : State) (pa bank row : Nat), let q := pa / 2 ^ 46 % 4
    let g := (pa % 2 ^ 46 - 0x100000000000) / 2 ^ 39
    let c := (pa % 2 ^ 46 - 0x100000000000) / 2 ^ 35 % 16
    0x100000000000 ≤ pa % 2 ^ 46 → pa % 2 ^ 46 < 0x120000000000 → mgetN s q (regCh g c 1) < 2 ^ 48 - 1 → mgetN s q (regCh g c (8 + bank % 16)) < 2 ^ 48 - 1 →
    s.errors.length < 4095 → mgetN s q (regCh g c 4) = 0 → ∃ t, exec (.memoryCorrectedError pa bank row) s = .next t ∧
      mgetN t q (regCh g c 1) = mgetN s q (regCh g c 1) + 1 ∧ mgetN t q (regCh g c (8 + bank % 16)) = mgetN s q (regCh g c (8 + bank % 16)) + 1 ∧
      t.errors.map (fun e => (e.kind, e.sev, e.addr)) = s.errors.map (fun e => (e.kind, e.sev, e.addr)) ++
        (if mgetN s q (regCh g c 2) ≠ 0 ∧ (mgetN s q (regCh g c 1) + 1) % mgetN s q (regCh g c 2) = 0 then [(3, 1, w64 row)] else []) ∧ t.mem = s.mem ∧ t.parts = s.parts) ∧
  (∀ (s : State) (unit : Nat) (detail : W64), unit < 2 ^ 32 → s.errors.length < 4096 → ∃ t, exec (.arraySoftError unit detail) s = .next t ∧
    t.errors = s.errors ++ [{ unit := unit, seq := s.errSeq % 2 ^ 16, sev := 0, kind := 5, addr := 0, time := s.time % 2 ^ 64, detail := detail }] ∧ t.errSeq = s.errSeq + 1 ∧ t.parts = s.parts ∧ t.mem = s.mem) ∧
  (∀ (s : State) (kind link st lanes : Nat), kind < 3 → link < 64 → st < 8 → lanes < 256 → s.errors.length < 4096 → let old := mgetN s 0 (regLink kind link 0)
    let now := if (st = 2 ∨ st = 3) ∧ 2 * lanes < linkLanes kind then 0 else st
    nfld old 0 3 ≠ now → ∃ t, exec (.linkStateChange kind link st lanes) s = .next t ∧
      nfld (mgetN t 0 (regLink kind link 0)) 0 3 = now ∧ nfld (mgetN t 0 (regLink kind link 0)) 8 8 = lanes ∧
      nfld (mgetN t 0 (regLink kind link 0)) 16 8 = (if now = 1 then min (nfld old 16 8 + 1) 255 else nfld old 16 8) ∧
      t.errors.map (fun e => (e.unit, e.kind, e.sev, e.detail)) = s.errors.map (fun e => (e.unit, e.kind, e.sev, e.detail)) ++
        [(0x70000000 + link * 2 ^ 20 + kind * 2 ^ 16 + 0xFFFF, 6, 1, w64 (now + lanes * 256))]) ∧
  (∀ (s : State) (kind link : Nat), mgetN s 0 (regLink kind link 1) < 2 ^ 48 - 1 → s.errors.length < 4096 → ∃ t, exec (.linkFecCorrection kind link) s = .next t ∧
    mgetN t 0 (regLink kind link 1) = mgetN s 0 (regLink kind link 1) + 1 ∧
    t.errors.length = s.errors.length + (if mgetN s 0 (regLink kind link 3) % 2 ^ 48 ≠ 0 ∧ (mgetN s 0 (regLink kind link 1) + 1) % (mgetN s 0 (regLink kind link 3) % 2 ^ 48) = 0 then 1 else 0)) ∧
  (∀ (s : State) (v : W64), (s.ready = true → hostWaits s = false → exec (.opSelWrite v) s = .next { mset s 0 (regDev 0x120) (v &&& 3) with opBusy := true }) ∧
    ((s.opBusy = false ∨ anyLive s = true) → exec .opmodeApply s = .next s) ∧
    (s.opBusy = true → anyLive s = false → (∀ q, q < 4 → tableBusy s q = false) → ∃ t, exec .opmodeApply s = .next t ∧ t.opBusy = false ∧
      let sel := mgetN s 0 (regDev 0x120) % 4
      let set := mgetN s 0 (regDev (0x100 + 8 * sel))
      t.modeSet = sel ∧ t.profile = nfld set 37 1 ∧ t.ordered = nbit set 38 ∧ t.capture = nbit set 39 ∧
      (nfld set 32 5 ≤ 16 → ∀ q, q < 4 → (quarter t q).msways = nfld set 32 5))) ∧
  (∀ (s : State) (v : W64), exec .powerOnReset s = .next { State.reset with agenda := s.agenda, resets := s.resets + 1 } ∧
    (s.ready = true → nbit v.toNat 0 = true → ∃ t, exec (.rstCtlWrite v) s = .next t ∧
      (nbit v.toNat 1 = true → t = { State.reset with agenda := s.agenda, resets := s.resets + 1, kept := true, mem := s.mem, failing := s.failing }) ∧
      (nbit v.toNat 1 = false → t = { State.reset with agenda := s.agenda, resets := s.resets + 1 })) ∧
    (s.ready = true → nbit v.toNat 0 = false → exec (.rstCtlWrite v) s = .next (mset s 0 (regDev 0x300) ((mget s 0 (regDev 0x300) &&& ~~~2) ||| (v &&& 2)))) ∧
    (s.ready = false → exec (.rstCtlWrite v) s = .next s)) ∧
  (∀ (s : State) (i : Sys2Proof.BootImage) (r : List Sys2Proof.BootImage), s.ready = false → s.bootCode = 0 →
    let good : State := { s with bootStage := (s.bootStage + 1) % 256, measure := fitBytes 64 (Sys2Proof.Config.sha512 (s.measure ++ i.digest)) }
    (imageCode i = 0 → exec (.boot [i]) s = .next (if s.kept = false ∧ Sys2Proof.Config.memoryFails s.resets = true then { good with bootCode := 5 } else { good with ready := true })) ∧
    (imageCode i ≠ 0 → exec (.boot (i :: r)) s = .next { s with bootCode := imageCode i }) ∧
    (imageCode i = 0 ↔ Sys2Proof.Config.sha512 i.body = i.digest ∧ Sys2Proof.Config.ed25519Verify i.key i.digest i.signature = true ∧
      Sys2Proof.Config.sha512 i.key = Sys2Proof.Config.fusedKeyDigest ∧ Sys2Proof.Config.fusedVersion ≤ i.version)) ∧
  (∀ (s : State) (v : W64),
    (s.ready = true → hostWaits s = false → s.reportBusy = false → nbit v.toNat 0 = true → exec (.atGoWrite v) s = .next (mset { s with reportBusy := true } 0 (regDev 0x2A8) 0)) ∧
    (s.reportBusy = true → exec (.atGoWrite v) s = .next s) ∧
    (s.reportBusy = true → locOf (mgetN s 0 (regDev 0x2A0)) = .host → ∃ t bs, exec .attestReportDone s = .next t ∧ t.reportBusy = false ∧ mget t 0 (regDev 0x2A8) = 2 ∧
      bs.length = 256 ∧ t.hostOut = s.hostOut ++ [(mgetN s 0 (regDev 0x2A0), bs)] ∧ (bs.drop 64).take 64 = fitBytes 64 s.measure ∧
      (∀ i, i < 4 → leNat ((bs.drop (160 + 8 * i)).take 8) = mgetN s 0 (regDev (0x280 + 8 * i)))))

/-- Words that the manual or its encoding tables give decode to the instructions they stand for -/
def Obligations.DecodedWordsAreTheManualsExamples : Prop :=
  let h : Hdr := { wp := false, sp := false, wn := false, sn := false, stop := false }
  decodeWords 0x182531D0 0 0 = .ok (.add { h with sn := true, stop := true } 5 6 7 false true) ∧
  decodeWords 0x018321FB 0 0 = .ok (.bne h 3 4 (-5)) ∧
  decodeWords 0x01E5060A 0 0 = .ok (.crr h 5 0x018) ∧
  decodeWords 0x02820001 0 0 = .ok (.mark h 2) ∧
  decodeWords 0x02810001 0 0 = .ok (.mark h 1) ∧
  decodeWords 0x00000000 0 0 = .error .permanentlyIllegal ∧
  decodeWords 0x07E00000 0 0 = .error .permanentlyIllegal

/-- Decoding the words of a well-formed instruction gives that instruction back, with every operand -/
def Obligations.EveryInstructionSurvivesItsEncoding : Prop :=
  ∀ (i : Instr) (w0 : Nat) (ws rest : List Nat), i.wf = true → i.isEvent = false → encode i = w0 :: ws →
    wordCount w0 = ws.length + 1 ∧ decodeWords w0 ((ws ++ rest).getD 0 0) ((ws ++ rest).getD 1 0) = .ok i

/-- A word that decodes is the encoding of a well-formed instruction, and words that are no instruction have a reason -/
def Obligations.EveryDecodedWordIsItsInstructionsEncoding : Prop :=
  ∀ (w0 w1 w2 : Nat), w0 < 2 ^ 32 →
    (∀ i, decodeWords w0 w1 w2 = .ok i → i.wf = true ∧ i.isEvent = false ∧ encode i = w0 :: [w1, w2].take (wordCount w0 - 1)) ∧
    (w0 / 2 ^ 21 % 64 = 0 ∨ w0 / 2 ^ 21 % 64 = 63 → decodeWords w0 w1 w2 = .error .permanentlyIllegal) ∧
    (w0 / 2 ^ 21 % 64 ∈ [28, 29, 30, 31, 44, 45, 46, 47, 52, 53, 54, 55, 60, 61, 62] → decodeWords w0 w1 w2 = .error .reservedMajor) ∧
    (2 ≤ wordCount w0 → w1 / 2 ^ 28 % 16 ≠ 0 → ∃ e, decodeWords w0 w1 w2 = .error e)

/-- A core whose next word may issue runs exactly the instruction that the words at the pc decode to. The model's choice, not the manual's: what the next step is (log entry 1 (DESIGN CHOICE)); that a fetch from another device takes ACCESS (log entry 74 (DEDUCED)); that a fetch from a tolerant page runs the substitute word (log entry 75 (DESIGN CHOICE)); that an extension word that could not be fetched is recorded as 0 (log entry 119 (DEDUCED)); that the model looks ahead for the partitions without the issue (log entry 120 (DEDUCED)). -/
def Obligations.StepRunsTheDecodedWord : Prop :=
  (∀ (s u v : State) (c p w0 : Nat) (ws : List Nat) (r : List Choice), s.agenda = .issue c :: r → s.ready = true → (core s c).issue = some p →
    (core s c).nextIssue ≤ s.time → (part s p).entering = none → (part s p).flights = [] → (part s p).restarting = false → (part s p).fetchSeen = none →
    let s0 : State := { lookAll s with agenda := r, cur := p }
    let pc := (part s p).pc.toNat
    (fetchWord s0 (ctxOf s0 p .control) pc = (u, .word w0) → fetchRest u (ctxOf s0 p .control) pc (wordCount w0 - 1) [w0] = (v, .ok ws) →
      (∀ i, decodeWords w0 (ws.getD 1 0) (ws.getD 2 0) = .ok i → step s = afterExec (exec i (modPart v p fun x => { x with fetchSeen := none }))) ∧
      (∀ e, decodeWords w0 (ws.getD 1 0) (ws.getD 2 0) = .error e → step s = .next (settleStep (trapWord v p 0x01 w0 (ws.getD 1 0))))) ∧
    (∀ va, fetchWord s0 (ctxOf s0 p .control) pc = (u, .denied va) →
      step s = .next (settleStep (if (part u p).atHandler then holdFetch u p 0 else trapWord u p 0x06 0 0))) ∧
    (fetchWord s0 (ctxOf s0 p .control) pc = (u, .word w0) →
      (∀ va, fetchRest u (ctxOf s0 p .control) pc (wordCount w0 - 1) [w0] = (v, .error (.denied va)) → (part v p).atHandler = false → step s = .next (settleStep (trapWord v p 0x06 w0 0))) ∧
      (∀ va, fetchRest u (ctxOf s0 p .control) pc (wordCount w0 - 1) [w0] = (v, .error (.unmapped va)) → step s = .next (settleStep (holdFetch v p w0)))) ∧
    (fetchWord s0 (ctxOf s0 p .control) pc = (u, .bad) → step s = .next (settleStep (trapWord u p 0x0F 0 0))) ∧
    (∀ va, fetchWord s0 (ctxOf s0 p .control) pc = (u, .unmapped va) → step s = .next (settleStep (holdFetch u p 0)))) ∧
  (∀ (s u : State) (c : Ctx) (va : Nat) (bs : List Byte), slicesTested s = [] → mayExecute s c.asid va = some true → readVa s c va 4 0 = (u, .ok bs) → fetchWord s c va = (u, .word (leNat bs))) ∧
  (∀ (s : State) (i : Instr) (r : List Choice), s.agenda = .event i :: r → isEvent i = true → step s = afterExec (exec i { lookAll s with agenda := r })) ∧
  (∀ (s : State), s.agenda = [] → s.ready = true → s.bootCode = 0 → firstChange (lookAll s) (dueEvents (lookAll s)) = none →
    (∀ c, firstCore s = some c → step s = issueCore (lookAll s) c) ∧ (firstCore s = none → step s = .next { lookAll s with time := s.time + 1 })) ∧
  (∀ (s : State), { lookAll s with parts := s.parts } = s ∧ (∀ p, { part (lookAll s) p with stuck := (part s p).stuck } = part s p) ∧
    (∀ p, (core s (coreOf p)).issue = some p → part (lookAll s) p = part s p))

/-- After reset every control register but cr.id reads 0, the management registers hold their reset values, memory reads 0 and the device waits for its images (what the manual gives no value for is 0: log entry 2). The model's choice, not the manual's: the values that the manual does not give are 0 (log entry 2 (DESIGN CHOICE)). -/
def Obligations.ResetLeavesWhatTheManualSays : Prop :=
  let s := State.reset
  (∀ p n, crValue s p n = if n = 0 then w64 (Sys2Proof.Config.device * 2 ^ 48 + p / 192 * 2 ^ 8 + p / 4 % 48 * 4 + p % 4) else 0) ∧
  (∀ p r, fgetD (part s p).regs r [] = []) ∧ (∀ p k, fgetD (part s p).tokens k 0 = 0) ∧ (∀ p k, fgetD (part s p).sems k 0 = 0) ∧
  (∀ p k, fgetD (part s p).mailboxes k 0 = 0) ∧ (∀ p, (part s p).resident = none ∧ (part s p).monitor = .off ∧ (part s p).loops = []) ∧
  (∀ q, mgetN s q regAge = 100 ∧ mgetN s q regWdlim = 1000 ∧ mgetN s q regThresh = 8 ∧ mgetN s q regRpLimit = 10000) ∧ mgetN s 0 regLtqTimeout = 1000 ∧
  (∀ q g c, g < 4 → c < 16 → mgetN s q (regCh g c 0) = c) ∧ (∀ q n, n < 64 → mgetN s q (regJq n 0) = 0) ∧
  (∀ a, cohByte s a = 0) ∧ MemorySound s ∧ NoticesStored s ∧ s.ready = false ∧ step s = .next { s with time := 1 }

/-- Every step keeps memory sound: the list of bytes in its canonical form, and 32 bytes in every cached sector -/
def Obligations.MemoryStaysSound : Prop :=
  ∀ (s t : State), MemorySound s → step s = .next t → MemorySound t

/-- Every instruction and every step answers a next state, except that a device whose image was refused stays in reset. The model's choice, not the manual's: that a device left in reset answers the fault heldInReset (log entry 87 (DEDUCED)). -/
def Obligations.NothingStopsTheDevice : Prop :=
  (∀ (i : Instr) (s : State), ∃ t, exec i s = .next t) ∧
  (∀ (s : State), (s.agenda ≠ [] ∨ s.bootCode = 0 → ∃ t, step s = .next t) ∧ (s.agenda = [] → s.bootCode ≠ 0 → step s = .fault .heldInReset)) ∧
  (∀ (s t : State), step s = .next t → NoticesStored s → NoticesStored t)

/-- fork makes its rivals and suspends the parent, choose asks the arbiter and then commits or ends, abandon discards its view, wid pushes the world word. The model's choice, not the manual's: when a choose asks and when it is answered (log entry 30 (DEDUCED)); that fork takes the lowest free identifiers (log entry 31 (DESIGN CHOICE)); that a page that cannot be written keeps the commit from being made (log entry 42 (DEDUCED)). -/
def Obligations.WorldWordsForkChooseAndAbandon : Prop :=
  ∀ (s : State) (h : Hdr) (regs : FMap (List W64)) (tokens : FMap Nat) (d a b : Reg),
    (∀ (x y : W64) (r : Resident), Issues s h { reads := [rd s a false, rd s b false], ill := worldWordIll s false } [x, y] regs tokens → forkBad x.toNat y.toNat = false →
      (part s s.cur).flights = [] → isLive (part (issued s h regs tokens) s.cur) = false → depthOf s (viewOf s s.cur) < 4 → (part s s.cur).reserved = [] → drained s s.cur = true →
      x.toNat % 8 ≤ (freeViews s).length → Unrecorded s → (part s s.cur).resident = some r → (∀ m ∈ s.monitors, m.owner ≠ .record r.addr) → ∃ t, exec (.fork h d a b) s = .next t ∧
      (part t s.cur).resident = none ∧ (∃ u ∈ (quarter t (quarterOf s.cur)).suspended, u.addr = r.addr ∧ u.wake = .world) ∧
      (∀ i, i < x.toNat % 8 → ∃ v, (freeViews s)[i]? = some v ∧
        fget t.views v = some { parent := r.view, depth := depthOf s r.view + 1, rival := i, ended := false, quota := y.toNat, lines := [], outbox := [] }) ∧
      ∃ f, t.forks = s.forks ++ [f] ∧ f.parent = r.addr ∧ f.parentView = r.view ∧ f.living = List.range (x.toNat % 8) ∧ f.winner = none ∧ f.dreg = d.val) ∧
    (∀ (f : Fork) (idx : Nat) (w : View), Issues s h { ill := worldWordIll s true } [] regs tokens → drained s s.cur = true → forkOf s (viewOf s s.cur) = some (f, idx) →
      fget s.views (viewOf s s.cur) = some w → f.logged = none →
      (f.winner = none → f.asks.find? (fun a => a.1 == idx) = none → exec (.choose h) s = .next (holdWord (countIgnored { s with
        forks := s.forks.map fun g => if g.parent = f.parent then { g with asks := g.asks ++ [(idx, s.time)] } else g } h) s.cur h.stop)) ∧
      (∀ t0, f.winner = none → f.asks = [(idx, t0)] → t0 < s.time → slicesTested s = [] →
        (f.parentView = 0 ∧ commitBlocked (issued s h regs tokens) (ctxOf (issued s h regs tokens) s.cur .control) w.lines = none) ∨ (f.parentView ≠ 0 ∧ fget s.views f.parentView = none) →
        exec (.choose h) s = .next (departed s h (commitRival (issued s h regs tokens) f idx (viewOf s s.cur) s.cur w))) ∧
      (∀ t0 k va, f.winner = none → f.asks = [(idx, t0)] → t0 < s.time → f.parentView = 0 →
        commitBlocked (issued s h regs tokens) (ctxOf (issued s h regs tokens) s.cur .control) w.lines = some (k, va) →
        exec (.choose h) s = .next (holdWord (countIgnored (holdFault s s.cur va 1 k) h) s.cur h.stop)) ∧
      (f.winner.isSome = true → exec (.choose h) s = .next (departed s h (abandonRival (issued s h regs tokens) (viewOf s s.cur))))) ∧
    (∀ (f : Fork) (idx v key : Nat) (w : View), Issues s h { ill := worldWordIll s true } [] regs tokens → forkOf s (viewOf s s.cur) = some (f, idx) →
      f.rivals.find? (fun x => x.1 == idx) = some (idx, v, key) → fget s.views (viewOf s s.cur) = some w → residentAt s key = some s.cur → ∃ t, exec (.abandon h) s = .next t ∧
      fget t.views (viewOf s s.cur) = some { w with ended := true, lines := [], outbox := [] } ∧ (part t s.cur).resident = none) ∧
    (Issues s h { dst := dstOf s d, ill := worldWordIll s false } [] regs tokens → ∃ v, exec (.wid h d) s = .next (onward s h false 1 (fly (issued s h regs tokens) d (.ready v))) ∧
      (∀ w, fget s.views (viewOf s s.cur) = some w → v = w64 (viewOf s s.cur + w.depth * 2 ^ 12 + w.rival * 2 ^ 16)) ∧ (fget s.views (viewOf s s.cur) = none → v = 0)) ∧
    (∀ (mask : BitVec 128) (cur : List Byte) (i : Nat), i < 128 → (mask.getLsbD i = true ↔ ∃ r ∈ maskRuns mask cur 128, r.1 ≤ i ∧ i < r.1 + r.2.length ∧ r.2.getD (i - r.1) 0 = cur.getD i 0))

/-- What every word does beside its own effect changes nothing but the issuing partition and its core's next issue -/
def Obligations.IssueChangesOnlyTheIssuer : Prop :=
  (∀ (s : State) (h : Hdr) (regs : FMap (List W64)) (tokens : FMap Nat),
    let t := issued s h regs tokens
    OnlyIssuer s t ∧ SameIssuer s t ∧ (part t s.cur).regs = regs ∧ (part t s.cur).tokens = tokens ∧ (part t s.cur).flights = (part s s.cur).flights ∧
    (part t s.cur).pc = (part s s.cur).pc ∧ (part t s.cur).loops = (part s s.cur).loops ∧ ∀ a, cohByte t a = cohByte s a) ∧
  (∀ (s u : State) (h : Hdr) (command : Bool) (nw target : Nat), u.cur = s.cur →
    let keeps (t : State) (cost : Nat) : Prop := OnlyIssuer u t ∧ SameIssuer u t ∧ (part t s.cur).regs = (part u s.cur).regs ∧
      (part t s.cur).flights = (part u s.cur).flights ∧ (core t (coreOf s.cur)).nextIssue = s.time + cost ∧ ∀ a, cohByte t a = cohByte u a
    keeps (onward s h command nw u) nw ∧ keeps (jumped s h nw target u) (nw + 2)) ∧
  (∀ (t : State) (d : Reg) (v : FlightVal), OnlyIssuer t (fly t d v) ∧ SameIssuer t (fly t d v) ∧ (part (fly t d v) t.cur).regs = (part t t.cur).regs ∧
    (part (fly t d v) t.cur).flights = if dstOf t d = 0 then (part t t.cur).flights else (part t t.cur).flights ++ [{ seq := t.curWord, reg := dstOf t d, val := v }])

/-- An arithmetic or immediate word changes its destination, the queues it pops, and nothing else but what every word changes -/
def Obligations.RegisterWordsChangeOnlyTheirDestination : Prop :=
  ∀ (s t : State) (h : Hdr) (regs : FMap (List W64)) (tokens : FMap Nat) (d a b : Reg) (ka kb : Bool) (imm : BitVec 10) (imm9 : BitVec 9) (sh : BitVec 6) (vals : List W64) (i : Instr),
    (Issues s h { reads := [rd s a ka, rd s b kb], dst := dstOf s d } vals regs tokens ∧
      i ∈ [.add h d a b ka kb, .sub h d a b ka kb, .and h d a b ka kb, .or h d a b ka kb, .xor h d a b ka kb, .andn h d a b ka kb, .sll h d a b ka kb, .srl h d a b ka kb,
        .sra h d a b ka kb, .rol h d a b ka kb, .min h d a b ka kb, .max h d a b ka kb, .minu h d a b ka kb, .maxu h d a b ka kb, .slt h d a b ka kb, .sltu h d a b ka kb,
        .mul h d a b ka kb, .mulh h d a b ka kb, .mulhu h d a b ka kb, .sext h d a b ka kb, .zext h d a b ka kb, .sel h d a b ka kb, .div h d a b ka kb, .divu h d a b ka kb,
        .rem h d a b ka kb, .remu h d a b ka kb]) ∨
    (Issues s h { reads := [rd s a ka], dst := dstOf s d } vals regs tokens ∧
      i ∈ [.clz h d a ka, .ctz h d a ka, .popc h d a ka, .addi h d a ka imm, .andi h d a ka imm, .ori h d a ka imm, .xori h d a ka imm, .slli h d a ka sh, .srli h d a ka sh,
        .srai h d a ka sh, .slti h d a ka imm9, .seqi h d a ka imm9]) →
    exec i s = .next t → OnlyIssuer s t ∧ SameIssuer s t ∧ (part t s.cur).regs = regs ∧ (∀ p, cohByte t p = cohByte s p) ∧
    ∃ v : FlightVal, (part t s.cur).flights = if dstOf s d = 0 then (part s s.cur).flights else (part s s.cur).flights ++ [{ seq := s.nextSeq, reg := dstOf s d, val := v }]

/-- A write of one sector of base memory changes the bytes it names, and their replicas, and no other byte -/
def Obligations.StoresChangeOnlyTheirBytes : Prop :=
  ∀ (s u : State) (c : Ctx) (va hint q off pte place : Nat) (bs : List Byte), MemorySound s → s.die.Pairwise (fun a b => a.1 < b.1) →
    (∀ e ∈ s.die, e.2.dirty = false → e.2.bytes = memBytes s.mem (32 * e.1) 32) → c.view = 0 → 0 < bs.length → va % 32 + bs.length ≤ 32 →
    locOf va = .here q off → spotOf s q off = .memory → leafAt s q c.asid off = some (pte, place) → s.failing = [] → writeVa s c va bs hint = (u, .ok ()) →
    let pa := leafPa pte off
    (∀ i, i < bs.length → cohByte u (pa + i) = bs.getD i 0) ∧
    let held (r : Replica) : Prop := r ∈ s.tags.replicas ∧ r.pa = pa / 128 ∧ nbit r.sectors (pa / 32 % 4) = true
    (∀ r, held r → ∀ i, i < bs.length → cohByte u (r.place + pa % 128 + i) = bs.getD i 0) ∧
    (∀ a, a < pa ∨ pa + bs.length ≤ a → (∀ r, held r → a < r.place + pa % 128 ∨ r.place + pa % 128 + bs.length ≤ a) → cohByte u a = cohByte s a) ∧
    u.mgmt = s.mgmt ∧ u.cores = s.cores ∧ u.views = s.views ∧ ∀ p, { part u p with monitor := (part s p).monitor } = part s p

/-- Copies, operand queues, the tile store and vector commands over scratchpad operands do the work of their rules, and nothing else. The model's choice, not the manual's: that the units of a copy count from its first byte (log entry 95 (DESIGN CHOICE)); that a scalar operand is cut to the width of its elements (log entry 59 (DEDUCED)); that NaN keys are equal keys (log entry 97 (DESIGN CHOICE)); that a bit without a use there is ignored (log entry 98, 106 (DESIGN CHOICE)); the trap for a type that does not suit (log entry 96 (DESIGN CHOICE)); where a strided row is checked (log entry 131 (DEDUCED)); that strided addresses wrap modulo 2^21, and modulo 2^19 in a tile store (log entry 50 (DEDUCED)). -/
def Obligations.EngineWorkOfCopiesAndVectors : Prop :=
  (∀ (h : Hdr) (a b : Reg) (ka : Bool), ∀ (s : State) (r : Run), r.cmd.ctx.view = 0 → r.formats = [] →
    let c := r.cmd
    let p := c.ctx.part
    let cc := coreOf p
    let x := part s p
    let val (i : Nat) : W64 := c.vals.getD i 0
    let read (a n : Nat) : List Byte := ringRead (core s cc).scratch (2 ^ 21) (a % 2 ^ 21) n
    let scr (m : FMap Byte) : State := modCore s cc fun y => { y with scratch := m }
    let put (m : FMap Byte) (a : Nat) (bs : List Byte) : FMap Byte := ringWrite m (2 ^ 21) (a % 2 ^ 21) bs
    let wr (u : State) (a : Nat) (bs : List Byte) : State := modCore u cc fun y => { y with scratch := put y.scratch a bs }
    let does (k : Nat) (t : State) (n : Nat) : Prop := (work k r).go s = (.ok { r with state := .done, count := n }, t)
    (∀ hint len, c.instr = .cpy h a b ka 1 1 hint len → inBank (val 1).toNat len.toNat = true →
      (len = 0 → does 0 s 0) ∧
      (0 < len.toNat → len.toNat ≤ 128 → does 0 (wr s (val 1).toNat (read (val 0).toNat len.toNat)) len.toNat) ∧
      ((core s cc).scratch.Pairwise (fun a b => a.1 < b.1) → (val 0).toNat + len.toNat ≤ 2 ^ 21 → (val 1).toNat + len.toNat ≤ 2 ^ 21 →
        (val 0).toNat + len.toNat ≤ (val 1).toNat ∨ (val 1).toNat + len.toNat ≤ (val 0).toNat →
        ∃ m, (len ≠ 0 → does 0 (scr m) len.toNat) ∧ (∀ i, i < len.toNat → fgetD m ((val 1).toNat + i) 0 = fgetD (core s cc).scratch ((val 0).toNat + i) 0) ∧
          ∀ k, k < (val 1).toNat ∨ (val 1).toNat + len.toNat ≤ k → fgetD m k 0 = fgetD (core s cc).scratch k 0)) ∧
    (∀ rows rowbytes, c.instr = .cpy2 h a b 1 1 rows rowbytes → r.step < rows.toNat → 0 < rowbytes.toNat → rowbytes.toNat ≤ 128 → rowsIn (val 2) (val 3) rows.toNat rowbytes.toNat = true →
      (work 0 r).go s = (.ok (r.afterRow rows.toNat (r.count + rowbytes.toNat)),
        wr s (strided (val 2) (val 3) r.step).toNat (read (strided (val 0) (val 1) r.step).toNat rowbytes.toNat))) ∧
    (∀ rowbytes, c.instr = .cpyg h a b 1 1 1 rowbytes → let i := leNat (read (val 1).toNat 4)
      let row := (val 0 + w64 (i * rowbytes.toNat)).toNat
      (i = 0xFFFFFFFF → does 0 (wr s (val 2).toNat (List.replicate rowbytes.toNat 0)) rowbytes.toNat) ∧
      (∀ u bs, i ≠ 0xFFFFFFFF → strays row rowbytes.toNat true = false → slicesTested s = [] → readVa s c.ctx row rowbytes.toNat 0 = (u, .ok bs) →
        does 0 (wr u (val 2).toNat bs) rowbytes.toNat)) ∧
    (∀ kb hint rows (oq : Fin 8), c.instr = .oqld h a b kb 1 hint rows oq → let q := fgetD x.operandQueues oq []
      (rows.toNat ≤ r.step → does 0 s (256 * rows.toNat)) ∧
      (r.step < rows.toNat → 8 ≤ q.length → ((work 0 r).go s).1 = .error .wait) ∧
      (r.step < rows.toNat → q.length < 8 → (work 0 r).go s = (.ok (if rows.toNat = r.step + 1 then { r with step := r.step + 1, state := .done, count := 256 * rows.toNat }
        else { r with step := r.step + 1, state := .waiting }),
        modPart s p fun y => { y with operandQueues := fput y.operandQueues oq (q ++ [read (strided (val 0) (val 1) r.step).toNat 256]) }))) ∧
    (∀ hint rows rowbytes, c.instr = .tsld h a b 1 hint rows rowbytes → 0 < rows.toNat →
      does 0 (modCore s cc fun y => { y with tile := (List.range rows.toNat).foldl (fun m k =>
        ringWrite m (2 ^ 19) ((val 2 + w64 (1024 * k)).toNat % 2 ^ 19) (read (strided (val 0) (val 1) k).toNat rowbytes.toNat)) y.tile }) (rows.toNat * rowbytes.toNat)) ∧
    (∀ hint rows rowbytes, c.instr = .tsst h a b ka 1 hint rows rowbytes → 0 < rows.toNat →
      does 0 (scr ((List.range rows.toNat).foldl (fun m k =>
        put m (strided (val 1) (val 2) k).toNat (ringRead (core s cc).tile (2 ^ 19) ((val 0 + w64 (1024 * k)).toNat % 2 ^ 19) rowbytes.toNat)) (core s cc).scratch)) (rows.toNat * rowbytes.toNat)) ∧
    (∀ (n : Fin 16) size slots, c.instr = .cbinit h a ka n size slots →
      does 0 (modPart s p fun y => { y with circs := fput y.circs n { slots := slots.toNat, size := 32 * size.toNat, base := (val 0).toNat, free := slots.toNat } }) 0)) ∧
  (∀ (h : Hdr) (a b : Reg) (ka kb sb : Bool) (vd va vb vc : Fin 16), ∀ (s : State) (r : Run), r.cmd.ctx.view = 0 → r.formats = [] →
    let c := r.cmd
    let p := c.ctx.part
    let cc := coreOf p
    let x := part s p
    let val (i : Nat) : W64 := c.vals.getD i 0
    let read (a n : Nat) : List Byte := ringRead (core s cc).scratch (2 ^ 21) (a % 2 ^ 21) n
    let scr (m : FMap Byte) : State := modCore s cc fun y => { y with scratch := m }
    let put (m : FMap Byte) (a : Nat) (bs : List Byte) : FMap Byte := ringWrite m (2 ^ 21) (a % 2 ^ 21) bs
    let does (k : Nat) (t : State) (n : Nat) : Prop := (work k r).go s = (.ok { r with state := .done, count := n }, t)
    let t := x.shapeType
    let w := tyWidth t
    let lanes (f : Nat → Nat → Nat) : Prop := does 1 (modPart s p fun y => fillShape y vd f) 0
    let opB (i j : Nat) : Nat := if sb then (val 0).toNat % 2 ^ w else elem x vb i j
    (∀ (oq : Fin 8) hint, c.instr = .vld h a b ka kb 1 vd oq hint → w ≠ 4 → rowsCheck x 1 (val 0) (val 1) = true →
      does 1 (modPart s p fun y => loadRows y vd ((List.range x.shapeRows).map fun k => read (strided (val 0) (val 1) k).toNat (rowBytes x))) 0) ∧
    (∀ (oq : Fin 8) hint row q, c.instr = .vld h a b ka kb 2 vd oq hint → fgetD x.operandQueues oq [] = row :: q → r.rows.length + 1 < x.shapeRows →
      (work 1 r).go s = (.ok { r with state := .waiting, step := r.step + 1, rows := r.rows ++ [row.take (rowBytes x)] }, modPart s p fun y => { y with operandQueues := fput y.operandQueues oq q })) ∧
    (∀ hint, c.instr = .vst h a b ka 1 va hint → rowsCheck x 1 (val 0) (val 1) = true → 0 < x.shapeRows →
      does 1 (scr ((List.range x.shapeRows).foldl (fun m k => put m (strided (val 0) (val 1) k).toNat
        (leBytes (rowBytes x) (packBits w ((List.range x.shapeCols).map fun j => elem x va k j)))) (core s cc).scratch)) (x.shapeRows * rowBytes x)) ∧
    (c.instr = .vbcastX h a ka vd → lanes fun _ _ => (val 0).toNat % 2 ^ w) ∧
    (∀ n, c.instr = .vbcastRow h vd va n → (n.toNat < x.shapeRows → lanes fun _ j => elem x va n.toNat j) ∧ (x.shapeRows ≤ n.toNat → ((work 1 r).go s).1 = .error (.trap 0x08))) ∧
    (∀ n, c.instr = .vbcastCol h vd va n → (n.toNat < x.shapeCols → lanes fun i _ => elem x va i n.toNat) ∧ (x.shapeCols ≤ n.toNat → ((work 1 r).go s).1 = .error (.trap 0x08))) ∧
    (c.instr = .vsel h vd va vb vc → lanes fun i j => if lane x vc i j = 0 then elem x vb i j else elem x va i j) ∧
    (isFloat t = true →
      (c.instr = .vadd h b kb sb false vd va vb → lanes fun i j => rneF t (addV (decodeF t (elem x va i j)) (decodeF t (opB i j)))) ∧
      (c.instr = .vsub h b kb sb false vd va vb → lanes fun i j => rneF t (addV (decodeF t (elem x va i j)) (negV (decodeF t (opB i j))))) ∧
      (c.instr = .vmul h b kb sb false vd va vb → lanes fun i j => rneF t (mulV (decodeF t (elem x va i j)) (decodeF t (opB i j)))) ∧
      (c.instr = .vfma h b kb sb false vd va vb vc → lanes fun i j => rneF t (addV (mulV (decodeF t (elem x va i j)) (decodeF t (opB i j))) (decodeF t (elem x vc i j)))) ∧
      (∀ (i : Instr) (big : Bool), c.instr = i → (i, big) ∈ [(Instr.vmax h b kb sb false vd va vb, true), (.vmin h b kb sb false vd va vb, false)] → ∃ f, lanes f ∧ ∀ i j,
        let p := decodeF t (elem x va i j)
        let q := decodeF t (opB i j)
        (p = .nan ∨ q = .nan → f i j = rneF t .nan) ∧ (ltV p q = true → f i j = rneF t (if big then q else p)) ∧ (ltV q p = true → f i j = rneF t (if big then p else q)) ∧
        (∀ n m d e, p = .fin n 0 d → q = .fin m 0 e → f i j = rneF t (.fin (if big then n && m else n || m) 0 d)) ∧
        (eqV p q = true → (∀ n d, p ≠ .fin n 0 d) → f i j = rneF t p)) ∧
      (∀ cond (rel : Val → Val → Bool), (cond, rel) ∈ [((0 : BitVec 3), eqV), (1, fun p q => !eqV p q), (2, ltV), (3, fun p q => ltV p q || eqV p q),
          (4, fun p q => ltV q p), (5, fun p q => ltV q p || eqV p q)] →
        c.instr = .vcmp h b kb sb false vd va vb cond → lanes fun i j => if rel (decodeF t (elem x va i j)) (decodeF t (opB i j)) then 1 else 0) ∧
      (c.instr = .vabs h false vd va → lanes fun i j => elem x va i j % 2 ^ (w - 1)) ∧
      (c.instr = .vneg h false vd va → lanes fun i j => (elem x va i j + 2 ^ (w - 1)) % 2 ^ w)) ∧
    (isInt t = true → let int (n : Nat) : Int := decodeI t n
      (c.instr = .vfma h b kb sb false vd va vb vc → lanes fun i j => intBits (int (elem x va i j) * int (opB i j) + int (elem x vc i j)) w) ∧
      (c.instr = .vabs h false vd va → lanes fun i j => intBits ((int (elem x va i j)).natAbs : Int) w) ∧
      (c.instr = .vneg h false vd va → lanes fun i j => intBits (-int (elem x va i j)) w) ∧
      (∀ cond (rel : Int → Int → Bool), (cond, rel) ∈ [((0 : BitVec 3), fun a b => decide (a = b)), (1, fun a b => decide (a ≠ b)), (2, fun a b => decide (a < b)), (3, fun a b => decide (a ≤ b)),
          (4, fun a b => decide (b < a)), (5, fun a b => decide (b ≤ a))] →
        c.instr = .vcmp h b kb sb false vd va vb cond → lanes fun i j => if rel (int (elem x va i j)) (int (opB i j)) then 1 else 0)) ∧
    (c.instr = .vshl h b kb sb vd va vb → lanes fun i j => if w ≤ opB i j % 256 then 0 else elem x va i j * 2 ^ (opB i j % 256) % 2 ^ w) ∧
    (c.instr = .vshr h b kb sb vd va vb → lanes fun i j => if 7 ≤ t ∧ t ≤ 9 then intBits (sxInt (elem x va i j) w / 2 ^ min (opB i j % 256) w) w
      else if w ≤ opB i j % 256 then 0 else elem x va i j / 2 ^ (opB i j % 256)) ∧
    (c.instr = .vpopc h vd va → lanes fun i j => ((List.range w).filter (nbit (elem x va i j))).length) ∧
    (∀ ty mode, c.instr = .vcvt h a ka vd va ty mode → t ≠ 11 → ty ≠ 11 → lanes fun i j =>
      encodeT ty.toNat mode.toNat (stochDraw c.seed.toNat c.workid.toNat ((val 0).toNat % 2 ^ 32) (i * 64 + j)) (decodeT t (elem x va i j))) ∧
    (∀ (axis sat : Bool) op, c.instr = .vred h axis sat vd va op → isFloat t = true ∨ isInt t = true → does 1 (modPart s p fun y => writeLanes y vd
      (if axis then (List.range x.shapeCols).map fun j => ((0, j), reduceElems t op.toNat sat ((List.range x.shapeRows).map fun i => elem x va i j))
       else (List.range x.shapeRows).map fun i => ((i, 0), reduceElems t op.toNat sat ((List.range x.shapeCols).map fun j => elem x va i j)))) 0) ∧
    (∀ ty (n : Fin 4) (i : Instr) (f : Val → Val), c.instr = i → (i, f) ∈ [(Instr.vgelu h vd va ty, specialV 0), (.vsilu h vd va ty, specialV 1), (.vsplus h vd va ty, specialV 2),
        (.vtanh h vd va ty, specialV 3), (.vsigm h vd va ty, specialV 4), (.vexp h vd va ty, specialV 5), (.vrcp h vd va ty, rcpV), (.vrsqrt h vd va ty, rsqrtV),
        (.vtbl h vd va ty n, userTableV fun k => fgetD x.tables (512 * n + k) 0)] → isFloat ty.toNat = true → t ≠ 11 →
      (work 1 r).go s = (.ok (r.afterRow x.shapeRows 0), modPart s p fun y => writeLanes y vd
        ((List.range x.shapeCols).map fun j => ((r.step, j), rneF ty.toNat (f (decodeT t (elem x va r.step j))))))) ∧
    (∀ (n : Fin 4), c.instr = .vtblld h a ka 1 n → inBank (val 0).toNat 1028 = true → let ks := (unpackBits 32 257 (leNat (read (val 0).toNat 1028))).map fun k => sxInt k 32
      ((∀ k ∈ ks, -2 ^ 23 ≤ k ∧ k ≤ 2 ^ 23 - 1) → ∃ u, does 1 (modPart s p fun y => { y with tables := u }) 0 ∧ (∀ i, i < 257 → fgetD u (512 * n + i) 0 = ks.getD i 0) ∧
        ∀ k, k < 512 * n ∨ 512 * n + 257 ≤ k → fgetD u k 0 = fgetD x.tables k 0) ∧
      ((∃ k ∈ ks, k < -2 ^ 23 ∨ 2 ^ 23 - 1 < k) → ((work 1 r).go s).1 = .error (.trap 0x08))) ∧
    (c.instr = .vtolog h vd va → isFloat t = true ∨ isInt t = true → lanes fun i j => toLog (decodeT t (elem x va i j))) ∧
    (∀ ty, c.instr = .vfrlog h vd va ty → isFloat ty.toNat = true → lanes fun i j => rneF ty.toNat (frLog (lane x va i j % 2 ^ 16))) ∧
    (∀ cf, sb = decide (cf.toNat % 2 = 1) → let codeB (i j : Nat) : Nat := if sb then (val 0).toNat % 2 ^ 16 else lane x vb i j % 2 ^ 16
      (c.instr = .vladd h b kb cf vd va vb → lanes fun i j => logAdd false (lane x va i j % 2 ^ 16) (codeB i j)) ∧
      (c.instr = .vlsub h b kb cf vd va vb → lanes fun i j => logAdd true (lane x va i j % 2 ^ 16) (codeB i j))) ∧
    (∀ n, c.instr = .vlshr h vd va n → lanes fun i j => logShr (lane x va i j % 2 ^ 16) n.toNat) ∧
    (c.instr = .vlmul h b kb vd va → lanes fun i j => logMul (lane x va i j % 2 ^ 16) (sxInt (val 0).toNat 16)) ∧
    (∀ n, c.instr = .vhamm h vd va vb n → x.shapeCols % 8 = 0 → n.toNat < x.shapeRows → does 1 (modPart s p fun y => writeLanes y vd (((List.range x.shapeRows).map fun i =>
      (List.range (x.shapeCols / 8)).map fun g => ((i, g), ((List.range 8).map fun l =>
        ((List.range 32).filter (nbit (Nat.xor (lane x va i (8 * g + l)) (lane x vb n.toNat l)))).length).sum)).flatten)) 0) ∧
    (∀ (desc : Bool) k1, c.instr = .vtopk h desc vd va vb vc k1 → isFloat t = true ∨ isInt t = true → ∃ best : List (Nat × Nat), does 1 (modPart s p fun y =>
        writeLanes (writeLanes y vd (best.zipIdx.map fun e => ((0, e.2), e.1.1))) vc (best.zipIdx.map fun e => ((0, e.2), e.1.2))) 0 ∧
      let pool := ((List.range (k1.toNat + 1)).map fun j => (elem x vd 0 j, lane x vc 0 j)) ++ (shapeCells x).map fun e => (elem x va e.1 e.2, lane x vb e.1 e.2)
      ∃ rest, (best ++ rest).Perm pool ∧ best.length = min (k1.toNat + 1) pool.length ∧ (best ++ rest).Pairwise fun e f => topBefore t desc e f = true) ∧
    (∀ src, src.toNat = 1 → c.instr = .vfilt h a b ka kb src vd va → inBank (val 0).toNat (ceilDiv (val 1).toNat 8) = true → does 1 (modPart s p fun y =>
      writeLanes y vd ((shapeCells x).map fun e => (e, let i := lane x va e.1 e.2
        if i < (val 1).toNat ∧ nbit (leNat (read ((val 0) + w64 (i / 8)).toNat 1)) (i % 8) = true then 1 else 0))) 0) ∧
    (c.instr = .vuniq h vd va vc → let ids := (shapeCells x).map fun e => lane x va e.1 e.2
      ∃ d : List Nat, d.Nodup ∧ (∀ e, e ∈ d ↔ e ∈ ids ∧ e ≠ 0xFFFFFFFF) ∧ does 1 (modPart s p fun y =>
        writeLanes (writeLanes y vd ((shapeCells x).zip (d ++ List.replicate ((shapeCells x).length - d.length) 0xFFFFFFFF))) vc
          ((shapeCells x).zip (ids.map fun e => if e = 0xFFFFFFFF then 0xFFFFFFFF else d.idxOf e))) 0) ∧
    (∀ nb1 sft, c.instr = .vbkt h vd va vc nb1 sft → let ids := ((shapeCells x).map fun e => lane x va e.1 e.2).filter (· != 0xFFFFFFFF)
      let buckets := (List.range (nb1.toNat + 1)).map fun k => ids.filter fun e => e / 2 ^ sft.toNat % (nb1.toNat + 1) == k
      does 1 (modPart s p fun y => writeLanes (writeLanes y vd ((shapeCells x).zip (buckets.flatten ++ List.replicate ((shapeCells x).length - buckets.flatten.length) 0xFFFFFFFF))) vc
        (buckets.zipIdx.map fun k => ((0, k.2), k.1.length))) 0)) ∧
  (∀ (h : Hdr) (a b : Reg) (hint : BitVec 2) (vd : Fin 16), ∀ (s : State) (r : Run), r.cmd.ctx.view = 0 → r.formats = [] →
    let c := r.cmd
    let p := c.ctx.part
    let val (i : Nat) : W64 := c.vals.getD i 0
    let does (k : Nat) (t : State) (n : Nat) : Prop := (work k r).go s = (.ok { r with state := .done, count := n }, t)
    ∀ i j n, c.instr = .vsect h a b hint vd →
      (r.marks = [i, j, n, 0, 0] → (val 1).toNat ≤ i ∨ (val 4).toNat ≤ j → does 1 (modPart s p fun y => setLane y vd 0 0 n) (4 * n)) ∧
      (∀ e f, r.marks = [i, j, n, e + 1, f + 1] → i < (val 1).toNat → j < (val 4).toNat →
        (e < f → (work 1 r).go s = (.ok { r with state := .row, marks := [i + 1, j, n, 0, f + 1] }, s)) ∧
        (f < e → (work 1 r).go s = (.ok { r with state := .row, marks := [i, j + 1, n, e + 1, 0] }, s)) ∧
        (e = f → ∀ u, (engWrite c.ctx ((val 2).toNat + 4 * n) (leBytes 4 e) hint.toNat 4 c.id).go s = (.ok (), u) →
          (work 1 r).go s = (.ok { r with state := .row, marks := [i + 1, j + 1, n + 1, 0, 0] }, u))))

/-- mshp, mgo, macc and mlq act on their shape, nest, accumulator and queue; table, exchange and weight commands do the work of their rules, step by step. The model's choice, not the manual's: what is kept of announcements at a bind (log entry 116 (DEDUCED)); which arrivals are old tiles (log entry 143 (DESIGN CHOICE)); that wload sets its type when its hold has ended (log entry 101 (DESIGN CHOICE)); where an index or a row is checked (log entry 131 (DEDUCED)); that strided addresses wrap modulo 2^21 (log entry 50 (DEDUCED)); that the pin of a present row is no use of it (log entry 154 (DESIGN CHOICE)); that what is done of a held command stays done row by row, and that a COMMAND_START works one bag (log entry 47, 68 (DEDUCED)). -/
def Obligations.EngineWorkOfMatrixAndTables : Prop :=
  (∀ (h : Hdr) (a : Reg) (ka : Bool), ∀ (s : State) (r : Run), r.cmd.ctx.view = 0 → r.formats = [] →
    let c := r.cmd
    let p := c.ctx.part
    let cc := coreOf p
    let x := part s p
    let val (i : Nat) : W64 := c.vals.getD i 0
    let read (a n : Nat) : List Byte := ringRead (core s cc).scratch (2 ^ 21) (a % 2 ^ 21) n
    let does (k : Nat) (t : State) (n : Nat) : Prop := (work k r).go s = (.ok { r with state := .done, count := n }, t)
    (∀ src (n : Fin 16), c.instr = .mshp h a ka src n →
      let writes (u : State) (bs : List Byte) : Prop := ∃ v : BitVec 512, does 2 (modPart u p fun y => { y with shapes := fput y.shapes n v }) 0 ∧
        ∀ i, i < 512 → v.getLsbD i = ((decide (i < 396) || decide (448 ≤ i ∧ i < 480)) && nbit (leNat bs) i)
      (src = 1 → inBank (val 0).toNat 64 = false → ((work 2 r).go s).1 = .error (.trap 0x08)) ∧
      (src = 1 → inBank (val 0).toNat 64 = true → writes s (read (val 0).toNat 64)) ∧
      (∀ u bs, src = 0 → strays (val 0).toNat 64 true = false → slicesTested s = [] → readVa s c.ctx (val 0).toNat 64 0 = (u, .ok bs) → writes u bs) ∧
      (∀ u k e, src = 0 → strays (val 0).toNat 64 true = false → slicesTested s = [] → readVa s c.ctx (val 0).toNat 64 0 = (u, .error (.fault k e)) →
        ((work 2 r).go s).1 = .error (.page k e))) ∧
    (c.instr = .mgo h → let n := latchNest s r
      (nestShapesOk s cc n = false → ((work 2 r).go s).1 = .error (.trap 0x08)) ∧
      (nestShapesOk s cc n = true → totalSteps n ≠ 0 → banksOk n = false → ((work 2 r).go s).1 = .error (.trap 0x07)) ∧
      (∀ ty sc cd, nestShapesOk s cc n = true → (totalSteps n ≠ 0 → banksOk n = true) → operandKind s cc n false = some (ty, sc, cd) →
        let t (lv : Bool) : State := modCore s cc fun y => { y with holder := some p, acc := if nbit n.word 22 then [] else y.acc, nest := some { n with ints := isInt ty, leave := lv } }
        (ty ≠ 5 ∨ nbit x.leave 0 = true → (work 2 r).go s = (.ok { r with state := .nest }, t false)) ∧
        (ty = 5 → nbit x.leave 0 = false → (work 2 r).go s = (.ok { r with state := .nest }, askLeave (t true) p 0 (some c.id))))) ∧
    (∀ (n : Fin 2) row (half : Fin 2), (∀ e, (core s cc).epi = some e → e.acc ≠ n) →
      (c.instr = .maccClr h n → does 2 (modCore s cc fun y => { y with holder := some p, acc := y.acc.filter fun k => k.1 / 128 != n }) 0) ∧
      (c.instr = .maccSave h n row half → row.toNat + 127 ≤ 511 → (core s cc).tile.Pairwise (fun a b => a.1 < b.1) → ∃ m, does 2 (modCore s cc fun y => { y with holder := some p, tile := m }) 0 ∧
        (∀ i, i < 128 → ringRead m (2 ^ 19) (1024 * (row.toNat + i) + 512 * half) 512 = ((List.range 128).map fun j => leBytes 4 ((fgetD (core s cc).acc (128 * n + i) []).getD j 0).toNat).flatten)) ∧
      (c.instr = .maccLoad h n row half → row.toNat + 127 ≤ 511 → ∃ m, does 2 (modCore s cc fun y => { y with holder := some p, acc := m }) 0 ∧
        (∀ i, i < 128 → fgetD m (128 * n + i) [] = (unpackBits 32 128 (leNat (ringRead (core s cc).tile (2 ^ 19) (1024 * (row.toNat + i) + 512 * half) 512))).map (BitVec.ofNat 32)) ∧
        ∀ k, k / 128 ≠ n → fgetD m k [] = fgetD (core s cc).acc k [])) ∧
    (∀ (n : Fin 2) e, c.instr = .maccClr h n → (core s cc).epi = some e → e.acc = n → ((work 2 r).go s).1 = .error .wait) ∧
    (∀ (n m : Fin 16) ty (send : Bool), c.instr = (if send then .mlqSend h a ka n m ty else .mlqRecv h a ka n m ty) → let l := fgetD (core s cc).links n {}
      let dev := nfld (val 0).toNat 48 16
      let pc := 48 * nfld (val 0).toNat 8 2 + nfld (val 0).toNat 2 6
      ∃ t k, does 2 t 0 ∧ fgetD (core t cc).links n {} = k ∧ k.bound = true ∧ k.failed = false ∧ k.send = send ∧ k.ty = ty.toNat ∧ k.peerDev = dev ∧ k.peerCore = pc ∧ k.peerQueue = m ∧ k.tiles = [] ∧
        k.offers = l.offers ∧ (k.paired = true ↔ (dev, pc, m.val, ty.toNat, !send) ∈ l.offers) ∧ k.credits = (if k.paired && send then 4 else 0) ∧
        t.packets.map (fun q => (q.dst, q.body)) = s.packets.map (fun q => (q.dst, q.body)) ++ [(dev, .bind pc m cc n ty.toNat send)] ∧
        (∀ i, i ≠ n.val → fgetD (core t cc).links i {} = fgetD (core s cc).links i {}) ∧ t.parts = s.parts ∧ t.mem = s.mem) ∧
    (∀ (n : Fin 16), c.instr = .mlqUnbind h n → ∃ t k, does 2 t 0 ∧ fgetD (core t cc).links n {} = k ∧ k.bound = false ∧ k.paired = false ∧ k.tiles = [] ∧ k.credits = 0 ∧
      k.offers = (fgetD (core s cc).links n {}).offers ∧ t.packets = s.packets)) ∧
  (∀ (h : Hdr) (a b : Reg) (ka kb : Bool), ∀ (s : State) (r : Run), r.cmd.ctx.view = 0 → r.formats = [] →
    let c := r.cmd
    let p := c.ctx.part
    let cc := coreOf p
    let x := part s p
    let val (i : Nat) : W64 := c.vals.getD i 0
    let read (a n : Nat) : List Byte := ringRead (core s cc).scratch (2 ^ 21) (a % 2 ^ 21) n
    let put (m : FMap Byte) (a : Nat) (bs : List Byte) : FMap Byte := ringWrite m (2 ^ 21) (a % 2 ^ 21) bs
    let wr (u : State) (a : Nat) (bs : List Byte) : State := modCore u cc fun y => { y with scratch := put y.scratch a bs }
    let does (k : Nat) (t : State) (n : Nat) : Prop := (work k r).go s = (.ok { r with state := .done, count := n }, t)
    let tab := tableOf (val 1).toNat
    (∀ ty mean bags (i : Instr), c.instr = i → i ∈ [.gpoolAuto h a b 1 1 ty mean bags, .gpoolDie h a b 1 1 ty mean bags, .gpoolFar h a b 1 1 ty mean bags] → let ob := tab.dim * tyWidth ty.toNat / 8
      (r.step = 0 → nbit x.leave 1 = true → (work 3 r).go s = (.ok { r with state := .waiting, step := 2 }, s)) ∧
      (r.step = 0 → nbit x.leave 1 = false → (work 3 r).go s = (.ok { r with state := .waiting, step := 1 }, askLeave s p 1 (some c.id))) ∧
      (r.step = 1 → r.tookLeave = false → ((work 3 r).go s).1 = .error .wait) ∧
      (2 ≤ r.step → bags.toNat ≤ r.step - 2 → does 3 s (bags.toNat * ob)) ∧
      (∀ u rows v acc, i = .gpoolFar h a b 1 1 ty mean bags → 2 ≤ r.step → r.step - 2 < bags.toNat →
        let off (k : Nat) : Nat := leNat (read (val 3 + w64 (4 * k)).toNat 4)
        (bagRows c.ctx 1 (val 2) (val 0) tab (off (r.step - 1) - off (r.step - 2)) (off (r.step - 2))).go s = (.ok rows, u) →
        (sumRows c false (val 0) tab (List.replicate tab.dim 0) rows).go u = (.ok acc, v) →
        (work 3 r).go s = (.ok { r with state := .waiting, step := r.step + 1 }, wr v (val 4 + w64 ((r.step - 2) * ob)).toNat
          (encodeRow ty.toNat (if mean = true ∧ rows ≠ [] then acc.map fun e => rneF 0 (divV (decodeF 0 e) (ofInt rows.length)) else acc))))) ∧
    (∀ (acc : List Nat), (sumRows c false (val 0) tab acc []).go s = (.ok acc, s) ∧
      (∀ i is u bs, (readCounted c false (val 0) tab i).go s = (.ok bs, u) → (sumRows c false (val 0) tab acc (i :: is)).go s = (sumRows c false (val 0) tab (acc.zipWith add32 (decodeRow tab bs)) is).go u)) ∧
    (∀ ty count (i : Instr) (first dst : Nat), c.instr = i → (i, first, dst) ∈ [(Instr.gdeq h a b 1 1 ty count, 0, 3), (.grank h a b 1 1 ty count, (val 3).toNat, 4)] → count.toNat = 1 →
      let ob := tab.dim * tyWidth ty.toNat / 8
      let id := leNat (read (val 2).toNat 4)
      let k := (w64 id - w64 first).toNat
      (id = 0xFFFFFFFF ∨ tab.rows ≤ k → does 3 (wr s (val dst).toNat (encodeRow ty.toNat (List.replicate tab.dim 0))) ob) ∧
      (∀ u bs, id ≠ 0xFFFFFFFF → k < tab.rows → (readCounted c false (val 0) tab k).go s = (.ok bs, u) →
        does 3 (wr u (val dst).toNat (encodeRow ty.toNat (decodeRow tab bs))) ob)) ∧
    (∀ dmax flt nq1 k1, c.instr = .gscan h a b 1 1 dmax flt nq1 k1 →
      (r.step = 0 → nbit x.leave 1 = true → (work 3 r).go s = (.ok { r with state := .waiting, step := 2 }, s)) ∧
      (∀ items u, 2 ≤ r.step → flt = false → nq1 = 0 → (scanItems c.ctx (val 0) (nfld (val 1).toNat 32 32) (nfld (val 1).toNat 0 32)).go s = (.ok items, u) →
        let m := (List.range 4).map fun g => scanMatches items g (leNat (ringRead (core u cc).scratch (2 ^ 21) ((val 2).toNat % 2 ^ 21) 32)) dmax.toNat
        let n := k1.toNat + 1
        let lists := m.map fun l => words32 ((l.take n).map (·.2) ++ List.replicate (n - (l.take n).length) 0xFFFFFFFF) ++ words32 ((l.take n).map (·.1) ++ List.replicate (n - (l.take n).length) 0xFFFF)
        does 3 (wr (wr u (val 4).toNat lists.flatten) (val 4 + w64 (32 * n)).toNat (words32 (m.map List.length))) (32 * n + 16))) ∧
    (∀ count (pin : Bool), c.instr = (if pin then .hrpin h a b count else .hrfree h a b count) → let f := (val 2).toNat
      (r.step = 0 → f + count.toNat ≤ tab.rows → tab.rs ≤ 512 → (work 3 r).go s = (.ok { r with state := .waiting, step := 1 }, s)) ∧
      (r.step = 0 → tab.rows < f + count.toNat ∨ 512 < tab.rs → ((work 3 r).go s).1 = .error (.trap 0x08)) ∧
      (∀ u pte pa, 0 < r.step → r.step ≤ count.toNat → (masterPlace (baseCtx c.ctx) (rowAt (val 0) tab (f + r.step - 1))).go s = (.ok (pte, pa), u) →
        pin = false ∨ isHot u (baseQuarter (val 0).toNat) pa tab.rs = true → (work 3 r).go s = (.ok (if r.step = count.toNat then { r with step := r.step + 1, state := .done, count := count.toNat * tab.rs }
          else { r with step := r.step + 1, state := .waiting }), if pin then pinRow u (baseQuarter (val 0).toNat) pa tab.rs else freeRow u (baseQuarter (val 0).toNat) pa tab.rs))) ∧
    (∀ gsp ty count (idx grads pb : List Byte), c.instr = .dupd h a b 1 gsp ty 0 count → c.held = [idx, grads, pb] → count.toNat = 1 → r.step = 0 → let i := leNat idx % 2 ^ 32
      let gb := tab.dim * tyWidth ty.toNat / 8
      let g := (List.replicate tab.dim 0).zipWith (fun a k => r32 (addV (f32 a) (decodeF ty.toNat k))) (unpackBits (tyWidth ty.toNat) tab.dim (leNat (grads.take gb)))
      i < tab.rows → i ≠ 0xFFFFFFFF → ∀ u v pa bs, (readRow c.ctx false (val 0) tab i).go s = (.ok (pa, bs), u) →
      (masterWrite (baseCtx c.ctx) (rowAt (val 0) tab i) (encodeRow tab.fmt ((decodeRow tab bs).zipWith (fun e k => r32 (addV (f32 e) (negV (mulV (f32 ((unpackBits 32 6 (leNat pb)).getD 0 0)) (f32 k))))) g)) c.id).go u = (.ok (), v) →
      does 4 v gb) ∧
    (∀ opt ps rows done, let q := baseQuarter (val 0).toNat
      let o := regNext 0 (nfld (val 3).toNat 32 6)
      let k := nfld (val 3).toNat 0 32
      let nx := mgetN s q o % 2 ^ 32
      nbit done 0 = false → (∀ e ∈ rows, e.1 ≠ 0) →
      (k = nx → (orderedParts c opt tab ps rows done 1).go s = (.ok (done + 1), mset s q o (w64 ((k + 1) % 2 ^ 32)))) ∧
      (k ≠ nx → (k + 2 ^ 32 - nx) % 2 ^ 32 < 2 ^ 31 → (orderedParts c opt tab ps rows done 1).go s = (.ok done, s)) ∧
      (k ≠ nx → 2 ^ 31 ≤ (k + 2 ^ 32 - nx) % 2 ^ 32 → (orderedParts c opt tab ps rows done 1).go s = (.ok (done + 1), mbump s q (regDdisc 0) 32))) ∧
    (∀ nb1 sft count, c.instr = .xall h a b kb 1 nb1 sft count → let nb := nb1.toNat + 1
      (∀ u rs, r.step = 0 → (routes c.ctx (val 1) nb).go s = (.ok rs, u) → let ids := (unpackBits 32 count.toNat (leNat (read (val 0).toNat (4 * count.toNat)))).filter (· != 0xFFFFFFFF)
        (∀ k, routesOk u rs = some k → ((work 5 r).go s).1 = .error (.trap k)) ∧
        (∀ v, routesOk u rs = none → (sendBuckets c (rs.zipIdx.map fun e => (e.1, ids.filter fun i => i / 2 ^ sft.toNat % nb == e.2))).go u = (.ok (), v) →
          (work 5 r).go s = (.ok { r with state := .waiting, step := 1, count := 8 * nb + 4 * ids.length }, v))) ∧
      (r.step ≠ 0 → (core s cc).epiAdds = [] → ∃ t, does 5 t r.count ∧ t.parts = s.parts ∧ t.mem = s.mem)) ∧
    (∀ tiles ty, c.instr = .wload h a b ka kb tiles ty 0 → let size := recordSize 0 ty.toNat
      ((core s cc).weights ≠ [] → (core s cc).weightType ≠ some ty.toNat → ((work 5 r).go s).1 = .error .wait) ∧
      ((core s cc).weights = [] ∨ (core s cc).weightType = some ty.toNat →
        (r.step = 0 → (work 5 r).go s = (.ok { r with state := .waiting, step := 1 }, modCore s cc fun y => { y with weightType := some ty.toNat })) ∧
        (tiles.toNat < r.step → does 5 s (tiles.toNat * size)) ∧
        (0 < r.step → r.step ≤ tiles.toNat → 8 ≤ (core s cc).weights.length → ((work 5 r).go s).1 = .error .wait) ∧
        (∀ u bs, 0 < r.step → r.step ≤ tiles.toNat → (core s cc).weights.length < 8 → (weightSectors c.ctx (val 0 + w64 ((r.step - 1) * size)).toNat (size / 32)).go s = (.ok bs, u) →
          (work 5 r).go s = (.ok (if r.step = tiles.toNat then { r with step := r.step + 1, state := .done, count := tiles.toNat * size } else { r with step := r.step + 1, state := .waiting }),
            modCore u cc fun y => { y with weightType := some ty.toNat, weights := y.weights ++ [plainTile ty.toNat bs] })))) ∧
    (∀ ty n1 first, c.instr = .wtbl h a b ka kb 1 ty n1 first → let n := n1.toNat + 1
      let e := tyWidth ty.toNat
      let bs := read (val 0).toNat (2 * n * e)
      ∃ tb tt, does 5 (modCore s cc fun y => { y with tables := tb, tableTypes := tt }) (2 * n * e) ∧
        (∀ j, j < n → fgetD tt (first.toNat + j) 1 = ty.toNat ∧ ∀ k, k < 16 → fgetD (fgetD tb (first.toNat + j) []) k 0 = (unpackBits e 16 (leNat ((bs.drop (2 * j * e)).take (2 * e)))).getD k 0) ∧
        ∀ k, k < first.toNat ∨ first.toNat + n ≤ k → fgetD tb k [] = fgetD (core s cc).tables k [] ∧ fgetD tt k 1 = fgetD (core s cc).tableTypes k 1)) ∧
  (∀ (t : TableWord) (gty : Nat) (is : List Nat) (gs : List (List Nat)), let d := coalesce t gty is gs []
    (d.map (·.1)).Nodup ∧ (is.length ≤ gs.length → ∀ i, i ∈ d.map (·.1) ↔ i ∈ is ∧ i ≠ 0xFFFFFFFF ∧ i < t.rows)) ∧
  (∀ (items : List (Nat × Nat × Nat)) (g query dmax : Nat), let l := scanMatches items g query dmax
    (∀ m, m ∈ l ↔ ∃ y ∈ items, y.1 = g ∧ popBits 256 (Nat.xor y.2.2 query) ≤ dmax ∧ m = (popBits 256 (Nat.xor y.2.2 query), y.2.1)) ∧
    l.Pairwise fun m k => m.1 < k.1 ∨ m.1 = k.1 ∧ m.2 ≤ k.2)
end

