-- ==== Sys2Proof/Laws/State.lean ====
section
/-! SUPPORT. What the named updates of the state change, field by field, and what reads of a sparse array give after a write. -/

namespace Sys2Proof.Machine.Laws

variable {α : Type}

/-! ## Sparse arrays -/

@[simp] theorem fget_fput_same (m : FMap α) (k : Nat) (v : α) : fget (fput m k v) k = some v := by
  induction m with
  | nil => simp [fput, fget]
  | cons a r ih =>
    obtain ⟨k', v'⟩ := a
    simp only [fput]
    split
    · simp [fget]
    · split
      · simp [fget]
      · simp [fget, *]

theorem fget_fput_other (m : FMap α) {j k : Nat} (v : α) (h : j ≠ k) : fget (fput m k v) j = fget m j := by
  induction m with
  | nil => simp [fput, fget, h]
  | cons a r ih =>
    obtain ⟨k', v'⟩ := a
    simp only [fput]
    split
    · simp [fget, h]
    · split
      · subst k'; simp [fget, h]
      · simp [fget, ih]

theorem fget_fput (m : FMap α) (j k : Nat) (v : α) : fget (fput m k v) j = if j = k then some v else fget m j := by
  split
  · subst j; simp
  · rename_i h; exact fget_fput_other m v h

@[simp] theorem fgetD_fput_same (m : FMap α) (k : Nat) (v d : α) : fgetD (fput m k v) k d = v := by simp [fgetD]

theorem fgetD_fput_other (m : FMap α) {j k : Nat} (v d : α) (h : j ≠ k) : fgetD (fput m k v) j d = fgetD m j d := by
  simp [fgetD, fget_fput_other m v h]

@[simp] theorem fput_fput (m : FMap α) (k : Nat) (v w : α) : fput (fput m k v) k w = fput m k w := by
  induction m with
  | nil => simp [fput]
  | cons a r ih =>
    obtain ⟨k', v'⟩ := a
    simp only [fput]
    split
    · simp [fput]
    · split
      · simp [fput]
      · simp [fput, *]

/-! ## Partitions, cores and quarters -/

@[simp] theorem part_setPart (s : State) (p : Nat) (x : Part) : part (setPart s p x) p = x := by simp [part, setPart]

theorem part_setPart_other (s : State) {p q : Nat} (x : Part) (h : q ≠ p) : part (setPart s p x) q = part s q := by
  simp [part, setPart, fgetD_fput_other, h]

@[simp] theorem setPart_setPart (s : State) (p : Nat) (x y : Part) : setPart (setPart s p x) p y = setPart s p y := by simp [setPart]

@[simp] theorem core_setPart (s : State) (p c : Nat) (x : Part) : core (setPart s p x) c = core s c := rfl

@[simp] theorem quarter_setPart (s : State) (p q : Nat) (x : Part) : quarter (setPart s p x) q = quarter s q := rfl

@[simp] theorem part_setCore (s : State) (c p : Nat) (x : Core) : part (setCore s c x) p = part s p := rfl

@[simp] theorem core_setCore (s : State) (c : Nat) (x : Core) : core (setCore s c x) c = x := by simp [core, setCore]

theorem core_setCore_other (s : State) {c d : Nat} (x : Core) (h : d ≠ c) : core (setCore s c x) d = core s d := by
  simp [core, setCore, fgetD_fput_other, h]

@[simp] theorem setCore_setCore (s : State) (c : Nat) (x y : Core) : setCore (setCore s c x) c y = setCore s c y := by simp [setCore]

@[simp] theorem quarter_setCore (s : State) (c q : Nat) (x : Core) : quarter (setCore s c x) q = quarter s q := rfl

@[simp] theorem part_modQuarter (s : State) (q p : Nat) (f : Quarter → Quarter) : part (modQuarter s q f) p = part s p := rfl

@[simp] theorem core_modQuarter (s : State) (q c : Nat) (f : Quarter → Quarter) : core (modQuarter s q f) c = core s c := rfl

@[simp] theorem quarter_modQuarter (s : State) (q : Nat) (f : Quarter → Quarter) : quarter (modQuarter s q f) q = f (quarter s q) := by
  simp [quarter, modQuarter]

@[simp] theorem part_modPart (s : State) (p : Nat) (f : Part → Part) : part (modPart s p f) p = f (part s p) := by simp [modPart]

theorem part_modPart_other (s : State) {p q : Nat} (f : Part → Part) (h : q ≠ p) : part (modPart s p f) q = part s q := by
  simp [modPart, part_setPart_other, h]

@[simp] theorem core_modCore (s : State) (c : Nat) (f : Core → Core) : core (modCore s c f) c = f (core s c) := by simp [modCore]

theorem core_modCore_other (s : State) {c d : Nat} (f : Core → Core) (h : d ≠ c) : core (modCore s c f) d = core s d := by
  simp [modCore, core_setCore_other, h]

@[simp] theorem core_modPart (s : State) (p c : Nat) (f : Part → Part) : core (modPart s p f) c = core s c := rfl

@[simp] theorem quarter_modPart (s : State) (p q : Nat) (f : Part → Part) : quarter (modPart s p f) q = quarter s q := rfl

@[simp] theorem part_modCore (s : State) (c p : Nat) (f : Core → Core) : part (modCore s c f) p = part s p := rfl

@[simp] theorem quarter_modCore (s : State) (c q : Nat) (f : Core → Core) : quarter (modCore s c f) q = quarter s q := rfl

/-! ## The fields that `setPart` leaves -/

@[simp] theorem setPart_agenda (s : State) (p : Nat) (x : Part) : (setPart s p x).agenda = s.agenda := rfl
@[simp] theorem setPart_cur (s : State) (p : Nat) (x : Part) : (setPart s p x).cur = s.cur := rfl
@[simp] theorem setPart_curWord (s : State) (p : Nat) (x : Part) : (setPart s p x).curWord = s.curWord := rfl
@[simp] theorem setPart_nextSeq (s : State) (p : Nat) (x : Part) : (setPart s p x).nextSeq = s.nextSeq := rfl
@[simp] theorem setPart_time (s : State) (p : Nat) (x : Part) : (setPart s p x).time = s.time := rfl
@[simp] theorem setPart_cores (s : State) (p : Nat) (x : Part) : (setPart s p x).cores = s.cores := rfl
@[simp] theorem setPart_quarters (s : State) (p : Nat) (x : Part) : (setPart s p x).quarters = s.quarters := rfl
@[simp] theorem setPart_mem (s : State) (p : Nat) (x : Part) : (setPart s p x).mem = s.mem := rfl
@[simp] theorem setPart_die (s : State) (p : Nat) (x : Part) : (setPart s p x).die = s.die := rfl
@[simp] theorem setPart_failing (s : State) (p : Nat) (x : Part) : (setPart s p x).failing = s.failing := rfl
@[simp] theorem setPart_views (s : State) (p : Nat) (x : Part) : (setPart s p x).views = s.views := rfl
@[simp] theorem setPart_forks (s : State) (p : Nat) (x : Part) : (setPart s p x).forks = s.forks := rfl
@[simp] theorem setPart_monitors (s : State) (p : Nat) (x : Part) : (setPart s p x).monitors = s.monitors := rfl
@[simp] theorem setPart_faults (s : State) (p : Nat) (x : Part) : (setPart s p x).faults = s.faults := rfl
@[simp] theorem setPart_faultsWaiting (s : State) (p : Nat) (x : Part) : (setPart s p x).faultsWaiting = s.faultsWaiting := rfl
@[simp] theorem setPart_errors (s : State) (p : Nat) (x : Part) : (setPart s p x).errors = s.errors := rfl
@[simp] theorem setPart_errSeq (s : State) (p : Nat) (x : Part) : (setPart s p x).errSeq = s.errSeq := rfl
@[simp] theorem setPart_errLost (s : State) (p : Nat) (x : Part) : (setPart s p x).errLost = s.errLost := rfl
@[simp] theorem setPart_notifyDue (s : State) (p : Nat) (x : Part) : (setPart s p x).notifyDue = s.notifyDue := rfl
@[simp] theorem setPart_mgmt (s : State) (p : Nat) (x : Part) : (setPart s p x).mgmt = s.mgmt := rfl
@[simp] theorem setPart_retries (s : State) (p : Nat) (x : Part) : (setPart s p x).retries = s.retries := rfl
@[simp] theorem setPart_invalBusy (s : State) (p : Nat) (x : Part) : (setPart s p x).invalBusy = s.invalBusy := rfl
@[simp] theorem setPart_migrating (s : State) (p : Nat) (x : Part) : (setPart s p x).migrating = s.migrating := rfl
@[simp] theorem setPart_opBusy (s : State) (p : Nat) (x : Part) : (setPart s p x).opBusy = s.opBusy := rfl
@[simp] theorem setPart_rowCounts (s : State) (p : Nat) (x : Part) : (setPart s p x).rowCounts = s.rowCounts := rfl
@[simp] theorem setPart_modeSet (s : State) (p : Nat) (x : Part) : (setPart s p x).modeSet = s.modeSet := rfl
@[simp] theorem setPart_profile (s : State) (p : Nat) (x : Part) : (setPart s p x).profile = s.profile := rfl
@[simp] theorem setPart_ordered (s : State) (p : Nat) (x : Part) : (setPart s p x).ordered = s.ordered := rfl
@[simp] theorem setPart_capture (s : State) (p : Nat) (x : Part) : (setPart s p x).capture = s.capture := rfl
@[simp] theorem setPart_packets (s : State) (p : Nat) (x : Part) : (setPart s p x).packets = s.packets := rfl
@[simp] theorem setPart_wire (s : State) (p : Nat) (x : Part) : (setPart s p x).wire = s.wire := rfl
@[simp] theorem setPart_awaits (s : State) (p : Nat) (x : Part) : (setPart s p x).awaits = s.awaits := rfl
@[simp] theorem setPart_tags (s : State) (p : Nat) (x : Part) : (setPart s p x).tags = s.tags := rfl
@[simp] theorem setPart_sentNo (s : State) (p : Nat) (x : Part) : (setPart s p x).sentNo = s.sentNo := rfl
@[simp] theorem setPart_arrivedNo (s : State) (p : Nat) (x : Part) : (setPart s p x).arrivedNo = s.arrivedNo := rfl
@[simp] theorem setPart_castDone (s : State) (p : Nat) (x : Part) : (setPart s p x).castDone = s.castDone := rfl
@[simp] theorem setPart_hostOut (s : State) (p : Nat) (x : Part) : (setPart s p x).hostOut = s.hostOut := rfl
@[simp] theorem setPart_hostAnswers (s : State) (p : Nat) (x : Part) : (setPart s p x).hostAnswers = s.hostAnswers := rfl
@[simp] theorem setPart_ethOut (s : State) (p : Nat) (x : Part) : (setPart s p x).ethOut = s.ethOut := rfl
@[simp] theorem setPart_ready (s : State) (p : Nat) (x : Part) : (setPart s p x).ready = s.ready := rfl
@[simp] theorem setPart_bootStage (s : State) (p : Nat) (x : Part) : (setPart s p x).bootStage = s.bootStage := rfl
@[simp] theorem setPart_resets (s : State) (p : Nat) (x : Part) : (setPart s p x).resets = s.resets := rfl
@[simp] theorem setPart_kept (s : State) (p : Nat) (x : Part) : (setPart s p x).kept = s.kept := rfl
@[simp] theorem setPart_atHomes (s : State) (p : Nat) (x : Part) : (setPart s p x).atHomes = s.atHomes := rfl
@[simp] theorem setPart_bootCode (s : State) (p : Nat) (x : Part) : (setPart s p x).bootCode = s.bootCode := rfl
@[simp] theorem setPart_measure (s : State) (p : Nat) (x : Part) : (setPart s p x).measure = s.measure := rfl
@[simp] theorem setPart_reportBusy (s : State) (p : Nat) (x : Part) : (setPart s p x).reportBusy = s.reportBusy := rfl

/-! ## The fields that `setCore` leaves -/

@[simp] theorem setCore_agenda (s : State) (c : Nat) (x : Core) : (setCore s c x).agenda = s.agenda := rfl
@[simp] theorem setCore_cur (s : State) (c : Nat) (x : Core) : (setCore s c x).cur = s.cur := rfl
@[simp] theorem setCore_curWord (s : State) (c : Nat) (x : Core) : (setCore s c x).curWord = s.curWord := rfl
@[simp] theorem setCore_nextSeq (s : State) (c : Nat) (x : Core) : (setCore s c x).nextSeq = s.nextSeq := rfl
@[simp] theorem setCore_time (s : State) (c : Nat) (x : Core) : (setCore s c x).time = s.time := rfl
@[simp] theorem setCore_parts (s : State) (c : Nat) (x : Core) : (setCore s c x).parts = s.parts := rfl
@[simp] theorem setCore_quarters (s : State) (c : Nat) (x : Core) : (setCore s c x).quarters = s.quarters := rfl
@[simp] theorem setCore_mem (s : State) (c : Nat) (x : Core) : (setCore s c x).mem = s.mem := rfl
@[simp] theorem setCore_die (s : State) (c : Nat) (x : Core) : (setCore s c x).die = s.die := rfl
@[simp] theorem setCore_failing (s : State) (c : Nat) (x : Core) : (setCore s c x).failing = s.failing := rfl
@[simp] theorem setCore_views (s : State) (c : Nat) (x : Core) : (setCore s c x).views = s.views := rfl
@[simp] theorem setCore_forks (s : State) (c : Nat) (x : Core) : (setCore s c x).forks = s.forks := rfl
@[simp] theorem setCore_monitors (s : State) (c : Nat) (x : Core) : (setCore s c x).monitors = s.monitors := rfl
@[simp] theorem setCore_faults (s : State) (c : Nat) (x : Core) : (setCore s c x).faults = s.faults := rfl
@[simp] theorem setCore_faultsWaiting (s : State) (c : Nat) (x : Core) : (setCore s c x).faultsWaiting = s.faultsWaiting := rfl
@[simp] theorem setCore_errors (s : State) (c : Nat) (x : Core) : (setCore s c x).errors = s.errors := rfl
@[simp] theorem setCore_errSeq (s : State) (c : Nat) (x : Core) : (setCore s c x).errSeq = s.errSeq := rfl
@[simp] theorem setCore_errLost (s : State) (c : Nat) (x : Core) : (setCore s c x).errLost = s.errLost := rfl
@[simp] theorem setCore_notifyDue (s : State) (c : Nat) (x : Core) : (setCore s c x).notifyDue = s.notifyDue := rfl
@[simp] theorem setCore_mgmt (s : State) (c : Nat) (x : Core) : (setCore s c x).mgmt = s.mgmt := rfl
@[simp] theorem setCore_retries (s : State) (c : Nat) (x : Core) : (setCore s c x).retries = s.retries := rfl
@[simp] theorem setCore_invalBusy (s : State) (c : Nat) (x : Core) : (setCore s c x).invalBusy = s.invalBusy := rfl
@[simp] theorem setCore_migrating (s : State) (c : Nat) (x : Core) : (setCore s c x).migrating = s.migrating := rfl
@[simp] theorem setCore_opBusy (s : State) (c : Nat) (x : Core) : (setCore s c x).opBusy = s.opBusy := rfl
@[simp] theorem setCore_rowCounts (s : State) (c : Nat) (x : Core) : (setCore s c x).rowCounts = s.rowCounts := rfl
@[simp] theorem setCore_modeSet (s : State) (c : Nat) (x : Core) : (setCore s c x).modeSet = s.modeSet := rfl
@[simp] theorem setCore_profile (s : State) (c : Nat) (x : Core) : (setCore s c x).profile = s.profile := rfl
@[simp] theorem setCore_ordered (s : State) (c : Nat) (x : Core) : (setCore s c x).ordered = s.ordered := rfl
@[simp] theorem setCore_capture (s : State) (c : Nat) (x : Core) : (setCore s c x).capture = s.capture := rfl
@[simp] theorem setCore_packets (s : State) (c : Nat) (x : Core) : (setCore s c x).packets = s.packets := rfl
@[simp] theorem setCore_wire (s : State) (c : Nat) (x : Core) : (setCore s c x).wire = s.wire := rfl
@[simp] theorem setCore_awaits (s : State) (c : Nat) (x : Core) : (setCore s c x).awaits = s.awaits := rfl
@[simp] theorem setCore_tags (s : State) (c : Nat) (x : Core) : (setCore s c x).tags = s.tags := rfl
@[simp] theorem setCore_sentNo (s : State) (c : Nat) (x : Core) : (setCore s c x).sentNo = s.sentNo := rfl
@[simp] theorem setCore_arrivedNo (s : State) (c : Nat) (x : Core) : (setCore s c x).arrivedNo = s.arrivedNo := rfl
@[simp] theorem setCore_castDone (s : State) (c : Nat) (x : Core) : (setCore s c x).castDone = s.castDone := rfl
@[simp] theorem setCore_hostOut (s : State) (c : Nat) (x : Core) : (setCore s c x).hostOut = s.hostOut := rfl
@[simp] theorem setCore_hostAnswers (s : State) (c : Nat) (x : Core) : (setCore s c x).hostAnswers = s.hostAnswers := rfl
@[simp] theorem setCore_ethOut (s : State) (c : Nat) (x : Core) : (setCore s c x).ethOut = s.ethOut := rfl
@[simp] theorem setCore_ready (s : State) (c : Nat) (x : Core) : (setCore s c x).ready = s.ready := rfl
@[simp] theorem setCore_bootStage (s : State) (c : Nat) (x : Core) : (setCore s c x).bootStage = s.bootStage := rfl
@[simp] theorem setCore_resets (s : State) (c : Nat) (x : Core) : (setCore s c x).resets = s.resets := rfl
@[simp] theorem setCore_kept (s : State) (c : Nat) (x : Core) : (setCore s c x).kept = s.kept := rfl
@[simp] theorem setCore_atHomes (s : State) (c : Nat) (x : Core) : (setCore s c x).atHomes = s.atHomes := rfl
@[simp] theorem setCore_bootCode (s : State) (c : Nat) (x : Core) : (setCore s c x).bootCode = s.bootCode := rfl
@[simp] theorem setCore_measure (s : State) (c : Nat) (x : Core) : (setCore s c x).measure = s.measure := rfl
@[simp] theorem setCore_reportBusy (s : State) (c : Nat) (x : Core) : (setCore s c x).reportBusy = s.reportBusy := rfl

/-! ## The fields that `modPart` leaves -/

@[simp] theorem modPart_agenda (s : State) (p : Nat) (f : Part → Part) : (modPart s p f).agenda = s.agenda := rfl
@[simp] theorem modPart_cur (s : State) (p : Nat) (f : Part → Part) : (modPart s p f).cur = s.cur := rfl
@[simp] theorem modPart_curWord (s : State) (p : Nat) (f : Part → Part) : (modPart s p f).curWord = s.curWord := rfl
@[simp] theorem modPart_nextSeq (s : State) (p : Nat) (f : Part → Part) : (modPart s p f).nextSeq = s.nextSeq := rfl
@[simp] theorem modPart_time (s : State) (p : Nat) (f : Part → Part) : (modPart s p f).time = s.time := rfl
@[simp] theorem modPart_cores (s : State) (p : Nat) (f : Part → Part) : (modPart s p f).cores = s.cores := rfl
@[simp] theorem modPart_quarters (s : State) (p : Nat) (f : Part → Part) : (modPart s p f).quarters = s.quarters := rfl
@[simp] theorem modPart_mem (s : State) (p : Nat) (f : Part → Part) : (modPart s p f).mem = s.mem := rfl
@[simp] theorem modPart_die (s : State) (p : Nat) (f : Part → Part) : (modPart s p f).die = s.die := rfl
@[simp] theorem modPart_failing (s : State) (p : Nat) (f : Part → Part) : (modPart s p f).failing = s.failing := rfl
@[simp] theorem modPart_views (s : State) (p : Nat) (f : Part → Part) : (modPart s p f).views = s.views := rfl
@[simp] theorem modPart_forks (s : State) (p : Nat) (f : Part → Part) : (modPart s p f).forks = s.forks := rfl
@[simp] theorem modPart_monitors (s : State) (p : Nat) (f : Part → Part) : (modPart s p f).monitors = s.monitors := rfl
@[simp] theorem modPart_faults (s : State) (p : Nat) (f : Part → Part) : (modPart s p f).faults = s.faults := rfl
@[simp] theorem modPart_faultsWaiting (s : State) (p : Nat) (f : Part → Part) : (modPart s p f).faultsWaiting = s.faultsWaiting := rfl
@[simp] theorem modPart_errors (s : State) (p : Nat) (f : Part → Part) : (modPart s p f).errors = s.errors := rfl
@[simp] theorem modPart_errSeq (s : State) (p : Nat) (f : Part → Part) : (modPart s p f).errSeq = s.errSeq := rfl
@[simp] theorem modPart_errLost (s : State) (p : Nat) (f : Part → Part) : (modPart s p f).errLost = s.errLost := rfl
@[simp] theorem modPart_notifyDue (s : State) (p : Nat) (f : Part → Part) : (modPart s p f).notifyDue = s.notifyDue := rfl
@[simp] theorem modPart_mgmt (s : State) (p : Nat) (f : Part → Part) : (modPart s p f).mgmt = s.mgmt := rfl
@[simp] theorem modPart_retries (s : State) (p : Nat) (f : Part → Part) : (modPart s p f).retries = s.retries := rfl
@[simp] theorem modPart_invalBusy (s : State) (p : Nat) (f : Part → Part) : (modPart s p f).invalBusy = s.invalBusy := rfl
@[simp] theorem modPart_migrating (s : State) (p : Nat) (f : Part → Part) : (modPart s p f).migrating = s.migrating := rfl
@[simp] theorem modPart_opBusy (s : State) (p : Nat) (f : Part → Part) : (modPart s p f).opBusy = s.opBusy := rfl
@[simp] theorem modPart_rowCounts (s : State) (p : Nat) (f : Part → Part) : (modPart s p f).rowCounts = s.rowCounts := rfl
@[simp] theorem modPart_modeSet (s : State) (p : Nat) (f : Part → Part) : (modPart s p f).modeSet = s.modeSet := rfl
@[simp] theorem modPart_profile (s : State) (p : Nat) (f : Part → Part) : (modPart s p f).profile = s.profile := rfl
@[simp] theorem modPart_ordered (s : State) (p : Nat) (f : Part → Part) : (modPart s p f).ordered = s.ordered := rfl
@[simp] theorem modPart_capture (s : State) (p : Nat) (f : Part → Part) : (modPart s p f).capture = s.capture := rfl
@[simp] theorem modPart_packets (s : State) (p : Nat) (f : Part → Part) : (modPart s p f).packets = s.packets := rfl
@[simp] theorem modPart_wire (s : State) (p : Nat) (f : Part → Part) : (modPart s p f).wire = s.wire := rfl
@[simp] theorem modPart_awaits (s : State) (p : Nat) (f : Part → Part) : (modPart s p f).awaits = s.awaits := rfl
@[simp] theorem modPart_tags (s : State) (p : Nat) (f : Part → Part) : (modPart s p f).tags = s.tags := rfl
@[simp] theorem modPart_sentNo (s : State) (p : Nat) (f : Part → Part) : (modPart s p f).sentNo = s.sentNo := rfl
@[simp] theorem modPart_arrivedNo (s : State) (p : Nat) (f : Part → Part) : (modPart s p f).arrivedNo = s.arrivedNo := rfl
@[simp] theorem modPart_castDone (s : State) (p : Nat) (f : Part → Part) : (modPart s p f).castDone = s.castDone := rfl
@[simp] theorem modPart_hostOut (s : State) (p : Nat) (f : Part → Part) : (modPart s p f).hostOut = s.hostOut := rfl
@[simp] theorem modPart_hostAnswers (s : State) (p : Nat) (f : Part → Part) : (modPart s p f).hostAnswers = s.hostAnswers := rfl
@[simp] theorem modPart_ethOut (s : State) (p : Nat) (f : Part → Part) : (modPart s p f).ethOut = s.ethOut := rfl
@[simp] theorem modPart_ready (s : State) (p : Nat) (f : Part → Part) : (modPart s p f).ready = s.ready := rfl
@[simp] theorem modPart_bootStage (s : State) (p : Nat) (f : Part → Part) : (modPart s p f).bootStage = s.bootStage := rfl
@[simp] theorem modPart_resets (s : State) (p : Nat) (f : Part → Part) : (modPart s p f).resets = s.resets := rfl
@[simp] theorem modPart_kept (s : State) (p : Nat) (f : Part → Part) : (modPart s p f).kept = s.kept := rfl
@[simp] theorem modPart_atHomes (s : State) (p : Nat) (f : Part → Part) : (modPart s p f).atHomes = s.atHomes := rfl
@[simp] theorem modPart_bootCode (s : State) (p : Nat) (f : Part → Part) : (modPart s p f).bootCode = s.bootCode := rfl
@[simp] theorem modPart_measure (s : State) (p : Nat) (f : Part → Part) : (modPart s p f).measure = s.measure := rfl
@[simp] theorem modPart_reportBusy (s : State) (p : Nat) (f : Part → Part) : (modPart s p f).reportBusy = s.reportBusy := rfl

/-! ## The fields that `modCore` leaves -/

@[simp] theorem modCore_agenda (s : State) (c : Nat) (f : Core → Core) : (modCore s c f).agenda = s.agenda := rfl
@[simp] theorem modCore_cur (s : State) (c : Nat) (f : Core → Core) : (modCore s c f).cur = s.cur := rfl
@[simp] theorem modCore_curWord (s : State) (c : Nat) (f : Core → Core) : (modCore s c f).curWord = s.curWord := rfl
@[simp] theorem modCore_nextSeq (s : State) (c : Nat) (f : Core → Core) : (modCore s c f).nextSeq = s.nextSeq := rfl
@[simp] theorem modCore_time (s : State) (c : Nat) (f : Core → Core) : (modCore s c f).time = s.time := rfl
@[simp] theorem modCore_parts (s : State) (c : Nat) (f : Core → Core) : (modCore s c f).parts = s.parts := rfl
@[simp] theorem modCore_quarters (s : State) (c : Nat) (f : Core → Core) : (modCore s c f).quarters = s.quarters := rfl
@[simp] theorem modCore_mem (s : State) (c : Nat) (f : Core → Core) : (modCore s c f).mem = s.mem := rfl
@[simp] theorem modCore_die (s : State) (c : Nat) (f : Core → Core) : (modCore s c f).die = s.die := rfl
@[simp] theorem modCore_failing (s : State) (c : Nat) (f : Core → Core) : (modCore s c f).failing = s.failing := rfl
@[simp] theorem modCore_views (s : State) (c : Nat) (f : Core → Core) : (modCore s c f).views = s.views := rfl
@[simp] theorem modCore_forks (s : State) (c : Nat) (f : Core → Core) : (modCore s c f).forks = s.forks := rfl
@[simp] theorem modCore_monitors (s : State) (c : Nat) (f : Core → Core) : (modCore s c f).monitors = s.monitors := rfl
@[simp] theorem modCore_faults (s : State) (c : Nat) (f : Core → Core) : (modCore s c f).faults = s.faults := rfl
@[simp] theorem modCore_faultsWaiting (s : State) (c : Nat) (f : Core → Core) : (modCore s c f).faultsWaiting = s.faultsWaiting := rfl
@[simp] theorem modCore_errors (s : State) (c : Nat) (f : Core → Core) : (modCore s c f).errors = s.errors := rfl
@[simp] theorem modCore_errSeq (s : State) (c : Nat) (f : Core → Core) : (modCore s c f).errSeq = s.errSeq := rfl
@[simp] theorem modCore_errLost (s : State) (c : Nat) (f : Core → Core) : (modCore s c f).errLost = s.errLost := rfl
@[simp] theorem modCore_notifyDue (s : State) (c : Nat) (f : Core → Core) : (modCore s c f).notifyDue = s.notifyDue := rfl
@[simp] theorem modCore_mgmt (s : State) (c : Nat) (f : Core → Core) : (modCore s c f).mgmt = s.mgmt := rfl
@[simp] theorem modCore_retries (s : State) (c : Nat) (f : Core → Core) : (modCore s c f).retries = s.retries := rfl
@[simp] theorem modCore_invalBusy (s : State) (c : Nat) (f : Core → Core) : (modCore s c f).invalBusy = s.invalBusy := rfl
@[simp] theorem modCore_migrating (s : State) (c : Nat) (f : Core → Core) : (modCore s c f).migrating = s.migrating := rfl
@[simp] theorem modCore_opBusy (s : State) (c : Nat) (f : Core → Core) : (modCore s c f).opBusy = s.opBusy := rfl
@[simp] theorem modCore_rowCounts (s : State) (c : Nat) (f : Core → Core) : (modCore s c f).rowCounts = s.rowCounts := rfl
@[simp] theorem modCore_modeSet (s : State) (c : Nat) (f : Core → Core) : (modCore s c f).modeSet = s.modeSet := rfl
@[simp] theorem modCore_profile (s : State) (c : Nat) (f : Core → Core) : (modCore s c f).profile = s.profile := rfl
@[simp] theorem modCore_ordered (s : State) (c : Nat) (f : Core → Core) : (modCore s c f).ordered = s.ordered := rfl
@[simp] theorem modCore_capture (s : State) (c : Nat) (f : Core → Core) : (modCore s c f).capture = s.capture := rfl
@[simp] theorem modCore_packets (s : State) (c : Nat) (f : Core → Core) : (modCore s c f).packets = s.packets := rfl
@[simp] theorem modCore_wire (s : State) (c : Nat) (f : Core → Core) : (modCore s c f).wire = s.wire := rfl
@[simp] theorem modCore_awaits (s : State) (c : Nat) (f : Core → Core) : (modCore s c f).awaits = s.awaits := rfl
@[simp] theorem modCore_tags (s : State) (c : Nat) (f : Core → Core) : (modCore s c f).tags = s.tags := rfl
@[simp] theorem modCore_sentNo (s : State) (c : Nat) (f : Core → Core) : (modCore s c f).sentNo = s.sentNo := rfl
@[simp] theorem modCore_arrivedNo (s : State) (c : Nat) (f : Core → Core) : (modCore s c f).arrivedNo = s.arrivedNo := rfl
@[simp] theorem modCore_castDone (s : State) (c : Nat) (f : Core → Core) : (modCore s c f).castDone = s.castDone := rfl
@[simp] theorem modCore_hostOut (s : State) (c : Nat) (f : Core → Core) : (modCore s c f).hostOut = s.hostOut := rfl
@[simp] theorem modCore_hostAnswers (s : State) (c : Nat) (f : Core → Core) : (modCore s c f).hostAnswers = s.hostAnswers := rfl
@[simp] theorem modCore_ethOut (s : State) (c : Nat) (f : Core → Core) : (modCore s c f).ethOut = s.ethOut := rfl
@[simp] theorem modCore_ready (s : State) (c : Nat) (f : Core → Core) : (modCore s c f).ready = s.ready := rfl
@[simp] theorem modCore_bootStage (s : State) (c : Nat) (f : Core → Core) : (modCore s c f).bootStage = s.bootStage := rfl
@[simp] theorem modCore_resets (s : State) (c : Nat) (f : Core → Core) : (modCore s c f).resets = s.resets := rfl
@[simp] theorem modCore_kept (s : State) (c : Nat) (f : Core → Core) : (modCore s c f).kept = s.kept := rfl
@[simp] theorem modCore_atHomes (s : State) (c : Nat) (f : Core → Core) : (modCore s c f).atHomes = s.atHomes := rfl
@[simp] theorem modCore_bootCode (s : State) (c : Nat) (f : Core → Core) : (modCore s c f).bootCode = s.bootCode := rfl
@[simp] theorem modCore_measure (s : State) (c : Nat) (f : Core → Core) : (modCore s c f).measure = s.measure := rfl
@[simp] theorem modCore_reportBusy (s : State) (c : Nat) (f : Core → Core) : (modCore s c f).reportBusy = s.reportBusy := rfl

/-! ## The fields that `modQuarter` leaves -/

@[simp] theorem modQuarter_agenda (s : State) (q : Nat) (f : Quarter → Quarter) : (modQuarter s q f).agenda = s.agenda := rfl
@[simp] theorem modQuarter_cur (s : State) (q : Nat) (f : Quarter → Quarter) : (modQuarter s q f).cur = s.cur := rfl
@[simp] theorem modQuarter_curWord (s : State) (q : Nat) (f : Quarter → Quarter) : (modQuarter s q f).curWord = s.curWord := rfl
@[simp] theorem modQuarter_nextSeq (s : State) (q : Nat) (f : Quarter → Quarter) : (modQuarter s q f).nextSeq = s.nextSeq := rfl
@[simp] theorem modQuarter_time (s : State) (q : Nat) (f : Quarter → Quarter) : (modQuarter s q f).time = s.time := rfl
@[simp] theorem modQuarter_parts (s : State) (q : Nat) (f : Quarter → Quarter) : (modQuarter s q f).parts = s.parts := rfl
@[simp] theorem modQuarter_cores (s : State) (q : Nat) (f : Quarter → Quarter) : (modQuarter s q f).cores = s.cores := rfl
@[simp] theorem modQuarter_mem (s : State) (q : Nat) (f : Quarter → Quarter) : (modQuarter s q f).mem = s.mem := rfl
@[simp] theorem modQuarter_die (s : State) (q : Nat) (f : Quarter → Quarter) : (modQuarter s q f).die = s.die := rfl
@[simp] theorem modQuarter_failing (s : State) (q : Nat) (f : Quarter → Quarter) : (modQuarter s q f).failing = s.failing := rfl
@[simp] theorem modQuarter_views (s : State) (q : Nat) (f : Quarter → Quarter) : (modQuarter s q f).views = s.views := rfl
@[simp] theorem modQuarter_forks (s : State) (q : Nat) (f : Quarter → Quarter) : (modQuarter s q f).forks = s.forks := rfl
@[simp] theorem modQuarter_monitors (s : State) (q : Nat) (f : Quarter → Quarter) : (modQuarter s q f).monitors = s.monitors := rfl
@[simp] theorem modQuarter_faults (s : State) (q : Nat) (f : Quarter → Quarter) : (modQuarter s q f).faults = s.faults := rfl
@[simp] theorem modQuarter_faultsWaiting (s : State) (q : Nat) (f : Quarter → Quarter) : (modQuarter s q f).faultsWaiting = s.faultsWaiting := rfl
@[simp] theorem modQuarter_errors (s : State) (q : Nat) (f : Quarter → Quarter) : (modQuarter s q f).errors = s.errors := rfl
@[simp] theorem modQuarter_errSeq (s : State) (q : Nat) (f : Quarter → Quarter) : (modQuarter s q f).errSeq = s.errSeq := rfl
@[simp] theorem modQuarter_errLost (s : State) (q : Nat) (f : Quarter → Quarter) : (modQuarter s q f).errLost = s.errLost := rfl
@[simp] theorem modQuarter_notifyDue (s : State) (q : Nat) (f : Quarter → Quarter) : (modQuarter s q f).notifyDue = s.notifyDue := rfl
@[simp] theorem modQuarter_mgmt (s : State) (q : Nat) (f : Quarter → Quarter) : (modQuarter s q f).mgmt = s.mgmt := rfl
@[simp] theorem modQuarter_retries (s : State) (q : Nat) (f : Quarter → Quarter) : (modQuarter s q f).retries = s.retries := rfl
@[simp] theorem modQuarter_invalBusy (s : State) (q : Nat) (f : Quarter → Quarter) : (modQuarter s q f).invalBusy = s.invalBusy := rfl
@[simp] theorem modQuarter_migrating (s : State) (q : Nat) (f : Quarter → Quarter) : (modQuarter s q f).migrating = s.migrating := rfl
@[simp] theorem modQuarter_opBusy (s : State) (q : Nat) (f : Quarter → Quarter) : (modQuarter s q f).opBusy = s.opBusy := rfl
@[simp] theorem modQuarter_rowCounts (s : State) (q : Nat) (f : Quarter → Quarter) : (modQuarter s q f).rowCounts = s.rowCounts := rfl
@[simp] theorem modQuarter_modeSet (s : State) (q : Nat) (f : Quarter → Quarter) : (modQuarter s q f).modeSet = s.modeSet := rfl
@[simp] theorem modQuarter_profile (s : State) (q : Nat) (f : Quarter → Quarter) : (modQuarter s q f).profile = s.profile := rfl
@[simp] theorem modQuarter_ordered (s : State) (q : Nat) (f : Quarter → Quarter) : (modQuarter s q f).ordered = s.ordered := rfl
@[simp] theorem modQuarter_capture (s : State) (q : Nat) (f : Quarter → Quarter) : (modQuarter s q f).capture = s.capture := rfl
@[simp] theorem modQuarter_packets (s : State) (q : Nat) (f : Quarter → Quarter) : (modQuarter s q f).packets = s.packets := rfl
@[simp] theorem modQuarter_wire (s : State) (q : Nat) (f : Quarter → Quarter) : (modQuarter s q f).wire = s.wire := rfl
@[simp] theorem modQuarter_awaits (s : State) (q : Nat) (f : Quarter → Quarter) : (modQuarter s q f).awaits = s.awaits := rfl
@[simp] theorem modQuarter_tags (s : State) (q : Nat) (f : Quarter → Quarter) : (modQuarter s q f).tags = s.tags := rfl
@[simp] theorem modQuarter_sentNo (s : State) (q : Nat) (f : Quarter → Quarter) : (modQuarter s q f).sentNo = s.sentNo := rfl
@[simp] theorem modQuarter_arrivedNo (s : State) (q : Nat) (f : Quarter → Quarter) : (modQuarter s q f).arrivedNo = s.arrivedNo := rfl
@[simp] theorem modQuarter_castDone (s : State) (q : Nat) (f : Quarter → Quarter) : (modQuarter s q f).castDone = s.castDone := rfl
@[simp] theorem modQuarter_hostOut (s : State) (q : Nat) (f : Quarter → Quarter) : (modQuarter s q f).hostOut = s.hostOut := rfl
@[simp] theorem modQuarter_hostAnswers (s : State) (q : Nat) (f : Quarter → Quarter) : (modQuarter s q f).hostAnswers = s.hostAnswers := rfl
@[simp] theorem modQuarter_ethOut (s : State) (q : Nat) (f : Quarter → Quarter) : (modQuarter s q f).ethOut = s.ethOut := rfl
@[simp] theorem modQuarter_ready (s : State) (q : Nat) (f : Quarter → Quarter) : (modQuarter s q f).ready = s.ready := rfl
@[simp] theorem modQuarter_bootStage (s : State) (q : Nat) (f : Quarter → Quarter) : (modQuarter s q f).bootStage = s.bootStage := rfl
@[simp] theorem modQuarter_resets (s : State) (q : Nat) (f : Quarter → Quarter) : (modQuarter s q f).resets = s.resets := rfl
@[simp] theorem modQuarter_kept (s : State) (q : Nat) (f : Quarter → Quarter) : (modQuarter s q f).kept = s.kept := rfl
@[simp] theorem modQuarter_atHomes (s : State) (q : Nat) (f : Quarter → Quarter) : (modQuarter s q f).atHomes = s.atHomes := rfl
@[simp] theorem modQuarter_bootCode (s : State) (q : Nat) (f : Quarter → Quarter) : (modQuarter s q f).bootCode = s.bootCode := rfl
@[simp] theorem modQuarter_measure (s : State) (q : Nat) (f : Quarter → Quarter) : (modQuarter s q f).measure = s.measure := rfl
@[simp] theorem modQuarter_reportBusy (s : State) (q : Nat) (f : Quarter → Quarter) : (modQuarter s q f).reportBusy = s.reportBusy := rfl

/-! ## The fields that `mset` leaves -/

@[simp] theorem mset_agenda (s : State) (q off : Nat) (v : W64) : (mset s q off v).agenda = s.agenda := rfl
@[simp] theorem mset_cur (s : State) (q off : Nat) (v : W64) : (mset s q off v).cur = s.cur := rfl
@[simp] theorem mset_curWord (s : State) (q off : Nat) (v : W64) : (mset s q off v).curWord = s.curWord := rfl
@[simp] theorem mset_nextSeq (s : State) (q off : Nat) (v : W64) : (mset s q off v).nextSeq = s.nextSeq := rfl
@[simp] theorem mset_time (s : State) (q off : Nat) (v : W64) : (mset s q off v).time = s.time := rfl
@[simp] theorem mset_parts (s : State) (q off : Nat) (v : W64) : (mset s q off v).parts = s.parts := rfl
@[simp] theorem mset_cores (s : State) (q off : Nat) (v : W64) : (mset s q off v).cores = s.cores := rfl
@[simp] theorem mset_quarters (s : State) (q off : Nat) (v : W64) : (mset s q off v).quarters = s.quarters := rfl
@[simp] theorem mset_mem (s : State) (q off : Nat) (v : W64) : (mset s q off v).mem = s.mem := rfl
@[simp] theorem mset_die (s : State) (q off : Nat) (v : W64) : (mset s q off v).die = s.die := rfl
@[simp] theorem mset_failing (s : State) (q off : Nat) (v : W64) : (mset s q off v).failing = s.failing := rfl
@[simp] theorem mset_views (s : State) (q off : Nat) (v : W64) : (mset s q off v).views = s.views := rfl
@[simp] theorem mset_forks (s : State) (q off : Nat) (v : W64) : (mset s q off v).forks = s.forks := rfl
@[simp] theorem mset_monitors (s : State) (q off : Nat) (v : W64) : (mset s q off v).monitors = s.monitors := rfl
@[simp] theorem mset_faults (s : State) (q off : Nat) (v : W64) : (mset s q off v).faults = s.faults := rfl
@[simp] theorem mset_faultsWaiting (s : State) (q off : Nat) (v : W64) : (mset s q off v).faultsWaiting = s.faultsWaiting := rfl
@[simp] theorem mset_errors (s : State) (q off : Nat) (v : W64) : (mset s q off v).errors = s.errors := rfl
@[simp] theorem mset_errSeq (s : State) (q off : Nat) (v : W64) : (mset s q off v).errSeq = s.errSeq := rfl
@[simp] theorem mset_errLost (s : State) (q off : Nat) (v : W64) : (mset s q off v).errLost = s.errLost := rfl
@[simp] theorem mset_notifyDue (s : State) (q off : Nat) (v : W64) : (mset s q off v).notifyDue = s.notifyDue := rfl
@[simp] theorem mset_retries (s : State) (q off : Nat) (v : W64) : (mset s q off v).retries = s.retries := rfl
@[simp] theorem mset_invalBusy (s : State) (q off : Nat) (v : W64) : (mset s q off v).invalBusy = s.invalBusy := rfl
@[simp] theorem mset_migrating (s : State) (q off : Nat) (v : W64) : (mset s q off v).migrating = s.migrating := rfl
@[simp] theorem mset_opBusy (s : State) (q off : Nat) (v : W64) : (mset s q off v).opBusy = s.opBusy := rfl
@[simp] theorem mset_rowCounts (s : State) (q off : Nat) (v : W64) : (mset s q off v).rowCounts = s.rowCounts := rfl
@[simp] theorem mset_modeSet (s : State) (q off : Nat) (v : W64) : (mset s q off v).modeSet = s.modeSet := rfl
@[simp] theorem mset_profile (s : State) (q off : Nat) (v : W64) : (mset s q off v).profile = s.profile := rfl
@[simp] theorem mset_ordered (s : State) (q off : Nat) (v : W64) : (mset s q off v).ordered = s.ordered := rfl
@[simp] theorem mset_capture (s : State) (q off : Nat) (v : W64) : (mset s q off v).capture = s.capture := rfl
@[simp] theorem mset_packets (s : State) (q off : Nat) (v : W64) : (mset s q off v).packets = s.packets := rfl
@[simp] theorem mset_wire (s : State) (q off : Nat) (v : W64) : (mset s q off v).wire = s.wire := rfl
@[simp] theorem mset_awaits (s : State) (q off : Nat) (v : W64) : (mset s q off v).awaits = s.awaits := rfl
@[simp] theorem mset_tags (s : State) (q off : Nat) (v : W64) : (mset s q off v).tags = s.tags := rfl
@[simp] theorem mset_sentNo (s : State) (q off : Nat) (v : W64) : (mset s q off v).sentNo = s.sentNo := rfl
@[simp] theorem mset_arrivedNo (s : State) (q off : Nat) (v : W64) : (mset s q off v).arrivedNo = s.arrivedNo := rfl
@[simp] theorem mset_castDone (s : State) (q off : Nat) (v : W64) : (mset s q off v).castDone = s.castDone := rfl
@[simp] theorem mset_hostOut (s : State) (q off : Nat) (v : W64) : (mset s q off v).hostOut = s.hostOut := rfl
@[simp] theorem mset_hostAnswers (s : State) (q off : Nat) (v : W64) : (mset s q off v).hostAnswers = s.hostAnswers := rfl
@[simp] theorem mset_ethOut (s : State) (q off : Nat) (v : W64) : (mset s q off v).ethOut = s.ethOut := rfl
@[simp] theorem mset_ready (s : State) (q off : Nat) (v : W64) : (mset s q off v).ready = s.ready := rfl
@[simp] theorem mset_bootStage (s : State) (q off : Nat) (v : W64) : (mset s q off v).bootStage = s.bootStage := rfl
@[simp] theorem mset_resets (s : State) (q off : Nat) (v : W64) : (mset s q off v).resets = s.resets := rfl
@[simp] theorem mset_kept (s : State) (q off : Nat) (v : W64) : (mset s q off v).kept = s.kept := rfl
@[simp] theorem mset_atHomes (s : State) (q off : Nat) (v : W64) : (mset s q off v).atHomes = s.atHomes := rfl
@[simp] theorem mset_bootCode (s : State) (q off : Nat) (v : W64) : (mset s q off v).bootCode = s.bootCode := rfl
@[simp] theorem mset_measure (s : State) (q off : Nat) (v : W64) : (mset s q off v).measure = s.measure := rfl
@[simp] theorem mset_reportBusy (s : State) (q off : Nat) (v : W64) : (mset s q off v).reportBusy = s.reportBusy := rfl
@[simp] theorem part_mset (s : State) (q off p : Nat) (v : W64) : part (mset s q off v) p = part s p := rfl
@[simp] theorem core_mset (s : State) (q off c : Nat) (v : W64) : core (mset s q off v) c = core s c := rfl
@[simp] theorem quarter_mset (s : State) (q off r : Nat) (v : W64) : quarter (mset s q off v) r = quarter s r := rfl
@[simp] theorem mget_mset (s : State) (q off : Nat) (v : W64) : mget (mset s q off v) q off = v := by simp [mget, mset]

theorem mget_mset_other (s : State) {q q' off off' : Nat} (v : W64) (h : mkey q' off' ≠ mkey q off) :
    mget (mset s q off v) q' off' = mget s q' off' := by
  simp [mget, mset, fgetD_fput_other, h]

end Sys2Proof.Machine.Laws
end

