-- ==== Sys2Proof/Laws/Holds.lean ====
section
/-! SUPPORT. What a hold, a return from a trap, a late tile and a multicast block can do: one lemma for each. -/

namespace Sys2Proof.Machine.Laws

/-! ## A word that holds -/

@[simp] theorem keepHolding_mem (s : State) (p : Nat) (flag : Bool) : (keepHolding s p flag).mem = s.mem := rfl

@[simp] theorem keepHolding_die (s : State) (p : Nat) (flag : Bool) : (keepHolding s p flag).die = s.die := rfl

@[simp] theorem keepHolding_cur (s : State) (p : Nat) (flag : Bool) : (keepHolding s p flag).cur = s.cur := rfl

/-- The partition that holds is changed in its hold mark and, at an honoured flag, in its window (R220). -/
theorem part_keepHolding (s : State) (p : Nat) (flag : Bool) : part (keepHolding s p flag) p = { part s p with
    holding := true, windowEnd := if flag && !(part s p).flagIgnored then 0 else (part s p).windowEnd } := by
  simp [keepHolding]

theorem part_keepHolding_ne (s : State) {p q : Nat} (flag : Bool) (h : q ≠ p) : part (keepHolding s p flag) q = part s q := by
  simp [keepHolding, part_modPart_other, h]

/-- A word that holds keeps holding, or the oldest pending trap is delivered before it (R369). -/
theorem holdWord_cases (s : State) (p : Nat) (flag : Bool) :
    ((part s p).pending ≠ [] ∧ (part s p).flights = [] ∧ holdsFast s p = false ∧ holdWord s p flag = deliverPending s p) ∨
    (((part s p).pending = [] ∨ (part s p).flights ≠ [] ∨ holdsFast s p = true) ∧ holdWord s p flag = keepHolding s p flag) := by
  by_cases h : ¬ (part s p).pending.isEmpty ∧ (part s p).flights.isEmpty ∧ ¬ holdsFast s p
  · exact .inl ⟨by simpa using h.1, by simpa using h.2.1, by simpa using h.2.2, if_pos h⟩
  · refine .inr ⟨?_, if_neg h⟩
    by_cases a : (part s p).pending = []
    · exact .inl a
    · by_cases b : (part s p).flights = []
      · exact .inr (.inr (by by_contra c; exact h ⟨by simpa using a, by simp [b], c⟩))
      · exact .inr (.inl b)

theorem holdWord_idle {s : State} {p : Nat} (flag : Bool) (h : (part s p).pending = []) : holdWord s p flag = keepHolding s p flag := by
  simp [holdWord, h]

/-! ## The return from a trap -/

@[simp] theorem returnFromTrap_mem (s : State) (p : Nat) : (returnFromTrap s p).mem = s.mem := rfl

@[simp] theorem returnFromTrap_die (s : State) (p : Nat) : (returnFromTrap s p).die = s.die := rfl

/-- A queue that the trap entered last did not freeze stays as it is (R369). -/
theorem cmdQueue_returnFromTrap_ne {s : State} {p k : Nat} (h : (part s p).resumeQueues.head? ≠ some k) :
    cmdQueue (returnFromTrap s p) p k = cmdQueue s p k := by
  have e : resumedQueue (part s p) ≠ some k := by
    unfold resumedQueue
    split
    · next a r q =>
      rw [q] at h
      split <;> simp_all
    · simp
  cases r : resumedQueue (part s p) with
  | none => simp [returnFromTrap, cmdQueue, r]
  | some j =>
    have : k ≠ j := fun c => e (by rw [r, c])
    simp [returnFromTrap, cmdQueue, r, fgetD_fput_other, this]

/-! ## Tiles and blocks -/

/-- Dropping a late tile changes nothing but what may still be under way (R159). -/
theorem dropOld_rest (l : LinkQueue) (k : Nat) : { l.dropOld k with stale := l.stale } = l := rfl

/-- A tile can arrive only at a bound receiving queue with room (R160, R321). -/
theorem expects_iff (l : LinkQueue) : l.expects = true ↔ l.bound = true ∧ l.send = false ∧ l.paired = true ∧ l.tiles.length < 4 := by
  simp [LinkQueue.expects, and_assoc]

theorem takeTile_length (l : LinkQueue) (codes scales : List Nat) : (l.takeTile codes scales).tiles.length = l.tiles.length + 1 := by
  simp [LinkQueue.takeTile]

@[simp] theorem countCast_mem (s : State) (key sq : Nat) : (countCast s key sq).mem = s.mem := rfl

/-- One block suffices for an add of at most 256 bytes right behind it (R102). -/
theorem castCounted_countCast (s : State) (key sq n : Nat) (h : n ≤ 256) : castCounted (countCast s key sq) key (sq + 1) n = true := by
  have e : ceilDiv n 256 ≤ 1 := by unfold ceilDiv; omega
  simp only [castCounted, countCast, fgetD_fput_same]
  split <;> simp <;> omega

end Sys2Proof.Machine.Laws
end

