-- ==== Sys2Proof/Laws/Issue.lean ====
section
/-! SUPPORT. The spec lemma of `issueWord`: what a word does whose conditions to issue are met. -/

namespace Sys2Proof.Machine.Laws

open Sys2Proof.Machine.Safety

/-! ## The count of ignored flags (R19) -/

@[simp] theorem countIgnored_cur (s : State) (h : Hdr) : (countIgnored s h).cur = s.cur := by
  unfold countIgnored; split <;> rfl

@[simp] theorem countIgnored_time (s : State) (h : Hdr) : (countIgnored s h).time = s.time := by
  unfold countIgnored; split <;> rfl

@[simp] theorem countIgnored_nextSeq (s : State) (h : Hdr) : (countIgnored s h).nextSeq = s.nextSeq := by
  unfold countIgnored; split <;> rfl

@[simp] theorem countIgnored_awaits (s : State) (h : Hdr) : (countIgnored s h).awaits = s.awaits := by
  unfold countIgnored; split <;> rfl

@[simp] theorem core_countIgnored (s : State) (h : Hdr) (c : Nat) : core (countIgnored s h) c = core s c := by
  unfold countIgnored; split <;> rfl

@[simp] theorem countIgnored_part_resident (s : State) (h : Hdr) : (part (countIgnored s h) s.cur).resident = (part s s.cur).resident := by
  unfold countIgnored; split <;> simp

@[simp] theorem countIgnored_part_picking (s : State) (h : Hdr) : (part (countIgnored s h) s.cur).picking = (part s s.cur).picking := by
  unfold countIgnored; split <;> simp

@[simp] theorem countIgnored_part_pc (s : State) (h : Hdr) : (part (countIgnored s h) s.cur).pc = (part s s.cur).pc := by
  unfold countIgnored; split <;> simp

@[simp] theorem countIgnored_part_priv (s : State) (h : Hdr) : (part (countIgnored s h) s.cur).priv = (part s s.cur).priv := by
  unfold countIgnored; split <;> simp

@[simp] theorem countIgnored_part_regs (s : State) (h : Hdr) : (part (countIgnored s h) s.cur).regs = (part s s.cur).regs := by
  unfold countIgnored; split <;> simp

@[simp] theorem countIgnored_part_flights (s : State) (h : Hdr) : (part (countIgnored s h) s.cur).flights = (part s s.cur).flights := by
  unfold countIgnored; split <;> simp

@[simp] theorem countIgnored_part_unflagged (s : State) (h : Hdr) : (part (countIgnored s h) s.cur).unflagged = (part s s.cur).unflagged := by
  unfold countIgnored; split <;> simp

@[simp] theorem countIgnored_part_loops (s : State) (h : Hdr) : (part (countIgnored s h) s.cur).loops = (part s s.cur).loops := by
  unfold countIgnored; split <;> simp

@[simp] theorem countIgnored_part_carry (s : State) (h : Hdr) : (part (countIgnored s h) s.cur).carry = (part s s.cur).carry := by
  unfold countIgnored; split <;> simp

@[simp] theorem countIgnored_part_cont (s : State) (h : Hdr) : (part (countIgnored s h) s.cur).cont = (part s s.cur).cont := by
  unfold countIgnored; split <;> simp

@[simp] theorem countIgnored_part_workid (s : State) (h : Hdr) : (part (countIgnored s h) s.cur).workid = (part s s.cur).workid := by
  unfold countIgnored; split <;> simp

@[simp] theorem countIgnored_part_asid (s : State) (h : Hdr) : (part (countIgnored s h) s.cur).asid = (part s s.cur).asid := by
  unfold countIgnored; split <;> simp

@[simp] theorem countIgnored_part_leave (s : State) (h : Hdr) : (part (countIgnored s h) s.cur).leave = (part s s.cur).leave := by
  unfold countIgnored; split <;> simp

@[simp] theorem countIgnored_part_seed (s : State) (h : Hdr) : (part (countIgnored s h) s.cur).seed = (part s s.cur).seed := by
  unfold countIgnored; split <;> simp

@[simp] theorem countIgnored_part_tvec (s : State) (h : Hdr) : (part (countIgnored s h) s.cur).tvec = (part s s.cur).tvec := by
  unfold countIgnored; split <;> simp

@[simp] theorem countIgnored_part_trec (s : State) (h : Hdr) : (part (countIgnored s h) s.cur).trec = (part s s.cur).trec := by
  unfold countIgnored; split <;> simp

@[simp] theorem countIgnored_part_tpc (s : State) (h : Hdr) : (part (countIgnored s h) s.cur).tpc = (part s s.cur).tpc := by
  unfold countIgnored; split <;> simp

@[simp] theorem countIgnored_part_tcause (s : State) (h : Hdr) : (part (countIgnored s h) s.cur).tcause = (part s s.cur).tcause := by
  unfold countIgnored; split <;> simp

@[simp] theorem countIgnored_part_tpriv (s : State) (h : Hdr) : (part (countIgnored s h) s.cur).tpriv = (part s s.cur).tpriv := by
  unfold countIgnored; split <;> simp

@[simp] theorem countIgnored_part_sems (s : State) (h : Hdr) : (part (countIgnored s h) s.cur).sems = (part s s.cur).sems := by
  unfold countIgnored; split <;> simp

@[simp] theorem countIgnored_part_mailboxes (s : State) (h : Hdr) : (part (countIgnored s h) s.cur).mailboxes = (part s s.cur).mailboxes := by
  unfold countIgnored; split <;> simp

@[simp] theorem countIgnored_part_tokens (s : State) (h : Hdr) : (part (countIgnored s h) s.cur).tokens = (part s s.cur).tokens := by
  unfold countIgnored; split <;> simp

@[simp] theorem countIgnored_part_posts (s : State) (h : Hdr) : (part (countIgnored s h) s.cur).posts = (part s s.cur).posts := by
  unfold countIgnored; split <;> simp

@[simp] theorem countIgnored_part_queues (s : State) (h : Hdr) : (part (countIgnored s h) s.cur).queues = (part s s.cur).queues := by
  unfold countIgnored; split <;> simp

@[simp] theorem countIgnored_part_monitor (s : State) (h : Hdr) : (part (countIgnored s h) s.cur).monitor = (part s s.cur).monitor := by
  unfold countIgnored; split <;> simp

@[simp] theorem countIgnored_part_vregs (s : State) (h : Hdr) : (part (countIgnored s h) s.cur).vregs = (part s s.cur).vregs := by
  unfold countIgnored; split <;> simp

@[simp] theorem countIgnored_part_shapeRows (s : State) (h : Hdr) : (part (countIgnored s h) s.cur).shapeRows = (part s s.cur).shapeRows := by
  unfold countIgnored; split <;> simp

@[simp] theorem countIgnored_part_shapeCols (s : State) (h : Hdr) : (part (countIgnored s h) s.cur).shapeCols = (part s s.cur).shapeCols := by
  unfold countIgnored; split <;> simp

@[simp] theorem countIgnored_part_shapeType (s : State) (h : Hdr) : (part (countIgnored s h) s.cur).shapeType = (part s s.cur).shapeType := by
  unfold countIgnored; split <;> simp

@[simp] theorem countIgnored_part_tables (s : State) (h : Hdr) : (part (countIgnored s h) s.cur).tables = (part s s.cur).tables := by
  unfold countIgnored; split <;> simp

@[simp] theorem countIgnored_part_operandQueues (s : State) (h : Hdr) : (part (countIgnored s h) s.cur).operandQueues = (part s s.cur).operandQueues := by
  unfold countIgnored; split <;> simp

@[simp] theorem countIgnored_part_circs (s : State) (h : Hdr) : (part (countIgnored s h) s.cur).circs = (part s s.cur).circs := by
  unfold countIgnored; split <;> simp

@[simp] theorem countIgnored_part_shapes (s : State) (h : Hdr) : (part (countIgnored s h) s.cur).shapes = (part s s.cur).shapes := by
  unfold countIgnored; split <;> simp

@[simp] theorem countIgnored_part_nestLevels (s : State) (h : Hdr) : (part (countIgnored s h) s.cur).nestLevels = (part s s.cur).nestLevels := by
  unfold countIgnored; split <;> simp

@[simp] theorem countIgnored_part_nestStrides (s : State) (h : Hdr) : (part (countIgnored s h) s.cur).nestStrides = (part s s.cur).nestStrides := by
  unfold countIgnored; split <;> simp

@[simp] theorem countIgnored_part_nestWord (s : State) (h : Hdr) : (part (countIgnored s h) s.cur).nestWord = (part s s.cur).nestWord := by
  unfold countIgnored; split <;> simp

@[simp] theorem countIgnored_part_epiDest (s : State) (h : Hdr) : (part (countIgnored s h) s.cur).epiDest = (part s s.cur).epiDest := by
  unfold countIgnored; split <;> simp

@[simp] theorem countIgnored_part_epiWord (s : State) (h : Hdr) : (part (countIgnored s h) s.cur).epiWord = (part s s.cur).epiWord := by
  unfold countIgnored; split <;> simp

@[simp] theorem countIgnored_part_epiBarrier (s : State) (h : Hdr) : (part (countIgnored s h) s.cur).epiBarrier = (part s s.cur).epiBarrier := by
  unfold countIgnored; split <;> simp

@[simp] theorem countIgnored_part_restart (s : State) (h : Hdr) : (part (countIgnored s h) s.cur).restart = (part s s.cur).restart := by
  unfold countIgnored; split <;> simp

@[simp] theorem countIgnored_part_lostMangle (s : State) (h : Hdr) : (part (countIgnored s h) s.cur).lostMangle = (part s s.cur).lostMangle := by
  unfold countIgnored; split <;> simp

@[simp] theorem countIgnored_part_restarting (s : State) (h : Hdr) : (part (countIgnored s h) s.cur).restarting = (part s s.cur).restarting := by
  unfold countIgnored; split <;> simp

@[simp] theorem countIgnored_part_preempted (s : State) (h : Hdr) : (part (countIgnored s h) s.cur).preempted = (part s s.cur).preempted := by
  unfold countIgnored; split <;> simp

@[simp] theorem countIgnored_part_pending (s : State) (h : Hdr) : (part (countIgnored s h) s.cur).pending = (part s s.cur).pending := by
  unfold countIgnored; split <;> simp

@[simp] theorem countIgnored_part_entering (s : State) (h : Hdr) : (part (countIgnored s h) s.cur).entering = (part s s.cur).entering := by
  unfold countIgnored; split <;> simp

@[simp] theorem countIgnored_part_resumeQueues (s : State) (h : Hdr) : (part (countIgnored s h) s.cur).resumeQueues = (part s s.cur).resumeQueues := by
  unfold countIgnored; split <;> simp

@[simp] theorem countIgnored_part_fetchSeen (s : State) (h : Hdr) : (part (countIgnored s h) s.cur).fetchSeen = (part s s.cur).fetchSeen := by
  unfold countIgnored; split <;> simp

@[simp] theorem countIgnored_part_leaveWait (s : State) (h : Hdr) : (part (countIgnored s h) s.cur).leaveWait = (part s s.cur).leaveWait := by
  unfold countIgnored; split <;> simp

@[simp] theorem countIgnored_part_holding (s : State) (h : Hdr) : (part (countIgnored s h) s.cur).holding = (part s s.cur).holding := by
  unfold countIgnored; split <;> simp

@[simp] theorem countIgnored_part_holdSince (s : State) (h : Hdr) : (part (countIgnored s h) s.cur).holdSince = (part s s.cur).holdSince := by
  unfold countIgnored; split <;> simp

@[simp] theorem countIgnored_part_issueLost (s : State) (h : Hdr) : (part (countIgnored s h) s.cur).issueLost = (part s s.cur).issueLost := by
  unfold countIgnored; split <;> simp

@[simp] theorem countIgnored_part_due (s : State) (h : Hdr) : (part (countIgnored s h) s.cur).due = (part s s.cur).due := by
  unfold countIgnored; split <;> simp

@[simp] theorem countIgnored_part_windowEnd (s : State) (h : Hdr) : (part (countIgnored s h) s.cur).windowEnd = (part s s.cur).windowEnd := by
  unfold countIgnored; split <;> simp

@[simp] theorem countIgnored_part_answers (s : State) (h : Hdr) : (part (countIgnored s h) s.cur).answers = (part s s.cur).answers := by
  unfold countIgnored; split <;> simp

@[simp] theorem countIgnored_part_mark (s : State) (h : Hdr) : (part (countIgnored s h) s.cur).mark = (part s s.cur).mark := by
  unfold countIgnored; split <;> simp

@[simp] theorem countIgnored_part_stores (s : State) (h : Hdr) : (part (countIgnored s h) s.cur).stores = (part s s.cur).stores := by
  unfold countIgnored; split <;> simp

@[simp] theorem countIgnored_part_atHandler (s : State) (h : Hdr) : (part (countIgnored s h) s.cur).atHandler = (part s s.cur).atHandler := by
  unfold countIgnored; split <;> simp

@[simp] theorem countIgnored_part_stuck (s : State) (h : Hdr) : (part (countIgnored s h) s.cur).stuck = (part s s.cur).stuck := by
  unfold countIgnored; split <;> simp

@[simp] theorem countIgnored_part_reserved (s : State) (h : Hdr) : (part (countIgnored s h) s.cur).reserved = (part s s.cur).reserved := by
  unfold countIgnored; split <;> simp

@[simp] theorem countIgnored_part_ords (s : State) (h : Hdr) : (part (countIgnored s h) s.cur).ords = (part s s.cur).ords := by
  unfold countIgnored; split <;> simp

@[simp] theorem countIgnored_part_waitSeen (s : State) (h : Hdr) : (part (countIgnored s h) s.cur).waitSeen = (part s s.cur).waitSeen := by
  unfold countIgnored; split <;> simp

@[simp] theorem countIgnored_part_msDone (s : State) (h : Hdr) : (part (countIgnored s h) s.cur).msDone = (part s s.cur).msDone := by
  unfold countIgnored; split <;> simp

@[simp] theorem countIgnored_part_testLeave (s : State) (h : Hdr) : (part (countIgnored s h) s.cur).testLeave = (part s s.cur).testLeave := by
  unfold countIgnored; split <;> simp

@[simp] theorem countIgnored_part_testDone (s : State) (h : Hdr) : (part (countIgnored s h) s.cur).testDone = (part s s.cur).testDone := by
  unfold countIgnored; split <;> simp

@[simp] theorem countIgnored_part_mbWritten (s : State) (h : Hdr) : (part (countIgnored s h) s.cur).mbWritten = (part s s.cur).mbWritten := by
  unfold countIgnored; split <;> simp

@[simp] theorem countIgnored_part_testHeld (s : State) (h : Hdr) : (part (countIgnored s h) s.cur).testHeld = (part s s.cur).testHeld := by
  unfold countIgnored; split <;> simp

@[simp] theorem hrWords_countIgnored (s : State) (h : Hdr) (p : Nat) : hrWords (countIgnored s h) p = hrWords s p := by
  unfold countIgnored; split <;> rfl

theorem part_countIgnored_other (s : State) (h : Hdr) {p : Nat} (hp : p ≠ s.cur) : part (countIgnored s h) p = part s p := by
  unfold countIgnored; split
  · simp [part_modPart_other, hp]
  · rfl

/-! ## Words that issue -/

@[simp] theorem wordDone_countIgnored (s : State) (h : Hdr) (seq : Nat) : wordDone (countIgnored s h) s.cur seq = wordDone s s.cur seq := by
  simp [wordDone]

@[simp] theorem postHolds_countIgnored (s : State) (h : Hdr) : postHolds (countIgnored s h) s.cur = postHolds s s.cur := by simp [postHolds]

@[simp] theorem followingPc_countIgnored (s : State) (h : Hdr) (nw : Nat) : followingPc (countIgnored s h) nw = followingPc s nw := by
  simp [followingPc]

@[simp] theorem inFlight_countIgnored (s : State) (h : Hdr) (r : Nat) :
    inFlight (part (countIgnored s h) s.cur) r = inFlight (part s s.cur) r := by simp [inFlight]

@[simp] theorem waitTokens_countIgnored (s : State) (h : Hdr) (n : Need) :
    waitTokens (part (countIgnored s h) s.cur) h n = waitTokens (part s s.cur) h n := by simp [waitTokens]

/-- A word whose conditions are met does what its own effect says. -/
theorem issueWord_issues {s : State} {h : Hdr} {n : Need} {vals : List W64} {regs : FMap (List W64)} {tokens : FMap Nat}
    (hi : Issues s h n vals regs tokens) (i : Instr) (body : List W64 → State → WordOut) :
    issueWord s i h n body = settleWord (countIgnored s h) i h n (body vals (issued s h regs tokens)) := by
  obtain ⟨calm, quiet, spaced, legal, whole, ⟨access, level⟩, read, room, posted, logged, waited⟩ := hi
  have hspaced : ¬(¬ h.stop = true ∧ 63 ≤ (part s s.cur).unflagged) := by
    rintro ⟨h1, h2⟩; rcases spaced with h3 | h3
    · exact h1 h3
    · omega
  have hroom : ¬(n.dst ≠ 0 ∧ 4 < (fgetD regs n.dst []).length + inFlight (part s s.cur) n.dst + 1) := by
    rintro ⟨h1, h2⟩; rcases room with h3 | h3
    · exact h1 h3
    · omega
  have hlog : ¬((part s s.cur).priv = 0 ∧ ¬ (core s (coreOf s.cur)).sideHeld.isEmpty = true) := by
    rcases logged with h1 | h1 <;> simp [h1]
  have hhold : holdsAnyway (countIgnored s h) n = false := by simp [holdsAnyway, posted, quiet]
  have hlevel : decide ((part s s.cur).priv < n.level) = false := by simpa using level
  simp only [issueWord, calm, Option.isSome_none, Bool.false_eq_true, ↓reduceIte, if_neg hlog, if_neg hspaced, countIgnored_part_pending,
    countIgnored_part_loops, countIgnored_part_priv, countIgnored_part_pc, countIgnored_part_regs, inFlight_countIgnored, quiet,
    List.isEmpty_nil, not_true_eq_false, false_and, and_false, legal, whole, access, hlevel, Bool.or_self, List.any_nil, read, if_neg hroom, hhold,
    waitTokens_countIgnored, waited, issued]

/-- A word that goes on to the next one. -/
theorem issueWord_next {s t : State} {h : Hdr} {n : Need} {vals : List W64} {regs : FMap (List W64)} {tokens : FMap Nat}
    (hi : Issues s h n vals regs tokens) (i : Instr) (body : List W64 → State → WordOut)
    (hb : body vals (issued s h regs tokens) = .next t) : issueWord s i h n body = onward s h n.command n.words t := by
  rw [issueWord_issues hi, hb]; simp [settleWord, onward, followingPc_countIgnored]

/-- A word that jumps. -/
theorem issueWord_jump {s t : State} {h : Hdr} {n : Need} {vals : List W64} {regs : FMap (List W64)} {tokens : FMap Nat} {q : Nat}
    (hi : Issues s h n vals regs tokens) (hc : n.command = false) (i : Instr) (body : List W64 → State → WordOut)
    (hb : body vals (issued s h regs tokens) = .jump t q) : issueWord s i h n body = jumped s h n.words q t := by
  rw [issueWord_issues hi, hb]; simp [settleWord, jumped, hc]

/-- A word that only reads registers and pushes one exposed result. -/
theorem aluWord_next {s : State} {h : Hdr} {d : Reg} {reads : List (Nat × Bool)} {vals : List W64} {regs : FMap (List W64)}
    {tokens : FMap Nat} {words : Nat} (i : Instr) (lat : Nat) (f : List W64 → W64)
    (hi : Issues s h { words := words, reads := reads, dst := dstOf s d } vals regs tokens) :
    aluWord s i h d reads words lat f = onward s h false words (flyExposed (issued s h regs tokens) d words lat (f vals)) := by
  unfold aluWord
  rw [issueWord_next hi i _ (t := flyExposed (issued s h regs tokens) d words lat (f vals)) rfl]

theorem alu3_next {s : State} {h : Hdr} {d a b : Reg} {ka kb : Bool} {x y : W64} {regs : FMap (List W64)} {tokens : FMap Nat}
    (i : Instr) (lat : Nat) (f : W64 → W64 → W64)
    (hi : Issues s h { reads := [rd s a ka, rd s b kb], dst := dstOf s d } [x, y] regs tokens) :
    alu3 s i h d a b ka kb lat f = onward s h false 1 (flyExposed (issued s h regs tokens) d 1 lat (f x y)) := by
  unfold alu3; rw [aluWord_next _ _ _ hi]; rfl

theorem alu2_next {s : State} {h : Hdr} {d a : Reg} {ka : Bool} {x : W64} {regs : FMap (List W64)} {tokens : FMap Nat}
    (i : Instr) (f : W64 → W64) (hi : Issues s h { reads := [rd s a ka], dst := dstOf s d } [x] regs tokens) :
    alu2 s i h d a ka f = onward s h false 1 (flyExposed (issued s h regs tokens) d 1 1 (f x)) := by
  unfold alu2; rw [aluWord_next _ _ _ hi]; rfl

end Sys2Proof.Machine.Laws
end

