-- ==== Sys2Proof/Laws/Issued.lean ====
section
/-! SUPPORT. The state in which a word's own effect takes place, and what follows where nothing earlier is outstanding: read it field by
field through these lemmas. -/

namespace Sys2Proof.Machine.Laws

open Sys2Proof.Machine.Safety

/-! ## The state in which a word takes effect -/

theorem part_of_parts {s t : State} (e : t.parts = s.parts) (p : Nat) : part t p = part s p := by unfold part; rw [e]

theorem issued_parts (s : State) (h : Hdr) (regs : FMap (List W64)) (tokens : FMap Nat) : (issued s h regs tokens).parts =
    (modPart (countIgnored s h) s.cur fun x => { x with
      regs := regs, tokens := tokens, unflagged := countFlag x h.stop, holding := false, atHandler := false, flagIgnored := false, holdSince := s.time, waitSeen := 0, replayAt := none, probe := none }).parts := by
  unfold issued readyWord; simp only [countIgnored_cur, countIgnored_time]

@[simp] theorem part_issued (s : State) (h : Hdr) (regs : FMap (List W64)) (tokens : FMap Nat) : part (issued s h regs tokens) s.cur =
    { part (countIgnored s h) s.cur with
      regs := regs, tokens := tokens, unflagged := countFlag (part (countIgnored s h) s.cur) h.stop, holding := false, atHandler := false, flagIgnored := false, holdSince := s.time, waitSeen := 0, replayAt := none, probe := none } := by
  rw [part_of_parts (issued_parts s h regs tokens), part_modPart]

theorem part_issued_other (s : State) (h : Hdr) (regs : FMap (List W64)) (tokens : FMap Nat) {p : Nat} (hp : p ≠ s.cur) :
    part (issued s h regs tokens) p = part s p := by
  rw [part_of_parts (issued_parts s h regs tokens), part_modPart_other _ _ hp, part_countIgnored_other _ _ hp]

/-- Outside the issuing partition a word that issues changes only the model's own counts. -/
theorem issued_rest (s : State) (h : Hdr) (regs : FMap (List W64)) (tokens : FMap Nat) :
    { issued s h regs tokens with parts := s.parts, nextSeq := s.nextSeq, curWord := s.curWord } = s := by
  unfold issued readyWord countIgnored; split <;> rfl

@[simp] theorem hrWords_issued (s : State) (h : Hdr) (regs : FMap (List W64)) (tokens : FMap Nat) (p : Nat) :
    hrWords (issued s h regs tokens) p = hrWords s p := by
  unfold issued readyWord countIgnored; split <;> rfl

@[simp] theorem issued_cur (s : State) (h : Hdr) (regs : FMap (List W64)) (tokens : FMap Nat) : (issued s h regs tokens).cur = s.cur := by simp [issued, readyWord]

@[simp] theorem issued_wordSeq (s : State) (h : Hdr) (regs : FMap (List W64)) (tokens : FMap Nat) : wordSeq (issued s h regs tokens) = s.nextSeq := by
  unfold issued readyWord; simp [wordSeq]

@[simp] theorem core_issued (s : State) (h : Hdr) (regs : FMap (List W64)) (tokens : FMap Nat) (c : Nat) : core (issued s h regs tokens) c = core s c := by
  unfold issued readyWord countIgnored; split <;> rfl

@[simp] theorem quarter_issued (s : State) (h : Hdr) (regs : FMap (List W64)) (tokens : FMap Nat) (q : Nat) : quarter (issued s h regs tokens) q = quarter s q := by
  unfold issued readyWord countIgnored; split <;> rfl

@[simp] theorem issued_time (s : State) (h : Hdr) (regs : FMap (List W64)) (tokens : FMap Nat) : (issued s h regs tokens).time = s.time := by
  unfold issued readyWord countIgnored; split <;> rfl
@[simp] theorem issued_mem (s : State) (h : Hdr) (regs : FMap (List W64)) (tokens : FMap Nat) : (issued s h regs tokens).mem = s.mem := by
  unfold issued readyWord countIgnored; split <;> rfl
@[simp] theorem issued_die (s : State) (h : Hdr) (regs : FMap (List W64)) (tokens : FMap Nat) : (issued s h regs tokens).die = s.die := by
  unfold issued readyWord countIgnored; split <;> rfl
@[simp] theorem issued_failing (s : State) (h : Hdr) (regs : FMap (List W64)) (tokens : FMap Nat) : (issued s h regs tokens).failing = s.failing := by
  unfold issued readyWord countIgnored; split <;> rfl
@[simp] theorem issued_views (s : State) (h : Hdr) (regs : FMap (List W64)) (tokens : FMap Nat) : (issued s h regs tokens).views = s.views := by
  unfold issued readyWord countIgnored; split <;> rfl
@[simp] theorem issued_forks (s : State) (h : Hdr) (regs : FMap (List W64)) (tokens : FMap Nat) : (issued s h regs tokens).forks = s.forks := by
  unfold issued readyWord countIgnored; split <;> rfl
@[simp] theorem issued_monitors (s : State) (h : Hdr) (regs : FMap (List W64)) (tokens : FMap Nat) : (issued s h regs tokens).monitors = s.monitors := by
  unfold issued readyWord countIgnored; split <;> rfl
@[simp] theorem issued_faults (s : State) (h : Hdr) (regs : FMap (List W64)) (tokens : FMap Nat) : (issued s h regs tokens).faults = s.faults := by
  unfold issued readyWord countIgnored; split <;> rfl
@[simp] theorem issued_faultsWaiting (s : State) (h : Hdr) (regs : FMap (List W64)) (tokens : FMap Nat) : (issued s h regs tokens).faultsWaiting = s.faultsWaiting := by
  unfold issued readyWord countIgnored; split <;> rfl
@[simp] theorem issued_errors (s : State) (h : Hdr) (regs : FMap (List W64)) (tokens : FMap Nat) : (issued s h regs tokens).errors = s.errors := by
  unfold issued readyWord countIgnored; split <;> rfl
@[simp] theorem issued_errSeq (s : State) (h : Hdr) (regs : FMap (List W64)) (tokens : FMap Nat) : (issued s h regs tokens).errSeq = s.errSeq := by
  unfold issued readyWord countIgnored; split <;> rfl
@[simp] theorem issued_errLost (s : State) (h : Hdr) (regs : FMap (List W64)) (tokens : FMap Nat) : (issued s h regs tokens).errLost = s.errLost := by
  unfold issued readyWord countIgnored; split <;> rfl
@[simp] theorem issued_notifyDue (s : State) (h : Hdr) (regs : FMap (List W64)) (tokens : FMap Nat) : (issued s h regs tokens).notifyDue = s.notifyDue := by
  unfold issued readyWord countIgnored; split <;> rfl
@[simp] theorem issued_mgmt (s : State) (h : Hdr) (regs : FMap (List W64)) (tokens : FMap Nat) : (issued s h regs tokens).mgmt = s.mgmt := by
  unfold issued readyWord countIgnored; split <;> rfl
@[simp] theorem issued_retries (s : State) (h : Hdr) (regs : FMap (List W64)) (tokens : FMap Nat) : (issued s h regs tokens).retries = s.retries := by
  unfold issued readyWord countIgnored; split <;> rfl
@[simp] theorem issued_invalBusy (s : State) (h : Hdr) (regs : FMap (List W64)) (tokens : FMap Nat) : (issued s h regs tokens).invalBusy = s.invalBusy := by
  unfold issued readyWord countIgnored; split <;> rfl
@[simp] theorem issued_migrating (s : State) (h : Hdr) (regs : FMap (List W64)) (tokens : FMap Nat) : (issued s h regs tokens).migrating = s.migrating := by
  unfold issued readyWord countIgnored; split <;> rfl
@[simp] theorem issued_opBusy (s : State) (h : Hdr) (regs : FMap (List W64)) (tokens : FMap Nat) : (issued s h regs tokens).opBusy = s.opBusy := by
  unfold issued readyWord countIgnored; split <;> rfl
@[simp] theorem issued_rowCounts (s : State) (h : Hdr) (regs : FMap (List W64)) (tokens : FMap Nat) : (issued s h regs tokens).rowCounts = s.rowCounts := by
  unfold issued readyWord countIgnored; split <;> rfl
@[simp] theorem issued_modeSet (s : State) (h : Hdr) (regs : FMap (List W64)) (tokens : FMap Nat) : (issued s h regs tokens).modeSet = s.modeSet := by
  unfold issued readyWord countIgnored; split <;> rfl
@[simp] theorem issued_profile (s : State) (h : Hdr) (regs : FMap (List W64)) (tokens : FMap Nat) : (issued s h regs tokens).profile = s.profile := by
  unfold issued readyWord countIgnored; split <;> rfl
@[simp] theorem issued_ordered (s : State) (h : Hdr) (regs : FMap (List W64)) (tokens : FMap Nat) : (issued s h regs tokens).ordered = s.ordered := by
  unfold issued readyWord countIgnored; split <;> rfl
@[simp] theorem issued_capture (s : State) (h : Hdr) (regs : FMap (List W64)) (tokens : FMap Nat) : (issued s h regs tokens).capture = s.capture := by
  unfold issued readyWord countIgnored; split <;> rfl
@[simp] theorem issued_packets (s : State) (h : Hdr) (regs : FMap (List W64)) (tokens : FMap Nat) : (issued s h regs tokens).packets = s.packets := by
  unfold issued readyWord countIgnored; split <;> rfl
@[simp] theorem issued_wire (s : State) (h : Hdr) (regs : FMap (List W64)) (tokens : FMap Nat) : (issued s h regs tokens).wire = s.wire := by
  unfold issued readyWord countIgnored; split <;> rfl
@[simp] theorem issued_awaits (s : State) (h : Hdr) (regs : FMap (List W64)) (tokens : FMap Nat) : (issued s h regs tokens).awaits = s.awaits := by
  unfold issued readyWord countIgnored; split <;> rfl
@[simp] theorem issued_tags (s : State) (h : Hdr) (regs : FMap (List W64)) (tokens : FMap Nat) : (issued s h regs tokens).tags = s.tags := by
  unfold issued readyWord countIgnored; split <;> rfl
@[simp] theorem issued_sentNo (s : State) (h : Hdr) (regs : FMap (List W64)) (tokens : FMap Nat) : (issued s h regs tokens).sentNo = s.sentNo := by
  unfold issued readyWord countIgnored; split <;> rfl
@[simp] theorem issued_arrivedNo (s : State) (h : Hdr) (regs : FMap (List W64)) (tokens : FMap Nat) : (issued s h regs tokens).arrivedNo = s.arrivedNo := by
  unfold issued readyWord countIgnored; split <;> rfl
@[simp] theorem issued_castDone (s : State) (h : Hdr) (regs : FMap (List W64)) (tokens : FMap Nat) : (issued s h regs tokens).castDone = s.castDone := by
  unfold issued readyWord countIgnored; split <;> rfl
@[simp] theorem issued_hostOut (s : State) (h : Hdr) (regs : FMap (List W64)) (tokens : FMap Nat) : (issued s h regs tokens).hostOut = s.hostOut := by
  unfold issued readyWord countIgnored; split <;> rfl
@[simp] theorem issued_hostAnswers (s : State) (h : Hdr) (regs : FMap (List W64)) (tokens : FMap Nat) : (issued s h regs tokens).hostAnswers = s.hostAnswers := by
  unfold issued readyWord countIgnored; split <;> rfl
@[simp] theorem issued_ethOut (s : State) (h : Hdr) (regs : FMap (List W64)) (tokens : FMap Nat) : (issued s h regs tokens).ethOut = s.ethOut := by
  unfold issued readyWord countIgnored; split <;> rfl
@[simp] theorem issued_ready (s : State) (h : Hdr) (regs : FMap (List W64)) (tokens : FMap Nat) : (issued s h regs tokens).ready = s.ready := by
  unfold issued readyWord countIgnored; split <;> rfl
@[simp] theorem issued_bootStage (s : State) (h : Hdr) (regs : FMap (List W64)) (tokens : FMap Nat) : (issued s h regs tokens).bootStage = s.bootStage := by
  unfold issued readyWord countIgnored; split <;> rfl
@[simp] theorem issued_bootCode (s : State) (h : Hdr) (regs : FMap (List W64)) (tokens : FMap Nat) : (issued s h regs tokens).bootCode = s.bootCode := by
  unfold issued readyWord countIgnored; split <;> rfl
@[simp] theorem issued_measure (s : State) (h : Hdr) (regs : FMap (List W64)) (tokens : FMap Nat) : (issued s h regs tokens).measure = s.measure := by
  unfold issued readyWord countIgnored; split <;> rfl
@[simp] theorem issued_atHomes (s : State) (h : Hdr) (regs : FMap (List W64)) (tokens : FMap Nat) : (issued s h regs tokens).atHomes = s.atHomes := by
  unfold issued readyWord countIgnored; split <;> rfl
@[simp] theorem issued_resets (s : State) (h : Hdr) (regs : FMap (List W64)) (tokens : FMap Nat) : (issued s h regs tokens).resets = s.resets := by
  unfold issued readyWord countIgnored; split <;> rfl
@[simp] theorem issued_kept (s : State) (h : Hdr) (regs : FMap (List W64)) (tokens : FMap Nat) : (issued s h regs tokens).kept = s.kept := by
  unfold issued readyWord countIgnored; split <;> rfl
@[simp] theorem issued_reportBusy (s : State) (h : Hdr) (regs : FMap (List W64)) (tokens : FMap Nat) : (issued s h regs tokens).reportBusy = s.reportBusy := by
  unfold issued readyWord countIgnored; split <;> rfl
@[simp] theorem issued_cores (s : State) (h : Hdr) (regs : FMap (List W64)) (tokens : FMap Nat) : (issued s h regs tokens).cores = s.cores := by
  unfold issued readyWord countIgnored; split <;> rfl
@[simp] theorem issued_quarters (s : State) (h : Hdr) (regs : FMap (List W64)) (tokens : FMap Nat) : (issued s h regs tokens).quarters = s.quarters := by
  unfold issued readyWord countIgnored; split <;> rfl
@[simp] theorem issued_agenda (s : State) (h : Hdr) (regs : FMap (List W64)) (tokens : FMap Nat) : (issued s h regs tokens).agenda = s.agenda := by
  unfold issued readyWord countIgnored; split <;> rfl

@[simp] theorem jobOf_issued (s : State) (h : Hdr) (regs : FMap (List W64)) (tokens : FMap Nat) : jobOf (issued s h regs tokens) s.cur = jobOf s s.cur := by
  simp [jobOf]

@[simp] theorem viewOf_issued (s : State) (h : Hdr) (regs : FMap (List W64)) (tokens : FMap Nat) : viewOf (issued s h regs tokens) s.cur = viewOf s s.cur := by
  simp [viewOf]

@[simp] theorem findJob_issued (s : State) (h : Hdr) (regs : FMap (List W64)) (tokens : FMap Nat) (j : Nat) : findJob (issued s h regs tokens) j = findJob s j := by
  simp [findJob]

@[simp] theorem rd_issued (s : State) (h : Hdr) (regs : FMap (List W64)) (tokens : FMap Nat) (r : Reg) (k : Bool) : rd (issued s h regs tokens) r k = rd s r k := by
  simp [rd]

@[simp] theorem dstOf_issued (s : State) (h : Hdr) (regs : FMap (List W64)) (tokens : FMap Nat) (r : Reg) : dstOf (issued s h regs tokens) r = dstOf s r := by
  simp [dstOf]

@[simp] theorem ctxOf_issued (s : State) (h : Hdr) (regs : FMap (List W64)) (tokens : FMap Nat) (a : Agent) : ctxOf (issued s h regs tokens) s.cur a = ctxOf s s.cur a := by
  simp [ctxOf]

/-! ## What a word does, by the outcome of its own effect -/

/-- A word with a trap of its own (R43). -/
theorem issueWord_trap {s : State} {h : Hdr} {n : Need} {vals : List W64} {regs : FMap (List W64)} {tokens : FMap Nat} {cause code : Nat} {addr : W64}
    (hi : Issues s h n vals regs tokens) (i : Instr) (body : List W64 → State → WordOut)
    (hb : body vals (issued s h regs tokens) = .trap cause code addr) :
    issueWord s i h n body = trapAt (countIgnored s h) s.cur i (if n.command then 1 else 0) cause code addr := by
  rw [issueWord_issues hi, hb]; simp [settleWord]

/-- A word that holds. -/
theorem issueWord_hold {s t : State} {h : Hdr} {n : Need} {vals : List W64} {regs : FMap (List W64)} {tokens : FMap Nat}
    (hi : Issues s h n vals regs tokens) (i : Instr) (body : List W64 → State → WordOut)
    (hb : body vals (issued s h regs tokens) = .hold t) : issueWord s i h n body = holdWord (countIgnored t h) s.cur h.stop := by
  rw [issueWord_issues hi, hb]; simp [settleWord]

/-- A word whose read has met an error (R374). -/
theorem issueWord_fail {s t : State} {h : Hdr} {n : Need} {vals : List W64} {regs : FMap (List W64)} {tokens : FMap Nat} {cause : Nat} {addr : W64}
    (hi : Issues s h n vals regs tokens) (i : Instr) (body : List W64 → State → WordOut) (hb : body vals (issued s h regs tokens) = .fail t cause addr) :
    issueWord s i h n body = trapAt (countIgnored t h) s.cur i (if n.command then 1 else 0) cause 0 addr := by
  rw [issueWord_issues hi, hb]; simp [settleWord]

/-- A word after which the record is gone or the pc is set. -/
theorem issueWord_away {s t : State} {h : Hdr} {n : Need} {vals : List W64} {regs : FMap (List W64)} {tokens : FMap Nat}
    (hi : Issues s h n vals regs tokens) (hc : n.command = false) (hw : n.words = 1) (i : Instr) (body : List W64 → State → WordOut)
    (hb : body vals (issued s h regs tokens) = .away t) : issueWord s i h n body = departed s h t := by
  rw [issueWord_issues hi, hb]; simp [settleWord, departed, owedPosts, hc, hw]

/-! ## Where no earlier access is outstanding -/

theorem settled_loads {s : State} (h : Settled s) (n : Nat) : loadsBefore (part s s.cur) n = false := by
  unfold loadsBefore; rw [h.posts]
  simp only [List.any_nil, Bool.or_false, List.any_eq_false]
  intro f hf; rw [h.loads f hf]; simp

theorem settled_stores {s : State} (h : Settled s) (n : Nat) : storesBefore (part s s.cur) n = false := by unfold storesBefore; simp [h.posts]

theorem settled_log {s : State} (h : Settled s) (n : Nat) : logBefore s s.cur n = false := by unfold logBefore; simp [h.logs]

theorem settled_acks {s : State} (h : Settled s) (n k : Nat) : acksBefore s s.cur n k = false := by unfold acksBefore; simp [h.acks]

theorem settled_hr {s : State} (h : Settled s) (n : Nat) : hrBefore s s.cur n = false := by
  have e := h.pools
  simp only [poolsWritten, Bool.not_eq_eq_eq_not, Bool.not_false, List.isEmpty_iff] at e
  simp [hrBefore, e]

theorem settled_unperformed {s : State} (h : Settled s) (n k : Nat) : unperformed s s.cur n k = false := by
  simp [unperformed, writesUnperformed, settled_loads h, settled_stores h, settled_log h, settled_acks h, settled_hr h]

theorem settled_mark {s : State} (h : Settled s) (n : Nat) : markHolds s s.cur n = false := by simp [markHolds, settled_unperformed h]

theorem settled_fence {s : State} (h : Settled s) (n k : Nat) : fenceHolds s s.cur n k = false := settled_unperformed h n k

theorem settled_acquire {s : State} (h : Settled s) (n : Nat) : acquireHolds s s.cur n = false := by
  unfold acquireHolds; rw [h.acks]
  simp only [List.any_nil, Bool.or_false, List.any_eq_false]
  intro f hf; rw [h.loads f hf]; simp

theorem settled_ahead {s : State} (h : Settled s) (n va k : Nat) : writeAhead s s.cur n va k = false := by unfold writeAhead; simp [h.posts, h.logs, h.acks, settled_hr h]

theorem settled_order {s : State} (h : Settled s) (n g r : Nat) : orderHolds s s.cur n g r = false := by
  simp [orderHolds, settled_loads h, settled_acks h, settled_hr h]

theorem settled_busy {s : State} (h : Settled s) : logBusy s (ctxOf s s.cur .control) = false := by unfold logBusy; simp [ctxOf, h.logs]

theorem waitsHome_untested {s : State} (h : slicesTested s = []) (c : Ctx) (va n : Nat) (w : Bool) : waitsHome s c va n w = false := by
  simp [waitsHome, h]

theorem castWaits_untested {s : State} (h : slicesTested s = []) (c : Ctx) (i : OutItem) (n : Nat) : castWaits s c i n = false := by
  unfold castWaits; split <;> simp [waitsHome_untested h]

theorem settled_loadWaits {s : State} (h : Settled s) (n : Nat) (r : LoadReq) : loadWaits s s.cur n r = false := by
  simp [loadWaits, settled_loads h, settled_mark h, settled_acquire h, settled_ahead h, waitsHome_untested h.homes]

/-- A write of the issuing word need not wait. -/
theorem settled_queue {s : State} (h : Settled s) (va : Nat) (op : WriteOp) (hint acc : Nat) (reg : Option Nat) (rel : Nat) :
    mustQueue s (wordEntry s va op hint acc reg rel) = false := by
  have e : (wordEntry s va op hint acc reg rel).ctx.part = s.cur := rfl
  have w : writeHolds s (wordEntry s va op hint acc reg rel) = false := by
    unfold writeHolds; rw [e]
    simp only [wordEntry, settled_acquire h, settled_order h, waitsHome_untested h.homes]; simp
    intro f hf _; rw [h.loads f hf]
  unfold mustQueue; rw [w, e, h.posts]; rfl

@[simp] theorem slicesTested_issued (s : State) (h : Hdr) (regs : FMap (List W64)) (tokens : FMap Nat) :
    slicesTested (issued s h regs tokens) = slicesTested s := by
  unfold issued readyWord countIgnored; split <;> rfl

theorem settled_issued {s : State} (g : Settled s) (h : Hdr) (regs : FMap (List W64)) (tokens : FMap Nat) : Settled (issued s h regs tokens) := by
  obtain ⟨a, b, c, d, e, f⟩ := g
  exact ⟨by simpa using a, by simpa using b, by simpa using c, by simpa using d, by simpa [poolsWritten] using e, by simpa using f⟩

/-! ## Where the job is neither captured nor replayed -/

theorem nextRead_unreplayed {s : State} {p : Nat} (h : ∀ j, findJob s (jobOf s p) = some j → j.replay = false) : nextRead s p = none := by
  unfold nextRead replayItem
  cases e : findJob s (jobOf s p) with
  | none => rfl
  | some j => cases (part s p).resident <;> simp [h j e]

theorem recording_uncaptured {s : State} {p : Nat} (h : s.capture = false) : (recording s p).1 = false := by
  unfold recording; split <;> simp [h]

theorem observe_unrecorded {s : State} (h : Unrecorded s) (addr : Nat) (v : W64) : observe s s.cur addr v = (bumpOrdinal s s.cur, some v) := by
  unfold observe; simp [nextRead_unreplayed h.2, recording_uncaptured h.1]

theorem observeLater_unrecorded {s : State} (h : Unrecorded s) (seq addr : Nat) : observeLater s s.cur seq addr = (bumpOrdinal s s.cur, none) := by
  have e : (recording (bumpOrdinal s s.cur) s.cur).1 = false := recording_uncaptured h.1
  unfold observeLater; simp [nextRead_unreplayed h.2, e]

theorem observedLater_unrecorded {s : State} (h : Unrecorded s) (d : Reg) (va : Nat) (k : State → State) :
    observedLater s d va k = .next (k (bumpOrdinal (fly0 s d .answer) s.cur)) := by
  have e : (part (fly0 s d .answer) s.cur).resident = (part s s.cur).resident := by simp [fly0]
  have g : Unrecorded (fly0 s d .answer) := ⟨h.1, fun j hj => h.2 j (by
    rw [show (fly0 s d .answer).cur = s.cur from rfl, show jobOf (fly0 s d .answer) s.cur = jobOf s s.cur by unfold jobOf; rw [e]] at hj
    exact hj)⟩
  have o := observeLater_unrecorded g (wordSeq s) va
  rw [show (fly0 s d .answer).cur = s.cur from rfl] at o
  unfold observedLater
  rw [o]; simp [nextRead_unreplayed h.2]

theorem unrecorded_issued {s : State} (g : Unrecorded s) (h : Hdr) (regs : FMap (List W64)) (tokens : FMap Nat) : Unrecorded (issued s h regs tokens) := by
  obtain ⟨a, b⟩ := g
  exact ⟨by simpa using a, by simpa using b⟩

/-! ## Plain addresses -/

theorem plain_trap {va n : Nat} (h : Plain va n) (r b m : Bool) : accessTrap va n r b m = none := by
  obtain ⟨h1, h2, h3⟩ := h
  have h5 : isReserved va = false ∧ isRemote va = false ∧ isHost va = false := by
    unfold isHere at h1; unfold isReserved isRemote isHost
    cases hl : locOf va <;> simp [hl] at h1 ⊢
  unfold accessTrap; simp [h3, h2, h5]

theorem plain_loc {va n : Nat} (h : Plain va n) : ∃ q o, locOf va = .here q o ∧ inMgmt o = false := by
  obtain ⟨h1, h2, h3⟩ := h
  unfold isHere at h1; unfold isMgmt at h2
  cases hl : locOf va <;> simp [hl] at h1 h2 ⊢
  exact h2

end Sys2Proof.Machine.Laws
end

