-- ==== Sys2Proof/Laws/Memory.lean ====
section
/-! SUPPORT. Memory: a read after a write, and that every memory operation keeps the canonical form. -/

namespace Sys2Proof.Machine.Laws

open Sys2Proof.Machine.Safety

/-! ## One byte -/

theorem memGet_below : ∀ (m : List Host.Cell) {lo a : Nat}, memWfFrom lo m = true → a < lo → memGet m a = memEmpty
  | [], _, _, _, _ => rfl
  | (a', b) :: r, lo, a, h, ha => by
    simp only [memWfFrom, Bool.and_eq_true, decide_eq_true_eq] at h
    have hne : a ≠ a' := by omega
    simp only [memGet, if_neg hne]
    exact memGet_below r h.2 (by omega)

/-- A read after a write of one byte: the byte at its place, the older byte elsewhere. -/
theorem memGet_memPut : ∀ (m : List Host.Cell) {lo : Nat} (a : Nat) (b : Byte) (j : Nat), memWfFrom lo m = true →
    memGet (memPut m a b) j = if j = a then b else memGet m j
  | [], _, a, b, j, _ => by
    by_cases hb : b = memEmpty <;> by_cases hj : j = a <;> simp [memPut, memGet, hb, hj]
  | (a', b') :: r, lo, a, b, j, h => by
    have h' := h
    simp only [memWfFrom, Bool.and_eq_true, decide_eq_true_eq] at h'
    have ih := memGet_memPut r a b j h'.2
    simp only [memPut]
    split
    · rename_i hlt
      by_cases hb : b = memEmpty
      · by_cases hj : j = a
        · subst hj
          have : memGet ((a', b') :: r) j = memEmpty :=
            memGet_below _ (lo := a') (by simp [memWfFrom, h'.1.2, h'.2]) hlt
          simp [hb, this]
        · simp [hb, hj]
      · by_cases hj : j = a <;> simp [hb, hj, memGet]
    · split
      · rename_i heq; subst heq
        by_cases hb : b = memEmpty
        · by_cases hj : j = a
          · subst hj; simp [hb, memGet_below r h'.2 (Nat.lt_succ_self j)]
          · simp [hb, hj, memGet]
        · by_cases hj : j = a <;> simp [hb, hj, memGet]
      · rename_i hne
        by_cases hj : j = a'
        · subst hj; simp [memGet, Ne.symm hne]
        · simp [memGet, hj, ih]

theorem memWfFrom_mono : ∀ {m : List Host.Cell} {lo lo' : Nat}, lo' ≤ lo → memWfFrom lo m = true → memWfFrom lo' m = true
  | [], _, _, _, _ => rfl
  | (a, b) :: r, lo, lo', hle, h => by
    simp only [memWfFrom, Bool.and_eq_true, decide_eq_true_eq] at h ⊢
    exact ⟨⟨by omega, h.1.2⟩, h.2⟩

theorem memPut_keepsFrom : ∀ {m : List Host.Cell} {lo : Nat} (a : Nat) (b : Byte), lo ≤ a → memWfFrom lo m = true →
    memWfFrom lo (memPut m a b) = true
  | [], lo, a, b, hle, _ => by by_cases hb : b = memEmpty <;> simp [memPut, memWfFrom, hb, hle]
  | (a', b') :: r, lo, a, b, hle, h => by
    have h' := h
    simp only [memWfFrom, Bool.and_eq_true, decide_eq_true_eq] at h'
    simp only [memPut]
    split
    · by_cases hb : b = memEmpty
      · simpa [hb] using h
      · simp [memWfFrom, hb, hle, h'.1.2, h'.2]; omega
    · split
      · rename_i heq; subst heq
        by_cases hb : b = memEmpty
        · simpa [hb] using memWfFrom_mono (by omega) h'.2
        · simp [memWfFrom, hb, hle, h'.2]
      · simp only [memWfFrom, Bool.and_eq_true, decide_eq_true_eq]
        exact ⟨h'.1, memPut_keepsFrom a b (by omega) h'.2⟩

/-- A write of one byte keeps the canonical form. -/
theorem memPut_wf {m : List Host.Cell} (a : Nat) (b : Byte) (h : Memory.wf m = true) : Memory.wf (memPut m a b) = true :=
  memPut_keepsFrom a b (Nat.zero_le a) h

/-- A write of bytes keeps the canonical form. -/
theorem memPutAll_wf : ∀ (bs : List Byte) {m : List Host.Cell} (a : Nat), Memory.wf m = true → Memory.wf (memPutAll m a bs) = true
  | [], _, _, h => h
  | b :: r, _, a, h => memPutAll_wf r (a + 1) (memPut_wf a b h)

/-- A read after a write of bytes. -/
theorem memGet_memPutAll : ∀ (bs : List Byte) {m : List Host.Cell} (a j : Nat), Memory.wf m = true →
    memGet (memPutAll m a bs) j = if a ≤ j ∧ j < a + bs.length then bs.getD (j - a) 0 else memGet m j
  | [], m, a, j, _ => by
    rw [if_neg (by simp)]; rfl
  | b :: r, m, a, j, h => by
    rw [memPutAll, memGet_memPutAll r (a + 1) j (memPut_wf a b h), memGet_memPut m a b j (lo := 0) h]
    by_cases h1 : j = a
    · subst h1
      rw [if_neg (by omega), if_pos rfl, if_pos (by simp)]; simp
    · by_cases h2 : a + 1 ≤ j ∧ j < a + 1 + r.length
      · have h3 : a ≤ j ∧ j < a + (b :: r).length := by simp; omega
        obtain ⟨k, hk⟩ : ∃ k, j = a + 1 + k := ⟨j - (a + 1), by omega⟩
        rw [if_pos h2, if_pos h3]; subst hk
        have : a + 1 + k - a = k + 1 := by omega
        have e : a + 1 + k - (a + 1) = k := by omega
        rw [this, e]; rfl
      · have h3 : ¬(a ≤ j ∧ j < a + (b :: r).length) := by simp; omega
        rw [if_neg h2, if_neg h3, if_neg h1]

/-- Dropping cells keeps the canonical form. -/
theorem filter_wf (f : Host.Cell → Bool) : ∀ {m : List Host.Cell} {lo : Nat}, memWfFrom lo m = true → memWfFrom lo (m.filter f) = true
  | [], _, _ => rfl
  | (a, b) :: r, lo, h => by
    simp only [memWfFrom, Bool.and_eq_true, decide_eq_true_eq] at h
    have ih := filter_wf f h.2
    simp only [List.filter]
    split
    · simp [memWfFrom, h.1.1, ih]; simpa using h.1.2
    · exact memWfFrom_mono (by omega) ih

/-! ## The operations on the state -/

/-- Whether an operation keeps the canonical form of memory. -/
def Keeps (f : State → State) : Prop := ∀ s, MemoryCanonical s → MemoryCanonical (f s)

/-- What leaves memory as it is keeps the form. -/
theorem canonical_of_mem {s t : State} (e : t.mem = s.mem) (h : MemoryCanonical s) : MemoryCanonical t := by
  rw [MemoryCanonical, e]; exact h

theorem foldl_keeps {α : Type} {f : State → α → State} (hf : ∀ s a, MemoryCanonical s → MemoryCanonical (f s a)) :
    ∀ (l : List α) (s : State), MemoryCanonical s → MemoryCanonical (l.foldl f s)
  | [], _, h => h
  | a :: l, s, h => foldl_keeps hf l (f s a) (hf s a h)

/-- An operation that leaves memory alone at each step leaves it alone. -/
theorem foldl_mem {α : Type} {f : State → α → State} (hf : ∀ s a, (f s a).mem = s.mem) : ∀ (l : List α) (s : State), (l.foldl f s).mem = s.mem
  | [], _ => rfl
  | a :: l, s => (foldl_mem hf l (f s a)).trans (hf s a)

theorem putSector_keeps (s : State) (pa : Nat) (bs : List Byte) (hint : Nat) (h : MemoryCanonical s) :
    MemoryCanonical (putSector s pa bs hint) := by
  have h' := memPutAll_wf bs pa h
  by_cases hl : bs.length = 32 <;> simp only [putSector, hl, ↓reduceIte] <;> split
  all_goals first | exact h | (split <;> first | exact h | exact h')

theorem writeBack_keeps (s : State) (sec : Nat) (h : MemoryCanonical s) : MemoryCanonical (writeBack s sec) := by
  unfold writeBack; split
  · split
    · exact memPutAll_wf _ _ h
    · exact h
  · exact h

theorem dropSector_keeps (s : State) (sec : Nat) (h : MemoryCanonical s) : MemoryCanonical (dropSector s sec) := h

theorem appendError_mem (s : State) (u v k : Nat) (a d : W64) : (appendError s u v k a d).mem = s.mem := by
  unfold appendError; split <;> rfl

theorem mbump_mem (s : State) (q off w : Nat) : (mbump s q off w).mem = s.mem := by simp only [mbump]; split <;> rfl

theorem recordReady_mem (s : State) (q a : Nat) : (recordReady s q a).mem = s.mem := by
  unfold recordReady; split
  · split
    · rfl
    · split
      · rfl
      · simp only; split <;> rfl
  · rfl

theorem recordBad_mem (s : State) (pa d : Nat) : (recordBad s pa d).mem = s.mem := by
  simp only [recordBad]; repeat' split
  all_goals simp [mbump_mem, appendError_mem]

theorem meetError_mem (s : State) (q pte pa : Nat) : (meetError s q pte pa).1.mem = s.mem := by
  simp only [meetError]; split <;> simp [mbump_mem, recordBad_mem]

/-! ## Cache lines and translations -/

theorem fillSector_mem (s : State) (pa : Nat) : (fillSector s pa).mem = s.mem := by unfold fillSector; split <;> rfl

theorem useMsc_mem (s : State) (pa hint : Nat) : (useMsc s pa hint).mem = s.mem := by
  simp only [useMsc]; repeat' split
  all_goals rfl

theorem useVirt_mem (s : State) (key pa hint : Nat) : (useVirt s key pa hint).mem = s.mem := by
  unfold useVirt; repeat' split
  all_goals rfl

theorem keepBehind_mem (s : State) (pa : Nat) : (keepBehind s pa).mem = s.mem := by simp only [keepBehind]; split <;> rfl

theorem useLevels_mem (s : State) (ls : List Nat) (asid line pa hint view : Nat) : (useLevels s ls asid line pa hint view).mem = s.mem := by
  unfold useLevels; rw [useMsc_mem, foldl_mem (fun s l => useVirt_mem s _ _ _)]
  split
  · rfl
  · exact fillSector_mem s pa

theorem noteLeaf_mem (s : State) (q asid off : Nat) : (noteLeaf s q asid off).mem = s.mem := by
  have h : ∀ (l : List Nat) (s : State), (l.foldl (fun s a => if unreadable s a then recordBad s a 0
      else if backed s (a / 8 * 8) 8 then useMsc (fillSector s a) a 0 else s) s).mem = s.mem := fun l s =>
    foldl_mem (fun s a => by split
                             · exact recordBad_mem s a 0
                             · split
                               · rw [useMsc_mem, fillSector_mem]
                               · rfl) l s
  unfold noteLeaf; dsimp only
  split
  · rfl
  · split
    · rfl
    · split
      · exact h _ s
      · exact h _ s

theorem releaseLine_keeps (s : State) (line : Nat) (h : MemoryCanonical s) : MemoryCanonical (releaseLine s line) := by
  unfold releaseLine; split
  · exact h
  · exact foldl_keeps (fun s i hs => dropSector_keeps _ _ (writeBack_keeps s _ hs)) _ s h

theorem dropBehind_keeps (s : State) (asid q off pte : Nat) (h : MemoryCanonical s) : MemoryCanonical (dropBehind s asid q off pte) := by
  refine foldl_keeps (fun s v hs => releaseLine_keeps _ _ ?_) _ s h
  exact hs

theorem physPut_keeps (s : State) (pa : Nat) (bs : List Byte) (h : MemoryCanonical s) : MemoryCanonical (physPut s pa bs) := by
  unfold physPut
  refine foldl_keeps (fun s x hs => ?_) _ s h
  rw [MemoryCanonical, useMsc_mem]
  refine putSector_keeps _ _ _ _ ?_
  rw [MemoryCanonical, keepBehind_mem]
  exact hs

theorem replicaPut_keeps (s : State) (pa : Nat) (bs : List Byte) (h : MemoryCanonical s) : MemoryCanonical (replicaPut s pa bs) :=
  putSector_keeps _ _ _ _ (canonical_of_mem (keepBehind_mem s pa) h)

theorem mendSector_keeps (s : State) (pte pa : Nat) (h : MemoryCanonical s) : MemoryCanonical (mendSector s pte pa) := by
  unfold mendSector; split
  · exact memPutAll_wf _ _ h
  · exact h

theorem poolFill_keeps (s : State) (pa : Nat) (bs : List Byte) (h : MemoryCanonical s) : MemoryCanonical (poolFill s pa bs) := memPutAll_wf _ _ h

theorem fillReplica_keeps (s : State) (h asid q off pte : Nat) (hs : MemoryCanonical s) : MemoryCanonical (fillReplica s h asid q off pte) := by
  simp only [fillReplica]; split
  · exact hs
  · exact canonical_of_mem rfl (foldl_keeps (fun t i ht => replicaPut_keeps t _ _ ht) _ s hs)

theorem fireMonitor_mem (s : State) (m : Monitor) : (fireMonitor s m).mem = s.mem := by
  unfold fireMonitor
  cases m.owner with
  | part p => rfl
  | record a => simp [List.range, List.range.loop, recordReady_mem]
  | remote d t => rfl

theorem fireLine_keeps (s : State) (pa : Nat) (h : MemoryCanonical s) : MemoryCanonical (fireLine s pa) :=
  foldl_keeps (fun s m hs => canonical_of_mem (fireMonitor_mem s m) hs) _ s h

/-- What a read of a failing sector answers leaves memory as it is (R77, R281). -/
theorem metError_mem (s : State) (q pte pa n : Nat) : ((match meetError s q pte pa with
    | (s, some b) => (s, .ok ((b.drop (pa % 32)).take n))
    | (s, none) => (s, .error (.bad pa))) : State × Except MemErr (List Byte)).1.mem = s.mem := by
  have h1 := meetError_mem s q pte pa
  split <;> rename_i e <;> rw [e] at h1 <;> exact h1

theorem readBase_keeps (s : State) (c : Ctx) (q off pte n hint : Nat) (h : MemoryCanonical s) :
    MemoryCanonical (readBase s c q off pte n hint).1 := by
  unfold readBase; dsimp only
  split
  · exact canonical_of_mem (metError_mem _ _ _ _ _) h
  · refine canonical_of_mem (useLevels_mem _ _ _ _ _ _ _) ?_
    split
    · exact fillReplica_keeps _ _ _ _ _ _ h
    · exact h

theorem readOverlay_mem (s : State) (c : Ctx) (u : Nat) (l : OverlayLine) (q off pte n hint : Nat) :
    (readOverlay s c u l q off pte n hint).1.mem = s.mem := by
  unfold readOverlay; dsimp only
  repeat' split
  · rfl
  · rename_i e; have := meetError_mem s q pte (l.pa + off % 128); rw [e] at this; exact this
  · rename_i e; have := meetError_mem s q pte (l.pa + off % 128); rw [e] at this; exact this
  · exact useLevels_mem _ _ _ _ _ _ _

theorem readPiece_keeps (s : State) (c : Ctx) (va n hint : Nat) (h : MemoryCanonical s) : MemoryCanonical (readPiece s c va n hint).1 := by
  have hn (q asid off : Nat) : MemoryCanonical (noteLeaf s q asid off) := canonical_of_mem (noteLeaf_mem s q asid off) h
  unfold readPiece
  split
  · split
    · split
      · dsimp only; split
        · exact h
        · exact canonical_of_mem (foldl_mem (fun s l => useVirt_mem s _ _ _) _ s) h
      · split
        · exact hn _ _ _
        · exact canonical_of_mem (readOverlay_mem _ _ _ _ _ _ _ _ _) (hn _ _ _)
      · split
        · exact hn _ _ _
        · exact readBase_keeps _ _ _ _ _ _ _ (hn _ _ _)
    · exact h
    · exact h
  · exact h

theorem readPieces_keeps : ∀ (l : List (Nat × Nat)) (s : State) (c : Ctx) (hint : Nat), MemoryCanonical s → MemoryCanonical (readPieces s c hint l).1
  | [], _, _, _, h => h
  | (va, n) :: r, s, c, hint, h => by
    have h1 := readPiece_keeps s c va n hint h
    unfold readPieces
    split
    · rename_i e; rw [e] at h1; exact h1
    · rename_i s' b e
      rw [e] at h1
      have h2 := readPieces_keeps r s' c hint h1
      split <;> rename_i e2 <;> rw [e2] at h2 <;> exact h2

/-- A read keeps the canonical form: it may fill a replica (R289). -/
theorem readVa_keeps (s : State) (c : Ctx) (va n hint : Nat) (h : MemoryCanonical s) : MemoryCanonical (readVa s c va n hint).1 :=
  readPieces_keeps _ s c hint h

theorem copyLine_keeps (s : State) (c : Ctx) (q off pte : Nat) (h : MemoryCanonical s) : MemoryCanonical (copyLine s c q off pte).1 := by
  have folds {f : State × Except MemErr (List Byte) → Nat → State × Except MemErr (List Byte)}
      (hf : ∀ x i, MemoryCanonical x.1 → MemoryCanonical (f x i).1) :
      ∀ (l : List Nat) (x : State × Except MemErr (List Byte)), MemoryCanonical x.1 → MemoryCanonical (l.foldl f x).1 := by
    intro l
    induction l with
    | nil => exact fun _ hx => hx
    | cons i l ih => exact fun x hx => ih _ (hf x i hx)
  refine folds ?_ _ (s, .ok []) h
  rintro ⟨t, x⟩ i ht
  cases x with
  | error e => exact ht
  | ok b =>
    dsimp only
    cases overlayFind t c.view (lineOf q off) with
    | none =>
      have hr := readBase_keeps t { c with home := some q } q (off / 128 * 128 + 32 * i) pte 32 3 ht
      dsimp only; split <;> rename_i e <;> rw [e] at hr <;> exact hr
    | some x =>
      have hr := canonical_of_mem (readOverlay_mem t { c with home := some q } x.1 x.2 q (off / 128 * 128 + 32 * i) pte 32 3) ht
      dsimp only; split <;> rename_i e <;> rw [e] at hr <;> exact hr

theorem linePut_keeps (s : State) (c : Ctx) (q off pte : Nat) (l : OverlayLine) (bs : List Byte) (hint : Nat) (h : MemoryCanonical s) :
    MemoryCanonical (linePut s c q off pte l bs hint) := by
  simp only [linePut]; split
  · exact h
  · exact canonical_of_mem (useLevels_mem _ _ _ _ _ _ _) (putSector_keeps _ _ _ _ (mendSector_keeps _ _ _ h))

theorem overlayWrite_keeps (s : State) (c : Ctx) (q off pte va : Nat) (bs : List Byte) (hint : Nat) (h : MemoryCanonical s) :
    MemoryCanonical (overlayWrite s c q off pte va bs hint).1 := by
  unfold overlayWrite
  split
  · exact h
  · dsimp only
    split
    · exact canonical_of_mem rfl (linePut_keeps _ _ _ _ _ _ _ _ h)
    · split
      · exact h
      · split
        · exact h
        · have h1 := copyLine_keeps s c q off pte h
          split <;> rename_i e <;> rw [e] at h1
          · exact h1
          · exact canonical_of_mem rfl (linePut_keeps _ _ _ _ _ _ _ _ (poolFill_keeps _ _ _ h1))

theorem writeBase_keeps (s : State) (c : Ctx) (q off pte : Nat) (bs : List Byte) (hint : Nat) (h : MemoryCanonical s) :
    MemoryCanonical (writeBase s c q off pte bs hint) := by
  unfold writeBase; dsimp only
  refine canonical_of_mem (useLevels_mem _ _ _ _ _ _ _) (putSector_keeps _ _ _ _ (canonical_of_mem (keepBehind_mem _ _) ?_))
  exact foldl_keeps (fun s r hs => replicaPut_keeps _ _ _ (mendSector_keeps _ _ _ hs)) _ _ (dropBehind_keeps _ _ _ _ _ (mendSector_keeps _ _ _ h))

theorem writePiece_keeps (s : State) (c : Ctx) (va : Nat) (bs : List Byte) (hint : Nat) (first : Bool) (h : MemoryCanonical s) :
    MemoryCanonical (writePiece s c va bs hint first).1 := by
  have hn (q asid off : Nat) : MemoryCanonical (noteLeaf s q asid off) := canonical_of_mem (noteLeaf_mem s q asid off) h
  unfold writePiece
  split
  · split
    · split
      · exact hn _ _ _
      · simp only
        split
        · split
          · rename_i e
            have h1 := congrArg (fun x => x.1.mem) e
            refine fireLine_keeps _ _ (canonical_of_mem h1.symm (overlayWrite_keeps _ _ _ _ _ _ _ _ (hn _ _ _)))
          · exact overlayWrite_keeps _ _ _ _ _ _ _ _ (hn _ _ _)
        · exact fireLine_keeps _ _ (writeBase_keeps _ _ _ _ _ _ _ (hn _ _ _))
    · split
      · exact canonical_of_mem (mbump_mem _ _ _ _) h
      · exact h
    · exact h
    · exact h
  · exact h

theorem writePieces_keeps : ∀ (l : List (Nat × Nat)) (s : State) (c : Ctx) (bs : List Byte) (hint va0 : Nat), MemoryCanonical s →
    MemoryCanonical (writePieces s c bs hint va0 l).1
  | [], _, _, _, _, _, h => h
  | (va, n) :: r, s, c, bs, hint, va0, h => by
    have h1 := writePiece_keeps s c va ((bs.drop (va - va0)).take n) hint (va == va0) h
    unfold writePieces
    split
    · rename_i e; rw [e] at h1; exact h1
    · rename_i e; rw [e] at h1; exact writePieces_keeps r _ c bs hint va0 h1

/-- A write keeps the canonical form. -/
theorem writeVa_keeps (s : State) (c : Ctx) (va : Nat) (bs : List Byte) (hint : Nat) (h : MemoryCanonical s) :
    MemoryCanonical (writeVa s c va bs hint).1 := writePieces_keeps _ s c bs hint va h

end Sys2Proof.Machine.Laws
end

