-- ==== Sys2Proof/Laws/PerInstr.lean ====
section
/-! SUPPORT. Every instruction's words fit: each first word has 32 bits, and an extension word leaves bits [31:28] zero (R11, R33). -/

namespace Sys2Proof.Laws.Words

set_option Elab.async false

/-- The words of an instruction fit (R11, R33). -/
def Statement (i : Instr) : Prop := encode0 i < 2 ^ 32 ∧ ∀ w ∈ encodeExt i, w < 2 ^ 28

/-- The header bits are bits [31:27] (R11). -/
theorem encHdr_le (h : Hdr) : encHdr h ≤ 4160749568 := by
  have h1 := h.wp.toNat_lt; have h2 := h.sp.toNat_lt; have h3 := h.wn.toNat_lt; have h4 := h.sn.toNat_lt; have h5 := h.stop.toNat_lt
  simp only [encHdr]; omega

theorem add (h : Hdr) (d a b : Reg) (ka kb : Bool) : Statement (.add h d a b ka kb) := by
  have h0 := encHdr_le h; have h1 := d.isLt; have h2 := a.isLt; have h3 := b.isLt; have h4 := ka.toNat_lt; have h5 := kb.toNat_lt
  simp [Statement, encode0, encodeExt]; omega

theorem sub (h : Hdr) (d a b : Reg) (ka kb : Bool) : Statement (.sub h d a b ka kb) := by
  have h0 := encHdr_le h; have h1 := d.isLt; have h2 := a.isLt; have h3 := b.isLt; have h4 := ka.toNat_lt; have h5 := kb.toNat_lt
  simp [Statement, encode0, encodeExt]; omega

theorem and (h : Hdr) (d a b : Reg) (ka kb : Bool) : Statement (.and h d a b ka kb) := by
  have h0 := encHdr_le h; have h1 := d.isLt; have h2 := a.isLt; have h3 := b.isLt; have h4 := ka.toNat_lt; have h5 := kb.toNat_lt
  simp [Statement, encode0, encodeExt]; omega

theorem or (h : Hdr) (d a b : Reg) (ka kb : Bool) : Statement (.or h d a b ka kb) := by
  have h0 := encHdr_le h; have h1 := d.isLt; have h2 := a.isLt; have h3 := b.isLt; have h4 := ka.toNat_lt; have h5 := kb.toNat_lt
  simp [Statement, encode0, encodeExt]; omega

theorem xor (h : Hdr) (d a b : Reg) (ka kb : Bool) : Statement (.xor h d a b ka kb) := by
  have h0 := encHdr_le h; have h1 := d.isLt; have h2 := a.isLt; have h3 := b.isLt; have h4 := ka.toNat_lt; have h5 := kb.toNat_lt
  simp [Statement, encode0, encodeExt]; omega

theorem andn (h : Hdr) (d a b : Reg) (ka kb : Bool) : Statement (.andn h d a b ka kb) := by
  have h0 := encHdr_le h; have h1 := d.isLt; have h2 := a.isLt; have h3 := b.isLt; have h4 := ka.toNat_lt; have h5 := kb.toNat_lt
  simp [Statement, encode0, encodeExt]; omega

theorem sll (h : Hdr) (d a b : Reg) (ka kb : Bool) : Statement (.sll h d a b ka kb) := by
  have h0 := encHdr_le h; have h1 := d.isLt; have h2 := a.isLt; have h3 := b.isLt; have h4 := ka.toNat_lt; have h5 := kb.toNat_lt
  simp [Statement, encode0, encodeExt]; omega

theorem srl (h : Hdr) (d a b : Reg) (ka kb : Bool) : Statement (.srl h d a b ka kb) := by
  have h0 := encHdr_le h; have h1 := d.isLt; have h2 := a.isLt; have h3 := b.isLt; have h4 := ka.toNat_lt; have h5 := kb.toNat_lt
  simp [Statement, encode0, encodeExt]; omega

theorem sra (h : Hdr) (d a b : Reg) (ka kb : Bool) : Statement (.sra h d a b ka kb) := by
  have h0 := encHdr_le h; have h1 := d.isLt; have h2 := a.isLt; have h3 := b.isLt; have h4 := ka.toNat_lt; have h5 := kb.toNat_lt
  simp [Statement, encode0, encodeExt]; omega

theorem rol (h : Hdr) (d a b : Reg) (ka kb : Bool) : Statement (.rol h d a b ka kb) := by
  have h0 := encHdr_le h; have h1 := d.isLt; have h2 := a.isLt; have h3 := b.isLt; have h4 := ka.toNat_lt; have h5 := kb.toNat_lt
  simp [Statement, encode0, encodeExt]; omega

theorem min (h : Hdr) (d a b : Reg) (ka kb : Bool) : Statement (.min h d a b ka kb) := by
  have h0 := encHdr_le h; have h1 := d.isLt; have h2 := a.isLt; have h3 := b.isLt; have h4 := ka.toNat_lt; have h5 := kb.toNat_lt
  simp [Statement, encode0, encodeExt]; omega

theorem max (h : Hdr) (d a b : Reg) (ka kb : Bool) : Statement (.max h d a b ka kb) := by
  have h0 := encHdr_le h; have h1 := d.isLt; have h2 := a.isLt; have h3 := b.isLt; have h4 := ka.toNat_lt; have h5 := kb.toNat_lt
  simp [Statement, encode0, encodeExt]; omega

theorem minu (h : Hdr) (d a b : Reg) (ka kb : Bool) : Statement (.minu h d a b ka kb) := by
  have h0 := encHdr_le h; have h1 := d.isLt; have h2 := a.isLt; have h3 := b.isLt; have h4 := ka.toNat_lt; have h5 := kb.toNat_lt
  simp [Statement, encode0, encodeExt]; omega

theorem maxu (h : Hdr) (d a b : Reg) (ka kb : Bool) : Statement (.maxu h d a b ka kb) := by
  have h0 := encHdr_le h; have h1 := d.isLt; have h2 := a.isLt; have h3 := b.isLt; have h4 := ka.toNat_lt; have h5 := kb.toNat_lt
  simp [Statement, encode0, encodeExt]; omega

theorem slt (h : Hdr) (d a b : Reg) (ka kb : Bool) : Statement (.slt h d a b ka kb) := by
  have h0 := encHdr_le h; have h1 := d.isLt; have h2 := a.isLt; have h3 := b.isLt; have h4 := ka.toNat_lt; have h5 := kb.toNat_lt
  simp [Statement, encode0, encodeExt]; omega

theorem sltu (h : Hdr) (d a b : Reg) (ka kb : Bool) : Statement (.sltu h d a b ka kb) := by
  have h0 := encHdr_le h; have h1 := d.isLt; have h2 := a.isLt; have h3 := b.isLt; have h4 := ka.toNat_lt; have h5 := kb.toNat_lt
  simp [Statement, encode0, encodeExt]; omega

theorem mul (h : Hdr) (d a b : Reg) (ka kb : Bool) : Statement (.mul h d a b ka kb) := by
  have h0 := encHdr_le h; have h1 := d.isLt; have h2 := a.isLt; have h3 := b.isLt; have h4 := ka.toNat_lt; have h5 := kb.toNat_lt
  simp [Statement, encode0, encodeExt]; omega

theorem mulh (h : Hdr) (d a b : Reg) (ka kb : Bool) : Statement (.mulh h d a b ka kb) := by
  have h0 := encHdr_le h; have h1 := d.isLt; have h2 := a.isLt; have h3 := b.isLt; have h4 := ka.toNat_lt; have h5 := kb.toNat_lt
  simp [Statement, encode0, encodeExt]; omega

theorem mulhu (h : Hdr) (d a b : Reg) (ka kb : Bool) : Statement (.mulhu h d a b ka kb) := by
  have h0 := encHdr_le h; have h1 := d.isLt; have h2 := a.isLt; have h3 := b.isLt; have h4 := ka.toNat_lt; have h5 := kb.toNat_lt
  simp [Statement, encode0, encodeExt]; omega

theorem div (h : Hdr) (d a b : Reg) (ka kb : Bool) : Statement (.div h d a b ka kb) := by
  have h0 := encHdr_le h; have h1 := d.isLt; have h2 := a.isLt; have h3 := b.isLt; have h4 := ka.toNat_lt; have h5 := kb.toNat_lt
  simp [Statement, encode0, encodeExt]; omega

theorem divu (h : Hdr) (d a b : Reg) (ka kb : Bool) : Statement (.divu h d a b ka kb) := by
  have h0 := encHdr_le h; have h1 := d.isLt; have h2 := a.isLt; have h3 := b.isLt; have h4 := ka.toNat_lt; have h5 := kb.toNat_lt
  simp [Statement, encode0, encodeExt]; omega

theorem rem (h : Hdr) (d a b : Reg) (ka kb : Bool) : Statement (.rem h d a b ka kb) := by
  have h0 := encHdr_le h; have h1 := d.isLt; have h2 := a.isLt; have h3 := b.isLt; have h4 := ka.toNat_lt; have h5 := kb.toNat_lt
  simp [Statement, encode0, encodeExt]; omega

theorem remu (h : Hdr) (d a b : Reg) (ka kb : Bool) : Statement (.remu h d a b ka kb) := by
  have h0 := encHdr_le h; have h1 := d.isLt; have h2 := a.isLt; have h3 := b.isLt; have h4 := ka.toNat_lt; have h5 := kb.toNat_lt
  simp [Statement, encode0, encodeExt]; omega

theorem clz (h : Hdr) (d a : Reg) (ka : Bool) : Statement (.clz h d a ka) := by
  have h0 := encHdr_le h; have h1 := d.isLt; have h2 := a.isLt; have h3 := ka.toNat_lt
  simp [Statement, encode0, encodeExt]; omega

theorem ctz (h : Hdr) (d a : Reg) (ka : Bool) : Statement (.ctz h d a ka) := by
  have h0 := encHdr_le h; have h1 := d.isLt; have h2 := a.isLt; have h3 := ka.toNat_lt
  simp [Statement, encode0, encodeExt]; omega

theorem popc (h : Hdr) (d a : Reg) (ka : Bool) : Statement (.popc h d a ka) := by
  have h0 := encHdr_le h; have h1 := d.isLt; have h2 := a.isLt; have h3 := ka.toNat_lt
  simp [Statement, encode0, encodeExt]; omega

theorem sext (h : Hdr) (d a b : Reg) (ka kb : Bool) : Statement (.sext h d a b ka kb) := by
  have h0 := encHdr_le h; have h1 := d.isLt; have h2 := a.isLt; have h3 := b.isLt; have h4 := ka.toNat_lt; have h5 := kb.toNat_lt
  simp [Statement, encode0, encodeExt]; omega

theorem zext (h : Hdr) (d a b : Reg) (ka kb : Bool) : Statement (.zext h d a b ka kb) := by
  have h0 := encHdr_le h; have h1 := d.isLt; have h2 := a.isLt; have h3 := b.isLt; have h4 := ka.toNat_lt; have h5 := kb.toNat_lt
  simp [Statement, encode0, encodeExt]; omega

theorem sel (h : Hdr) (d a b : Reg) (ka kb : Bool) : Statement (.sel h d a b ka kb) := by
  have h0 := encHdr_le h; have h1 := d.isLt; have h2 := a.isLt; have h3 := b.isLt; have h4 := ka.toNat_lt; have h5 := kb.toNat_lt
  simp [Statement, encode0, encodeExt]; omega

theorem addi (h : Hdr) (d a : Reg) (ka : Bool) (imm : BitVec 10) : Statement (.addi h d a ka imm) := by
  have h0 := encHdr_le h; have h1 := d.isLt; have h2 := a.isLt; have h3 := ka.toNat_lt; have h4 := imm.isLt
  simp [Statement, encode0, encodeExt]; omega

theorem andi (h : Hdr) (d a : Reg) (ka : Bool) (imm : BitVec 10) : Statement (.andi h d a ka imm) := by
  have h0 := encHdr_le h; have h1 := d.isLt; have h2 := a.isLt; have h3 := ka.toNat_lt; have h4 := imm.isLt
  simp [Statement, encode0, encodeExt]; omega

theorem ori (h : Hdr) (d a : Reg) (ka : Bool) (imm : BitVec 10) : Statement (.ori h d a ka imm) := by
  have h0 := encHdr_le h; have h1 := d.isLt; have h2 := a.isLt; have h3 := ka.toNat_lt; have h4 := imm.isLt
  simp [Statement, encode0, encodeExt]; omega

theorem xori (h : Hdr) (d a : Reg) (ka : Bool) (imm : BitVec 10) : Statement (.xori h d a ka imm) := by
  have h0 := encHdr_le h; have h1 := d.isLt; have h2 := a.isLt; have h3 := ka.toNat_lt; have h4 := imm.isLt
  simp [Statement, encode0, encodeExt]; omega

theorem slli (h : Hdr) (d a : Reg) (ka : Bool) (sh : BitVec 6) : Statement (.slli h d a ka sh) := by
  have h0 := encHdr_le h; have h1 := d.isLt; have h2 := a.isLt; have h3 := ka.toNat_lt; have h4 := sh.isLt
  simp [Statement, encode0, encodeExt]; omega

theorem srli (h : Hdr) (d a : Reg) (ka : Bool) (sh : BitVec 6) : Statement (.srli h d a ka sh) := by
  have h0 := encHdr_le h; have h1 := d.isLt; have h2 := a.isLt; have h3 := ka.toNat_lt; have h4 := sh.isLt
  simp [Statement, encode0, encodeExt]; omega

theorem srai (h : Hdr) (d a : Reg) (ka : Bool) (sh : BitVec 6) : Statement (.srai h d a ka sh) := by
  have h0 := encHdr_le h; have h1 := d.isLt; have h2 := a.isLt; have h3 := ka.toNat_lt; have h4 := sh.isLt
  simp [Statement, encode0, encodeExt]; omega

theorem slti (h : Hdr) (d a : Reg) (ka : Bool) (imm : BitVec 9) : Statement (.slti h d a ka imm) := by
  have h0 := encHdr_le h; have h1 := d.isLt; have h2 := a.isLt; have h3 := ka.toNat_lt; have h4 := imm.isLt
  simp [Statement, encode0, encodeExt]; omega

theorem seqi (h : Hdr) (d a : Reg) (ka : Bool) (imm : BitVec 9) : Statement (.seqi h d a ka imm) := by
  have h0 := encHdr_le h; have h1 := d.isLt; have h2 := a.isLt; have h3 := ka.toNat_lt; have h4 := imm.isLt
  simp [Statement, encode0, encodeExt]; omega

theorem li (h : Hdr) (d : Reg) (imm : BitVec 16) : Statement (.li h d imm) := by
  have h0 := encHdr_le h; have h1 := d.isLt; have h2 := imm.isLt
  simp [Statement, encode0, encodeExt]; omega

theorem lih (h : Hdr) (d : Reg) (hi : BitVec 16) (mid : BitVec 28) (lo : BitVec 20) : Statement (.lih h d hi mid lo) := by
  have h0 := encHdr_le h; have h1 := d.isLt; have h2 := hi.isLt; have h3 := mid.isLt; have h4 := lo.isLt
  simp [Statement, encode0, encodeExt]; omega

theorem apc (h : Hdr) (d : Reg) (imm : BitVec 16) : Statement (.apc h d imm) := by
  have h0 := encHdr_le h; have h1 := d.isLt; have h2 := imm.isLt
  simp [Statement, encode0, encodeExt]; omega

theorem beq (h : Hdr) (a b : Reg) (off : BitVec 8) : Statement (.beq h a b off) := by
  have h0 := encHdr_le h; have h1 := a.isLt; have h2 := b.isLt; have h3 := off.isLt
  simp [Statement, encode0, encodeExt]; omega

theorem bne (h : Hdr) (a b : Reg) (off : BitVec 8) : Statement (.bne h a b off) := by
  have h0 := encHdr_le h; have h1 := a.isLt; have h2 := b.isLt; have h3 := off.isLt
  simp [Statement, encode0, encodeExt]; omega

theorem blt (h : Hdr) (a b : Reg) (off : BitVec 8) : Statement (.blt h a b off) := by
  have h0 := encHdr_le h; have h1 := a.isLt; have h2 := b.isLt; have h3 := off.isLt
  simp [Statement, encode0, encodeExt]; omega

theorem bge (h : Hdr) (a b : Reg) (off : BitVec 8) : Statement (.bge h a b off) := by
  have h0 := encHdr_le h; have h1 := a.isLt; have h2 := b.isLt; have h3 := off.isLt
  simp [Statement, encode0, encodeExt]; omega

theorem bltu (h : Hdr) (a b : Reg) (off : BitVec 8) : Statement (.bltu h a b off) := by
  have h0 := encHdr_le h; have h1 := a.isLt; have h2 := b.isLt; have h3 := off.isLt
  simp [Statement, encode0, encodeExt]; omega

theorem bgeu (h : Hdr) (a b : Reg) (off : BitVec 8) : Statement (.bgeu h a b off) := by
  have h0 := encHdr_le h; have h1 := a.isLt; have h2 := b.isLt; have h3 := off.isLt
  simp [Statement, encode0, encodeExt]; omega

theorem bz (h : Hdr) (a : Reg) (off : BitVec 8) : Statement (.bz h a off) := by
  have h0 := encHdr_le h; have h1 := a.isLt; have h2 := off.isLt
  simp [Statement, encode0, encodeExt]; omega

theorem bnz (h : Hdr) (a : Reg) (off : BitVec 8) : Statement (.bnz h a off) := by
  have h0 := encHdr_le h; have h1 := a.isLt; have h2 := off.isLt
  simp [Statement, encode0, encodeExt]; omega

theorem br (h : Hdr) (off : BitVec 28) : Statement (.br h off) := by
  have h0 := encHdr_le h; have h1 := off.isLt
  simp [Statement, encode0, encodeExt]; omega

theorem call (h : Hdr) (a : Reg) (off : BitVec 28) : Statement (.call h a off) := by
  have h0 := encHdr_le h; have h1 := a.isLt; have h2 := off.isLt
  simp [Statement, encode0, encodeExt]; omega

theorem ret (h : Hdr) (a : Reg) : Statement (.ret h a) := by
  have h0 := encHdr_le h; have h1 := a.isLt
  simp [Statement, encode0, encodeExt]; omega

theorem jr (h : Hdr) (a : Reg) : Statement (.jr h a) := by
  have h0 := encHdr_le h; have h1 := a.isLt
  simp [Statement, encode0, encodeExt]; omega

theorem loop (h : Hdr) (n : Fin 4) (a : Reg) (ka : Bool) (len : BitVec 10) : Statement (.loop h n a ka len) := by
  have h0 := encHdr_le h; have h1 := n.isLt; have h2 := a.isLt; have h3 := ka.toNat_lt; have h4 := len.isLt
  simp [Statement, encode0, encodeExt]; omega

theorem loopi (h : Hdr) (n : Fin 4) (count : BitVec 16) (len : BitVec 10) : Statement (.loopi h n count len) := by
  have h0 := encHdr_le h; have h1 := n.isLt; have h2 := count.isLt; have h3 := len.isLt
  simp [Statement, encode0, encodeExt]; omega

theorem semadd (h : Hdr) (n : Fin 16) (a : Reg) (ka : Bool) : Statement (.semadd h n a ka) := by
  have h0 := encHdr_le h; have h1 := n.isLt; have h2 := a.isLt; have h3 := ka.toNat_lt
  simp [Statement, encode0, encodeExt]; omega

theorem semwt (h : Hdr) (n : Fin 16) (a : Reg) (ka : Bool) : Statement (.semwt h n a ka) := by
  have h0 := encHdr_le h; have h1 := n.isLt; have h2 := a.isLt; have h3 := ka.toNat_lt
  simp [Statement, encode0, encodeExt]; omega

theorem mbrd (h : Hdr) (d : Reg) (n : Fin 16) : Statement (.mbrd h d n) := by
  have h0 := encHdr_le h; have h1 := d.isLt; have h2 := n.isLt
  simp [Statement, encode0, encodeExt]; omega

theorem mbwr (h : Hdr) (n : Fin 16) (a b : Reg) (ka kb : Bool) : Statement (.mbwr h n a b ka kb) := by
  have h0 := encHdr_le h; have h1 := n.isLt; have h2 := a.isLt; have h3 := b.isLt; have h4 := ka.toNat_lt; have h5 := kb.toNat_lt
  simp [Statement, encode0, encodeExt]; omega

theorem waitaddr (h : Hdr) (d a b : Reg) (ka kb : Bool) : Statement (.waitaddr h d a b ka kb) := by
  have h0 := encHdr_le h; have h1 := d.isLt; have h2 := a.isLt; have h3 := b.isLt; have h4 := ka.toNat_lt; have h5 := kb.toNat_lt
  simp [Statement, encode0, encodeExt]; omega

theorem park (h : Hdr) : Statement (.park h) := by
  have h0 := encHdr_le h
  simp [Statement, encode0, encodeExt]; omega

theorem yield (h : Hdr) : Statement (.yield h) := by
  have h0 := encHdr_le h
  simp [Statement, encode0, encodeExt]; omega

theorem done (h : Hdr) : Statement (.done h) := by
  have h0 := encHdr_le h
  simp [Statement, encode0, encodeExt]; omega

theorem trap (h : Hdr) (code : BitVec 15) : Statement (.trap h code) := by
  have h0 := encHdr_le h; have h1 := code.isLt
  simp [Statement, encode0, encodeExt]; omega

theorem tret (h : Hdr) : Statement (.tret h) := by
  have h0 := encHdr_le h
  simp [Statement, encode0, encodeExt]; omega

theorem crr (h : Hdr) (d : Reg) (crn : BitVec 10) : Statement (.crr h d crn) := by
  have h0 := encHdr_le h; have h1 := d.isLt; have h2 := crn.isLt
  simp [Statement, encode0, encodeExt]; omega

theorem crw (h : Hdr) (t : Reg) (crn : BitVec 10) (kt : Bool) : Statement (.crw h t crn kt) := by
  have h0 := encHdr_le h; have h1 := t.isLt; have h2 := crn.isLt; have h3 := kt.toNat_lt
  simp [Statement, encode0, encodeExt]; omega

theorem lvreq (h : Hdr) (a : Reg) (ka : Bool) : Statement (.lvreq h a ka) := by
  have h0 := encHdr_le h; have h1 := a.isLt; have h2 := ka.toNat_lt
  simp [Statement, encode0, encodeExt]; omega

theorem lvrel (h : Hdr) (a : Reg) (ka : Bool) : Statement (.lvrel h a ka) := by
  have h0 := encHdr_le h; have h1 := a.isLt; have h2 := ka.toNat_lt
  simp [Statement, encode0, encodeExt]; omega

theorem bist (h : Hdr) (d a : Reg) (ka : Bool) : Statement (.bist h d a ka) := by
  have h0 := encHdr_le h; have h1 := d.isLt; have h2 := a.isLt; have h3 := ka.toNat_lt
  simp [Statement, encode0, encodeExt]; omega

theorem scan (h : Hdr) (d a : Reg) (ka : Bool) : Statement (.scan h d a ka) := by
  have h0 := encHdr_le h; have h1 := d.isLt; have h2 := a.isLt; have h3 := ka.toNat_lt
  simp [Statement, encode0, encodeExt]; omega

theorem errrd (h : Hdr) (d a : Reg) (ka : Bool) : Statement (.errrd h d a ka) := by
  have h0 := encHdr_le h; have h1 := d.isLt; have h2 := a.isLt; have h3 := ka.toNat_lt
  simp [Statement, encode0, encodeExt]; omega

theorem jcancel (h : Hdr) (d a : Reg) (ka : Bool) : Statement (.jcancel h d a ka) := by
  have h0 := encHdr_le h; have h1 := d.isLt; have h2 := a.isLt; have h3 := ka.toNat_lt
  simp [Statement, encode0, encodeExt]; omega

theorem ldb (h : Hdr) (t a : Reg) (hint : BitVec 2) (off : BitVec 6) : Statement (.ldb h t a hint off) := by
  have h0 := encHdr_le h; have h1 := t.isLt; have h2 := a.isLt; have h3 := hint.isLt; have h4 := off.isLt
  simp [Statement, encode0, encodeExt]; omega

theorem ldbu (h : Hdr) (t a : Reg) (hint : BitVec 2) (off : BitVec 6) : Statement (.ldbu h t a hint off) := by
  have h0 := encHdr_le h; have h1 := t.isLt; have h2 := a.isLt; have h3 := hint.isLt; have h4 := off.isLt
  simp [Statement, encode0, encodeExt]; omega

theorem ldh (h : Hdr) (t a : Reg) (hint : BitVec 2) (off : BitVec 6) : Statement (.ldh h t a hint off) := by
  have h0 := encHdr_le h; have h1 := t.isLt; have h2 := a.isLt; have h3 := hint.isLt; have h4 := off.isLt
  simp [Statement, encode0, encodeExt]; omega

theorem ldhu (h : Hdr) (t a : Reg) (hint : BitVec 2) (off : BitVec 6) : Statement (.ldhu h t a hint off) := by
  have h0 := encHdr_le h; have h1 := t.isLt; have h2 := a.isLt; have h3 := hint.isLt; have h4 := off.isLt
  simp [Statement, encode0, encodeExt]; omega

theorem ldw (h : Hdr) (t a : Reg) (hint : BitVec 2) (off : BitVec 6) : Statement (.ldw h t a hint off) := by
  have h0 := encHdr_le h; have h1 := t.isLt; have h2 := a.isLt; have h3 := hint.isLt; have h4 := off.isLt
  simp [Statement, encode0, encodeExt]; omega

theorem ldwu (h : Hdr) (t a : Reg) (hint : BitVec 2) (off : BitVec 6) : Statement (.ldwu h t a hint off) := by
  have h0 := encHdr_le h; have h1 := t.isLt; have h2 := a.isLt; have h3 := hint.isLt; have h4 := off.isLt
  simp [Statement, encode0, encodeExt]; omega

theorem ldd (h : Hdr) (t a : Reg) (hint : BitVec 2) (off : BitVec 6) : Statement (.ldd h t a hint off) := by
  have h0 := encHdr_le h; have h1 := t.isLt; have h2 := a.isLt; have h3 := hint.isLt; have h4 := off.isLt
  simp [Statement, encode0, encodeExt]; omega

theorem stb (h : Hdr) (t a : Reg) (hint : BitVec 2) (off : BitVec 6) : Statement (.stb h t a hint off) := by
  have h0 := encHdr_le h; have h1 := t.isLt; have h2 := a.isLt; have h3 := hint.isLt; have h4 := off.isLt
  simp [Statement, encode0, encodeExt]; omega

theorem sth (h : Hdr) (t a : Reg) (hint : BitVec 2) (off : BitVec 6) : Statement (.sth h t a hint off) := by
  have h0 := encHdr_le h; have h1 := t.isLt; have h2 := a.isLt; have h3 := hint.isLt; have h4 := off.isLt
  simp [Statement, encode0, encodeExt]; omega

theorem stw (h : Hdr) (t a : Reg) (hint : BitVec 2) (off : BitVec 6) : Statement (.stw h t a hint off) := by
  have h0 := encHdr_le h; have h1 := t.isLt; have h2 := a.isLt; have h3 := hint.isLt; have h4 := off.isLt
  simp [Statement, encode0, encodeExt]; omega

theorem std (h : Hdr) (t a : Reg) (hint : BitVec 2) (off : BitVec 6) : Statement (.std h t a hint off) := by
  have h0 := encHdr_le h; have h1 := t.isLt; have h2 := a.isLt; have h3 := hint.isLt; have h4 := off.isLt
  simp [Statement, encode0, encodeExt]; omega

theorem ldAcq (h : Hdr) (t a : Reg) (scope : BitVec 2) : Statement (.ldAcq h t a scope) := by
  have h0 := encHdr_le h; have h1 := t.isLt; have h2 := a.isLt; have h3 := scope.isLt
  simp [Statement, encode0, encodeExt]; omega

theorem stRel (h : Hdr) (t a : Reg) (scope : BitVec 2) : Statement (.stRel h t a scope) := by
  have h0 := encHdr_le h; have h1 := t.isLt; have h2 := a.isLt; have h3 := scope.isLt
  simp [Statement, encode0, encodeExt]; omega

theorem amoadd (h : Hdr) (d a b : Reg) (ka kb : Bool) : Statement (.amoadd h d a b ka kb) := by
  have h0 := encHdr_le h; have h1 := d.isLt; have h2 := a.isLt; have h3 := b.isLt; have h4 := ka.toNat_lt; have h5 := kb.toNat_lt
  simp [Statement, encode0, encodeExt]; omega

theorem amoand (h : Hdr) (d a b : Reg) (ka kb : Bool) : Statement (.amoand h d a b ka kb) := by
  have h0 := encHdr_le h; have h1 := d.isLt; have h2 := a.isLt; have h3 := b.isLt; have h4 := ka.toNat_lt; have h5 := kb.toNat_lt
  simp [Statement, encode0, encodeExt]; omega

theorem amoor (h : Hdr) (d a b : Reg) (ka kb : Bool) : Statement (.amoor h d a b ka kb) := by
  have h0 := encHdr_le h; have h1 := d.isLt; have h2 := a.isLt; have h3 := b.isLt; have h4 := ka.toNat_lt; have h5 := kb.toNat_lt
  simp [Statement, encode0, encodeExt]; omega

theorem amoxor (h : Hdr) (d a b : Reg) (ka kb : Bool) : Statement (.amoxor h d a b ka kb) := by
  have h0 := encHdr_le h; have h1 := d.isLt; have h2 := a.isLt; have h3 := b.isLt; have h4 := ka.toNat_lt; have h5 := kb.toNat_lt
  simp [Statement, encode0, encodeExt]; omega

theorem amomin (h : Hdr) (d a b : Reg) (ka kb : Bool) : Statement (.amomin h d a b ka kb) := by
  have h0 := encHdr_le h; have h1 := d.isLt; have h2 := a.isLt; have h3 := b.isLt; have h4 := ka.toNat_lt; have h5 := kb.toNat_lt
  simp [Statement, encode0, encodeExt]; omega

theorem amomax (h : Hdr) (d a b : Reg) (ka kb : Bool) : Statement (.amomax h d a b ka kb) := by
  have h0 := encHdr_le h; have h1 := d.isLt; have h2 := a.isLt; have h3 := b.isLt; have h4 := ka.toNat_lt; have h5 := kb.toNat_lt
  simp [Statement, encode0, encodeExt]; omega

theorem amominu (h : Hdr) (d a b : Reg) (ka kb : Bool) : Statement (.amominu h d a b ka kb) := by
  have h0 := encHdr_le h; have h1 := d.isLt; have h2 := a.isLt; have h3 := b.isLt; have h4 := ka.toNat_lt; have h5 := kb.toNat_lt
  simp [Statement, encode0, encodeExt]; omega

theorem amomaxu (h : Hdr) (d a b : Reg) (ka kb : Bool) : Statement (.amomaxu h d a b ka kb) := by
  have h0 := encHdr_le h; have h1 := d.isLt; have h2 := a.isLt; have h3 := b.isLt; have h4 := ka.toNat_lt; have h5 := kb.toNat_lt
  simp [Statement, encode0, encodeExt]; omega

theorem amoswap (h : Hdr) (d a b : Reg) (ka kb : Bool) : Statement (.amoswap h d a b ka kb) := by
  have h0 := encHdr_le h; have h1 := d.isLt; have h2 := a.isLt; have h3 := b.isLt; have h4 := ka.toNat_lt; have h5 := kb.toNat_lt
  simp [Statement, encode0, encodeExt]; omega

theorem amocas (h : Hdr) (d a b : Reg) (ka : Bool) : Statement (.amocas h d a b ka) := by
  have h0 := encHdr_le h; have h1 := d.isLt; have h2 := a.isLt; have h3 := b.isLt; have h4 := ka.toNat_lt
  simp [Statement, encode0, encodeExt]; omega

theorem amofadd (h : Hdr) (d a b : Reg) (ka kb : Bool) : Statement (.amofadd h d a b ka kb) := by
  have h0 := encHdr_le h; have h1 := d.isLt; have h2 := a.isLt; have h3 := b.isLt; have h4 := ka.toNat_lt; have h5 := kb.toNat_lt
  simp [Statement, encode0, encodeExt]; omega

theorem amobfadd (h : Hdr) (d a b : Reg) (ka kb : Bool) : Statement (.amobfadd h d a b ka kb) := by
  have h0 := encHdr_le h; have h1 := d.isLt; have h2 := a.isLt; have h3 := b.isLt; have h4 := ka.toNat_lt; have h5 := kb.toNat_lt
  simp [Statement, encode0, encodeExt]; omega

theorem fence (h : Hdr) (scope : BitVec 2) : Statement (.fence h scope) := by
  have h0 := encHdr_le h; have h1 := scope.isLt
  simp [Statement, encode0, encodeExt]; omega

theorem mark (h : Hdr) (scope : BitVec 2) : Statement (.mark h scope) := by
  have h0 := encHdr_le h; have h1 := scope.isLt
  simp [Statement, encode0, encodeExt]; omega

theorem wb (h : Hdr) (a b : Reg) (ka kb : Bool) : Statement (.wb h a b ka kb) := by
  have h0 := encHdr_le h; have h1 := a.isLt; have h2 := b.isLt; have h3 := ka.toNat_lt; have h4 := kb.toNat_lt
  simp [Statement, encode0, encodeExt]; omega

theorem inv (h : Hdr) (a b : Reg) (ka kb : Bool) : Statement (.inv h a b ka kb) := by
  have h0 := encHdr_le h; have h1 := a.isLt; have h2 := b.isLt; have h3 := ka.toNat_lt; have h4 := kb.toNat_lt
  simp [Statement, encode0, encodeExt]; omega

theorem wbinv (h : Hdr) (a b : Reg) (ka kb : Bool) : Statement (.wbinv h a b ka kb) := by
  have h0 := encHdr_le h; have h1 := a.isLt; have h2 := b.isLt; have h3 := ka.toNat_lt; have h4 := kb.toNat_lt
  simp [Statement, encode0, encodeExt]; omega

theorem pf (h : Hdr) (hint : BitVec 2) (a : Reg) (ka : Bool) : Statement (.pf h hint a ka) := by
  have h0 := encHdr_le h; have h1 := hint.isLt; have h2 := a.isLt; have h3 := ka.toNat_lt
  simp [Statement, encode0, encodeExt]; omega

theorem roinv (h : Hdr) (a b : Reg) (ka kb : Bool) : Statement (.roinv h a b ka kb) := by
  have h0 := encHdr_le h; have h1 := a.isLt; have h2 := b.isLt; have h3 := ka.toNat_lt; have h4 := kb.toNat_lt
  simp [Statement, encode0, encodeExt]; omega

theorem ldro (h : Hdr) (t a : Reg) (hint : BitVec 2) (size : BitVec 3) (off : BitVec 6) : Statement (.ldro h t a hint size off) := by
  have h0 := encHdr_le h; have h1 := t.isLt; have h2 := a.isLt; have h3 := hint.isLt; have h4 := size.isLt; have h5 := off.isLt
  simp [Statement, encode0, encodeExt]; omega

theorem bbinit (h : Hdr) (a b : Reg) (ka kb : Bool) : Statement (.bbinit h a b ka kb) := by
  have h0 := encHdr_le h; have h1 := a.isLt; have h2 := b.isLt; have h3 := ka.toNat_lt; have h4 := kb.toNat_lt
  simp [Statement, encode0, encodeExt]; omega

theorem bbexp (h : Hdr) (a b : Reg) (ka kb : Bool) : Statement (.bbexp h a b ka kb) := by
  have h0 := encHdr_le h; have h1 := a.isLt; have h2 := b.isLt; have h3 := ka.toNat_lt; have h4 := kb.toNat_lt
  simp [Statement, encode0, encodeExt]; omega

theorem bbwait (h : Hdr) (d a b : Reg) (ka kb : Bool) : Statement (.bbwait h d a b ka kb) := by
  have h0 := encHdr_le h; have h1 := d.isLt; have h2 := a.isLt; have h3 := b.isLt; have h4 := ka.toNat_lt; have h5 := kb.toNat_lt
  simp [Statement, encode0, encodeExt]; omega

theorem cbacq (h : Hdr) (d : Reg) (n : Fin 16) : Statement (.cbacq h d n) := by
  have h0 := encHdr_le h; have h1 := d.isLt; have h2 := n.isLt
  simp [Statement, encode0, encodeExt]; omega

theorem cbrel (h : Hdr) (n : Fin 16) : Statement (.cbrel h n) := by
  have h0 := encHdr_le h; have h1 := n.isLt
  simp [Statement, encode0, encodeExt]; omega

theorem fmst (h : Hdr) (l a b : Reg) : Statement (.fmst h l a b) := by
  have h0 := encHdr_le h; have h1 := l.isLt; have h2 := a.isLt; have h3 := b.isLt
  simp [Statement, encode0, encodeExt]; omega

theorem rqpost (h : Hdr) (d a b : Reg) (ka kb : Bool) : Statement (.rqpost h d a b ka kb) := by
  have h0 := encHdr_le h; have h1 := d.isLt; have h2 := a.isLt; have h3 := b.isLt; have h4 := ka.toNat_lt; have h5 := kb.toNat_lt
  simp [Statement, encode0, encodeExt]; omega

theorem lpost (h : Hdr) (d a b : Reg) (ka kb : Bool) : Statement (.lpost h d a b ka kb) := by
  have h0 := encHdr_le h; have h1 := d.isLt; have h2 := a.isLt; have h3 := b.isLt; have h4 := ka.toNat_lt; have h5 := kb.toNat_lt
  simp [Statement, encode0, encodeExt]; omega

theorem fork (h : Hdr) (d a b : Reg) : Statement (.fork h d a b) := by
  have h0 := encHdr_le h; have h1 := d.isLt; have h2 := a.isLt; have h3 := b.isLt
  simp [Statement, encode0, encodeExt]; omega

theorem choose (h : Hdr) : Statement (.choose h) := by
  have h0 := encHdr_le h
  simp [Statement, encode0, encodeExt]; omega

theorem abandon (h : Hdr) : Statement (.abandon h) := by
  have h0 := encHdr_le h
  simp [Statement, encode0, encodeExt]; omega

theorem wid (h : Hdr) (d : Reg) : Statement (.wid h d) := by
  have h0 := encHdr_le h; have h1 := d.isLt
  simp [Statement, encode0, encodeExt]; omega

theorem cpy (h : Hdr) (a b : Reg) (ka : Bool) (src dst hint : BitVec 2) (len : BitVec 24) : Statement (.cpy h a b ka src dst hint len) := by
  have h0 := encHdr_le h; have h1 := a.isLt; have h2 := b.isLt; have h3 := ka.toNat_lt; have h4 := src.isLt; have h5 := dst.isLt; have h6 := hint.isLt; have h7 := len.isLt
  simp [Statement, encode0, encodeExt]; omega

theorem cpy2 (h : Hdr) (a b : Reg) (src dst : BitVec 2) (rows rowbytes : BitVec 14) : Statement (.cpy2 h a b src dst rows rowbytes) := by
  have h0 := encHdr_le h; have h1 := a.isLt; have h2 := b.isLt; have h3 := src.isLt; have h4 := dst.isLt; have h5 := rows.isLt; have h6 := rowbytes.isLt
  simp [Statement, encode0, encodeExt]; omega

theorem cpyg (h : Hdr) (a b : Reg) (isp dst : BitVec 2) (count : BitVec 12) (rowbytes : BitVec 16) : Statement (.cpyg h a b isp dst count rowbytes) := by
  have h0 := encHdr_le h; have h1 := a.isLt; have h2 := b.isLt; have h3 := isp.isLt; have h4 := dst.isLt; have h5 := count.isLt; have h6 := rowbytes.isLt
  simp [Statement, encode0, encodeExt]; omega

theorem oqld (h : Hdr) (a b : Reg) (kb : Bool) (src hint : BitVec 2) (rows : BitVec 16) (oq : Fin 8) : Statement (.oqld h a b kb src hint rows oq) := by
  have h0 := encHdr_le h; have h1 := a.isLt; have h2 := b.isLt; have h3 := kb.toNat_lt; have h4 := src.isLt; have h5 := hint.isLt; have h6 := rows.isLt; have h7 := oq.isLt
  simp [Statement, encode0, encodeExt]; omega

theorem tsld (h : Hdr) (a b : Reg) (src hint : BitVec 2) (rows : BitVec 10) (rowbytes : BitVec 11) : Statement (.tsld h a b src hint rows rowbytes) := by
  have h0 := encHdr_le h; have h1 := a.isLt; have h2 := b.isLt; have h3 := src.isLt; have h4 := hint.isLt; have h5 := rows.isLt; have h6 := rowbytes.isLt
  simp [Statement, encode0, encodeExt]; omega

theorem tsst (h : Hdr) (a b : Reg) (ka : Bool) (dst hint : BitVec 2) (rows : BitVec 10) (rowbytes : BitVec 11) : Statement (.tsst h a b ka dst hint rows rowbytes) := by
  have h0 := encHdr_le h; have h1 := a.isLt; have h2 := b.isLt; have h3 := ka.toNat_lt; have h4 := dst.isLt; have h5 := hint.isLt; have h6 := rows.isLt; have h7 := rowbytes.isLt
  simp [Statement, encode0, encodeExt]; omega

theorem cbinit (h : Hdr) (a : Reg) (ka : Bool) (n : Fin 16) (size : BitVec 12) (slots : BitVec 8) : Statement (.cbinit h a ka n size slots) := by
  have h0 := encHdr_le h; have h1 := a.isLt; have h2 := ka.toNat_lt; have h3 := n.isLt; have h4 := size.isLt; have h5 := slots.isLt
  simp [Statement, encode0, encodeExt]; omega

theorem vshape (h : Hdr) (a b : Reg) (ka kb regRows regCols : Bool) (ty : BitVec 4) (cols1 : BitVec 6) (rows1 : BitVec 4) : Statement (.vshape h a b ka kb regRows regCols ty cols1 rows1) := by
  have h0 := encHdr_le h; have h1 := a.isLt; have h2 := b.isLt; have h3 := ka.toNat_lt; have h4 := kb.toNat_lt; have h5 := regRows.toNat_lt; have h6 := regCols.toNat_lt; have h7 := ty.isLt; have h8 := cols1.isLt; have h9 := rows1.isLt
  simp [Statement, encode0, encodeExt]; omega

theorem vld (h : Hdr) (a b : Reg) (ka kb : Bool) (src : BitVec 2) (vd : Fin 16) (oq : Fin 8) (hint : BitVec 2) : Statement (.vld h a b ka kb src vd oq hint) := by
  have h0 := encHdr_le h; have h1 := a.isLt; have h2 := b.isLt; have h3 := ka.toNat_lt; have h4 := kb.toNat_lt; have h5 := src.isLt; have h6 := vd.isLt; have h7 := oq.isLt; have h8 := hint.isLt
  simp [Statement, encode0, encodeExt]; omega

theorem vst (h : Hdr) (a b : Reg) (ka : Bool) (dst : BitVec 2) (va : Fin 16) (hint : BitVec 2) : Statement (.vst h a b ka dst va hint) := by
  have h0 := encHdr_le h; have h1 := a.isLt; have h2 := b.isLt; have h3 := ka.toNat_lt; have h4 := dst.isLt; have h5 := va.isLt; have h6 := hint.isLt
  simp [Statement, encode0, encodeExt]; omega

theorem vbcastX (h : Hdr) (a : Reg) (ka : Bool) (vd : Fin 16) : Statement (.vbcastX h a ka vd) := by
  have h0 := encHdr_le h; have h1 := a.isLt; have h2 := ka.toNat_lt; have h3 := vd.isLt
  simp [Statement, encode0, encodeExt]; omega

theorem vbcastRow (h : Hdr) (vd va : Fin 16) (n : BitVec 4) : Statement (.vbcastRow h vd va n) := by
  have h0 := encHdr_le h; have h1 := vd.isLt; have h2 := va.isLt; have h3 := n.isLt
  simp [Statement, encode0, encodeExt]; omega

theorem vbcastCol (h : Hdr) (vd va : Fin 16) (n : BitVec 6) : Statement (.vbcastCol h vd va n) := by
  have h0 := encHdr_le h; have h1 := vd.isLt; have h2 := va.isLt; have h3 := n.isLt
  simp [Statement, encode0, encodeExt]; omega

theorem vsel (h : Hdr) (vd va vb vc : Fin 16) : Statement (.vsel h vd va vb vc) := by
  have h0 := encHdr_le h; have h1 := vd.isLt; have h2 := va.isLt; have h3 := vb.isLt; have h4 := vc.isLt
  simp [Statement, encode0, encodeExt]; omega

theorem vadd (h : Hdr) (b : Reg) (kb sb sat : Bool) (vd va vb : Fin 16) : Statement (.vadd h b kb sb sat vd va vb) := by
  have h0 := encHdr_le h; have h1 := b.isLt; have h2 := kb.toNat_lt; have h3 := sb.toNat_lt; have h4 := sat.toNat_lt; have h5 := vd.isLt; have h6 := va.isLt; have h7 := vb.isLt
  simp [Statement, encode0, encodeExt]; omega

theorem vsub (h : Hdr) (b : Reg) (kb sb sat : Bool) (vd va vb : Fin 16) : Statement (.vsub h b kb sb sat vd va vb) := by
  have h0 := encHdr_le h; have h1 := b.isLt; have h2 := kb.toNat_lt; have h3 := sb.toNat_lt; have h4 := sat.toNat_lt; have h5 := vd.isLt; have h6 := va.isLt; have h7 := vb.isLt
  simp [Statement, encode0, encodeExt]; omega

theorem vmul (h : Hdr) (b : Reg) (kb sb sat : Bool) (vd va vb : Fin 16) : Statement (.vmul h b kb sb sat vd va vb) := by
  have h0 := encHdr_le h; have h1 := b.isLt; have h2 := kb.toNat_lt; have h3 := sb.toNat_lt; have h4 := sat.toNat_lt; have h5 := vd.isLt; have h6 := va.isLt; have h7 := vb.isLt
  simp [Statement, encode0, encodeExt]; omega

theorem vfma (h : Hdr) (b : Reg) (kb sb sat : Bool) (vd va vb vc : Fin 16) : Statement (.vfma h b kb sb sat vd va vb vc) := by
  have h0 := encHdr_le h; have h1 := b.isLt; have h2 := kb.toNat_lt; have h3 := sb.toNat_lt; have h4 := sat.toNat_lt; have h5 := vd.isLt; have h6 := va.isLt; have h7 := vb.isLt; have h8 := vc.isLt
  simp [Statement, encode0, encodeExt]; omega

theorem vmax (h : Hdr) (b : Reg) (kb sb sat : Bool) (vd va vb : Fin 16) : Statement (.vmax h b kb sb sat vd va vb) := by
  have h0 := encHdr_le h; have h1 := b.isLt; have h2 := kb.toNat_lt; have h3 := sb.toNat_lt; have h4 := sat.toNat_lt; have h5 := vd.isLt; have h6 := va.isLt; have h7 := vb.isLt
  simp [Statement, encode0, encodeExt]; omega

theorem vmin (h : Hdr) (b : Reg) (kb sb sat : Bool) (vd va vb : Fin 16) : Statement (.vmin h b kb sb sat vd va vb) := by
  have h0 := encHdr_le h; have h1 := b.isLt; have h2 := kb.toNat_lt; have h3 := sb.toNat_lt; have h4 := sat.toNat_lt; have h5 := vd.isLt; have h6 := va.isLt; have h7 := vb.isLt
  simp [Statement, encode0, encodeExt]; omega

theorem vabs (h : Hdr) (sat : Bool) (vd va : Fin 16) : Statement (.vabs h sat vd va) := by
  have h0 := encHdr_le h; have h1 := sat.toNat_lt; have h2 := vd.isLt; have h3 := va.isLt
  simp [Statement, encode0, encodeExt]; omega

theorem vneg (h : Hdr) (sat : Bool) (vd va : Fin 16) : Statement (.vneg h sat vd va) := by
  have h0 := encHdr_le h; have h1 := sat.toNat_lt; have h2 := vd.isLt; have h3 := va.isLt
  simp [Statement, encode0, encodeExt]; omega

theorem vcmp (h : Hdr) (b : Reg) (kb sb sat : Bool) (vd va vb : Fin 16) (cond : BitVec 3) : Statement (.vcmp h b kb sb sat vd va vb cond) := by
  have h0 := encHdr_le h; have h1 := b.isLt; have h2 := kb.toNat_lt; have h3 := sb.toNat_lt; have h4 := sat.toNat_lt; have h5 := vd.isLt; have h6 := va.isLt; have h7 := vb.isLt; have h8 := cond.isLt
  simp [Statement, encode0, encodeExt]; omega

theorem vand (h : Hdr) (b : Reg) (kb sb : Bool) (vd va vb : Fin 16) : Statement (.vand h b kb sb vd va vb) := by
  have h0 := encHdr_le h; have h1 := b.isLt; have h2 := kb.toNat_lt; have h3 := sb.toNat_lt; have h4 := vd.isLt; have h5 := va.isLt; have h6 := vb.isLt
  simp [Statement, encode0, encodeExt]; omega

theorem vor (h : Hdr) (b : Reg) (kb sb : Bool) (vd va vb : Fin 16) : Statement (.vor h b kb sb vd va vb) := by
  have h0 := encHdr_le h; have h1 := b.isLt; have h2 := kb.toNat_lt; have h3 := sb.toNat_lt; have h4 := vd.isLt; have h5 := va.isLt; have h6 := vb.isLt
  simp [Statement, encode0, encodeExt]; omega

theorem vxor (h : Hdr) (b : Reg) (kb sb : Bool) (vd va vb : Fin 16) : Statement (.vxor h b kb sb vd va vb) := by
  have h0 := encHdr_le h; have h1 := b.isLt; have h2 := kb.toNat_lt; have h3 := sb.toNat_lt; have h4 := vd.isLt; have h5 := va.isLt; have h6 := vb.isLt
  simp [Statement, encode0, encodeExt]; omega

theorem vshl (h : Hdr) (b : Reg) (kb sb : Bool) (vd va vb : Fin 16) : Statement (.vshl h b kb sb vd va vb) := by
  have h0 := encHdr_le h; have h1 := b.isLt; have h2 := kb.toNat_lt; have h3 := sb.toNat_lt; have h4 := vd.isLt; have h5 := va.isLt; have h6 := vb.isLt
  simp [Statement, encode0, encodeExt]; omega

theorem vshr (h : Hdr) (b : Reg) (kb sb : Bool) (vd va vb : Fin 16) : Statement (.vshr h b kb sb vd va vb) := by
  have h0 := encHdr_le h; have h1 := b.isLt; have h2 := kb.toNat_lt; have h3 := sb.toNat_lt; have h4 := vd.isLt; have h5 := va.isLt; have h6 := vb.isLt
  simp [Statement, encode0, encodeExt]; omega

theorem vpopc (h : Hdr) (vd va : Fin 16) : Statement (.vpopc h vd va) := by
  have h0 := encHdr_le h; have h1 := vd.isLt; have h2 := va.isLt
  simp [Statement, encode0, encodeExt]; omega

theorem vcvt (h : Hdr) (a : Reg) (ka : Bool) (vd va : Fin 16) (ty : BitVec 4) (mode : BitVec 2) : Statement (.vcvt h a ka vd va ty mode) := by
  have h0 := encHdr_le h; have h1 := a.isLt; have h2 := ka.toNat_lt; have h3 := vd.isLt; have h4 := va.isLt; have h5 := ty.isLt; have h6 := mode.isLt
  simp [Statement, encode0, encodeExt]; omega

theorem vred (h : Hdr) (axis sat : Bool) (vd va : Fin 16) (op : BitVec 3) : Statement (.vred h axis sat vd va op) := by
  have h0 := encHdr_le h; have h1 := axis.toNat_lt; have h2 := sat.toNat_lt; have h3 := vd.isLt; have h4 := va.isLt; have h5 := op.isLt
  simp [Statement, encode0, encodeExt]; omega

theorem vgelu (h : Hdr) (vd va : Fin 16) (ty : BitVec 4) : Statement (.vgelu h vd va ty) := by
  have h0 := encHdr_le h; have h1 := vd.isLt; have h2 := va.isLt; have h3 := ty.isLt
  simp [Statement, encode0, encodeExt]; omega

theorem vsilu (h : Hdr) (vd va : Fin 16) (ty : BitVec 4) : Statement (.vsilu h vd va ty) := by
  have h0 := encHdr_le h; have h1 := vd.isLt; have h2 := va.isLt; have h3 := ty.isLt
  simp [Statement, encode0, encodeExt]; omega

theorem vsplus (h : Hdr) (vd va : Fin 16) (ty : BitVec 4) : Statement (.vsplus h vd va ty) := by
  have h0 := encHdr_le h; have h1 := vd.isLt; have h2 := va.isLt; have h3 := ty.isLt
  simp [Statement, encode0, encodeExt]; omega

theorem vtanh (h : Hdr) (vd va : Fin 16) (ty : BitVec 4) : Statement (.vtanh h vd va ty) := by
  have h0 := encHdr_le h; have h1 := vd.isLt; have h2 := va.isLt; have h3 := ty.isLt
  simp [Statement, encode0, encodeExt]; omega

theorem vsigm (h : Hdr) (vd va : Fin 16) (ty : BitVec 4) : Statement (.vsigm h vd va ty) := by
  have h0 := encHdr_le h; have h1 := vd.isLt; have h2 := va.isLt; have h3 := ty.isLt
  simp [Statement, encode0, encodeExt]; omega

theorem vexp (h : Hdr) (vd va : Fin 16) (ty : BitVec 4) : Statement (.vexp h vd va ty) := by
  have h0 := encHdr_le h; have h1 := vd.isLt; have h2 := va.isLt; have h3 := ty.isLt
  simp [Statement, encode0, encodeExt]; omega

theorem vrcp (h : Hdr) (vd va : Fin 16) (ty : BitVec 4) : Statement (.vrcp h vd va ty) := by
  have h0 := encHdr_le h; have h1 := vd.isLt; have h2 := va.isLt; have h3 := ty.isLt
  simp [Statement, encode0, encodeExt]; omega

theorem vrsqrt (h : Hdr) (vd va : Fin 16) (ty : BitVec 4) : Statement (.vrsqrt h vd va ty) := by
  have h0 := encHdr_le h; have h1 := vd.isLt; have h2 := va.isLt; have h3 := ty.isLt
  simp [Statement, encode0, encodeExt]; omega

theorem vtblld (h : Hdr) (a : Reg) (ka : Bool) (src : BitVec 2) (n : Fin 4) : Statement (.vtblld h a ka src n) := by
  have h0 := encHdr_le h; have h1 := a.isLt; have h2 := ka.toNat_lt; have h3 := src.isLt; have h4 := n.isLt
  simp [Statement, encode0, encodeExt]; omega

theorem vtbl (h : Hdr) (vd va : Fin 16) (ty : BitVec 4) (n : Fin 4) : Statement (.vtbl h vd va ty n) := by
  have h0 := encHdr_le h; have h1 := vd.isLt; have h2 := va.isLt; have h3 := ty.isLt; have h4 := n.isLt
  simp [Statement, encode0, encodeExt]; omega

theorem vtolog (h : Hdr) (vd va : Fin 16) : Statement (.vtolog h vd va) := by
  have h0 := encHdr_le h; have h1 := vd.isLt; have h2 := va.isLt
  simp [Statement, encode0, encodeExt]; omega

theorem vfrlog (h : Hdr) (vd va : Fin 16) (ty : BitVec 4) : Statement (.vfrlog h vd va ty) := by
  have h0 := encHdr_le h; have h1 := vd.isLt; have h2 := va.isLt; have h3 := ty.isLt
  simp [Statement, encode0, encodeExt]; omega

theorem vladd (h : Hdr) (b : Reg) (kb : Bool) (cf : BitVec 2) (vd va vb : Fin 16) : Statement (.vladd h b kb cf vd va vb) := by
  have h0 := encHdr_le h; have h1 := b.isLt; have h2 := kb.toNat_lt; have h3 := cf.isLt; have h4 := vd.isLt; have h5 := va.isLt; have h6 := vb.isLt
  simp [Statement, encode0, encodeExt]; omega

theorem vlsub (h : Hdr) (b : Reg) (kb : Bool) (cf : BitVec 2) (vd va vb : Fin 16) : Statement (.vlsub h b kb cf vd va vb) := by
  have h0 := encHdr_le h; have h1 := b.isLt; have h2 := kb.toNat_lt; have h3 := cf.isLt; have h4 := vd.isLt; have h5 := va.isLt; have h6 := vb.isLt
  simp [Statement, encode0, encodeExt]; omega

theorem vlshr (h : Hdr) (vd va : Fin 16) (n : BitVec 4) : Statement (.vlshr h vd va n) := by
  have h0 := encHdr_le h; have h1 := vd.isLt; have h2 := va.isLt; have h3 := n.isLt
  simp [Statement, encode0, encodeExt]; omega

theorem vlmul (h : Hdr) (b : Reg) (kb : Bool) (vd va : Fin 16) : Statement (.vlmul h b kb vd va) := by
  have h0 := encHdr_le h; have h1 := b.isLt; have h2 := kb.toNat_lt; have h3 := vd.isLt; have h4 := va.isLt
  simp [Statement, encode0, encodeExt]; omega

theorem vhamm (h : Hdr) (vd va vb : Fin 16) (n : BitVec 4) : Statement (.vhamm h vd va vb n) := by
  have h0 := encHdr_le h; have h1 := vd.isLt; have h2 := va.isLt; have h3 := vb.isLt; have h4 := n.isLt
  simp [Statement, encode0, encodeExt]; omega

theorem vtopk (h : Hdr) (desc : Bool) (vd va vb vc : Fin 16) (k1 : BitVec 6) : Statement (.vtopk h desc vd va vb vc k1) := by
  have h0 := encHdr_le h; have h1 := desc.toNat_lt; have h2 := vd.isLt; have h3 := va.isLt; have h4 := vb.isLt; have h5 := vc.isLt; have h6 := k1.isLt
  simp [Statement, encode0, encodeExt]; omega

theorem vfilt (h : Hdr) (a b : Reg) (ka kb : Bool) (src : BitVec 2) (vd va : Fin 16) : Statement (.vfilt h a b ka kb src vd va) := by
  have h0 := encHdr_le h; have h1 := a.isLt; have h2 := b.isLt; have h3 := ka.toNat_lt; have h4 := kb.toNat_lt; have h5 := src.isLt; have h6 := vd.isLt; have h7 := va.isLt
  simp [Statement, encode0, encodeExt]; omega

theorem vsect (h : Hdr) (a b : Reg) (hint : BitVec 2) (vd : Fin 16) : Statement (.vsect h a b hint vd) := by
  have h0 := encHdr_le h; have h1 := a.isLt; have h2 := b.isLt; have h3 := hint.isLt; have h4 := vd.isLt
  simp [Statement, encode0, encodeExt]; omega

theorem vuniq (h : Hdr) (vd va vc : Fin 16) : Statement (.vuniq h vd va vc) := by
  have h0 := encHdr_le h; have h1 := vd.isLt; have h2 := va.isLt; have h3 := vc.isLt
  simp [Statement, encode0, encodeExt]; omega

theorem vbkt (h : Hdr) (vd va vc : Fin 16) (nb1 : BitVec 6) (sft : BitVec 5) : Statement (.vbkt h vd va vc nb1 sft) := by
  have h0 := encHdr_le h; have h1 := vd.isLt; have h2 := va.isLt; have h3 := vc.isLt; have h4 := nb1.isLt; have h5 := sft.isLt
  simp [Statement, encode0, encodeExt]; omega

theorem mcfgLevel (h : Hdr) (a b : Reg) (ka kb : Bool) (lvl : Fin 6) : Statement (.mcfgLevel h a b ka kb lvl) := by
  have h0 := encHdr_le h; have h1 := a.isLt; have h2 := b.isLt; have h3 := ka.toNat_lt; have h4 := kb.toNat_lt; have h5 := lvl.isLt
  simp [Statement, encode0, encodeExt]; omega

theorem mcfgNest (h : Hdr) (a : Reg) (ka : Bool) : Statement (.mcfgNest h a ka) := by
  have h0 := encHdr_le h; have h1 := a.isLt; have h2 := ka.toNat_lt
  simp [Statement, encode0, encodeExt]; omega

theorem mshp (h : Hdr) (a : Reg) (ka : Bool) (src : BitVec 2) (n : Fin 16) : Statement (.mshp h a ka src n) := by
  have h0 := encHdr_le h; have h1 := a.isLt; have h2 := ka.toNat_lt; have h3 := src.isLt; have h4 := n.isLt
  simp [Statement, encode0, encodeExt]; omega

theorem mshf (h : Hdr) (a : Reg) (ka : Bool) (n : Fin 16) (field : BitVec 5) : Statement (.mshf h a ka n field) := by
  have h0 := encHdr_le h; have h1 := a.isLt; have h2 := ka.toNat_lt; have h3 := n.isLt; have h4 := field.isLt
  simp [Statement, encode0, encodeExt]; omega

theorem mgo (h : Hdr) : Statement (.mgo h) := by
  have h0 := encHdr_le h
  simp [Statement, encode0, encodeExt]; omega

theorem mrst (h : Hdr) (off : BitVec 28) : Statement (.mrst h off) := by
  have h0 := encHdr_le h; have h1 := off.isLt
  simp [Statement, encode0, encodeExt]; omega

theorem mrstNone (h : Hdr) : Statement (.mrstNone h) := by
  have h0 := encHdr_le h
  simp [Statement, encode0, encodeExt]; omega

theorem maccClr (h : Hdr) (n : Fin 2) : Statement (.maccClr h n) := by
  have h0 := encHdr_le h; have h1 := n.isLt
  simp [Statement, encode0, encodeExt]; omega

theorem maccSave (h : Hdr) (n : Fin 2) (row : BitVec 9) (half : Fin 2) : Statement (.maccSave h n row half) := by
  have h0 := encHdr_le h; have h1 := n.isLt; have h2 := row.isLt; have h3 := half.isLt
  simp [Statement, encode0, encodeExt]; omega

theorem maccLoad (h : Hdr) (n : Fin 2) (row : BitVec 9) (half : Fin 2) : Statement (.maccLoad h n row half) := by
  have h0 := encHdr_le h; have h1 := n.isLt; have h2 := row.isLt; have h3 := half.isLt
  simp [Statement, encode0, encodeExt]; omega

theorem mepi (h : Hdr) (a b : Reg) (ka kb : Bool) (dest : BitVec 2) : Statement (.mepi h a b ka kb dest) := by
  have h0 := encHdr_le h; have h1 := a.isLt; have h2 := b.isLt; have h3 := ka.toNat_lt; have h4 := kb.toNat_lt; have h5 := dest.isLt
  simp [Statement, encode0, encodeExt]; omega

theorem mlqSend (h : Hdr) (a : Reg) (ka : Bool) (n m : Fin 16) (ty : BitVec 4) : Statement (.mlqSend h a ka n m ty) := by
  have h0 := encHdr_le h; have h1 := a.isLt; have h2 := ka.toNat_lt; have h3 := n.isLt; have h4 := m.isLt; have h5 := ty.isLt
  simp [Statement, encode0, encodeExt]; omega

theorem mlqRecv (h : Hdr) (a : Reg) (ka : Bool) (n m : Fin 16) (ty : BitVec 4) : Statement (.mlqRecv h a ka n m ty) := by
  have h0 := encHdr_le h; have h1 := a.isLt; have h2 := ka.toNat_lt; have h3 := n.isLt; have h4 := m.isLt; have h5 := ty.isLt
  simp [Statement, encode0, encodeExt]; omega

theorem mlqUnbind (h : Hdr) (n : Fin 16) : Statement (.mlqUnbind h n) := by
  have h0 := encHdr_le h; have h1 := n.isLt
  simp [Statement, encode0, encodeExt]; omega

theorem gpoolAuto (h : Hdr) (a b : Reg) (isp dst : BitVec 2) (ty : BitVec 4) (mean : Bool) (bags : BitVec 12) : Statement (.gpoolAuto h a b isp dst ty mean bags) := by
  have h0 := encHdr_le h; have h1 := a.isLt; have h2 := b.isLt; have h3 := isp.isLt; have h4 := dst.isLt; have h5 := ty.isLt; have h6 := mean.toNat_lt; have h7 := bags.isLt
  simp [Statement, encode0, encodeExt]; omega

theorem gpoolDie (h : Hdr) (a b : Reg) (isp dst : BitVec 2) (ty : BitVec 4) (mean : Bool) (bags : BitVec 12) : Statement (.gpoolDie h a b isp dst ty mean bags) := by
  have h0 := encHdr_le h; have h1 := a.isLt; have h2 := b.isLt; have h3 := isp.isLt; have h4 := dst.isLt; have h5 := ty.isLt; have h6 := mean.toNat_lt; have h7 := bags.isLt
  simp [Statement, encode0, encodeExt]; omega

theorem gpoolFar (h : Hdr) (a b : Reg) (isp dst : BitVec 2) (ty : BitVec 4) (mean : Bool) (bags : BitVec 12) : Statement (.gpoolFar h a b isp dst ty mean bags) := by
  have h0 := encHdr_le h; have h1 := a.isLt; have h2 := b.isLt; have h3 := isp.isLt; have h4 := dst.isLt; have h5 := ty.isLt; have h6 := mean.toNat_lt; have h7 := bags.isLt
  simp [Statement, encode0, encodeExt]; omega

theorem gdeq (h : Hdr) (a b : Reg) (isp dst : BitVec 2) (ty : BitVec 4) (count : BitVec 12) : Statement (.gdeq h a b isp dst ty count) := by
  have h0 := encHdr_le h; have h1 := a.isLt; have h2 := b.isLt; have h3 := isp.isLt; have h4 := dst.isLt; have h5 := ty.isLt; have h6 := count.isLt
  simp [Statement, encode0, encodeExt]; omega

theorem gscan (h : Hdr) (a b : Reg) (qsp dst : BitVec 2) (dmax : BitVec 9) (flt : Bool) (nq1 : BitVec 4) (k1 : BitVec 8) : Statement (.gscan h a b qsp dst dmax flt nq1 k1) := by
  have h0 := encHdr_le h; have h1 := a.isLt; have h2 := b.isLt; have h3 := qsp.isLt; have h4 := dst.isLt; have h5 := dmax.isLt; have h6 := flt.toNat_lt; have h7 := nq1.isLt; have h8 := k1.isLt
  simp [Statement, encode0, encodeExt]; omega

theorem grank (h : Hdr) (a b : Reg) (isp dst : BitVec 2) (ty : BitVec 4) (count : BitVec 12) : Statement (.grank h a b isp dst ty count) := by
  have h0 := encHdr_le h; have h1 := a.isLt; have h2 := b.isLt; have h3 := isp.isLt; have h4 := dst.isLt; have h5 := ty.isLt; have h6 := count.isLt
  simp [Statement, encode0, encodeExt]; omega

theorem hrpin (h : Hdr) (a b : Reg) (count : BitVec 16) : Statement (.hrpin h a b count) := by
  have h0 := encHdr_le h; have h1 := a.isLt; have h2 := b.isLt; have h3 := count.isLt
  simp [Statement, encode0, encodeExt]; omega

theorem hrfree (h : Hdr) (a b : Reg) (count : BitVec 16) : Statement (.hrfree h a b count) := by
  have h0 := encHdr_le h; have h1 := a.isLt; have h2 := b.isLt; have h3 := count.isLt
  simp [Statement, encode0, encodeExt]; omega

theorem dupd (h : Hdr) (a b : Reg) (isp gsp : BitVec 2) (ty : BitVec 4) (opt : BitVec 2) (count : BitVec 12) : Statement (.dupd h a b isp gsp ty opt count) := by
  have h0 := encHdr_le h; have h1 := a.isLt; have h2 := b.isLt; have h3 := isp.isLt; have h4 := gsp.isLt; have h5 := ty.isLt; have h6 := opt.isLt; have h7 := count.isLt
  simp [Statement, encode0, encodeExt]; omega

theorem dord (h : Hdr) (a b : Reg) (isp gsp : BitVec 2) (ty : BitVec 4) (opt : BitVec 2) (count : BitVec 12) : Statement (.dord h a b isp gsp ty opt count) := by
  have h0 := encHdr_le h; have h1 := a.isLt; have h2 := b.isLt; have h3 := isp.isLt; have h4 := gsp.isLt; have h5 := ty.isLt; have h6 := opt.isLt; have h7 := count.isLt
  simp [Statement, encode0, encodeExt]; omega

theorem xall (h : Hdr) (a b : Reg) (kb : Bool) (isp : BitVec 2) (nb1 : BitVec 6) (sft : BitVec 5) (count : BitVec 12) : Statement (.xall h a b kb isp nb1 sft count) := by
  have h0 := encHdr_le h; have h1 := a.isLt; have h2 := b.isLt; have h3 := kb.toNat_lt; have h4 := isp.isLt; have h5 := nb1.isLt; have h6 := sft.isLt; have h7 := count.isLt
  simp [Statement, encode0, encodeExt]; omega

theorem wload (h : Hdr) (a b : Reg) (ka kb : Bool) (tiles : BitVec 16) (ty : BitVec 4) (kind : BitVec 2) : Statement (.wload h a b ka kb tiles ty kind) := by
  have h0 := encHdr_le h; have h1 := a.isLt; have h2 := b.isLt; have h3 := ka.toNat_lt; have h4 := kb.toNat_lt; have h5 := tiles.isLt; have h6 := ty.isLt; have h7 := kind.isLt
  simp [Statement, encode0, encodeExt]; omega

theorem wtbl (h : Hdr) (a b : Reg) (ka kb : Bool) (src : BitVec 2) (ty : BitVec 4) (n1 first : BitVec 6) : Statement (.wtbl h a b ka kb src ty n1 first) := by
  have h0 := encHdr_le h; have h1 := a.isLt; have h2 := b.isLt; have h3 := ka.toNat_lt; have h4 := kb.toNat_lt; have h5 := src.isLt; have h6 := ty.isLt; have h7 := n1.isLt; have h8 := first.isLt
  simp [Statement, encode0, encodeExt]; omega

theorem mswaysDrain (q ways : Nat) : Statement (.mswaysDrain q ways) := by simp [Statement, encode0, encodeExt]

theorem mswaysConvert (q ways : Nat) : Statement (.mswaysConvert q ways) := by simp [Statement, encode0, encodeExt]

theorem commandStart (p cq : Nat) : Statement (.commandStart p cq) := by simp [Statement, encode0, encodeExt]

theorem commandComplete (p cq id : Nat) : Statement (.commandComplete p cq id) := by simp [Statement, encode0, encodeExt]

theorem nestStep (c : Nat) : Statement (.nestStep c) := by simp [Statement, encode0, encodeExt]

theorem epilogue (c : Nat) : Statement (.epilogue c) := by simp [Statement, encode0, encodeExt]

theorem registerWriteLanding (p : Nat) : Statement (.registerWriteLanding p) := by simp [Statement, encode0, encodeExt]

theorem loadValueReturn (p seq : Nat) : Statement (.loadValueReturn p seq) := by simp [Statement, encode0, encodeExt]

theorem heldWordResume (c : Nat) : Statement (.heldWordResume c) := by simp [Statement, encode0, encodeExt]

theorem stopSpacing (p : Nat) : Statement (.stopSpacing p) := by simp [Statement, encode0, encodeExt]

theorem pendingTrapDelivery (p : Nat) : Statement (.pendingTrapDelivery p) := by simp [Statement, encode0, encodeExt]

theorem launchPacket (va src tag : Nat) (bytes : List Byte) : Statement (.launchPacket va src tag bytes) := by simp [Statement, encode0, encodeExt]

theorem launchAccept (q : Nat) : Statement (.launchAccept q) := by simp [Statement, encode0, encodeExt]

theorem jobDispatch (q job : Nat) : Statement (.jobDispatch q job) := by simp [Statement, encode0, encodeExt]

theorem iterationHandout (q : Nat) : Statement (.iterationHandout q) := by simp [Statement, encode0, encodeExt]

theorem recordPickup (q : Nat) : Statement (.recordPickup q) := by simp [Statement, encode0, encodeExt]

theorem schedAge (q : Nat) : Statement (.schedAge q) := by simp [Statement, encode0, encodeExt]

theorem fairnessDue (p : Nat) : Statement (.fairnessDue p) := by simp [Statement, encode0, encodeExt]

theorem fairnessWindowEnd (p : Nat) : Statement (.fairnessWindowEnd p) := by simp [Statement, encode0, encodeExt]

theorem issuePass (c : Nat) : Statement (.issuePass c) := by simp [Statement, encode0, encodeExt]

theorem mangleTake (p : Nat) : Statement (.mangleTake p) := by simp [Statement, encode0, encodeExt]

theorem watchdogExpiry (p : Nat) : Statement (.watchdogExpiry p) := by simp [Statement, encode0, encodeExt]

theorem jobComplete (q job : Nat) : Statement (.jobComplete q job) := by simp [Statement, encode0, encodeExt]

theorem cancelRequest (src tag job : Nat) : Statement (.cancelRequest src tag job) := by simp [Statement, encode0, encodeExt]

theorem linkTileArrival (c n : Nat) (codes scales : List Nat) : Statement (.linkTileArrival c n codes scales) := by simp [Statement, encode0, encodeExt]

theorem ltqCredit (c n : Nat) : Statement (.ltqCredit c n) := by simp [Statement, encode0, encodeExt]

theorem ltqBindPacket (c n dev pc pn ty : Nat) (send : Bool) : Statement (.ltqBindPacket c n dev pc pn ty send) := by simp [Statement, encode0, encodeExt]

theorem ltqTimeout (c n : Nat) : Statement (.ltqTimeout c n) := by simp [Statement, encode0, encodeExt]

theorem routePacket (adapt : Option Nat) : Statement (.routePacket adapt) := by simp [Statement, encode0, encodeExt]

theorem multicastForward (src agent : Nat) (sq : List (Nat × Nat)) (stage : Nat) (groups : List Nat) (members va bar : Nat) (bytes : List Byte) : Statement (.multicastForward src agent sq stage groups members va bar bytes) := by simp [Statement, encode0, encodeExt]

theorem fabricWriteArrival (src agent sq va : Nat) (bytes : List Byte) : Statement (.fabricWriteArrival src agent sq va bytes) := by simp [Statement, encode0, encodeExt]

theorem fabricAck (sq : Nat) (lost : Bool) : Statement (.fabricAck sq lost) := by simp [Statement, encode0, encodeExt]

theorem fabricAtomicArrival (src agent sq va op : Nat) (x y : W64) : Statement (.fabricAtomicArrival src agent sq va op x y) := by simp [Statement, encode0, encodeExt]

theorem fabricAnswerWrite (sq : Nat) (lost : Bool) (val : W64) : Statement (.fabricAnswerWrite sq lost val) := by simp [Statement, encode0, encodeExt]

theorem monitorRequestArrival (src tag va : Nat) (expv : W64) : Statement (.monitorRequestArrival src tag va expv) := by simp [Statement, encode0, encodeExt]

theorem wakeWrite (tag : Nat) : Statement (.wakeWrite tag) := by simp [Statement, encode0, encodeExt]

theorem requestRecordArrival (src tag va : Nat) (bytes : List Byte) : Statement (.requestRecordArrival src tag va bytes) := by simp [Statement, encode0, encodeExt]

theorem remoteBarrierAdd (src agent sq va cnt : Nat) : Statement (.remoteBarrierAdd src agent sq va cnt) := by simp [Statement, encode0, encodeExt]

theorem ethRmaWrite (entry off : Nat) (bytes : List Byte) (feature : Nat) : Statement (.ethRmaWrite entry off bytes feature) := by simp [Statement, encode0, encodeExt]

theorem ethUntaggedSend (bytes : List Byte) (feature : Nat) : Statement (.ethUntaggedSend bytes feature) := by simp [Statement, encode0, encodeExt]

theorem ethDeliveryAck (sq : Nat) : Statement (.ethDeliveryAck sq) := by simp [Statement, encode0, encodeExt]

theorem hostRead (va len : Nat) : Statement (.hostRead va len) := by simp [Statement, encode0, encodeExt]

theorem hostWrite (va : Nat) (bytes : List Byte) : Statement (.hostWrite va bytes) := by simp [Statement, encode0, encodeExt]

theorem faultQueueAppend  : Statement (.faultQueueAppend) := by simp [Statement, encode0, encodeExt]

theorem fqPop  : Statement (.fqPop) := by simp [Statement, encode0, encodeExt]

theorem fqEnd (job : Nat) : Statement (.fqEnd job) := by simp [Statement, encode0, encodeExt]

theorem erPop  : Statement (.erPop) := by simp [Statement, encode0, encodeExt]

theorem trInvalWrite (q : Nat) (v : W64) : Statement (.trInvalWrite q v) := by simp [Statement, encode0, encodeExt]

theorem trInvalDone (q : Nat) : Statement (.trInvalDone q) := by simp [Statement, encode0, encodeExt]

theorem skClrWrite (q : Nat) (v : W64) : Statement (.skClrWrite q v) := by simp [Statement, encode0, encodeExt]

theorem sketchHalve (q slot : Nat) : Statement (.sketchHalve q slot) := by simp [Statement, encode0, encodeExt]

theorem hrCfgWrite (q : Nat) (v : W64) : Statement (.hrCfgWrite q v) := by simp [Statement, encode0, encodeExt]

theorem hrCfgTakeEffect (q : Nat) : Statement (.hrCfgTakeEffect q) := by simp [Statement, encode0, encodeExt]

theorem chmWrite (q slot ch : Nat) (v : W64) : Statement (.chmWrite q slot ch v) := by simp [Statement, encode0, encodeExt]

theorem migGo (q : Nat) : Statement (.migGo q) := by simp [Statement, encode0, encodeExt]

theorem migrationDone (q : Nat) : Statement (.migrationDone q) := by simp [Statement, encode0, encodeExt]

theorem wvQuotaWrite (v : W64) : Statement (.wvQuotaWrite v) := by simp [Statement, encode0, encodeExt]

theorem viewFree (view : Nat) : Statement (.viewFree view) := by simp [Statement, encode0, encodeExt]

theorem opSelWrite (v : W64) : Statement (.opSelWrite v) := by simp [Statement, encode0, encodeExt]

theorem opmodeApply  : Statement (.opmodeApply) := by simp [Statement, encode0, encodeExt]

theorem leaveGrant (q cls : Nat) : Statement (.leaveGrant q cls) := by simp [Statement, encode0, encodeExt]

theorem testResult (p : Nat) (fails : List W64) : Statement (.testResult p fails) := by simp [Statement, encode0, encodeExt]

theorem memoryCorrectedError (pa bank row : Nat) : Statement (.memoryCorrectedError pa bank row) := by simp [Statement, encode0, encodeExt]

theorem arraySoftError (unit : Nat) (detail : W64) : Statement (.arraySoftError unit detail) := by simp [Statement, encode0, encodeExt]

theorem linkStateChange (kind link st lanes : Nat) : Statement (.linkStateChange kind link st lanes) := by simp [Statement, encode0, encodeExt]

theorem linkFecCorrection (kind link : Nat) : Statement (.linkFecCorrection kind link) := by simp [Statement, encode0, encodeExt]

theorem powerOnReset  : Statement (.powerOnReset) := by simp [Statement, encode0, encodeExt]

theorem rstCtlWrite (v : W64) : Statement (.rstCtlWrite v) := by simp [Statement, encode0, encodeExt]

theorem boot (images : List BootImage) : Statement (.boot images) := by simp [Statement, encode0, encodeExt]

theorem atGoWrite (v : W64) : Statement (.atGoWrite v) := by simp [Statement, encode0, encodeExt]

theorem attestReportDone  : Statement (.attestReportDone) := by simp [Statement, encode0, encodeExt]

theorem replayHoldLimit (p : Nat) : Statement (.replayHoldLimit p) := by simp [Statement, encode0, encodeExt]

theorem registerWrite (q off : Nat) (v : W64) : Statement (.registerWrite q off v) := by simp [Statement, encode0, encodeExt]

theorem linkLevelRetry (kind link : Nat) : Statement (.linkLevelRetry kind link) := by simp [Statement, encode0, encodeExt]

theorem skClrDone (q : Nat) : Statement (.skClrDone q) := by simp [Statement, encode0, encodeExt]

theorem mswaysOperationEnd (q : Nat) : Statement (.mswaysOperationEnd q) := by simp [Statement, encode0, encodeExt]

end Sys2Proof.Laws.Words
end

