-- ==== Sys2Proof/Laws/Reads.lean ====
section
/-! SUPPORT. What a read leaves as it is: a read may bring sectors into the caches, fill a translation or a replica, append an error record and
count an error, and nothing else. -/

namespace Sys2Proof.Machine.Laws

set_option Elab.async false

/-- Where two states hold the same but for memory and what caches it, the error queue and the management registers. -/
def SameButRead (s t : State) : Prop :=
  ∃ b f d g e q l n m, t = { s with mem := b, failing := f, die := d, tags := g, errors := e, errSeq := q, errLost := l, notifyDue := n, mgmt := m }

theorem SameButRead.rfl (s : State) : SameButRead s s :=
  ⟨s.mem, s.failing, s.die, s.tags, s.errors, s.errSeq, s.errLost, s.notifyDue, s.mgmt, Eq.refl s⟩

theorem SameButRead.trans {s t u : State} (h : SameButRead s t) (k : SameButRead t u) : SameButRead s u := by
  obtain ⟨b, f, d, g, e, q, l, n, m, h⟩ := h
  obtain ⟨b', f', d', g', e', q', l', n', m', k⟩ := k
  subst h; exact ⟨b', f', d', g', e', q', l', n', m', k⟩

theorem foldl_same {α : Type} {f : State → α → State} (hf : ∀ s a, SameButRead s (f s a)) : ∀ (l : List α) (s : State), SameButRead s (l.foldl f s)
  | [], s => SameButRead.rfl s
  | a :: l, s => (hf s a).trans (foldl_same hf l (f s a))

theorem tags_same (s : State) (g : Tags) : SameButRead s { s with tags := g } := ⟨_, _, _, _, _, _, _, _, _, Eq.refl _⟩

theorem appendError_same (s : State) (u v k : Nat) (a d : W64) : SameButRead s (appendError s u v k a d) := by
  unfold appendError; split <;> exact ⟨_, _, _, _, _, _, _, _, _, Eq.refl _⟩

theorem mbump_same (s : State) (q off w : Nat) : SameButRead s (mbump s q off w) := by
  simp only [mbump]; split
  · exact SameButRead.rfl s
  · exact ⟨_, _, _, _, _, _, _, _, _, Eq.refl _⟩

theorem recordBad_same (s : State) (pa d : Nat) : SameButRead s (recordBad s pa d) := by
  simp only [recordBad]; repeat' split
  · exact (appendError_same s _ _ _ _ _).trans (mbump_same _ _ _ _)
  · exact (appendError_same s _ _ _ _ _).trans (mbump_same _ _ _ _)
  · exact appendError_same s _ _ _ _ _

theorem meetError_same (s : State) (q pte pa : Nat) : SameButRead s (meetError s q pte pa).1 := by
  simp only [meetError]; split
  · exact (recordBad_same s pa _).trans (mbump_same _ _ _ _)
  · exact recordBad_same s pa _

theorem fillSector_same (s : State) (pa : Nat) : SameButRead s (fillSector s pa) := by
  unfold fillSector; split
  · exact SameButRead.rfl s
  · exact ⟨_, _, _, _, _, _, _, _, _, Eq.refl _⟩

theorem useMsc_same (s : State) (pa hint : Nat) : SameButRead s (useMsc s pa hint) := by
  simp only [useMsc]; repeat' split
  all_goals first | exact SameButRead.rfl s | exact tags_same s _

theorem useVirt_same (s : State) (key pa hint : Nat) : SameButRead s (useVirt s key pa hint) := by
  unfold useVirt; repeat' split
  all_goals first | exact SameButRead.rfl s | exact tags_same s _

theorem keepBehind_same (s : State) (pa : Nat) : SameButRead s (keepBehind s pa) := by
  simp only [keepBehind]; split
  · exact tags_same s _
  · exact SameButRead.rfl s

theorem putSector_same (s : State) (pa : Nat) (bs : List Byte) (hint : Nat) : SameButRead s (putSector s pa bs hint) := by
  by_cases hl : bs.length = 32 <;> simp only [putSector, hl, ↓reduceIte] <;> split <;>
    first | exact ⟨_, _, _, _, _, _, _, _, _, Eq.refl _⟩ | (split <;> exact ⟨_, _, _, _, _, _, _, _, _, Eq.refl _⟩)

theorem fillReplica_same (s : State) (h asid q off pte : Nat) : SameButRead s (fillReplica s h asid q off pte) := by
  simp only [fillReplica]; split
  · exact SameButRead.rfl s
  · exact (foldl_same (fun s i => (keepBehind_same s _).trans (putSector_same _ _ _ _)) _ s).trans (tags_same _ _)

theorem useLevels_same (s : State) (ls : List Nat) (asid line pa hint view : Nat) : SameButRead s (useLevels s ls asid line pa hint view) := by
  have h : SameButRead s (if 3 ≤ hint then s else fillSector s pa) := by
    split
    · exact SameButRead.rfl s
    · exact fillSector_same s pa
  exact h.trans ((foldl_same (fun s l => useVirt_same s _ _ _) _ _).trans (useMsc_same _ _ _))

theorem noteLeaf_same (s : State) (q asid off : Nat) : SameButRead s (noteLeaf s q asid off) := by
  have h : ∀ (l : List Nat) (s : State), SameButRead s (l.foldl (fun s a => if unreadable s a then recordBad s a 0
      else if backed s (a / 8 * 8) 8 then useMsc (fillSector s a) a 0 else s) s) := fun l s =>
    foldl_same (fun s a => by
      split
      · exact recordBad_same s a 0
      · split
        · exact (fillSector_same s a).trans (useMsc_same _ _ _)
        · exact SameButRead.rfl s) l s
  unfold noteLeaf; dsimp only
  split
  · exact SameButRead.rfl s
  · split
    · exact tags_same s _
    · split
      · exact h _ s
      · exact (h _ s).trans (tags_same _ _)

/-- What a read of a failing sector changes (R77, R281). -/
theorem metError_same (s : State) (q pte pa n : Nat) : SameButRead s ((match meetError s q pte pa with
    | (s, some b) => (s, .ok ((b.drop (pa % 32)).take n))
    | (s, none) => (s, .error (.bad pa))) : State × Except MemErr (List Byte)).1 := by
  have h1 := meetError_same s q pte pa
  split <;> rename_i e <;> rw [e] at h1 <;> exact h1

theorem readBase_same (s : State) (c : Ctx) (q off pte n hint : Nat) : SameButRead s (readBase s c q off pte n hint).1 := by
  unfold readBase; dsimp only
  split
  · exact metError_same _ _ _ _ _
  · refine SameButRead.trans ?_ (useLevels_same _ _ _ _ _ _ _)
    split
    · exact fillReplica_same _ _ _ _ _ _
    · exact SameButRead.rfl s

theorem readOverlay_same (s : State) (c : Ctx) (u : Nat) (l : OverlayLine) (q off pte n hint : Nat) :
    SameButRead s (readOverlay s c u l q off pte n hint).1 := by
  unfold readOverlay; dsimp only
  split
  · exact SameButRead.rfl s
  · split
    · exact metError_same _ _ _ _ _
    · exact useLevels_same _ _ _ _ _ _ _

theorem readPiece_same (s : State) (c : Ctx) (va n hint : Nat) : SameButRead s (readPiece s c va n hint).1 := by
  unfold readPiece
  split
  · split
    · split
      · dsimp only; split
        · exact SameButRead.rfl s
        · exact foldl_same (fun s l => useVirt_same s _ _ _) _ s
      · split
        · exact noteLeaf_same s _ _ _
        · exact (noteLeaf_same s _ _ _).trans (readOverlay_same _ _ _ _ _ _ _ _ _)
      · split
        · exact noteLeaf_same s _ _ _
        · exact (noteLeaf_same s _ _ _).trans (readBase_same _ _ _ _ _ _ _)
    · exact SameButRead.rfl s
    · exact SameButRead.rfl s
  · exact SameButRead.rfl s

theorem readPieces_same : ∀ (l : List (Nat × Nat)) (s : State) (c : Ctx) (hint : Nat), SameButRead s (readPieces s c hint l).1
  | [], s, _, _ => SameButRead.rfl s
  | (va, n) :: r, s, c, hint => by
    have h1 := readPiece_same s c va n hint
    unfold readPieces
    split
    · rename_i e; rw [e] at h1; exact h1
    · rename_i s' b e
      rw [e] at h1
      have h2 := readPieces_same r s' c hint
      split <;> rename_i e2 <;> rw [e2] at h2 <;> exact h1.trans h2

/-- All that a read may change. -/
theorem readVa_same (s : State) (c : Ctx) (va n hint : Nat) : SameButRead s (readVa s c va n hint).1 := readPieces_same _ s c hint

@[simp] theorem readVa_agenda (s : State) (c : Ctx) (va n hint : Nat) : (readVa s c va n hint).1.agenda = s.agenda := by
  obtain ⟨_, _, _, _, _, _, _, _, _, h⟩ := readVa_same s c va n hint; rw [h]

@[simp] theorem readVa_cur (s : State) (c : Ctx) (va n hint : Nat) : (readVa s c va n hint).1.cur = s.cur := by
  obtain ⟨_, _, _, _, _, _, _, _, _, h⟩ := readVa_same s c va n hint; rw [h]

@[simp] theorem readVa_curWord (s : State) (c : Ctx) (va n hint : Nat) : (readVa s c va n hint).1.curWord = s.curWord := by
  obtain ⟨_, _, _, _, _, _, _, _, _, h⟩ := readVa_same s c va n hint; rw [h]

@[simp] theorem readVa_nextSeq (s : State) (c : Ctx) (va n hint : Nat) : (readVa s c va n hint).1.nextSeq = s.nextSeq := by
  obtain ⟨_, _, _, _, _, _, _, _, _, h⟩ := readVa_same s c va n hint; rw [h]

@[simp] theorem readVa_time (s : State) (c : Ctx) (va n hint : Nat) : (readVa s c va n hint).1.time = s.time := by
  obtain ⟨_, _, _, _, _, _, _, _, _, h⟩ := readVa_same s c va n hint; rw [h]

@[simp] theorem readVa_parts (s : State) (c : Ctx) (va n hint : Nat) : (readVa s c va n hint).1.parts = s.parts := by
  obtain ⟨_, _, _, _, _, _, _, _, _, h⟩ := readVa_same s c va n hint; rw [h]

@[simp] theorem readVa_cores (s : State) (c : Ctx) (va n hint : Nat) : (readVa s c va n hint).1.cores = s.cores := by
  obtain ⟨_, _, _, _, _, _, _, _, _, h⟩ := readVa_same s c va n hint; rw [h]

@[simp] theorem readVa_quarters (s : State) (c : Ctx) (va n hint : Nat) : (readVa s c va n hint).1.quarters = s.quarters := by
  obtain ⟨_, _, _, _, _, _, _, _, _, h⟩ := readVa_same s c va n hint; rw [h]

@[simp] theorem readVa_views (s : State) (c : Ctx) (va n hint : Nat) : (readVa s c va n hint).1.views = s.views := by
  obtain ⟨_, _, _, _, _, _, _, _, _, h⟩ := readVa_same s c va n hint; rw [h]

@[simp] theorem readVa_forks (s : State) (c : Ctx) (va n hint : Nat) : (readVa s c va n hint).1.forks = s.forks := by
  obtain ⟨_, _, _, _, _, _, _, _, _, h⟩ := readVa_same s c va n hint; rw [h]

@[simp] theorem readVa_monitors (s : State) (c : Ctx) (va n hint : Nat) : (readVa s c va n hint).1.monitors = s.monitors := by
  obtain ⟨_, _, _, _, _, _, _, _, _, h⟩ := readVa_same s c va n hint; rw [h]

@[simp] theorem readVa_faults (s : State) (c : Ctx) (va n hint : Nat) : (readVa s c va n hint).1.faults = s.faults := by
  obtain ⟨_, _, _, _, _, _, _, _, _, h⟩ := readVa_same s c va n hint; rw [h]

@[simp] theorem readVa_faultsWaiting (s : State) (c : Ctx) (va n hint : Nat) : (readVa s c va n hint).1.faultsWaiting = s.faultsWaiting := by
  obtain ⟨_, _, _, _, _, _, _, _, _, h⟩ := readVa_same s c va n hint; rw [h]

@[simp] theorem readVa_retries (s : State) (c : Ctx) (va n hint : Nat) : (readVa s c va n hint).1.retries = s.retries := by
  obtain ⟨_, _, _, _, _, _, _, _, _, h⟩ := readVa_same s c va n hint; rw [h]

@[simp] theorem readVa_invalBusy (s : State) (c : Ctx) (va n hint : Nat) : (readVa s c va n hint).1.invalBusy = s.invalBusy := by
  obtain ⟨_, _, _, _, _, _, _, _, _, h⟩ := readVa_same s c va n hint; rw [h]

@[simp] theorem readVa_migrating (s : State) (c : Ctx) (va n hint : Nat) : (readVa s c va n hint).1.migrating = s.migrating := by
  obtain ⟨_, _, _, _, _, _, _, _, _, h⟩ := readVa_same s c va n hint; rw [h]

@[simp] theorem readVa_opBusy (s : State) (c : Ctx) (va n hint : Nat) : (readVa s c va n hint).1.opBusy = s.opBusy := by
  obtain ⟨_, _, _, _, _, _, _, _, _, h⟩ := readVa_same s c va n hint; rw [h]

@[simp] theorem readVa_rowCounts (s : State) (c : Ctx) (va n hint : Nat) : (readVa s c va n hint).1.rowCounts = s.rowCounts := by
  obtain ⟨_, _, _, _, _, _, _, _, _, h⟩ := readVa_same s c va n hint; rw [h]

@[simp] theorem readVa_modeSet (s : State) (c : Ctx) (va n hint : Nat) : (readVa s c va n hint).1.modeSet = s.modeSet := by
  obtain ⟨_, _, _, _, _, _, _, _, _, h⟩ := readVa_same s c va n hint; rw [h]

@[simp] theorem readVa_profile (s : State) (c : Ctx) (va n hint : Nat) : (readVa s c va n hint).1.profile = s.profile := by
  obtain ⟨_, _, _, _, _, _, _, _, _, h⟩ := readVa_same s c va n hint; rw [h]

@[simp] theorem readVa_ordered (s : State) (c : Ctx) (va n hint : Nat) : (readVa s c va n hint).1.ordered = s.ordered := by
  obtain ⟨_, _, _, _, _, _, _, _, _, h⟩ := readVa_same s c va n hint; rw [h]

@[simp] theorem readVa_capture (s : State) (c : Ctx) (va n hint : Nat) : (readVa s c va n hint).1.capture = s.capture := by
  obtain ⟨_, _, _, _, _, _, _, _, _, h⟩ := readVa_same s c va n hint; rw [h]

@[simp] theorem readVa_packets (s : State) (c : Ctx) (va n hint : Nat) : (readVa s c va n hint).1.packets = s.packets := by
  obtain ⟨_, _, _, _, _, _, _, _, _, h⟩ := readVa_same s c va n hint; rw [h]

@[simp] theorem readVa_wire (s : State) (c : Ctx) (va n hint : Nat) : (readVa s c va n hint).1.wire = s.wire := by
  obtain ⟨_, _, _, _, _, _, _, _, _, h⟩ := readVa_same s c va n hint; rw [h]

@[simp] theorem readVa_sentNo (s : State) (c : Ctx) (va n hint : Nat) : (readVa s c va n hint).1.sentNo = s.sentNo := by
  obtain ⟨_, _, _, _, _, _, _, _, _, h⟩ := readVa_same s c va n hint; rw [h]

@[simp] theorem readVa_arrivedNo (s : State) (c : Ctx) (va n hint : Nat) : (readVa s c va n hint).1.arrivedNo = s.arrivedNo := by
  obtain ⟨_, _, _, _, _, _, _, _, _, h⟩ := readVa_same s c va n hint; rw [h]
@[simp] theorem readVa_castDone (s : State) (c : Ctx) (va n hint : Nat) : (readVa s c va n hint).1.castDone = s.castDone := by
  obtain ⟨_, _, _, _, _, _, _, _, _, h⟩ := readVa_same s c va n hint; rw [h]

@[simp] theorem readVa_awaits (s : State) (c : Ctx) (va n hint : Nat) : (readVa s c va n hint).1.awaits = s.awaits := by
  obtain ⟨_, _, _, _, _, _, _, _, _, h⟩ := readVa_same s c va n hint; rw [h]

@[simp] theorem readVa_hostOut (s : State) (c : Ctx) (va n hint : Nat) : (readVa s c va n hint).1.hostOut = s.hostOut := by
  obtain ⟨_, _, _, _, _, _, _, _, _, h⟩ := readVa_same s c va n hint; rw [h]

@[simp] theorem readVa_hostAnswers (s : State) (c : Ctx) (va n hint : Nat) : (readVa s c va n hint).1.hostAnswers = s.hostAnswers := by
  obtain ⟨_, _, _, _, _, _, _, _, _, h⟩ := readVa_same s c va n hint; rw [h]

@[simp] theorem readVa_ethOut (s : State) (c : Ctx) (va n hint : Nat) : (readVa s c va n hint).1.ethOut = s.ethOut := by
  obtain ⟨_, _, _, _, _, _, _, _, _, h⟩ := readVa_same s c va n hint; rw [h]

@[simp] theorem readVa_ready (s : State) (c : Ctx) (va n hint : Nat) : (readVa s c va n hint).1.ready = s.ready := by
  obtain ⟨_, _, _, _, _, _, _, _, _, h⟩ := readVa_same s c va n hint; rw [h]

@[simp] theorem readVa_bootStage (s : State) (c : Ctx) (va n hint : Nat) : (readVa s c va n hint).1.bootStage = s.bootStage := by
  obtain ⟨_, _, _, _, _, _, _, _, _, h⟩ := readVa_same s c va n hint; rw [h]

@[simp] theorem readVa_bootCode (s : State) (c : Ctx) (va n hint : Nat) : (readVa s c va n hint).1.bootCode = s.bootCode := by
  obtain ⟨_, _, _, _, _, _, _, _, _, h⟩ := readVa_same s c va n hint; rw [h]

@[simp] theorem readVa_measure (s : State) (c : Ctx) (va n hint : Nat) : (readVa s c va n hint).1.measure = s.measure := by
  obtain ⟨_, _, _, _, _, _, _, _, _, h⟩ := readVa_same s c va n hint; rw [h]

@[simp] theorem readVa_atHomes (s : State) (c : Ctx) (va n hint : Nat) : (readVa s c va n hint).1.atHomes = s.atHomes := by
  obtain ⟨_, _, _, _, _, _, _, _, _, h⟩ := readVa_same s c va n hint; rw [h]

@[simp] theorem readVa_resets (s : State) (c : Ctx) (va n hint : Nat) : (readVa s c va n hint).1.resets = s.resets := by
  obtain ⟨_, _, _, _, _, _, _, _, _, h⟩ := readVa_same s c va n hint; rw [h]

@[simp] theorem readVa_kept (s : State) (c : Ctx) (va n hint : Nat) : (readVa s c va n hint).1.kept = s.kept := by
  obtain ⟨_, _, _, _, _, _, _, _, _, h⟩ := readVa_same s c va n hint; rw [h]

@[simp] theorem readVa_reportBusy (s : State) (c : Ctx) (va n hint : Nat) : (readVa s c va n hint).1.reportBusy = s.reportBusy := by
  obtain ⟨_, _, _, _, _, _, _, _, _, h⟩ := readVa_same s c va n hint; rw [h]

/-! ## What a read of base memory answers -/

theorem memBytes_getD : ∀ (n : Nat) (m : List Host.Cell) (a i : Nat), i < n → (memBytes m a n).getD i 0 = memGet m (a + i)
  | 0, _, _, _, h => absurd h (Nat.not_lt_zero _)
  | n + 1, m, a, 0, _ => rfl
  | n + 1, m, a, i + 1, h => by
    have := memBytes_getD n m (a + 1) i (by omega)
    simpa [memBytes, Nat.add_assoc, Nat.add_comm 1 i] using this

/-- Where every coherent reader sees the same. -/
def SameBytes (s t : State) : Prop := ∀ a, cohByte t a = cohByte s a

theorem sameBytes_of {s t : State} (hm : t.mem = s.mem) (hd : t.die = s.die) : SameBytes s t := fun a => by simp [cohByte, hm, hd]

theorem SameBytes.trans {s t u : State} (h : SameBytes s t) (k : SameBytes t u) : SameBytes s u := fun a => (k a).trans (h a)

theorem fillSector_bytes (s : State) (pa : Nat) : SameBytes s (fillSector s pa) := by
  intro a
  unfold fillSector; split
  · rfl
  · rename_i h
    have hn : fget s.die (pa / 32) = none := by
      cases e : fget s.die (pa / 32) with
      | none => rfl
      | some c => simp [e] at h
    by_cases ha : a / 32 = pa / 32
    · have hlt : a % 32 < 32 := Nat.mod_lt _ (by decide)
      have e : pa / 32 * 32 + a % 32 = a := by omega
      simp only [cohByte, ha, fget_fput_same, hn, memBytes_getD 32 s.mem _ _ hlt, e]
    · simp only [cohByte, fget_fput_other _ _ ha]

theorem useMsc_bytes (s : State) (pa hint : Nat) : SameBytes s (useMsc s pa hint) := by
  simp only [useMsc]; repeat' split
  all_goals exact fun _ => rfl

theorem mbump_bytes (s : State) (q off w : Nat) : SameBytes s (mbump s q off w) := by
  simp only [mbump]; split <;> exact fun _ => rfl

theorem appendError_bytes (s : State) (u v k : Nat) (a d : W64) : SameBytes s (appendError s u v k a d) := by
  unfold appendError; split <;> exact fun _ => rfl

theorem recordBad_bytes (s : State) (pa d : Nat) : SameBytes s (recordBad s pa d) := by
  simp only [recordBad]; repeat' split
  · exact (appendError_bytes s _ _ _ _ _).trans (mbump_bytes _ _ _ _)
  · exact (appendError_bytes s _ _ _ _ _).trans (mbump_bytes _ _ _ _)
  · exact appendError_bytes s _ _ _ _ _

theorem foldl_bytes {α : Type} {f : State → α → State} (hf : ∀ s a, SameBytes s (f s a)) : ∀ (l : List α) (s : State), SameBytes s (l.foldl f s)
  | [], _ => fun _ => rfl
  | a :: l, s => (hf s a).trans (foldl_bytes hf l (f s a))

/-- A translation changes no byte. -/
theorem noteLeaf_bytes (s : State) (q asid off : Nat) : SameBytes s (noteLeaf s q asid off) := by
  have h : ∀ (l : List Nat) (s : State), SameBytes s (l.foldl (fun s a => if unreadable s a then recordBad s a 0
      else if backed s (a / 8 * 8) 8 then useMsc (fillSector s a) a 0 else s) s) := fun l s =>
    foldl_bytes (fun s a => by
      split
      · exact recordBad_bytes s a 0
      · split
        · exact (fillSector_bytes s a).trans (useMsc_bytes _ _ _)
        · exact fun _ => rfl) l s
  unfold noteLeaf; dsimp only
  split
  · exact fun _ => rfl
  · split
    · exact fun _ => rfl
    · split
      · exact h _ s
      · exact (h _ s).trans fun _ => rfl

theorem cohBytes_of {s t : State} (h : SameBytes s t) : ∀ (n a : Nat), cohBytes t a n = cohBytes s a n
  | 0, _ => rfl
  | n + 1, a => by simp only [cohBytes, h a, cohBytes_of h n]

/-- What can be read stays readable. -/
def KeepsReadable (s t : State) : Prop := t.failing = s.failing ∧ ∀ k, (fget s.die k).isSome = true → (fget t.die k).isSome = true

theorem KeepsReadable.trans {s t u : State} (h : KeepsReadable s t) (k : KeepsReadable t u) : KeepsReadable s u :=
  ⟨k.1.trans h.1, fun x hx => k.2 x (h.2 x hx)⟩

theorem keepsReadable_of {s t : State} (hf : t.failing = s.failing) (hd : t.die = s.die) : KeepsReadable s t := ⟨hf, fun k h => by rw [hd]; exact h⟩

theorem foldl_readable {α : Type} {f : State → α → State} (hf : ∀ s a, KeepsReadable s (f s a)) :
    ∀ (l : List α) (s : State), KeepsReadable s (l.foldl f s)
  | [], _ => ⟨rfl, fun _ h => h⟩
  | a :: l, s => (hf s a).trans (foldl_readable hf l (f s a))

theorem fillSector_readable (s : State) (pa : Nat) : KeepsReadable s (fillSector s pa) := by
  unfold fillSector; split
  · exact ⟨rfl, fun _ h => h⟩
  · refine ⟨rfl, fun k h => ?_⟩
    by_cases hk : k = pa / 32
    · subst hk; simp
    · simpa only [fget_fput_other _ _ hk] using h

theorem useMsc_readable (s : State) (pa hint : Nat) : KeepsReadable s (useMsc s pa hint) := by
  simp only [useMsc]; repeat' split
  all_goals exact ⟨rfl, fun _ h => h⟩

theorem mbump_readable (s : State) (q off w : Nat) : KeepsReadable s (mbump s q off w) := by
  simp only [mbump]; split <;> exact ⟨rfl, fun _ h => h⟩

theorem appendError_readable (s : State) (u v k : Nat) (a d : W64) : KeepsReadable s (appendError s u v k a d) := by
  unfold appendError; split <;> exact ⟨rfl, fun _ h => h⟩

theorem recordBad_readable (s : State) (pa d : Nat) : KeepsReadable s (recordBad s pa d) := by
  simp only [recordBad]; repeat' split
  · exact (appendError_readable s _ _ _ _ _).trans (mbump_readable _ _ _ _)
  · exact (appendError_readable s _ _ _ _ _).trans (mbump_readable _ _ _ _)
  · exact appendError_readable s _ _ _ _ _

theorem noteLeaf_readable (s : State) (q asid off : Nat) : KeepsReadable s (noteLeaf s q asid off) := by
  have h : ∀ (l : List Nat) (s : State), KeepsReadable s (l.foldl (fun s a => if unreadable s a then recordBad s a 0
      else if backed s (a / 8 * 8) 8 then useMsc (fillSector s a) a 0 else s) s) := fun l s =>
    foldl_readable (fun s a => by
      split
      · exact recordBad_readable s a 0
      · split
        · exact (fillSector_readable s a).trans (useMsc_readable _ _ _)
        · exact ⟨rfl, fun _ h => h⟩) l s
  unfold noteLeaf; dsimp only
  split
  · exact ⟨rfl, fun _ h => h⟩
  · split
    · exact ⟨rfl, fun _ h => h⟩
    · split
      · exact h _ s
      · exact (h _ s).trans ⟨rfl, fun _ h => h⟩

theorem readable_of {s t : State} (h : KeepsReadable s t) {pa : Nat} (hu : unreadable s pa = false) : unreadable t pa = false := by
  unfold unreadable at hu ⊢
  rw [h.1]
  cases hs : fget s.die (pa / 32) with
  | none => rw [hs] at hu; simp only [Option.isNone_none, Bool.true_and] at hu; rw [hu, Bool.and_false]
  | some c =>
    have := h.2 (pa / 32) (by rw [hs]; rfl)
    cases ht : fget t.die (pa / 32) with
    | none => rw [ht] at this; exact absurd this (by decide)
    | some d => rfl

/-- A read inside one sector of base memory answers the bytes that every coherent reader sees at the place of its leaf, where no line that an
earlier mapping left behind answers it (R75, R287). -/
theorem readPiece_base {s : State} {c : Ctx} {va n hint q off pte place : Nat} (hv : c.view = 0) (hl : locOf va = .here q off)
    (hm : spotOf s q off = .memory) (ht : leafAt s q c.asid off = some (pte, place)) (hr : (nbit pte 48 && homeQuarter c != q) = false)
    (hh : ∀ v, hitLine s c q off = some v → v.old = none ∧ 128 * v.pa + off % 128 = leafPa pte off)
    (hu : unreadable s (leafPa pte off) = false) : (readPiece s c va n hint).2 = .ok (cohBytes s (leafPa pte off) n) := by
  have ho : overlayFind s c.view (lineOf q off) = none := by rw [hv]; rfl
  unfold readPiece
  simp only [hl, hm, ho]
  cases hk : hitLine s c q off with
  | some v =>
    obtain ⟨h1, h2⟩ := hh v hk
    simp only [h1, h2]
  | none =>
    simp only [ht]
    have hp : placeFor pte q (homeQuarter c) off = leafPa pte off := by
      have : ¬(nbit pte 48 = true ∧ homeQuarter c ≠ q) := by simpa using hr
      simp [placeFor, this]
    have h1 := readable_of (noteLeaf_readable s q c.asid off) hu
    simp only [readBase, sourceFor, hr, Bool.false_and, Bool.false_eq_true, ↓reduceIte, h1, hp]
    rw [cohBytes_of (noteLeaf_bytes s q c.asid off)]

end Sys2Proof.Machine.Laws
end

