-- ==== Sys2Proof/Tests/Slice0.lean ====
section
/-! SUPPORT. Small tests: what well-formedness refuses, words written out from the encoding tables, one step on a small state, and for
every statement with hypotheses a state and operands that meet them. -/

namespace Sys2Proof.Machine.Tests

open Sys2Proof Sys2Proof.Machine Sys2Proof.Machine.Safety

set_option Elab.async false

/-! ## Helpers -/

/-- The bits of a header. -/
def h0 : Hdr := { wp := false, sp := false, wn := false, sn := false, stop := false }

def hs : Hdr := { h0 with stop := true }

/-- A booted device: partition 0 of core 0 holds a record and the issue, and one 16 GiB page is mapped. -/
def base : State := { State.reset.withFetchWord 32 0 with agenda := [], time := 10 }

def wit (f : Part → Part) : State := modPart base 0 f

/-- The same with these queue registers. -/
def wr (l : FMap (List W64)) : State := wit fun x => { x with regs := l }

/-- The same at supervisor or service level; names from x24 on reach the supervisor bank. -/
def wp (lvl : Nat) (l : FMap (List W64)) : State := wit fun x => { x with regs := l, priv := lvl }

/-- A mapped address. -/
def dat : W64 := 0xFFFF000400001000

def issuesB (s : State) (h : Hdr) (n : Need) (vals : List W64) (regs : FMap (List W64)) (tokens : FMap Nat) : Bool :=
  (part s s.cur).entering.isNone && (part s s.cur).pending.isEmpty && (h.stop || decide ((part s s.cur).unflagged < 63)) && !n.ill &&
  !loopCuts (part s s.cur).loops (part s s.cur).priv (part s s.cur).pc.toNat n.words && (!n.access && decide (n.level ≤ (part s s.cur).priv)) &&
  (match takeReads (part s s.cur).regs n.reads with | .ok x => x == (vals, regs) | .error _ => false) &&
  decide (n.dst = 0 ∨ (fgetD regs n.dst []).length + inFlight (part s s.cur) n.dst + 1 ≤ 4) && !postHolds s s.cur &&
  decide ((part s s.cur).priv ≠ 0 ∨ (core s (coreOf s.cur)).sideHeld = []) && decide (waitTokens (part s s.cur) h n = some tokens)

theorem issues_of {s : State} {h : Hdr} {n : Need} {vals : List W64} {regs : FMap (List W64)} {tokens : FMap Nat}
    (e : issuesB s h n vals regs tokens = true) : Issues s h n vals regs tokens := by
  simp only [issuesB, Bool.and_eq_true, Bool.or_eq_true, Bool.not_eq_true', decide_eq_true_eq, Option.isNone_iff_eq_none, List.isEmpty_iff] at e
  obtain ⟨⟨⟨⟨⟨⟨⟨⟨⟨⟨a, b⟩, c⟩, d⟩, e'⟩, f⟩, g⟩, i⟩, j⟩, k⟩, l⟩ := e
  refine ⟨a, b, c, d, e', f, ?_, i, j, k, l⟩
  split at g
  · next x hx => rw [hx, eq_of_beq g]
  · exact absurd g (by decide)

theorem ok_of {α ε β : Type} (x : α × Except ε β) (h : (match x.2 with | .ok _ => true | .error _ => false) = true) : ∃ u b, x = (u, .ok b) := by
  obtain ⟨u, e | b⟩ := x
  · exact absurd h (by simp)
  · exact ⟨u, b, rfl⟩

theorem fault_of {α : Type} {k va : Nat} (x : State × Except MemErr α) (h : (match x.2 with | .error (.fault i a) => i == k && a == va | _ => false) = true) :
    x = (x.1, .error (.fault k va)) := by
  obtain ⟨u, e | b⟩ := x
  · cases e <;> simp_all
  · exact absurd h (by simp)

theorem unrec_of {s : State} (a : s.capture = false) (b : findJob s (jobOf s s.cur) = none) : Unrecorded s :=
  ⟨a, fun j h => by rw [b] at h; exact absurd h (by simp)⟩

/-- What the issue leaves of `wr`. -/
def went (s : State) (l : FMap (List W64)) : State := issued s h0 l []

/-- The same where word `i` makes accesses. -/
def noting (s : State) (l : FMap (List W64)) (i : Instr) : State := noted s h0 l [] i

/-- Whether a step answers this next state. -/
def nextIs (o : Host.Outcome State Fault Refusal) (t : State) : Bool := match o with | .next u => u == t | _ => false

/-! ## Hypotheses that can be met: the control core -/

theorem witness_ArithmeticPushesResult : Issues (wr [(1, [7]), (2, [3])]) h0 { reads := [rd (wr [(1, [7]), (2, [3])]) 1 false, rd (wr [(1, [7]), (2, [3])]) 2 true], dst := dstOf (wr [(1, [7]), (2, [3])]) 31 } [7, 3] [(1, []), (2, [3])] [] :=
  issues_of (by decide +kernel)

theorem witness_ArithmeticPushesResult_x0 : Issues (wr []) h0 { reads := [rd (wr []) 0 false, rd (wr []) 0 false], dst := dstOf (wr []) 0 } [0, 0] [] [] := issues_of (by decide +kernel)

theorem witness_ArithmeticPushesResult_bank : Issues (wp 1 [(39, [5])]) h0 { reads := [rd (wp 1 [(39, [5])]) 31 true, rd (wp 1 [(39, [5])]) 31 true], dst := dstOf (wp 1 [(39, [5])]) 31 } [5, 5] [(39, [5])] [] :=
  issues_of (by decide +kernel)

theorem witness_DivisionPushesQuotientAndRemainder_zero : Issues (wr [(1, [7]), (2, [0])]) h0 { reads := [rd (wr [(1, [7]), (2, [0])]) 1 false, rd (wr [(1, [7]), (2, [0])]) 2 false], dst := dstOf (wr [(1, [7]), (2, [0])]) 3 } [7, 0] [(1, []), (2, [])] [] ∧
    (0 : W64) = 0 := ⟨issues_of (by decide +kernel), by decide⟩

theorem witness_DivisionPushesQuotientAndRemainder_least : Issues (wr [(1, [0x8000000000000000]), (2, [0xFFFFFFFFFFFFFFFF])]) h0 { reads := [rd (wr [(1, [0x8000000000000000]), (2, [0xFFFFFFFFFFFFFFFF])]) 1 false, rd (wr [(1, [0x8000000000000000]), (2, [0xFFFFFFFFFFFFFFFF])]) 2 false], dst := dstOf (wr [(1, [0x8000000000000000]), (2, [0xFFFFFFFFFFFFFFFF])]) 3 } [0x8000000000000000, 0xFFFFFFFFFFFFFFFF] [(1, []), (2, [])] [] ∧
    (0x8000000000000000 : W64) = 0x8000000000000000 ∧ (0xFFFFFFFFFFFFFFFF : W64) = 0xFFFFFFFFFFFFFFFF := ⟨issues_of (by decide +kernel), by decide⟩

theorem witness_DivisionPushesQuotientAndRemainder : Issues (wr [(1, [0xFFFFFFFFFFFFFFF9]), (2, [2])]) h0 { reads := [rd (wr [(1, [0xFFFFFFFFFFFFFFF9]), (2, [2])]) 1 false, rd (wr [(1, [0xFFFFFFFFFFFFFFF9]), (2, [2])]) 2 false], dst := dstOf (wr [(1, [0xFFFFFFFFFFFFFFF9]), (2, [2])]) 3 } [0xFFFFFFFFFFFFFFF9, 2] [(1, []), (2, [])] [] ∧
    (2 : W64) ≠ 0 ∧ ¬((0xFFFFFFFFFFFFFFF9 : W64) = 0x8000000000000000 ∧ (2 : W64) = 0xFFFFFFFFFFFFFFFF) := ⟨issues_of (by decide +kernel), by decide⟩

theorem witness_BitCountsPushResult : Issues (wr [(1, [0])]) h0 { reads := [rd (wr [(1, [0])]) 1 false], dst := dstOf (wr [(1, [0])]) 3 } [0] [(1, [])] [] := issues_of (by decide +kernel)

theorem witness_ImmediateFormsPushResult : Issues (wr [(1, [9])]) h0 { reads := [rd (wr [(1, [9])]) 1 true], dst := dstOf (wr [(1, [9])]) 3 } [9] [(1, [9])] [] ∧
    Issues (wr []) h0 { dst := dstOf (wr []) 3 } [] [] [] ∧ Issues (wr []) h0 { words := 3, dst := dstOf (wr []) 3 } [] [] [] :=
  ⟨issues_of (by decide +kernel), issues_of (by decide +kernel), issues_of (by decide +kernel)⟩

theorem witness_BranchesTakeTheirCondition : Issues (wr [(1, [7, 3])]) h0 { reads := [rd (wr [(1, [7, 3])]) 1 false, rd (wr [(1, [7, 3])]) 1 false] } [7, 3] [(1, [])] [] ∧
    Issues (wr [(1, [7, 3])]) h0 { reads := [rd (wr [(1, [7, 3])]) 1 false] } [7] [(1, [3])] [] := ⟨issues_of (by decide +kernel), issues_of (by decide +kernel)⟩

theorem witness_JumpsReachTheirTarget : Issues (wr []) h0 { words := 2 } [] [] [] ∧ Issues (wr []) h0 { words := 2, dst := dstOf (wr []) 5 } [] [] [] ∧
    Issues (wr [(1, [8])]) h0 { reads := [rd (wr [(1, [8])]) 1 false] } [8] [(1, [])] [] ∧ (8 : W64).toNat % 4 = 0 ∧
    Issues (wr [(1, [6])]) h0 { reads := [rd (wr [(1, [6])]) 1 false] } [6] [(1, [])] [] ∧ (6 : W64).toNat % 4 ≠ 0 :=
  ⟨issues_of (by decide +kernel), issues_of (by decide +kernel), issues_of (by decide +kernel), by decide, issues_of (by decide +kernel), by decide⟩

theorem witness_LoopsArmOrSkip : (fgetD (part (wr [(1, [5])]) 0).loops 3 {}).armed = false ∧ Issues (wr [(1, [5])]) h0 { reads := [rd (wr [(1, [5])]) 1 false] } [5] [(1, [])] [] ∧
    Issues (wr [(1, [0])]) h0 { reads := [rd (wr [(1, [0])]) 1 false] } [0] [(1, [])] [] ∧ Issues (wr []) h0 { words := 2 } [] [] [] :=
  ⟨by decide +kernel, issues_of (by decide +kernel), issues_of (by decide +kernel), issues_of (by decide +kernel)⟩

def looped : State := wit fun x => { x with loops := [(0, { armed := true, count := 2, start := 40, stop := 80, order := 1 }), (1, { armed := true, count := 1, start := 60, stop := 80, order := 2 })] }

theorem witness_LoopEndsReturnOrDisarm :
    ((fgetD (part looped 0).loops 1 {}).armed = true ∧ Tries looped h0) ∧
    (∃ n l, (part (wit fun x => { x with loops := [(2, { armed := true, count := 2, start := 40, stop := 80, order := 1 })] }) 0).loops = [(n, l)] ∧ l.armed = true ∧ l.stop = 80 ∧ l.level = 0 ∧ 1 < l.count) ∧
    (∃ n l, (part (wit fun x => { x with loops := [(2, { armed := true, count := 1, start := 40, stop := 80, order := 1 })] }) 0).loops = [(n, l)] ∧ l.armed = true ∧ l.stop = 80 ∧ l.level = 0 ∧ l.count ≤ 1) ∧
    (∃ k l, (part looped 0).loops = [(0, k), (1, l)] ∧ k.armed = true ∧ l.armed = true ∧ k.stop = 80 ∧ l.stop = 80 ∧ k.level = 0 ∧ l.level = 0 ∧ k.order < l.order ∧ l.count ≤ 1 ∧ 1 < k.count) ∧
    ∀ x ∈ (part looped 0).loops, x.2.stop = 84 → x.2.armed = true → x.2.level ≠ (part looped 0).priv :=
  ⟨⟨by decide +kernel, by constructor <;> decide +kernel⟩, ⟨2, _, rfl, by decide⟩, ⟨2, _, rfl, by decide⟩, ⟨_, _, rfl, by decide⟩, by decide +kernel⟩

/-- Two exposed writes in flight to x5, and an interlocked one that lands with the first. -/
def flying : State := wit fun x => { x with flights := [{ seq := 3, reg := 5, val := .exposed 9 8 }, { seq := 4, reg := 5, val := .exposed 12 9 }, { seq := 5, reg := 5, val := .landing 9 7 }] }

/-- Two loops with one body end, with these counts and this order. -/
def ends2 (a b i j : Nat) : State :=
  wit fun x => { x with loops := [(0, { armed := true, count := a, start := 40, stop := 80, order := i }), (1, { armed := true, count := b, start := 60, stop := 80, order := j })] }

theorem witness_LoopsArmSkipAndEnd_two : ∀ a ∈ [1, 2], ∀ b ∈ [1, 2], ∀ i ∈ [1, 2], ∃ k l, (part (ends2 a b i (3 - i)) 0).loops = [(0, k), (1, l)] ∧ k.armed = true ∧ l.armed = true ∧
    k.stop = 80 ∧ l.stop = 80 ∧ k.level = (part (ends2 a b i (3 - i)) 0).priv ∧ l.level = (part (ends2 a b i (3 - i)) 0).priv ∧ k.order = i ∧ l.order = 3 - i ∧ k.order ≠ l.order ∧ k.count = a ∧ l.count = b := by
  intro a ha b hb i hi
  fin_cases ha <;> fin_cases hb <;> fin_cases hi <;> exact ⟨_, _, rfl, by decide⟩

theorem witness_RegisterWritesLandInOrder : ({ seq := 3, reg := 5, val := .exposed 9 8 } : Flight) ∈ (part flying 0).flights ∧ 9 ≤ flying.time ∧
    firstLanding (part flying 0).flights = some ({ seq := 3, reg := 5, val := .exposed 9 8 }, 9, 8) ∧ (part flying 0).posts = [] ∧ firstLanding [] = none := by decide +kernel

theorem witness_QueueChecksAtIssue :
    (Tries (wr []) h0 ∧ loopCuts (part (wr []) 0).loops 0 (part (wr []) 0).pc.toNat 1 = false ∧
      takeReads (part (wr []) 0).regs [rd (wr []) 1 false, rd (wr []) 2 false] = .error 1) ∧
    (Tries (wr [(1, [7]), (3, [1, 2, 3, 4])]) h0 ∧ takeReads (part (wr [(1, [7]), (3, [1, 2, 3, 4])]) 0).regs [rd (wr []) 1 false, rd (wr []) 1 true] = .error 1) ∧
    (∃ v r, takeReads (part (wr [(1, [7]), (3, [1, 2, 3, 4])]) 0).regs [rd (wr []) 1 true, rd (wr []) 1 true] = .ok (v, r) ∧ dstOf (wr []) 3 ≠ 0 ∧
      4 < (fgetD r 3 []).length + inFlight (part (wr []) 0) 3 + 1) :=
  ⟨⟨by constructor <;> decide +kernel, by decide +kernel, rfl⟩, ⟨by constructor <;> decide +kernel, rfl⟩, ⟨_, _, rfl, by decide +kernel⟩⟩

theorem witness_TrapWordTakesBreak : Issues (wr []) h0 {} [] [] [] ∧ (part (wr []) 0).flights = [] ∧ inHbm 0 (part (wit fun x => { x with trec := 0x200000000000 }) 0).trec.toNat 64 = false :=
  ⟨issues_of (by decide +kernel), rfl, by decide +kernel⟩

theorem witness_TrapRecordWritten : inHbm (quarterOf 0) (part (wit fun x => { x with trec := 0x10000000 }) 0).trec.toNat 64 = true ∧ (part (wr []) 0).priv < 4 ∧ viewOf (wr []) 0 < 2 ^ 12 ∧ (wr []).time < 2 ^ 64 := by decide +kernel

theorem witness_TrapReturnResumes : Issues (wp 1 []) h0 { level := 1 } [] [] [] ∧
    ((part (wr []) 0).priv = 0 ∧ Tries (wr []) h0 ∧ loopCuts (part (wr []) 0).loops 0 (part (wr []) 0).pc.toNat 1 = false) :=
  ⟨issues_of (by decide +kernel), rfl, by constructor <;> decide +kernel, by decide +kernel⟩

theorem witness_TrapReturnResumes_queues : let s := wit fun x => { x with priv := 1, resumeQueues := [2, 5], queues := [(2, { frozen := true })] }
    Issues s h0 { level := 1 } [] [] [] ∧ (part s 0).resumeQueues = 2 :: [5] ∧ 2 ∉ [5] ∧ (∀ u ∈ (part s 0).pending, u.queue ≠ 2) ∧ [2, 5].head? ≠ some 5 :=
  ⟨issues_of (by decide +kernel), by decide +kernel⟩

def spaced : State := { wit fun x => { x with unflagged := 63 } with ready := true }

theorem witness_StopSpacingEnforced : (part spaced 0).entering = none ∧ ((part spaced 0).priv ≠ 0 ∨ (core spaced 0).sideHeld = []) ∧ h0.stop = false ∧ 63 ≤ (part spaced 0).unflagged ∧ (part spaced 0).flights = [] ∧ hasIssue spaced 0 = true ∧
    ∃ i, peekInstr (modPart ((State.reset.withFetchWord 32 0x182531D0)) 0 fun x => { x with unflagged := 63 }) 0 = some i := by
  refine ⟨rfl, .inr rfl, rfl, by decide +kernel, rfl, by decide +kernel, .add { h0 with sn := true, stop := true } 5 6 7 false true, by decide +kernel⟩

theorem witness_TokensTakenAndPostedTogether : Tries (wr [(1, [7])]) { h0 with wp := true } ∧ takeReads (part (wr [(1, [7])]) 0).regs [rd (wr []) 1 true, rd (wr []) 1 true] = .ok ([7, 7], [(1, [7])]) ∧ (fgetD [(1, [(7 : W64)])] 3 []).length + inFlight (part (wr [(1, [7])]) 0) 3 + 1 ≤ 4 ∧
    takeTokens (part (wr [(1, [7])]) 0).tokens 0 true false = none ∧ takeTokens [(1, 8), (6, 1)] 0 true true = some [(1, 7), (6, 0)] ∧ putTokens [(0, 7)] 0 false true = some [(0, 8)] ∧
    putTokens [(0, 8)] 0 false true = none := ⟨by constructor <;> decide +kernel, rfl, by decide +kernel⟩

theorem witness_ControlRegistersRead : Issues (wr []) h0 { dst := dstOf (wr []) 5 } [] [] [] ∧ Issues (wp 1 []) h0 { dst := dstOf (wp 1 []) 5, level := 1 } [] [] [] ∧ Unrecorded (wr []) :=
  ⟨issues_of (by decide +kernel), issues_of (by decide +kernel), unrec_of rfl (by decide +kernel)⟩

theorem witness_ControlRegistersWritten : Issues (wr [(1, [7])]) h0 { reads := [rd (wr [(1, [7])]) 1 false] } [7] [(1, [])] [] ∧ (7 : W64).toNat % 16 < 12 ∧ (7 : W64).toNat % 2 ^ 32 ≠ 0 ∧
    Issues (wr [(1, [12])]) h0 { reads := [rd (wr [(1, [12])]) 1 false] } [12] [(1, [])] [] ∧ 12 ≤ (12 : W64).toNat % 16 ∧
    Issues (wr [(1, [0])]) h0 { reads := [rd (wr [(1, [0])]) 1 false] } [0] [(1, [])] [] ∧ (0 : W64).toNat % 2 ^ 32 = 0 ∧
    Issues (wp 1 [(1, [7])]) h0 { reads := [rd (wp 1 [(1, [7])]) 1 false], level := 1 } [7] [(1, [])] [] ∧ BaseView (wp 1 [(1, [7])]) ∧ (6 : W64).toNat % 4 ≠ 3 ∧ (7 : W64).toNat % 4 = 3 :=
  ⟨issues_of (by decide +kernel), by decide, by decide, issues_of (by decide +kernel), by decide, issues_of (by decide +kernel), by decide, issues_of (by decide +kernel), by unfold BaseView; decide +kernel, by decide, by decide⟩

theorem witness_ControlRegistersWritten_msways : let s := wit fun x => { x with regs := [(1, [7])], priv := 1, msDone := true }
    Issues s h0 { reads := [rd s 1 false], level := 1 } [7] [(1, [])] [] ∧ (part s 0).msDone = true := ⟨issues_of (by decide +kernel), by decide +kernel⟩

theorem witness_ControlRegistersWritten_loop : let s := wit fun x => { x with regs := [(1, [7])], loops := [(2, { armed := true, count := 9, stop := 80 })] }
    Issues s h0 { reads := [rd s 1 false] } [7] [(1, [])] [] ∧ (fgetD (part s 0).loops 2 {}).armed = true := ⟨issues_of (by decide +kernel), by decide +kernel⟩

theorem witness_ControlRegisterTraps : Tries (wr []) h0 ∧ loopCuts (part (wr []) 0).loops (part (wr []) 0).priv (part (wr []) 0).pc.toNat 1 = false ∧ (part (wr []) 0).priv = 0 :=
  ⟨by constructor <;> decide +kernel, by decide +kernel⟩

theorem witness_SemaphoresAddAndWait : Issues (wr [(1, [7])]) h0 { reads := [rd (wr [(1, [7])]) 1 true] } [7] [(1, [7])] [] ∧ Settled (wr [(1, [7])]) ∧ fgetD (part (wr [(1, [7])]) 0).sems 15 0 < (7 : W64).toInt ∧
    Issues (wr [(1, [0])]) h0 { reads := [rd (wr [(1, [0])]) 1 true] } [0] [(1, [0])] [] ∧ (0 : W64).toInt ≤ fgetD (part (wr [(1, [0])]) 0).sems 0 0 :=
  ⟨issues_of (by decide +kernel), by constructor <;> decide +kernel, by decide +kernel, issues_of (by decide +kernel), by decide +kernel⟩

theorem witness_MailboxesReadAndWritten : Issues (wr []) h0 { dst := dstOf (wr []) 5 } [] [] [] ∧ Unrecorded (wr []) ∧
    (let s := wp 1 [(1, [0xFFFF000000000008]), (2, [9])]
     Issues s h0 { reads := [rd s 1 false, rd s 2 false], level := 1 } [0xFFFF000000000008, 9] [(1, []), (2, [])] [] ∧ BaseView s ∧ Settled s ∧ mailboxTarget 0xFFFF000000000008 = some 8) ∧
    (let s := wp 1 [(1, [0x1000]), (2, [9])]
     Issues s h0 { reads := [rd s 1 false, rd s 2 false], level := 1 } [0x1000, 9] [(1, []), (2, [])] [] ∧ mailboxTarget 0x1000 = none) :=
  ⟨issues_of (by decide +kernel), unrec_of rfl (by decide +kernel), ⟨issues_of (by decide +kernel), by unfold BaseView; decide +kernel, by constructor <;> decide +kernel, by decide +kernel⟩,
   ⟨issues_of (by decide +kernel), by decide +kernel⟩⟩

theorem witness_LeaveAskedGrantedAndReleased : Issues (wr [(1, [3])]) h0 { reads := [rd (wr [(1, [3])]) 1 true] } [3] [(1, [3])] [] ∧ 2 < (3 : W64).toNat ∧
    (let s := wit fun x => { x with regs := [(1, [2])], leave := 4 }
     Issues s h0 { reads := [rd s 1 true] } [2] [(1, [2])] [] ∧ nbit (part s 0).leave 2 = true) ∧
    (Issues (wr [(1, [2])]) h0 { reads := [rd (wr [(1, [2])]) 1 true] } [2] [(1, [2])] [] ∧ nbit (part (wr [(1, [2])]) 0).leave 2 = false ∧ (part (wr [(1, [2])]) 0).leaveWait = none) ∧
    (let s := modQuarter (wit fun x => { x with leaveWait := some 2 }) 0 fun x => { x with leaves := [{ cls := 2, part := 0, cmd := none }] }
     (quarter s 0).leaves = [{ cls := 2, part := 0, cmd := none }] ∧ (part s 0).leaveWait = some 2 ∧ nbit (part s 0).leave 2 = false ∧ fgetD (quarter s 0).granted 2 0 < 1) ∧
    (let s := modQuarter (wit fun x => { x with leaveWait := some 2 }) 0 fun x => { x with leaves := [{ cls := 2, part := 0, cmd := none }], granted := [(2, 1)] }
     1 ≤ fgetD (quarter s 0).granted 2 0) :=
  ⟨issues_of (by decide +kernel), by decide, ⟨issues_of (by decide +kernel), by decide +kernel⟩, ⟨issues_of (by decide +kernel), by decide +kernel, rfl⟩, by decide +kernel⟩

theorem witness_SuspensionPointsLeave : (part (wr []) 0).priv = 0 ∧ Issues (wr []) h0 {} [] [] [] ∧ (part (wr []) 0).flights = [] ∧ isLive (part (wr []) 0) = false ∧
    (∀ k, k < 3 → (cmdQueue (wr []) 0 k).queued = [] ∧ (cmdQueue (wr []) 0 k).running = []) ∧ Settled (wr []) ∧ (part (wr []) 0).monitor = .off ∧ BaseView (wr []) :=
  ⟨rfl, issues_of (by decide +kernel), rfl, by decide +kernel, by decide +kernel, by constructor <;> decide +kernel, rfl, by unfold BaseView; decide +kernel⟩

theorem witness_SuspensionPointsLeave_monitor : let s (m : MonitorState) : State := wit fun x => { x with monitor := m }
    (part (s (.armed 3)) 0).monitor = .armed 3 ∧ (part (s (.armedRemote 5)) 0).monitor = .armedRemote 5 ∧ (part (s .fired) 0).monitor = .fired ∧
    ∀ m ∈ [MonitorState.armed 3, .armedRemote 5, .fired], Issues (s m) h0 {} [] [] [] := by
  refine ⟨rfl, rfl, rfl, fun m h => ?_⟩
  fin_cases h <;> exact issues_of (by decide +kernel)

/-- A partition with an entry and an armed loop, of which done discards both. -/
def live : State := wit fun x => { x with regs := [(1, [7])], loops := [(0, { armed := true, count := 9, stop := 80 })] }

theorem witness_SuspensionPointsLeave_live : Issues live h0 {} [] [(1, [7])] [] ∧ isLive (part live 0) = true ∧ (part live 0).resident.isSome = true ∧ Settled live ∧ BaseView live ∧
    ∀ k, k < 3 → (cmdQueue live 0 k).queued = [] ∧ (cmdQueue live 0 k).running = [] :=
  ⟨issues_of (by decide +kernel), by decide +kernel, by decide +kernel, by constructor <;> decide +kernel, by unfold BaseView; decide +kernel, by decide +kernel⟩

theorem witness_LiveStateStopsSuspension : Issues (wr [(1, [7])]) h0 {} [] [(1, [7])] [] ∧ (part (wr [(1, [7])]) 0).flights = [] ∧ isLive (part (wr [(1, [7])]) 0) = true ∧
    Issues flying h0 {} [] [] [] ∧ (part flying 0).flights ≠ [] ∧ Tries (wp 2 []) h0 ∧ (part (wp 2 []) 0).priv ≠ 0 :=
  ⟨issues_of (by decide +kernel), rfl, by decide +kernel, issues_of (by decide +kernel), by decide +kernel, by constructor <;> decide +kernel, by decide +kernel⟩

theorem witness_WaitaddrReadsAndArms : let s := wr [(1, [dat]), (2, [0])]
    Issues s h0 { reads := [rd s 1 false, rd s 2 false], dst := dstOf s 3, loads := true } [dat, 0] [(1, []), (2, [])] [] ∧ Settled s ∧ Unrecorded s ∧ Plain dat.toNat 8 ∧
    ∃ u bs, readVa (noting s [(1, []), (2, [])] (.waitaddr h0 3 1 2 false false)) (ctxOf s 0 .control) dat.toNat 8 0 = (u, .ok bs) :=
  ⟨issues_of (by decide +kernel), by constructor <;> decide +kernel, unrec_of rfl (by decide +kernel), by unfold Plain; decide +kernel, ok_of _ (by decide +kernel)⟩

theorem witness_WaitaddrReadsAndArms_mapped : ∃ pa, physOf (wr []) (part (wr []) 0).asid dat.toNat = some pa := ⟨0x400001000, by decide +kernel⟩

/-- The unit identifier of array 0x20 of core 1. -/
def arr : W64 := 0x10100020

theorem witness_SelfTestsRunAndReport : let s := wp 2 [(1, [arr])]
    Issues s h0 { reads := [rd s 1 false], dst := dstOf s 3, level := 2 } [arr] [(1, [])] [] ∧ (part s 0).testDone = none ∧ (∀ e ∈ s.cores, e.2.testing = none) ∧ testUnit 0xFFFFFFFF = none ∧ scanUnit 0xFFFFFFFF = none ∧ testUnit arr.toNat = some (1, 0x20) ∧ coreIdle s 1 = true ∧ coreIdle s 0 = false ∧
    (part (wit fun x => { x with testDone := some (10, 0) }) 0).testDone = some (10, 0) :=
  ⟨issues_of (by decide +kernel), by decide +kernel⟩

theorem witness_SelfTestsRunAndReport_mangle : let s := wp 2 [(1, [0x10100001])]
    testUnit (0x10100001 : W64).toNat = some (1, 1) ∧ coreIdle s 1 = true ∧ nbit (part s 0).leave 0 = false ∧ (part s 0).testLeave = false ∧ (quarter s 0).leaves = [] ∧
    testUnit (0x20100008 : W64).toNat = some (1, 0x10008) ∧ scanUnit (0x10100000 : W64).toNat = some (1, 0) := by decide +kernel

theorem witness_SelfTestsRunAndReport_result : let x : Core := { testing := some (0x10100020, 0, 0x20, 9) }
    let s := { base with cores := [(1, x)] }
    s.cores.find? (fun c => match c.2.testing with | some (_, q, _, ends) => q == 0 && decide (ends ≤ s.time) | none => false) = some (1, x) ∧ 0x20 < 0x10000 ∧ s.atHomes = [] ∧ (part s 0).testLeave = false ∧ coreOf 0 ≠ 1 ∧ 9 ≤ s.time ∧ s.errors.length + [7].length ≤ 4096 := by decide +kernel
/-! ## Hypotheses that can be met: memory words and commands -/

theorem witness_ErrorsReadAndJobsCancelled : let s := wp 2 [(1, [dat])]
    Issues s h0 { reads := [rd s 1 false], dst := dstOf s 3, level := 2 } [dat] [(1, [])] [] ∧ Plain dat.toNat 64 ∧ Settled s ∧ BaseView s ∧ s.errors = [] ∧
    (let s := { s with errors := [{ unit := 1, seq := 0, sev := 0, kind := 5, addr := 0, time := 0, detail := 0 }] }
     ∃ u old, performOp { went s [(1, [])] with errors := [] } (ctxOf s 0 .control) dat.toNat (.bytes (errorBytes { unit := 1, seq := 0, sev := 0, kind := 5, addr := 0, time := 0, detail := 0 })) 0 = (u, .ok old)) ∧
    (let s := wp 1 [(1, [0xFFFF000000000080])]
     Issues s h0 { reads := [rd s 1 false], dst := dstOf s 3, level := 1 } [0xFFFF000000000080] [(1, [])] [] ∧ BaseView s ∧ Unrecorded s ∧ isHere 0xFFFF000000000080 = true ∧
     Unrecorded { (cancelJob (went s [(1, [])]) Sys2Proof.Config.device 0xFFFF000000000080).1 with cur := s.cur }) :=
  ⟨issues_of (by decide +kernel), by unfold Plain; decide +kernel, by constructor <;> decide +kernel, by unfold BaseView; decide +kernel, rfl, ok_of _ (by decide +kernel),
   ⟨issues_of (by decide +kernel), by unfold BaseView; decide +kernel, unrec_of rfl (by decide +kernel), by decide +kernel, unrec_of (by decide +kernel) (by decide +kernel)⟩⟩

def ld : State := wr [(1, [dat])]

theorem witness_LoadsPushWhatTheyRead : Issues ld h0 { reads := [rd ld 1 true], dst := dstOf ld 3, loads := true } [dat] [(1, [dat])] [] ∧ Settled ld ∧ Plain dat.toNat 8 ∧ Plain (dat.toNat - 1) 1 ∧
    (∃ u bs, readVa (noting ld [(1, [dat])] (.ldd h0 3 1 0 0)) (ctxOf ld 0 .control) dat.toNat 8 0 = (u, .ok bs)) ∧
    (∃ u bs, readVa (noting ld [(1, [dat])] (.ldb h0 3 1 3 (-1))) (ctxOf ld 0 .control) (dat.toNat - 1) 1 3 = (u, .ok bs)) ∧
    ∃ q o, locOf 0xFFFF3F0000000000 = .here q o ∧ inMgmt o = true :=
  ⟨issues_of (by decide +kernel), by constructor <;> decide +kernel, by unfold Plain; decide +kernel, by unfold Plain; decide +kernel, ok_of _ (by decide +kernel), ok_of _ (by decide +kernel),
   ⟨0, 0x3F0000000000, by decide +kernel⟩⟩

theorem witness_ReadOnlyAndAcquireLoads : Issues ld h0 { reads := [rd ld 1 true], dst := dstOf ld 3, loads := true } [dat] [(1, [dat])] [] ∧ Settled ld ∧ Unrecorded ld ∧ Plain dat.toNat 8 ∧
    (∃ u v, readOnly (noting ld [(1, [dat])] (.ldro h0 3 1 2 7 0)) (ctxOf ld 0 .control) dat.toNat 8 2 = (u, .ok v)) ∧ ∃ u bs, readVa (noting ld [(1, [dat])] (.ldAcq h0 3 1 2)) (ctxOf ld 0 .control) dat.toNat 8 0 = (u, .ok bs) :=
  ⟨issues_of (by decide +kernel), by constructor <;> decide +kernel, unrec_of rfl (by decide +kernel), by unfold Plain; decide +kernel, ok_of _ (by decide +kernel), ok_of _ (by decide +kernel)⟩

/-- An address whose page is not mapped. -/
def away : W64 := 0xFFFF000800000000

theorem witness_ReadOnlyAndAcquireLoads_unmapped : let s := wr [(1, [away])]
    Issues s h0 { reads := [rd s 1 true], dst := dstOf s 3, loads := true } [away] [(1, [away])] [] ∧ Settled s ∧ Unrecorded s ∧ Plain away.toNat 8 ∧
    ∃ u, readVa (noting s [(1, [away])] (.ldAcq h0 3 1 2)) (ctxOf s 0 .control) away.toNat 8 0 = (u, .error (.fault 0 away.toNat)) :=
  ⟨issues_of (by decide +kernel), by constructor <;> decide +kernel, unrec_of rfl (by decide +kernel), by unfold Plain; decide +kernel, _, fault_of _ (by decide +kernel)⟩

theorem witness_ReadOnlyAndAcquireLoads_order : let r : LoadReq := { va := 8, bytes := 8, signed := false, readOnly := false, hint := 0, seen := 1, gate := 0, watch := none, acq := true }
    let s := wit fun x => { x with flights := [{ seq := 3, reg := 5, val := .load r }] }
    ({ seq := 3, reg := 5, val := .load r } : Flight) ∈ (part s 0).flights ∧ r.acq = true ∧ 3 < 4 := by decide +kernel

theorem base_sound : MemorySound base := ⟨by unfold MemoryCanonical; decide +kernel, by decide +kernel⟩

theorem witness_StoresWriteTheirBytes : let s := wr [(1, [dat]), (2, [5])]
    Issues s h0 { reads := [rd s 1 true, rd s 2 false] } [dat, 5] [(1, [dat]), (2, [])] [] ∧ Settled s ∧ MemorySound s ∧ BaseView s ∧ (∀ q, q < 4 → (quarter s q).held2 = []) ∧ Plain dat.toNat 8 ∧
    ∃ q o pte leaf, locOf dat.toNat = .here q o ∧ spotOf s q o = .memory ∧ leafAt s q (part s 0).asid o = some (pte, leaf) ∧ nbit pte 8 = false ∧ nbit pte 48 = false ∧ InPlace s (part s 0).asid q o pte ∧ s.failing.contains (leafPa pte o / 32) = false :=
  ⟨issues_of (by decide +kernel), by constructor <;> decide +kernel, ⟨by unfold MemoryCanonical; decide +kernel, by decide +kernel⟩, by unfold BaseView; decide +kernel, by decide +kernel, by unfold Plain; decide +kernel,
   ⟨0, 0x400001000, 0x400000205, 0x10008008, by decide +kernel, by decide +kernel, by decide +kernel, by decide, by decide, by unfold InPlace; decide +kernel, by decide +kernel⟩⟩

theorem witness_AtomicsReturnTheOldValue : let s := wr [(1, [dat]), (2, [5, 6])]
    Settled s ∧ Unrecorded s ∧ Issues s h0 { reads := [rd s 1 false, rd s 2 true], dst := dstOf s 3, loads := true } [dat, 5] [(1, []), (2, [5, 6])] [] ∧ Plain dat.toNat 8 ∧
    (∃ u old, performOp (noting s [(1, []), (2, [5, 6])] (.amoadd h0 3 1 2 false true)) (ctxOf s 0 .control) dat.toNat (.atomic .add 5 0) 0 = (u, .ok old)) ∧
    Unrecorded { retestRings (performOp (noting s [(1, []), (2, [5, 6])] (.amoadd h0 3 1 2 false true)) (ctxOf s 0 .control) dat.toNat (.atomic .add 5 0) 0).1 with cur := s.cur } ∧ Issues s h0 { reads := [rd s 1 false, rd s 2 false, rd s 2 false], dst := dstOf s 3, loads := true } [dat, 5, 6] [(1, []), (2, [])] [] ∧
    (∃ u old, performOp (noting s [(1, []), (2, [])] (.amocas h0 3 1 2 false)) (ctxOf s 0 .control) dat.toNat (.atomic .cas 5 6) 0 = (u, .ok old)) :=
  ⟨by constructor <;> decide +kernel, unrec_of rfl (by decide +kernel), issues_of (by decide +kernel), by unfold Plain; decide +kernel, ok_of _ (by decide +kernel), unrec_of (by decide +kernel) (by decide +kernel), issues_of (by decide +kernel), ok_of _ (by decide +kernel)⟩

theorem witness_AtomicsReturnTheOldValue_value : (0xFFFFFFFFFFFFFFFF : Nat) < 2 ^ 64 ∧ (∃ u old, performOp base (ctxOf base 0 .control) dat.toNat (.atomic .max 5 0) 0 = (u, .ok old)) ∧ atomicNew .cas 7 7 9 = some 9 ∧ atomicNew .cas 7 8 9 = none ∧
    (atomicNew .max (2 ^ 64 - 1) 5 0).isSome = true := ⟨by decide, ok_of _ (by decide +kernel), by decide, by decide, by decide⟩

theorem witness_AtomicsReturnTheOldValue_float : addV (decodeF 0 0x7F800000) (decodeF 0 (0xFFFFFFFFFF800000 : W64).toNat) = .nan ∧ addV (decodeF 1 0x7F80) (decodeF 1 (0xFF80 : W64).toNat) = .nan ∧
    addV (decodeF 0 0x80000000) (decodeF 0 (0x80000000 : W64).toNat) ≠ .nan := by decide

theorem witness_BarrierWordsActOnTheirBarrier : let s := wr [(1, [dat]), (2, [5])]
    Settled s ∧ Unrecorded s ∧ Plain dat.toNat 32 ∧ Issues s h0 { reads := [rd s 1 false, rd s 2 false], loads := true } [dat, 5] [(1, []), (2, [])] [] ∧
    (∃ u old, performOp (noting s [(1, []), (2, [])] (.bbinit h0 1 2 false false)) (ctxOf s 0 .control) dat.toNat (.bbInit 5) 0 = (u, .ok old)) ∧
    (∃ u old, performOp (noting s [(1, []), (2, [])] (.bbexp h0 1 2 false false)) (ctxOf s 0 .control) dat.toNat (.bbExp 5) 0 = (u, .ok old)) ∧
    Issues s h0 { reads := [rd s 1 false, rd s 2 false], dst := dstOf s 3, loads := true } [dat, 5] [(1, []), (2, [])] [] ∧
    (∃ u ph, readNum s (ctxOf s 0 .control) (dat.toNat + 16) 4 0 = (u, .ok ph)) ∧ ∃ u ph, readNum (went s [(1, []), (2, [])]) (ctxOf s 0 .control) (dat.toNat + 16) 4 0 = (u, .ok ph) :=
  ⟨by constructor <;> decide +kernel, unrec_of rfl (by decide +kernel), by unfold Plain; decide +kernel, issues_of (by decide +kernel), ok_of _ (by decide +kernel), ok_of _ (by decide +kernel),
   issues_of (by decide +kernel), ok_of _ (by decide +kernel), ok_of _ (by decide +kernel)⟩

theorem witness_BarrierWordsActOnTheirBarrier_bad : let s := { wr [(1, [dat]), (2, [5])] with failing := [0x400001000 / 32] }
    Settled s ∧ Unrecorded s ∧ Issues s h0 { reads := [rd s 1 false, rd s 2 false], dst := dstOf s 3, loads := true } [dat, 5] [(1, []), (2, [])] [] ∧
    (match (readNum s (ctxOf s s.cur .control) (dat.toNat + 16) 4 0).2 with | .error (.bad _) => true | _ => false) = true :=
  ⟨by constructor <;> decide +kernel, unrec_of rfl (by decide +kernel), issues_of (by decide +kernel), by decide +kernel⟩

theorem witness_BarrierAddsCountToTheirExpectation : (leBytes 32 0).length = 32 ∧ (∃ u old, performOp base (ctxOf base 0 .control) dat.toNat (.barrierAdd 64) 0 = (u, .ok old)) ∧
    (∃ u old, performOp base (ctxOf base 0 .control) dat.toNat (.bbInit 64) 0 = (u, .ok old)) ∧ ∃ u old, performOp base (ctxOf base 0 .control) dat.toNat (.bbExp 64) 0 = (u, .ok old) :=
  ⟨rfl, ok_of _ (by decide +kernel), ok_of _ (by decide +kernel), ok_of _ (by decide +kernel)⟩

/-- A load that waits for a mapping. -/
def waits : Flight := { seq := 0, reg := 5, val := .load { va := 0xFFFF000800001000, bytes := 8, signed := false, readOnly := false, hint := 0, seen := 0, gate := 0, watch := none } }

theorem witness_FencesWaitAndMarksDivide : Issues (wr []) h0 {} [] [] [] ∧ Settled (wr []) ∧
    (let s := wit fun x => { x with flights := [waits] }
     Issues s h0 {} [] [] [] ∧ waits ∈ (part s 0).flights ∧ waits.seq < s.nextSeq ∧ ∃ r, waits.val = .load r) :=
  ⟨issues_of (by decide +kernel), by constructor <;> decide +kernel, ⟨issues_of (by decide +kernel), by decide +kernel, by decide +kernel, _, rfl⟩⟩

theorem witness_MaintenanceActsOnItsLines : let s := wr [(1, [dat]), (2, [128])]
    Settled s ∧ isHere dat.toNat = true ∧ isMgmt dat.toNat = false ∧ isHere ((dat.toNat + 128 - 1) % 2 ^ 64) = true ∧ (128 : W64).toNat ≤ 2 ^ 32 ∧ Issues s h0 { reads := [rd s 1 false, rd s 2 false] } [dat, 128] [(1, []), (2, [])] [] ∧
    (∃ u old, performOp (noting s [(1, []), (2, [])] (.wb h0 1 2 false false)) (ctxOf s 0 .control) dat.toNat (.maintain 0 128) 0 = (u, .ok old)) ∧
    (let s := wp 1 [(1, [dat]), (2, [0])]
     Issues s h0 { reads := [rd s 1 false, rd s 2 false], level := 1 } [dat, 0] [(1, []), (2, [])] []) ∧
    { base with die := [(9, { bytes := List.replicate 32 1, dirty := true })] }.die = [(300 / 32, { bytes := List.replicate 32 1, dirty := true })] :=
  ⟨by constructor <;> decide +kernel, by decide +kernel, by decide +kernel, by decide +kernel, by decide, issues_of (by decide +kernel), ok_of _ (by decide +kernel), issues_of (by decide +kernel), rfl⟩

/-- The mapped place that the small states read: its offset and its leaf. -/
theorem base_leaf : locOf dat.toNat = .here 0 0x400001000 ∧ spotOf base 0 0x400001000 = .memory ∧ leafAt base 0 (part base 0).asid 0x400001000 = some (0x400000205, 0x10008008) ∧
    leafAt base 0 (part base 0).asid (0x400001000 / 32 * 32) = some (0x400000205, 0x10008008) ∧ unreadable base (leafPa 0x400000205 0x400001000) = false ∧
    (∀ i, i < 4 → unreadable base (leafPa 0x400000205 (0x400001000 / 128 * 128) + 32 * i) = false) ∧
    nbit 0x400000205 48 = false ∧ nbit 0x400000205 8 = false ∧ dat.toNat % 32 + 8 ≤ 32 ∧ hintOf 0x400000205 0 < 3 := by decide +kernel

theorem witness_LoadsPushWhatTheyRead_bytes : let c := ctxOf base 0 .control
    c.view = 0 ∧ c.asid = (part base 0).asid ∧ hitLine base c 0 0x400001000 = none ∧
    (∀ l, hitLine base c 0 0x400001000 = some l → l.old = none ∧ 128 * l.pa + 0x400001000 % 128 = leafPa 0x400000205 0x400001000) := by
  refine ⟨by decide +kernel, rfl, by decide +kernel, fun l h => ?_⟩
  rw [show hitLine base (ctxOf base 0 .control) 0 0x400001000 = none by decide +kernel] at h
  exact absurd h (by simp)

/-- A core whose read-only path holds the sector of the mapped place. -/
def copied : State := modCore base 0 fun x => { x with roCopies := [(roKey (viewThat base 0 0 0x400001000) (part base 0).asid (0x400001000 / 32), { bytes := List.replicate 32 7, hint := 0, used := 0 })] }

theorem witness_ReadOnlyAndAcquireLoads_copy : let c := ctxOf copied 0 .control
    (∃ y, fget (core copied (coreOf c.part)).roCopies (roKey (viewThat copied c.view 0 0x400001000) c.asid ((0 * 2 ^ 46 + 0x400001000) / 32)) = some y) ∧
    fget (core base (coreOf c.part)).roCopies (roKey (viewThat base c.view 0 0x400001000) c.asid ((0 * 2 ^ 46 + 0x400001000) / 32)) = none ∧
    hitLine base { c with home := some 0 } 0 (0x400001000 / 32 * 32) = none := ⟨⟨{ bytes := List.replicate 32 7, hint := 0, used := 0 }, by decide +kernel⟩, by decide +kernel⟩

theorem witness_MaintenanceActsOnItsLines_lines : let c := ctxOf copied 0 .control
    (∃ u old, performOp base (ctxOf base 0 .control) dat.toNat (.maintain 2 256) 0 = (u, .ok old)) ∧ dat.toNat / 128 * 128 ∈ linesOf dat.toNat 256 ∧ c.view = 0 ∧
    leafAt copied 0 c.asid 0x400001000 = some (0x400000205, 0x10008008) ∧ spotOf copied 0 0x400001000 = .memory ∧ (core copied (coreOf c.part)).roCopies.Pairwise (fun a b => a.1 ≠ b.1) ∧
    base.tags.replicas = [] ∧ base.tags.virt = [] := ⟨ok_of _ (by decide +kernel), by decide +kernel⟩

theorem witness_PrefetchAndCircularBuffers : Issues ld h0 { reads := [rd ld 1 true] } [dat] [(1, [dat])] [] ∧ isHere dat.toNat = true ∧ isMgmt dat.toNat = false ∧
    (let s := wit fun x => { x with circs := [(15, { slots := 2, size := 16, filled := 1, held := 1, head := 1 })] }
     Issues s h0 { dst := dstOf s 3 } [] [] [] ∧ Issues s h0 {} [] [] [] ∧ (fgetD (part s 0).circs 15 {}).filled ≠ 0 ∧ (fgetD (part s 0).circs 15 {}).held ≠ 0 ∧ (fgetD (part s 0).circs 0 {}).filled = 0 ∧ (fgetD (part s 0).circs 0 {}).held = 0) :=
  ⟨issues_of (by decide +kernel), by decide +kernel, by decide +kernel, ⟨issues_of (by decide +kernel), issues_of (by decide +kernel), by decide +kernel⟩⟩

/-- A partition whose post of `n` bytes from `dat` waits in its store queue. -/
def waiting (s : State) (i : OutItem) (n : Nat) (x : Part) : Part :=
  { x with stores := [{ ctx := ctxOf s s.cur .control, seq := s.nextSeq, gate := (part s s.cur).mark, rel := 0, item := .post i dat.toNat n 0 }] }

theorem witness_FabricPostsLeave_fmst : let s := wr [(1, [dat, 0xFFFF000400002000, 0]), (2, [0, 1])]
    BaseView s ∧ Settled s ∧ Unrecorded s ∧ (part s 0).mark / 4 ≤ s.nextSeq ∧ Issues s h0 { reads := [rd s 1 false, rd s 1 false, rd s 1 false, rd s 2 false, rd s 2 false], loads := true } [dat, 0xFFFF000400002000, 0, 0, 1] [(1, []), (2, [])] [] ∧
    fmstTrap dat.toNat 0xFFFF000400002000 0 0 1 256 = none ∧
    ∃ u bs, readVa (modPart (noting s [(1, []), (2, [])] (.fmst h0 0 1 2)) 0 fun x => waiting s (.fmst 0xFFFF000400002000 0 0 1 []) 256 x) (ctxOf s 0 .control) dat.toNat 256 0 = (u, .ok bs) :=
  ⟨by unfold BaseView; decide +kernel, by constructor <;> decide +kernel, unrec_of rfl (by decide +kernel), by decide +kernel, issues_of (by decide +kernel), by decide +kernel, ok_of _ (by decide +kernel)⟩

theorem witness_FabricPostsLeave : let s := wr [(1, [0x0001000000000040]), (2, [dat])]
    BaseView s ∧ Settled s ∧ Unrecorded s ∧ Issues s h0 { reads := [rd s 1 false, rd s 2 false], dst := dstOf s 3, loads := true } [0x0001000000000040, dat] [(1, []), (2, [])] [] ∧
    isHost 0x0001000000000040 = false ∧ isReserved 0x0001000000000040 = false ∧ isMgmt 0x0001000000000040 = false ∧ 0x0001000000000040 % 64 = 0 ∧ Plain dat.toNat 64 ∧ Plain dat.toNat 128 ∧
    (∃ u bs, readVa (modPart (bumpOrdinal (fly0 (noting s [(1, []), (2, [])] (.rqpost h0 3 1 2 false false)) 3 .answer) 0) 0 fun x => waiting s (.rqpost 0x0001000000000040 []) 64 x) (ctxOf s 0 .control) dat.toNat 64 0 = (u, .ok bs)) ∧
    ∃ u bs, readVa (modPart (bumpOrdinal (fly0 (noting s [(1, []), (2, [])] (.lpost h0 3 1 2 false false)) 3 .answer) 0) 0 fun x => waiting s (.lpost 0x0001000000000040 []) 128 x) (ctxOf s 0 .control) dat.toNat 128 0 = (u, .ok bs) :=
  ⟨by unfold BaseView; decide +kernel, by constructor <;> decide +kernel, unrec_of rfl (by decide +kernel), issues_of (by decide +kernel), by decide +kernel, by decide +kernel, by decide +kernel, by decide +kernel,
   by unfold Plain; decide +kernel, by unfold Plain; decide +kernel, ok_of _ (by decide +kernel), ok_of _ (by decide +kernel)⟩

/-- The reads of a command: `na` of register 1 and `nb` of register 2. -/
def pushed (l1 l2 : List W64) (ka kb : Bool) : Bool :=
  let s := wr [(1, l1), (2, l2)]
  issuesB s h0 { words := 2, command := true, reads := List.replicate l1.length (rd s 1 ka) ++ List.replicate l2.length (rd s 2 kb) } (l1 ++ l2) [(1, []), (2, [])] []

theorem witness_FetchCommandsPushed : (∀ k, k < 6 → (cmdQueue (wr []) 0 k).queued.length < 16) ∧ pushed [dat] [0, 0] false false = true ∧ checkCpy 0 1 64 [dat, 0, 0] = none ∧
    pushed [dat, 64] [0, 64, 0] false false = true ∧ checkCpy2 0 1 2 64 [dat, 64, 0, 64, 0] = none ∧ pushed [dat, dat] [0, 0] false false = true ∧ checkCpyg 0 1 [dat, dat, 0, 0] = none ∧
    pushed [dat, 256] [0] false false = true ∧ checkOqld 0 [dat, 256, 0] = none ∧ checkTsld 0 1 64 [dat, 64, 0, 0] = none ∧ pushed [0] [dat, 64, 0] false false = true ∧ checkTsst 0 1 64 [0, dat, 64, 0] = none ∧
    pushed [0] [] false false = true ∧ checkCbinit 1 2 [0] = none := by decide +kernel

theorem witness_VectorCommandsPushed : pushed [] [] false false = true ∧ pushed [8] [] false false = true ∧ pushed [] [8] false false = true ∧ pushed [8] [8] false false = true ∧ checkVshape true true [8, 8] = none ∧ checkVshape false false [] = none ∧
    checkVld 0 [dat, 64] = none ∧ checkVld 2 [] = none ∧ checkVst 0 [dat, 64, 0] = none ∧ pushed [dat] [64, 0] false false = true ∧ checkVtblld 0 dat.toNat = none ∧ checkVfilt 0 [dat, 64] = none ∧
    pushed [dat, 4, dat] [dat, 4, 0] false false = true := by decide +kernel

theorem witness_VectorCommandsPushed_vsect : ∃ v : List W64, v.length = 6 ∧ checkVsect v = none := ⟨[dat, 4, dat, dat, 4, 0], by decide +kernel⟩

theorem witness_MatrixCommandsPushed : pushed [] [] false false = true ∧ pushed [1] [1] false false = true ∧ checkMcfgLevel [1, 0] = none ∧ pushed [0x1000000] [] false false = true ∧ checkMcfgNest 0x1000000 = none ∧
    checkMshp 0 dat.toNat = none ∧ checkMshf 4 128 = none ∧ checkMepi 3 [0, 0] = none ∧ peerTrap 0x0001000000000000 1 = none ∧ (384 : BitVec 9).toNat + 127 ≤ 511 := by decide +kernel
/-! ## Hypotheses that can be met: tables, engines, scheduler -/

/-- A table word: 16 rows of 8 FP32 elements. -/
def tw : W64 := 0x0000001000000007

theorem witness_TableCommandsPushed : pushed [dat, tw] [dat, dat, dat, 0] false false = true ∧ checkGpool 0 0 0 [dat, tw, dat, dat, dat, 0] = none ∧ pushed [dat, tw] [dat, dat, 0] false false = true ∧
    checkGdeq 0 0 0 [dat, tw, dat, dat, 0] = none ∧ checkGrank 0 0 0 [dat, tw, dat, dat, dat, 0] = none ∧ checkGscan 0 0 256 false [dat, 1, dat, 0, dat, 0] = none ∧ pushed [dat, tw] [0, 0] false false = true ∧
    checkHot 1 [dat, tw, 0, 0] = none ∧ pushed [dat, tw, dat] [dat, dat, dat, 0] false false = true ∧ darnerTrap [dat, tw, dat, dat, dat, dat, 0] 3 0 0 0 1 = none ∧
    pushed [dat, tw, dat, 1] [dat, dat, dat, 0] false false = true ∧ darnerTrap [dat, tw, dat, 1, dat, dat, dat, 0] 4 0 0 1 0 = none ∧ pushed [dat, dat] [0] false false = true ∧ checkXall 0 [dat, dat, 0] = none ∧
    checkWload 1 5 0 [dat, 0] = none ∧ checkWtbl 0 1 0 63 [dat, 0] = none := by decide +kernel

/-- A load that waits, whose page is mapped by now. -/
def late : LoadReq := { va := 0xFFFF000400001000, bytes := 8, signed := false, readOnly := false, hint := 0, seen := 0, gate := 0, watch := none }

theorem witness_LoadsReturnTheirValue : let s := wit fun x => { x with flights := [{ seq := 3, reg := 5, val := .load late }] }
    (part s 0).flights = [{ seq := 3, reg := 5, val := .load late }] ∧ (part s 0).stores = [] ∧ s.awaits = [] ∧ (part s 0).ords = [] ∧ (part s 0).posts = [] ∧ (core s 0).sideLog = [] ∧ (core s 0).sideHeld = [] ∧
    slicesTested s = [] ∧ late.seen ≤ s.retries ∧ poolsWritten s 0 = false ∧ late.gate = 0 ∧ late.watch = none ∧ late.readOnly = false ∧ isHere late.va = true ∧ isMgmt late.va = false ∧ ∃ u v, readNum s (ctxOf s 0 .control) late.va late.bytes late.hint = (u, .ok v) :=
  ⟨rfl, rfl, rfl, rfl, rfl, rfl, rfl, by decide +kernel, by decide +kernel, by decide +kernel, rfl, rfl, rfl, by decide +kernel, by decide +kernel, ok_of _ (by decide +kernel)⟩

theorem witness_LoadsReturnTheirValue_ready : let s := wit fun x => { x with flights := [{ seq := 3, reg := 5, val := .ready 9 }] }
    (part s 0).flights.find? (fun f => f.seq == 3) = some { seq := 3, reg := 5, val := .ready 9 } ∧ (∀ g ∈ (part s 0).flights, pendingLoad g = none) ∧ (part s 0).stores = [] ∧ (core s 0).sideLog = [] ∧
    (core s 0).sideHeld = [] ∧ (part base 0).flights = [] ∧ (0x80 : Nat) < 2 ^ (8 * 1) := by decide +kernel

theorem witness_HeldWordsResumeAndTimeOut : let s := modCore (wit fun x => { x with holding := true }) 0 fun c => { c with nextIssue := 11 }
    (core s 0).issue = some 0 ∧ (part s 0).holding = true ∧ s.time < (core s 0).nextIssue ∧ (part base 0).holding = false ∧ base.time < (part base 0).holdSince + mgetN base 0 regWdlim * 1250 := by decide +kernel

theorem witness_PendingTrapsAreDelivered : let s := wit fun x => { x with holding := true, pending := [{ cause := 7, queue := 1, src := 1, pc := 0, word0 := 0, word1 := 0, addr := 0, seq := 0, reg := 0 }] }
    hasIssue s 0 = true ∧ (part s 0).entering = none ∧ (part s 0).pending ≠ [] ∧ (part s 0).flights = [] ∧ holdsFast s 0 = false ∧ inHbm 0 (part s 0).trec.toNat 64 = false ∧ (part s 0).holding = true ∧ (part base 0).pending = [] := by decide +kernel

def two : State := { modPart (State.reset.withFetchWord 32 0x082531C0) 1 fun x => { x with
  resident := some { addr := 64, job := 0, view := 0, level := 5, base := 5, rival := false, ordinal := 0, stay := 1 } } with time := 80000, agenda := [] }

theorem witness_IssueAndManglePass_due : (part two 1).resident.isSome = true ∧ hasIssue two 1 = false ∧ (part two 1).due = false ∧ (part two 1).issueLost + 79744 ≤ two.time ∧
    (part (wit fun x => { x with windowEnd := 10 }) 0).windowEnd ≠ 0 ∧ (part (wit fun x => { x with windowEnd := 10 }) 0).windowEnd ≤ 10 := by decide +kernel

theorem witness_IssueAndManglePass_pass : (core two 0).issue = some 0 ∧ (part two 0).resident.isSome = true ∧ (part two 0).entering = none ∧ inTest two 0 = false ∧ flagHonoured two 0 = true ∧ (core two 0).nextIssue ≤ two.time ∧
    peekInstr two 0 = some (.add hs 5 6 7 false false) ∧ passTo two 0 = some 1 ∧ bestOf two [0, 1] = some 1 ∧
    (core (modCore two 0 fun c => { c with issue := none }) 0).issue = none ∧ bestOf two ((partsOf 0).filter fun p => (part two p).resident.isSome && canIssue two p) = some 1 := by decide +kernel

def plainCmd (i : Instr) (vals : List W64) : Cmd := { id := 5, instr := i, vals := vals, pc := 0, word0 := 0, word1 := 0, seed := 0, workid := 0, ctx := { part := 0, agent := .matrix, asid := 0, view := 0, job := 0 }, record := 0 }

theorem witness_IssueAndManglePass_mangle : let q : CmdQueue := { queued := [plainCmd (.mgo h0) []] }
    let s := modCore (modPart (wit fun x => { x with queues := [(2, q)] }) 1 fun x => { x with queues := [(2, q)], restart := 64 }) 0 fun c => { c with holder := some 1 }
    mayTake s 0 = true ∧ (core s 0).holder = some 1 := by decide +kernel

theorem witness_HeldWordsResumeAndTimeOut_watchdog : let s := { base with time := 1250000 }
    hasIssue s 0 = true ∧ mgetN s 0 regWdlim ≠ 0 ∧ (part s 0).holdSince + mgetN s 0 regWdlim * 1250 ≤ s.time := by decide +kernel

def job0 : Job := { addr := 0x1000, queue := 5, card := 0, reply := 0, tag := 0, src := 0xFFFE, prio := 3, asid := 0, service := false, phase := .dispatched, handed := 0, live := 0, status := 0, seen := 0, replay := false, logPos := 0, returned := [] }

def withJobs (l : List Job) (f : Quarter → Quarter) : State := modQuarter { base with time := 1000000 } 0 fun x => f { x with jobs := l }

theorem witness_ReplayHoldLimitEndsTheJob : let s := { modPart (withJobs [{ job0 with replay := true }] id) 0 (fun x => { x with
      replayAt := some (0, 8), resident := some { addr := 0, job := 0x1000, view := 0, level := 0, base := 0, rival := false, ordinal := 0, stay := 0 } }) with time := 12500000 }
    (part s 0).replayAt = some (0, 8) ∧ findJob s (jobOf s 0) = some { job0 with replay := true } ∧ 0 + mgetN s 0 regRpLimit * 1250 ≤ s.time ∧ (part base 0).replayAt = none := by decide +kernel

/-- Partition 0 with one command at the head of queue `k`. -/
def starting (k : Nat) (i : Instr) : State := wit fun x => { x with queues := [(k, { queued := [plainCmd i [1, 0]] })], shapeType := 7 }

/-- Whether the command of `starting` is about to start, with the tokens it waits for. -/
def startsNow (k : Nat) (i : Instr) : Bool :=
  let s := starting k i
  cmdQueue s 0 k == { queued := [plainCmd i [1, 0]], running := [], frozen := false } && !engineBusy s 0 k && !(part s 0).preempted && !(part s 0).lostMangle &&
    (core s 0).holder.isNone && (part s 0).posts.isEmpty && (List.range 4).all (fun q => (quarter s q).held2.isEmpty) &&
    takeTokens (part s 0).tokens (k + 1) (hdrOf (plainCmd i [1, 0]).word0).wp (hdrOf (plainCmd i [1, 0]).word0).wn == some [] && isInt (part s 0).shapeType

theorem witness_CommandsStartWorkAndComplete_matrix :
    (startsNow 2 (.mcfgLevel h0 1 2 false false 5) && startsNow 2 (.mcfgNest h0 1 false) && startsNow 2 (.mepi h0 1 2 false false 3) && startsNow 2 (.mrst h0 1) && startsNow 2 (.mrstNone h0) &&
      startsNow 2 (.mshf h0 1 false 15 4)) = true := by decide +kernel

theorem witness_CommandsStartWorkAndComplete_vector : (startsNow 1 (.vadd h0 0 false false true 15 0 1) && startsNow 1 (.vand h0 1 false true 0 1 2)) = true := by decide +kernel

theorem witness_CommandsStartWorkAndComplete_fill : ({} : Part).shapeRows ≤ 16 ∧ ({} : Part).shapeCols ≤ 64 ∧ ({} : Part).vregs.Pairwise (fun a b => a.1 < b.1) := by decide

theorem witness_CommandsStartWorkAndComplete_done : let r : Run := { cmd := plainCmd (.mrstNone h0) [], count := 0, state := .done, tookLeave := false, lost := false, added := true, step := 0, rows := [] }
    let s := wit fun x => { x with queues := [(2, { running := [r] })] }
    cmdQueue s 0 2 = { queued := [], running := [r], frozen := false } ∧ writesDone s 0 5 = true ∧ r.cmd.held = [] ∧ leaveClass r.cmd.instr = none ∧ (core s 0).epiAdds = [] ∧
    putTokens (part s 0).tokens 3 false true = some [(6, 1)] ∧ putTokens [(6, 8)] 3 false true = none := by decide +kernel

def nest2 : Nest := { cmd := plainCmd (.mgo h0) [], levels := [2], strides := [0], word := 0x1000000, shapeA := 0, shapeB := 0, shapeD := 0, epiDest := 3, epiWord := 0, epiBarrier := 0, formats := [], ints := true, leave := false, steps := 0, cur := 0, releasedA := 0, releasedB := 0, hold := none, ended := false }

theorem witness_CommandsStartWorkAndComplete_nest : let s := modCore base 0 fun c => { c with nest := some nest2 }
    (core s 0).nest = some nest2 ∧ srcA nest2 = 0 ∧ srcB nest2 = 0 ∧ nest2.steps + 1 < totalSteps nest2 ∧ (core s 0).epi = none ∧ (∃ ra, operandRows (core s 0) nest2 false = some ra) ∧ (∃ rb, operandRows (core s 0) nest2 true = some rb) ∧
    boundary (nestIndex nest2 nest2.steps) (trips nest2) (actions nest2) 0 = 0 ∧ (∃ ra : List OpRow, ∃ a, ra[0]? = some a) :=
  ⟨rfl, by decide +kernel, by decide +kernel, by decide +kernel, rfl, ⟨_, rfl⟩, ⟨_, rfl⟩, by decide +kernel, [([], [])], _, rfl⟩

theorem witness_CommandsStartWorkAndComplete_epilogue : let e : Epi := { acc := 1, tile := 0, nest := { nest2 with epiDest := 2 }, seen := none }
    let s := modCore base 0 fun c => { c with epi := some e, links := [(0, { bound := true, send := true, ty := 1, peerDev := 1, paired := true, credits := 1 })] }
    (core s 0).epi = some e ∧ e.nest.epiDest = 2 ∧ nbit e.nest.epiWord 4 = false ∧ (fgetD (core s 0).links (nfld e.nest.epiWord 9 4) {}).failed = false ∧ (fgetD (core s 0).links 0 {}).paired = true ∧ (fgetD (core s 0).links 0 {}).credits ≠ 0 ∧
    (core s 0).epiAdds = [] ∧ (∀ q, q < 4 → (quarter s q).held2 = []) ∧ e.seen = none ∧ e.nest.epiBarrier = 0 ∧ nest2.epiDest = 3 := by decide +kernel

/-- A packet of 160 bytes with its card at byte 32, for queue 0 of quarter 0. -/
def pkt (card : Nat) : List Byte := leBytes 160 (card * 2 ^ 256)

def win : Nat := 0xFFFF000000000000

def jq (en acl : Nat) (s : State) : State := mset (mset s 0 (regJq 0 0) (w64 en)) 0 (regAcl 0) (w64 acl)

theorem witness_JobsAcceptedHandedOutAndCompleted_packet : locOf win = .here 0 0 ∧ spotOf base 0 0 = .jobWindow 0 0 ∧ (pkt 0).length = 160 ∧ base.ready = true ∧ State.reset.ready = false ∧ fgetD base.arrivedNo (pairKey (numberAgent 7) 5) 0 ≤ 7 % 2 ^ 64 ∧
    6 % 2 ^ 64 < fgetD ({ base with arrivedNo := [(pairKey (numberAgent 6) 5, 7)] } : State).arrivedNo (pairKey (numberAgent 6) 5) 0 ∧ nbit (mgetN base 0 (regJq 0 0)) 0 = false ∧
    (let s := jq 1 0xFFFEFFFE0008 base
     stalled s 0 0 0xFFFE = false ∧ nbit (mgetN s 0 (regJq 0 0)) 1 = false ∧ nbit (mgetN s 0 (regJq 0 0)) 4 = false ∧ nbit (mgetN s 0 (regJq 0 0)) 0 = true ∧ aclFind s 0xFFFE 0 0 = some 0xFFFEFFFE0008 ∧ nbit 0xFFFEFFFE0008 3 = true ∧
     cardBad (nset (leNat (pkt 1)) 0 16 0xFFFE) (BitVec.ofNat 1024 (nset (leNat (pkt 1)) 0 16 0xFFFE / 2 ^ 256)) = true ∧
     cardBad (nset (leNat (pkt 0)) 0 16 0xFFFE) (BitVec.ofNat 1024 (nset (leNat (pkt 0)) 0 16 0xFFFE / 2 ^ 256)) = false ∧
     channelsOk s (BitVec.ofNat 1024 (nset (leNat (pkt 0)) 0 16 0xFFFE / 2 ^ 256)) = true ∧ (freeEntry s 0 0).isSome = true ∧
     channelsOk (mset s 0 (regCh 0 0 0) 0x20) (BitVec.ofNat 1024 (nset (leNat (pkt (2 ^ 768))) 0 16 0xFFFE / 2 ^ 256)) = false) := by decide +kernel

theorem witness_JobsAcceptedHandedOutAndCompleted_held : let h : HeldPacket := { checked := true, queue := 0, src := 0xFFFE, tag := 1, bytes := pkt 0 }
    (quarter (withJobs [] fun x => { x with held := [h] }) 0).held = [h] ∧ (freeEntry (withJobs [] fun x => { x with held := [h] }) 0 0).isSome = true ∧
    freeEntry (withJobs (List.replicate 4096 job0) fun x => { x with held := [h] }) 0 0 = none ∧
    stalled (withJobs [] fun x => { x with held := [{ h with src := 5 }] }) 0 0 5 = true ∧ { h with checked := false }.checked = false := by decide +kernel

/-- The table full: the packet checked for queue 0 stays, the one for queue 1 is tried. -/
theorem witness_JobsAcceptedHandedOutAndCompleted_windows : let h : HeldPacket := { checked := true, queue := 0, src := 0xFFFE, tag := 1, bytes := pkt 0 }
    let g : HeldPacket := { h with checked := false, queue := 1 }
    let s := mset (mset (jq 1 0xFFFEFFFE0008 (withJobs (List.replicate 4096 job0) fun x => { x with held := [h, g] })) 0 (regJq 1 0) 1) 0 (regAcl 1) (w64 0xFFFEFFFE0108)
    nextHeld s 0 = some (g, 1) ∧ freeEntry s 0 1 = none ∧ nextHeld base 0 = none ∧ nbit (mgetN s 0 (regJq 1 0)) 0 = true ∧ (aclFind s 0xFFFE 0 1).any (fun e => nbit e 3) = true ∧
    behind s [{ g with src := 5 }] 1 5 = true ∧ hostWaits (modQuarter base 3 fun x => { x with hrPending := some 5, hrWriters := [(768, 0, 0)] }) = true ∧ hostWaits base = false := by decide +kernel

def ready0 (ph : JobPhase) : State := mset (withJobs [{ job0 with phase := ph }] fun x => { x with levels := [{ level := 3, item := .job 0x1000, since := 0 }] }) 0 (regJq 5 3) 4

theorem witness_JobsAcceptedHandedOutAndCompleted_dispatch : nextEntry (ready0 .ready) 0 = some { level := 3, item := .job 0x1000, since := 0 } ∧ placeOn (ready0 .ready) 0 = some 4 ∧ findJob (ready0 .ready) 0x1000 = some { job0 with phase := .ready } ∧
    channelsOk (ready0 .ready) job0.card = true ∧ channelsOk (mset (ready0 .ready) 0 (regCh 0 0 0) 0x20) (BitVec.ofNat 1024 (2 ^ 768)) = false ∧ nextEntry (ready0 .dispatched) 0 = some { level := 3, item := .job 0x1000, since := 0 } ∧ placeOn (ready0 .dispatched) 0 = some 4 ∧
    (freeSlot (ready0 .dispatched) job0).isSome = true := by decide +kernel

theorem witness_JobsAcceptedHandedOutAndCompleted_pickup : let u : Suspended := { addr := 0xFFFF000400001000, tag := 0, ordinal := 0, job := 0, asid := 0, view := 0, base := 0, wake := .ready, rival := false, part := 0 }
    let s := withJobs [] fun x => { x with suspended := [u], levels := [{ level := 3, item := .record 0xFFFF000400001000, since := 0 }] }
    slicesTested s = [] ∧ pickUpAgain s 0 = none ∧ nextEntry s 0 = some { level := 3, item := .record 0xFFFF000400001000, since := 0 } ∧ placeOn s 0 = some 4 ∧ (quarter s 0).suspended.find? (fun r => r.addr == 0xFFFF000400001000) = some u ∧
    (∃ t bs, readVa s { part := 4, agent := .control, asid := 0, view := 0, job := 0 } (0xFFFF000400001000 % 2 ^ 64) 64 0 = (t, .ok bs)) ∧ nfld (leNat (List.replicate 64 0)) 239 5 = 0 :=
  ⟨by decide +kernel, by decide +kernel, by decide +kernel, by decide +kernel, by decide +kernel, ok_of _ (by decide +kernel), by decide +kernel⟩

theorem witness_JobsAcceptedHandedOutAndCompleted_age : (quarter (ready0 .ready) 0).levels.find? (fun e => decide (e.level < 7 ∧ e.since + mgetN (ready0 .ready) 0 regAge * 1250 < (ready0 .ready).time)) = some { level := 3, item := .job 0x1000, since := 0 } := by decide +kernel

theorem witness_JobsAcceptedHandedOutAndCompleted_complete : let s := withJobs [job0] id
    findJob s 0x1000 = some job0 ∧ cardTotal job0.card ≤ job0.handed ∧ tableWork s 0x1000 = false ∧ cardFld job0.card 64 64 = 0 ∧ s.capture = false ∧ logEnded s 0x1000 = false ∧ job0.live = 0 ∧ job0.reply = 0 ∧ writesLeft s 0x1000 = false := by decide +kernel

theorem witness_JobsAcceptedHandedOutAndCompleted_writes : let w : StoreWait := { ctx := { part := 3, agent := .control, asid := 0, view := 0, job := 0x1000 }, item := .write dat.toNat (.bytes [5]) 0 0 none, seq := 1, gate := 0, rel := 0 }
    (part (modPart (withJobs [job0] id) 3 fun x => { x with stores := [w] }) 3).stores = [w] ∧ w.ctx.job = 0x1000 := by decide +kernel

theorem witness_JobsAcceptedHandedOutAndCompleted_diverged : let j := { job0 with replay := true }
    let s := withJobs [j] id
    findJob s 0x1000 = some j ∧ cardTotal j.card ≤ j.handed ∧ tableWork s 0x1000 = false ∧ j.status = 0 ∧ logEnded s 0x1000 = true := by decide +kernel

/-- Queue 0 replays a log of the card, one write of 77 and the completion. -/
def replaying : State :=
  let item (kind n va len : Nat) : List Byte := leBytes 64 (kind + n * 2 ^ 8 + va * 2 ^ 192 + len * 2 ^ 256)
  mset (physPut (jq 17 0xFFFEFFFE0008 base) 0x500000000 (item 1 2 0 0 ++ leBytes 128 0 ++ item 3 1 dat.toNat 8 ++ leBytes 64 77 ++ item 8 0 0 0)) 0 (regJq 0 4) (w64 (0x500000000 + 12))

theorem test_replay_performs_the_first_arrivals_at_acceptance : let t := packetAt replaying win 0xFFFE 1 (pkt 0)
    leNat (cohBytes t 0x400001000 8) = 77 ∧ mgetN t 0 (regJq 0 5) = 320 ∧ (quarter t 0).jobs = [] := by decide +kernel

theorem witness_JobsAcceptedHandedOutAndCompleted_cancel : let s := mset (withJobs [job0] id) 0 (regAcl 0) (w64 0xFFFEFFFE0510)
    localKey (0xFFFF000000001000) = some 0x1000 ∧ findJob s (Config.device * 2 ^ 48 + 0x1000) = some job0 ∧ aclFind s 0xFFFE 0 5 = some 0xFFFEFFFE0510 ∧ nbit 0xFFFEFFFE0510 4 = true ∧ (job0.phase = .dispatched ∨ job0.phase = .ending) ∧
    aclFind (mset s 0 (regAcl 0) (w64 0xFFFEFFFE0500)) 0xFFFE 0 5 = some 0xFFFEFFFE0500 ∧ nbit 0xFFFEFFFE0500 4 = false := by decide +kernel
/-! ## Hypotheses that can be met: fabric, host, management -/

def pk (b : Payload) : Packet := { src := 0, agent := 0, seq := 7, dst := 1, body := b }

theorem witness_FabricStepsFollowTheirRules_route : let s := { base with packets := [pk (.write 8 [1])] }
    s.packets = [pk (.write 8 [1])] ∧ routePort s (pk (.write 8 [1])) none = none ∧ routePort (mset s 0 (regLink 0 0 0) 2) (pk (.write 8 [1])) none = some 48 ∧ (pk (.write 8 [1])).src = Config.device ∧
    { pk (.write 8 [1]) with src := 9 }.src ≠ Config.device ∧ 1 / 32 = ownGroup ∧ portUp (mset s 0 (regLink 0 0 0) 2) (linkTo 1) = true ∧
    40 / 32 ≠ ownGroup ∧ routePort (mset (mset s 0 (regLink 1 9 0) 3) 0 (regReach 9 0) 2) { pk (.write 8 [1]) with dst := 40 } none = some 9 ∧ (pk (.write 8 [1])).hops < 2 ∧ (pk (.write 8 [1])).port = none ∧
    (pk (.atomic 8 .add 1 0)).body = .atomic 8 .add 1 0 ∧ routePort { base with packets := [pk (.credit 0 1)] } (pk (.credit 0 1)) none = none ∧
    routePort base (pk (.multicast [(1, 9)] 3 [] 2 8 0 [1])) none = none ∧ ([(1, 9)] : List (Nat × Nat)).find? (fun x => x.1 == 1) = some (1, 9) := by decide +kernel

/-- The arrival with number 6 of agent 3 of device 5 is the last one performed. -/
def seen6 : State := { base with arrivedNo := [(pairKey 3 5, 7)] }

theorem witness_FabricStepsFollowTheirRules_order : slicesTested seen6 = [] ∧ 6 % 2 ^ 64 < fgetD seen6.arrivedNo (pairKey 3 5) 0 ∧ fgetD seen6.arrivedNo (pairKey 3 5) 0 ≤ 7 % 2 ^ 64 := by decide +kernel

/-- The same once number 7 has been performed. -/
def seen7 : State := { base with arrivedNo := [(pairKey 3 5, 8)] }

theorem witness_FabricStepsFollowTheirRules_write : slicesTested seen6 = [] ∧ { seen6 with arrivedNo := fput seen6.arrivedNo (pairKey 3 5) (7 % 2 ^ 64 + 1) } = seen7 ∧ (∃ u b, writeWhole seen6 (arrivalCtx 3 dat.toNat) dat.toNat [1, 2] = (u, .ok b)) ∧ (writeWhole seen6 (arrivalCtx 3 dat.toNat) dat.toNat [1, 2]).1.capture = false ∧
    mayWriteAll seen6 (arrivalCtx 3 away.toNat) away.toNat 1 = .error (.fault 0 away.toNat) ∧ mayWriteAll seen6 (arrivalCtx 3 dat.toNat) dat.toNat 1 = .ok () :=
  ⟨by decide +kernel, by decide +kernel, ok_of _ (by decide +kernel), by decide +kernel⟩

theorem witness_FabricStepsFollowTheirRules_add : slicesTested base = [] ∧ (∃ u old, performOp base (arrivalCtx 3 dat.toNat) dat.toNat (.barrierAdd 64) 0 = (u, .ok old)) ∧
    (performOp base (arrivalCtx 3 dat.toNat) dat.toNat (.barrierAdd 64) 0).1.capture = false ∧
    (performOp base (arrivalCtx 3 dat.toNat) dat.toNat (.atomic (atomicOf 11) 1 0) 0).1.capture = false ∧ (performOp base (arrivalCtx 3 dat.toNat) dat.toNat (.bbInit 1) 0).1.capture = false ∧
    (∃ u old, performOp base (arrivalCtx 3 dat.toNat) dat.toNat (.atomic (atomicOf 11) 1 0) 0 = (u, .ok old)) ∧
    ∃ u old, performOp base (arrivalCtx 3 dat.toNat) dat.toNat (.bbInit 1) 0 = (u, .ok old) := by
  refine ⟨by decide +kernel, ok_of _ ?_, by decide +kernel, by decide +kernel, by decide +kernel, ok_of _ ?_, ok_of _ ?_⟩ <;> decide +kernel

theorem witness_FabricStepsFollowTheirRules_answer : let a : Await := { seq := 7, word := 3, part := 0, kind := .value 0 3 0, va := 8, job := 64 }
    let b : Await := { seq := 7, word := 4, part := 0, kind := .ack, va := 8 }
    [a].find? (fun a => a.seq == 7) = some a ∧ (part base 0).ords = [] ∧ (part base 0).monitor = .off ∧ [b].find? (fun a => a.seq == 7) = some b ∧ fget (part base 0).answers 4 = none ∧
    fget (part (wit fun x => { x with answers := [(4, 9)] }) 0).answers 4 = some 9 := by decide +kernel

theorem witness_FabricStepsFollowTheirRules_monitor : slicesTested seen6 = [] ∧ fgetD seen6.arrivedNo (pairKey (numberAgent (3 * 2 ^ 80 + 9)) 5) 0 ≤ (3 * 2 ^ 80 + 9) % 2 ^ 64 ∧ (∃ u v, readNum base (arrivalCtx 3 dat.toNat) dat.toNat 8 0 = (u, .ok v)) ∧ physOf (readNum base (arrivalCtx 3 dat.toNat) dat.toNat 8 0).1 (3 / 2 ^ 16) dat.toNat = some 0x400001000 ∧
    (wit fun x => { x with monitor := .armedRemote 9 }).parts.find? (fun x => x.2.monitor == .armedRemote 9) = some (0, part (wit fun x => { x with monitor := .armedRemote 9 }) 0) :=
  ⟨by decide +kernel, by decide +kernel, ok_of _ (by decide +kernel), by decide +kernel⟩

/-- A request queue whose ring lies on the mapped page. -/
def ring (tail : Nat) : State := mset (mset (physPut { base with cur := 0 } 0x400001000 (leBytes 8 tail)) 0 (regRqCfg 1) (w64 (0x400001000 + 1))) 0 (regAcl 0) (w64 0x900010108)

def rqWin : Nat := 0xFFFF000000004040

theorem witness_FabricStepsFollowTheirRules_record : slicesTested (mset (ring 0) 0 regRqWin 0x4000) = [] ∧ locOf rqWin = .here 0 0x4040 ∧ spotOf (mset (ring 0) 0 regRqWin 0x4000) 0 0x4040 = .rqWindow 1 0 ∧ (∀ h ∈ (quarter (ring 0) 0).held2, h.queue ≠ 1) ∧
    (appendRecord (ring 0) 0 1 5 (leBytes 64 9)).2 = .ok ∧ (appendRecord (ring 1) 0 1 5 (leBytes 64 9)).2 = .full ∧ (appendRecord (ring 0) 0 2 5 (leBytes 64 9)).2 = .denied ∧ aclFind (ring 0) 5 0 1 = some 0x900010108 ∧ nbit 0x900010108 3 = true ∧
    nbit (mgetN (ring 0) 0 (regRqCfg 1)) 0 = true := by decide +kernel

theorem witness_FabricStepsFollowTheirRules_ring : let ctx := queueCtx 0 (nfld (mgetN (ring 0) 0 (regRqCfg 1)) 48 16)
    let r := globalAddr 0 (nfld (mgetN (ring 0) 0 (regRqCfg 1)) 8 38 * 256)
    (∃ a v, readNum (ring 0) ctx r 8 0 = (a, .ok v)) ∧ (∃ a v, readNum (readNum (ring 0) ctx r 8 0).1 ctx (r + 128) 8 0 = (a, .ok v)) ∧ (∃ a b, writeVa (ring 0) ctx (r + 256) (leBytes 64 9) 0 = (a, .ok b)) ∧
    (writeVa (ring 0) ctx r (leBytes 8 1) 0).1.capture = false ∧ ∃ a b, writeVa (ring 0) ctx r (leBytes 8 1) 0 = (a, .ok b) := by
  refine ⟨ok_of _ ?_, ok_of _ ?_, ok_of _ ?_, ?_, ok_of _ ?_⟩ <;> decide +kernel

theorem witness_FabricStepsFollowTheirRules_multicast : slicesTested base = [] ∧ mayWriteAll base (arrivalCtx 3 dat.toNat) (0xFFFF * 2 ^ 48 + dat.toNat % 2 ^ 48) 1 = .ok () ∧ mayWriteAll base (arrivalCtx 3 away.toNat) (0xFFFF * 2 ^ 48 + away.toNat % 2 ^ 48) 1 = .error (.fault 0 away.toNat) ∧
    (writeVa base (arrivalCtx 3 dat.toNat) (0xFFFF * 2 ^ 48 + dat.toNat % 2 ^ 48) [1] 0).1.capture = false ∧ 1 ≠ Config.device ∧ 2 ^ 32 % 2 ^ 32 = 0 ∧ 3 % 2 ^ 32 ≠ 0 ∧ mgetN base 0 (regLink 1 3 2) < 2 ^ 32 - 1 := by decide +kernel

theorem witness_FabricStepsFollowTheirRules_multicast_add : let s := countCast base 5 9
    castCounted base 5 9 2 = false ∧ castCounted s 5 10 1 = true ∧ s.capture = false ∧ mayWrite s (arrivalCtx 3 dat.toNat) (0xFFFF * 2 ^ 48 + dat.toNat % 2 ^ 48) = .ok () ∧
    (∃ w old, performOp (retestRings s) (arrivalCtx 3 dat.toNat) (0xFFFF * 2 ^ 48 + dat.toNat % 2 ^ 48) (.barrierAdd 1) 0 = (w, .ok old)) ∧
    (performOp (retestRings s) (arrivalCtx 3 dat.toNat) (0xFFFF * 2 ^ 48 + dat.toNat % 2 ^ 48) (.barrierAdd 1) 0).1.capture = false :=
  ⟨by decide +kernel, by decide +kernel, by decide +kernel, by decide +kernel, ok_of _ (by decide +kernel), by decide +kernel⟩

theorem witness_LinkQueuesAndEthernetArrivals_stale : let l : LinkQueue := { bound := true, ty := 1, peerDev := 1, stale := [((1, 0, 0), 1)], paired := true }
    (fgetD (core (modCore base 0 fun c => { c with links := [(15, l)] }) 0).links 15 {}).stale ≠ [] ∧ l.send = false ∧ l.paired = true ∧ l.tiles.length < 4 ∧ ({} : LinkQueue).stale = [] := by decide +kernel

theorem witness_LinkQueuesAndEthernetArrivals_queue : let s (l : LinkQueue) : State := modCore base 0 fun c => { c with links := [(15, l)] }
    let l : LinkQueue := { bound := true, ty := 1, peerDev := 1 }
    (fgetD (core (s l) 0).links 15 {}).bound = true ∧ (fgetD (core (s l) 0).links 15 {}).failed = false ∧ (fgetD (core (s l) 0).links 15 {}).tiles.length < 4 ∧ (fgetD (core (s l) 0).links 15 {}).paired = false ∧
    (fgetD (core (s { l with send := true }) 0).links 15 {}).send = true ∧ (fgetD (core (s { l with paired := true }) 0).links 15 {}).paired = true ∧ 2 ≠ l.peerDev ∧ (1 = l.peerDev ∧ 0 = l.peerCore ∧ 0 = l.peerQueue) ∧ 2 ≠ l.ty ∧ (fgetD (core (s { l with heldSince := some 0 }) 0).links 15 {}).heldSince = some 0 ∧
    (s l).time < 0 + max 1 (mgetN (s l) 0 regLtqTimeout % 2 ^ 32) * 1250 ∧ 0 + max 1 (mgetN (s l) 0 regLtqTimeout % 2 ^ 32) * 1250 ≤ 1250000 := by decide +kernel

def rx (len bar : Nat) : State := mset (mset (mset base 0 (regRx 255 0) dat) 0 (regRx 255 1) (w64 len)) 0 (regRx 255 2) (w64 bar)

theorem witness_LinkQueuesAndEthernetArrivals_timeout : let l : LinkQueue := { bound := true, ty := 1, peerDev := 1, heldSince := some 0 }
    let m : Nest := { nest2 with word := 0x1000000 + 0x100 + 15 * 2 ^ 12 }
    let s := { modCore base 0 fun c => { c with links := [(15, l)], nest := some m } with time := 1250000 }
    (waitingLinks (core s 0) m).contains 15 = true ∧ 0 + max 1 (mgetN s 0 regLtqTimeout % 2 ^ 32) * 1250 ≤ s.time ∧ (core s 0).epi = none ∧ (core base 0).nest = none ∧
    ({ nest2 with epiDest := 2, epiWord := 15 * 2 ^ 9 } : Nest).epiDest = 2 ∧ nfld ({ nest2 with epiDest := 2, epiWord := 15 * 2 ^ 9 } : Nest).epiWord 9 4 = 15 := by decide +kernel

theorem witness_LinkQueuesAndEthernetArrivals_ethernet : slicesTested (rx 2 0) = [] ∧ mgetN (rx 2 0) 0 (regRx 255 0) = dat.toNat ∧ nfld (mgetN (rx 2 0) 0 (regRx 255 1)) 0 32 = 2 ∧ (∃ u b, writeVa (rx 2 0) (queueCtx 0 0) dat.toNat [1, 2] 0 = (u, .ok b)) ∧
    (retestRings (writeVa (rx 2 0) (queueCtx 0 0) dat.toNat [1, 2] 0).1).capture = false ∧ mgetN (rx 2 0x40) 0 (regRx 255 2) ≠ 0 ∧ (∃ w old, performOp (rx 2 0) (queueCtx 0 0) dat.toNat (.barrierAdd 2) 0 = (w, .ok old)) ∧
    nbit (mgetN (rx (2 ^ 63 + 2) 0) 0 (regRx 255 1)) 63 = true ∧ (∀ k, k < 255 → nbit (mgetN (rx (2 ^ 63 + 2) 0) 0 (regRx k 1)) 63 = false) ∧ ∀ k, k < 256 → nbit (mgetN base 0 (regRx k 1)) 63 = false :=
  ⟨by decide +kernel, by decide +kernel, by decide +kernel, ok_of _ (by decide +kernel), by decide +kernel, by decide +kernel, ok_of _ (by decide +kernel), by decide +kernel⟩

theorem witness_HostDieReachesTheDevice_memory : waitsHome base (queueCtx 0 0) dat.toNat 64 false = false ∧ waitsHome base (queueCtx 0 0) dat.toNat 1 true = false ∧ base.ready = true ∧ hostWaits base = false ∧ hostWaits (modQuarter base 3 fun x => { x with hrPending := some 5, hrWriters := [(768, 0, 0)] }) = true ∧ locOf dat.toNat = .here 0 0x400001000 ∧ inMgmt 0x400001000 = false ∧ 64 ∈ [1, 2, 4, 8, 16, 32, 64] ∧ dat.toNat % 64 = 0 ∧ (∃ u bs, readVa base (queueCtx 0 0) dat.toNat 64 0 = (u, .ok bs)) ∧
    (∃ u b, writeVa base (queueCtx 0 0) dat.toNat [1] 0 = (u, .ok b)) ∧ (writeVa base (queueCtx 0 0) dat.toNat [1] 0).1.capture = false ∧ (∃ u, readVa base (queueCtx 0 0) away.toNat 1 0 = (u, .error (.fault 0 away.toNat))) ∧ (∃ u, writeVa base (queueCtx 0 0) away.toNat [1] 0 = (u, .error (.fault 0 away.toNat))) ∧ (pkt 0).length = 160 :=
  ⟨by decide +kernel, by decide +kernel, rfl, by decide +kernel, by decide +kernel, by decide +kernel, by decide, by decide, by decide, ok_of _ (by decide +kernel), ok_of _ (by decide +kernel), by decide +kernel, ⟨_, fault_of _ (by decide +kernel)⟩, ⟨_, fault_of _ (by decide +kernel)⟩, by decide +kernel⟩

/-- A device one of whose slices is under test: the home of the mapped line. -/
def slice0 : State := modCore base 1 fun x => { x with testing := some (0, 4, 0x10000 + homeSlice (lineOf 0 0x400001000), 99) }

theorem slice0_tested : slicesTested slice0 = [(0, homeSlice (lineOf 0 0x400001000))] := by
  have h : slice0.cores = [(0, core base 0), (1, { core base 1 with testing := some (0, 4, 0x10000 + homeSlice (lineOf 0 0x400001000), 99) })] := rfl
  have h0 : (core base 0).testing = none := rfl
  simp [slicesTested, h, h0]

theorem waits_of {s : State} {c : Ctx} {va n k q off h : Nat} {w : Bool} (hp : (va, k) ∈ piecesOf va n) (hl : locOf va = .here q off)
    (hs : spotOf s q off = .memory) (hx : (w || !inL1 s c q off) = true) (hm : h ∈ homesAsked s c q off w)
    (ht : homeTested s h (lineOf q off) = true) (hn : slicesTested s ≠ []) :
    waitsHome s c va n w = true := by
  simp only [waitsHome, Bool.and_eq_true, List.any_eq_true]
  exact ⟨by simpa using hn, (va, k), hp, by simp only [hl, hs, Bool.and_eq_true, Bool.or_eq_true, List.any_eq_true]; exact ⟨⟨rfl, by simpa using hx⟩, .inr ⟨h, hm, ht⟩⟩⟩

theorem witness_HostDieReachesTheDevice_tested : waitsHome slice0 (queueCtx 0 0) dat.toNat 64 false = true ∧ waitsHome slice0 (queueCtx 0 0) dat.toNat 1 true = true := by
  have n : slicesTested slice0 ≠ [] := by rw [slice0_tested]; simp
  have h : homeTested slice0 0 (lineOf 0 0x400001000) = true := by
    unfold homeTested; rw [slice0_tested]; simp
  exact ⟨waits_of (k := 32) (by decide +kernel) (by decide +kernel) (by decide +kernel) (by decide +kernel) (by decide +kernel) h n,
    waits_of (k := 1) (by decide +kernel) (by decide +kernel) (by decide +kernel) (by decide +kernel) (by decide +kernel) h n⟩

theorem witness_HostDieReachesTheDevice_registers : locOf 0xFFFF3F0000000008 = .here 0 0x3F0000000008 ∧ inMgmt 0x3F0000000008 = true ∧ 0x3F0000000008 / 8 * 8 ≠ regDev 0x300 ∧ 0xFFFF3F0000000008 % 8 = 0 ∧ 0xFFFF3F000000000C % 4 = 0 ∧ hostWaits State.reset = false ∧ State.reset.ready = false ∧ isBootSt 8 = false ∧
    (∃ k, regKind 0 0x3F0000000008 = some k) ∧ isBootSt (0xFFFF * 2 ^ 48 + regDev 0x200) = true ∧ ¬(0x3F0000001000 ≤ 0x3F0000000008 ∧ 0x3F0000000008 < 0x3F0000002000 ∧ 0x3F0000000008 % 0x40 = 0) ∧ mkey 1 0 ≠ mkey 0 0x3F0000000008 ∧ (∃ k, regKind 3 (regJq 63 0) = some k) ∧
    locOf 0xFFFE000000000000 = .host := ⟨by decide +kernel, by decide, by decide, by decide, by decide, by decide +kernel, rfl, by decide +kernel, ⟨_, rfl⟩, by decide +kernel, by decide, by decide, ⟨_, rfl⟩, by decide +kernel⟩

def fault0 : FaultRec := { job := 0, va := 8, unit := 0, asid := 0, view := 0, acc := 0, kind := 0 }

theorem witness_HostDieReachesTheDevice_queues : let s := { base with faultsWaiting := [fault0] }
    s.faults.length < 1024 ∧ s.faults = [] ∧ mgetN s 0 (regDev 0x38) = 0 ∧ 1024 ≤ (List.replicate 1024 fault0).length ∧ localKey 0xFFFF000000001000 = some 0x1000 ∧ findJob base (Config.device * 2 ^ 48 + 0x1000) = none ∧ s.ready = true ∧ hostWaits s = false ∧ 0xFFFF000000001000 < 2 ^ 64 ∧
    (let s := { State.reset with ready := true, quarters := [(0, { jobs := [job0] })] }
     hostWaits s = false ∧
     findJob s (Config.device * 2 ^ 48 + 0x1000) = some job0 ∧ s.forks = [] ∧ s.cores = [] ∧ s.parts = [] ∧ (quarter s 0).suspended = []) := by decide +kernel

/-- A device on whose partition 3 the job runs. -/
def running : State := modCore (modPart { State.reset with ready := true, quarters := [(0, { jobs := [job0] })] } 3 fun x => { x with
  resident := some { addr := 64, job := 0x1000, view := 0, level := 5, base := 5, rival := false, ordinal := 0, stay := 1 }, regs := [(3, [5])],
  loops := [(1, { armed := true, count := 9, stop := 80 })], monitor := .fired, queues := [(0, { queued := [plainCmd (.mrstNone h0) []] })] }) 0 fun c => { c with issue := some 3 }

theorem witness_HostDieReachesTheDevice_running : running.ready = true ∧ hostWaits running = false ∧ findJob running (Config.device * 2 ^ 48 + 0x1000) = some job0 ∧ running.forks = [] ∧
    (part running 3).resident.map (fun r => r.job) = some (Config.device * 2 ^ 48 + 0x1000) := by decide +kernel

theorem witness_ManagementOperationsTakeEffect_ready : base.ready = true ∧ hostWaits base = false ∧ State.reset.ready = false ∧ base.opBusy = false ∧ (∀ r ∈ base.tags.replicas, replicaHits 0 0 0 true 0 r = false) := by decide +kernel

theorem witness_ManagementOperationsTakeEffect_inval : let v : View := { parent := 0, depth := 1, rival := 0, quota := 128 }
    { base with invalBusy := [3] }.invalBusy.contains 3 = true ∧ base.invalBusy.contains 3 = false ∧ fget { base with views := [(4095, v)] }.views ((0xFFF0000000000000 : W64).toNat / 2 ^ 52) = some v ∧
    fget base.views ((0xFFF0000000000000 : W64).toNat / 2 ^ 52) = none := by decide +kernel

theorem witness_ManagementOperationsTakeEffect_sketch : (∀ g, g < 4 → halveDue (modQuarter (mset base 0 regPeriod 1) 0 fun x => { x with sketchAdds := [(63, 1), (127, 1), (191, 1), (255, 1)] }) 0 g 63 = true) ∧
    [(63, 1), (127, 1), (191, 1), (255, 1)].Pairwise (fun (a b : Nat × Nat) => a.1 < b.1) := by decide +kernel

theorem witness_ManagementOperationsTakeEffect_hr : 127 < nfld (0x80 : W64).toNat 0 8 ∧ nfld (0x7F : W64).toNat 0 8 + nfld (0x7F : W64).toNat 8 8 + nfld (0x7F : W64).toNat 16 8 + nfld (0x7F : W64).toNat 24 8 ≤ 127 ∧
    (quarter (modQuarter base 3 fun x => { x with hrPending := some 5 }) 3).hrPending = some 5 ∧ tableBusy (modQuarter base 3 fun x => { x with hrPending := some 5 }) 3 = false ∧
    tableBusy (wit fun x => { x with queues := [(3, { running := [{ cmd := plainCmd (.hrpin h0 1 2 1) [dat, tw, 0, 0], count := 0, state := .done, tookLeave := false, lost := false, added := false, step := 0, rows := [] }] })] }) 0 = true := by decide +kernel

theorem witness_ManagementOperationsTakeEffect_chm :
    (¬ (chmPhys fun i => if i = 15 then 0 else mgetN base 0 (regCh 3 i 0)).Nodup) ∧ (chmPhys fun i => if i = 15 then 64 + 15 else mgetN base 0 (regCh 3 i 0)).Nodup ∧
    nfld (mgetN base 0 (regCh 3 15 0)) 6 2 ≠ nfld (64 + 15) 6 2 ∧ (chmPhys fun i => if i = 15 then 15 else mgetN base 0 (regCh 3 i 0)).Nodup ∧ nfld (mgetN base 0 (regCh 3 15 0)) 0 4 = nfld 15 0 4 := by decide +kernel

theorem witness_ManagementOperationsTakeEffect_migration : let s := mset (mset base 0 regMigVa (0x400000000 : W64)) 0 regMigDst (0x800000000 : W64)
    s.migrating.contains 0 = false ∧ (migrationLeaf s 0).isSome = true ∧ (match migrationLeaf s 0 with | some l => leafUsable s 0 l.2.2 | none => false) = true ∧ { s with migrating := [0] }.migrating.contains 0 = true ∧ leafUsable s 0 0x400000205 = true := by decide +kernel

theorem witness_ManagementOperationsTakeEffect_views : let v : View := { parent := 0, depth := 1, rival := 0, quota := 128, ended := true }
    let s := { State.reset with views := [(4095, v)] }
    fget s.views 4095 = some v ∧ v.ended = true ∧ (∀ p ∈ s.parts, ∀ k ∈ p.2.queues, k.2.queued = [] ∧ k.2.running = []) ∧ (∀ c ∈ s.cores, c.2.sideLog = [] ∧ c.2.sideHeld = []) ∧ s.views.Pairwise (fun a b => a.1 < b.1) := by decide +kernel

theorem witness_ManagementOperationsTakeEffect_ways : waysDirty base 0 16 = false ∧ base.die.Pairwise (fun a b => a.1 < b.1) ∧ (∀ e ∈ base.die, e.2.dirty = false → e.2.bytes = memBytes base.mem (32 * e.1) 32) ∧
    0 < 768 ∧ (quarter (modQuarter base 0 fun x => { x with mswaysBusy := some (0, true, 4) }) 0).mswaysBusy = some (0, true, 4) := by decide +kernel

theorem witness_ErrorsResetBootAndAttestation : 0x100000000000 ≤ 0x11FFFFFFFFFF % 2 ^ 46 ∧ 0x11FFFFFFFFFF % 2 ^ 46 < 0x120000000000 ∧ mgetN base 0 (regCh 3 15 1) < 2 ^ 48 - 1 ∧ mgetN base 0 (regCh 3 15 (8 + 15 % 16)) < 2 ^ 48 - 1 ∧ base.errors.length < 4095 ∧
    mgetN base 0 (regCh 3 15 4) = 0 ∧ nfld (mgetN base 0 (regLink 2 7 0)) 0 3 ≠ 7 ∧ nfld (mgetN base 0 (regLink 1 7 0)) 0 3 ≠ 2 ∧ linkLanes 1 ≤ 2 * 24 ∧ 2 * 7 < linkLanes 1 ∧ mgetN base 0 (regLink 2 7 1) < 2 ^ 48 - 1 ∧ base.opBusy = false ∧ anyLive base = true ∧
    (let s := { State.reset with ready := true, opBusy := true }
     anyLive s = false ∧ (∀ q, q < 4 → tableBusy s q = false)) ∧ nbit (1 : W64).toNat 0 = true ∧ nbit (1 : W64).toNat 1 = false ∧ nbit (3 : W64).toNat 1 = true ∧ State.reset.ready = false ∧ State.reset.bootCode = 0 ∧ base.ready = true ∧ hostWaits base = false ∧ base.reportBusy = false ∧ { base with reportBusy := true }.reportBusy = true ∧
    State.reset.reportBusy = false ∧ locOf (mgetN (mset base 0 (regDev 0x2A0) 0xFFFE000000000000) 0 (regDev 0x2A0)) = .host := by decide +kernel

theorem witness_EveryInstructionSurvivesItsEncoding : (Instr.lih h0 5 0x8000 0xFFFFFFF 0xFFFFF).wf = true ∧ (Instr.lih h0 5 0x8000 0xFFFFFFF 0xFFFFF).isEvent = false ∧
    ∃ w ws, encode (.lih h0 5 0x8000 0xFFFFFFF 0xFFFFF) = w :: ws := ⟨by decide +kernel, by decide +kernel, _, _, rfl⟩

theorem witness_EveryDecodedWordIsItsInstructionsEncoding : 0x182531D0 < 2 ^ 32 ∧ decodeWords 0x182531D0 0 0 = .ok (.add { hs with sn := true } 5 6 7 false true) ∧ 0x07E00000 / 2 ^ 21 % 64 = 63 ∧ 0x07C00000 / 2 ^ 21 % 64 = 62 ∧
    2 ≤ wordCount 0x03000000 ∧ 0x10000000 / 2 ^ 28 % 16 ≠ 0 := by decide +kernel

def next0 (w : Nat) : State := State.reset.withFetchWord 32 w

theorem witness_StepRunsTheDecodedWord : slicesTested (next0 0) = [] ∧ (next0 0x182531D0).agenda = [.issue 0] ∧ (next0 0x182531D0).ready = true ∧ (core (next0 0x182531D0) 0).issue = some 0 ∧ (core (next0 0x182531D0) 0).nextIssue ≤ (next0 0x182531D0).time ∧
    (part (next0 0x182531D0) 0).entering = none ∧ (part (next0 0x182531D0) 0).flights = [] ∧ (part (next0 0x182531D0) 0).restarting = false ∧ (part (next0 0x182531D0) 0).fetchSeen = none ∧
    (fetchWord { next0 0x182531D0 with agenda := [] } (ctxOf (next0 0x182531D0) 0 .control) wordVa).2 = .word 0x182531D0 ∧
    (fetchRest (next0 0x182531D0) (ctxOf (next0 0x182531D0) 0 .control) wordVa (wordCount 0x182531D0 - 1) [0x182531D0]).2 = .ok [0x182531D0] ∧
    (fetchWord { next0 0 with agenda := [] } (ctxOf (next0 0) 0 .control) 0xFFFF000800000000).2 = .unmapped 0xFFFF000800000000 ∧ mayExecute (next0 0) 0 wordVa = some true ∧ isEvent .erPop = true ∧
    firstChange { State.reset with ready := true } (dueEvents { State.reset with ready := true }) = none ∧ firstCore { State.reset with ready := true } = none := by decide +kernel

theorem witness_StepRunsTheDecodedWord_refused : (fetchWord { next0 0 with agenda := [] } (ctxOf (next0 0) 0 .control) 0x0001000000000000).2 = .denied 0x0001000000000000 ∧ (part (next0 0) 0).atHandler = false ∧
    (let s := { next0 0 with agenda := [], failing := [0x400000000 / 32] }
     (fetchWord s (ctxOf s 0 .control) wordVa).2 = .bad) ∧
    (fetchRest { next0 0 with agenda := [] } (ctxOf (next0 0) 0 .control) 0xFFFF0007FFFFFFFC 1 [0x03000000]).2 = .error (.unmapped 0xFFFF000800000000) := by decide +kernel

theorem witness_MemoryStaysSound : MemorySound { base with agenda := [.tick] } ∧ step { base with agenda := [.tick] } = .next { base with time := 11 } ∧ base.bootCode = 0 ∧ NoticesStored base :=
  ⟨base_sound, rfl, rfl, rfl⟩

theorem witness_NothingStopsTheDevice : let s := { State.reset with bootCode := 1 }
    s.agenda = [] ∧ s.bootCode ≠ 0 ∧ ({ base with agenda := [.tick] } : State).agenda ≠ [] ∧ NoticesStored base := ⟨rfl, by decide, by decide, rfl⟩

/-- A rival of a world, alone with its record. -/
def world : State := let s := wit fun x => { x with resident := x.resident.map fun r => { r with view := 7, rival := true } }
  { s with views := [(7, { parent := 0, depth := 1, rival := 2, quota := 128 })], forks := [{ parent := 64, parentView := 0, quarter := 0, ctx := { part := 0, agent := .control, asid := 0, view := 0, job := 0 }, dreg := 3, base := 0, rivals := [(2, 7, 0)], living := [2], asks := [], winner := none, waitAcks := [] }] }

def fork7 : Fork := { parent := 64, parentView := 0, quarter := 0, ctx := { part := 0, agent := .control, asid := 0, view := 0, job := 0 }, dreg := 3, base := 0, rivals := [(2, 7, 0)], living := [2], asks := [], winner := none, waitAcks := [] }

theorem witness_WorldWordsForkChooseAndAbandon_fork : let s := wr [(1, [dat + 2]), (2, [128])]
    Issues s h0 { reads := [rd s 1 false, rd s 2 false], ill := worldWordIll s false } [dat + 2, 128] [(1, []), (2, [])] [] ∧ forkBad (dat + 2).toNat (128 : W64).toNat = false ∧ (part s 0).flights = [] ∧
    isLive (part (went s [(1, []), (2, [])]) 0) = false ∧ depthOf s (viewOf s 0) < 4 ∧ (part s 0).reserved = [] ∧ drained s 0 = true ∧ (dat + 2).toNat % 8 ≤ (freeViews s).length ∧ Unrecorded s ∧ (∃ r, (part s 0).resident = some r ∧ ∀ m ∈ s.monitors, m.owner ≠ .record r.addr) :=
  ⟨issues_of (by decide +kernel), by decide +kernel, rfl, by decide +kernel, by decide +kernel, rfl, by decide +kernel, by decide +kernel, unrec_of rfl (by decide +kernel), ⟨_, rfl, by decide +kernel⟩⟩

theorem witness_WorldWordsForkChooseAndAbandon_choose : Issues world h0 { ill := worldWordIll world true } [] [] [] ∧ drained world 0 = true ∧ forkOf world (viewOf world 0) = some (fork7, 2) ∧ (fget world.views (viewOf world 0)).isSome = true ∧
    fork7.logged = none ∧ fork7.winner = none ∧ fork7.asks.find? (fun a => a.1 == 2) = none ∧ fork7.parentView = 0 ∧ fork7.rivals.find? (fun x => x.1 == 2) = some (2, 7, 0) ∧ residentAt world 0 = some world.cur ∧
    Issues world h0 { dst := dstOf world 3, ill := worldWordIll world false } [] [] [] :=
  ⟨issues_of (by decide +kernel), by decide +kernel, by decide +kernel, by decide +kernel, rfl, rfl, rfl, rfl, rfl, by decide +kernel, issues_of (by decide +kernel)⟩

theorem witness_WorldWordsForkChooseAndAbandon_asked : let s := { world with forks := [{ fork7 with asks := [(2, 9)] }] }
    slicesTested s = [] ∧ Issues s h0 { ill := worldWordIll s true } [] [] [] ∧ forkOf s (viewOf s 0) = some ({ fork7 with asks := [(2, 9)] }, 2) ∧ 9 < s.time ∧
    commitBlocked (went s []) (ctxOf (went s []) 0 .control) [] = none ∧
    commitBlocked (went s []) (ctxOf (went s []) 0 .control) [(0x800000000 / 128, { pa := 0, mask := 1 })] = some (0, away.toNat) ∧
    (let s := { world with forks := [{ fork7 with winner := some 1 }] }
     Issues s h0 { ill := worldWordIll s true } [] [] [] ∧ forkOf s (viewOf s 0) = some ({ fork7 with winner := some 1 }, 2)) :=
  ⟨by decide +kernel, issues_of (by decide +kernel), by decide +kernel, by decide +kernel, by decide +kernel, by decide +kernel, issues_of (by decide +kernel), by decide +kernel⟩

theorem witness_IssueChangesOnlyTheIssuer : base.cur = (went base []).cur := rfl

theorem witness_RegisterWordsChangeOnlyTheirDestination : let s := wr [(1, [7])]
    Issues s h0 { reads := [rd s 1 false], dst := dstOf s 3 } [7] [(1, [])] [] ∧ nextIs (exec (.addi h0 3 1 false 1) s) (onward s h0 false 1 (flyExposed (went s [(1, [])]) 3 1 1 8)) = true :=
  ⟨issues_of (by decide +kernel), by decide +kernel⟩

theorem witness_StoresChangeOnlyTheirBytes : MemorySound base ∧ base.die.Pairwise (fun a b => a.1 < b.1) ∧ (∀ e ∈ base.die, e.2.dirty = false → e.2.bytes = memBytes base.mem (32 * e.1) 32) ∧ (ctxOf base 0 .control).view = 0 ∧ 0 < [1, 2].length ∧ dat.toNat % 32 + [1, 2].length ≤ 32 ∧ locOf dat.toNat = .here 0 0x400001000 ∧ spotOf base 0 0x400001000 = .memory ∧
    leafAt base 0 0 0x400001000 = some (0x400000205, 0x10008008) ∧ base.failing = [] ∧ ∃ u b, writeVa base (ctxOf base 0 .control) dat.toNat [1, 2] 0 = (u, .ok b) :=
  ⟨base_sound, by decide +kernel, by decide +kernel, by decide +kernel, by decide, by decide, by decide +kernel, by decide +kernel, by decide +kernel, rfl, ok_of _ (by decide +kernel)⟩

/-! ## What well-formedness refuses (R33 and each entry's own limits) -/

/-- Every instruction of the list is refused. -/
def refuses (l : List Instr) : Bool := l.all fun i => !i.wf

theorem test_wf_lengths : refuses [.loop h0 0 1 false 0, .loopi h0 0 5 0, .cpyg h0 1 2 0 0 8 0, .tsld h0 1 2 0 0 4 0, .tsst h0 1 2 false 0 0 4 0, .tsld h0 1 2 0 0 513 8, .tsst h0 1 2 false 0 0 513 8,
    .tsld h0 1 2 0 0 4 1025, .tsst h0 1 2 false 0 0 4 1025, .cbinit h0 1 false 0 0 4, .cbinit h0 1 false 0 16 0, .ldro h0 1 2 0 7 0] = true := by decide

theorem test_wf_spaces : refuses [.cpy h0 1 2 false 2 0 0 8, .cpy h0 1 2 false 0 3 0 8, .cpy2 h0 1 2 2 0 4 8, .cpy2 h0 1 2 0 2 4 8, .cpyg h0 1 2 2 0 8 4, .cpyg h0 1 2 0 2 8 4, .oqld h0 1 2 false 2 0 4 0,
    .tsld h0 1 2 2 0 4 8, .tsst h0 1 2 false 2 0 4 8, .vld h0 1 2 false false 3 1 0 0, .vst h0 1 2 false 2 1 0, .vtblld h0 1 false 2 0, .vfilt h0 1 2 false false 2 0 1, .mshp h0 1 false 2 0,
    .gpoolAuto h0 1 2 2 0 0 false 4, .gpoolAuto h0 1 2 0 2 0 false 4, .gpoolDie h0 1 2 2 0 0 false 4, .gpoolDie h0 1 2 0 2 0 false 4, .gpoolFar h0 1 2 2 0 0 false 4, .gpoolFar h0 1 2 0 2 0 false 4,
    .gdeq h0 1 2 2 0 0 4, .gdeq h0 1 2 0 2 0 4, .gscan h0 1 2 2 0 0 false 0 0, .gscan h0 1 2 0 2 0 false 0 0, .grank h0 1 2 2 0 0 4, .grank h0 1 2 0 2 0 4, .dupd h0 1 2 2 0 0 0 4, .dupd h0 1 2 0 2 0 0 4,
    .dord h0 1 2 2 0 0 0 4, .dord h0 1 2 0 2 0 0 4, .xall h0 1 2 false 2 0 0 4, .wtbl h0 1 2 false false 2 0 0 0] = true := by decide

theorem test_wf_types : refuses [.vshape h0 0 0 false false false false 12 0 0, .vcvt h0 0 false 0 0 12 0, .vgelu h0 0 0 12, .vsilu h0 0 0 12, .vsplus h0 0 0 12, .vtanh h0 0 0 12, .vsigm h0 0 0 12, .vexp h0 0 0 12,
    .vrcp h0 0 0 12, .vrsqrt h0 0 0 12, .vtbl h0 0 0 12 0, .vfrlog h0 0 0 12, .mlqSend h0 1 false 0 0 12, .mlqRecv h0 1 false 0 0 12, .gpoolAuto h0 1 2 0 0 12 false 4, .gpoolDie h0 1 2 0 0 12 false 4,
    .gpoolFar h0 1 2 0 0 12 false 4, .gdeq h0 1 2 0 0 12 4, .grank h0 1 2 0 0 12 4, .dupd h0 1 2 0 0 12 0 4, .dord h0 1 2 0 0 12 0 4, .wload h0 1 2 false false 4 12 0, .wtbl h0 1 2 false false 0 12 0 0] = true := by decide

theorem test_wf_operations : refuses [.vcmp h0 0 false false false 0 0 0 6, .vred h0 false false 0 0 5, .mshf h0 1 false 0 15, .dupd h0 1 2 0 0 0 3 4, .dord h0 1 2 0 0 0 3 4, .wload h0 1 2 false false 4 0 3] = true := by decide

theorem test_wf_unused_fields : refuses [.vshape h0 1 0 false false false false 0 0 0, .vshape h0 0 0 true false false false 0 0 0, .vshape h0 1 0 false false false true 0 1 0, .vshape h0 0 1 false false false false 0 0 0,
    .vshape h0 0 0 false true false false 0 0 0, .vshape h0 0 1 false false true false 0 0 1, .vld h0 1 0 false false 2 0 0 0, .vld h0 0 1 false false 2 0 0 0, .vld h0 0 0 true false 2 0 0 0, .vld h0 0 0 false true 2 0 0 0,
    .vld h0 1 2 false false 0 0 1 0, .vld h0 1 2 false false 1 0 0 1, .vadd h0 0 false true false 0 0 1, .vadd h0 1 false false false 0 0 1, .vsub h0 0 true false false 0 0 1, .vmul h0 0 false true false 0 0 1,
    .vfma h0 0 false true false 0 0 1 0, .vmax h0 1 false false false 0 0 1, .vmin h0 1 false false false 0 0 1, .vcmp h0 1 false false false 0 0 1 0, .vand h0 1 false false 0 0 1, .vor h0 0 false true 0 0 1,
    .vxor h0 1 false false 0 0 1, .vshl h0 1 false false 0 0 1, .vshr h0 0 false true 0 0 1, .vladd h0 1 false 0 0 0 1, .vlsub h0 0 false 1 0 0 1, .vcvt h0 1 false 0 0 0 0, .vcvt h0 0 true 0 0 0 0] = true := by decide

theorem test_wf_same_destination : refuses [.vtopk h0 false 3 0 0 3 0, .vuniq h0 3 0 3, .vbkt h0 3 0 3 0 0] = true := by decide

theorem test_wf_ring_bits_of_table_commands : refuses [.gpoolAuto { h0 with wp := true } 1 2 0 0 0 false 4, .gpoolDie { h0 with sp := true } 1 2 0 0 0 false 4, .gpoolFar { h0 with wn := true } 1 2 0 0 0 false 4,
    .gdeq { h0 with sn := true } 1 2 0 0 0 4, .gscan { h0 with wp := true } 1 2 0 0 0 false 0 0, .grank { h0 with sp := true } 1 2 0 0 0 4, .hrpin { h0 with wn := true } 1 2 4, .hrfree { h0 with sn := true } 1 2 4,
    .dupd { h0 with wp := true } 1 2 0 0 0 0 4, .dord { h0 with sp := true } 1 2 0 0 0 0 4, .xall { h0 with wn := true } 1 2 false 0 0 0 4, .wload { h0 with sn := true } 1 2 false false 4 0 0,
    .wtbl { h0 with wp := true } 1 2 false false 0 0 0 0] = true := by decide

theorem test_wf_places_of_events : refuses [.mswaysDrain 4 0, .mswaysConvert 4 0, .commandStart 768 0, .commandStart 0 6, .commandComplete 768 0 0, .commandComplete 0 6 0, .nestStep 192, .epilogue 192, .registerWriteLanding 768,
    .loadValueReturn 768 0, .heldWordResume 192, .stopSpacing 768, .pendingTrapDelivery 768, .launchAccept 4, .jobDispatch 4 0, .iterationHandout 4, .recordPickup 4, .schedAge 4, .fairnessDue 768, .fairnessWindowEnd 768,
    .issuePass 192, .mangleTake 768, .watchdogExpiry 768, .jobComplete 4 0, .linkTileArrival 192 0 [] [], .ltqCredit 192 0, .ltqBindPacket 192 0 0 0 0 0 false, .ltqTimeout 192 0, .trInvalWrite 4 0, .trInvalDone 4, .skClrWrite 4 0,
    .sketchHalve 4 0, .hrCfgWrite 4 0, .hrCfgTakeEffect 4, .chmWrite 4 0 0 0, .migGo 4, .migrationDone 4, .viewFree 4096, .leaveGrant 4 0, .testResult 768 [], .replayHoldLimit 768, .registerWrite 4 0 0, .skClrDone 4,
    .mswaysOperationEnd 4] = true := by decide

theorem test_decode_refusals :
    decodeWords 0x01C05000 0 0 = .error .reservedValue ∧ -- loop of length 0 (R33)
    decodeWords 0x00200000 0 0 = .ok (.add h0 0 0 0 false false) ∧ decodeWords 0x00400010 0 0 = .ok (.mul h0 0 0 0 false true) ∧ decodeWords 0x00400017 0 0 = .error .nonZeroField ∧ -- clz has no kb
    decodeWords 0x0040000D 0 0 = .error .unassigned ∧ decodeWords 0x020001C0 0 0 = .error .unassigned ∧ -- size code 7
    decodeWords 0x03800000 0 0 = .error .reservedMajor ∧ decodeWords 0x8E200000 0x10000000 0 = .error .extensionHighBits ∧ -- mgo with bit 28 of TX
    decodeWords 0x87002145 0x00000003 0 = .error .ringBits ∧ decodeBytes [0x00, 0x00, 0x40] = .error .truncated := by decide +kernel

/-! ## Words written out from the encodings of R11 and R24 to R31 -/

/-- Every row's words decode to its instruction. -/
def reads (l : List (Nat × Nat × Nat × Instr)) : Bool :=
  l.all fun (w0, w1, w2, i) => match decodeWords w0 w1 w2 with | .ok j => j == i | .error _ => false

def hA : Hdr := { wp := false, sp := true, wn := false, sn := true, stop := false }

def hB : Hdr := { wp := true, sp := true, wn := true, sn := true, stop := true }

/-- The words that the manual itself writes out: its examples of R24 to R31, R48, R75, R78, R83, R84, R88, R94, R109, R124, R148, R178, R194, R318, R387. -/
theorem test_decode_examples_of_the_entries : reads [
    (0x182531D0, 0, 0, .add { h0 with sn := true, stop := true } 5 6 7 false true),
    (0x018321FB, 0, 0, .bne h0 3 4 0xFB),
    (0x01490123, 0x0456789A, 0x0BCDEF00, .lih h0 9 0x0123 0x456789A 0xBCDEF),
    (0x01E5060A, 0, 0, .crr h0 5 0x018),
    (0x01E5188A, 0, 0, .crr h0 5 0x062),
    (0x02054D82, 0, 0, .ldd h0 5 9 2 2),
    (0x02444DA0, 0, 0, .stRel h0 4 9 2),
    (0x02820000, 0, 0, .fence h0 2),
    (0x02810001, 0, 0, .mark h0 1),
    (0x83002140, 0x00001000, 0, .cpy { h0 with wp := true } 4 5 false 0 0 0 4096),
    (0x04002801, 0x00000400, 0, .vshape h0 5 0 false false false true 1 0 0),
    (0x0C800000, 0x00010012, 0, .vgelu hs 2 1 1),
    (0x04012141, 0x00000001, 0, .vld h0 4 5 false false 1 1 0 0),
    (0x06002981, 0, 0, .mcfgLevel h0 5 6 false false 1),
    (0x8E200000, 0, 0, .mgo { hs with wp := true }),
    (0x07002145, 0x00000003, 0, .gpoolAuto h0 4 5 1 1 0 false 3),
    (0x076531C0, 0, 0, .fork h0 5 6 7),
    (0x07600001, 0, 0, .choose h0),
    (0x07600002, 0, 0, .abandon h0),
    (0x07690003, 0, 0, .wid h0 9),
    (0x02E531C1, 0, 0, .rqpost h0 5 6 7 false false)] = true := by decide +kernel

/-- Words of the programs that the manual assembles (R198 and the listings of the ticket lock and of the rival steps). -/
theorem test_decode_programs_of_the_manual : reads [
    (0x01EA0002, 0, 0, .mbrd h0 10 0), (0x01C0501D, 0, 0, .loop h0 0 10 false 29), (0x00ED6446, 0, 0, .srli h0 13 12 true 6), (0x008E603F, 0, 0, .andi h0 14 12 false 63),
    (0x04000000, 0x000007F0, 0, .vshape h0 0 0 false false false false 1 63 0), (0x09C86808, 0, 0, .loop hs 1 13 false 8), (0x04014020, 0x00000001, 0, .vld h0 8 0 true false 0 1 0 0),
    (0x04024820, 0x00000020, 0, .vst h0 9 0 true 0 2 0), (0x002F039F, 0, 0, .sltu h0 15 0 14 false true), (0x01E00007, 0, 0, .done h0), (0x02274180, 0, 0, .std h0 7 8 0 0),
    (0x0275CE80, 0, 0, .amoadd h0 21 25 26 false false), (0x01F7A634, 0, 0, .waitaddr h0 23 20 24 true true), (0x003BBD71, 0, 0, .sub h0 27 23 21 true true), (0x019B060F, 0, 0, .bz h0 27 15), (0x019C070A, 0, 0, .bnz h0 28 10),
    (0x01F4020B, 0, 0, .crw h0 20 0x008 false), (0x09E00005, 0, 0, .park hs), (0x01A00000, 0x0FFFFFF4, 0, .br h0 0xFFFFFF4), (0x0256A5A0, 0, 0, .stRel h0 22 20 2), (0x013A0001, 0, 0, .li h0 26 1),
    (0x01C40003, 0x00003000, 0, .loopi h0 0 3 3), (0x01CC0001, 0x00002000, 0, .loopi h0 1 2 1), (0x086A5001, 0, 0, .addi hs 10 10 false 1),
    (0x0188024D, 0, 0, .blt h0 8 0 77), (0x04030002, 0x00000033, 0, .vbcastCol h0 3 3 0), (0x04230000, 0x00001324, 0, .vfma h0 0 false false false 4 2 3 1), (0x04210000, 0x00000546, 0, .vsub h0 0 false false false 6 4 5),
    (0x04610000, 0x00000067, 0, .vred h0 false false 7 6 0), (0x04610001, 0x00040078, 0, .vred h0 true false 8 7 4), (0x020C5900, 0, 0, .ldw h0 12 11 0 0),
    (0x04230301, 0x00001029, 0, .vfma h0 12 false true false 9 2 0 1), (0x44026820, 0x00000080, 0, .vst { h0 with sp := true } 13 0 true 0 8 0), (0x63006BA0, 0, 0, .cpy { h0 with sp := true, wn := true } 13 14 true 0 0 0 0)] = true := by decide +kernel

theorem test_decode_major01 : reads [
    (0x50350B50, 0, 0, .add hA 21 1 13 false true),
    (0xF83C4521, 0, 0, .sub hB 28 8 20 true false),
    (0x50237ED2, 0, 0, .and hA 3 15 27 false true),
    (0xF82AB0A3, 0, 0, .or hB 10 22 2 true false),
    (0x5031EA54, 0, 0, .xor hA 17 29 9 false true),
    (0xF8382425, 0, 0, .andn hB 24 4 16 true false),
    (0x503F5DD6, 0, 0, .sll hA 31 11 23 false true),
    (0xF82697A7, 0, 0, .srl hB 6 18 30 true false),
    (0x502DC958, 0, 0, .sra hA 13 25 5 false true),
    (0xF8340B29, 0, 0, .rol hB 20 1 12 true false),
    (0x503B3CDA, 0, 0, .min hA 27 7 19 false true),
    (0xF82276AB, 0, 0, .max hB 2 14 26 true false),
    (0x5029A85C, 0, 0, .minu hA 9 21 1 false true),
    (0xF830E22D, 0, 0, .maxu hB 16 28 8 true false),
    (0x50371BDE, 0, 0, .slt hA 23 3 15 false true),
    (0xF83E55AF, 0, 0, .sltu hB 30 10 22 true false)] = true := by decide +kernel

theorem test_decode_major02 : reads [
    (0x50458F50, 0, 0, .mul hA 5 17 29 false true),
    (0xF84CC121, 0, 0, .mulh hB 12 24 4 true false),
    (0x5053FAD2, 0, 0, .mulhu hA 19 31 11 false true),
    (0xF85A34A3, 0, 0, .div hB 26 6 18 true false),
    (0x50416E54, 0, 0, .divu hA 1 13 25 false true),
    (0xF848A065, 0, 0, .rem hB 8 20 1 true false),
    (0x504FD9D6, 0, 0, .remu hA 15 27 7 false true),
    (0xF8561007, 0, 0, .clz hB 22 2 false),
    (0x505D4828, 0, 0, .ctz hA 29 9 true),
    (0xF8448009, 0, 0, .popc hB 4 16 false),
    (0x504BB8DA, 0, 0, .sext hA 11 23 3 false true),
    (0xF852F2AB, 0, 0, .zext hB 18 30 10 true false),
    (0x50592C5C, 0, 0, .sel hA 25 5 17 false true)] = true := by decide +kernel

theorem test_decode_major03 : reads [
    (0xF86163C4, 0, 0, .addi hB 1 12 false 964)] = true := by decide +kernel

theorem test_decode_major04 : reads [
    (0x50879FCB, 0, 0, .andi hA 7 19 true 971)] = true := by decide +kernel

theorem test_decode_major05 : reads [
    (0xF8AED3D2, 0, 0, .ori hB 14 26 false 978)] = true := by decide +kernel

theorem test_decode_major06 : reads [
    (0x50D50FD9, 0, 0, .xori hA 21 1 true 985)] = true := by decide +kernel

theorem test_decode_major07 : reads [
    (0xF8FC4020, 0, 0, .slli hB 28 8 false 32),
    (0x50E37C67, 0, 0, .srli hA 3 15 true 39),
    (0xF8EAB0AE, 0, 0, .srai hB 10 22 false 46)] = true := by decide +kernel

theorem test_decode_major08 : reads [
    (0x5111EDF5, 0, 0, .slti hA 17 29 true 501),
    (0xF91823FC, 0, 0, .seqi hB 24 4 false 508)] = true := by decide +kernel

theorem test_decode_major09 : reads [
    (0x513FF86B, 0, 0, .li hA 31 63595)] = true := by decide +kernel

theorem test_decode_major0A : reads [
    (0xF946F872, 0x0AD6A03E, 0x0C480A00, .lih hB 6 63602 181837886 804874)] = true := by decide +kernel

theorem test_decode_major0B : reads [
    (0x516DF879, 0, 0, .apc hA 13 63609)] = true := by decide +kernel

theorem test_decode_major0C : reads [
    (0xF994084C, 0, 0, .beq hB 20 1 76),
    (0x519B3953, 0, 0, .bne hA 27 7 83),
    (0xF982725A, 0, 0, .blt hB 2 14 90),
    (0x5189AB61, 0, 0, .bge hA 9 21 97),
    (0xF990E468, 0, 0, .bltu hB 16 28 104),
    (0x51971D6F, 0, 0, .bgeu hA 23 3 111),
    (0xF99E06AA, 0, 0, .bz hB 30 170),
    (0x518507B1, 0, 0, .bnz hA 5 177)] = true := by decide +kernel

theorem test_decode_major0D : reads [
    (0xF9A00000, 0x056B50EC, 0, .br hB 90919148),
    (0x51B30100, 0x0820F8BF, 0, .call hA 19 136378559),
    (0xF9BA0200, 0, 0, .ret hB 26),
    (0x51A10300, 0, 0, .jr hA 1)] = true := by decide +kernel

theorem test_decode_major0E : reads [
    (0xF9C8A06C, 0, 0, .loop hB 1 20 false 108),
    (0x51DC00A7, 0x0F8DB000, 0, .loopi hA 3 63707 167)] = true := by decide +kernel

theorem test_decode_major0F : reads [
    (0xF9E61000, 0, 0, .semadd hB 6 2 false),
    (0x51ED4821, 0, 0, .semwt hA 13 9 true),
    (0xF9E40802, 0, 0, .mbrd hB 4 1),
    (0x51EBB8D3, 0, 0, .mbwr hA 11 23 3 false true),
    (0xF9F2F2A4, 0, 0, .waitaddr hB 18 30 10 true false),
    (0x51E00005, 0, 0, .park hA),
    (0xF9E00006, 0, 0, .yield hB),
    (0x51E00007, 0, 0, .done hA),
    (0xF9F45388, 0, 0, .trap hB 20814),
    (0x51E00009, 0, 0, .tret hA),
    (0xF9FC4A0A, 0, 0, .crr hB 28 296),
    (0x51E34BEB, 0, 0, .crw hA 3 303 true),
    (0xF9E0502C, 0, 0, .lvreq hB 10 true),
    (0x51E0880D, 0, 0, .lvrel hA 17 false),
    (0xF9F8200E, 0, 0, .bist hB 24 4 false),
    (0x51FF586E, 0, 0, .scan hA 31 11 true),
    (0xF9E6900F, 0, 0, .errrd hB 6 18 false),
    (0x51EDC86F, 0, 0, .jcancel hA 13 25 true)] = true := by decide +kernel

theorem test_decode_major10 : reads [
    (0xFA140A38, 0, 0, .ldb hB 20 1 1 56),
    (0x521B3E7F, 0, 0, .ldbu hA 27 7 3 63),
    (0xFA027486, 0, 0, .ldh hB 2 14 2 6),
    (0x5209AACD, 0, 0, .ldhu hA 9 21 1 13),
    (0xFA10E314, 0, 0, .ldw hB 16 28 1 20),
    (0x52171F5B, 0, 0, .ldwu hA 23 3 3 27),
    (0xFA1E55A2, 0, 0, .ldd hB 30 10 2 34)] = true := by decide +kernel

theorem test_decode_major11 : reads [
    (0x52258A29, 0, 0, .stb hA 5 17 1 41),
    (0xFA2CC2B0, 0, 0, .sth hB 12 24 1 48),
    (0x5233FF37, 0, 0, .stw hA 19 31 3 55),
    (0xFA3A35BE, 0, 0, .std hB 26 6 2 62)] = true := by decide +kernel

theorem test_decode_major12 : reads [
    (0x52416B80, 0, 0, .ldAcq hA 1 13 1),
    (0xFA48A3A0, 0, 0, .stRel hB 8 20 1)] = true := by decide +kernel

theorem test_decode_major13 : reads [
    (0x526FD9D0, 0, 0, .amoadd hA 15 27 7 false true),
    (0xFA7613A1, 0, 0, .amoand hB 22 2 14 true false),
    (0x527D4D52, 0, 0, .amoor hA 29 9 21 false true),
    (0xFA648723, 0, 0, .amoxor hB 4 16 28 true false),
    (0x526BB8D4, 0, 0, .amomin hA 11 23 3 false true),
    (0xFA72F2A5, 0, 0, .amomax hB 18 30 10 true false),
    (0x52792C56, 0, 0, .amominu hA 25 5 17 false true),
    (0xFA616627, 0, 0, .amomaxu hB 1 12 24 true false),
    (0x52679FD8, 0, 0, .amoswap hA 7 19 31 false true),
    (0xFA6ED1A9, 0, 0, .amocas hB 14 26 6 true),
    (0x52750B5A, 0, 0, .amofadd hA 21 1 13 false true),
    (0xFA7C452B, 0, 0, .amobfadd hB 28 8 20 true false)] = true := by decide +kernel

theorem test_decode_major14 : reads [
    (0x52820000, 0, 0, .fence hA 2),
    (0xFA830001, 0, 0, .mark hB 3),
    (0x52808F62, 0, 0, .wb hA 17 29 true false),
    (0xFA80C113, 0, 0, .inv hB 24 4 false true),
    (0x5280FAE4, 0, 0, .wbinv hA 31 11 true false),
    (0xFA829005, 0, 0, .pf hB 2 18 false),
    (0x52806E66, 0, 0, .roinv hA 13 25 true false)] = true := by decide +kernel

theorem test_decode_major15 : reads [
    (0xFAB40BA4, 0, 0, .ldro hB 20 1 1 6 36)] = true := by decide +kernel

theorem test_decode_major16 : reads [
    (0x52C0D9E0, 0, 0, .bbinit hA 27 7 true false),
    (0xFAC01391, 0, 0, .bbexp hB 2 14 false true),
    (0x52C9A852, 0, 0, .bbwait hA 9 21 1 false true),
    (0xFAD06003, 0, 0, .cbacq hB 16 12),
    (0x52C70004, 0, 0, .cbrel hA 7)] = true := by decide +kernel

theorem test_decode_major17 : reads [
    (0xFAFE5580, 0, 0, .fmst hB 30 10 22),
    (0x52E58F51, 0, 0, .rqpost hA 5 17 29 false true),
    (0xFAECC122, 0, 0, .lpost hB 12 24 4 true false)] = true := by decide +kernel

theorem test_decode_major18 : reads [
    (0x53007EE5, 0x03AD4197, 0, .cpy hA 15 27 true 1 1 3 11354519),
    (0xFB01B085, 0x0C8199D2, 0, .cpy2 hB 22 2 1 1 12806 6610),
    (0x5302EA45, 0x020D99D9, 0, .cpyg hA 29 9 1 1 525 39385)] = true := by decide +kernel

theorem test_decode_major19 : reads [
    (0xFB202404, 0x00199E04, 0, .oqld hB 4 16 false 1 1 39392 4)] = true := by decide +kernel

theorem test_decode_major1A : reads [
    (0x53405DC4, 0x006AAAA4, 0, .tsld hA 11 23 1 3 341 676),
    (0xFB419781, 0x004AAAA4, 0, .tsst hB 18 30 false 1 2 341 676)] = true := by decide +kernel

theorem test_decode_major1B : reads [
    (0x5360C800, 0x00290061, 0, .cbinit hA 25 false 1 6 41)] = true := by decide +kernel

theorem test_decode_major20 : reads [
    (0xFC002821, 0x00002C01, 0, .vshape hB 5 0 true false false true 11 0 1),
    (0x54013CE0, 0x00000303, 0, .vld hA 7 19 true false 0 3 0 3),
    (0xFC027681, 0x000002E0, 0, .vst hB 14 26 false 1 14 2),
    (0x5403A800, 0x0000000D, 0, .vbcastX hA 21 false 13),
    (0xFC030001, 0x0004008C, 0, .vbcastRow hB 12 8 4),
    (0x54030002, 0x003B00F3, 0, .vbcastCol hA 3 15 59),
    (0xFC040000, 0x0000E26A, 0, .vsel hB 10 6 2 14)] = true := by decide +kernel

theorem test_decode_major21 : reads [
    (0x54200441, 0x000000D1, 0, .vadd hA 17 false true false 1 13 0),
    (0xFC210002, 0x00000148, 0, .vsub hB 0 false false true 8 4 1),
    (0x542207C1, 0x000000BF, 0, .vmul hA 31 false true false 15 11 0),
    (0xFC230002, 0x0000AE26, 0, .vfma hB 0 false false true 6 2 14 10),
    (0x54240341, 0x0000009D, 0, .vmax hA 13 false true false 13 9 0),
    (0xFC250002, 0x00000C14, 0, .vmin hB 0 false false true 4 1 12),
    (0x54260002, 0x00000037, 0, .vabs hA true 7 3),
    (0xFC270000, 0x000000AE, 0, .vneg hB false 14 10),
    (0x54280241, 0x00050059, 0, .vcmp hA 9 false true false 9 5 0 5)] = true := by decide +kernel

theorem test_decode_major22 : reads [
    (0xFC400000, 0x00000C14, 0, .vand hB 0 false false 4 1 12),
    (0x544105C1, 0x0000007B, 0, .vor hA 23 false true 11 7 0),
    (0xFC420000, 0x00000AE2, 0, .vxor hB 0 false false 2 14 10),
    (0x54430141, 0x00000059, 0, .vshl hA 5 false true 9 5 0),
    (0xFC440000, 0x000008C1, 0, .vshr hB 0 false false 1 12 8),
    (0x54450000, 0x000000F3, 0, .vpopc hA 3 15)] = true := by decide +kernel

theorem test_decode_major23 : reads [
    (0xFC60D020, 0x003B00E2, 0, .vcvt hB 26 true 2 14 11 3),
    (0x54610001, 0x00040059, 0, .vred hA true false 9 5 4)] = true := by decide +kernel

theorem test_decode_major24 : reads [
    (0xFC800000, 0x000B0048, 0, .vgelu hB 8 4 11),
    (0x54810000, 0x000B00BF, 0, .vsilu hA 15 11 11),
    (0xFC820000, 0x000B0026, 0, .vsplus hB 6 2 11),
    (0x54830000, 0x000B009D, 0, .vtanh hA 13 9 11),
    (0xFC840000, 0x000B0014, 0, .vsigm hB 4 1 11)] = true := by decide +kernel

theorem test_decode_major25 : reads [
    (0x54A00000, 0x000B007B, 0, .vexp hA 11 7 11),
    (0xFCA10000, 0x000B00E2, 0, .vrcp hB 2 14 11),
    (0x54A20000, 0x000B0059, 0, .vrsqrt hA 9 5 11)] = true := by decide +kernel

theorem test_decode_major26 : reads [
    (0xFCC00821, 0x00000001, 0, .vtblld hB 1 true 1 1),
    (0x54C10000, 0x003B0037, 0, .vtbl hA 7 3 11 3)] = true := by decide +kernel

theorem test_decode_major27 : reads [
    (0xFCE00000, 0x000000AE, 0, .vtolog hB 14 10),
    (0x54E10000, 0x000B0015, 0, .vfrlog hA 5 1 11),
    (0xFCE20000, 0x000008C1, 0, .vladd hB 0 false 0 1 12 8),
    (0x54E300C1, 0x00000037, 0, .vlsub hA 3 false 1 7 3 0),
    (0xFCE40000, 0x0002006A, 0, .vlshr hB 10 6 2),
    (0x54E50440, 0x00000059, 0, .vlmul hA 17 false 9 5)] = true := by decide +kernel

theorem test_decode_major28 : reads [
    (0xFD000000, 0x000C0148, 0, .vhamm hB 8 4 1 12),
    (0x55010001, 0x001BF37B, 0, .vtopk hA true 11 7 3 15 27),
    (0xFD023491, 0x000000E2, 0, .vfilt hB 6 18 false true 1 2 14)] = true := by decide +kernel

theorem test_decode_major29 : reads [
    (0x55206E41, 0x00000001, 0, .vsect hA 13 25 1 1),
    (0xFD210000, 0x0000C014, 0, .vuniq hB 4 1 12),
    (0x55220000, 0x02DF307B, 0, .vbkt hA 11 7 3 31 11)] = true := by decide +kernel

theorem test_decode_major30 : reads [
    (0xFE001395, 0x00000000, 0, .mcfgLevel hB 2 14 false true 5),
    (0x56004806, 0x00000000, 0, .mcfgNest hA 9 false),
    (0xFE018021, 0x00000004, 0, .mshp hB 16 true 1 4),
    (0x5602B800, 0x000000DF, 0, .mshf hA 23 false 15 13)] = true := by decide +kernel

theorem test_decode_major31 : reads [
    (0xFE200000, 0x00000000, 0, .mgo hB),
    (0x56210000, 0x056B5465, 0, .mrst hA 90920037),
    (0xFE210001, 0x00000000, 0, .mrstNone hB)] = true := by decide +kernel

theorem test_decode_major32 : reads [
    (0x56400000, 0x00000001, 0, .maccClr hA 1),
    (0xFE400001, 0x0000048D, 0, .maccSave hB 1 70 1),
    (0x56400002, 0x0000049B, 0, .maccLoad hA 1 77 1),
    (0xFE414511, 0x00000000, 0, .mepi hB 8 20 false true 1)] = true := by decide +kernel

theorem test_decode_major33 : reads [
    (0x56607800, 0x00000B37, 0, .mlqSend hA 15 false 7 3 11),
    (0xFE60B021, 0x00000BAE, 0, .mlqRecv hB 22 true 14 10 11),
    (0x56600002, 0x0000000D, 0, .mlqUnbind hA 13)] = true := by decide +kernel

theorem test_decode_major38 : reads [
    (0x0F002405, 0x0002D36C, 0, .gpoolAuto hs 4 16 1 1 11 true 876),
    (0x07015DC5, 0x0002C373, 0, .gpoolDie h0 11 23 1 1 11 false 883),
    (0x0F029785, 0x0002D37A, 0, .gpoolFar hs 18 30 1 1 11 true 890),
    (0x0703C945, 0x0002CBB5, 0, .gdeq h0 25 5 1 1 11 2997),
    (0x0F040B05, 0x003E1854, 0, .gscan hs 1 12 1 1 496 true 8 84),
    (0x07053CC5, 0x0002CBC3, 0, .grank h0 7 19 1 1 11 3011),
    (0x0F067680, 0x0000A466, 0, .hrpin hs 14 26 42086),
    (0x0707A840, 0x0000A46D, 0, .hrfree h0 21 1 42093)] = true := by decide +kernel

theorem test_decode_major39 : reads [
    (0x0F20E205, 0x0002E3A4, 0, .dupd hs 28 8 1 1 11 2 932),
    (0x07211BC5, 0x0002E3AB, 0, .dord h0 3 15 1 1 11 2 939)] = true := by decide +kernel

theorem test_decode_major3A : reads [
    (0x0F405584, 0x003463B2, 0, .xall hs 10 22 false 1 26 6 946),
    (0x07418F60, 0x003D086E, 0, .wload h0 17 29 true false 62497 11 2),
    (0x0F42C114, 0x0000B04C, 0, .wtbl hs 24 4 false true 1 11 1 12)] = true := by decide +kernel

theorem test_decode_major3B : reads [
    (0x5773FAC0, 0, 0, .fork hA 19 31 11),
    (0xFF600001, 0, 0, .choose hB),
    (0x57600002, 0, 0, .abandon hA),
    (0xFF680003, 0, 0, .wid hB 8)] = true := by decide +kernel

/-! ## One step on a small state -/

/-- The register writes in flight on partition 0 after an instruction: register and value (an exposed or a bound one). -/
def flown (o : Host.Outcome State Fault Refusal) : List (Nat × W64) :=
  match o with
  | .next t => (part t 0).flights.filterMap fun f => match f.val with | .exposed _ v | .ready v => some (f.reg, v) | _ => none
  | _ => []

/-- A fact about the next state. -/
def after (o : Host.Outcome State Fault Refusal) (f : State → Bool) : Bool := match o with | .next t => f t | _ => false

/-- R50: addition is modulo 2^64, and the same register may be both operands of one word, popped once for each. -/
theorem test_add_wraps : flown (exec (.add h0 3 1 1 false false) (wr [(1, [0xFFFFFFFFFFFFFFFF, 2])])) = [(3, 1)] := by decide +kernel

/-- R51: a divisor of zero gives all ones and the dividend. -/
theorem test_divide_by_zero : flown (exec (.div h0 3 1 2 false false) (wr [(1, [7]), (2, [0])])) = [(3, 0xFFFFFFFFFFFFFFFF)] ∧
    flown (exec (.rem h0 3 1 2 false false) (wr [(1, [7]), (2, [0])])) = [(3, 7)] := by decide +kernel

/-- R51: the most negative number by −1 gives itself, remainder 0. -/
theorem test_divide_least : flown (exec (.div h0 3 1 2 false false) (wr [(1, [0x8000000000000000]), (2, [0xFFFFFFFFFFFFFFFF])])) = [(3, 0x8000000000000000)] ∧
    flown (exec (.rem h0 3 1 2 false false) (wr [(1, [0x8000000000000000]), (2, [0xFFFFFFFFFFFFFFFF])])) = [(3, 0)] := by decide +kernel

/-- R50: arithmetic right shift by a register, and the signed and unsigned orders. -/
theorem test_shift_and_order : flown (exec (.sra h0 3 1 2 false false) (wr [(1, [0x8000000000000000]), (2, [4])])) = [(3, 0xF800000000000000)] ∧
    flown (exec (.slt h0 3 1 2 false false) (wr [(1, [0xFFFFFFFFFFFFFFFF]), (2, [0])])) = [(3, 1)] ∧
    flown (exec (.sltu h0 3 1 2 false false) (wr [(1, [0xFFFFFFFFFFFFFFFF]), (2, [0])])) = [(3, 0)] := by decide +kernel

/-- R42: a peek leaves the head, a pop takes it; R40: what is written to x0 is discarded. -/
theorem test_peek_and_pop : after (exec (.addi h0 0 1 true 1) (wr [(1, [7])])) (fun t => (part t 0).regs == [(1, [7])] && (part t 0).flights == []) = true ∧
    after (exec (.addi h0 0 1 false 1) (wr [(1, [7])])) (fun t => (part t 0).regs == [(1, [])] && (part t 0).flights == []) = true := by decide +kernel

/-- R43: a read of an empty queue takes QUEUE_UNDERFLOW (code 0x02) and pops nothing. -/
theorem test_underflow : after (exec (.add h0 3 1 2 false false) (wr [(1, [7])])) (fun t => (part t 0).regs == [(1, [7])] && (part t 0).flights == [] && (part t 0).tcause == 0x02 && (part t 0).tpc == w64 wordVa && (part t 0).priv == 1) = true := by
  decide +kernel

/-- R30, R52: `lih` joins its three fields. -/
theorem test_lih : flown (exec (.lih h0 9 0x0123 0x456789A 0xBCDEF) (wr [])) = [(9, 0x0123456789ABCDEF)] := by decide +kernel

/-- R53: the offset of a taken branch counts words from the branch; not taken goes to the next word. -/
theorem test_branches : after (exec (.bne h0 1 2 0xFB) (wr [(1, [7]), (2, [3])])) (fun t => (part t 0).pc == w64 (wordVa - 20)) = true ∧
    after (exec (.bne h0 1 2 0xFB) (wr [(1, [7]), (2, [7])])) (fun t => (part t 0).pc == w64 (wordVa + 4)) = true := by decide +kernel

/-- R48: `cr.carry0` reads what it holds; a user's read of a supervisor register is turned away with ACCESS. -/
theorem test_control_registers : flown (exec (.crr h0 5 0x008) (wit fun x => { x with carry := [(0, 0x55)] })) = [(5, 0x55)] ∧
    after (exec (.crr h0 5 0x030) (wr [])) (fun t => (part t 0).tcause == 0x06 && (part t 0).flights == []) = true := by decide +kernel

/-- R83: a fence with nothing before it goes on. -/
theorem test_fence : after (exec (.fence h0 2) (wr [])) (fun t => (part t 0).pc == w64 (wordVa + 4)) = true := by decide +kernel

/-- R47, R371: from reset, with a word placed, the very next step runs it (`li x10, 1`). -/
theorem test_step_runs_the_word : flown (step (State.reset.withFetchWord 32 0x012A0001)) = [(10, 1)] := by decide +kernel

/-- R33: the all-zero word enters the trap ILLEGAL. -/
theorem test_step_takes_illegal : after (step (State.reset.withFetchWord 32 0)) (fun t => (part t 0).tcause == 0x01 && (part t 0).tpc == w64 wordVa && (part t 0).priv == 1) = true := by decide +kernel

/-- R383: a device in reset lets time pass. -/
theorem test_step_from_reset : nextIs (step State.reset) { State.reset with time := 1 } = true := by decide +kernel


/-! ## Hypotheses that can be met: the work of the engines -/

/-- A run of `i` of partition 0 in the root world. -/
def runOf (i : Instr) (vals : List W64) (step : Nat) : Run :=
  { cmd := plainCmd i vals, count := 0, state := .waiting, tookLeave := false, lost := false, added := false, step := step, rows := [] }

/-- Partition 0 with a shape of three rows of eight lanes of type `ty`, four bytes of scratchpad, and one row in operand queue 2. -/
def engine (ty : Nat) : State :=
  modCore (wit fun x => { x with shapeRows := 3, shapeCols := 8, shapeType := ty, leave := 3, operandQueues := [(2, [List.replicate 256 7])] }) 0 fun c => { c with scratch := [(16, 1), (17, 2)] }

theorem witness_EngineWork : (runOf (.mgo h0) [] 0).cmd.ctx.view = 0 ∧ (runOf (.mgo h0) [] 0).formats = [] ∧ (runOf (.mgo h0) [] 0).cmd.instr = .mgo h0 ∧ (runOf (.mgo h0) [] 0).cmd.ctx.part = 0 := by decide

theorem witness_EngineWorkOfCopiesAndVectors_copies : inBank 64 128 = true ∧ inBank 64 1 = true ∧ (core (engine 0) 0).scratch.Pairwise (fun a b => a.1 < b.1) ∧ rowsIn 4096 64 4 20 = true ∧
    strays dat.toNat 16 true = false ∧ slicesTested (engine 0) = [] ∧ (fgetD (part (engine 0) 0).operandQueues 2 []).length < 8 ∧ (∃ u bs, readVa (engine 0) (plainCmd (.mgo h0) []).ctx dat.toNat 16 0 = (u, .ok bs)) ∧
    leNat (ringRead (core (engine 0) 0).scratch (2 ^ 21) 16 4) ≠ 0xFFFFFFFF ∧
    8 ≤ (fgetD (part (wit fun x => { x with operandQueues := [(2, List.replicate 8 [])] }) 0).operandQueues 2 []).length :=
  ⟨by decide, by decide, by decide +kernel, by decide, by decide, by decide +kernel, by decide +kernel, ok_of _ (by decide +kernel), by decide +kernel, by decide +kernel⟩

theorem witness_EngineWorkOfCopiesAndVectors_vectors : (part (engine 3) 0).shapeRows = 3 ∧ tyWidth 3 ≠ 4 ∧ rowsCheck (part (engine 3) 0) 1 16 64 = true ∧ fgetD (part (engine 3) 0).operandQueues 2 [] = List.replicate 256 7 :: [] ∧
    0 + 1 < (part (engine 3) 0).shapeRows ∧ isFloat 3 = true ∧ isInt 7 = true ∧ isFloat 0 = true ∧ inBank 16 1028 = true ∧ inBank 16 (ceilDiv 100 8) = true ∧ (part (engine 3) 0).shapeCols % 8 = 0 ∧
    (∀ k ∈ (unpackBits 32 257 (leNat (ringRead (core (engine 3) 0).scratch (2 ^ 21) 64 1028))).map (fun k => sxInt k 32), -2 ^ 23 ≤ k ∧ k ≤ 2 ^ 23 - 1) ∧
    (∃ k ∈ (unpackBits 32 257 (2 ^ 31 - 1)).map (fun k => sxInt k 32), k < -2 ^ 23 ∨ 2 ^ 23 - 1 < k) := by decide +kernel

/-- A lane pair for each case of a float maximum, minimum or comparison: a NaN, either order, two zeros, equal values. -/
theorem witness_EngineWorkOfCopiesAndVectors_float : decodeF 0 0x7FC00000 = .nan ∧ ltV (decodeF 0 0xBF800000) (decodeF 0 0x3F800000) = true ∧ decodeF 0 0x80000000 = .fin true 0 (-149) ∧ decodeF 0 0 = .fin false 0 (-149) ∧
    eqV (decodeF 0 0x7F800000) (decodeF 0 0x7F800000) = true ∧ (∀ n d, decodeF 0 0x7F800000 ≠ .fin n 0 d) ∧ ((4 : BitVec 3), fun p q => ltV q p).1 = 4 :=
  ⟨by decide, by decide, by decide, by decide, by decide, by intro n d; rw [show decodeF 0 0x7F800000 = .inf false by decide]; simp, rfl⟩

theorem witness_EngineWorkOfCopiesAndVectors_vsect : let r : Run := { runOf (.vsect h0 1 2 0 4) [dat, 4, dat, dat, 4, 0] 0 with marks := [0, 0, 0, 9, 9] }
    r.marks = [0, 0, 0, 8 + 1, 8 + 1] ∧ (match (engWrite r.cmd.ctx dat.toNat (leBytes 4 8) 0 4 r.cmd.id).go (engine 0) with | (.ok _, _) => true | _ => false) = true := by decide +kernel

/-- A partition about to start a nest of one step whose operands come from two link queues. -/
def nesting : State :=
  modCore (modPart (engine 0) 0 fun x => { x with nestWord := 0x3010500, epiDest := 3 }) 0 fun c => { c with links := [(0, { bound := true, ty := 5, peerDev := 1 }), (1, { bound := true, ty := 5, peerDev := 1 })] }

theorem witness_EngineWorkOfMatrixAndTables_mshp : inBank 0x1FFE0 64 = false ∧ inBank 64 64 = true ∧ strays dat.toNat 64 true = false ∧ strays away.toNat 64 true = false ∧ slicesTested (engine 0) = [] ∧
    (∃ u bs, readVa (engine 0) (plainCmd (.mgo h0) []).ctx dat.toNat 64 0 = (u, .ok bs)) ∧ (∃ u k e, readVa (engine 0) (plainCmd (.mgo h0) []).ctx away.toNat 64 0 = (u, .error (.fault k e))) :=
  ⟨by decide, by decide, by decide, by decide, by decide +kernel, ok_of _ (by decide +kernel), _, 0, away.toNat, fault_of _ (by decide +kernel)⟩

theorem witness_EngineWorkOfMatrixAndTables_mgo : let n := latchNest nesting (runOf (.mgo h0) [] 0)
    nestShapesOk nesting 0 n = true ∧ totalSteps n = 1 ∧ banksOk n = true ∧ operandKind nesting 0 n false = some (5, true, false) ∧ nbit (part nesting 0).leave 0 = true ∧ nbit (part base 0).leave 0 = false := by decide +kernel

theorem witness_EngineWorkOfMatrixAndTables_matrix : let r := runOf (.mgo h0) [] 0
    nestShapesOk (engine 0) 0 (latchNest (engine 0) r) = false ∧ (core (engine 0) 0).epi = none ∧ (369 : BitVec 9).toNat + 127 ≤ 511 ∧ (core (engine 0) 0).tile.Pairwise (fun a b => a.1 < b.1) ∧
    (let s := modCore (engine 0) 0 fun c => { c with epi := some { acc := 1, tile := 0, nest := nest2, seen := none } }
     (core s 0).epi = some { acc := 1, tile := 0, nest := nest2, seen := none }) := by decide +kernel

theorem witness_EngineWorkOfMatrixAndTables_tables : let w : W64 := 0x0000001000000007
    (tableOf w.toNat).rows = 16 ∧ nbit (part (engine 0) 0).leave 1 = true ∧ nbit (part base 0).leave 1 = false ∧ 2 + 1 ≤ (tableOf w.toNat).rows ∧ (tableOf w.toNat).rs ≤ 512 ∧ (tableOf w.toNat).rows < 15 + 2 ∧
    (match (bagRows (plainCmd (.mgo h0) []).ctx 1 64 dat (tableOf w.toNat) 0 0).go (engine 0) with | (.ok l, _) => l == [] | _ => false) = true ∧
    (match (readCounted (plainCmd (.mgo h0) []) false dat (tableOf w.toNat) 3).go (engine 0) with | (.ok _, _) => true | _ => false) = true ∧
    (match (masterPlace (baseCtx (plainCmd (.mgo h0) []).ctx) (rowAt dat (tableOf w.toNat) 3)).go (engine 0) with | (.ok _, _) => true | _ => false) = true ∧
    (match (scanItems (plainCmd (.mgo h0) []).ctx dat 0 0).go (engine 0) with | (.ok l, _) => l == [] | _ => false) = true ∧
    (match (readRow (plainCmd (.mgo h0) []).ctx false dat (tableOf w.toNat) 3).go (engine 0) with | (.ok _, _) => true | _ => false) = true ∧
    (match (weightSectors (plainCmd (.mgo h0) []).ctx dat.toNat 1).go (engine 0) with | (.ok _, _) => true | _ => false) = true ∧
    (match (routes (plainCmd (.mgo h0) []).ctx dat 1).go (engine 0) with | (.ok _, _) => true | _ => false) = true ∧
    (core (engine 0) 0).weights = [] ∧ (core (engine 0) 0).epiAdds = [] ∧ mgetN (engine 0) 0 (regNext 0 5) % 2 ^ 32 = 0 := by decide +kernel

theorem witness_EngineWorkOfMatrixAndTables_lists : [3, 5].length ≤ [[1], [2]].length ∧ (∃ y ∈ [((1 : Nat), (7 : Nat), (9 : Nat))], y.1 = 1) := by decide
end Sys2Proof.Machine.Tests
end

section
/-! PROOFS. The two statements about memory fail in states that no premise of theirs rules out: a view's overlay line may stand at a place that
is no multiple of 32, and the monitor of a record may fire while a partition picks that record up. -/

namespace Sys2Proof.Machine.Proofs

open Sys2Proof.Machine.Safety

/-- A held translation of the 256 KiB at offset 0x100000 of quarter 0, for reads and writes of every world: the page lies at 0x10000000 of
the quarter's HBM (R283, R284). -/
def heldPage : TlbEntry := { quarter := 0, asid := 0, page := 4, size := 0, pte := 2 ^ 49 + 0x10000000 + 1, place := 0 }

/-- The address of the first byte of the page of `heldPage`. -/
def pageVa : Nat := 0xFFFF * 2 ^ 48 + 0x100000

/-! ## An overlay line at an odd place -/

/-- A store of 8 bytes to the start of the page, which waits in the store queue of a stream that reads and writes through view 1 (R73). -/
def waitingStore : StoreWait :=
  { ctx := { part := 0, agent := .control, asid := 0, view := 1, job := 0 }, seq := 1, gate := 0, rel := 0,
    item := .write pageVa (.bytes (leBytes 8 5)) 0 1 none }

/-- View 1 holds a line of its own for `pageVa`, but at a place 31 bytes into a sector, where no pool of R341 puts a line; the next step tries
`waitingStore`. -/
def oddLine : State :=
  { State.reset with
    agenda := [.event (.loadValueReturn 0 1)]
    tags := { large := [heldPage] }
    views := [(1, { parent := 0, depth := 1, rival := 0, quota := 128, lines := [(lineOf 0 0x100000, { pa := 0x1000001F, mask := 0 })] })]
    parts := [(0, { stores := [waitingStore] })] }

theorem oddLine_sound : MemorySound oddLine := ⟨rfl, by decide⟩

/-- Whether an outcome is a next state some cached sector of which does not hold 32 bytes. -/
def breaksSector (o : Host.Outcome State Fault Refusal) : Bool :=
  match o with
  | .next t => t.die.any fun e => e.2.bytes.length != 32
  | _ => false

theorem exists_of_breaksSector {o : Host.Outcome State Fault Refusal} (h : breaksSector o = true) :
    ∃ t, o = .next t ∧ ∃ e ∈ t.die, e.2.bytes.length ≠ 32 := by
  cases o with
  | next t =>
    obtain ⟨e, he, hlen⟩ := List.any_eq_true.mp h
    exact ⟨t, rfl, e, he, by simpa using hlen⟩
  | fault r => exact absurd h (by simp [breaksSector])
  | refused r => exact absurd h (by simp [breaksSector])

/-- The store writes 8 bytes from byte 31 of a sector on, and the caches then hold a sector of 39 bytes. -/
theorem step_oddLine : breaksSector (step oddLine) = true := by decide +kernel

/-- Refutes O53: sound memory does not say that overlay lines stand at whole sectors. A store through a view whose line lies 31 bytes into a
sector leaves 39 bytes in that sector. -/
theorem not_memoryStaysSound : ¬ Obligations.MemoryStaysSound := by
  unfold Obligations.MemoryStaysSound
  intro h
  obtain ⟨t, ht, e, he, hlen⟩ := exists_of_breaksSector step_oddLine
  obtain ⟨_, hwhole⟩ := h oddLine t oddLine_sound ht
  exact hlen (hwhole e he)

/-! ## A monitor of a record that is being picked up -/

/-- A job that the runtime has ended (R228). -/
def endedJob : Job :=
  { addr := 0, queue := 0, card := 0, reply := 0, tag := 0, src := 0, prio := 0, asid := 0, service := false, phase := .dispatched,
    handed := 1, live := 1, status := 6, seen := 0, replay := false, logPos := 0, returned := [] }

/-- Its one record, suspended until its monitor fires (R213). -/
def monitoringRecord : Suspended :=
  { addr := 64, tag := 0, ordinal := 0, job := 0, asid := 0, view := 0, base := 0, wake := .monitor, rival := false, part := 1 }

/-- The record's monitor stands on the line of `pageVa`, while partition 1 picks the record up. -/
def pickedRecord : State :=
  { State.reset with
    tags := { large := [heldPage] }
    monitors := [{ id := 1, line := 0x10000000 / 128, owner := .record 64 }]
    quarters := [(0, { jobs := [endedJob], suspended := [monitoringRecord] })]
    parts := [(1, { picking := some (64, 0) })] }

/-- The root world. -/
def rootCtx : Ctx := { part := 0, agent := .control, asid := 0, view := 0, job := 0 }

/-- A write of one byte to the line that the monitor watches. -/
def watchedWrite : State × Except MemErr Unit := writeVa pickedRecord rootCtx pageVa [5] 0

theorem watchedWrite_ok : watchedWrite = (watchedWrite.1, .ok ()) := by
  have h : watchedWrite.2.isOk = true := by decide +kernel
  generalize watchedWrite = x at h
  obtain ⟨u, e | ⟨⟩⟩ := x
  · exact absurd h (by simp [Except.isOk, Except.toBool])
  · rfl

/-- The monitor fires, the record of an ended job ends with it (R228), and the partition holds no more for it (R392). -/
theorem watchedWrite_picking : (part watchedWrite.1 1).picking = none := by decide +kernel

/-- Refutes O58 in its last clause: the write fires the monitor of a record whose job has ended, and the end of the record takes away the mark
of the partition that was picking it up, so that more than a monitor changes in that partition. -/
theorem not_storesChangeOnlyTheirBytes : ¬ Obligations.StoresChangeOnlyTheirBytes := by
  unfold Obligations.StoresChangeOnlyTheirBytes
  intro h
  obtain ⟨_, _, _, _, _, _, hparts⟩ := h pickedRecord watchedWrite.1 rootCtx pageVa 0 0 0x100000 heldPage.pte heldPage.place [5]
    ⟨rfl, by decide⟩ .nil (by decide) rfl (by decide) (by decide) (by decide +kernel) (by decide +kernel) (by decide +kernel) rfl watchedWrite_ok
  have hkept : (part watchedWrite.1 1).picking = some (64, 0) := congrArg Part.picking (hparts 1)
  rw [watchedWrite_picking] at hkept
  exact absurd hkept (by decide)

end Sys2Proof.Machine.Proofs
end

section
/-! PROOFS. Encoding and decoding (R11, R24, R29 to R33). A word is a sum of fields at their place values over a header and fixed bits;
`read` computes from the widths and places alone what a field of such a word reads as, and `word_div_mod` proves it right for every
value of the fields. Each row of the tables is then evaluated on the places of its fields, not on their values. -/

namespace Sys2Proof.Laws.Words

/-! ## Words as sums of fields -/

/-- The value of a field of a word, with the bound that its type gives. -/
structure Slot where
  val : Nat
  size : Nat
  lt : val < size

namespace Slot

def fin {n : Nat} (x : Fin n) : Slot := ⟨x.val, n, x.isLt⟩

def bits {n : Nat} (x : BitVec n) : Slot := ⟨x.toNat, 2 ^ n, x.isLt⟩

def flag (b : Bool) : Slot := ⟨b.toNat, 2, b.toNat_lt⟩

/-- The field where it stands in a word, its lowest bit at the place value `c`. -/
def put (f : Slot) (c : Nat) : Nat := f.val * c

/-- An operand in an encoding is a field with its place value. -/
theorem put_rules : (∀ {n : Nat} (x : Fin n), x.val = (fin x).put 1) ∧ (∀ {n : Nat} (x : BitVec n), x.toNat = (bits x).put 1) ∧
    (∀ b : Bool, b.toNat = (flag b).put 1) ∧ ∀ (f : Slot) (c d : Nat), f.put c * d = f.put (c * d) :=
  ⟨fun _ => (Nat.mul_one _).symm, fun _ => (Nat.mul_one _).symm, fun _ => (Nat.mul_one _).symm, fun _ _ _ => Nat.mul_assoc ..⟩

theorem size_rules : (∀ {n : Nat} (x : Fin n), (fin x).size = n) ∧ (∀ {n : Nat} (x : BitVec n), (bits x).size = 2 ^ n) ∧
    ∀ b : Bool, (flag b).size = 2 := by simp [fin, bits, flag]

theorem flag_beq_one (b : Bool) : ((flag b).val == 1) = b := by cases b <;> rfl

theorem fin_val_ne {n : Nat} (x : Fin n) : (fin x).val ≠ n := x.isLt.ne

/-- A field's value is the operand again. -/
theorem val_rules : (∀ {n : Nat} [NeZero n] (x : Fin n), Fin.ofNat n (fin x).val = x) ∧
    (∀ {n : Nat} (x : BitVec n), BitVec.ofNat n (bits x).val = x) ∧ ∀ b : Bool, ((flag b).val == 1) = b :=
  ⟨Fin.ofNat_val_eq_self, fun x => by simp [bits], flag_beq_one⟩

theorem put_le (f : Slot) (c : Nat) : f.put c ≤ (f.size - 1) * c := Nat.mul_le_mul_right c (Nat.le_sub_one_of_lt f.lt)

theorem put_mod_of_dvd {f : Slot} {c m : Nat} (hc : c % m = 0) : f.put c % m = 0 := by
  rw [put, Nat.mul_mod, hc, Nat.mul_zero, Nat.zero_mod]

end Slot

/-- What a word holds beside its fields: a first word its header and its fixed bits `k`, an extension word nothing. -/
inductive Base where
  | first (h : Hdr) (k : Nat)
  | ext

def Base.val : Base → Nat
  | .first h k => encHdr h + k
  | .ext => 0

/-- A word: its base and its fields with their place values, the one added last at the head. -/
def word (b : Base) : List (Slot × Nat) → Nat
  | [] => b.val
  | (f, c) :: fs => word b fs + f.put c

/-- A sum of fields is a word. -/
theorem word_rules : (∀ (h : Hdr) (k : Nat), encHdr h + k = word (.first h k) []) ∧
    (∀ (b : Base) (fs : List (Slot × Nat)) (f : Slot) (c : Nat), word b fs + f.put c = word b ((f, c) :: fs)) ∧
    (∀ (f g : Slot) (c d : Nat), f.put c + g.put d = word .ext [(g, d), (f, c)]) ∧
    ∀ (f : Slot) (c lo n : Nat), fld (f.put c) lo n = fld (word .ext [(f, c)]) lo n := by simp [word, Base.val]

/-- Whether below the place `p` of the word there is room for `r` more, whatever its fields hold. -/
def room (b : Base) (p : Nat) : List (Slot × Nat) → Nat → Bool
  | [], r => match b with
    | .first _ k => decide (134217728 % p = 0) && decide (k % p + r < p)
    | .ext => decide (r < p)
  | (f, c) :: fs, r => if c % p = 0 then room b p fs r else room b p fs (r + (f.size - 1) * c)

theorem room_rules (p r : Nat) :
    (∀ (h : Hdr) (k : Nat), room (.first h k) p [] r = (decide (134217728 % p = 0) && decide (k % p + r < p))) ∧
        room .ext p [] r = decide (r < p) ∧
    ∀ (b : Base) (c : Nat) (f : Slot) (fs : List (Slot × Nat)),
      room b p ((f, c) :: fs) r = if c % p = 0 then room b p fs r else room b p fs (r + (f.size - 1) * c) := by simp [room]

/-- What the field of `m` values at the place `p` of the word reads as, where each field of the word stands clear of it or is just it. -/
def read (b : Base) (p m : Nat) : List (Slot × Nat) → Option Nat
  | [] => match b with
    | .first _ k => if 134217728 % (p * m) = 0 then some (k / p % m) else none
    | .ext => some 0
  | (f, c) :: fs =>
    if c % (p * m) = 0 then read b p m fs
    else if c = p then (if f.size ≤ m ∧ read b p m fs = some 0 then some f.val else none)
    else if room b p fs ((f.size - 1) * c) then read b p m fs
    else none

theorem read_rules (p m : Nat) :
    (∀ (h : Hdr) (k : Nat), read (.first h k) p m [] = if 134217728 % (p * m) = 0 then some (k / p % m) else none) ∧ read .ext p m [] = some 0 ∧
    ∀ (b : Base) (c : Nat) (f : Slot) (fs : List (Slot × Nat)), read b p m ((f, c) :: fs) =
      if c % (p * m) = 0 then read b p m fs
      else if c = p then (if f.size ≤ m ∧ read b p m fs = some 0 then some f.val else none)
      else if room b p fs ((f.size - 1) * c) then read b p m fs
      else none := by simp [read]

/-- The header stands in bits [31:27] (R11). -/
theorem encHdr_mod (h : Hdr) {m : Nat} (hm : 134217728 % m = 0) : encHdr h % m = 0 := by
  have : encHdr h = 134217728 * (encHdr h / 134217728) := by simp only [encHdr]; omega
  rw [this, Nat.mul_mod, hm, Nat.zero_mul, Nat.zero_mod]

theorem mod_add_lt_of_room {b : Base} {p : Nat} : ∀ {fs : List (Slot × Nat)} {r : Nat}, room b p fs r = true → word b fs % p + r < p
  | [], r, h => by
    cases b with
    | first h k =>
      simp only [room, Bool.and_eq_true, decide_eq_true_eq] at h
      simpa only [word, Base.val, Nat.add_mod _ k, encHdr_mod _ h.1, Nat.zero_add, Nat.mod_mod] using h.2
    | ext => simpa [room, word, Base.val] using h
  | (f, c) :: fs, r, h => by
    simp only [room] at h
    split at h
    next hc => simpa only [word, Nat.add_mod _ (f.put c), Slot.put_mod_of_dvd hc, Nat.add_zero, Nat.mod_mod] using mod_add_lt_of_room h
    next =>
      have hr := mod_add_lt_of_room h
      have hle := f.put_le c
      have hm : (word b fs + f.put c) % p ≤ word b fs % p + f.put c := by rw [← Nat.mod_add_mod]; exact Nat.mod_le _ _
      simp only [word]; omega

theorem div_add_of_lt {w p x : Nat} (h : w % p + x < p) : (w + x) / p = w / p := by
  have e : w + x = (w % p + x) + w / p * p := by have := Nat.div_add_mod' w p; omega
  rw [e, Nat.add_mul_div_right _ _ (by omega), Nat.div_eq_of_lt h, Nat.zero_add]

/-- A field for which there is room below a place does not reach it. -/
theorem div_add_put {b : Base} {p c : Nat} {f : Slot} {fs : List (Slot × Nat)} (h : room b p fs ((f.size - 1) * c) = true) :
    (word b fs + f.put c) / p = word b fs / p :=
  div_add_of_lt (by have := mod_add_lt_of_room h; have := f.put_le c; omega)

/-- A field is read back where the fields of the word stand clear of each other. -/
theorem word_div_mod {b : Base} {p m : Nat} (hp : 0 < p) :
    ∀ {fs : List (Slot × Nat)} {v : Nat}, read b p m fs = some v → word b fs / p % m = v
  | [], v, h => by
    cases b with
    | first h k =>
      simp only [read, Option.ite_none_right_eq_some, Option.some.injEq] at h
      obtain ⟨hl, rfl⟩ := h
      rw [← Nat.mod_mul_right_div_self, word, Base.val, Nat.add_mod, encHdr_mod _ hl, Nat.zero_add, Nat.mod_mod, Nat.mod_mul_right_div_self]
    | ext => simpa [read, word, Base.val] using h
  | (f, c) :: fs, v, h => by
    simp only [read] at h
    split at h
    next hc =>
      rw [← Nat.mod_mul_right_div_self, word, Nat.add_mod, Slot.put_mod_of_dvd hc, Nat.add_zero, Nat.mod_mod, Nat.mod_mul_right_div_self,
        word_div_mod hp h]
    split at h
    next hc =>
      simp only [Option.ite_none_right_eq_some, Option.some.injEq] at h
      obtain ⟨⟨hf, hw⟩, rfl⟩ := h
      rw [word, Slot.put, hc, Nat.add_mul_div_right _ _ hp, Nat.add_mod, word_div_mod hp hw, Nat.zero_add, Nat.mod_mod,
        Nat.mod_eq_of_lt (Nat.lt_of_lt_of_le f.lt hf)]
    split at h
    next hr => rw [word, div_add_put hr, word_div_mod hp h]
    next => exact absurd h (by simp)

theorem fld_word {b : Base} {lo n : Nat} {fs : List (Slot × Nat)} (h : (read b (2 ^ lo) (2 ^ n) fs).isSome = true) :
    fld (word b fs) lo n = (read b (2 ^ lo) (2 ^ n) fs).getD 0 := by
  obtain ⟨v, hv⟩ := Option.isSome_iff_exists.mp h
  rw [fld, word_div_mod (by positivity) hv, hv, Option.getD_some]

theorem hdrOf_add {h : Hdr} {x : Nat} (hx : x < 134217728) : hdrOf (encHdr h + x) = h := by
  obtain ⟨wp, sp, wn, sn, stop⟩ := h
  have h1 := wp.toNat_lt; have h2 := sp.toNat_lt; have h3 := wn.toNat_lt; have h4 := sn.toNat_lt; have h5 := stop.toNat_lt
  have e1 : fld (encHdr ⟨wp, sp, wn, sn, stop⟩ + x) 31 1 = wp.toNat := by simp only [fld, encHdr]; omega
  have e2 : fld (encHdr ⟨wp, sp, wn, sn, stop⟩ + x) 30 1 = sp.toNat := by simp only [fld, encHdr]; omega
  have e3 : fld (encHdr ⟨wp, sp, wn, sn, stop⟩ + x) 29 1 = wn.toNat := by simp only [fld, encHdr]; omega
  have e4 : fld (encHdr ⟨wp, sp, wn, sn, stop⟩ + x) 28 1 = sn.toNat := by simp only [fld, encHdr]; omega
  have e5 : fld (encHdr ⟨wp, sp, wn, sn, stop⟩ + x) 27 1 = stop.toNat := by simp only [fld, encHdr]; omega
  have one (b : Bool) : (b.toNat == 1) = b := Slot.flag_beq_one b
  simp only [hdrOf, e1, e2, e3, e4, e5, one]

/-- The most that the fixed bits and the fields of a first word come to. -/
def most (k : Nat) : List (Slot × Nat) → Nat
  | [] => k
  | (f, c) :: fs => most k fs + (f.size - 1) * c

theorem most_rules (k : Nat) : most k [] = k ∧
    ∀ (c : Nat) (f : Slot) (fs : List (Slot × Nat)), most k ((f, c) :: fs) = most k fs + (f.size - 1) * c := by simp [most]

theorem word_first (h : Hdr) (k : Nat) : ∀ fs : List (Slot × Nat), ∃ x ≤ most k fs, word (.first h k) fs = encHdr h + x
  | [] => ⟨k, Nat.le_refl k, rfl⟩
  | (f, c) :: fs => by
    obtain ⟨x, hx, e⟩ := word_first h k fs
    exact ⟨x + f.put c, Nat.add_le_add hx (f.put_le c), by rw [word, e, Nat.add_assoc]⟩

/-- The header is read back where fixed bits and fields end below it. -/
theorem hdrOf_word {h : Hdr} {k : Nat} {fs : List (Slot × Nat)} (hm : most k fs < 134217728) : hdrOf (word (.first h k) fs) = h := by
  obtain ⟨x, hx, e⟩ := word_first h k fs
  rw [e, hdrOf_add (Nat.lt_of_le_of_lt hx hm)]

/-! ## The rows of R30 and R31 -/

/-- The number of words by the fields of the first word. -/
theorem wordCount_eq (w : Nat) : wordCount w =
    if fld w 21 6 = 10 then 3
    else if fld w 21 6 = 13 then (if fld w 8 3 < 2 then 2 else 1)
    else if fld w 21 6 = 14 then (if fld w 18 1 = 1 then 2 else 1)
    else if fld w 21 6 = 59 then 1
    else if 24 ≤ fld w 21 6 ∧ fld w 21 6 % 32 < 28 ∧ (fld w 21 6 < 52 ∨ 56 ≤ fld w 21 6 ∧ fld w 21 6 < 60) ∧
      ¬(44 ≤ fld w 21 6 ∧ fld w 21 6 ≤ 47) then 2 else 1 := by
  unfold wordCount
  split <;> simp_all

/-- A first word followed by these words selects the instruction, whatever comes after them. -/
def Selects (w0 : Nat) (i : Instr) : List Nat → Prop
  | [] => ∀ w1 w2, candidate w0 w1 w2 = some i
  | [w1] => ∀ w2, candidate w0 w1 w2 = some i
  | w1 :: w2 :: _ => candidate w0 w1 w2 = some i

/-- The words of an instruction are as many as its first word says, and select it again, with every operand. -/
def RoundTrips (i : Instr) : Prop := wordCount (encode0 i) = (encodeExt i).length + 1 ∧ Selects (encode0 i) i (encodeExt i)

/-- The words of R29's majors 0x01 and 0x02 (format T3). -/
theorem arithmeticWords :
    (∀ f ∈ [Instr.add, .sub, .and, .or, .xor, .andn, .sll, .srl, .sra, .rol, .min, .max, .minu, .maxu, .slt, .sltu, .mul, .mulh, .mulhu, .div,
        .divu, .rem, .remu, .sext, .zext, .sel],
      ∀ h d a b ka kb, RoundTrips (f h d a b ka kb)) ∧
    (∀ f ∈ [Instr.clz, .ctz, .popc],
      ∀ h d a ka, RoundTrips (f h d a ka)) := by
  simp only [List.forall_mem_cons, List.not_mem_nil, false_imp_iff, implies_true, and_true]
  simp [-Fin.ofNat_eq_cast, RoundTrips, Selects, encode0, encodeExt, wordCount_eq, candidate, cand01, cand02, Slot.put_rules, Slot.size_rules,
    Slot.val_rules, word_rules, fld_word, hdrOf_word, room_rules, read_rules, most_rules]

/-- Those of majors 0x03 to 0x0E (formats TI, TL and TB). -/
theorem immediateAndBranchWords :
    (∀ f ∈ [Instr.addi, .andi, .ori, .xori],
      ∀ h d a ka imm, RoundTrips (f h d a ka imm)) ∧
    (∀ f ∈ [Instr.slli, .srli, .srai],
      ∀ h d a ka sh, RoundTrips (f h d a ka sh)) ∧
    (∀ f ∈ [Instr.slti, .seqi],
      ∀ h d a ka imm, RoundTrips (f h d a ka imm)) ∧
    (∀ f ∈ [Instr.li, .apc],
      ∀ h d imm, RoundTrips (f h d imm)) ∧
    (∀ h d hi mid lo, RoundTrips (.lih h d hi mid lo)) ∧
    (∀ f ∈ [Instr.beq, .bne, .blt, .bge, .bltu, .bgeu],
      ∀ h a b off, RoundTrips (f h a b off)) ∧
    (∀ f ∈ [Instr.bz, .bnz],
      ∀ h a off, RoundTrips (f h a off)) ∧
    (∀ h off, RoundTrips (.br h off)) ∧
    (∀ h a off, RoundTrips (.call h a off)) ∧
    (∀ f ∈ [Instr.ret, .jr],
      ∀ h a, RoundTrips (f h a)) ∧
    (∀ h n a ka len, RoundTrips (.loop h n a ka len)) ∧
    (∀ h n count len, RoundTrips (.loopi h n count len)) := by
  simp only [List.forall_mem_cons, List.not_mem_nil, false_imp_iff, implies_true, and_true]
  simp [-Fin.ofNat_eq_cast, RoundTrips, Selects, encode0, encodeExt, wordCount_eq, candidate, cand03, cand04, cand05, cand06, cand07, cand08,
      cand09, cand0A, cand0B, cand0C, cand0D, cand0E, Slot.put_rules, Slot.size_rules,
    Slot.val_rules, word_rules, fld_word, hdrOf_word, room_rules, read_rules, most_rules]

/-- Those of major 0x0F and of the worlds, 0x3B (format T3). -/
theorem systemWords :
    (∀ f ∈ [Instr.semadd, .semwt],
      ∀ h n a ka, RoundTrips (f h n a ka)) ∧
    (∀ h d n, RoundTrips (.mbrd h d n)) ∧
    (∀ h n a b ka kb, RoundTrips (.mbwr h n a b ka kb)) ∧
    (∀ h d a b ka kb, RoundTrips (.waitaddr h d a b ka kb)) ∧
    (∀ f ∈ [Instr.park, .yield, .done, .tret, .choose, .abandon],
      ∀ h, RoundTrips (f h)) ∧
    (∀ h code, RoundTrips (.trap h code)) ∧
    (∀ h d crn, RoundTrips (.crr h d crn)) ∧
    (∀ h t crn kt, RoundTrips (.crw h t crn kt)) ∧
    (∀ f ∈ [Instr.lvreq, .lvrel],
      ∀ h a ka, RoundTrips (f h a ka)) ∧
    (∀ f ∈ [Instr.bist, .scan, .errrd, .jcancel],
      ∀ h d a ka, RoundTrips (f h d a ka)) ∧
    (∀ h d a b, RoundTrips (.fork h d a b)) ∧
    (∀ h d, RoundTrips (.wid h d)) := by
  simp only [List.forall_mem_cons, List.not_mem_nil, false_imp_iff, implies_true, and_true]
  simp [-Fin.ofNat_eq_cast, RoundTrips, Selects, encode0, encodeExt, wordCount_eq, candidate, cand0F, cand3B, Slot.put_rules, Slot.size_rules,
    Slot.val_rules, word_rules, fld_word, hdrOf_word, room_rules, read_rules, most_rules]

/-- Those of majors 0x10 to 0x12 and 0x15 (format TM). -/
theorem accessWords :
    (∀ f ∈ [Instr.ldb, .ldbu, .ldh, .ldhu, .ldw, .ldwu, .ldd, .stb, .sth, .stw, .std],
      ∀ h t a hint off, RoundTrips (f h t a hint off)) ∧
    (∀ f ∈ [Instr.ldAcq, .stRel],
      ∀ h t a scope, RoundTrips (f h t a scope)) ∧
    (∀ h t a hint size off, RoundTrips (.ldro h t a hint size off)) := by
  simp only [List.forall_mem_cons, List.not_mem_nil, false_imp_iff, implies_true, and_true]
  simp [-Fin.ofNat_eq_cast, RoundTrips, Selects, encode0, encodeExt, wordCount_eq, candidate, cand10, cand11, cand12, cand15, Slot.put_rules,
      Slot.size_rules,
    Slot.val_rules, word_rules, fld_word, hdrOf_word, room_rules, read_rules, most_rules]

/-- Those of majors 0x13, 0x14, 0x16 and 0x17 (format T3). -/
theorem memoryWords :
    (∀ f ∈ [Instr.amoadd, .amoand, .amoor, .amoxor, .amomin, .amomax, .amominu, .amomaxu, .amoswap, .amofadd, .amobfadd, .bbwait, .rqpost,
        .lpost],
      ∀ h d a b ka kb, RoundTrips (f h d a b ka kb)) ∧
    (∀ h d a b ka, RoundTrips (.amocas h d a b ka)) ∧
    (∀ f ∈ [Instr.fence, .mark],
      ∀ h scope, RoundTrips (f h scope)) ∧
    (∀ f ∈ [Instr.wb, .inv, .wbinv, .roinv, .bbinit, .bbexp],
      ∀ h a b ka kb, RoundTrips (f h a b ka kb)) ∧
    (∀ h hint a ka, RoundTrips (.pf h hint a ka)) ∧
    (∀ h d n, RoundTrips (.cbacq h d n)) ∧
    (∀ h n, RoundTrips (.cbrel h n)) ∧
    (∀ h l a b, RoundTrips (.fmst h l a b)) := by
  simp only [List.forall_mem_cons, List.not_mem_nil, false_imp_iff, implies_true, and_true]
  simp [-Fin.ofNat_eq_cast, RoundTrips, Selects, encode0, encodeExt, wordCount_eq, candidate, cand13, cand14, cand16, cand17, Slot.put_rules,
      Slot.size_rules,
    Slot.val_rules, word_rules, fld_word, hdrOf_word, room_rules, read_rules, most_rules]

/-- Those of the fetch engine (format TC). -/
theorem fetchWords :
    (∀ h a b ka src dst hint len, RoundTrips (.cpy h a b ka src dst hint len)) ∧
    (∀ h a b src dst rows rowbytes, RoundTrips (.cpy2 h a b src dst rows rowbytes)) ∧
    (∀ h a b isp dst count rowbytes, RoundTrips (.cpyg h a b isp dst count rowbytes)) ∧
    (∀ h a b kb src hint rows oq, RoundTrips (.oqld h a b kb src hint rows oq)) ∧
    (∀ h a b src hint rows rowbytes, RoundTrips (.tsld h a b src hint rows rowbytes)) ∧
    (∀ h a b ka dst hint rows rowbytes, RoundTrips (.tsst h a b ka dst hint rows rowbytes)) ∧
    (∀ h a ka n size slots, RoundTrips (.cbinit h a ka n size slots)) := by
  simp [-Fin.ofNat_eq_cast, RoundTrips, Selects, encode0, encodeExt, wordCount_eq, candidate, cand18, cand19, cand1A, cand1B, Slot.put_rules,
      Slot.size_rules,
    Slot.val_rules, word_rules, fld_word, hdrOf_word, room_rules, read_rules, most_rules]

/-- Those of the vector engine, majors 0x20 to 0x22 (format TC). -/
theorem vectorWords :
    (∀ h a b ka kb regRows regCols ty cols1 rows1, RoundTrips (.vshape h a b ka kb regRows regCols ty cols1 rows1)) ∧
    (∀ h a b ka kb src vd oq hint, RoundTrips (.vld h a b ka kb src vd oq hint)) ∧
    (∀ h a b ka dst va hint, RoundTrips (.vst h a b ka dst va hint)) ∧
    (∀ h a ka vd, RoundTrips (.vbcastX h a ka vd)) ∧
    (∀ h vd va n, RoundTrips (.vbcastRow h vd va n)) ∧
    (∀ h vd va n, RoundTrips (.vbcastCol h vd va n)) ∧
    (∀ h vd va vb vc, RoundTrips (.vsel h vd va vb vc)) ∧
    (∀ f ∈ [Instr.vadd, .vsub, .vmul, .vmax, .vmin],
      ∀ h b kb sb sat vd va vb, RoundTrips (f h b kb sb sat vd va vb)) ∧
    (∀ h b kb sb sat vd va vb vc, RoundTrips (.vfma h b kb sb sat vd va vb vc)) ∧
    (∀ f ∈ [Instr.vabs, .vneg],
      ∀ h sat vd va, RoundTrips (f h sat vd va)) ∧
    (∀ h b kb sb sat vd va vb cond, RoundTrips (.vcmp h b kb sb sat vd va vb cond)) ∧
    (∀ f ∈ [Instr.vand, .vor, .vxor, .vshl, .vshr],
      ∀ h b kb sb vd va vb, RoundTrips (f h b kb sb vd va vb)) ∧
    (∀ h vd va, RoundTrips (.vpopc h vd va)) := by
  simp only [List.forall_mem_cons, List.not_mem_nil, false_imp_iff, implies_true, and_true]
  simp [-Fin.ofNat_eq_cast, RoundTrips, Selects, encode0, encodeExt, wordCount_eq, candidate, cand20, cand21, cand22, Slot.put_rules,
      Slot.size_rules,
    Slot.val_rules, word_rules, fld_word, hdrOf_word, room_rules, read_rules, most_rules]

/-- Those of the vector engine, majors 0x23 to 0x29 (format TC). -/
theorem vectorFunctionWords :
    (∀ h a ka vd va ty mode, RoundTrips (.vcvt h a ka vd va ty mode)) ∧
    (∀ h axis sat vd va op, RoundTrips (.vred h axis sat vd va op)) ∧
    (∀ f ∈ [Instr.vgelu, .vsilu, .vsplus, .vtanh, .vsigm, .vexp, .vrcp, .vrsqrt, .vfrlog, .vlshr],
      ∀ h vd va ty, RoundTrips (f h vd va ty)) ∧
    (∀ h a ka src n, RoundTrips (.vtblld h a ka src n)) ∧
    (∀ h vd va ty n, RoundTrips (.vtbl h vd va ty n)) ∧
    (∀ h vd va, RoundTrips (.vtolog h vd va)) ∧
    (∀ f ∈ [Instr.vladd, .vlsub],
      ∀ h b kb cf vd va vb, RoundTrips (f h b kb cf vd va vb)) ∧
    (∀ h b kb vd va, RoundTrips (.vlmul h b kb vd va)) ∧
    (∀ h vd va vb n, RoundTrips (.vhamm h vd va vb n)) ∧
    (∀ h desc vd va vb vc k1, RoundTrips (.vtopk h desc vd va vb vc k1)) ∧
    (∀ h a b ka kb src vd va, RoundTrips (.vfilt h a b ka kb src vd va)) ∧
    (∀ h a b hint vd, RoundTrips (.vsect h a b hint vd)) ∧
    (∀ h vd va vc, RoundTrips (.vuniq h vd va vc)) ∧
    (∀ h vd va vc nb1 sft, RoundTrips (.vbkt h vd va vc nb1 sft)) := by
  simp only [List.forall_mem_cons, List.not_mem_nil, false_imp_iff, implies_true, and_true]
  simp [-Fin.ofNat_eq_cast, RoundTrips, Selects, encode0, encodeExt, wordCount_eq, candidate, cand23, cand24, cand25, cand26, cand27, cand28,
      cand29, Slot.put_rules, Slot.size_rules,
    Slot.val_rules, word_rules, fld_word, hdrOf_word, room_rules, read_rules, most_rules]

/-- Those of the matrix engine (format TC). -/
theorem matrixWords :
    (∀ h a b ka kb lvl, RoundTrips (.mcfgLevel h a b ka kb lvl)) ∧
    (∀ h a ka, RoundTrips (.mcfgNest h a ka)) ∧
    (∀ h a ka src n, RoundTrips (.mshp h a ka src n)) ∧
    (∀ h a ka n field, RoundTrips (.mshf h a ka n field)) ∧
    (∀ f ∈ [Instr.mgo, .mrstNone],
      ∀ h, RoundTrips (f h)) ∧
    (∀ h off, RoundTrips (.mrst h off)) ∧
    (∀ h n, RoundTrips (.maccClr h n)) ∧
    (∀ f ∈ [Instr.maccSave, .maccLoad],
      ∀ h n row half, RoundTrips (f h n row half)) ∧
    (∀ h a b ka kb dest, RoundTrips (.mepi h a b ka kb dest)) ∧
    (∀ f ∈ [Instr.mlqSend, .mlqRecv],
      ∀ h a ka n m ty, RoundTrips (f h a ka n m ty)) ∧
    (∀ h n, RoundTrips (.mlqUnbind h n)) := by
  simp only [List.forall_mem_cons, List.not_mem_nil, false_imp_iff, implies_true, and_true]
  simp [-Fin.ofNat_eq_cast, RoundTrips, Selects, encode0, encodeExt, wordCount_eq, candidate, cand30, cand31, cand32, cand33, Slot.put_rules,
      Slot.size_rules,
    Slot.val_rules, Slot.fin_val_ne, word_rules, fld_word, hdrOf_word, room_rules, read_rules, most_rules]

/-- Those of the gleaner, the Darner, the exchange and the weight path (format TC). -/
theorem tableWords :
    (∀ f ∈ [Instr.gpoolAuto, .gpoolDie, .gpoolFar],
      ∀ h a b isp dst ty mean bags, RoundTrips (f h a b isp dst ty mean bags)) ∧
    (∀ f ∈ [Instr.gdeq, .grank],
      ∀ h a b isp dst ty count, RoundTrips (f h a b isp dst ty count)) ∧
    (∀ h a b qsp dst dmax flt nq1 k1, RoundTrips (.gscan h a b qsp dst dmax flt nq1 k1)) ∧
    (∀ f ∈ [Instr.hrpin, .hrfree],
      ∀ h a b count, RoundTrips (f h a b count)) ∧
    (∀ f ∈ [Instr.dupd, .dord],
      ∀ h a b isp gsp ty opt count, RoundTrips (f h a b isp gsp ty opt count)) ∧
    (∀ h a b kb isp nb1 sft count, RoundTrips (.xall h a b kb isp nb1 sft count)) ∧
    (∀ h a b ka kb tiles ty kind, RoundTrips (.wload h a b ka kb tiles ty kind)) ∧
    (∀ h a b ka kb src ty n1 first, RoundTrips (.wtbl h a b ka kb src ty n1 first)) := by
  simp only [List.forall_mem_cons, List.not_mem_nil, false_imp_iff, implies_true, and_true]
  simp [-Fin.ofNat_eq_cast, RoundTrips, Selects, encode0, encodeExt, wordCount_eq, candidate, cand38, cand39, cand3A, Slot.put_rules,
      Slot.size_rules,
    Slot.val_rules, word_rules, fld_word, hdrOf_word, room_rules, read_rules, most_rules]

/-- The words of every instruction fit (R11, R33). -/
theorem fits (i : Instr) : Statement i :=
  Instr.rec (motive := Statement)
    add sub and or xor andn sll srl sra rol min max minu maxu slt sltu mul mulh mulhu div divu rem remu clz ctz popc sext zext sel addi andi ori
    xori slli srli srai slti seqi li lih apc beq bne blt bge bltu bgeu bz bnz br call ret jr loop loopi semadd semwt mbrd mbwr waitaddr park yield
    done trap tret crr crw lvreq lvrel bist scan errrd jcancel ldb ldbu ldh ldhu ldw ldwu ldd stb sth stw std ldAcq stRel amoadd amoand amoor
    amoxor amomin amomax amominu amomaxu amoswap amocas amofadd amobfadd fence mark wb inv wbinv pf roinv ldro bbinit bbexp bbwait cbacq cbrel
    fmst rqpost lpost fork choose abandon wid cpy cpy2 cpyg oqld tsld tsst cbinit vshape vld vst vbcastX vbcastRow vbcastCol vsel vadd vsub vmul
    vfma vmax vmin vabs vneg vcmp vand vor vxor vshl vshr vpopc vcvt vred vgelu vsilu vsplus vtanh vsigm vexp vrcp vrsqrt vtblld vtbl vtolog
    vfrlog vladd vlsub vlshr vlmul vhamm vtopk vfilt vsect vuniq vbkt mcfgLevel mcfgNest mshp mshf mgo mrst mrstNone maccClr maccSave maccLoad
    mepi mlqSend mlqRecv mlqUnbind gpoolAuto gpoolDie gpoolFar gdeq gscan grank hrpin hrfree dupd dord xall wload wtbl mswaysDrain mswaysConvert
    commandStart commandComplete nestStep epilogue registerWriteLanding loadValueReturn heldWordResume stopSpacing pendingTrapDelivery
    launchPacket launchAccept jobDispatch iterationHandout recordPickup schedAge fairnessDue fairnessWindowEnd issuePass mangleTake watchdogExpiry
    jobComplete cancelRequest linkTileArrival ltqCredit ltqBindPacket ltqTimeout routePacket multicastForward fabricWriteArrival fabricAck
    fabricAtomicArrival fabricAnswerWrite monitorRequestArrival wakeWrite requestRecordArrival remoteBarrierAdd ethRmaWrite ethUntaggedSend
    ethDeliveryAck hostRead hostWrite faultQueueAppend fqPop fqEnd erPop trInvalWrite trInvalDone skClrWrite sketchHalve hrCfgWrite
    hrCfgTakeEffect chmWrite migGo migrationDone wvQuotaWrite viewFree opSelWrite opmodeApply leaveGrant testResult memoryCorrectedError
    arraySoftError linkStateChange linkFecCorrection powerOnReset rstCtlWrite boot atGoWrite attestReportDone replayHoldLimit registerWrite
    linkLevelRetry skClrDone mswaysOperationEnd i

theorem fld_ext_of_mem {i : Instr} {w : Nat} (hw : w ∈ encodeExt i) : fld w 28 4 = 0 := by
  have := (fits i).2 w hw
  simp only [fld]; omega

/-- Every instruction with a word has its place in the tables of R29 to R31. -/
theorem roundTrips (i : Instr) : i.isEvent = false → RoundTrips i := by
  have groups := And.intro arithmeticWords <| And.intro immediateAndBranchWords <| And.intro systemWords <| And.intro accessWords <|
    And.intro memoryWords <| And.intro fetchWords <| And.intro vectorWords <| And.intro vectorFunctionWords <| And.intro matrixWords tableWords
  simp only [List.forall_mem_cons, List.not_mem_nil, false_imp_iff, implies_true, and_true] at groups
  cases i <;> simp only [Instr.isEvent, groups, reduceCtorEq, false_imp_iff, implies_true]

/-- Majors that no row of R29 assigns, or that it reserves, select nothing. -/
theorem candidate_eq_none_of_major {w0 w1 w2 : Nat}
    (h : fld w0 21 6 ∈ [0, 63, 28, 29, 30, 31, 44, 45, 46, 47, 52, 53, 54, 55, 60, 61, 62]) : candidate w0 w1 w2 = none := by
  unfold candidate
  generalize fld w0 21 6 = m at h
  fin_cases h <;> rfl

/-- A well-formed command of a table engine has no ring bit (R13). -/
theorem ringBits_eq_zero_of_wf {w0 w1 w2 : Nat} {i : Instr} (hc : candidate w0 w1 w2 = some i) (ht : tableMajor w0 = true)
    (hw : i.wf = true) : fld w0 28 4 = 0 := by
  have clear (n : Nat) (hn : (fld w0 n 1 == 1) = false) : w0 / 2 ^ n % 2 = 0 := by simp [fld] at hn; omega
  have hm : fld w0 21 6 = 56 ∨ fld w0 21 6 = 57 ∨ fld w0 21 6 = 58 := by simp [tableMajor] at ht; omega
  have hh : (hdrOf w0).wp = false ∧ (hdrOf w0).sp = false ∧ (hdrOf w0).wn = false ∧ (hdrOf w0).sn = false := by
    rcases hm with hm | hm | hm <;> simp only [candidate, hm, cand38, cand39, cand3A] at hc <;> split at hc <;>
      simp only [Option.some.injEq, reduceCtorEq] at hc <;> subst hc <;>
      simp only [Instr.wf, Bool.and_eq_true, Bool.not_eq_true'] at hw <;> simp only [hw, and_self]
  obtain ⟨h31, h30, h29, h28⟩ := hh
  have h31 := clear 31 h31; have h30 := clear 30 h30; have h29 := clear 29 h29; have h28 := clear 28 h28
  simp only [fld]; omega

/-- What decodes, and to what (R33). -/
theorem decodeWords_eq_ok_iff {w0 w1 w2 : Nat} {i : Instr} : decodeWords w0 w1 w2 = .ok i ↔
    candidate w0 w1 w2 = some i ∧ (∀ w ∈ [w1, w2].take (wordCount w0 - 1), fld w 28 4 = 0) ∧
      encode i = w0 :: [w1, w2].take (wordCount w0 - 1) ∧ i.wf = true := by
  have major (hc : candidate w0 w1 w2 = some i) : fld w0 21 6 ∉ [0, 63, 28, 29, 30, 31, 44, 45, 46, 47, 52, 53, 54, 55, 60, 61, 62] :=
    fun h => by simp [candidate_eq_none_of_major h] at hc
  unfold decodeWords
  constructor
  · intro h
    split at h; · cases h
    split at h; · cases h
    split at h; · cases h
    next j hc =>
      dsimp only at h
      split at h; · cases h
      next hx =>
      split at h; · cases h
      split at h; · cases h
      next he =>
      split at h
      next hw => cases h; exact ⟨hc, by simpa using hx, of_not_not he, hw⟩
      next => cases h
  · rintro ⟨hc, hx, he, hw⟩
    have hm := major hc
    simp only [List.mem_cons, List.not_mem_nil, or_false, not_or] at hm
    rw [if_neg (by omega), if_neg (by omega)]
    have ht : tableMajor w0 = true → fld w0 28 4 = 0 := fun ht => ringBits_eq_zero_of_wf hc ht hw
    simp only [hc]
    rw [if_neg (by simpa using hx), if_neg (by simpa using ht), if_neg (by simpa using he), if_pos hw]

/-- A step without a word has the first word 0, which major 0x00 keeps illegal. -/
theorem encode0_of_isEvent {i : Instr} (he : i.isEvent = true) : encode0 i = 0 := by
  revert he
  cases i <;> simp only [Instr.isEvent, Bool.false_eq_true, false_imp_iff, true_imp_iff] <;> rfl

/-- The words of a well-formed instruction decode to it, whatever follows them. -/
theorem encode_decodeWords {i : Instr} {w0 : Nat} {ws : List Nat} (rest : List Nat) (hw : i.wf = true) (he : i.isEvent = false)
    (e : encode i = w0 :: ws) :
    wordCount w0 = ws.length + 1 ∧ decodeWords w0 ((ws ++ rest).getD 0 0) ((ws ++ rest).getD 1 0) = .ok i := by
  obtain ⟨rfl, rfl⟩ := List.cons.inj e
  obtain ⟨hn, hs⟩ := roundTrips i he
  have h3 : wordCount (encode0 i) ≤ 3 := by rw [wordCount_eq]; split_ifs <;> omega
  refine ⟨hn, decodeWords_eq_ok_iff.mpr ?_⟩
  rw [hn, Nat.add_sub_cancel]
  have fitsExt : ∀ w ∈ encodeExt i, fld w 28 4 = 0 := fun w => fld_ext_of_mem
  rw [encode]
  generalize encodeExt i = ext at hn hs fitsExt ⊢
  match ext with
  | [] => exact ⟨hs _ _, by simp, rfl, hw⟩
  | [w1] => exact ⟨hs _, by simpa using fitsExt, rfl, hw⟩
  | [w1, w2] => exact ⟨hs, by simpa using fitsExt, rfl, hw⟩
  | _ :: _ :: _ :: _ => simp at hn; omega

end Sys2Proof.Laws.Words

namespace Sys2Proof.Machine.Proofs
open Sys2Proof.Laws.Words

/-- Settles O49: every table row of R29 to R31 is read back field by field, because its fields stand clear of each other. -/
theorem everyInstructionSurvivesItsEncoding : Obligations.EveryInstructionSurvivesItsEncoding :=
  fun _ _ _ rest hw he e => encode_decodeWords rest hw he e

/-- Settles O50: the decoder compares the words with the encoding of what it answers, and no step without a word has a major of R29. -/
theorem everyDecodedWordIsItsInstructionsEncoding : Obligations.EveryDecodedWordIsItsInstructionsEncoding := by
  intro w0 w1 w2 _
  refine ⟨fun i h => ?_, fun h => ?_, fun h => ?_, fun hn hx => ?_⟩
  · obtain ⟨hc, -, he, hw⟩ := decodeWords_eq_ok_iff.mp h
    refine ⟨hw, ?_, he⟩
    by_contra hev
    have h0 : w0 = 0 := (List.cons.inj he).1.symm.trans (encode0_of_isEvent (by simpa using hev))
    subst h0
    simp [candidate_eq_none_of_major (w0 := 0) (by decide)] at hc
  · exact if_pos h
  · simp only [List.mem_cons, List.not_mem_nil, or_false] at h
    rw [decodeWords, if_neg (by simp only [fld]; omega), if_pos (by simp only [fld]; omega)]
  · match hd : decodeWords w0 w1 w2 with
    | .error e => exact ⟨e, rfl⟩
    | .ok i =>
      obtain ⟨-, hz, -⟩ := decodeWords_eq_ok_iff.mp hd
      obtain ⟨n, hn⟩ : ∃ n, wordCount w0 - 1 = n + 1 := ⟨wordCount w0 - 2, by omega⟩
      exact absurd (hz w1 (by simp [hn])) hx

/-- Settles O48: the five words are the encodings of their instructions, which decode (`encode_decodeWords`). -/
theorem decodedWordsAreTheManualsExamples : Obligations.DecodedWordsAreTheManualsExamples := by
  unfold Obligations.DecodedWordsAreTheManualsExamples
  intro h
  have decodes (i : Instr) (w0 : Nat) (hw : i.wf = true) (he : i.isEvent = false) (e : encode i = [w0]) : decodeWords w0 0 0 = .ok i :=
    (encode_decodeWords [] hw he e).2
  exact ⟨decodes _ _ rfl rfl (by decide), decodes _ _ rfl rfl (by decide), decodes _ _ rfl rfl (by decide), decodes _ _ rfl rfl (by decide),
      decodes _ _ rfl rfl (by decide),
    if_pos (.inl rfl), if_pos (.inr rfl)⟩

end Sys2Proof.Machine.Proofs
end

section
/-! PROOFS. The count of R20, and the tokens of R14 to R18. -/

namespace Sys2Proof.Machine.Proofs

open Sys2Proof Sys2Proof.Machine Sys2Proof.Machine.Safety Sys2Proof.Machine.Laws

/-! ## A word at a count of 63 (R20) -/

/-- An unflagged word at a count of 63 waits for the writes in flight and then takes STOP_SPACING. -/
theorem issueWord_unspaced {s : State} {h : Hdr} (calm : (part s s.cur).entering = none)
    (logged : (part s s.cur).priv ≠ 0 ∨ (core s (coreOf s.cur)).sideHeld = []) (unflagged : h.stop = false) (count : 63 ≤ (part s s.cur).unflagged)
    (i : Instr) (n : Need) (body : List W64 → State → WordOut) :
    issueWord s i h n body = if (part s s.cur).flights.isEmpty then trapAt s s.cur i 0 0x04 0 0 else holdWord s s.cur h.stop := by
  have hlog : ¬((part s s.cur).priv = 0 ∧ ¬ (core s (coreOf s.cur)).sideHeld.isEmpty = true) := by
    rcases logged with h1 | h1 <;> simp [h1]
  simp only [issueWord, calm, Option.isSome_none, Bool.false_eq_true, ↓reduceIte, if_neg hlog, unflagged, not_false_eq_true, true_and, if_pos count]

theorem exec_add (s : State) (h : Hdr) (d a b : Reg) (ka kb : Bool) :
    exec (.add h d a b ka kb) s = .next (alu3 s (.add h d a b ka kb) h d a b ka kb 1 fun x y => x + y) := rfl

theorem exec_fence (s : State) (h : Hdr) (scope : BitVec 2) : exec (.fence h scope) s =
    .next (issueWord s (.fence h scope) h {} fun _ t => if fenceHolds s s.cur (wordSeq t) scope.toNat then .hold s else .next t) := rfl

theorem exec_stopSpacing (s : State) (p : Nat) : exec (.stopSpacing p) s = .next (stopSpacing s p) := rfl

/-- Settles O10: the count is tested before every other check of a word, and `readyWord` alone keeps it. -/
theorem stopSpacingEnforced : Obligations.StopSpacingEnforced := by
  unfold Obligations.StopSpacingEnforced
  refine ⟨fun s h d a b ka kb calm logged unflagged count => ⟨?_, ?_⟩, fun s p i issue calm logged count landed peek unflagged => ?_, fun s h regs tokens => ?_⟩
  · rw [exec_add, alu3, aluWord, issueWord_unspaced calm logged unflagged count]
  · rw [exec_fence, issueWord_unspaced calm logged unflagged count]
  · have hlog : (part s p).priv = 0 → (core s (coreOf p)).sideHeld = [] := fun user => logged.resolve_left (absurd user)
    have hcount : ¬ (part s p).unflagged < 63 := by omega
    have e : stopSpacing s p = trapAt s p i 0 0x04 0 0 := by
      simp +contextual [stopSpacing, issue, calm, hcount, landed, hlog, peek, unflagged]
    rw [exec_stopSpacing, e]
  · rw [part_issued, countFlag, countIgnored_part_unflagged]

/-! ## Tokens (R14 to R18) -/

theorem fgetD_fput {α : Type} (m : FMap α) (j k : Nat) (v d : α) : fgetD (fput m k v) j d = if j = k then v else fgetD m j d := by
  unfold fgetD; rw [fget_fput]; split <;> rfl

theorem takeTokens_eq_none_iff (m : FMap Nat) (st : Nat) (wp wn : Bool) : takeTokens m st wp wn = none ↔
    (wp = true ∧ fgetD m (waitPrev st) 0 = 0) ∨ (wn = true ∧ fgetD m (waitNext st) 0 = 0) := by
  simp only [takeTokens, ite_eq_left_iff, reduceCtorEq, imp_false, not_not, Bool.or_eq_true, Bool.and_eq_true, beq_iff_eq]

theorem putTokens_eq_none_iff (m : FMap Nat) (st : Nat) (sp sn : Bool) : putTokens m st sp sn = none ↔
    (sp = true ∧ 8 ≤ fgetD m (postPrev st) 0) ∨ (sn = true ∧ 8 ≤ fgetD m (postNext st) 0) := by
  simp only [putTokens, ite_eq_left_iff, reduceCtorEq, imp_false, not_not, Bool.or_eq_true, Bool.and_eq_true, decide_eq_true_eq]

/-- A stream waits on two queues and posts to two. -/
theorem waitPrev_ne_waitNext (st : Nat) : waitPrev st ≠ waitNext st := by unfold waitPrev waitNext; split <;> omega

theorem postPrev_ne_postNext (st : Nat) : postPrev st ≠ postNext st := by unfold postPrev postNext; split <;> omega

theorem fgetD_takeTokens {m m' : FMap Nat} {st : Nat} {wp wn : Bool} (h : takeTokens m st wp wn = some m') (k : Nat) : fgetD m' k 0 =
    fgetD m k 0 - (if wp = true ∧ k = waitPrev st then 1 else 0) - (if wn = true ∧ k = waitNext st then 1 else 0) := by
  have hne := waitPrev_ne_waitNext st
  simp only [takeTokens, Option.ite_none_left_eq_some, Option.some.injEq] at h
  obtain ⟨-, rfl⟩ := h
  cases wp <;> cases wn <;> simp only [Bool.false_eq_true, ↓reduceIte, false_and, true_and, fgetD_fput] <;> grind

theorem fgetD_putTokens {m m' : FMap Nat} {st : Nat} {sp sn : Bool} (h : putTokens m st sp sn = some m') (k : Nat) : fgetD m' k 0 =
    fgetD m k 0 + (if sp = true ∧ k = postPrev st then 1 else 0) + (if sn = true ∧ k = postNext st then 1 else 0) := by
  have hne := postPrev_ne_postNext st
  simp only [putTokens, Option.ite_none_left_eq_some, Option.some.injEq] at h
  obtain ⟨-, rfl⟩ := h
  cases sp <;> cases sn <;> simp only [Bool.false_eq_true, ↓reduceIte, false_and, true_and, fgetD_fput] <;> grind

/-- A word whose checks are met holds where a token that it waits for is missing, or a completed word cannot post (R15, R16). -/
theorem issueWord_untokened {s : State} {h : Hdr} {n : Need} {vals : List W64} {regs : FMap (List W64)} (ht : Tries s h) (legal : n.ill = false)
    (whole : loopCuts (part s s.cur).loops (part s s.cur).priv (part s s.cur).pc.toNat n.words = false) (allowed : n.access = false ∧ n.level ≤ (part s s.cur).priv)
    (read : takeReads (part s s.cur).regs n.reads = .ok (vals, regs))
    (room : n.dst = 0 ∨ (fgetD regs n.dst []).length + inFlight (part s s.cur) n.dst + 1 ≤ 4)
    (missing : waitTokens (part s s.cur) h n = none) (i : Instr) (body : List W64 → State → WordOut) :
    issueWord s i h n body = holdWord (countIgnored s h) s.cur h.stop := by
  obtain ⟨calm, quiet, spaced, logged⟩ := ht
  obtain ⟨access, level⟩ := allowed
  have hspaced : ¬(¬ h.stop = true ∧ 63 ≤ (part s s.cur).unflagged) := by
    rintro ⟨h1, h2⟩; rcases spaced with h3 | h3
    · exact h1 h3
    · omega
  have hroom : ¬(n.dst ≠ 0 ∧ 4 < (fgetD regs n.dst []).length + inFlight (part s s.cur) n.dst + 1) := by
    rintro ⟨h1, h2⟩; rcases room with h3 | h3
    · exact h1 h3
    · omega
  have hlog : ¬((part s s.cur).priv = 0 ∧ ¬ (core s (coreOf s.cur)).sideHeld.isEmpty = true) := by
    rcases logged with h1 | h1 <;> simp [h1]
  have hlevel : decide ((part s s.cur).priv < n.level) = false := by simpa using level
  simp only [issueWord, calm, Option.isSome_none, Bool.false_eq_true, ↓reduceIte, if_neg hlog, if_neg hspaced, countIgnored_part_pending,
    countIgnored_part_loops, countIgnored_part_priv, countIgnored_part_pc, countIgnored_part_regs, inFlight_countIgnored, quiet,
    List.isEmpty_nil, not_true_eq_false, false_and, and_false, legal, whole, access, hlevel, Bool.or_self, List.any_nil, read, if_neg hroom,
    waitTokens_countIgnored, missing, ite_self]

/-- Settles O11: a stream's two queues differ, so that the two waits and the two posts do not meet (`waitPrev_ne_waitNext`). -/
theorem tokensTakenAndPostedTogether : Obligations.TokensTakenAndPostedTogether := by
  unfold Obligations.TokensTakenAndPostedTogether
  refine ⟨⟨fun m st wp wn _ => ⟨takeTokens_eq_none_iff m st wp wn, fun m' => fgetD_takeTokens⟩,
    fun m st sp sn _ => ⟨putTokens_eq_none_iff m st sp sn, fun m' => fgetD_putTokens⟩, by decide⟩, ?_⟩
  intro s h d a b ka kb vals regs tries whole read room missing u
  have hu : u = keepHolding (countIgnored s h) s.cur h.stop := holdWord_idle _ (by simpa using tries.quiet)
  have he : alu3 s (.add h d a b ka kb) h d a b ka kb 1 (fun x y => x + y) = u := by
    unfold alu3 aluWord
    exact issueWord_untokened (n := { reads := [rd s a ka, rd s b kb], dst := dstOf s d }) tries rfl whole ⟨rfl, Nat.zero_le _⟩ read room missing _ _
  have hm : (countIgnored s h).mem = s.mem := by unfold countIgnored; split <;> rfl
  refine ⟨by rw [exec_add, he], ?_⟩
  simp [hu, part_keepHolding, hm]

end Sys2Proof.Machine.Proofs
end

section
/-! PROOFS. The frame of an issue: what every word changes beside its own effect, and what the arithmetic words change at all. -/

namespace Sys2Proof.Machine.Proofs

open Sys2Proof Sys2Proof.Machine Sys2Proof.Machine.Safety Sys2Proof.Machine.Laws

/-! ## The two halves of the frame -/

theorem onlyIssuer_refl (s : State) : OnlyIssuer s s := ⟨rfl, fun _ _ => rfl, fun _ => rfl, fun _ _ => rfl⟩

theorem onlyIssuer_cur {s t : State} (h : OnlyIssuer s t) : t.cur = s.cur := (congrArg State.cur h.1 :)

theorem onlyIssuer_bytes {s t : State} (h : OnlyIssuer s t) (a : Nat) : cohByte t a = cohByte s a := by
  have hm : t.mem = s.mem := (congrArg State.mem h.1 :)
  have hd : t.die = s.die := (congrArg State.die h.1 :)
  rw [cohByte, cohByte, hm, hd]

theorem onlyIssuer_trans {s t u : State} (h : OnlyIssuer s t) (k : OnlyIssuer t u) : OnlyIssuer s u := by
  have hcur := onlyIssuer_cur h
  obtain ⟨rest, parts, fields, cores⟩ := h
  obtain ⟨rest', parts', fields', cores'⟩ := k
  rw [hcur] at parts' cores'
  refine ⟨?_, fun p hp => (parts' p hp).trans (parts p hp), fun c => ?_, fun c hc => (cores' c hc).trans (cores c hc)⟩
  · exact (congrArg (fun x : State => { x with parts := s.parts, cores := s.cores, nextSeq := s.nextSeq, curWord := s.curWord }) rest').trans rest
  · exact (congrArg (fun x : Core => { x with nextIssue := (core s c).nextIssue }) (fields' c)).trans (fields c)

/-- A partition with what the issue of any word may change taken from another. -/
def issuerAs (x y : Part) : Part :=
  { y with
    pc := x.pc, loops := x.loops, tokens := x.tokens, posts := x.posts, unflagged := x.unflagged, stopbad := x.stopbad, holding := x.holding,
    atHandler := x.atHandler, flagIgnored := x.flagIgnored, holdSince := x.holdSince, waitSeen := x.waitSeen, replayAt := x.replayAt,
    probe := x.probe, regs := x.regs, flights := x.flights }

theorem sameIssuer_iff (s t : State) : SameIssuer s t ↔ issuerAs (part s s.cur) (part t s.cur) = part s s.cur := Iff.rfl

theorem sameIssuer_trans {s t u : State} (hcur : t.cur = s.cur) (h : SameIssuer s t) (k : SameIssuer t u) : SameIssuer s u := by
  rw [sameIssuer_iff] at h k ⊢
  rw [hcur] at k
  exact (congrArg (issuerAs (part s s.cur)) k).trans h

/-! ## The shared updates -/

theorem onlyIssuer_modPart (s : State) (f : Part → Part) : OnlyIssuer s (modPart s s.cur f) :=
  ⟨rfl, fun _ hp => part_modPart_other s f hp, fun _ => rfl, fun _ _ => rfl⟩

theorem sameIssuer_modPart {s : State} {f : Part → Part} (h : issuerAs (part s s.cur) (f (part s s.cur)) = part s s.cur) :
    SameIssuer s (modPart s s.cur f) := by rw [sameIssuer_iff, part_modPart, h]

theorem modPart_modPart (s : State) (p : Nat) (f g : Part → Part) : modPart (modPart s p f) p g = modPart s p fun x => g (f x) := by
  simp only [modPart, part_setPart, setPart_setPart]

/-- The posts of completed words change the tokens and the posts that stand, and nothing else (R15). -/
theorem postReady_cases (s : State) (p : Nat) :
    postReady s p = s ∨ ∃ m l, postReady s p = modPart s p fun x => { x with tokens := m, posts := l } := by
  unfold postReady
  generalize (part s p).posts = posts
  induction posts generalizing s with
  | nil => exact .inl rfl
  | cons t ts ih =>
    rw [List.foldl_cons]
    split
    · split
      next m _ =>
        rcases ih (modPart s p fun x => { x with tokens := m, posts := x.posts.filter (fun y => y.seq != t.seq) }) with h | ⟨m', l, h⟩
        · exact .inr ⟨m, (part s p).posts.filter (fun y => y.seq != t.seq), h⟩
        · exact .inr ⟨m', l, h.trans (modPart_modPart ..)⟩
      next => exact ih s
    · exact ih s

/-- What is neither a register write nor a read of registers: nothing changes but the issuing partition and its core's next issue,
    and of the partition
neither its queue registers nor its writes in flight. -/
structure Beside (s t : State) : Prop where
  only : OnlyIssuer s t
  same : SameIssuer s t
  regs : (part t s.cur).regs = (part s s.cur).regs
  flights : (part t s.cur).flights = (part s s.cur).flights

theorem beside_trans {s t u : State} (h : Beside s t) (k : Beside t u) : Beside s u := by
  have hcur := onlyIssuer_cur h.only
  have hregs := k.regs; have hflights := k.flights
  rw [hcur] at hregs hflights
  exact ⟨onlyIssuer_trans h.only k.only, sameIssuer_trans hcur h.same k.same, hregs.trans h.regs, hflights.trans h.flights⟩

theorem beside_modPart {s : State} {f : Part → Part} (same : issuerAs (part s s.cur) (f (part s s.cur)) = part s s.cur)
    (regs : (f (part s s.cur)).regs = (part s s.cur).regs) (flights : (f (part s s.cur)).flights = (part s s.cur).flights) :
    Beside s (modPart s s.cur f) :=
  ⟨onlyIssuer_modPart s f, sameIssuer_modPart same, by rw [part_modPart, regs], by rw [part_modPart, flights]⟩

theorem beside_nextIssue (s : State) (n : Nat) : Beside s (modCore s (coreOf s.cur) fun c => { c with nextIssue := n }) := by
  refine ⟨⟨rfl, fun _ _ => rfl, fun c => ?_, fun c hc => core_modCore_other _ _ hc⟩, rfl, rfl, rfl⟩
  by_cases hc : c = coreOf s.cur
  · rw [hc, core_modCore]
  · rw [core_modCore_other _ _ hc]

theorem beside_postReady (s : State) : Beside s (postReady s s.cur) := by
  rcases postReady_cases s s.cur with h | ⟨m, l, h⟩ <;> rw [h]
  · exact ⟨onlyIssuer_refl s, rfl, rfl, rfl⟩
  · exact beside_modPart rfl rfl rfl

theorem core_postReady (s : State) (p c : Nat) : core (postReady s p) c = core s c := by
  rcases postReady_cases s p with h | ⟨m, l, h⟩ <;> rw [h]; rfl

/-! ## A word that takes effect -/

theorem part_countIgnored (s : State) (h : Hdr) :
    ∃ b n, part (countIgnored s h) s.cur = { part s s.cur with flagIgnored := b, stopbad := n } := by
  unfold countIgnored; split
  · exact ⟨_, _, part_modPart ..⟩
  · exact ⟨_, _, rfl⟩

theorem onlyIssuer_issued (s : State) (h : Hdr) (regs : FMap (List W64)) (tokens : FMap Nat) : OnlyIssuer s (issued s h regs tokens) := by
  refine ⟨?_, fun p hp => part_issued_other s h regs tokens hp, fun c => by rw [core_issued], fun c _ => core_issued s h regs tokens c⟩
  exact (congrArg (fun x : State => { x with cores := s.cores }) (issued_rest s h regs tokens) :)

theorem sameIssuer_issued (s : State) (h : Hdr) (regs : FMap (List W64)) (tokens : FMap Nat) : SameIssuer s (issued s h regs tokens) := by
  obtain ⟨b, n, e⟩ := part_countIgnored s h
  rw [sameIssuer_iff, part_issued, e]; rfl

/-- A register write put in flight. -/
theorem fly_frame (t : State) (d : Reg) (v : FlightVal) : OnlyIssuer t (fly t d v) ∧ SameIssuer t (fly t d v) ∧
    (part (fly t d v) t.cur).regs = (part t t.cur).regs ∧ (part (fly t d v) t.cur).flights =
      if dstOf t d = 0 then (part t t.cur).flights else (part t t.cur).flights ++ [{ seq := t.curWord, reg := dstOf t d, val := v }] := by
  by_cases h : dstOf t d = 0
  · have e : fly t d v = t := by simp [fly, h]
    rw [e, if_pos h]; exact ⟨onlyIssuer_refl t, rfl, rfl, rfl⟩
  · have e : fly t d v = modPart t t.cur fun x => { x with flights := x.flights ++ [{ seq := t.curWord, reg := dstOf t d, val := v }] } := by
      simp [fly, h, wordSeq]
    rw [e, if_neg h, part_modPart]; exact ⟨onlyIssuer_modPart t _, sameIssuer_modPart rfl, rfl, rfl⟩

theorem finishWord_beside {s u : State} (hcur : u.cur = s.cur) (command : Bool) (h : Hdr) (pc cost : Nat) (loops : FMap Loop) :
    Beside u (finishWord s command h pc cost loops u) := by
  unfold finishWord
  rw [← hcur]
  exact beside_trans (beside_trans (beside_modPart rfl rfl rfl) (beside_nextIssue ..)) (beside_postReady _)

theorem finishWord_nextIssue (s u : State) (command : Bool) (h : Hdr) (pc cost : Nat) (loops : FMap Loop) :
    (core (finishWord s command h pc cost loops u) (coreOf s.cur)).nextIssue = s.time + cost := by
  rw [finishWord, core_postReady, core_modCore]

/-- Settles O56: each update of an issue stands within the frame (`Beside`), and the frame is transitive. -/
theorem issueChangesOnlyTheIssuer : Obligations.IssueChangesOnlyTheIssuer := by
  refine ⟨fun s h regs tokens => ?_, fun s u h command nw target hcur => ?_, fly_frame⟩
  · have only := onlyIssuer_issued s h regs tokens
    exact ⟨only, sameIssuer_issued s h regs tokens, by rw [part_issued], by rw [part_issued], by simp, by simp, by simp, onlyIssuer_bytes only⟩
  · have keeps (command : Bool) (pc cost : Nat) (loops : FMap Loop) : let t := finishWord (countIgnored s h) command h pc cost loops u
        OnlyIssuer u t ∧ SameIssuer u t ∧ (part t s.cur).regs = (part u s.cur).regs ∧ (part t s.cur).flights = (part u s.cur).flights ∧
        (core t (coreOf s.cur)).nextIssue = s.time + cost ∧ ∀ a, cohByte t a = cohByte u a := by
      obtain ⟨only, same, regs, flights⟩ := finishWord_beside (hcur.trans (countIgnored_cur s h).symm) command h pc cost loops
      have next := finishWord_nextIssue (countIgnored s h) u command h pc cost loops
      rw [hcur] at regs flights
      rw [countIgnored_cur, countIgnored_time] at next
      exact ⟨only, same, regs, flights, next, onlyIssuer_bytes only⟩
    exact ⟨keeps command _ _ _, keeps false target (nw + 2) (part u s.cur).loops⟩

/-! ## Arithmetic and immediate words -/

theorem onward_beside {s u : State} (hcur : u.cur = s.cur) (h : Hdr) (command : Bool) (nw : Nat) : Beside u (onward s h command nw u) :=
  finishWord_beside (hcur.trans (countIgnored_cur s h).symm) ..

/-- A word whose own effect is one register write. -/
theorem onward_fly_frame (s : State) (h : Hdr) (regs : FMap (List W64)) (tokens : FMap Nat) (d : Reg) (v : FlightVal) :
    let t := onward s h false 1 (fly (issued s h regs tokens) d v)
    OnlyIssuer s t ∧ SameIssuer s t ∧ (part t s.cur).regs = regs ∧ (∀ p, cohByte t p = cohByte s p) ∧ (part t s.cur).flights =
      if dstOf s d = 0 then (part s s.cur).flights else (part s s.cur).flights ++ [{ seq := s.nextSeq, reg := dstOf s d, val := v }] := by
  intro t
  have onlyI := onlyIssuer_issued s h regs tokens
  have curI := onlyIssuer_cur onlyI
  obtain ⟨onlyF, sameF, regsF, flightsF⟩ := fly_frame (issued s h regs tokens) d v
  have curF := (onlyIssuer_cur onlyF).trans curI
  obtain ⟨onlyT, sameT, regsT, flightsT⟩ := onward_beside curF h false 1
  rw [curF] at regsT flightsT
  rw [curI] at regsF flightsF
  have only := onlyIssuer_trans (onlyIssuer_trans onlyI onlyF) onlyT
  have seq : (issued s h regs tokens).curWord = s.nextSeq := issued_wordSeq s h regs tokens
  refine ⟨only, sameIssuer_trans curF (sameIssuer_trans curI (sameIssuer_issued s h regs tokens) sameF) sameT, ?_, onlyIssuer_bytes only, ?_⟩
  · rw [regsT, regsF, part_issued]
  · rw [flightsT, flightsF, dstOf_issued, seq]; simp

/-- The two-operand words and the divisions read A and B and push one result (R50, R51). -/
theorem exec_alu3_words (s : State) (h : Hdr) (d a b : Reg) (ka kb : Bool) : ∀ i ∈ [Instr.add h d a b ka kb, .sub h d a b ka kb,
    .and h d a b ka kb, .or h d a b ka kb, .xor h d a b ka kb, .andn h d a b ka kb, .sll h d a b ka kb, .srl h d a b ka kb,
        .sra h d a b ka kb, .rol h d a b ka kb, .min h d a b ka kb, .max h d a b ka kb, .minu h d a b ka kb, .maxu h d a b ka kb,
            .slt h d a b ka kb, .sltu h d a b ka kb,
        .mul h d a b ka kb, .mulh h d a b ka kb, .mulhu h d a b ka kb, .sext h d a b ka kb, .zext h d a b ka kb, .sel h d a b ka kb,
            .div h d a b ka kb, .divu h d a b ka kb,
        .rem h d a b ka kb, .remu h d a b ka kb], ∃ lat f, exec i s = .next (alu3 s i h d a b ka kb lat f) := by
  simp only [List.forall_mem_cons, List.not_mem_nil, false_imp_iff, implies_true, and_true]
  refine ⟨?_, ?_, ?_, ?_, ?_, ?_, ?_, ?_, ?_, ?_, ?_, ?_, ?_, ?_, ?_, ?_, ?_, ?_, ?_, ?_, ?_, ?_, ?_, ?_, ?_, ?_⟩ <;> exact ⟨_, _, rfl⟩

/-- The bit counts, immediate words and shifts read A and push one result (R50, R52). -/
theorem exec_alu2_words (s : State) (h : Hdr) (d a : Reg) (ka : Bool) (imm : BitVec 10) (imm9 : BitVec 9) (sh : BitVec 6) :
    ∀ i ∈ [Instr.clz h d a ka, .ctz h d a ka, .popc h d a ka, .addi h d a ka imm, .andi h d a ka imm, .ori h d a ka imm, .xori h d a ka imm,
        .slli h d a ka sh, .srli h d a ka sh,
        .srai h d a ka sh, .slti h d a ka imm9, .seqi h d a ka imm9], ∃ f, exec i s = .next (alu2 s i h d a ka f) := by
  simp only [List.forall_mem_cons, List.not_mem_nil, false_imp_iff, implies_true, and_true]
  refine ⟨?_, ?_, ?_, ?_, ?_, ?_, ?_, ?_, ?_, ?_, ?_, ?_⟩ <;> exact ⟨_, rfl⟩

/-- Settles O57: each of these words issues as one register write put in flight (`onward_fly_frame`). -/
theorem registerWordsChangeOnlyTheirDestination : Obligations.RegisterWordsChangeOnlyTheirDestination := by
  intro s t h regs tokens d a b ka kb imm imm9 sh vals i word exec
  have landing : ∃ v, t = onward s h false 1 (fly (issued s h regs tokens) d v) := by
    rcases word with ⟨issues, hi⟩ | ⟨issues, hi⟩
    · obtain ⟨lat, f, e⟩ := exec_alu3_words s h d a b ka kb i hi
      rw [e, alu3, aluWord_next _ _ _ issues] at exec
      exact ⟨_, (Host.Outcome.next.inj exec).symm⟩
    · obtain ⟨f, e⟩ := exec_alu2_words s h d a ka imm imm9 sh i hi
      rw [e, alu2, aluWord_next _ _ _ issues] at exec
      exact ⟨_, (Host.Outcome.next.inj exec).symm⟩
  obtain ⟨v, rfl⟩ := landing
  obtain ⟨only, same, regs', bytes, flights⟩ := onward_fly_frame s h regs tokens d v
  exact ⟨only, same, regs', bytes, v, flights⟩

end Sys2Proof.Machine.Proofs
end

section
/-! PROOFS. The push of commands (R13, R26). -/

namespace Sys2Proof.Machine.Proofs

open Sys2Proof Sys2Proof.Machine Sys2Proof.Machine.Safety Sys2Proof.Machine.Laws

/-- A command that issues, whose operands pass their checks and whose queue has room, joins the tail of the queue (R13). -/
theorem exec_pushed {s : State} {h : Hdr} {regs : FMap (List W64)} {tokens : FMap Nat} {v : List W64} {i : Instr} {k : Nat} {a b : Reg} {ka kb : Bool} {na nb : Nat}
    {check : List W64 → State → Option Nat} (room : (cmdQueue s s.cur k).queued.length < 16)
        (pushed : exec i s = .next (pushCommand s i h k a ka na b kb nb check))
    (issues : Issues s h { words := 2, command := true, reads := List.replicate na (rd s a ka) ++ List.replicate nb (rd s b kb) } v regs tokens)
    (passed : check v (issued s h regs tokens) = none) :
    exec i s = .next (onward s h true 2 (enqueue (issued s h regs tokens) k (pushedCmd (issued s h regs tokens) k i v))) := by
  have queue : cmdQueue (issued s h regs tokens) (issued s h regs tokens).cur k = cmdQueue s s.cur k := by simp [cmdQueue]
  have free : ¬ 16 ≤ (cmdQueue (issued s h regs tokens) (issued s h regs tokens).cur k).queued.length := by rw [queue]; omega
  rw [pushed, pushCommand, issueWord_next issues i _ (t := enqueue (issued s h regs tokens) k (pushedCmd (issued s h regs tokens) k i v))]
  simp only [passed, if_neg free]

/-- Settles O32: the commands of the fetch engine push into queue 0 (`exec_pushed`). -/
theorem fetchCommandsPushed : Obligations.FetchCommandsPushed := by
  intro s h regs tokens v room
  exact ⟨fun _ _ _ _ _ _ _ reads check => exec_pushed room rfl reads check,
      fun _ _ _ _ _ _ reads check => exec_pushed room rfl reads check,
      fun _ _ _ _ _ _ reads check => exec_pushed room rfl reads check,
      fun _ _ _ _ _ _ _ reads check => exec_pushed room rfl reads check,
      fun _ _ _ _ _ _ reads check => exec_pushed room rfl reads check,
      fun _ _ _ _ _ _ _ reads check => exec_pushed room rfl reads check,
      fun _ _ _ _ _ reads check => exec_pushed room rfl reads check⟩

theorem getLsbD_zero {n : Nat} (x : BitVec n) : x.getLsbD 0 = (x.toNat % 2 == 1) := by
  rw [BitVec.getLsbD, Nat.testBit_zero]; rfl

/-- Settles O33: those of the vector engine push into queue 1 (`exec_pushed`). -/
theorem vectorCommandsPushed : Obligations.VectorCommandsPushed := by
  intro s h regs tokens v room
  exact ⟨fun _ _ _ _ _ _ _ _ _ reads check => exec_pushed room rfl reads check,
      fun _ _ _ _ _ _ _ _ reads check => exec_pushed room rfl reads check,
      fun _ _ _ _ _ _ reads check => exec_pushed room rfl reads check,
      fun _ _ _ reads => exec_pushed room rfl reads rfl,
      fun _ _ _ reads => exec_pushed room rfl reads rfl,
      fun _ _ _ reads => exec_pushed room rfl reads rfl,
      fun _ _ _ _ reads => exec_pushed room rfl reads rfl,
      fun _ _ _ _ _ _ _ reads => exec_pushed room rfl reads rfl,
      fun _ _ _ _ _ _ _ reads => exec_pushed room rfl reads rfl,
      fun _ _ _ _ _ _ _ reads => exec_pushed room rfl reads rfl,
      fun _ _ _ _ _ _ _ _ reads => exec_pushed room rfl reads rfl,
      fun _ _ _ _ _ _ _ reads => exec_pushed room rfl reads rfl,
      fun _ _ _ _ _ _ _ reads => exec_pushed room rfl reads rfl,
      fun _ _ _ reads => exec_pushed room rfl reads rfl,
      fun _ _ _ reads => exec_pushed room rfl reads rfl,
      fun _ _ _ _ _ _ _ _ reads => exec_pushed room rfl reads rfl,
      fun _ _ _ _ _ _ reads => exec_pushed room rfl reads rfl,
      fun _ _ _ _ _ _ reads => exec_pushed room rfl reads rfl,
      fun _ _ _ _ _ _ reads => exec_pushed room rfl reads rfl,
      fun _ _ _ _ _ _ reads => exec_pushed room rfl reads rfl,
      fun _ _ _ _ _ _ reads => exec_pushed room rfl reads rfl,
      fun _ _ reads => exec_pushed room rfl reads rfl,
      fun _ _ _ _ _ _ reads => exec_pushed room rfl reads rfl,
      fun _ _ _ _ _ reads => exec_pushed room rfl reads rfl,
      fun _ _ _ reads => exec_pushed room rfl reads rfl,
      fun _ _ _ reads => exec_pushed room rfl reads rfl,
      fun _ _ _ reads => exec_pushed room rfl reads rfl,
      fun _ _ _ reads => exec_pushed room rfl reads rfl,
      fun _ _ _ reads => exec_pushed room rfl reads rfl,
      fun _ _ _ reads => exec_pushed room rfl reads rfl,
      fun _ _ _ reads => exec_pushed room rfl reads rfl,
      fun _ _ _ reads => exec_pushed room rfl reads rfl,
      fun _ _ _ _ reads check => exec_pushed room rfl reads check,
      fun _ _ _ _ reads => exec_pushed room rfl reads rfl,
      fun _ _ reads => exec_pushed room rfl reads rfl,
      fun _ _ _ reads => exec_pushed room rfl reads rfl,
      fun _ _ cf _ _ _ reads => exec_pushed (nb := if cf.toNat % 2 == 1 then 1 else 0) room rfl (getLsbD_zero cf ▸ reads) rfl,
      fun _ _ cf _ _ _ reads => exec_pushed (nb := if cf.toNat % 2 == 1 then 1 else 0) room rfl (getLsbD_zero cf ▸ reads) rfl,
      fun _ _ _ reads => exec_pushed room rfl reads rfl,
      fun _ _ _ _ reads => exec_pushed room rfl reads rfl,
      fun _ _ _ _ reads => exec_pushed room rfl reads rfl,
      fun _ _ _ _ _ _ reads => exec_pushed room rfl reads rfl,
      fun _ _ _ _ _ _ _ reads check => exec_pushed room rfl reads check,
      fun _ _ _ _ reads check => exec_pushed room rfl reads check,
      fun _ _ _ reads => exec_pushed room rfl reads rfl,
      fun _ _ _ _ _ reads => exec_pushed room rfl reads rfl⟩

/-- Settles O34: those of the matrix engine push into queue 2 (`exec_pushed`). -/
theorem matrixCommandsPushed : Obligations.MatrixCommandsPushed := by
  intro s h regs tokens v room
  exact ⟨fun _ _ _ _ _ reads check => exec_pushed room rfl reads check,
      fun _ _ reads check => exec_pushed room rfl reads check,
      fun _ _ _ _ reads check => exec_pushed room rfl reads check,
      fun _ _ _ _ reads check => exec_pushed room rfl reads check,
      fun reads => exec_pushed room rfl reads rfl,
      fun _ reads => exec_pushed room rfl reads rfl,
      fun reads => exec_pushed room rfl reads rfl,
      fun _ reads => exec_pushed room rfl reads rfl,
      fun _ _ _ reads check => exec_pushed room rfl reads (if_pos (decide_eq_true check)),
      fun _ _ _ reads check => exec_pushed room rfl reads (if_pos (decide_eq_true check)),
      fun _ _ _ _ _ reads check => exec_pushed room rfl reads check,
      fun _ _ _ _ _ reads check => exec_pushed room rfl reads check,
      fun _ _ _ _ _ reads check => exec_pushed room rfl reads check,
      fun _ reads => exec_pushed room rfl reads rfl⟩

/-- Settles O35: those of the gleaner, the Darner, and the exchange and the weight path push into queues 3, 4 and 5 (`exec_pushed`). -/
theorem tableCommandsPushed : Obligations.TableCommandsPushed := by
  refine ⟨?_, ?_, ?_⟩ <;> intro s h regs tokens v room
  · exact ⟨fun _ _ _ _ _ _ _ reads check => exec_pushed room rfl reads check,
      fun _ _ _ _ _ _ _ reads check => exec_pushed room rfl reads check,
      fun _ _ _ _ _ _ _ reads check => exec_pushed room rfl reads check,
      fun _ _ _ _ _ _ reads check => exec_pushed room rfl reads check,
      fun _ _ _ _ _ _ reads check => exec_pushed room rfl reads check,
      fun _ _ _ _ _ _ _ _ reads check => exec_pushed room rfl reads check,
      fun _ _ _ reads check => exec_pushed room rfl reads check,
      fun _ _ _ reads check => exec_pushed room rfl reads check⟩
  · exact ⟨fun _ _ _ _ _ _ _ reads check => exec_pushed room rfl reads check,
      fun _ _ _ _ _ _ _ reads check => exec_pushed room rfl reads check⟩
  · exact ⟨fun _ _ _ _ _ _ _ reads check => exec_pushed room rfl reads check,
      fun _ _ _ _ _ _ _ reads check => exec_pushed room rfl reads check,
      fun _ _ _ _ _ _ _ _ reads check => exec_pushed room rfl reads check⟩

end Sys2Proof.Machine.Proofs
end

section
/-! PROOFS. The step of a core: the look ahead, and the word that the core has made ready (R47, R219, R285, R371). -/

namespace Sys2Proof.Machine.Proofs

open Sys2Proof Sys2Proof.Machine Sys2Proof.Machine.Safety Sys2Proof.Machine.Laws

/-! ## The look ahead -/

/-- What the look ahead may change: whether partitions without the issue are noted to hold. -/
structure Looked (s t : State) : Prop where
  rest : { t with parts := s.parts } = s
  stuck (p : Nat) : { part t p with stuck := (part s p).stuck } = part s p
  issuer (p : Nat) : (core s (coreOf p)).issue = some p → part t p = part s p

theorem looked_refl (s : State) : Looked s s := ⟨rfl, fun _ => rfl, fun _ _ => rfl⟩

theorem looked_trans {s t u : State} (h : Looked s t) (k : Looked t u) : Looked s u := by
  have cores : t.cores = s.cores := (congrArg State.cores h.rest :)
  refine ⟨(congrArg (fun x : State => { x with parts := s.parts }) k.rest).trans h.rest, fun p => ?_, fun p hp => ?_⟩
  · exact (congrArg (fun x : Part => { x with stuck := (part s p).stuck }) (k.stuck p)).trans (h.stuck p)
  · exact (k.issuer p (by rw [core, cores]; exact hp)).trans (h.issuer p hp)

theorem looked_modPart {s : State} {p : Nat} (h : (core s (coreOf p)).issue ≠ some p)
    (b : Bool) : Looked s (modPart s p fun x => { x with stuck := b }) := by
  refine ⟨rfl, fun q => ?_, fun q hq => part_modPart_other s _ (fun e => h (e ▸ hq))⟩
  by_cases e : q = p
  · rw [e, part_modPart]
  · rw [part_modPart_other s _ e]

theorem coreOf_of_mem_partsOf {c p : Nat} (h : p ∈ partsOf c) : coreOf p = c := by
  simp only [partsOf, List.mem_cons, List.not_mem_nil, or_false] at h
  unfold coreOf; omega

theorem looked_lookAhead (run : Instr → State → State) (s : State) (c : Nat) : Looked s (lookAhead run s c) := by
  unfold lookAhead
  refine List.foldlRecOn _ _ (looked_refl s) fun t ht p hp => ?_
  split
  · exact ht
  next h =>
    dsimp only
    split
    · exact ht
    · refine looked_trans ht (looked_modPart ?_ _)
      have cores : t.cores = s.cores := (congrArg State.cores ht.rest :)
      rw [coreOf_of_mem_partsOf hp, core, cores]
      exact fun issuer => h (.inl issuer)

theorem looked_lookAll (s : State) : Looked s (lookAll s) := by
  unfold lookAll; split
  · exact List.foldlRecOn _ _ (looked_refl s) fun t ht c _ => looked_trans ht (looked_lookAhead runInstr t c)
  · exact looked_refl s

/-! ## What a step does -/

theorem lookAll_eq (s : State) : lookAll s = { s with parts := (lookAll s).parts } :=
  (congrArg (fun x : State => { x with parts := (lookAll s).parts }) (looked_lookAll s).rest :)

theorem step_cons {s : State} {c : Choice} {r : List Choice} (h : s.agenda = c :: r) : step s = takeChoice { lookAll s with agenda := r } c := by
  have e : (lookAll s).agenda = c :: r := (congrArg State.agenda (lookAll_eq s)).trans h
  rw [step, stepOn, e]

theorem step_nil {s : State} (h : s.agenda = []) (hb : s.bootCode = 0) : step s = ownStep (lookAll s) := by
  have e : (lookAll s).agenda = [] := (congrArg State.agenda (lookAll_eq s)).trans h
  have eb : (lookAll s).bootCode = 0 := (congrArg State.bootCode (lookAll_eq s)).trans hb
  rw [step, stepOn, e]; simp [eb]

/-- What a core makes ready of what the fetch for partition `p` found. -/
def readyOf (p : Nat) : State × Fetched → Ready
  | (s, .instr i) => .run i (modPart s p fun x => { x with fetchSeen := none })
  | (s, .illegal w0 w1) => .none (trapWord s p 0x01 w0 w1)
  | (s, .denied _ w0) => .none (if (part s p).atHandler then holdFetch s p w0 else trapWord s p 0x06 w0 0)
  | (s, .bad w0) => .none (trapWord s p 0x0F w0 0)
  | (s, .unmapped w0) => .none (holdFetch s p w0)
  | (s, .busy w0) => .none (awaitWord s p w0)

/-- A core whose issuer enters no trap, has no write in flight,
    restarts nothing and holds for no fetch makes ready what the fetch at its pc finds. -/
theorem readyIssue_fetch {s : State} {c p : Nat} (issuer : (core s c).issue = some p) (calm : (part s p).entering = none)
    (landed : (part s p).flights = [])
    (going : (part s p).restarting = false) (unseen : (part s p).fetchSeen = none) :
    readyIssue s c = readyOf p (fetchInstr { s with cur := p } p) := by
  have calm' : (part { s with cur := p } p).entering = none := calm
  have going' : (part { s with cur := p } p).restarting = false := going
  have unseen' : (part { s with cur := p } p).fetchSeen = none := unseen
  simp only [readyIssue, issuer, landed, List.length_nil, landDue, calm', going', unseen', Bool.false_eq_true, false_and, ↓reduceIte]
  rfl

/-- What the step of a core does with what has been made ready. -/
def runReady : Ready → Host.Outcome State Fault Refusal
  | .run i s => afterExec (exec i s)
  | .none s => .next (settleStep s)

theorem issueCore_eq (s : State) (c : Nat) : issueCore s c = runReady (readyIssue s c) := by
  unfold issueCore; cases readyIssue s c <;> rfl

/-- A step whose agenda names a core that may issue. -/
theorem step_issue {s : State} {c p : Nat} {r : List Choice} (ha : s.agenda = .issue c :: r) (ready : s.ready = true)
    (issuer : (core s c).issue = some p)
    (time : (core s c).nextIssue ≤ s.time) (calm : (part s p).entering = none) (landed : (part s p).flights = [])
    (going : (part s p).restarting = false) (unseen : (part s p).fetchSeen = none) :
    step s = runReady (readyOf p (fetchInstr { lookAll s with agenda := r, cur := p } p)) := by
  have e := lookAll_eq s
  have may : mayIssue { lookAll s with agenda := r } c = true := by
    rw [e]
    show (s.ready && (core s c).issue.isSome && decide ((core s c).nextIssue ≤ s.time)) = true
    simp [ready, issuer, time]
  have stuck : { part (lookAll s) p with stuck := (part s p).stuck } = part s p := (looked_lookAll s).stuck p
  have fetched := readyIssue_fetch (s := { lookAll s with agenda := r }) (c := c) (p := p) (by rw [e]; exact issuer)
      ((congrArg Part.entering stuck).trans calm)
    ((congrArg Part.flights stuck).trans landed) ((congrArg Part.restarting stuck).trans going) ((congrArg Part.fetchSeen stuck).trans unseen)
  exact (step_cons ha).trans ((if_pos may).trans ((issueCore_eq _ c).trans (congrArg runReady fetched)))

/-! ## What the fetch of an instruction finds -/

section
variable {s u v : State} {p w0 : Nat} {ws : List Nat}

theorem fetchInstr_denied {va : Nat} (h : fetchWord s (ctxOf s p .control) (part s p).pc.toNat = (u, .denied va)) : fetchInstr s p = (u,
    .denied va 0) := by
  simp only [fetchInstr, h]

theorem fetchInstr_bad (h : fetchWord s (ctxOf s p .control) (part s p).pc.toNat = (u, .bad)) : fetchInstr s p = (u, .bad 0) := by
  simp only [fetchInstr, h]

theorem fetchInstr_unmapped {va : Nat} (h : fetchWord s (ctxOf s p .control) (part s p).pc.toNat = (u, .unmapped va)) : fetchInstr s p = (u,
    .unmapped 0) := by
  simp only [fetchInstr, h]

variable (h : fetchWord s (ctxOf s p .control) (part s p).pc.toNat = (u, .word w0))
include h

theorem fetchInstr_instr {i : Instr} (hr : fetchRest u (ctxOf s p .control) (part s p).pc.toNat (wordCount w0 - 1) [w0] = (v, .ok ws))
    (hd : decodeWords w0 (ws.getD 1 0) (ws.getD 2 0) = .ok i) : fetchInstr s p = (v, .instr i) := by
  simp only [fetchInstr, h, hr, hd]

theorem fetchInstr_illegal {e : DecodeError} (hr : fetchRest u (ctxOf s p .control) (part s p).pc.toNat (wordCount w0 - 1) [w0] = (v, .ok ws))
    (hd : decodeWords w0 (ws.getD 1 0) (ws.getD 2 0) = .error e) : fetchInstr s p = (v, .illegal w0 (ws.getD 1 0)) := by
  simp only [fetchInstr, h, hr, hd]

theorem fetchInstr_denied_rest {va : Nat} (hr : fetchRest u (ctxOf s p .control) (part s p).pc.toNat (wordCount w0 - 1) [w0] = (v,
    .error (.denied va))) :
    fetchInstr s p = (v, .denied va w0) := by
  simp only [fetchInstr, h, hr]

theorem fetchInstr_unmapped_rest {va : Nat} (hr : fetchRest u (ctxOf s p .control) (part s p).pc.toNat (wordCount w0 - 1) [w0] = (v,
    .error (.unmapped va))) :
    fetchInstr s p = (v, .unmapped w0) := by
  simp only [fetchInstr, h, hr]

end

theorem fetchWord_word {s u : State} {c : Ctx} {va : Nat} {bs : List Byte} (untested : slicesTested s = [])
    (may : mayExecute s c.asid va = some true)
    (read : readVa s c va 4 0 = (u, .ok bs)) : fetchWord s c va = (u, .word (leNat bs)) := by
  simp only [fetchWord, waitsHome_untested untested, Bool.false_eq_true, ↓reduceIte, may, read]

/-! ## An empty agenda -/

theorem firstCore_lookAll (s : State) : firstCore (lookAll s) = firstCore s := by rw [lookAll_eq s]; rfl

section
variable {s : State} (agenda : s.agenda = []) (ready : s.ready = true) (boot : s.bootCode = 0)
  (idle : firstChange (lookAll s) (dueEvents (lookAll s)) = none)
include agenda ready boot idle

theorem step_firstCore {c : Nat} (first : firstCore s = some c) : step s = issueCore (lookAll s) c := by
  have hready : (lookAll s).ready = true := (congrArg State.ready (lookAll_eq s)).trans ready
  rw [step_nil agenda boot, ownStep, if_neg (by simp [hready]), idle, firstCore_lookAll, first]

theorem step_noCore (first : firstCore s = none) : step s = .next { lookAll s with time := s.time + 1 } := by
  have hready : (lookAll s).ready = true := (congrArg State.ready (lookAll_eq s)).trans ready
  have htime : (lookAll s).time = s.time := (congrArg State.time (lookAll_eq s) :)
  rw [step_nil agenda boot, ownStep, if_neg (by simp [hready]), idle, firstCore_lookAll, first, htime]

end

/-- Settles O51: the look ahead changes nothing that the issue reads (`lookAll_eq`), and each outcome of the fetch has its `fetchInstr` lemma. -/
theorem stepRunsTheDecodedWord : Obligations.StepRunsTheDecodedWord := by
  refine ⟨?_, fun s u c va bs => fetchWord_word, fun s i r ha he => ?_, fun s ha ready boot idle => ⟨fun c hc => ?_, fun hc => ?_⟩,
    fun s => ⟨(looked_lookAll s).rest, (looked_lookAll s).stuck, (looked_lookAll s).issuer⟩⟩
  · intro s u v c p w0 ws r ha ready issuer time calm landed going unseen s0 pc
    have step := step_issue ha ready issuer time calm landed going unseen
    have hpc : (part s0 p).pc.toNat = pc := (congrArg (fun x : Part => x.pc.toNat) ((looked_lookAll s).stuck p) :)
    refine ⟨fun hw hr => ⟨fun i hd => ?_, fun e hd => ?_⟩, fun va hw => ?_, fun hw => ⟨fun va hr away => ?_, fun va hr => ?_⟩, fun hw => ?_,
        fun va hw => ?_⟩ <;>
      rw [← hpc] at hw
    · rw [← hpc] at hr; rw [step, fetchInstr_instr hw hr hd]; rfl
    · rw [← hpc] at hr; rw [step, fetchInstr_illegal hw hr hd]; rfl
    · rw [step, fetchInstr_denied hw]; rfl
    · rw [← hpc] at hr; rw [step, fetchInstr_denied_rest hw hr, readyOf, away]; rfl
    · rw [← hpc] at hr; rw [step, fetchInstr_unmapped_rest hw hr]; rfl
    · rw [step, fetchInstr_bad hw]; rfl
    · rw [step, fetchInstr_unmapped hw]; rfl
  · rw [step_cons ha, takeChoice, if_pos he]
  · exact step_firstCore ha ready boot idle hc
  · exact step_noCore ha ready boot idle hc

end Sys2Proof.Machine.Proofs
end

section
/-! PROOFS. The start and the completion of commands (R13, R15), the fill of a shape (R110), a step of a nest (R147, R149) and an epilogue (R156, R157). -/

namespace Sys2Proof.Machine.Proofs

open Sys2Proof Sys2Proof.Machine Sys2Proof.Machine.Safety Sys2Proof.Machine.Laws

/-! ## Sparse arrays in rising order -/

theorem modPart_congr {s : State} {p : Nat} {f g : Part → Part} (h : f (part s p) = g (part s p)) : modPart s p f = modPart s p g := by
  rw [modPart, modPart, h]

/-- The numbers of a sparse array rise. -/
def Rising {α : Type} (m : FMap α) : Prop := m.Pairwise fun a b => a.1 < b.1

theorem fget_eq_none_of_lt {α : Type} {m : FMap α} {k : Nat} (h : ∀ e ∈ m, k < e.1) : fget m k = none := by
  induction m with
  | nil => rfl
  | cons e r ih =>
    have hk : k ≠ e.1 := (h e List.mem_cons_self).ne
    rw [fget, if_neg hk, ih fun e' he => h e' (List.mem_cons_of_mem e he)]

theorem fget_fdel {α : Type} {m : FMap α} (hm : Rising m) (j k : Nat) : fget (fdel m k) j = if j = k then none else fget m j := by
  induction m with
  | nil => simp [fdel, fget]
  | cons e r ih =>
    obtain ⟨he, hr⟩ := List.pairwise_cons.mp hm
    obtain ⟨k', v⟩ := e
    by_cases hk : k = k'
    · subst hk
      rw [fdel, if_pos rfl]
      split
      next h => rw [h]; exact fget_eq_none_of_lt fun e he' => he e he'
      next h => rw [fget, if_neg h]
    · rw [fdel, if_neg hk, fget, fget, ih hr]
      split <;> split <;> simp_all

theorem mem_fdel {α : Type} {m : FMap α} {k : Nat} {e : Nat × α} (h : e ∈ fdel m k) : e ∈ m := by
  induction m with
  | nil => exact h
  | cons a r ih =>
    obtain ⟨k', v⟩ := a
    rw [fdel] at h
    split at h
    · exact List.mem_cons_of_mem _ h
    · exact (List.mem_cons.mp h).elim (fun h => h ▸ List.mem_cons_self) fun h => List.mem_cons_of_mem _ (ih h)

theorem rising_fdel {α : Type} {m : FMap α} (hm : Rising m) (k : Nat) : Rising (fdel m k) := by
  induction m with
  | nil => exact hm
  | cons e r ih =>
    obtain ⟨he, hr⟩ := List.pairwise_cons.mp hm
    obtain ⟨k', v⟩ := e
    rw [fdel]
    split
    · exact hr
    · exact List.pairwise_cons.mpr ⟨fun e h => he e (mem_fdel h), ih hr⟩

theorem mem_fput {α : Type} {m : FMap α} {k : Nat} {v : α} {e : Nat × α} (h : e ∈ fput m k v) : e = (k, v) ∨ e ∈ m := by
  induction m with
  | nil => exact .inl (by simpa [fput] using h)
  | cons a r ih =>
    obtain ⟨k', v'⟩ := a
    rw [fput] at h
    split at h
    · exact (List.mem_cons.mp h)
    split at h
    · exact (List.mem_cons.mp h).imp_right (List.mem_cons_of_mem _)
    · exact (List.mem_cons.mp h).elim (fun h => .inr (h ▸ List.mem_cons_self)) fun h => (ih h).imp_right (List.mem_cons_of_mem _)

theorem rising_fput {α : Type} {m : FMap α} (hm : Rising m) (k : Nat) (v : α) : Rising (fput m k v) := by
  induction m with
  | nil => exact List.pairwise_singleton _ _
  | cons e r ih =>
    obtain ⟨he, hr⟩ := List.pairwise_cons.mp hm
    obtain ⟨k', v'⟩ := e
    rw [fput]
    split
    next h => exact List.pairwise_cons.mpr ⟨fun e h' => (List.mem_cons.mp h').elim (fun h' => h' ▸ h) fun h' => h.trans (he e h'), hm⟩
    next h =>
    split
    next h' => exact List.pairwise_cons.mpr ⟨fun e h'' => h' ▸ he e h'', hr⟩
    next h' =>
      refine List.pairwise_cons.mpr ⟨fun e h'' => ?_, ih hr⟩
      rcases mem_fput h'' with rfl | h''
      · show k' < k; omega
      · exact he e h''

/-! ## The lanes of a vector register (R106) -/

/-- The lanes after a write of one; a lane of 0 is not listed. -/
def laneSet (m : FMap (BitVec 32)) (k n : Nat) : FMap (BitVec 32) := if n % 2 ^ 32 = 0 then fdel m k else fput m k (BitVec.ofNat 32 n)

theorem rising_laneSet {m : FMap (BitVec 32)} (hm : Rising m) (k n : Nat) : Rising (laneSet m k n) := by
  unfold laneSet; split
  · exact rising_fdel hm k
  · exact rising_fput hm k _

theorem fgetD_laneSet {m : FMap (BitVec 32)} (hm : Rising m) (k n : Nat) : (fgetD (laneSet m k n) k 0).toNat = n % 2 ^ 32 := by
  unfold laneSet; split
  next h => rw [fgetD, fget_fdel hm, if_pos rfl, h]; rfl
  next h => rw [fgetD_fput_same, BitVec.toNat_ofNat]

theorem fgetD_laneSet_other {m : FMap (BitVec 32)} (hm : Rising m) {j k : Nat} (n : Nat) (h : j ≠ k) : fgetD (laneSet m k n) j 0 = fgetD m j 0 := by
  unfold laneSet; split
  · rw [fgetD, fgetD, fget_fdel hm, if_neg h]
  · exact fgetD_fput_other m _ 0 h

/-- The lanes after a write of lanes of register `v`. -/
def lanesAfter (m : FMap (BitVec 32)) (v : Nat) (l : List ((Nat × Nat) × Nat)) : FMap (BitVec 32) :=
  l.foldl (fun m e => laneSet m (laneKey v e.1.1 e.1.2) e.2) m

theorem lanesAfter_cons (m : FMap (BitVec 32)) (v : Nat) (e : (Nat × Nat) × Nat) (l : List ((Nat × Nat) × Nat)) :
    lanesAfter m v (e :: l) = lanesAfter (laneSet m (laneKey v e.1.1 e.1.2) e.2) v l := rfl

theorem writeLanes_eq (x : Part) (v : Nat) (l : List ((Nat × Nat) × Nat)) : writeLanes x v l = { x with vregs := lanesAfter x.vregs v l } := by
  unfold writeLanes
  induction l generalizing x with
  | nil => rfl
  | cons e l ih => rw [List.foldl_cons, ih]; rfl

theorem fillShape_eq (x : Part) (v : Nat) (f : Nat → Nat → Nat) :
    fillShape x v f = { x with vregs := lanesAfter x.vregs v ((shapeCells x).map fun e => (e, f e.1 e.2)) } := writeLanes_eq ..

/-- A lane that the list does not name keeps its value. -/
theorem fgetD_lanesAfter_other {m : FMap (BitVec 32)} (hm : Rising m) (v k : Nat) (l : List ((Nat × Nat) × Nat))
    (h : ∀ e ∈ l, laneKey v e.1.1 e.1.2 ≠ k) : fgetD (lanesAfter m v l) k 0 = fgetD m k 0 := by
  induction l generalizing m with
  | nil => rfl
  | cons e l ih =>
    rw [lanesAfter_cons, ih (rising_laneSet hm _ _) fun e' he' => h e' (List.mem_cons_of_mem e he'),
      fgetD_laneSet_other hm _ (h e List.mem_cons_self).symm]

/-- A lane that just one entry of the list names holds that entry's value. -/
theorem fgetD_lanesAfter {m : FMap (BitVec 32)} (hm : Rising m) (v : Nat) (f : Nat → Nat → Nat) {l : List (Nat × Nat)} {c : Nat × Nat} (hc : c ∈ l)
    (inj : ∀ e ∈ l, laneKey v e.1 e.2 = laneKey v c.1 c.2 → e = c) :
    (fgetD (lanesAfter m v (l.map fun e => (e, f e.1 e.2))) (laneKey v c.1 c.2) 0).toNat = f c.1 c.2 % 2 ^ 32 := by
  induction l generalizing m with
  | nil => exact absurd hc List.not_mem_nil
  | cons e l ih =>
    have hl := fun e' he' => inj e' (List.mem_cons_of_mem e he')
    rw [List.map_cons, lanesAfter_cons]
    by_cases hin : c ∈ l
    · exact ih (rising_laneSet hm _ _) hin hl
    · obtain rfl : c = e := (List.mem_cons.mp hc).resolve_right hin
      rw [fgetD_lanesAfter_other (rising_laneSet hm _ _), fgetD_laneSet hm]
      intro e' he' h
      obtain ⟨e'', hmem, rfl⟩ := List.mem_map.mp he'
      exact hin (hl e'' hmem h ▸ hmem)

theorem mem_shapeCells {x : Part} {i j : Nat} : (i, j) ∈ shapeCells x ↔ i < x.shapeRows ∧ j < x.shapeCols := by
  simp [shapeCells]

theorem laneKey_inj {v w i j i' j' : Nat} (hi : i < 16) (hj : j < 64) (hi' : i' < 16) (hj' : j' < 64) (h : laneKey v i j = laneKey w i' j') :
    v = w ∧ i = i' ∧ j = j' := by
  unfold laneKey at h; omega

/-- A lane of the shape holds what the fill gives it (R110). -/
theorem lane_fillShape {x : Part} (rows : x.shapeRows ≤ 16) (cols : x.shapeCols ≤ 64) (rising : Rising x.vregs) (v : Nat)
    (f : Nat → Nat → Nat) {i j : Nat}
    (hi : i < x.shapeRows) (hj : j < x.shapeCols) : lane (fillShape x v f) v i j = f i j % 2 ^ 32 := by
  rw [fillShape_eq]
  refine fgetD_lanesAfter rising v f (mem_shapeCells.mpr ⟨hi, hj⟩) fun e he h => ?_
  obtain ⟨hr, hc⟩ := mem_shapeCells.mp he
  obtain ⟨-, h1, h2⟩ := laneKey_inj (by omega) (by omega) (by omega) (by omega) h
  exact Prod.ext h1 h2

/-- A lane of another register, or outside the shape, keeps its value. -/
theorem lane_fillShape_other {x : Part} (rows : x.shapeRows ≤ 16) (cols : x.shapeCols ≤ 64) (rising : Rising x.vregs) (v : Nat)
    (f : Nat → Nat → Nat) {w i j : Nat}
    (hi : i < 16) (hj : j < 64) (out : w ≠ v ∨ x.shapeRows ≤ i ∨ x.shapeCols ≤ j) : lane (fillShape x v f) w i j = lane x w i j := by
  have clear : ∀ e ∈ (shapeCells x).map (fun e => (e, f e.1 e.2)), laneKey v e.1.1 e.1.2 ≠ laneKey w i j := by
    intro e he h
    obtain ⟨⟨r, c⟩, hmem, rfl⟩ := List.mem_map.mp he
    obtain ⟨hr, hc⟩ := mem_shapeCells.mp hmem
    obtain ⟨h0, h1, h2⟩ := laneKey_inj (i := r) (j := c) (by omega) (by omega) hi hj h
    omega
  rw [lane, lane, fillShape_eq, fgetD_lanesAfter_other rising v _ _ clear]

/-! ## The start of a command (R13) -/

theorem exec_commandStart_eq (s : State) (p k : Nat) : exec (.commandStart p k) s = .next (startCommand s p k) := rfl

theorem retestRings_idle {s : State} (h : ∀ q, q < 4 → (quarter s q).held2 = []) : retestRings s = s := by
  simp [retestRings, h]

theorem postReady_idle {s : State} {p : Nat} (h : (part s p).posts = []) : postReady s p = s := by
  rw [postReady, h, List.foldl_nil]

/-- The run of a command of the vector engine or the mangle when it starts. -/
def freshRun (c : Cmd) : Run := { cmd := c, count := 0, state := .waiting, tookLeave := false, lost := false, added := false, step := 0, rows := [] }

/-- The run of a command whose work is done. -/
def doneRun (c : Cmd) : Run := { cmd := c, count := 0, state := .done, tookLeave := false, lost := false, added := false, step := 0, rows := [] }

/-- What the head of an idle queue of the vector engine or the mangle needs to start (R13, R15, R110, R154). -/
structure Startable (s : State) (p k : Nat) (c : Cmd) (r : List Cmd) (m : FMap Nat) : Prop where
  engine : 1 ≤ k ∧ k ≤ 2
  queue : cmdQueue s p k = { queued := c :: r, running := [], frozen := false }
  free : engineBusy s (coreOf p) k = false
  going : (part s p).preempted = false
  kept : (part s p).lostMangle = false
  holder : (core s (coreOf p)).holder = none
  posted : (part s p).posts = []
  mine : c.ctx.part = p
  rings : ∀ q, q < 4 → (quarter s q).held2 = []
  weights : weightFree s p c = true
  tokens : takeTokens (part s p).tokens (k + 1) (hdrOf c.word0).wp (hdrOf c.word0).wn = some m

theorem nextStart_startable {s : State} {p k : Nat} {c : Cmd} {r : List Cmd} {m : FMap Nat} (h : Startable s p k c r m) : nextStart s p k =
    some (c, m) := by
  obtain ⟨⟨hk1, hk2⟩, queue, free, going, kept, holder, -, -, -, weights, tokens⟩ := h
  have hk3 : k ≠ 3 := by omega
  have hk4 : k ≠ 4 := by omega
  have engine : engineFree s p k c = true := by
    simp only [engineFree, queue, free, hk3, ↓reduceIte, Bool.false_eq_true, and_false]
    split <;> rfl
  have mangle : mangleFree s p = true := by simp only [mangleFree, holder]
  have pools : poolsChange s k c = false := by simp [poolsChange, hk3, hk4]
  simp [nextStart, queue, going, kept, engine, mangle, pools, weights, tokens, show ¬ 3 ≤ k by omega]

/-- A partition whose queue `k` has taken up the command `c`. -/
def takenUp (k : Nat) (c : Cmd) (r : List Cmd) (m : FMap Nat) (x : Part) : Part :=
  { x with tokens := m, queues := fput x.queues k { queued := r, running := [freshRun c], frozen := false } }

theorem modQueue_takenUp {s : State} {p k : Nat} {c : Cmd} {r : List Cmd}
    (queue : cmdQueue s p k = { queued := c :: r, running := [], frozen := false }) (m : FMap Nat) :
    modQueue (modPart s p fun x => { x with tokens := m }) p k (fun q => { q with queued := q.queued.tail, running := q.running ++ [freshRun c] }) =
      modPart s p (takenUp k c r m) := by
  rw [cmdQueue] at queue
  rw [modQueue, modPart_modPart]
  refine modPart_congr ?_
  simp only [queue, List.tail_cons, List.nil_append, takenUp]

/-- The run of a command goes on as its work left it. -/
theorem setRun_takenUp {g : Part → Part} (keep : ∀ x q, g { x with queues := q } = { g x with queues := q }) (s : State) (p k : Nat)
    (c : Cmd) (r : List Cmd) (m : FMap Nat) :
    setRun (modPart (modPart s p (takenUp k c r m)) p g) p k (doneRun c) = modPart s p fun x => { g { x with tokens := m } with
      queues := fput x.queues k { queued := r, running := [doneRun c], frozen := false } } := by
  rw [setRun, modQueue, modPart_modPart, modPart_modPart]
  refine modPart_congr ?_
  have e : g (takenUp k c r m (part s p)) = { g { part s p with tokens := m } with queues := (takenUp k c r m (part s p)).queues } := keep
      { part s p with tokens := m } _
  rw [e]
  simp [takenUp, freshRun, doneRun]

/-- A startable command whose work only changes its partition starts and is done: its tokens are taken, and it stands in its queue as done. -/
theorem exec_commandStart {s : State} {p k : Nat} {c : Cmd} {r : List Cmd} {m : FMap Nat} (h : Startable s p k c r m) {g : Part → Part}
    (keep : ∀ x q, g { x with queues := q } = { g x with queues := q })
    (works : ∀ t, (part t p).shapeType = (part s p).shapeType → (work k (freshRun c)).go t = (.ok ((freshRun c).finish 0), modPart t p g)) :
    exec (.commandStart p k) s = .next (modPart s p fun x => { g { x with tokens := m } with
      queues := fput x.queues k { queued := r, running := [doneRun c], frozen := false } }) := by
  have next := nextStart_startable h
  have hk0 : k ≠ 0 := by have := h.engine; omega
  have hposts : (part (modPart s p fun x => { x with tokens := m }) p).posts = [] := by rw [part_modPart, h.posted]
  have hwork := works (modPart s p (takenUp k c r m)) (by rw [part_modPart]; rfl)
  have hfresh : ({ cmd := c, count := 0, state := .waiting, tookLeave := false, lost := false, added := false, step := 0, rows := [], formats := [] } : Run) = freshRun c := rfl
  have hdone (b : Bool) : ((freshRun c).finish 0).pauseIf b = doneRun c := by simp [Run.pauseIf, Run.finish, freshRun, doneRun]
  rw [exec_commandStart_eq, startCommand, next]
  dsimp only
  rw [postReady_idle hposts, if_neg hk0, hfresh, modQueue_takenUp h.queue, if_neg (by simp [h.holder]), attempt, hwork]
  dsimp only
  rw [hdone, setRun_takenUp keep, retestRings_idle (by simpa using h.rings)]

/-! ## The work of the shadow writers and of the arithmetic and logic commands -/

/-- The lane of an integer element after an arithmetic command: wrapped, or clamped with `sat` (R118). -/
theorem arith_int {t : Nat} (ht : isInt t = true) (op : VOp) (sat : Bool) (a b c : Nat) : arith t op sat a b c =
    intBits (if sat then max (intRange t).1 (min (intRange t).2 (intOp op (decodeI t a) (decodeI t b) (decodeI t c)))
      else intOp op (decodeI t a) (decodeI t b) (decodeI t c)) (tyWidth t) := by
  have range : 7 ≤ t ∧ t ≤ 10 := by simpa [isInt] using ht
  have order : (intRange t).1 ≤ (intRange t).2 := by
    obtain rfl | rfl | rfl | rfl : t = 7 ∨ t = 8 ∨ t = 9 ∨ t = 10 := by omega
    all_goals decide
  have float : isFloat t = false := by simp [isFloat]; omega
  rw [arith, float, if_neg (by decide), reduceInt, satInt]
  generalize intOp op (decodeI t a) (decodeI t b) (decodeI t c) = v
  congr 2
  omega

/-- The pc of a restart word, from the offset of `mrst` (R161). -/
theorem w64_intBits (v : Int) : w64 (intBits v 64) = BitVec.ofInt 64 v := by
  apply BitVec.eq_of_toNat_eq
  simp only [w64, intBits, BitVec.toNat_ofNat, BitVec.toNat_ofInt]
  omega

/-- What an arithmetic command does where its checks pass (R116). -/
theorem workArith_go {r : Run} {t : State} {sat : Bool} (check : arithCheck (cmdPart t r.cmd) sat = true) (op : VOp) (sb : Bool) (vd va vb vc : Nat) :
    (workArith r op sb sat vd va vb vc).go t = (.ok (r.finish 0), modPart t r.cmd.ctx.part fun x => fillShape x vd fun i j =>
      arith x.shapeType op sat (elem x va i j) (operandB x r.cmd sb vb i j) (elem x vc i j)) := by
  have e : (workArith r op sb sat vd va vb vc).go t = (do
      shapeCheck (arithCheck (cmdPart t r.cmd) sat)
      vecDone r fun x => fillShape x vd fun i j => arith x.shapeType op sat (elem x va i j) (operandB x r.cmd sb vb i j) (elem x vc i j) :
          Eng Run).go t := rfl
  rw [e, check]; rfl

theorem fillShape_queues (x : Part) (q : FMap CmdQueue) (v : Nat) (f : Nat → Nat → Nat) : fillShape { x with queues := q } v f =
    { fillShape x v f with queues := q } := by
  rw [fillShape_eq, fillShape_eq]; rfl

theorem isInt_arithCheck {x : Part} (h : isInt x.shapeType = true) (sat : Bool) : arithCheck x sat = true := by
  have range : 7 ≤ x.shapeType ∧ x.shapeType ≤ 10 := by simpa [isInt] using h
  have float : isFloat x.shapeType = false := by simp [isFloat]; omega
  simp [arithCheck, h, float]

/-- The command at the head of queue `k` starts: what its work does to the partition is `f`. -/
def Starts (s : State) (p k : Nat) (c : Cmd) (r : List Cmd) (m : FMap Nat) (f : Part → Part) : Prop :=
  exec (.commandStart p k) s = .next (modPart s p fun x => { f { x with tokens := m } with
    queues := fput x.queues k { queued := r, running := [doneRun c], frozen := false } })

section
variable {s : State} {p k : Nat} {c : Cmd} {r : List Cmd} {m : FMap Nat}

/-- A shadow writer changes its partition's matrix state alone (R154). -/
theorem shadow_starts (h : Startable s p k c r m) {f : Part → Part} (keep : ∀ x q, f { x with queues := q } = { f x with queues := q })
    (works : work k (freshRun c) = matDone (freshRun c) f) : Starts s p k c r m f :=
  exec_commandStart h keep fun t _ => by rw [works, ← h.mine]; rfl

/-- A fill of the shape of a register, from the lanes as they are at the start (R110). -/
theorem fill_starts (h : Startable s p k c r m) {vd : Nat} {lanes : Part → Nat → Nat → Nat} {f : Nat → Nat → Nat}
    (unqueued : ∀ x q, lanes { x with queues := q } = lanes x) (taken : lanes { part s p with tokens := m } = f)
    (works : ∀ t, (part t p).shapeType = (part s p).shapeType → (work k (freshRun c)).go t =
        (.ok ((freshRun c).finish 0), modPart t p fun x => fillShape x vd (lanes x))) :
    Starts s p k c r m fun y => fillShape y vd f := by
  have keep (x : Part) (q : FMap CmdQueue) : fillShape { x with queues := q } vd (lanes { x with queues := q }) =
      { fillShape x vd (lanes x) with queues := q } := by
    rw [fillShape_queues, unqueued]
  refine (exec_commandStart h keep works).trans (congrArg _ (modPart_congr ?_))
  dsimp only
  rw [taken]

/-- An integer command fills the shape with its wrapped or clamped results (R116, R118). -/
theorem arith_starts (h : Startable s p 1 c r m) {op : VOp} {sb sat : Bool} {vd va vb : Nat}
    (works : workVector (freshRun c) = workArith (freshRun c) op sb sat vd va vb 0)
    (int : isInt (part s p).shapeType = true) : let x := part s p
    Starts s p 1 c r m fun y => fillShape y vd fun i j =>
      intBits (if sat then max (intRange x.shapeType).1
          (min (intRange x.shapeType).2 (intOp op (decodeI x.shapeType (elem x va i j)) (decodeI x.shapeType (operandB x c sb vb i j))
          (decodeI x.shapeType (elem x 0 i j))))
        else intOp op (decodeI x.shapeType (elem x va i j)) (decodeI x.shapeType (operandB x c sb vb i j))
            (decodeI x.shapeType (elem x 0 i j))) (tyWidth x.shapeType) := by
  intro x
  refine fill_starts h (lanes := fun x i j => arith x.shapeType op sat (elem x va i j) (operandB x c sb vb i j) (elem x 0 i j))
      (fun _ _ => rfl) ?_ fun t ht => ?_
  · funext i j; exact arith_int int op sat ..
  · have check : arithCheck (cmdPart t c) sat = true := isInt_arithCheck (by rw [cmdPart, h.mine, ht]; exact int) sat
    rw [show work 1 (freshRun c) = workVector (freshRun c) from rfl, works, workArith_go check, ← h.mine]; rfl

/-- A logic command fills the shape with its results (R120). -/
theorem logic_starts (h : Startable s p 1 c r m) {op : LOp} {f : Nat → Nat → Nat} {sb : Bool} {vd va vb : Nat}
    (works : workVector (freshRun c) = workLogic (freshRun c) op sb vd va vb)
    (lane : ∀ t, logic t op = f) : let x := part s p
    Starts s p 1 c r m fun y => fillShape y vd fun i j => f (elem x va i j) (operandB x c sb vb i j) := by
  intro x
  refine fill_starts h (lanes := fun x i j => logic x.shapeType op (elem x va i j) (operandB x c sb vb i j)) (fun _ _ => rfl) ?_ fun t _ => ?_
  · funext i j; rw [lane]; rfl
  · rw [show work 1 (freshRun c) = workVector (freshRun c) from rfl, works, ← h.mine]; rfl

end

/-! ## The completion of a command (R15, R93) -/

theorem exec_commandComplete_eq (s : State) (p k id : Nat) : exec (.commandComplete p k id) s = .next (completeCommand s p k id) := rfl

/-- The run of a command whose add is made, while its tokens are to be posted. -/
def postingRun (r : Run) : Run := { r with state := .posting, tookLeave := false }

/-- A command whose work is done and whose add is made and its writes performed, alone in its engine, and with nothing else to settle. -/
structure Completable (s : State) (p k : Nat) (r : Run) (q : List Cmd) : Prop where
  engine : k < 3
  queue : cmdQueue s p k = { queued := q, running := [r], frozen := false }
  done : r.state = .done
  added : r.added = true
  performed : writesDone s p r.cmd.id = true
  unheld : r.cmd.held = []
  leaveless : leaveClass r.cmd.instr = none
  uncirculated : ∀ h a b ka src hint len, r.cmd.instr ≠ .cpy h a b ka src 2 hint len
  unowed : (core s (coreOf p)).epiAdds = []

theorem findRun_head {s : State} {p k : Nat} {r : Run} {q : List Cmd} {f : Bool} (h : cmdQueue s p k = { queued := q, running := [r], frozen := f }) :
    findRun s p k r.cmd.id = some r := by simp [findRun, h]

theorem settleAdds_none {s : State} {c : Nat} (h : (core s c).epiAdds = []) : settleAdds s c = s := by rw [settleAdds, h, List.foldl_nil]

/-- What comes before the posts: the command only takes its place among those that post. -/
theorem settle_completable {s : State} {p k : Nat} {r : Run} {q : List Cmd} (h : Completable s p k r q) :
    settle (addDue (nestEnds (goOn s p k r.cmd.id) p k r.cmd.id) p k r.cmd.id) p k r.cmd.id = setRun s p k (postingRun r) := by
  obtain ⟨engine, queue, done, added, performed, unheld, leaveless, uncirculated, unowed⟩ := h
  have find := findRun_head queue
  have e1 : goOn s p k r.cmd.id = s := by simp [goOn, find, show k ≠ 3 by omega]
  have e2 : nestEnds s p k r.cmd.id = s := by simp [nestEnds, settleAdds_none unowed, find, done]
  have e3 : addDue s p k r.cmd.id = s := by simp [addDue, find, added]
  have e4 : dropLeave (setRun s p k (postingRun r)) p r = setRun s p k (postingRun r) := by rw [dropLeave, leaveless]
  have e5 : setRun s p k { r with state := .posting, tookLeave := false } = setRun s p k (postingRun r) := rfl
  rw [e1, e2, e3, settle, find]
  dsimp only
  rw [if_pos ⟨done, added, performed⟩, e5, e4, if_pos unheld]
  split
  next h a b ka src dst hint len hi =>
    rw [if_neg]
    rintro rfl
    exact uncirculated _ _ _ _ _ _ _ hi
  next => rfl

theorem setRun_head {s : State} {p k : Nat} {r r' : Run} {q : List Cmd} {f : Bool}
    (h : cmdQueue s p k = { queued := q, running := [r], frozen := f }) (hid : r'.cmd.id = r.cmd.id) :
    setRun s p k r' = modPart s p fun x => { x with queues := fput x.queues k { queued := q, running := [r'], frozen := f } } := by
  rw [cmdQueue] at h
  rw [setRun, modQueue]
  exact modPart_congr (by simp [h, hid])

theorem cmdQueue_modPart_queues (s : State) (p k : Nat) (q : CmdQueue) :
    cmdQueue (modPart s p fun x => { x with queues := fput x.queues k q }) p k = q := by
  simp [cmdQueue]

/-- The state in which a command waits to post its tokens. -/
def postingState (s : State) (p k : Nat) (r : Run) (q : List Cmd) : State :=
  modPart s p fun x => { x with queues := fput x.queues k { queued := q, running := [postingRun r], frozen := false } }

theorem completeCommand_completable {s : State} {p k : Nat} {r : Run} {q : List Cmd} (h : Completable s p k r q) :
    completeCommand s p k r.cmd.id = postDue (postingState s p k r q) p k r.cmd.id := by
  rw [completeCommand, settle_completable h, setRun_head h.queue (r' := postingRun r) rfl, postingState]

/-- Where there is no room for its tokens, a command goes on waiting (R16). -/
theorem completeCommand_full {s : State} {p k : Nat} {r : Run} {q : List Cmd} (h : Completable s p k r q)
    (full : putTokens (part s p).tokens (k + 1) (hdrOf r.cmd.word0).sp (hdrOf r.cmd.word0).sn = none) : completeCommand s p k r.cmd.id =
        postingState s p k r q := by
  have find : findRun (postingState s p k r q) p k r.cmd.id = some (postingRun r) := findRun_head (cmdQueue_modPart_queues ..)
  have tokens : (part (postingState s p k r q) p).tokens = (part s p).tokens := by rw [postingState, part_modPart]
  rw [completeCommand_completable h, postDue, find]
  dsimp only
  rw [if_neg (by simp [postingRun]), if_pos h.engine, tokens, show (postingRun r).cmd = r.cmd from rfl, full]

/-- A command that finds room for its tokens posts them and leaves its engine (R15). -/
theorem completeCommand_room {s : State} {p k : Nat} {r : Run} {q : List Cmd} {m : FMap Nat} (h : Completable s p k r q)
    (room : putTokens (part s p).tokens (k + 1) (hdrOf r.cmd.word0).sp (hdrOf r.cmd.word0).sn = some m) :
    completeCommand s p k r.cmd.id = modPart s p fun x =>
        { x with tokens := m, queues := fput x.queues k { queued := q, running := [], frozen := false } } := by
  have find : findRun (postingState s p k r q) p k r.cmd.id = some (postingRun r) := findRun_head (cmdQueue_modPart_queues ..)
  have tokens : (part (postingState s p k r q) p).tokens = (part s p).tokens := by rw [postingState, part_modPart]
  rw [completeCommand_completable h, postDue, find]
  dsimp only
  rw [if_neg (by simp [postingRun]), if_pos h.engine, tokens, show (postingRun r).cmd = r.cmd from rfl, room]
  dsimp only
  rw [modQueue, postingState, modPart_modPart, modPart_modPart]
  exact modPart_congr (by simp [postingRun])

/-! ## A step of a nest (R147, R149) -/

theorem exec_nestStep_eq (s : State) (c : Nat) : exec (.nestStep c) s = .next (nestNext s c) := rfl

theorem modCore_modCore (s : State) (c : Nat) (f g : Core → Core) : modCore (modCore s c f) c g = modCore s c fun x => g (f x) := by
  simp only [modCore, core_setCore, setCore_setCore]

/-- A step over scratchpad operands that ends no iteration with an action. -/
theorem runStep_plain {s : State} {c : Nat} {n : Nest} (ra rb : List OpRow) (a : srcA n = 0) (b : srcB n = 0)
    (plain : boundary (nestIndex n n.steps) (trips n) (actions n) 0 = 0) :
    runStep s c n ra rb = modCore s c fun x => { stepAcc x n.cur n.ints ra rb with nest := some { n with steps := n.steps + 1 } } := by
  have links : sourceLinks n = [] := by simp [sourceLinks, a, b]
  have left (t : State) : releaseOperand t c n false = (t, n.releasedA) := by simp [releaseOperand, a]
  have right (t : State) : releaseOperand t c n true = (t, n.releasedB) := by simp [releaseOperand, b]
  rw [runStep, links, plain]
  simp only [List.foldl_nil, left, right, ↓reduceIte, modCore_modCore]

/-- Steps remain: the nest does not end. -/
theorem endSteps_running {s : State} {c : Nat} {n : Nest} (nest : (core s c).nest = some n) (more : n.steps < totalSteps n) : endSteps s c = s := by
  rw [endSteps, nest]
  dsimp only
  rw [if_pos (.inr (.inr (.inl more)))]

theorem nestNext_step {s : State} {c : Nat} {n : Nest} {ra rb : List OpRow} (nest : (core s c).nest = some n) (going : n.ended = false)
    (leave : n.leave = false)
    (hold : n.hold = none) (a : srcA n = 0) (b : srcB n = 0) (more : n.steps + 1 < totalSteps n) (epi : (core s c).epi = none)
    (rowsA : operandRows (core s c) n false = some ra) (rowsB : operandRows (core s c) n true = some rb)
    (plain : boundary (nestIndex n n.steps) (trips n) (actions n) 0 = 0) :
    nestNext s c = modCore s c fun x => { stepAcc x n.cur n.ints ra rb with nest := some { n with steps := n.steps + 1 } } := by
  have unread : epiReads (core s c) n.cur = false := by rw [epiReads, epi]
  have step := runStep_plain (s := s) (c := c) ra rb a b plain
  have next : nestNext s c = endSteps (runStep s c n ra rb) c := by
    simp only [nestNext, nest, going, leave, hold, unread, rowsA, rowsB, Bool.false_eq_true, Bool.false_and, ↓reduceIte,
        show ¬ totalSteps n ≤ n.steps by omega]
  rw [next, step]
  exact endSteps_running (n := { n with steps := n.steps + 1 }) (by rw [core_modCore]) more

/-! ## The sums of a step (R147) -/

/-- Rows that no step of the fold names keep their value. -/
theorem fgetD_foldl_fput_other {α : Type} (base : Nat) (g : Nat → α → α) (d : α) (N : Nat) (m : FMap α) {k : Nat} (h : ∀ i < N, k ≠ base + i) :
    fgetD ((List.range N).foldl (fun m i => fput m (base + i) (g i (fgetD m (base + i) d))) m) k d = fgetD m k d := by
  induction N with
  | zero => rfl
  | succ N ih =>
    rw [List.range_succ, List.foldl_append, List.foldl_cons, List.foldl_nil, fgetD_fput_other _ _ _ (h N N.lt_succ_self)]
    exact ih fun i hi => h i (Nat.lt_succ_of_lt hi)

/-- Each row is changed once, from what it was. -/
theorem fgetD_foldl_fput {α : Type} (base : Nat) (g : Nat → α → α) (d : α) (N : Nat) (m : FMap α) {i : Nat} (hi : i < N) :
    fgetD ((List.range N).foldl (fun m i => fput m (base + i) (g i (fgetD m (base + i) d))) m) (base + i) d = g i (fgetD m (base + i) d) := by
  induction N with
  | zero => exact absurd hi (Nat.not_lt_zero i)
  | succ N ih =>
    rw [List.range_succ, List.foldl_append, List.foldl_cons, List.foldl_nil]
    rcases Nat.lt_succ_iff_lt_or_eq.mp hi with hlt | rfl
    · rw [fgetD_fput_other _ _ _ (by omega)]; exact ih hlt
    · rw [fgetD_fput_same, fgetD_foldl_fput_other base g d i m fun j hj => by omega]

/-- Row `i` of an accumulator after a step, from what it held. -/
def steppedRow (ints : Bool) (ra rb : List OpRow) (i : Nat) (old : List (BitVec 32)) : List (BitVec 32) :=
  (List.range 128).map fun j => stepElem ints (old.getD j 0) (ra.getD i ([], [])) (rb.getD j ([], []))

theorem stepAcc_row (x : Core) (n : Nat) (ints : Bool) (ra rb : List OpRow) {i : Nat} (hi : i < 128) :
    fgetD (stepAcc x n ints ra rb).acc (128 * n + i) [] = steppedRow ints ra rb i (fgetD x.acc (128 * n + i) []) := by
  have key := fgetD_foldl_fput (128 * n) (steppedRow ints ra rb) [] 128 x.acc hi
  simpa only [stepAcc, steppedRow] using key

/-- A sum clamped to 32 bits is its own 32-bit value. -/
theorem toInt_ofInt_clamp (v : Int) : (BitVec.ofInt 32 (min (max v (-2147483648)) 2147483647)).toInt = min (max v (-2147483648)) 2147483647 := by
  rw [BitVec.toInt_ofInt, Int.bmod_eq_of_le] <;> omega

theorem stepElem_int (acc : BitVec 32) (a b : OpRow) : (stepElem true acc a b).toInt = addGroupInt (addGroupInt acc.toInt 0 a b) 1 a b :=
  toInt_ofInt_clamp _

/-! ## An epilogue (R156, R157, R321) -/

theorem go_bind_ok {α β : Type} {m : Eng α} {s t : State} {a : α} (h : m.go s = (.ok a, t)) (f : α → Eng β) : (m >>= f).go s = (f a).go t := by
  have e : (m >>= f).go s = match m.go s with
    | (.ok a, t) => (f a).go t
    | (.error x, t) => (.error x, t) := by
    change (ExceptT.bindCont f (m.go s).1) (m.go s).2 = _
    rcases m.go s with ⟨_ | _, _⟩ <;> rfl
  rw [e, h]

/-- The state with packets under way, and the numbers of the pairs used up for them. -/
def withPackets (s : State) (n : FMap Nat) (ps : List Packet) : State := { s with sentNo := n, packets := s.packets ++ ps }

theorem core_withPackets (s : State) (n : FMap Nat) (ps : List Packet) (c : Nat) : core (withPackets s n ps) c = core s c := rfl

theorem modCore_withPackets (s : State) (n : FMap Nat) (ps : List Packet) (c : Nat) (f : Core → Core) :
    modCore (withPackets s n ps) c f = withPackets (modCore s c f) n ps := rfl

/-- Packets that leave for one device change the numbers of its pairs and the packets under way alone. -/
theorem foldl_sendPacket {α : Type} (agent dst : Nat) (f : α → Payload) (l : List α) (s : State) :
    ∃ n ps, l.foldl (fun s b => sendPacket s agent dst (f b)) s = withPackets s n ps ∧
      ps.map (fun p => (p.dst, p.body)) = l.map fun b => (dst, f b) := by
  induction l generalizing s with
  | nil => exact ⟨s.sentNo, [], by simp [withPackets], rfl⟩
  | cons b l ih =>
    obtain ⟨n, ps, h, hps⟩ := ih (sendPacket s agent dst (f b))
    refine ⟨n, { src := Config.device, agent := agent, seq := packetNo s agent dst, dst := dst, body := f b } :: ps, ?_, ?_⟩
    · rw [List.foldl_cons, h]
      simp only [withPackets, sendPacket, countPacket, List.append_assoc, List.singleton_append]
    · rw [List.map_cons, List.map_cons, hps]

/-- The scales of an epilogue without bands. -/
def unscaled : List Val := [.fin false 1 0, .fin false 1 0]

/-- The pieces in which values leave through a link tile queue of type `ty` (R310, R321). -/
def piecesOf (ty : Nat) (vals : List (List Val)) : List (Nat × List Byte) :=
  cut256 129 0 (tileBytes ty (vals.map fun vs => rowCodes ty 0 (ty == 5) (vs.map fun v => (v, 0))))

/-- The pieces of the C tile of an epilogue without bands. -/
def tilePieces (x : Core) (e : Epi) (ty : Nat) : List (Nat × List Byte) := piecesOf ty (epiValues x e ty unscaled unscaled)

/-- A link tile queue after a tile has gone into it: a credit is spent. -/
def sentLink (no k : Nat) (l : LinkQueue) : LinkQueue := { l with credits := l.credits - 1, heldSince := none }.noteSent no k

/-- The state in which the packets of a tile leave. -/
def linkTaken (s : State) (c : Nat) (e : Epi) (l : LinkQueue) (k : Nat) : State :=
  modLink s c (nfld e.nest.epiWord 9 4) (sentLink (packetNo s (agentNo e.nest.cmd.ctx.part .matrix) l.peerDev) k)

/-- The state after the push of a tile in `pieces`. -/
def pushed (s : State) (c : Nat) (e : Epi) (l : LinkQueue) (pieces : List (Nat × List Byte)) : State :=
  pieces.foldl (fun s b => sendPacket s (agentNo e.nest.cmd.ctx.part .matrix) l.peerDev (.tile l.peerCore l.peerQueue b.2))
      (linkTaken s c e l pieces.length)

theorem pushTile_go {s : State} {c : Nat} {e : Epi} {l : LinkQueue} (link : fgetD (core s c).links (nfld e.nest.epiWord 9 4) {} = l)
    (up : l.failed = false) (paired : l.paired = true) (credit : l.credits ≠ 0) (vals : List (List Val)) :
    (pushTile c e vals).go s = (.ok (), pushed s c e l (piecesOf l.ty vals)) := by
  have unfolded : (pushTile c e vals).go s = (do
      if l.failed then throw (.trap 0x0E)
      if l.credits = 0 ∨ ¬ l.paired then throw .wait
      modify fun s => pushed s c e l (piecesOf l.ty vals) : Eng Unit).go s := by
    subst link; rfl
  rw [unfolded, up, paired, if_neg (by decide), if_neg (by simpa using credit)]
  rfl

/-- The work of an epilogue into a link tile queue without bands. -/
theorem epiWork_link {s : State} {c : Nat} {e : Epi} {l : LinkQueue} (dest : e.nest.epiDest = 2) (bands : nbit e.nest.epiWord 4 = false)
    (link : fgetD (core s c).links (nfld e.nest.epiWord 9 4) {} = l) (up : l.failed = false) (paired : l.paired = true) (credit : l.credits ≠ 0) :
    (epiWork c e).go s = (.ok (s.nextSeq, 0), modCore (pushed { s with nextSeq := s.nextSeq + 1 } c e l
      (tilePieces (core s c) e l.ty)) c fun x => accClear x e.acc) := by
  have ty : epiType (core s c) e = l.ty := by simp only [epiType, dest, link]
  have push := pushTile_go (s := { s with nextSeq := s.nextSeq + 1 }) link up paired credit (epiValues (core s c) e l.ty unscaled unscaled)
  have unfolded : (epiWork c e).go s = (pushTile c e (epiValues (core s c) e l.ty unscaled unscaled) >>= fun _ => do
      modify fun s => modCore s c fun x => accClear x e.acc
      pure (s.nextSeq, 0) : Eng (Nat × Nat)).go { s with nextSeq := s.nextSeq + 1 } := by
    rw [← ty, epiWork]
    simp only [dest, bands]
    rfl
  rw [unfolded, go_bind_ok push]
  rfl

theorem epiWork_kept {s : State} {c : Nat} {e : Epi} (dest : e.nest.epiDest = 3) : (epiWork c e).go s = (.ok (0, 0), s) := by
  rw [epiWork, if_pos dest]
  rfl

theorem modCore_congr {s : State} {c : Nat} {f g : Core → Core} (h : f (core s c) = g (core s c)) : modCore s c f = modCore s c g := by
  rw [modCore, modCore, h]

/-- An add that names no barrier is none: only the core's list of adds may change. -/
theorem settleAdds_free {s : State} {c : Nat} {f : Core → Core} {a : EpiAdd} (adds : (f (core s c)).epiAdds = [a]) (free : a.bar = 0)
    (kept : a.lost = false) :
    ∃ l, settleAdds (modCore s c f) c = modCore s c fun x => { f x with epiAdds := l } := by
  rw [settleAdds, core_modCore, adds, List.foldl_cons, List.foldl_nil]
  split
  · exact ⟨[a], modCore_congr (by rw [← adds])⟩
  · refine ⟨(f (core s c)).epiAdds.filter fun y => y.id != a.id, ?_⟩
    dsimp only
    rw [kept, if_neg (by decide), barrierAddFor, if_pos free, modCore_modCore]
    exact modCore_congr rfl

/-- What an epilogue leaves when its work is done and its nest names no barrier: the state of its work, with the epilogue gone. -/
theorem exec_epilogue_done {s t : State} {c id n : Nat} {e : Epi} (epi : (core s c).epi = some e) (seen : e.seen = none)
    (free : e.nest.epiBarrier = 0)
    (works : (epiWork c e).go s = (.ok (id, n), t)) (rings : ∀ q, q < 4 → (quarter t q).held2 = []) (unowed : (core t c).epiAdds = []) :
    ∃ l, exec (.epilogue c) s = .next (modCore t c fun x => { x with epi := none, epiAdds := l }) := by
  have idle := retestRings_idle (s := modCore t c fun x => { x with epi := none }) rings
  obtain ⟨l, settled⟩ := settleAdds_free (s := t) (c := c)
    (f := fun x => { x with epi := none, epiAdds := x.epiAdds ++ [{ cmd := e.nest.cmd, bar := e.nest.epiBarrier, id := id, count := n, lost := false }] })
    (a := { cmd := e.nest.cmd, bar := e.nest.epiBarrier, id := id, count := n, lost := false }) (by rw [unowed, List.nil_append]) free rfl
  refine ⟨l, ?_⟩
  have e1 : exec (.epilogue c) s = .next (epilogueNext s c) := rfl
  rw [e1, epilogueNext, epi]
  dsimp only
  rw [seen]
  dsimp only
  rw [if_neg (by decide), works]
  dsimp only
  rw [idle, modCore_modCore, settled]

/-- The core after the push of a tile and the clearing of its accumulator. -/
def sentCore (e : Epi) (no k : Nat) (x : Core) : Core :=
  accClear { x with links := fput x.links (nfld e.nest.epiWord 9 4) (sentLink no k (fgetD x.links (nfld e.nest.epiWord 9 4) {})) } e.acc

theorem sentCore_credits (e : Epi) (no k : Nat) (x : Core) : (fgetD (sentCore e no k x).links (nfld e.nest.epiWord 9 4) {}).credits =
    (fgetD x.links (nfld e.nest.epiWord 9 4) {}).credits - 1 := by
  simp [sentCore, accClear, sentLink, LinkQueue.noteSent]

/-- The push of a tile and the clearing of its accumulator: packets leave, and one core changes. -/
theorem pushed_eq (s : State) (c : Nat) (e : Epi) (l : LinkQueue) (pieces : List (Nat × List Byte)) :
    ∃ no n ps, modCore (pushed s c e l pieces) c (fun x => accClear x e.acc) = withPackets (modCore s c (sentCore e no pieces.length)) n ps ∧
      ps.map (fun p => (p.dst, p.body)) = pieces.map fun b => (l.peerDev, .tile l.peerCore l.peerQueue b.2) := by
  obtain ⟨n, ps, fold, body⟩ := foldl_sendPacket (agentNo e.nest.cmd.ctx.part .matrix) l.peerDev
      (fun b : Nat × List Byte => Payload.tile l.peerCore l.peerQueue b.2)
    pieces (linkTaken s c e l pieces.length)
  refine ⟨packetNo s (agentNo e.nest.cmd.ctx.part .matrix) l.peerDev, n, ps, ?_, body⟩
  rw [pushed, fold, modCore_withPackets, linkTaken, modLink, modCore_modCore]
  exact congrArg (withPackets · n ps) (modCore_congr rfl)

theorem fget_filter {α : Type} (p : Nat → Bool) (m : FMap α) (k : Nat) : fget (m.filter fun r => p r.1) k = if p k then fget m k else none := by
  induction m with
  | nil => simp [fget]
  | cons e r ih =>
    obtain ⟨k', v⟩ := e
    by_cases hk : k = k'
    · subst hk
      by_cases hp : p k = true
      · simp [hp, fget]
      · simpa [hp] using ih
    · by_cases hp : p k' = true
      · simp [hp, fget, hk, ih]
      · simp [hp, fget, hk, ih]

/-- A row of the accumulator that is cleared is +0 (R140). -/
theorem accClear_row (x : Core) (a : Nat) {i : Nat} (hi : i < 128) : fgetD (accClear x a).acc (128 * a + i) [] = [] := by
  have row : (128 * a + i) / 128 = a := by omega
  rw [fgetD, accClear, fget_filter (fun k => k / 128 != a), row, bne_self_eq_false]
  rfl

theorem accClear_other (x : Core) {a k : Nat} (h : k / 128 ≠ a) : fgetD (accClear x a).acc k [] = fgetD x.acc k [] := by
  rw [fgetD, accClear, fget_filter (fun k => k / 128 != a), if_pos (bne_iff_ne.mpr h), fgetD]

/-- An epilogue into a link tile queue without bands sends its tile and clears its accumulator (R157, R321). -/
theorem epiWork_link_sends {s : State} {c : Nat} {e : Epi} {l : LinkQueue} (dest : e.nest.epiDest = 2) (bands : nbit e.nest.epiWord 4 = false)
    (link : fgetD (core s c).links (nfld e.nest.epiWord 9 4) {} = l) (up : l.failed = false) (paired : l.paired = true) (credit : l.credits ≠ 0) :
    ∃ no k n ps, (epiWork c e).go s = (.ok (s.nextSeq, 0), withPackets (modCore { s with nextSeq := s.nextSeq + 1 } c (sentCore e no k)) n ps) ∧
      ps.map (fun p => (p.dst, p.body)) = (tilePieces (core s c) e l.ty).map fun b => (l.peerDev, .tile l.peerCore l.peerQueue b.2) := by
  obtain ⟨no, n, ps, state, bodies⟩ := pushed_eq { s with nextSeq := s.nextSeq + 1 } c e l (tilePieces (core s c) e l.ty)
  exact ⟨no, _, n, ps, (epiWork_link dest bands link up paired credit).trans (by rw [state]), bodies⟩

/-- Settles O41: each step is worked out where its hypotheses leave it one way to go, the lanes and accumulator rows it writes are read back
from their sparse arrays, and a push of a tile is the fold of its packets. -/
theorem commandsStartWorkAndComplete : Obligations.CommandsStartWorkAndComplete := by
  refine ⟨?starts, ?fills, ?completes, ?steps, ?sums, ?sends, ?keeps⟩
  case starts =>
    intro s p k c r m h1 h2 queue free going kept holder posted mine rings tokens starts val x width
    have startable (weights : weightFree s p c = true) : Startable s p k c r m :=
      ⟨⟨h1, h2⟩, queue, free, going, kept, holder, posted, mine, rings, weights, tokens⟩
    have shadow (f : Part → Part) (weights : weightFree s p c = true) (keep : ∀ x q, f { x with queues := q } = { f x with queues := q })
        (works : work k (freshRun c) = matDone (freshRun c) f) : starts f := shadow_starts (startable weights) keep works
    refine ⟨?_, ?_, ?_, ?_, ?_, ?_, ?_, ?_⟩
    · intro h a b ka kb lvl hk hi
      exact shadow _ (by rw [weightFree, hi]) (fun _ _ => rfl) (by subst hk; simp only [work, workMatrix, freshRun, hi]; rfl)
    · intro h a ka hk hi
      exact shadow _ (by rw [weightFree, hi]) (fun _ _ => rfl) (by subst hk; simp only [work, workMatrix, freshRun, hi]; rfl)
    · intro h a b ka kb dest hk hi
      exact shadow _ (by rw [weightFree, hi]) (fun _ _ => rfl) (by subst hk; simp only [work, workMatrix, freshRun, hi]; rfl)
    · intro h off hk hi
      refine shadow (fun x => { x with restart := BitVec.ofInt 64 (c.pc + 4 * off.toInt) }) (by rw [weightFree, hi]) (fun _ _ => rfl) ?_
      subst hk; rw [← w64_intBits]; simp only [work, workMatrix, freshRun, hi]; rfl
    · intro h hk hi
      exact shadow _ (by rw [weightFree, hi]) (fun _ _ => rfl) (by subst hk; simp only [work, workMatrix, freshRun, hi]; rfl)
    · intro h a ka n field hk hi
      exact shadow _ (by rw [weightFree, hi]) (fun _ _ => rfl) (by subst hk; simp only [work, workMatrix, freshRun, hi]; rfl)
    · intro h b kb sb sat vd va vb op i hk hi hmem int
      subst hk
      simp only [List.mem_cons, Prod.mk.injEq, List.not_mem_nil, or_false] at hmem
      rcases hmem with ⟨rfl, rfl⟩ | ⟨rfl, rfl⟩ | ⟨rfl, rfl⟩ | ⟨rfl, rfl⟩ | ⟨rfl, rfl⟩ <;>
        exact arith_starts (startable (by rw [weightFree, hi])) (by simp only [workVector, freshRun, hi]) int
    · intro h b kb sb vd va vb f i hk hi hmem
      subst hk
      simp only [List.mem_cons, Prod.mk.injEq, List.not_mem_nil, or_false] at hmem
      rcases hmem with ⟨rfl, rfl⟩ | ⟨rfl, rfl⟩ | ⟨rfl, rfl⟩
      · exact logic_starts (op := .and) (startable (by rw [weightFree, hi])) (by simp only [workVector, freshRun, hi]) fun _ => rfl
      · exact logic_starts (op := .or) (startable (by rw [weightFree, hi])) (by simp only [workVector, freshRun, hi]) fun _ => rfl
      · exact logic_starts (op := .xor) (startable (by rw [weightFree, hi])) (by simp only [workVector, freshRun, hi]) fun _ => rfl
  case fills =>
    intro x v f rows cols rising
    exact ⟨by rw [fillShape_eq], fun i j => lane_fillShape rows cols rising v f, fun w i j => lane_fillShape_other rows cols rising v f⟩
  case completes =>
    intro s p k r q engine queue done added performed unheld leaveless uncirculated unowed
    have h : Completable s p k r q := ⟨engine, queue, done, added, performed, unheld, leaveless, uncirculated, unowed⟩
    refine ⟨fun m room => by rw [exec_commandComplete_eq, completeCommand_room h room], fun full => ⟨postingState s p k r q, ?_, ?_, ?_, ?_⟩⟩
    · rw [exec_commandComplete_eq, completeCommand_full h full]
    · rw [postingState, part_modPart]
    · rw [postingState, cmdQueue_modPart_queues]
    · rw [postingState, cmdQueue_modPart_queues]; rfl
  case steps =>
    intro s c n ra rb nest going leave hold a b more epi rowsA rowsB plain
    rw [exec_nestStep_eq, nestNext_step nest going leave hold a b more epi rowsA rowsB plain]
  case sums =>
    intro x n i j ra rb a b hi hj ha hb
    rw [stepAcc_row x n true ra rb hi, steppedRow, List.getD_eq_getElem?_getD, List.getElem?_map, List.getElem?_range hj]
    have ea : ra.getD i ([], []) = a := by rw [List.getD_eq_getElem?_getD, ha]; rfl
    have eb : rb.getD j ([], []) = b := by rw [List.getD_eq_getElem?_getD, hb]; rfl
    rw [Option.map_some, Option.getD_some, ea, eb, stepElem_int]
    rfl
  case sends =>
    intro s c e l epi seen dest bands free link up paired credit unowed rings
    obtain ⟨no, k, n, ps, works, bodies⟩ := epiWork_link_sends dest bands link up paired credit
    obtain ⟨adds, done⟩ := exec_epilogue_done epi seen free works rings (by rw [core_withPackets, core_modCore]; exact unowed)
    have left : core (modCore (withPackets (modCore { s with nextSeq := s.nextSeq + 1 } c (sentCore e no k)) n ps) c fun x =>
        { x with epi := none, epiAdds := adds }) c = { sentCore e no k (core s c) with epi := none, epiAdds := adds } := by
      rw [core_modCore, core_withPackets, core_modCore]; rfl
    refine ⟨_, done, ?_⟩
    rw [left]
    refine ⟨rfl, ?packets, ?credits, fun i hi => accClear_row _ _ hi, fun k hk => accClear_other _ hk, rfl, rfl, rfl, rfl⟩
    case packets => exact (List.map_append (l₁ := s.packets)).trans (congrArg _ bodies)
    case credits => exact (sentCore_credits e no k (core s c)).trans (by rw [link])
  case keeps =>
    intro s c e epi seen dest free rings unowed
    obtain ⟨l, done⟩ := exec_epilogue_done epi seen free (epiWork_kept dest) rings unowed
    exact ⟨_, done, by rw [core_modCore], by rw [core_modCore], rfl, rfl, rfl⟩

end Sys2Proof.Machine.Proofs
end

section
/-! PROOFS. The words of the control core that read registers and push one result (R50 to R52), by the value that each pushes. -/

namespace Sys2Proof.Machine.Proofs

open Sys2Proof Sys2Proof.Machine Sys2Proof.Machine.Safety Sys2Proof.Machine.Laws

/-! ## The results of R50 -/

theorem rolW_eq (x y : W64) : rolW x y = x.rotateLeft (y.toNat % 64) := by
  rw [rolW, shamt, BitVec.rotateLeft, Nat.mod_mod, BitVec.rotateLeftAux]

theorem min_ltS (x y : W64) : (if ltS y x then y else x) = if x.toInt ≤ y.toInt then x else y := by
  simp only [ltS, decide_eq_true_eq, ← not_le, ite_not]

theorem max_ltS (x y : W64) : (if ltS x y then y else x) = if x.toInt ≤ y.toInt then y else x := by
  by_cases h : x.toInt < y.toInt
  · simp [ltS, h, h.le]
  · rcases lt_or_eq_of_le (not_lt.1 h) with h' | h'
    · simp [ltS, h, h'.not_ge]
    · simp [BitVec.eq_of_toInt_eq h']

theorem min_ltU (x y : W64) : (if ltU y x then y else x) = if x.toNat ≤ y.toNat then x else y := by
  simp only [ltU, decide_eq_true_eq, ← not_le, ite_not]

theorem max_ltU (x y : W64) : (if ltU x y then y else x) = if x.toNat ≤ y.toNat then y else x := by
  by_cases h : x.toNat < y.toNat
  · simp [ltU, h, h.le]
  · rcases lt_or_eq_of_le (not_lt.1 h) with h' | h'
    · simp [ltU, h, h'.not_ge]
    · simp [BitVec.eq_of_toNat_eq h']

theorem boolW_decide (p : Prop) [Decidable p] : boolW (decide p) = if p then 1 else 0 := by simp only [boolW, decide_eq_true_eq]

theorem mul_eq_ofNat (x y : W64) : x * y = BitVec.ofNat 64 (x.toNat * y.toNat) :=
  BitVec.eq_of_toNat_eq (by rw [BitVec.toNat_mul, BitVec.toNat_ofNat])

/-- The low bits of a value as a two's complement number. -/
theorem sxInt_eq_toInt (v : Nat) {n : Nat} (hn : n ≠ 0) : sxInt v n = (BitVec.ofNat n v).toInt := by
  have hp : 2 ^ n = 2 * 2 ^ (n - 1) := by rw [← Nat.pow_succ', Nat.succ_eq_add_one, Nat.sub_one_add_one hn]
  rw [sxInt, if_neg hn, BitVec.toInt_eq_toNat_cond, BitVec.toNat_ofNat]
  simp only [hp, Nat.mul_lt_mul_left (Nat.succ_pos 1)]

theorem sx64_extWidth (x y : W64) :
    sx64 x (extWidth y) = if y.toNat % 64 = 0 then x else (x.setWidth (y.toNat % 64)).signExtend 64 := by
  unfold sx64 extWidth
  split
  next => rw [sxInt_eq_toInt _ (by decide), BitVec.ofNat_toNat, BitVec.setWidth_eq, BitVec.ofInt_toInt]
  next h => rw [sxInt_eq_toInt _ h, BitVec.ofNat_toNat]; rfl

theorem zx64_extWidth (x y : W64) :
    zx64 x (extWidth y) = if y.toNat % 64 = 0 then x else BitVec.ofNat 64 (x.toNat % 2 ^ (y.toNat % 64)) := by
  unfold zx64 extWidth
  split
  next => rw [Nat.mod_eq_of_lt x.isLt]; exact BitVec.ofNat_toNat ..
  next => rfl

/-! ## The bit counts of R50 -/

theorem leadZ_bounds (x : W64) : leadZ x ≤ 64 ∧ x.toNat < 2 ^ (64 - leadZ x) ∧ (leadZ x = 64 ∨ 2 ^ (63 - leadZ x) ≤ x.toNat) := by
  unfold leadZ
  split
  next h => subst h; decide
  next h =>
    have hx : x.toNat ≠ 0 := fun e => h (BitVec.eq_of_toNat_eq e)
    have hlog : Nat.log2 x.toNat < 64 := (Nat.log2_lt hx).2 x.isLt
    have e : 64 - (63 - Nat.log2 x.toNat) = Nat.log2 x.toNat + 1 := by omega
    have e' : 63 - (63 - Nat.log2 x.toNat) = Nat.log2 x.toNat := by omega
    rw [e, e']
    exact ⟨by omega, Nat.lt_log2_self, .inr (Nat.log2_self_le hx)⟩

theorem trailZ_bounds (n v : Nat) : trailZ n v ≤ n ∧ v % 2 ^ trailZ n v = 0 ∧ (trailZ n v = n ∨ v / 2 ^ trailZ n v % 2 = 1) := by
  induction n generalizing v with
  | zero => simp [trailZ, Nat.mod_one]
  | succ n ih =>
    unfold trailZ
    split
    next h => simp [h, Nat.mod_one]
    next h =>
      obtain ⟨le, low, top⟩ := ih (v / 2)
      have hv : v = 2 * (v / 2) := by omega
      refine ⟨by omega, ?_, top.imp (by omega) fun odd => ?_⟩
      · have e : 2 * (v / 2) % 2 ^ (1 + trailZ n (v / 2)) = 0 := by rw [Nat.add_comm 1, Nat.pow_succ', Nat.mul_mod_mul_left, low]
        rwa [← hv] at e
      · rw [Nat.add_comm 1, Nat.pow_succ', ← Nat.div_div_eq_div_mul, odd]

theorem onesIn_eq (n v : Nat) : onesIn n v = ((List.range n).filter fun i => v.testBit i).length := by
  induction n generalizing v with
  | zero => rfl
  | succ n ih =>
    rw [onesIn, ih, List.range_succ_eq_map, List.filter_cons, List.filter_map, Nat.testBit_zero]
    have e : ((fun i => v.testBit i) ∘ Nat.succ) = fun i => (v / 2).testBit i := funext fun i => Nat.testBit_succ v i
    rw [e]
    rcases Nat.mod_two_eq_zero_or_one v with h | h <;> simp [h, Nat.add_comm]

/-! ## Words that push one result -/

section
variable {s : State} {h : Hdr} {d a b : Reg} {ka kb : Bool} {x y : W64} {regs : FMap (List W64)} {tokens : FMap Nat} {i : Instr}

/-- A two-operand word pushes its result. -/
theorem exec_alu3 {lat : Nat} {f : W64 → W64 → W64} {v : W64} (hi : Issues s h { reads := [rd s a ka, rd s b kb], dst := dstOf s d } [x, y] regs tokens)
    (he : exec i s = .next (alu3 s i h d a b ka kb lat f)) (hv : f x y = v) :
    exec i s = .next (onward s h false 1 (flyExposed (issued s h regs tokens) d 1 lat v)) := by rw [he, alu3_next _ _ _ hi, hv]

/-- A one-operand word pushes its result. -/
theorem exec_alu2 {f : W64 → W64} {v : W64} (hi : Issues s h { reads := [rd s a ka], dst := dstOf s d } [x] regs tokens)
    (he : exec i s = .next (alu2 s i h d a ka f)) (hv : f x = v) :
    exec i s = .next (onward s h false 1 (flyExposed (issued s h regs tokens) d 1 1 v)) := by rw [he, alu2_next _ _ hi, hv]

/-- A word without operands pushes its result. -/
theorem exec_aluWord {words : Nat} {f : List W64 → W64} {v : W64} (hi : Issues s h { words := words, dst := dstOf s d } [] regs tokens)
    (he : exec i s = .next (aluWord s i h d [] words 1 f)) (hv : f [] = v) :
    exec i s = .next (onward s h false words (flyExposed (issued s h regs tokens) d words 1 v)) := by rw [he, aluWord_next _ _ _ hi, hv]
end

/-- Settles O1: each word pushes one result (`exec_alu3`, `exec_alu2`), whose value is that of R50. -/
theorem arithmeticPushesResult : Obligations.ArithmeticPushesResult := by
  refine ⟨fun s h regs tokens d a b ka kb x y hi => ?_, fun s h regs tokens d a ka x hi => ?_⟩
  · exact ⟨exec_alu3 hi rfl rfl, exec_alu3 hi rfl rfl, exec_alu3 hi rfl rfl, exec_alu3 hi rfl rfl, exec_alu3 hi rfl rfl, exec_alu3 hi rfl rfl,
      exec_alu3 hi rfl rfl, exec_alu3 hi rfl rfl, exec_alu3 hi rfl rfl, exec_alu3 hi rfl (rolW_eq x y), exec_alu3 hi rfl (min_ltS x y),
      exec_alu3 hi rfl (max_ltS x y), exec_alu3 hi rfl (min_ltU x y), exec_alu3 hi rfl (max_ltU x y), exec_alu3 hi rfl (boolW_decide _),
      exec_alu3 hi rfl (boolW_decide _), exec_alu3 hi rfl (mul_eq_ofNat x y), exec_alu3 hi rfl rfl, exec_alu3 hi rfl rfl,
      exec_alu3 hi rfl (sx64_extWidth x y), exec_alu3 hi rfl (zx64_extWidth x y), exec_alu3 hi rfl rfl⟩
  · exact ⟨⟨leadZ x, exec_alu2 hi rfl rfl, leadZ_bounds x⟩, ⟨trailZ 64 x.toNat, exec_alu2 hi rfl rfl, trailZ_bounds 64 x.toNat⟩,
      exec_alu2 hi rfl (congrArg w64 (onesIn_eq 64 x.toNat))⟩

/-! ## The divisions of R51 -/

theorem divS_minOne : divS 0x8000000000000000 0xFFFFFFFFFFFFFFFF = 0x8000000000000000 := by decide +kernel

theorem remS_minOne : remS 0x8000000000000000 0xFFFFFFFFFFFFFFFF = 0 := by decide +kernel

/-- The signed quotient is in range but in the one overflow case. -/
theorem toInt_divS {x y : W64} (hy : y ≠ 0) (h : ¬(x = 0x8000000000000000 ∧ y = 0xFFFFFFFFFFFFFFFF)) : (divS x y).toInt = x.toInt.tdiv y.toInt := by
  have e : BitVec.ofInt 64 (x.toInt.tdiv y.toInt) = x.sdiv y := BitVec.eq_of_toInt_eq (by rw [BitVec.toInt_ofInt, BitVec.toInt_sdiv])
  rw [divS, if_neg hy, e, BitVec.toInt_sdiv_of_ne_or_ne x y (not_and_or.1 h)]

theorem toInt_remS {x y : W64} (hy : y ≠ 0) : (remS x y).toInt = x.toInt.tmod y.toInt := by
  rw [remS, if_neg hy, ← BitVec.toInt_srem, BitVec.ofInt_toInt]

/-- Settles O2: quotient and remainder are those of truncating division, and outside the two fixed cases both are in range. -/
theorem divisionPushesQuotientAndRemainder : Obligations.DivisionPushesQuotientAndRemainder := by
  intro s h regs tokens d a b ka kb x y hi
  refine ⟨fun hy => ?zero, fun ⟨hx, hy⟩ => ?least, fun hy => ?unsigned, fun ⟨hy, h⟩ => ?signed⟩
  case zero =>
    exact ⟨exec_alu3 hi rfl (if_pos hy), exec_alu3 hi rfl (if_pos hy), exec_alu3 hi rfl (if_pos hy), exec_alu3 hi rfl (if_pos hy)⟩
  case least =>
    subst hx hy
    exact ⟨exec_alu3 hi rfl divS_minOne, exec_alu3 hi rfl remS_minOne⟩
  case unsigned => exact ⟨exec_alu3 hi rfl (if_neg hy), exec_alu3 hi rfl (if_neg hy)⟩
  case signed =>
    have hy' : y.toInt ≠ 0 := fun e => hy (BitVec.eq_of_toInt_eq e)
    refine ⟨_, _, exec_alu3 hi rfl rfl, exec_alu3 hi rfl rfl, ?_⟩
    rw [toInt_divS hy h, toInt_remS hy]
    refine ⟨?_, ?_, Int.tmod_nonneg _, ?_⟩
    · rw [Int.mul_comm]; exact (Int.mul_tdiv_add_tmod ..).symm
    · rw [Int.natAbs_tmod]; exact Nat.mod_lt _ (Int.natAbs_pos.2 hy')
    · intro hx
      have neg := Int.tmod_nonneg y.toInt (neg_nonneg.2 hx)
      rw [Int.neg_tmod] at neg
      omega

/-! ## Immediates and addresses -/

theorem boolW_beq (x y : W64) : boolW (x == y) = if x.toInt = y.toInt then 1 else 0 := by
  by_cases h : x = y
  · simp [boolW, h]
  · simp [boolW, h, BitVec.toInt_inj]

theorem toInt_signExtend_imm {n : Nat} (imm : BitVec n) (hn : n ≤ 64) : (imm.signExtend 64).toInt = imm.toInt :=
  BitVec.toInt_signExtend_of_le hn

/-- A word offset from the pc, in the arithmetic of 64 bits. -/
theorem w64_offTarget {n : Nat} (pc : W64) (imm : BitVec n) : w64 (offTarget pc imm.toInt) = pc + imm.signExtend 64 * 4 := by
  rw [offTarget, w64_intBits, BitVec.ofInt_add, BitVec.ofInt_mul, BitVec.ofInt_natCast, BitVec.ofNat_toNat, BitVec.setWidth_eq, BitVec.mul_comm]
  rfl

/-- Settles O3: each word pushes one result; the immediates are sign-extended, and `apc` counts them in words. -/
theorem immediateFormsPushResult : Obligations.ImmediateFormsPushResult := by
  refine ⟨fun s h regs tokens d a ka imm imm9 sh x hi => ?_, fun s h regs tokens d imm hi mid lo => ⟨fun one => ?_, fun three => ?_⟩⟩
  · have e9 := toInt_signExtend_imm imm9 (by decide)
    exact ⟨exec_alu2 hi rfl rfl, exec_alu2 hi rfl rfl, exec_alu2 hi rfl rfl, exec_alu2 hi rfl rfl, exec_alu2 hi rfl rfl, exec_alu2 hi rfl rfl,
      exec_alu2 hi rfl rfl, exec_alu2 hi rfl (by rw [ltS, boolW_decide, e9]), exec_alu2 hi rfl (by rw [boolW_beq, e9])⟩
  · exact ⟨exec_aluWord one rfl rfl, exec_aluWord one rfl (w64_offTarget _ imm)⟩
  · exact exec_aluWord three rfl rfl

end Sys2Proof.Machine.Proofs
end

section
/-! PROOFS. Branches, jumps and loops (R53 to R56). -/

namespace Sys2Proof.Machine.Proofs

open Sys2Proof Sys2Proof.Machine Sys2Proof.Machine.Safety Sys2Proof.Machine.Laws

/-! ## Targets (R53, R54) -/

theorem intBits_lt (v : Int) (n : Nat) : intBits v n < 2 ^ n := by
  have hp : (0 : Int) < (2 ^ n : Nat) := by exact_mod_cast Nat.two_pow_pos n
  have := Int.emod_lt_of_pos v hp
  have := Int.emod_nonneg v hp.ne'
  unfold intBits; omega

theorem offTarget_eq {n : Nat} (pc : W64) (off : BitVec n) : offTarget pc off.toInt = (pc + off.signExtend 64 * 4).toNat := by
  rw [← w64_offTarget, w64, BitVec.toNat_ofNat, Nat.mod_eq_of_lt]; exact intBits_lt ..

@[simp] theorem issued_part_pc (s : State) (h : Hdr) (regs : FMap (List W64)) (tokens : FMap Nat) :
    (part (issued s h regs tokens) s.cur).pc = (part s s.cur).pc := by rw [part_issued, ← countIgnored_part_pc s h]

/-! ## Branches and jumps -/

section
variable {s : State} {h : Hdr} {reads : List (Nat × Bool)} {vals : List W64} {regs : FMap (List W64)} {tokens : FMap Nat} {i : Instr}

/-- A branch goes to its target where its condition holds, and on else. -/
theorem exec_branch {off : BitVec 8} {c : List W64 → Bool} {p : Prop} [Decidable p] (hi : Issues s h { reads := reads } vals regs tokens)
    (he : exec i s = .next (branchWord s i h reads off c)) (hc : c vals = true ↔ p) :
    exec i s = .next (if p then jumped s h 1 ((part s s.cur).pc + off.signExtend 64 * 4).toNat (issued s h regs tokens)
      else onward s h false 1 (issued s h regs tokens)) := by
  rw [he, branchWord]
  by_cases hp : p
  · rw [if_pos hp, issueWord_jump hi rfl]
    rw [if_pos (hc.2 hp), offTarget_eq, issued_cur, issued_part_pc]
  · rw [if_neg hp, issueWord_next hi]
    rw [if_neg (hc.not.2 hp)]

/-- `ret` and `jr` go to the value that they pop, where it is aligned. -/
theorem jumpReg_jumped {a : Reg} {x : W64} (hi : Issues s h { reads := [rd s a false] } [x] regs tokens) (aligned : x.toNat % 4 = 0) :
    jumpReg s i h a = jumped s h 1 x.toNat (issued s h regs tokens) := by
  rw [jumpReg, issueWord_jump hi rfl]; exact if_neg (not_not.2 aligned)

theorem jumpReg_misaligned {a : Reg} {x : W64} (hi : Issues s h { reads := [rd s a false] } [x] regs tokens) (odd : x.toNat % 4 ≠ 0) :
    jumpReg s i h a = trapAt (countIgnored s h) s.cur i 0 0x05 0 0 := by
  rw [jumpReg, issueWord_trap hi]
  exacts [rfl, if_pos odd]

end

theorem ltS_iff (x y : W64) : ltS x y = true ↔ x.toInt < y.toInt := decide_eq_true_iff

theorem ltU_iff (x y : W64) : ltU x y = true ↔ x.toNat < y.toNat := decide_eq_true_iff

theorem not_ltS_iff (x y : W64) : (!ltS x y) = true ↔ y.toInt ≤ x.toInt := by simp [ltS]

theorem not_ltU_iff (x y : W64) : (!ltU x y) = true ↔ y.toNat ≤ x.toNat := by simp [ltU]

/-- Settles O4: a branch by its condition (`exec_branch`), the jumps by their target, `ret` and `jr` by the alignment of what they pop. -/
theorem branchesAndJumpsReachTheirTarget : Obligations.BranchesAndJumpsReachTheirTarget := by
  refine ⟨fun s h regs tokens a b off x y => ⟨fun two => ?two, fun one => ?one⟩,
    fun s h regs tokens a off x => ⟨fun hi => ?br, fun hi => ?call, fun hi => ⟨fun aligned => ?aligned, fun odd => ?odd⟩⟩⟩
  case two =>
    exact ⟨exec_branch two rfl beq_iff_eq, exec_branch two rfl bne_iff_ne, exec_branch two rfl (ltS_iff x y), exec_branch two rfl (not_ltS_iff x y),
      exec_branch two rfl (ltU_iff x y), exec_branch two rfl (not_ltU_iff x y)⟩
  case one => exact ⟨exec_branch one rfl beq_iff_eq, exec_branch one rfl bne_iff_ne⟩
  case br =>
    refine congrArg Host.Outcome.next (issueWord_jump hi rfl _ _ ?_)
    rw [offTarget_eq, issued_cur, issued_part_pc]
  case call =>
    refine congrArg Host.Outcome.next (issueWord_jump hi rfl _ _ ?_)
    rw [offTarget_eq, issued_cur, issued_part_pc]
  case aligned => exact ⟨congrArg _ (jumpReg_jumped hi aligned), congrArg _ (jumpReg_jumped hi aligned)⟩
  case odd => exact ⟨congrArg _ (jumpReg_misaligned hi odd), congrArg _ (jumpReg_misaligned hi odd)⟩

/-! ## Loops: arming and skipping (R55) -/

/-- The loop that `loop` or `loopi` of `words` words arms. -/
def loopFrom (s : State) (words trips len : Nat) : Loop :=
  { armed := true, count := trips, start := followingPc s words, stop := (followingPc s words + 4 * len) % 2 ^ 64,
    level := (part s s.cur).priv, order := loopOrder (part s s.cur).loops + 1 }

theorem armLoop_armed {t : State} {n count words len : Nat} (hc : count ≠ 0) : armLoop t n count words len =
    .next (modPart t t.cur fun x => { x with loops := fput x.loops n (loopFrom t words count len) }) := by rw [armLoop, if_neg hc]; rfl

theorem armLoop_skip (t : State) (n words len : Nat) : armLoop t n 0 words len = .skip t ((followingPc t words + 4 * len) % 2 ^ 64) := by
  rw [armLoop, if_pos rfl]; rfl

theorem loopFrom_issued (s : State) (h : Hdr) (regs : FMap (List W64)) (tokens : FMap Nat) (words trips len : Nat) :
    loopFrom (issued s h regs tokens) words trips len = loopFrom s words trips len := by
  simp [loopFrom, followingPc]

theorem issueWord_skip {s t : State} {h : Hdr} {n : Need} {vals : List W64} {regs : FMap (List W64)} {tokens : FMap Nat} {q : Nat}
    (hi : Issues s h n vals regs tokens) (hc : n.command = false) (i : Instr) (body : List W64 → State → WordOut)
    (hb : body vals (issued s h regs tokens) = .skip t q) : issueWord s i h n body = moveOn (countIgnored s h) false h q (n.words + 2) t := by
  rw [issueWord_issues hi, hb, settleWord, hc]

/-- `loop` and `loopi` on an unarmed counter skip the body or arm the counter. -/
theorem issueWord_armLoop {s : State} {h : Hdr} {need : Need} {vals : List W64} {regs : FMap (List W64)} {tokens : FMap Nat} {n len : Nat}
    (hi : Issues s h need vals regs tokens) (hc : need.command = false) (i : Instr) (trips : List W64 → Nat) :
    issueWord s i h need (fun v t => armLoop t n (trips v) need.words len) =
      if trips vals = 0 then moveOn (countIgnored s h) false h ((followingPc s need.words + 4 * len) % 2 ^ 64) (need.words + 2) (issued s h regs tokens)
      else onward s h false need.words (modPart (issued s h regs tokens) s.cur fun x =>
        { x with loops := fput (part s s.cur).loops n (loopFrom s need.words (trips vals) len) }) := by
  split
  next none =>
    have pc : followingPc (issued s h regs tokens) need.words = followingPc s need.words := by simp [followingPc]
    rw [issueWord_skip hi hc i _ (by rw [none, armLoop_skip]), pc]
  next some =>
    have loops : (part (issued s h regs tokens) s.cur).loops = (part s s.cur).loops := by simp
    rw [issueWord_next hi i _ (armLoop_armed some), hc, loopFrom_issued, issued_cur, modPart_congr (s := issued s h regs tokens)]
    rw [loops]

/-- What is checked of a word that is tried, up to its reads (R34). -/
theorem issueWord_tried {s : State} {h : Hdr} (ht : Tries s h) (i : Instr) (n : Need) (body : List W64 → State → WordOut) : issueWord s i h n body =
    if n.ill || loopCuts (part s s.cur).loops (part s s.cur).priv (part s s.cur).pc.toNat n.words then
      trapAt (countIgnored s h) s.cur i (if n.command then 1 else 0) 0x01 0 0
    else if n.access || decide ((part s s.cur).priv < n.level) then trapAt (countIgnored s h) s.cur i (if n.command then 1 else 0) 0x06 0 0
    else match takeReads (part s s.cur).regs n.reads with
      | .error r => if (part s s.cur).flights.any (fun f => f.reg == r && interlocked f) then holdWord (countIgnored s h) s.cur h.stop
          else trapAt (countIgnored s h) s.cur i (if n.command then 1 else 0) 0x02 0 0
      | .ok (vals, regs) =>
        if n.dst ≠ 0 ∧ 4 < (fgetD regs n.dst []).length + inFlight (part s s.cur) n.dst + 1 then
          trapAt (countIgnored s h) s.cur i (if n.command then 1 else 0) 0x03 0 0
        else if holdsAnyway (countIgnored s h) n then holdWord (countIgnored s h) s.cur h.stop
        else match waitTokens (part s s.cur) h n with
          | none => holdWord (countIgnored s h) s.cur h.stop
          | some tokens => settleWord (countIgnored s h) i h n (body vals (issued s h regs tokens)) := by
  obtain ⟨calm, quiet, spaced, logged⟩ := ht
  have hspaced : ¬(¬ h.stop = true ∧ 63 ≤ (part s s.cur).unflagged) := by
    rintro ⟨h1, h2⟩
    rcases spaced with h3 | h3
    · exact h1 h3
    · omega
  have hlog : ¬((part s s.cur).priv = 0 ∧ ¬ (core s (coreOf s.cur)).sideHeld.isEmpty = true) := by
    rcases logged with h1 | h1 <;> simp [h1]
  simp only [issueWord, calm, Option.isSome_none, Bool.false_eq_true, ↓reduceIte, if_neg hlog, if_neg hspaced, countIgnored_part_pending,
    countIgnored_part_loops, countIgnored_part_priv, countIgnored_part_pc, countIgnored_part_regs, countIgnored_part_flights, inFlight_countIgnored, quiet,
    List.isEmpty_nil, not_true_eq_false, false_and, and_false, List.any_nil, waitTokens_countIgnored, issued] <;> rfl

theorem issueWord_illegal {s : State} {h : Hdr} {n : Need} (ht : Tries s h) (ill : n.ill = true) (hc : n.command = false) (i : Instr)
    (body : List W64 → State → WordOut) : issueWord s i h n body = trapAt (countIgnored s h) s.cur i 0 0x01 0 0 := by
  rw [issueWord_tried ht, ill, hc, Bool.true_or, if_pos rfl, if_neg Bool.false_ne_true]

/-! ## Loops: the end of a body (R56) -/

theorem arriveAt_eq (t : State) (p q : Nat) :
    arriveAt t p q = matchLoops (part t p).priv q (endingLoops (part t p).loops (part t p).priv q) (part t p).loops := rfl

/-- No loop of this level ends at the address. -/
theorem arriveAt_none {t : State} {p q : Nat} (h : ∀ x ∈ (part t p).loops, x.2.stop = q → x.2.armed = true → x.2.level ≠ (part t p).priv) :
    arriveAt t p q = ((part t p).loops, q) := by
  have e : (part t p).loops.filter (fun x => x.2.armed && x.2.stop == q && x.2.level == (part t p).priv) = [] := by
    simp only [List.filter_eq_nil_iff, Bool.and_eq_true, beq_iff_eq, not_and]
    exact fun x hx ⟨armed, stop⟩ => h x hx stop armed
  rw [arriveAt_eq, endingLoops, e, sortBy, matchLoops]

/-- A loop that ends at an address, at a level. -/
structure EndsAt (l : Loop) (priv q : Nat) : Prop where
  armed : l.armed = true
  stop : l.stop = q
  level : l.level = priv

theorem EndsAt.test {l : Loop} {priv q : Nat} (h : EndsAt l priv q) : (l.armed && l.stop == q && l.level == priv) = true := by
  simp [h.armed, h.stop, h.level]

theorem endingLoops_one {n : Nat} {l : Loop} {priv q : Nat} (h : EndsAt l priv q) : endingLoops [(n, l)] priv q = [(n, l)] := by
  simp [endingLoops, h.test, sortBy, insertBy]

theorem endingLoops_two {m n : Nat} {k l : Loop} {priv q : Nat} (hk : EndsAt k priv q) (hl : EndsAt l priv q) :
    endingLoops [(m, k), (n, l)] priv q = if l.order ≤ k.order then [(m, k), (n, l)] else [(n, l), (m, k)] := by
  simp [endingLoops, hk.test, hl.test, sortBy, insertBy]

section
variable {t : State} {p q m n : Nat} {k l : Loop}

theorem arriveAt_one (hl : (part t p).loops = [(n, l)]) (h : EndsAt l (part t p).priv q) : arriveAt t p q =
    if 1 < l.count then ([(n, { l with count := l.count - 1 })], l.start) else ([(n, {})], q) := by
  rw [arriveAt_eq, hl, endingLoops_one h, matchLoops]; simp [fput, matchLoops]

/-- Of two loops the later armed is looked at first; here it has the higher number. -/
theorem arriveAt_upper (hm : m < n) (hl : (part t p).loops = [(m, k), (n, l)]) (hk' : EndsAt k (part t p).priv q) (hl' : EndsAt l (part t p).priv q)
    (later : k.order < l.order) : arriveAt t p q =
      if 1 < l.count then ([(m, k), (n, { l with count := l.count - 1 })], l.start)
      else if 1 < k.count then ([(m, { k with count := k.count - 1 }), (n, {})], k.start) else ([(m, {}), (n, {})], q) := by
  rw [arriveAt_eq, hl, endingLoops_two hk' hl', if_neg later.not_ge, matchLoops, matchLoops, matchLoops]
  simp [fput, hm.ne', hm.not_gt]

/-- Here it has the lower number. -/
theorem arriveAt_lower (hm : m < n) (hl : (part t p).loops = [(m, k), (n, l)]) (hk' : EndsAt k (part t p).priv q) (hl' : EndsAt l (part t p).priv q)
    (later : l.order < k.order) : arriveAt t p q =
      if 1 < k.count then ([(m, { k with count := k.count - 1 }), (n, l)], k.start)
      else if 1 < l.count then ([(m, {}), (n, { l with count := l.count - 1 })], l.start) else ([(m, {}), (n, {})], q) := by
  rw [arriveAt_eq, hl, endingLoops_two hk' hl', if_pos later.le, matchLoops, matchLoops, matchLoops]
  simp [fput, hm.ne', hm.not_gt]

end

/-- Settles O5: arming by `issueWord_armLoop`; at an end, one loop by its trips, and of two the later armed first (`arriveAt_upper`,
`arriveAt_lower`). -/
theorem loopsArmSkipAndEnd : Obligations.LoopsArmSkipAndEnd := by
  refine ⟨?arms, ?illegal, ?illegali, ?one, ?upper, ?lower, ?both, ?first, ?none⟩
  case arms =>
    intro s h regs tokens n a ka count len x loop armed skipped unarmed
    refine ⟨fun hi => ?_, fun hi => ?_⟩
    · have e := issueWord_armLoop (n := n) (len := len.toNat) (need := { reads := [rd s a ka], ill := loopArmed s n }) (by rwa [loopArmed, unarmed]) rfl
        (.loop h n a ka len) fun v => (v.getD 0 0).toNat % 2 ^ 32
      exact congrArg Host.Outcome.next e
    · have e := issueWord_armLoop (n := n) (len := len.toNat) (need := { words := 2, ill := loopArmed s n }) (by rwa [loopArmed, unarmed]) rfl
        (.loopi h n count len) fun _ => count.toNat
      exact congrArg Host.Outcome.next e
  case illegal => exact fun s h n a ka len armed ht => congrArg Host.Outcome.next (issueWord_illegal ht armed rfl _ _)
  case illegali => exact fun s h n count len armed ht => congrArg Host.Outcome.next (issueWord_illegal ht armed rfl _ _)
  case one =>
    intro t p q n l hl armed stop level
    rw [arriveAt_one hl ⟨armed, stop, level⟩]
    exact ⟨fun more => if_pos more, fun last => if_neg last.not_gt⟩
  case upper =>
    intro t p q m n k l hm hl ka la ks ls kl ll later last more
    rw [arriveAt_upper hm hl ⟨ka, ks, kl⟩ ⟨la, ls, ll⟩ later, if_neg last.not_gt, if_pos more]
  case lower =>
    intro t p q m n k l hm hl ka la ks ls kl ll later last more
    rw [arriveAt_lower hm hl ⟨ka, ks, kl⟩ ⟨la, ls, ll⟩ later, if_neg last.not_gt, if_pos more]
  case both =>
    intro t p q m n k l hm hl ka la ks ls kl ll ne lastk lastl
    rcases Nat.lt_or_gt_of_ne ne with later | later
    · rw [arriveAt_upper hm hl ⟨ka, ks, kl⟩ ⟨la, ls, ll⟩ later, if_neg lastl.not_gt, if_neg lastk.not_gt]
    · rw [arriveAt_lower hm hl ⟨ka, ks, kl⟩ ⟨la, ls, ll⟩ later, if_neg lastk.not_gt, if_neg lastl.not_gt]
  case first =>
    intro t p q m n k l hm hl ka la ks ls kl ll
    exact ⟨fun later more => by rw [arriveAt_upper hm hl ⟨ka, ks, kl⟩ ⟨la, ls, ll⟩ later, if_pos more],
      fun later more => by rw [arriveAt_lower hm hl ⟨ka, ks, kl⟩ ⟨la, ls, ll⟩ later, if_pos more]⟩
  case none => exact fun t p q h => arriveAt_none h

end Sys2Proof.Machine.Proofs
end

section
/-! PROOFS. Register writes that land, and the checks of the queues at issue (R44 to R46). -/

namespace Sys2Proof.Machine.Proofs

open Sys2Proof Sys2Proof.Machine Sys2Proof.Machine.Safety Sys2Proof.Machine.Laws

/-! ## Landing (R45, R46) -/

theorem landDue_one {s : State} {p t limit : Nat} {f : Flight} {v : W64} (h : firstLanding (part s p).flights = some (f, t, v)) :
    landDue p limit 1 s = if t ≤ limit then landFlight s p f v else s := by
  simp only [landDue, h]

theorem landingOf_eq_some_iff {f : Flight} {t : Nat} {v : W64} : landingOf f = some (t, v) ↔ f.val = .exposed t v ∨ f.val = .landing t v := by
  unfold landingOf
  cases f.val <;> simp

theorem landingOf_eq_none_iff {f : Flight} : landingOf f = none ↔ ∀ t v, f.val ≠ .exposed t v ∧ f.val ≠ .landing t v := by
  simp only [Option.eq_none_iff_forall_ne_some, Prod.forall, ne_eq, landingOf_eq_some_iff, not_or]

theorem joinReg_eq (x : Part) (r : Nat) (v : W64) :
    joinReg x r v = { x with regs := if r = 0 then x.regs else fput x.regs r (fgetD x.regs r [] ++ [v]) } := by
  unfold joinReg; split <;> rfl

theorem landFlight_unposted {s : State} {p : Nat} (f : Flight) (v : W64) (h : (part s p).posts = []) :
    landFlight s p f v = modPart s p fun x => joinReg { x with flights := dropFirst (· == f) x.flights } f.reg v := by
  rw [landFlight, postReady_idle]
  rw [part_modPart, joinReg_eq, h]

theorem modPart_rest (s : State) (p : Nat) (f : Part → Part) : { modPart s p f with parts := s.parts } = s := rfl

theorem firstLanding_eq_none {fs : List Flight} (h : firstLanding fs = none) : ∀ g ∈ fs, landingOf g = none := by
  induction fs with
  | nil => simp
  | cons f r ih =>
    cases hf : landingOf f with
    | none =>
      have hr : firstLanding r = none := by simpa [firstLanding, hf] using h
      simpa [hf] using ih hr
    | some w =>
      rw [firstLanding, hf] at h
      cases hr : firstLanding r <;> simp only [hr] at h
      · exact absurd h (by simp)
      · exact absurd h (by split <;> simp)

/-- The write that lands first, and where it stands: none before it lands as early, none after it lands earlier. -/
theorem firstLanding_spec {fs : List Flight} {f : Flight} {t : Nat} {v : W64} (h : firstLanding fs = some (f, t, v)) :
    landingOf f = some (t, v) ∧ ∃ before after, fs = before ++ f :: after ∧ (∀ g ∈ before, ∀ t' v', landingOf g = some (t', v') → t < t') ∧
      ∀ g ∈ after, ∀ t' v', landingOf g = some (t', v') → t ≤ t' := by
  induction fs generalizing f t v with
  | nil => simp [firstLanding] at h
  | cons a r ih =>
    cases ha : landingOf a with
    | none =>
      have hr : firstLanding r = some (f, t, v) := by simpa [firstLanding, ha] using h
      obtain ⟨lands, before, after, rfl, early, late⟩ := ih hr
      refine ⟨lands, a :: before, after, rfl, ?_, late⟩
      simpa [ha] using early
    | some w =>
      cases hr : firstLanding r with
      | none =>
        simp only [firstLanding, ha, hr, Option.some.injEq, Prod.mk.injEq] at h
        obtain ⟨rfl, rfl, rfl⟩ := h
        exact ⟨ha, [], r, rfl, by simp, fun g hg t' v' e => absurd e (by simp [firstLanding_eq_none hr g hg])⟩
      | some x =>
        obtain ⟨g, tg, vg⟩ := x
        obtain ⟨lands, before, after, rfl, early, late⟩ := ih hr
        simp only [firstLanding, ha, hr] at h
        split at h
        next le =>
          simp only [Option.some.injEq, Prod.mk.injEq] at h
          obtain ⟨rfl, rfl, rfl⟩ := h
          refine ⟨ha, [], before ++ g :: after, rfl, by simp, fun y hy t' v' e => ?_⟩
          rcases List.mem_append.1 hy with hy | hy
          · exact le.trans (early y hy t' v' e).le
          · rcases List.mem_cons.1 hy with rfl | hy
            · rw [lands] at e
              simp only [Option.some.injEq, Prod.mk.injEq] at e
              exact e.1 ▸ le
            · exact le.trans (late y hy t' v' e)
        next lt =>
          simp only [Option.some.injEq, Prod.mk.injEq] at h
          obtain ⟨rfl, rfl, rfl⟩ := h
          refine ⟨lands, a :: before, after, rfl, fun y hy t' v' e => ?_, late⟩
          rcases List.mem_cons.1 hy with rfl | hy
          · rw [ha, Option.some.injEq] at e
            subst e
            exact not_le.1 lt
          · exact early y hy t' v' e

/-- Settles O6: one landing (`landDue_one`), its effect without posts (`landFlight_unposted`), and which write is first (`firstLanding_spec`). -/
theorem registerWritesLandInOrder : Obligations.RegisterWritesLandInOrder := by
  refine ⟨fun s p f t v first => ?lands, fun s p f v unposted => ?effect, fun fs f t v first => ?first, fun fs none g hg => ?none⟩
  case lands =>
    have e : exec (.registerWriteLanding p) s = .next (landDue p s.time 1 s) := rfl
    rw [e, landDue_one first]
    exact ⟨fun due => by rw [if_pos due], fun early => by rw [if_neg early.not_ge]⟩
  case effect =>
    rw [landFlight_unposted f v unposted, part_modPart, joinReg_eq]
    exact ⟨rfl, modPart_rest s p _, fun q hq => part_modPart_other s _ hq⟩
  case first =>
    obtain ⟨lands, before, after, order, early, late⟩ := firstLanding_spec first
    exact ⟨landingOf_eq_some_iff.1 lands, before, after, order, fun g hg t' v' e => early g hg t' v' (landingOf_eq_some_iff.2 e),
      fun g hg t' v' e => late g hg t' v' (landingOf_eq_some_iff.2 e)⟩
  case none => exact landingOf_eq_none_iff.1 (firstLanding_eq_none none g hg)

/-! ## The checks of the queues (R34, R46) -/

section
variable {s : State} {h : Hdr} {d a b : Reg} {ka kb : Bool} (i : Instr) (lat : Nat) (f : W64 → W64 → W64)

/-- A two-operand word that lacks an entry holds for an interlocked write in flight, and raises QUEUE_UNDERFLOW without one. -/
theorem alu3_lacking {r : Nat} (ht : Tries s h) (whole : loopCuts (part s s.cur).loops (part s s.cur).priv (part s s.cur).pc.toNat 1 = false)
    (read : takeReads (part s s.cur).regs [rd s a ka, rd s b kb] = .error r) : alu3 s i h d a b ka kb lat f =
      if (part s s.cur).flights.any (fun f => f.reg == r && interlocked f) then holdWord (countIgnored s h) s.cur h.stop
      else trapAt (countIgnored s h) s.cur i 0 0x02 0 0 := by
  rw [alu3, aluWord, issueWord_tried ht]
  simp only [whole, Bool.or_self, Bool.false_eq_true, ↓reduceIte, Nat.not_lt_zero, decide_false, read]

/-- A two-operand word whose destination has no room raises QUEUE_OVERFLOW. -/
theorem alu3_crowded {vals : List W64} {regs : FMap (List W64)} (ht : Tries s h)
    (whole : loopCuts (part s s.cur).loops (part s s.cur).priv (part s s.cur).pc.toNat 1 = false)
    (read : takeReads (part s s.cur).regs [rd s a ka, rd s b kb] = .ok (vals, regs)) (kept : dstOf s d ≠ 0)
    (full : 4 < (fgetD regs (dstOf s d) []).length + inFlight (part s s.cur) (dstOf s d) + 1) :
    alu3 s i h d a b ka kb lat f = trapAt (countIgnored s h) s.cur i 0 0x03 0 0 := by
  rw [alu3, aluWord, issueWord_tried ht]
  simp only [whole, Bool.or_self, Bool.false_eq_true, ↓reduceIte, Nat.not_lt_zero, decide_false, read, if_pos (And.intro kept full)]

end

/-- Settles O7: the reads fail (`alu3_lacking`) or the room does (`alu3_crowded`). -/
theorem queueChecksAtIssue : Obligations.QueueChecksAtIssue :=
  ⟨fun _ _ _ _ _ _ _ _ ht whole read => ⟨congrArg Host.Outcome.next (alu3_lacking _ _ _ ht whole read), congrArg Host.Outcome.next (alu3_lacking _ _ _ ht whole read)⟩,
    fun _ _ _ _ _ _ _ _ _ ht whole read kept full =>
      ⟨congrArg Host.Outcome.next (alu3_crowded _ _ _ ht whole read kept full), congrArg Host.Outcome.next (alu3_crowded _ _ _ ht whole read kept full)⟩⟩

end Sys2Proof.Machine.Proofs
end

section
/-! PROOFS. Traps: entry, delivery and return (R65 to R67, R369, R370). -/

namespace Sys2Proof.Machine.Proofs

open Sys2Proof Sys2Proof.Machine Sys2Proof.Machine.Safety Sys2Proof.Machine.Laws

theorem w64_toNat (v : W64) : w64 v.toNat = v := BitVec.ofNat_toNat ..

/-! ## Entry (R65, R66) -/

theorem physPut_same (s : State) (pa : Nat) (bs : List Byte) : SameButRead s (physPut s pa bs) := by
  unfold physPut
  refine foldl_same (fun s x => ?_) _ s
  exact ((keepBehind_same s x.1).trans (putSector_same _ _ _ _)).trans (useMsc_same _ _ _)

/-- A partition whose trap `t` has been entered. -/
def handlerPart (x : Part) (t : TrapEntry) : Part :=
  { x with
    tpc := w64 t.tpc, tcause := w64 (t.cause + (if t.cause = 0x10 then t.code else x.tcause.toNat / 2 ^ 8 % 2 ^ 15) * 2 ^ 8), tpriv := x.priv, priv := 1, unflagged := 0, pc := x.tvec,
    entering := none, resumeQueues := t.queue :: x.resumeQueues, atHandler := true, replayAt := none, probe := none, holding := false, flagIgnored := false, fetchSeen := none, leaveWait := none }

/-- The state after the record of a trap is written, where `cr.trec` lies in the HBM of the quarter (R66). -/
def trapRecorded (s : State) (p : Nat) (t : TrapEntry) : State :=
  if inHbm (quarterOf p) (part s p).trec.toNat 64 then
    physPut s (part s p).trec.toNat (trapRecord s (part s p) t (viewOf s p) (!(part s p).pending.isEmpty))
  else s

theorem enterHandler_eq (s : State) (p : Nat) (t : TrapEntry) : enterHandler s p t = modPart (trapRecorded s p t) p fun x => handlerPart x t := rfl

theorem trapRecorded_same (s : State) (p : Nat) (t : TrapEntry) : SameButRead s (trapRecorded s p t) := by
  unfold trapRecorded; split
  · exact physPut_same ..
  · exact SameButRead.rfl s

theorem parts_trapRecorded (s : State) (p : Nat) (t : TrapEntry) : (trapRecorded s p t).parts = s.parts := by
  obtain ⟨_, _, _, _, _, _, _, _, _, h⟩ := trapRecorded_same s p t; rw [h]

theorem part_enterHandler (s : State) (p : Nat) (t : TrapEntry) : part (enterHandler s p t) p = handlerPart (part s p) t := by
  rw [enterHandler_eq, part_modPart, part_of_parts (parts_trapRecorded s p t)]

theorem part_enterHandler_other (s : State) {p q : Nat} (t : TrapEntry) (h : q ≠ p) : part (enterHandler s p t) q = part s q := by
  rw [enterHandler_eq, part_modPart_other _ _ h, part_of_parts (parts_trapRecorded s p t)]

theorem cores_enterHandler (s : State) (p : Nat) (t : TrapEntry) : (enterHandler s p t).cores = s.cores := by
  obtain ⟨_, _, _, _, _, _, _, _, _, h⟩ := trapRecorded_same s p t
  rw [enterHandler_eq, modPart, setPart_cores, h]

theorem core_enterHandler (s : State) (p c : Nat) (t : TrapEntry) : core (enterHandler s p t) c = core s c := by
  rw [core, cores_enterHandler]; rfl

/-- Entry writes the record at `cr.trec`. -/
theorem enterHandler_recorded {s : State} {p : Nat} (t : TrapEntry) (h : inHbm (quarterOf p) (part s p).trec.toNat 64 = true) :
    trapRecorded s p t = physPut s (part s p).trec.toNat (trapRecord s (part s p) t (viewOf s p) (!(part s p).pending.isEmpty)) := if_pos h

/-- Entry touches no byte where `cr.trec` lies elsewhere. -/
theorem enterHandler_unrecorded {s : State} {p : Nat} (t : TrapEntry) (h : inHbm (quarterOf p) (part s p).trec.toNat 64 = false) :
    (enterHandler s p t).mem = s.mem ∧ (enterHandler s p t).die = s.die := by
  rw [enterHandler_eq, trapRecorded, if_neg (by rw [h]; exact Bool.false_ne_true)]; exact ⟨rfl, rfl⟩

/-- A word that finds no write in flight counts no ignored flag (R19). -/
theorem countIgnored_landed {s : State} (h : Hdr) (landed : (part s s.cur).flights = []) : countIgnored s h = s := by
  unfold countIgnored ignoresFlag
  rw [landed]
  cases (part s s.cur).holding <;> simp

/-- A trap of a partition that has no write in flight is entered at once (R65). -/
theorem takeTrap_landed {s : State} {p : Nat} (t : TrapEntry) (landed : (part s p).flights = []) : takeTrap s p t =
    enterHandler (modCore s (coreOf p) fun x => { x with nextIssue := max x.nextIssue (s.time + 1) }) p t := by
  rw [takeTrap, part_modCore, landed, List.isEmpty_nil, if_pos rfl]

theorem core_nextIssue_rest (s : State) (c : Nat) (f : Nat → Nat) (d : Nat) :
    { core (modCore s c fun x => { x with nextIssue := f x.nextIssue }) d with nextIssue := (core s d).nextIssue } = core s d := by
  by_cases h : d = c
  · rw [h, core_modCore]
  · rw [core_modCore_other _ _ h]

/-! ## The record (R370) -/

/-- Numbers as bytes, each in its own width. -/
def packed (l : List (Nat × Nat)) : List Byte := l.flatMap fun x => leBytes x.1 x.2

theorem leBytes_length (n v : Nat) : (leBytes n v).length = n := by
  induction n generalizing v with
  | zero => rfl
  | succ n ih => rw [leBytes, List.length_cons, ih]

theorem leNat_leBytes (n v : Nat) : leNat (leBytes n v) = v % 256 ^ n := by
  induction n generalizing v with
  | zero => rw [leBytes, leNat, Nat.pow_zero, Nat.mod_one]
  | succ n ih =>
    rw [leBytes, leNat, ih, BitVec.toNat_ofNat, pow_succ' 256 n, Nat.mod_mul]

theorem packed_length (l : List (Nat × Nat)) : (packed l).length = (l.map (·.1)).sum := by
  simp [packed, List.length_flatMap, leBytes_length]

/-- A field of packed numbers reads back. -/
theorem leNat_packed (before after : List (Nat × Nat)) (n v : Nat) :
    leNat (((packed (before ++ (n, v) :: after)).drop (before.map (·.1)).sum).take n) = v % 256 ^ n := by
  have e : packed (before ++ (n, v) :: after) = packed before ++ (leBytes n v ++ packed after) := by
    simp [packed, List.flatMap_append]
  rw [e, List.drop_left' (packed_length before), List.take_left' (leBytes_length n v), leNat_leBytes]

/-- The fields of a trap record, with their widths in bytes. -/
def recordFields (s : State) (x : Part) (t : TrapEntry) (view : Nat) (more : Bool) : List (Nat × Nat) :=
  [(8, t.cause + t.code * 2 ^ 8 + x.priv * 2 ^ 26 + (if more then 2 ^ 28 else 0) + t.src * 2 ^ 29 + view * 2 ^ 36), (8, t.tpc), (8, t.pc),
    (4, t.word0), (4, t.word1), (8, t.addr.toNat), (8, x.workid.toNat), (8, x.cont.toNat), (8, s.time)]

theorem trapRecord_eq (s : State) (x : Part) (t : TrapEntry) (view : Nat) (more : Bool) :
    trapRecord s x t view more = packed (recordFields s x t view more) := by
  simp [trapRecord, packed, recordFields, List.flatMap_cons]

/-- A field of the record, where its value fits. -/
theorem leNat_trapRecord {s : State} {x : Part} {t : TrapEntry} {view : Nat} {more : Bool} {o n v : Nat} (before after : List (Nat × Nat))
    (split : recordFields s x t view more = before ++ (n, v) :: after) (place : (before.map (·.1)).sum = o) (fits : v < 256 ^ n) :
    leNat (((trapRecord s x t view more).drop o).take n) = v := by
  rw [trapRecord_eq, split, ← place, leNat_packed, Nat.mod_eq_of_lt fits]

/-- Settles O8: `trap` enters its handler at once (`takeTrap_landed`); the record is nine packed fields. -/
theorem trapWordTakesBreakAndRecords : Obligations.TrapWordTakesBreakAndRecords := by
  refine ⟨fun s h regs tokens code hi landed => ?word, fun s p t hbm => ?record⟩
  case word =>
    have e : exec (.trap h code) s = .next (issueWord s (.trap h code) h {} fun _ _ => .trap 0x10 code.toNat 0) := rfl
    rw [e, issueWord_trap hi _ _ rfl, countIgnored_landed h landed, trapAt, takeTrap_landed _ landed]
    refine ⟨_, rfl, ?_, fun q hq => part_enterHandler_other _ _ hq, fun c => ?_, fun out => enterHandler_unrecorded _ out⟩
    · rw [part_enterHandler, part_modCore]
      have pc : w64 (((part s s.cur).pc.toNat + 4) % 2 ^ 64) = (part s s.cur).pc + 4 :=
        BitVec.eq_of_toNat_eq (by rw [w64, BitVec.toNat_ofNat, Nat.mod_mod]; rfl)
      rw [handlerPart, ← hi.calm]
      simp only [↓reduceIte, pc, hi.calm]
      rfl
    · rw [core_enterHandler]; exact core_nextIssue_rest s _ (fun n => max n (s.time + 1)) c
  case record =>
    intro u x bs
    have field (o n v : Nat) (before after : List (Nat × Nat)) (split : recordFields s x t (viewOf s p) (!x.pending.isEmpty) = before ++ (n, v) :: after)
        (place : (before.map (·.1)).sum = o) (fits : v < 256 ^ n) : leNat ((bs.drop o).take n) = v := leNat_trapRecord before after split place fits
    refine ⟨?_, ?_, ?_, fun cause code priv src view' => ?_, ?_, ?_, ?_, ?_, ?_, ?_, ?_, ?_⟩
    · rw [← enterHandler_recorded t hbm]; rfl
    · rw [← enterHandler_recorded t hbm]; rfl
    · rw [show bs = _ from trapRecord_eq .., packed_length]; rfl
    · have more : (if (!x.pending.isEmpty) = true then 2 ^ 28 else 0) = if x.pending.isEmpty then 0 else 2 ^ 28 := by cases x.pending.isEmpty <;> rfl
      have small : (if x.pending.isEmpty then 0 else 2 ^ 28) ≤ 2 ^ 28 := by split <;> decide
      rw [← more] at small ⊢
      exact field 0 8 _ [] _ rfl rfl (by omega)
    · exact field 8 8 t.tpc [_] _ rfl rfl
    · exact field 16 8 t.pc [_, _] _ rfl rfl
    · exact field 24 4 t.word0 [_, _, _] _ rfl rfl
    · exact field 28 4 t.word1 [_, _, _, _] _ rfl rfl
    · exact field 32 8 t.addr.toNat [_, _, _, _, _] _ rfl rfl t.addr.isLt
    · exact field 40 8 x.workid.toNat [_, _, _, _, _, _] _ rfl rfl x.workid.isLt
    · exact field 48 8 x.cont.toNat [_, _, _, _, _, _, _] _ rfl rfl x.cont.isLt
    · exact field 56 8 s.time [_, _, _, _, _, _, _, _] _ rfl rfl

/-! ## Return (R67, R369) -/

/-- The state that a word which departs leaves, before its tokens are posted and its core goes on: a resident record owes its posts. -/
def owing (s t : State) (h : Hdr) : State :=
  if (part t s.cur).resident.isSome then modPart t s.cur fun x => { x with posts := x.posts ++ owedPosts s false h } else t

theorem departed_eq (s : State) (h : Hdr) (t : State) :
    departed s h t = postReady (modCore (owing s t h) (coreOf s.cur) fun c => { c with nextIssue := s.time + 1 }) s.cur := rfl

theorem part_owing (s t : State) (h : Hdr) : ∃ l, part (owing s t h) s.cur = { part t s.cur with posts := l } := by
  unfold owing; split
  · exact ⟨_, part_modPart ..⟩
  · exact ⟨_, rfl⟩

theorem owing_bytes (s t : State) (h : Hdr) : (owing s t h).mem = t.mem ∧ (owing s t h).die = t.die := by
  unfold owing; split <;> exact ⟨rfl, rfl⟩

/-- What the return from a trap leaves of the partition. -/
theorem part_returnFromTrap (s : State) (p : Nat) : ∃ q, part (returnFromTrap s p) p = { part s p with
    pc := (part s p).tpc, priv := (part s p).tpriv, unflagged := 0, resumeQueues := (part s p).resumeQueues.tail, queues := q } :=
  ⟨_, part_modPart ..⟩

/-- The queue that the trap entered last froze runs again, where nothing else freezes it (R369). -/
theorem cmdQueue_returnFromTrap {s : State} {p k : Nat} {r : List Nat} (top : (part s p).resumeQueues = k :: r) (engine : k < 6) (once : k ∉ r)
    (quiet : ∀ u ∈ (part s p).pending, u.queue ≠ k) : cmdQueue (returnFromTrap s p) p k = { cmdQueue s p k with frozen := false } := by
  have e : resumedQueue (part s p) = some k := by
    have h : ¬(6 ≤ k ∨ r.contains k ∨ (part s p).pending.any fun t => t.queue == k) := by
      simp only [List.contains_iff_mem, List.any_eq_true, beq_iff_eq, not_or, not_exists, not_and]
      exact ⟨by omega, once, quiet⟩
    rw [resumedQueue, top]; exact if_neg h
  simp [cmdQueue, returnFromTrap, e]

/-- A word that reads no register leaves the queues. -/
theorem issues_unread {s : State} {h : Hdr} {n : Need} {regs : FMap (List W64)} {tokens : FMap Nat} (hi : Issues s h n [] regs tokens)
    (unread : n.reads = []) : regs = (part s s.cur).regs := by
  have e := hi.read
  rw [unread, takeReads] at e
  injection e with e
  exact (Prod.mk.inj e).2.symm

/-- Settles O9: the word departs from the state of `returnFromTrap`; at user level its level is refused (`issueWord_tried`). -/
theorem trapReturnResumes : Obligations.TrapReturnResumes := by
  refine fun s h regs tokens => ⟨fun hi => ?returns, fun user ht whole => ?refused⟩
  case returns =>
    have e : exec (.tret h) s = .next (issueWord s (.tret h) h { level := 1 } fun _ t => .away (returnFromTrap t t.cur)) := rfl
    obtain rfl := issues_unread hi rfl
    rw [e, issueWord_away hi rfl rfl _ _ rfl, departed_eq, issued_cur]
    obtain ⟨l, hl⟩ := part_owing s (returnFromTrap (issued s h (part s s.cur).regs tokens) s.cur) h
    obtain ⟨q, hq⟩ := part_returnFromTrap (issued s h (part s s.cur).regs tokens) s.cur
    rw [hq] at hl
    obtain ⟨mem, die⟩ := owing_bytes s (returnFromTrap (issued s h (part s s.cur).regs tokens) s.cur) h
    have queue (k : Nat) : cmdQueue (owing s (returnFromTrap (issued s h (part s s.cur).regs tokens) s.cur) h) s.cur k =
        cmdQueue (returnFromTrap (issued s h (part s s.cur).regs tokens) s.cur) s.cur k := by rw [cmdQueue, hl, cmdQueue, hq]
    have before (k : Nat) : cmdQueue (issued s h (part s s.cur).regs tokens) s.cur k = cmdQueue s s.cur k := by simp [cmdQueue]
    refine ⟨_, rfl, by simp [hl], by simp [hl], by simp [hl], by simp [hl], by simp [hl], by simp [hl], by simp [hl], by simp [hl],
      fun k r top engine once quiet => ?_, fun k other => ?_, ?_, ?_⟩
    · rw [queue, cmdQueue_returnFromTrap (by simpa using top) engine once (by simpa using quiet), before]
    · rw [queue, cmdQueue_returnFromTrap_ne (by simpa using other), before]
    · rw [mem, returnFromTrap_mem, issued_mem]
    · rw [die, returnFromTrap_die, issued_die]
  case refused =>
    have e : exec (.tret h) s = .next (issueWord s (.tret h) h { level := 1 } fun _ t => .away (returnFromTrap t t.cur)) := rfl
    rw [e, issueWord_tried ht]
    simp only [user, whole, Bool.or_self, Bool.false_eq_true, ↓reduceIte, Nat.zero_lt_one, decide_true, Bool.or_true]

/-! ## Delivery (R369) -/

/-- The entry of a pending trap at the pc of its partition. -/
def pendingEntry (x : Part) (t : PendingTrap) : TrapEntry :=
  { cause := t.cause, code := 0, src := t.src, pc := t.pc, tpc := x.pc.toNat, word0 := t.word0, word1 := t.word1, addr := t.addr, queue := t.queue }

theorem deliverPending_eq {s : State} {p : Nat} {t : PendingTrap} {r : List PendingTrap} (h : (part s p).pending = t :: r) :
    deliverPending s p = enterHandler (modPart s p fun x => { x with pending := r }) p (pendingEntry (part s p) t) := by
  rw [deliverPending, h]; rfl

/-- Settles O38: where every condition holds the oldest trap is entered; where one fails nothing changes. -/
theorem pendingTrapsAreDelivered : Obligations.PendingTrapsAreDelivered := by
  refine ⟨fun s p t r issue calm pending landed free ready => ?delivers, fun s p unmet => ?idle⟩
  case delivers =>
    have e : exec (.pendingTrapDelivery p) s = .next (deliverPending s p) := by
      refine congrArg Host.Outcome.next (if_pos ⟨issue, ?_, ?_, ?_, ?_, ready⟩)
      · rw [calm]; rfl
      · rw [pending]; exact Bool.false_ne_true
      · rw [landed]; rfl
      · rw [free]; exact Bool.false_ne_true
    rw [e, deliverPending_eq pending]
    refine ⟨_, rfl, ?_, fun q hq => ?_, cores_enterHandler .., fun out => ?_⟩
    · rw [part_enterHandler, part_modPart, handlerPart, pendingEntry]
      simp only [w64_toNat, calm]
    · rw [part_enterHandler_other _ _ hq, part_modPart_other _ _ hq]
    · exact enterHandler_unrecorded _ (by rw [part_modPart]; exact out)
  case idle =>
    refine congrArg Host.Outcome.next (if_neg ?_)
    rintro ⟨issue, calm, pending, landed, free, ready⟩
    rcases unmet with h | h | h | h | h | h
    · exact Bool.false_ne_true (h.symm.trans issue)
    · simp_all
    · simp_all
    · simp_all
    · exact free h
    · simp_all

end Sys2Proof.Machine.Proofs
end

section
/-! PROOFS. Loads whose values return, holds that are tried again, and the hold timer (R45, R47, R75, R231). -/

namespace Sys2Proof.Machine.Proofs

open Sys2Proof Sys2Proof.Machine Sys2Proof.Machine.Safety Sys2Proof.Machine.Laws

/-! ## What a stream has under way (R75) -/

theorem replayOne_idle {s : State} {c : Nat} (log : (core s c).sideLog = []) (held : (core s c).sideHeld = []) : replayOne s c = s := by
  rw [replayOne, log, held]; rfl

/-- A stream without a waiting load and with an empty store queue. -/
theorem retryAccesses_idle {s : State} {p : Nat} (loads : ∀ g ∈ (part s p).flights, pendingLoad g = none) (stores : (part s p).stores = []) (n : Nat) :
    retryAccesses n s p = s := by
  have none : (part s p).flights.findSome? (fun f => (pendingLoad f).map fun r => (f, r)) = none :=
    List.findSome?_eq_none_iff.2 fun g hg => by rw [loads g hg]; rfl
  cases n with
  | zero => rfl
  | succ n => simp only [retryAccesses, tryFirstLoad, none, stores]

/-- A stream that has nothing under way. -/
theorem retryStream_idle {s : State} {p : Nat} (loads : ∀ g ∈ (part s p).flights, pendingLoad g = none) (stores : (part s p).stores = [])
    (log : (core s (coreOf p)).sideLog = []) (held : (core s (coreOf p)).sideHeld = []) : retryStream (replayOne s (coreOf p)) p = s := by
  rw [replayOne_idle log held, retryStream, retryAccesses_idle loads stores]

theorem parts_readNum {s u : State} {c : Ctx} {va n hint : Nat} {r : Except MemErr Nat} (h : readNum s c va n hint = (u, r)) : u.parts = s.parts ∧ u.time = s.time := by
  have e : (readNum s c va n hint).1 = (readVa s c va n hint).1 := by rw [readNum]; split <;> simp [*]
  rw [h] at e
  subst e
  exact ⟨readVa_parts .., readVa_time ..⟩

theorem loadWaits_alone {s : State} {p : Nat} {f : Flight} {r : LoadReq} (flights : (part s p).flights = [f]) (stores : (part s p).stores = [])
    (awaits : s.awaits = []) (pools : poolsWritten s p = false) (log : (core s (coreOf p)).sideLog = []) (held : (core s (coreOf p)).sideHeld = [])
    (gate : r.gate = 0) (homes : slicesTested s = []) : loadWaits s p f.seq r = false := by
  have hr : hrWords s p = [] := by simpa [poolsWritten] using pools
  simp [loadWaits, loadsBefore, flights, stores, markHolds, gate, acquireHolds, awaits, writeAhead, hrBefore, hr, log, held, waitsHome_untested homes]

/-- A load of this device that reads its place has its value. -/
theorem tryLoad_value {s u : State} {p : Nat} {r : LoadReq} {v : Nat} (watch : r.watch = none) (plain : r.readOnly = false) (here : isHere r.va = true)
    (memory : isMgmt r.va = false) (read : readNum s (ctxOf s p .control) r.va r.bytes r.hint = (u, .ok v)) : tryLoad s p r = (u, .value v) := by
  unfold isHere at here
  unfold isMgmt at memory
  unfold tryLoad
  cases e : locOf r.va with
  | here q off =>
    rw [e] at memory
    simp only at memory
    simp only [memory, plain, read, watch, Bool.false_eq_true, ↓reduceIte]
  | _ => simp [e] at here

theorem setFlight_head {s : State} {p : Nat} {f : Flight} (flights : (part s p).flights = [f]) (v : FlightVal) :
    setFlight s p f.seq v = modPart s p fun x => { x with flights := [{ f with val := v }] } :=
  modPart_congr (by simp [flights, replaceFirst])

/-- A load with nothing of its stream before it reads its place, and its value lands in the next ac. -/
theorem valueReturns_load {s u : State} {p : Nat} {f : Flight} {r : LoadReq} {v : Nat} (flights : (part s p).flights = [f]) (load : f.val = .load r)
    (stores : (part s p).stores = []) (unlogged : (part s p).ords = []) (log : (core s (coreOf p)).sideLog = []) (held : (core s (coreOf p)).sideHeld = [])
    (free : loadWaits s p f.seq r = false) (seen : r.seen ≤ s.retries) (here : isHere r.va = true) (tried : tryLoad s p r = (u, .value v))
    (parts : u.parts = s.parts) (time : u.time = s.time) :
    valueReturns s p f.seq = modPart u p fun x => { x with flights := [{ f with val := .landing (s.time + 1) (extend r v) }] } := by
  have near : isRemote r.va = false := by
    unfold isHere at here; unfold isRemote
    cases e : locOf r.va <;> simp [e] at here ⊢
  have flightsU : (part u p).flights = [f] := by rw [part_of_parts parts, flights]
  have first : tryFirstLoad s p = (setFlight u p f.seq (.ready (extend r v)), true) := by
    have ords : (fget (part u p).ords f.seq).isSome = false := by rw [part_of_parts parts, unlogged]; rfl
    have pending : pendingLoad f = some r := by rw [pendingLoad, load]
    simp [tryFirstLoad, flights, pending, tryFlight, free, seen.not_gt, near, tried, ords]
  rw [setFlight_head flightsU] at first
  simp [valueReturns, replayOne_idle log held, retryStream, flights, stores, retryAccesses, first, setFlight, modPart_modPart, replaceFirst, time]

/-! ## The sign of a load's value (R75) -/

theorem toInt_extend {r : LoadReq} {v : Nat} (signed : r.signed = true) (some : 0 < r.bytes) (most : r.bytes ≤ 8) (fits : v < 2 ^ (8 * r.bytes)) :
    (extend r v).toInt = if v < 2 ^ (8 * r.bytes - 1) then (v : Int) else (v : Int) - 2 ^ (8 * r.bytes) := by
  have double : 2 ^ (8 * r.bytes) = 2 * 2 ^ (8 * r.bytes - 1) := by rw [← Nat.pow_succ', Nat.succ_eq_add_one, Nat.sub_add_cancel (by omega)]
  have half : 2 ^ (8 * r.bytes - 1) ≤ 2 ^ 63 := Nat.pow_le_pow_right (by decide) (by omega)
  have word : (w64 v).toNat = v := Nat.mod_eq_of_lt (by omega)
  have e : sxInt v (8 * r.bytes) = if v < 2 ^ (8 * r.bytes - 1) then (v : Int) else (v : Int) - 2 ^ (8 * r.bytes) := by
    rw [sxInt, Nat.mod_eq_of_lt fits, if_neg (by omega)]; push_cast; rfl
  have whole : (2 : Int) ^ (8 * r.bytes) = (2 ^ (8 * r.bytes) : Nat) := by push_cast; rfl
  rw [extend, if_pos signed, sx64, word, e, BitVec.toInt_ofInt_eq_self (by decide)]
  all_goals rw [whole]; split <;> omega

/-- Settles O36: a load alone reads its place (`valueReturns_load`), a bound value lands (`retryStream_idle`), and the extension is that of R75. -/
theorem loadsReturnTheirValue : Obligations.LoadsReturnTheirValue := by
  refine ⟨?load, ?bound, ?idle, fun r v => ⟨fun unsigned => ?zero, toInt_extend⟩⟩
  case load =>
    intro s u p f r v flights load stores unlogged awaits pools log held gate seen watch plain here memory homes read
    obtain ⟨parts, time⟩ := parts_readNum read
    exact congrArg Host.Outcome.next (valueReturns_load flights load stores unlogged log held (loadWaits_alone flights stores awaits pools log held gate homes)
      seen here (tryLoad_value watch plain here memory read) parts time)
  case bound =>
    intro s p seq f v first ready loads stores log held
    have e : exec (.loadValueReturn p seq) s = .next (valueReturns s p seq) := rfl
    simp only [e, valueReturns, retryStream_idle loads stores log held, first, ready]
  case idle =>
    intro s p seq flights stores log held
    have e : exec (.loadValueReturn p seq) s = .next (valueReturns s p seq) := rfl
    simp only [e, valueReturns, retryStream_idle (by simp [flights]) stores log held, flights, List.find?_nil]
  case zero => rw [extend, unsigned]; rfl

/-! ## Holds (R47, R231) -/

theorem resumeHeld_holding {s : State} {c p : Nat} (issuer : (core s c).issue = some p) (holds : (part s p).holding = true)
    (later : s.time < (core s c).nextIssue) : resumeHeld s c = modCore s c fun x => { x with nextIssue := s.time } := by
  simp [resumeHeld, issuer, holds, later]

theorem resumeHeld_running {s : State} {c p : Nat} (issuer : (core s c).issue = some p) (holds : (part s p).holding = false) : resumeHeld s c = s := by
  simp [resumeHeld, issuer, holds]

/-- A counter of 32 bits goes up by 1, but from its maximum. -/
theorem mgetN_mbump (s : State) (q off : Nat) : mgetN (mbump s q off 32) q off =
    if mgetN s q off % 2 ^ 32 = 2 ^ 32 - 1 then mgetN s q off else mgetN s q off + 1 := by
  by_cases top : mgetN s q off % 2 ^ 32 = 2 ^ 32 - 1
  · rw [if_pos top]; simp only [mbump, if_pos top]
  · have room : mgetN s q off + 1 < 2 ^ 64 := by
      have := (mget s q off).isLt
      rw [mgetN] at top ⊢
      omega
    rw [if_neg top]
    simp only [mbump, if_neg top, w64]
    rw [mgetN, mget_mset, BitVec.toNat_ofNat, Nat.mod_eq_of_lt room]

theorem mget_modPart (s : State) (p q off : Nat) (f : Part → Part) : mget (modPart s p f) q off = mget s q off := by rw [mget, mget, modPart_mgmt]

theorem mkey_ne (q : Nat) {off off' : Nat} (h : off ≠ off') : mkey q off ≠ mkey q off' := fun e => h (Nat.add_left_cancel e)

/-- What the hold timer notes at its limit: the count, the unit and the pc. -/
def watchdogNoted (s : State) (p : Nat) : State :=
  mset (mset (mbump s (quarterOf p) regWdcnt 32) (quarterOf p) regWdunit (w64 (unitPart p))) (quarterOf p) regWdpc (part s p).pc

theorem watchdogNoted_rest (s : State) (p : Nat) : (watchdogNoted s p).parts = s.parts ∧ (watchdogNoted s p).cores = s.cores ∧
    (watchdogNoted s p).mem = s.mem ∧ (watchdogNoted s p).time = s.time := by
  simp only [watchdogNoted, mset_cores, mset_mem, mset_time, mbump]
  split <;> exact ⟨rfl, rfl, rfl, rfl⟩

theorem watchdog_expired {s : State} {p : Nat} (issue : hasIssue s p = true) (limit : mgetN s (quarterOf p) regWdlim ≠ 0)
    (expired : (part s p).holdSince + mgetN s (quarterOf p) regWdlim * 1250 ≤ s.time) :
    watchdog s p = modPart (watchdogNoted s p) p fun x => { x with holdSince := s.time } := by
  obtain ⟨-, -, -, time⟩ := watchdogNoted_rest s p
  have ac : acPerUs = 1250 := rfl
  rw [watchdog, ac, if_pos ⟨issue, limit, expired⟩, ← time]; rfl

theorem watchdog_waiting {s : State} {p : Nat}
    (under : ¬(mgetN s (quarterOf p) regWdlim ≠ 0 ∧ (part s p).holdSince + mgetN s (quarterOf p) regWdlim * 1250 ≤ s.time)) : watchdog s p = s := by
  have ac : acPerUs = 1250 := rfl
  rw [watchdog, ac, if_neg fun h => under h.2]

/-- Settles O37: the issuer of a core that holds may issue in this ac; the timer notes and starts again at its limit, and does nothing else. -/
theorem heldWordsResumeAndTimeOut : Obligations.HeldWordsResumeAndTimeOut := by
  refine ⟨fun s c p issuer => ⟨fun holds later => ?resumes, fun holds => ?runs⟩, fun s p issue limit expired => ?expires, fun s p under => ?waits⟩
  case resumes => exact congrArg Host.Outcome.next (resumeHeld_holding issuer holds later)
  case runs => exact congrArg Host.Outcome.next (resumeHeld_running issuer holds)
  case expires =>
    obtain ⟨parts, cores, mem, -⟩ := watchdogNoted_rest s p
    refine ⟨_, congrArg Host.Outcome.next (watchdog_expired issue limit expired), ?_, ?_, ?_, ?_, ?_, fun q hq => ?_, ?_, ?_⟩
    · rw [part_modPart]
    · rw [mget_modPart, watchdogNoted, mget_mset]
    · rw [mget_modPart, watchdogNoted, mget_mset_other _ _ (mkey_ne _ (by decide)), mget_mset]
    · rw [mgetN, mget_modPart, watchdogNoted, mget_mset_other _ _ (mkey_ne _ (by decide)), mget_mset_other _ _ (mkey_ne _ (by decide))]
      exact mgetN_mbump s _ _
    · rw [part_modPart, part_of_parts parts]
    · rw [part_modPart_other _ _ hq, part_of_parts parts]
    · rw [modPart_cores, cores]
    · rw [modPart_mem, mem]
  case waits =>
    refine congrArg Host.Outcome.next (watchdog_waiting ?_)
    omega

end Sys2Proof.Machine.Proofs
end

section
/-! PROOFS. The control registers as they are read and written (R48, R49, R304, R387). -/

namespace Sys2Proof.Machine.Proofs

open Sys2Proof Sys2Proof.Machine Sys2Proof.Machine.Safety Sys2Proof.Machine.Laws

/-! ## Reads -/

theorem recording_issued (s : State) (h : Hdr) (regs : FMap (List W64)) (tokens : FMap Nat) :
    recording (issued s h regs tokens) s.cur = recording s s.cur := by
  simp [recording, mgetN, mget]

/-- The issue of the word changes of the control registers only the count of ignored flags (R19). -/
theorem crValue_issued (s : State) (h : Hdr) (regs : FMap (List W64)) (tokens : FMap Nat) {n : Nat} (hn : n ≠ 0x019) :
    crValue (issued s h regs tokens) s.cur n = crValue s s.cur n := by
  simp [crValue, recording_issued, hn]

theorem crValue_format (s : State) (p : Nat) (n : Fin 16) : crValue s p (0x040 + n.val) = fgetD (core s (coreOf p)).formats n.val 0 := by
  have hn := n.isLt
  unfold crValue
  repeat rw [if_neg (by omega)]
  rw [if_pos (by omega), Nat.add_sub_cancel_left]

section
variable {s : State} {h : Hdr} {d : Reg} {regs : FMap (List W64)} {tokens : FMap Nat}

/-- A read of a register that is no observing read pushes its value. -/
theorem exec_crr_value {level : Nat} {w : Option Nat} (hi : Issues s h { dst := dstOf s d, level := level } [] regs tokens) (n : BitVec 10) (v : W64)
    (assigned : crLevels n.toNat = some (level, w)) (silent : ¬(n.toNat = 0x000 ∨ n.toNat = 0x018)) (value : crValue (issued s h regs tokens) s.cur n.toNat = v) :
    exec (.crr h d n) s = .next (onward s h false 1 (flyExposed (issued s h regs tokens) d 1 2 v)) := by
  refine congrArg Host.Outcome.next (issueWord_next (vals := []) (regs := regs) (tokens := tokens) ?_ _ _ ?_)
  · rw [assigned]; exact hi
  · rw [if_neg silent, issued_cur, value]

/-- A read of `cr.id` or `cr.time` takes an ordinal (R378). -/
theorem exec_crr_observed (hi : Issues s h { dst := dstOf s d } [] regs tokens) (unrecorded : Unrecorded s) (n : BitVec 10) {w : Option Nat}
    (assigned : crLevels n.toNat = some (0, w)) (observed : n.toNat = 0x000 ∨ n.toNat = 0x018) :
    exec (.crr h d n) s = .next (onward s h false 1 (flyExposed (bumpOrdinal (issued s h regs tokens) s.cur) d 1 2 (crValue s s.cur n.toNat))) := by
  have value := crValue_issued s h regs tokens (n := n.toNat) (by omega)
  have seen := observe_unrecorded (unrecorded_issued unrecorded h regs tokens) n.toNat (crValue s s.cur n.toNat)
  rw [issued_cur] at seen
  refine congrArg Host.Outcome.next (issueWord_next (vals := []) (regs := regs) (tokens := tokens) ?_ _ _ ?_)
  · rw [assigned]; exact hi
  · simp only [if_pos observed, issued_cur, value, seen]

end

/-- Settles O12: each number names its register by the branches of `crValue`. -/
theorem controlRegistersRead : Obligations.ControlRegistersRead := by
  intro s h regs tokens d x c get
  have same (n : Nat) (hn : n ≠ 0x019) : crValue (issued s h regs tokens) s.cur n = crValue s s.cur n := crValue_issued s h regs tokens hn
  refine ⟨fun hi => ?user, fun hi => ?supervisor, fun hi unrecorded => ⟨?time, ?id⟩⟩
  case user =>
    have reads := fun n v {w} => exec_crr_value (w := w) hi n v
    refine ⟨reads _ _ rfl (by decide) (same _ (by decide)), reads _ _ rfl (by decide) (same _ (by decide)), reads _ _ rfl (by decide) (same _ (by decide)),
      reads _ _ rfl (by decide) (same _ (by decide)), reads _ _ rfl (by decide) (same _ (by decide)), reads _ _ rfl (by decide) (same _ (by decide)),
      reads _ _ rfl (by decide) (same _ (by decide)), reads _ _ rfl (by decide) (same _ (by decide)), reads _ _ rfl (by decide) (same _ (by decide)),
      reads _ _ rfl (by decide) (same _ (by decide)), reads _ _ rfl (by decide) (same _ (by decide)), reads _ _ rfl (by decide) (same _ (by decide)),
      ?stopbad, reads _ _ rfl (by decide) (same _ (by decide)), reads _ _ rfl (by decide) (same _ (by decide)),
      reads _ _ rfl (by decide) (same _ (by decide)), reads _ _ rfl (by decide) (same _ (by decide)), fun n => ?format⟩
    case stopbad =>
      refine reads 0x019 _ rfl (by decide) ?_
      have e : crValue (issued s h regs tokens) s.cur 0x019 = w64 (part (issued s h regs tokens) s.cur).stopbad := rfl
      rw [part_issued] at e
      exact e
    case format =>
      have place : ∀ n : Fin 16, (0x040 + BitVec.ofNat 10 n.val).toNat = 0x040 + n.val ∧ crLevels (0x040 + n.val) = some (0, some 0) := by decide
      obtain ⟨number, assigned⟩ := place n
      refine reads _ _ (w := some 0) (by rw [number, assigned]) (by omega) ?_
      rw [number, same _ (by omega), crValue_format]
  case supervisor =>
    have reads := fun n v {w} => exec_crr_value (w := w) hi n v
    exact ⟨reads _ _ rfl (by decide) (same _ (by decide)), reads _ _ rfl (by decide) (same _ (by decide)), reads _ _ rfl (by decide) (same _ (by decide)),
      reads _ _ rfl (by decide) (same _ (by decide)), reads _ _ rfl (by decide) (same _ (by decide)), reads _ _ rfl (by decide) (same _ (by decide)),
      reads _ _ rfl (by decide) (same _ (by decide)), reads _ _ rfl (by decide) (same _ (by decide)), reads _ _ rfl (by decide) (same _ (by decide))⟩
  case time => exact exec_crr_observed hi unrecorded 0x018 rfl (.inr rfl)
  case id => exact exec_crr_observed hi unrecorded 0x000 rfl (.inl rfl)

/-! ## Writes -/

theorem crSet_carry (t : State) (p : Nat) {i : Nat} (hi : i < 4) (v : W64) :
    crSet t p (0x008 + i) v = modPart t p fun x => { x with carry := fput x.carry i v } := by
  rw [crSet, if_pos (by omega), Nat.add_sub_cancel_left]

theorem crSet_loop (t : State) (p : Nat) {i : Nat} (hi : i < 4) (v : W64) : crSet t p (0x010 + i) v = modPart t p fun x => writeLoop x i v.toNat := by
  rw [crSet, if_neg (by omega), if_pos (by omega), Nat.add_sub_cancel_left]

theorem crSet_format (t : State) (p : Nat) {i : Nat} (hi : i < 16) (v : W64) : crSet t p (0x040 + i) v =
    modCore t (coreOf p) fun c => { c with formats := fput c.formats i (w64 (v.toNat % 64)) } := by
  unfold crSet
  repeat rw [if_neg (by omega)]
  rw [if_pos (by omega), Nat.add_sub_cancel_left]

section
variable {s : State} {h : Hdr} {r : Reg} {kt : Bool} {v : W64} {regs : FMap (List W64)} {tokens : FMap Nat} {level : Nat}

/-- A write of a register of plain state sets it. -/
theorem exec_crw_set (hi : Issues s h { reads := [rd s r kt], level := level } [v] regs tokens) (n : BitVec 10) {k : Nat} {t : State} (number : n.toNat = k) {l : Nat}
    (assigned : crLevels k = some (l, some level)) (plain : k ≠ 0x050 ∧ ¬(0x040 ≤ k ∧ k ≤ 0x04F ∧ 12 ≤ v.toNat % 16))
    (set : crSet (issued s h regs tokens) s.cur k v = t) : exec (.crw h r n kt) s = .next (onward s h false 1 t) := by
  obtain ⟨other, sound⟩ := plain
  refine congrArg Host.Outcome.next (issueWord_next (vals := [v]) (regs := regs) (tokens := tokens) ?_ _ _ ?_)
  · rw [number, assigned]; exact hi
  · rw [number, if_neg other]
    refine (if_neg sound).trans ?_
    rw [issued_cur, ← set]; rfl

/-- A bank format with an unassigned type is refused. -/
theorem exec_crw_badFormat (hi : Issues s h { reads := [rd s r kt] } [v] regs tokens) (n : BitVec 10) {i : Nat} (bank : i < 16)
    (number : n.toNat = 0x040 + i) (assigned : crLevels (0x040 + i) = some (0, some 0)) (bad : 12 ≤ v.toNat % 16) :
    exec (.crw h r n kt) s = .next (trapAt (countIgnored s h) s.cur (.crw h r n kt) 0 0x01 0 0) := by
  refine congrArg Host.Outcome.next (issueWord_trap (vals := [v]) (regs := regs) (tokens := tokens) ?_ _ _ ?_)
  · rw [number, assigned]; exact hi
  · rw [number, if_neg (by omega)]
    exact if_pos ⟨by omega, by omega, bad⟩

/-- A write of `cr.msways` goes on once its operation has ended (R290). -/
theorem exec_crw_mswaysDone (hi : Issues s h { reads := [rd s r kt], level := 1 } [v] regs tokens) (ended : (part s s.cur).msDone = true) (base : BaseView s) :
    exec (.crw h r 0x050 kt) s = .next (onward s h false 1
      (modQuarter (modPart (issued s h regs tokens) s.cur fun x => { x with msDone := false }) (quarterOf s.cur)
        fun x => { x with msQueue := x.msQueue.filter (· != s.cur) })) := by
  refine congrArg Host.Outcome.next (issueWord_next (vals := [v]) (regs := regs) (tokens := tokens) hi _ _ ?_)
  have view : viewOf (issued s h regs tokens) s.cur = 0 := (viewOf_issued ..).trans base
  refine (if_pos rfl).trans ?_
  rw [issued_cur, if_neg (not_not.2 view), mswaysWrite, issued_cur, if_pos ended]

end

/-- Settles O13: each number names its register by the branches of `crSet`; a bank format and `cr.msways` are checked before. -/
theorem controlRegistersWritten : Obligations.ControlRegistersWritten := by
  intro s h regs tokens r kt v set setCore
  refine ⟨fun hi => ⟨fun i small => ?slots, fun i small => ?formats⟩, fun hi => ?supervisor⟩
  case slots =>
    intro lc n
    have carry : (BitVec.ofNat 10 (0x008 + i)).toNat = 0x008 + i := by rw [BitVec.toNat_ofNat]; omega
    have loop : n.toNat = 0x010 + i := by rw [BitVec.toNat_ofNat]; omega
    have loops : (part (issued s h regs tokens) s.cur).loops = (part s s.cur).loops := by simp
    have assigned : ∀ i < 4, crLevels (0x008 + i) = some (0, some 0) ∧ crLevels (0x010 + i) = some (0, some 0) := by decide
    obtain ⟨assignedC, assignedL⟩ := assigned i small
    have write (f : Part → Part) (effect : writeLoop (part (issued s h regs tokens) s.cur) i v.toNat = f (part (issued s h regs tokens) s.cur)) : set n f :=
      exec_crw_set hi n loop assignedL (by omega) ((crSet_loop _ _ small v).trans (modPart_congr effect))
    refine ⟨exec_crw_set hi _ carry assignedC (by omega) (crSet_carry _ _ small v), fun zero => write _ ?_, fun some armed => write _ ?_, fun some unarmed => write _ ?_⟩
    · rw [writeLoop, if_pos zero]
    · rw [writeLoop, if_neg some, loops, if_pos armed]
    · rw [writeLoop, if_neg some, loops, if_neg (by rw [unarmed]; exact Bool.false_ne_true)]
  case formats =>
    intro n
    have number : n.toNat = 0x040 + i := by rw [BitVec.toNat_ofNat]; omega
    have assigned : ∀ i < 16, crLevels (0x040 + i) = some (0, some 0) := by decide
    exact ⟨fun sound => exec_crw_set hi n number (assigned i small) (by omega) (crSet_format _ _ small v),
      fun bad => exec_crw_badFormat hi n small number (assigned i small) bad⟩
  case supervisor =>
    exact ⟨exec_crw_set (k := 0x019) hi _ rfl rfl (by omega) rfl, exec_crw_set (k := 0x020) hi _ rfl rfl (by omega) rfl,
      exec_crw_set (k := 0x030) hi _ rfl rfl (by omega) rfl, exec_crw_set (k := 0x031) hi _ rfl rfl (by omega) rfl,
      exec_crw_set (k := 0x032) hi _ rfl rfl (by omega) rfl, fun valid => exec_crw_set (k := 0x034) hi _ rfl rfl (by omega) (if_neg valid),
      fun invalid => exec_crw_set (k := 0x034) hi _ rfl rfl (by omega) (if_pos invalid), exec_crw_set (k := 0x051) hi _ rfl rfl (by omega) rfl,
      exec_crw_mswaysDone hi⟩

end Sys2Proof.Machine.Proofs
end

section
/-! PROOFS. Semaphores and mailboxes (R57 to R59), and leave (R68, R381). -/

namespace Sys2Proof.Machine.Proofs

open Sys2Proof Sys2Proof.Machine Sys2Proof.Machine.Safety Sys2Proof.Machine.Laws

/-! ## Semaphores and mailboxes -/

theorem settled_writes {s : State} (g : Settled s) (seq scope : Nat) : writesUnperformed s s.cur seq scope = false := by
  simp [writesUnperformed, settled_stores g, settled_log g, settled_acks g, settled_hr g]

section
variable {s : State} {h : Hdr} {a b d : Reg} {ka kb : Bool} {n : Fin 16} {x y : W64} {regs : FMap (List W64)} {tokens : FMap Nat}

theorem exec_semadd (hi : Issues s h { reads := [rd s a ka] } [x] regs tokens) (settled : Settled s) :
    exec (.semadd h n a ka) s = .next (onward s h false 1 (semAdd (issued s h regs tokens) s.cur n x.toInt)) := by
  refine congrArg Host.Outcome.next (issueWord_next hi _ _ ?_)
  rw [settled_writes settled, if_neg Bool.false_ne_true, issued_cur]; rfl

theorem sem_issued : sem (issued s h regs tokens) s.cur n = fgetD (part s s.cur).sems n 0 := by simp [sem]

theorem exec_semwt_next (hi : Issues s h { reads := [rd s a ka] } [x] regs tokens) (reached : x.toInt ≤ fgetD (part s s.cur).sems n 0) :
    exec (.semwt h n a ka) s = .next (onward s h false 1 (issued s h regs tokens)) := by
  refine congrArg Host.Outcome.next (issueWord_next hi _ _ ?_)
  rw [issued_cur, sem_issued]; exact if_pos reached

theorem exec_semwt_hold (hi : Issues s h { reads := [rd s a ka] } [x] regs tokens) (below : fgetD (part s s.cur).sems n 0 < x.toInt) :
    exec (.semwt h n a ka) s = .next (holdWord (countIgnored s h) s.cur h.stop) := by
  refine congrArg Host.Outcome.next (issueWord_hold hi _ _ ?_)
  rw [issued_cur, sem_issued]; exact if_neg below.not_ge

theorem mailboxRead_issued : mailboxRead (issued s h regs tokens) s.cur n = mailboxRead s s.cur n := by simp [mailboxRead]

theorem exec_mbrd (hi : Issues s h { dst := dstOf s d } [] regs tokens) (unrecorded : Unrecorded s) : exec (.mbrd h d n) s =
    .next (onward s h false 1 (fly (bumpOrdinal (issued s h regs tokens) s.cur) d (.ready (mailboxRead s s.cur n)))) := by
  have seen := observe_unrecorded (unrecorded_issued unrecorded h regs tokens) n (mailboxRead s s.cur n)
  rw [issued_cur] at seen
  refine congrArg Host.Outcome.next (issueWord_next hi _ _ ?_)
  simp only [issued_cur, mailboxRead_issued, seen]

theorem exec_mbwr (hi : Issues s h { reads := [rd s a ka, rd s b kb], level := 1 } [x, y] regs tokens) (base : BaseView s) (settled : Settled s) {q : Nat}
    (target : mailboxTarget x.toNat = some q) :
    exec (.mbwr h n a b ka kb) s = .next (onward s h false 1 (setMailbox (issued s h regs tokens) q n y)) := by
  have view : viewOf (issued s h regs tokens) s.cur = 0 := (viewOf_issued ..).trans base
  refine congrArg Host.Outcome.next (issueWord_next hi _ _ ?_)
  simp [target, view, settled_writes settled]

theorem exec_mbwr_untargeted (hi : Issues s h { reads := [rd s a ka, rd s b kb], level := 1 } [x, y] regs tokens) (none : mailboxTarget x.toNat = none) :
    exec (.mbwr h n a b ka kb) s = .next (trapAt (countIgnored s h) s.cur (.mbwr h n a b ka kb) 0 0x06 0 0) := by
  refine congrArg Host.Outcome.next (issueWord_trap hi _ _ ?_)
  simp [none]

end

/-- Settles O15: one lemma for each word and outcome, and `setMailbox` read back. -/
theorem semaphoresAndMailboxes : Obligations.SemaphoresAndMailboxes := by
  refine ⟨fun s h regs tokens n a ka v hi => ⟨exec_semadd hi, exec_semwt_next hi, exec_semwt_hold hi⟩,
    fun s h regs tokens d a b n ka kb x y => ⟨exec_mbrd, fun hi base settled q => exec_mbwr hi base settled, exec_mbwr_untargeted, fun q => ?_⟩⟩
  rw [setMailbox, part_modPart, fgetD_fput_same]

/-! ## Leave -/

section
variable {s : State} {h : Hdr} {a : Reg} {ka : Bool} {v : W64} {regs : FMap (List W64)} {tokens : FMap Nat}

theorem leave_issued : (part (issued s h regs tokens) s.cur).leave = (part s s.cur).leave := by simp

theorem exec_lvreq_invalid (hi : Issues s h { reads := [rd s a ka] } [v] regs tokens) (invalid : 2 < v.toNat) :
    exec (.lvreq h a ka) s = .next (trapAt (countIgnored s h) s.cur (.lvreq h a ka) 0 0x06 0 0) :=
  congrArg Host.Outcome.next (issueWord_trap hi _ _ (if_pos invalid))

theorem exec_lvrel_invalid (hi : Issues s h { reads := [rd s a ka] } [v] regs tokens) (invalid : 2 < v.toNat) :
    exec (.lvrel h a ka) s = .next (trapAt (countIgnored s h) s.cur (.lvrel h a ka) 0 0x06 0 0) :=
  congrArg Host.Outcome.next (issueWord_trap hi _ _ (if_pos invalid))

theorem exec_lvreq_held (hi : Issues s h { reads := [rd s a ka] } [v] regs tokens) (valid : v.toNat ≤ 2) (held : nbit (part s s.cur).leave v.toNat = true) :
    exec (.lvreq h a ka) s = .next (onward s h false 1 (modPart (issued s h regs tokens) s.cur fun x => { x with leaveWait := none })) := by
  refine congrArg Host.Outcome.next (issueWord_next hi _ _ ((if_neg valid.not_gt).trans ?_))
  rw [issued_cur, leave_issued]; exact if_pos held

/-- Without leave `lvreq` asks the governor and holds. -/
theorem exec_lvreq_asks (hi : Issues s h { reads := [rd s a ka] } [v] regs tokens) (valid : v.toNat ≤ 2) (free : nbit (part s s.cur).leave v.toNat = false)
    (fresh : (part s s.cur).leaveWait = none) : exec (.lvreq h a ka) s = .next (holdWord (countIgnored
      (askLeave (modPart s s.cur fun x => { x with leaveWait := some v.toNat }) s.cur v.toNat none) h) s.cur h.stop) := by
  refine congrArg Host.Outcome.next (issueWord_hold hi _ _ ((if_neg valid.not_gt).trans ?_))
  rw [issued_cur, leave_issued, fresh]
  refine (if_neg ?_).trans (if_neg ?_)
  · exact fun e => Bool.false_ne_true (free.symm.trans e)
  · exact nofun

/-- A set bit is cleared. -/
theorem nset_bit_clear {v n : Nat} (h : nbit v n = true) : nset v n 1 0 = v - 2 ^ n := by
  have bit : nfld v n 1 = 1 := by simpa [nbit, nfld] using h
  rw [nset, bit]; simp

theorem exec_lvrel_held (hi : Issues s h { reads := [rd s a ka] } [v] regs tokens) (valid : v.toNat ≤ 2) (held : nbit (part s s.cur).leave v.toNat = true) :
    exec (.lvrel h a ka) s = .next (onward s h false 1 (returnLeave (modPart (issued s h regs tokens) s.cur fun x =>
      { x with leave := x.leave - 2 ^ v.toNat }) (quarterOf s.cur) v.toNat)) := by
  refine congrArg Host.Outcome.next (issueWord_next hi _ _ ((if_neg valid.not_gt).trans ?_))
  have clear : nset (part (issued s h regs tokens) s.cur).leave v.toNat 1 0 = (part (issued s h regs tokens) s.cur).leave - 2 ^ v.toNat :=
    nset_bit_clear (by rw [leave_issued]; exact held)
  rw [issued_cur, leave_issued]
  refine (if_pos held).trans ?_
  exact congrArg (fun t => WordOut.next (returnLeave t (quarterOf s.cur) v.toNat))
    (modPart_congr (congrArg (fun l => { part (issued s h regs tokens) s.cur with leave := l }) clear))

theorem exec_lvrel_free (hi : Issues s h { reads := [rd s a ka] } [v] regs tokens) (valid : v.toNat ≤ 2) (free : nbit (part s s.cur).leave v.toNat = false) :
    exec (.lvrel h a ka) s = .next (onward s h false 1 (issued s h regs tokens)) := by
  refine congrArg Host.Outcome.next (issueWord_next hi _ _ ((if_neg valid.not_gt).trans ?_))
  rw [issued_cur, leave_issued]
  exact if_neg fun e => Bool.false_ne_true (free.symm.trans e)

end

section
variable {s : State} {q p cls : Nat} {l : LeaveReq}

theorem modQuarter_congr {f g : Quarter → Quarter} (h : f (quarter s q) = g (quarter s q)) : modQuarter s q f = modQuarter s q g := by
  rw [modQuarter, modQuarter, h]

/-- The state after the one request of a quarter is granted. -/
def granted (s : State) (q p cls : Nat) : State :=
  modPart (countGrant (modQuarter s q fun x => { x with leaves := [] }) q cls) p fun x => { x with leave := x.leave + 2 ^ cls, leaveWait := none }

theorem grantLeave_room (one : (quarter s q).leaves = [{ cls := cls, part := p, cmd := none }]) (waits : (part s p).leaveWait = some cls)
    (free : nbit (part s p).leave cls = false) (room : fgetD (quarter s q).granted cls 0 < leaveLimit s cls) : grantLeave s q cls = granted s q p cls := by
  have found : (quarter s q).leaves.find? (fun l => l.cls == cls) = some { cls := cls, part := p, cmd := none } := by simp [one]
  have dropped : dropFirst (· == { cls := cls, part := p, cmd := none }) (quarter s q).leaves = ([] : List LeaveReq) := by simp [one, dropFirst]
  have drop : modQuarter s q (fun x => { x with leaves := dropFirst (· == { cls := cls, part := p, cmd := none }) x.leaves }) =
      modQuarter s q fun x => { x with leaves := [] } := modQuarter_congr (congrArg (fun l => { quarter s q with leaves := l }) dropped)
  simp only [grantLeave, found, waits, ne_eq, not_true_eq_false, ↓reduceIte, room, decide_true, drop]
  refine modPart_congr ?_
  have same : part (countGrant (modQuarter s q fun x => { x with leaves := [] }) q cls) p = part s p := rfl
  rw [same, free, if_neg Bool.false_ne_true]

theorem grantLeave_full (one : (quarter s q).leaves = [{ cls := cls, part := p, cmd := none }]) (waits : (part s p).leaveWait = some cls)
    (full : leaveLimit s cls ≤ fgetD (quarter s q).granted cls 0) : grantLeave s q cls = s := by
  simp [grantLeave, one, waits, full.not_gt]

end

/-- Settles O16: `lvreq` and `lvrel` by the class and the bit of `cr.leave`, LEAVE_GRANT by the room within the limit. -/
theorem leaveAskedGrantedAndReleased : Obligations.LeaveAskedGrantedAndReleased := by
  refine ⟨?words, ?grant⟩
  case words =>
    intro s h regs tokens a ka v hi held
    exact ⟨fun invalid => ⟨exec_lvreq_invalid hi invalid, exec_lvrel_invalid hi invalid⟩,
      fun valid set => ⟨exec_lvreq_held hi valid set, exec_lvrel_held hi valid set⟩,
      fun valid clear => ⟨exec_lvrel_free hi valid clear, exec_lvreq_asks hi valid clear⟩⟩
  case grant =>
    rintro s q p cls _ valid one rfl waits free limit
    refine ⟨fun room => ⟨granted s q p cls, congrArg Host.Outcome.next (grantLeave_room one waits free room), ?_, ?_, fun r hr => ?_, rfl⟩,
      fun full => congrArg Host.Outcome.next (grantLeave_full one waits full)⟩
    · rw [granted, part_modPart]; rfl
    · rw [granted, quarter_modPart, countGrant, quarter_modQuarter, quarter_modQuarter]
    · rw [granted, part_modPart_other _ _ hr]; rfl

end Sys2Proof.Machine.Proofs
end

section
/-! PROOFS. Suspension points (R61, R62, R213): what they wait for, what they refuse, and what they leave. -/

namespace Sys2Proof.Machine.Proofs

open Sys2Proof Sys2Proof.Machine Sys2Proof.Machine.Safety Sys2Proof.Machine.Laws

/-! ## What a suspension point finds -/

theorem isLive_eq_true_iff (x : Part) : isLive x = true ↔ (∃ e ∈ x.regs, e.2 ≠ []) ∨ ∃ l ∈ x.loops, l.2.armed = true := by
  simp [isLive]

section
variable {s : State} {h : Hdr} {regs : FMap (List W64)} {tokens : FMap Nat}

theorem isLive_issued (hi : Issues s h {} [] regs tokens) : isLive (part (issued s h regs tokens) s.cur) = isLive (part s s.cur) := by
  obtain rfl := issues_unread hi rfl
  simp [isLive]

theorem flights_issued : (part (issued s h regs tokens) s.cur).flights = (part s s.cur).flights := by simp

/-- A word at user level that is illegal above it issues as any word. -/
theorem issues_user (hi : Issues s h {} [] regs tokens) (user : (part s s.cur).priv = 0) :
    Issues s h { ill := (part s s.cur).priv != 0 } [] regs tokens := by
  rw [user]; exact hi

theorem exec_park_hold (hi : Issues s h {} [] regs tokens) (user : (part s s.cur).priv = 0) (flying : (part s s.cur).flights ≠ []) :
    exec (.park h) s = .next (holdWord (countIgnored s h) s.cur h.stop) := by
  refine congrArg Host.Outcome.next (issueWord_hold (issues_user hi user) _ _ ?_)
  simp only [issued_cur, flights_issued]
  exact if_pos (by simpa using flying)

theorem exec_yield_hold (hi : Issues s h {} [] regs tokens) (user : (part s s.cur).priv = 0) (flying : (part s s.cur).flights ≠ []) :
    exec (.yield h) s = .next (holdWord (countIgnored s h) s.cur h.stop) := by
  refine congrArg Host.Outcome.next (issueWord_hold (issues_user hi user) _ _ ?_)
  simp only [issued_cur, flights_issued]
  exact if_pos (by simpa using flying)

theorem exec_park_live (hi : Issues s h {} [] regs tokens) (user : (part s s.cur).priv = 0) (landed : (part s s.cur).flights = [])
    (live : isLive (part s s.cur) = true) : exec (.park h) s = .next (trapAt (countIgnored s h) s.cur (.park h) 0 0x09 0 0) := by
  refine congrArg Host.Outcome.next (issueWord_trap (issues_user hi user) _ _ ?_)
  simp only [issued_cur, flights_issued, landed, isLive_issued hi, live]; rfl

theorem exec_yield_live (hi : Issues s h {} [] regs tokens) (user : (part s s.cur).priv = 0) (landed : (part s s.cur).flights = [])
    (live : isLive (part s s.cur) = true) : exec (.yield h) s = .next (trapAt (countIgnored s h) s.cur (.yield h) 0 0x09 0 0) := by
  refine congrArg Host.Outcome.next (issueWord_trap (issues_user hi user) _ _ ?_)
  simp only [issued_cur, flights_issued, landed, isLive_issued hi, live]; rfl

end

/-- Settles O18: what each of the two words finds decides. -/
theorem liveStateStopsSuspension : Obligations.LiveStateStopsSuspension := by
  refine ⟨fun s h regs tokens hi landed user live => ⟨exec_park_live hi user landed live, exec_yield_live hi user landed live⟩,
    fun s h regs tokens hi flying user => ⟨exec_park_hold hi user flying, exec_yield_hold hi user flying⟩, fun s h ht above => ?_, isLive_eq_true_iff⟩
  have ill : ((part s s.cur).priv != 0) = true := bne_iff_ne.2 above
  exact ⟨congrArg Host.Outcome.next (issueWord_illegal ht ill rfl _ _), congrArg Host.Outcome.next (issueWord_illegal ht ill rfl _ _)⟩

/-! ## The release of leave (R61, R68) -/

theorem parts_returnLeave (s : State) (q cls : Nat) : (returnLeave s q cls).parts = s.parts := rfl

theorem parts_foldl {α : Type} {f : State → α → State} (hf : ∀ s a, (f s a).parts = s.parts) (l : List α) (s : State) : (l.foldl f s).parts = s.parts := by
  induction l generalizing s with
  | nil => rfl
  | cons a l ih => rw [List.foldl_cons, ih, hf]

theorem part_releaseLeave (s : State) (p : Nat) :
    part (releaseLeave s p) p = { part s p with leave := 0, leaveWait := none, testLeave := false } := by
  have returned (held : Nat) (s : State) :
      ([0, 1, 2].foldl (fun s c => if nbit held c then returnLeave s (quarterOf p) c else s) s).parts = s.parts :=
    parts_foldl (fun s c => by split <;> rfl) _ s
  unfold releaseLeave
  rw [part_modPart]
  refine congrArg (fun x : Part => { x with leave := 0, leaveWait := none, testLeave := false }) (part_of_parts ?_ p)
  split
  · exact (parts_foldl (fun _ _ => by rfl) [0, 1, 2] _).trans (returned _ _)
  · exact (parts_foldl (fun _ _ => by rfl) [0, 1, 2] _).trans (returned _ _)

/-! ## Suspension (R61) -/

/-- Where everything has drained, as a suspension point asks (R61, R369). -/
structure Quiet (s : State) : Prop where
  landed : (part s s.cur).flights = []
  streams : ∀ k, k < 3 → (cmdQueue s s.cur k).queued = [] ∧ (cmdQueue s s.cur k).running = []
  settled : Settled s
  untrapped : (part s s.cur).pending = []

theorem drained_quiet {s : State} (g : Quiet s) : drained s s.cur = true := by
  obtain ⟨landed, streams, ⟨-, stores, ⟨log, held⟩, acks, pools, -⟩, -⟩ := g
  obtain ⟨q0, r0⟩ := streams 0 (by decide)
  obtain ⟨q1, r1⟩ := streams 1 (by decide)
  obtain ⟨q2, r2⟩ := streams 2 (by decide)
  simp [drained, streamsDrained, q0, r0, q1, r1, q2, r2, writesPending, stores, log, held, acks, pools, landed]

theorem suspendWaits_quiet {s : State} (g : Quiet s) : suspendWaits s s.cur = false := by
  simp [suspendWaits, drained_quiet g, g.untrapped]

theorem quiet_issued {s : State} {h : Hdr} (g : Quiet s) (regs : FMap (List W64)) (tokens : FMap Nat) : Quiet (issued s h regs tokens) := by
  obtain ⟨landed, streams, settled, untrapped⟩ := g
  refine ⟨by simpa using landed, fun k hk => ?_, settled_issued settled h regs tokens, by simpa using untrapped⟩
  simpa [cmdQueue] using streams k hk

section
variable {s : State} {h : Hdr} {regs : FMap (List W64)} {tokens : FMap Nat}

theorem waits_issued (g : Quiet s) : suspendWaits (issued s h regs tokens) s.cur = false := by
  have e := suspendWaits_quiet (quiet_issued (h := h) g regs tokens)
  rwa [issued_cur] at e

theorem monitor_released : (part (releaseLeave (issued s h regs tokens) s.cur) s.cur).monitor = (part s s.cur).monitor := by
  rw [part_releaseLeave, part_issued]; simp

theorem pc_issued : (part (issued s h regs tokens) s.cur).pc = (part s s.cur).pc := by
  rw [part_issued]; simp

theorem resumePc_released : resumePc (releaseLeave (issued s h regs tokens) s.cur) s.cur = ((part s s.cur).pc.toNat + 4) % 2 ^ 64 := by
  rw [resumePc, part_releaseLeave, pc_issued]

/-- `park` where everything has drained and nothing is live goes by its monitor. -/
theorem exec_park_away (hi : Issues s h {} [] regs tokens) (user : (part s s.cur).priv = 0) (quiet : Quiet s) (dead : isLive (part s s.cur) = false) :
    ((part s s.cur).monitor = .fired → exec (.park h) s = .next (onward s h false 1 (modPart (releaseLeave (issued s h regs tokens) s.cur) s.cur fun x =>
      { x with monitor := .off, tokens := [] }))) ∧
    ((part s s.cur).monitor = .off → exec (.park h) s = .next (departed s h (suspendRecord (releaseLeave (issued s h regs tokens) s.cur) s.cur
      (((part s s.cur).pc.toNat + 4) % 2 ^ 64) 0 0 .ready 0))) ∧
    (∀ id, (part s s.cur).monitor = .armed id → exec (.park h) s = .next (departed s h (suspendRecord (releaseLeave (issued s h regs tokens) s.cur) s.cur
      (((part s s.cur).pc.toNat + 4) % 2 ^ 64) 1 0 .monitor 0))) ∧
    (∀ tag, (part s s.cur).monitor = .armedRemote tag → exec (.park h) s = .next (departed s h (suspendRecord (releaseLeave (issued s h regs tokens) s.cur) s.cur
      (((part s s.cur).pc.toNat + 4) % 2 ^ 64) 1 0 .monitor tag))) := by
  refine ⟨fun m => congrArg Host.Outcome.next (issueWord_next (issues_user hi user) _ _ ?_),
    fun m => congrArg Host.Outcome.next (issueWord_away (issues_user hi user) rfl rfl _ _ ?_),
    fun id m => congrArg Host.Outcome.next (issueWord_away (issues_user hi user) rfl rfl _ _ ?_),
    fun tag m => congrArg Host.Outcome.next (issueWord_away (issues_user hi user) rfl rfl _ _ ?_)⟩
  all_goals
    simp only [issued_cur, flights_issued, quiet.landed, isLive_issued hi, dead, waits_issued quiet, monitor_released, m, resumePc_released]
    rfl

/-- What `yield` does with a partition `p` of a drained state: its monitor and its leave go, and its record is ready at once. -/
def yields (t : State) (p : Nat) : State :=
  let free := releaseLeave { t with monitors := t.monitors.filter fun m => m.owner != .part p } p
  suspendRecord free p (resumePc free p) 0 0 .ready 0

theorem yields_issued : yields (issued s h regs tokens) s.cur = suspendRecord (releaseLeave { issued s h regs tokens with
    monitors := s.monitors.filter fun m => m.owner != .part s.cur } s.cur) s.cur (((part s s.cur).pc.toNat + 4) % 2 ^ 64) 0 0 .ready 0 := by
  have pc (t : State) (l : List Monitor) : (part { t with monitors := l } s.cur).pc = (part t s.cur).pc := rfl
  rw [yields, issued_monitors, resumePc, part_releaseLeave, pc, pc_issued]

/-- `yield` where everything has drained and nothing is live leaves its record ready. -/
theorem exec_yield_away (hi : Issues s h {} [] regs tokens) (user : (part s s.cur).priv = 0) (quiet : Quiet s) (dead : isLive (part s s.cur) = false) :
    exec (.yield h) s = .next (departed s h (yields (issued s h regs tokens) s.cur)) := by
  refine congrArg Host.Outcome.next (issueWord_away (issues_user hi user) rfl rfl _ _ ?_)
  have cur := issued_cur s h regs tokens
  have landed : (part (issued s h regs tokens) s.cur).flights = [] := flights_issued.trans quiet.landed
  have dead : isLive (part (issued s h regs tokens) s.cur) = false := (isLive_issued hi).trans dead
  have waits : suspendWaits (issued s h regs tokens) s.cur = false := waits_issued quiet
  generalize issued s h regs tokens = t at *
  rw [← cur] at landed dead waits ⊢
  simp only [landed, dead, waits]
  rfl

/-- `done` of a job that runs in base memory, where everything has drained, ends the record. -/
theorem exec_done_away (hi : Issues s h {} [] regs tokens) (user : (part s s.cur).priv = 0) (quiet : Quiet s) (base : viewOf s s.cur = 0) :
    exec (.done h) s = .next (departed s h (endRecord (releaseLeave (issued s h regs tokens) s.cur) s.cur)) := by
  have body : ((part (issued s h regs tokens) s.cur).priv != 0) = false := by rw [part_issued]; simp [user]
  have view : viewOf (issued s h regs tokens) s.cur = 0 := (viewOf_issued ..).trans base
  refine congrArg Host.Outcome.next (issueWord_away hi rfl rfl _ _ ?_)
  simp only [issued_cur, body, view, waits_issued quiet, ne_eq, not_true_eq_false, if_false, Bool.false_eq_true]

/-- What a word that departs leaves, with the posts that it owes written as the statement has them. -/
theorem owedPosts_countIgnored : owedPosts (countIgnored s h) false h = owedPosts s false h := by simp [owedPosts]

end

/-! ## The end of a record (R61, R196) -/

theorem bestOf_mem {s : State} {l : List Nat} {b : Nat} (e : bestOf s l = some b) : b ∈ l := by
  induction l generalizing b with
  | nil => cases e
  | cons a r ih =>
    rw [bestOf] at e
    cases h : bestOf s r with
    | none => simp_all
    | some c =>
      rw [h] at e
      by_cases before : rankBefore s a c = true
      · simp_all
      · obtain rfl : c = b := by simpa [before] using e
        exact List.mem_cons_of_mem _ (ih h)

theorem part_restartResume_other (s : State) {p q : Nat} (ne : p ≠ q) : part (restartResume s q) p = part s p := by
  have queues (s : State) (k : Nat) (f : CmdQueue → CmdQueue) : part (modQueue s q k f) p = part s p := part_modPart_other _ _ ne
  have unmonitored (s : State) (l : List Monitor) : part { s with monitors := l } p = part s p := rfl
  rw [restartResume, part_modPart_other _ _ ne, leaveMsways, part_modQuarter, unmonitored, List.foldl_cons, List.foldl_cons, List.foldl_nil, queues, queues]

theorem part_takeIssue_other (s : State) {p q : Nat} (ne : p ≠ q) : part (takeIssue s q) p = part s p := by
  unfold takeIssue; extract_lets; split
  · rw [part_restartResume_other _ ne, part_modPart_other _ _ ne, part_modCore]
  · rw [part_modPart_other _ _ ne, part_modCore]

/-- The issue never passes to a partition that holds no record. -/
theorem part_refillIssue_free {s : State} {p : Nat} (free : (part s p).resident = none) (c : Nat) : part (refillIssue s c) p = part s p := by
  have taken {l : List Nat} {q : Nat} (e : bestOf s l = some q) (full : ∀ q ∈ l, (part s q).resident.isSome = true) : part (takeIssue s q) p = part s p := by
    refine part_takeIssue_other s fun same => ?_
    have r := full q (bestOf_mem e)
    rw [← same, free] at r; cases r
  have full (q : Nat) (hq : q ∈ (partsOf c).filter fun p => (part s p).resident.isSome) : (part s q).resident.isSome = true := (List.mem_filter.1 hq).2
  unfold refillIssue; extract_lets; split
  next e => exact taken e fun q hq => full q (List.mem_filter.1 hq).1
  next =>
    split
    next e => exact taken e full
    next => exact part_modCore ..

/-- What the release of a partition leaves in it. -/
theorem part_freePartition (s : State) (p : Nat) : part (freePartition s p) p = { part s p with
    resident := none, cont := 0, tokens := [], posts := [], holding := false, flagIgnored := false, preempted := false, lostMangle := false, restarting := false,
    due := false, entering := none, fetchSeen := none, reserved := [] } := by
  unfold freePartition; extract_lets; split
  · rw [part_refillIssue_free (by rw [part_modPart]), part_modPart]
  · exact part_modPart ..

theorem part_recordGone (s : State) (job p : Nat) (rival : Bool) : part (recordGone s job rival) p = part s p := by
  unfold recordGone; split <;> rfl

/-- The end of a record leaves nothing of it in its partition. -/
theorem endRecord_clears {s : State} {p : Nat} (full : (part s p).resident.isSome = true) : let x := part (endRecord s p) p
    x.regs = [] ∧ x.loops = [] ∧ x.monitor = .off ∧ x.flights = [] ∧ x.resident = none := by
  obtain ⟨r, hr⟩ := Option.isSome_iff_exists.1 full
  unfold endRecord
  rw [hr]
  simp only [part_freePartition, part_recordGone, part_modPart, and_self]

/-- Settles O17: each of the three words, once everything has drained, and what the end of a record leaves. -/
theorem suspensionPointsLeave : Obligations.SuspensionPointsLeave := by
  intro s h regs tokens user hi landed streams settled
  have quiet : Quiet s := ⟨landed, streams, settled, hi.quiet⟩
  simp only [owedPosts_countIgnored]
  refine ⟨fun dead => ?_, fun base => ⟨exec_done_away hi user quiet base, fun full => endRecord_clears ?_⟩⟩
  · obtain ⟨fired, off, armed, remote⟩ := exec_park_away hi user quiet dead
    exact ⟨off, armed, remote, fired, yields_issued ▸ exec_yield_away hi user quiet dead⟩
  · rw [part_releaseLeave, part_issued]; simpa using full

end Sys2Proof.Machine.Proofs
end

section
/-! PROOFS. The words that read and write memory on their own behalf: `waitaddr` (R60), `errrd` and `jcancel` (R70, R72). -/

namespace Sys2Proof.Machine.Proofs

open Sys2Proof Sys2Proof.Machine Sys2Proof.Machine.Safety Sys2Proof.Machine.Laws

/-! ## The state in which an access word is noted -/

section
variable {s : State} {h : Hdr} {regs : FMap (List W64)} {tokens : FMap Nat} {i : Instr}

@[simp] theorem noted_cur : (noted s h regs tokens i).cur = s.cur := issued_cur s h regs tokens

theorem part_noted : ∃ w, part (noted s h regs tokens i) s.cur = { part (issued s h regs tokens) s.cur with words := w } := by
  rw [noted, noteWord, issued_cur]
  exact ⟨_, part_modPart ..⟩

theorem ctxOf_noted (a : Agent) : ctxOf (noted s h regs tokens i) s.cur a = ctxOf s s.cur a := by
  obtain ⟨w, e⟩ := part_noted (s := s) (h := h) (regs := regs) (tokens := tokens) (i := i)
  rw [← ctxOf_issued s h regs tokens a]
  simp only [ctxOf, viewOf, jobOf, e]

theorem viewOf_noted : viewOf (noted s h regs tokens i) s.cur = viewOf s s.cur := congrArg Ctx.view (ctxOf_noted .control)

theorem settled_noted (g : Settled s) : Settled (noted s h regs tokens i) := by
  obtain ⟨loads, stores, logs, acks, pools, homes⟩ := settled_issued g h regs tokens
  obtain ⟨w, e⟩ := part_noted (s := s) (h := h) (regs := regs) (tokens := tokens) (i := i)
  rw [issued_cur] at loads stores logs pools
  refine ⟨?_, ?_, ?_, acks, ?_, homes⟩ <;> rw [noted_cur]
  · rw [e]; exact loads
  · rw [e]; exact stores
  · exact logs
  · exact pools

theorem unrecorded_noted (g : Unrecorded s) : Unrecorded (noted s h regs tokens i) := by
  obtain ⟨live, jobs⟩ := unrecorded_issued g h regs tokens
  obtain ⟨w, e⟩ := part_noted (s := s) (h := h) (regs := regs) (tokens := tokens) (i := i)
  refine ⟨live, ?_⟩
  rw [issued_cur] at jobs
  rw [noted_cur, jobOf, e]
  exact jobs

end

/-! ## waitaddr (R60) -/

theorem armMonitor_off (s : State) (p va : Nat) : (part (armMonitor s p va false) p).monitor = .off := by
  unfold armMonitor; rw [part_modPart]

/-- An armed monitor watches the physical line of its address. -/
theorem armMonitor_armed {s : State} {p va pa : Nat} (mapped : physOf s (part s p).asid va = some pa) :
    (part (armMonitor s p va true) p).monitor = .armed s.nextSeq ∧
    ∃ m ∈ (armMonitor s p va true).monitors, m.id = s.nextSeq ∧ m.line = pa / 128 ∧ m.owner = .part p := by
  have unwatched (l : List Monitor) : physOf { s with monitors := l } (part { s with monitors := l } p).asid va = some pa := mapped
  unfold armMonitor
  simp only [unwatched]
  exact ⟨by rw [part_modPart], _, List.mem_append_right _ (List.mem_singleton_self _), rfl, rfl, rfl⟩

theorem part_armMonitor (s : State) (p va : Nat) (arm : Bool) : ∃ m, part (armMonitor s p va arm) p = { part s p with monitor := m } := by
  unfold armMonitor
  extract_lets t
  have same : part t p = part s p := rfl
  split
  · exact ⟨_, part_modPart ..⟩
  · exact ⟨_, part_modPart ..⟩

theorem armMonitor_frame (s : State) (p va : Nat) (arm : Bool) : (armMonitor s p va arm).cur = s.cur ∧ (armMonitor s p va arm).capture = s.capture ∧
    (armMonitor s p va arm).quarters = s.quarters := by
  unfold armMonitor; extract_lets; split <;> exact ⟨rfl, rfl, rfl⟩

theorem unrecorded_of_kept {s t : State} (g : Unrecorded s) (cur : t.cur = s.cur) (capture : t.capture = s.capture) (quarters : t.quarters = s.quarters)
    (job : jobOf t s.cur = jobOf s s.cur) : Unrecorded t := by
  obtain ⟨live, jobs⟩ := g
  refine ⟨capture.trans live, fun j hj => jobs j ?_⟩
  rw [cur, job] at hj
  rwa [findJob, quarter, ← quarters]

theorem unrecorded_armMonitor {s : State} (g : Unrecorded s) (va : Nat) (arm : Bool) : Unrecorded (armMonitor s s.cur va arm) := by
  obtain ⟨cur, capture, quarters⟩ := armMonitor_frame s s.cur va arm
  obtain ⟨m, e⟩ := part_armMonitor s s.cur va arm
  exact unrecorded_of_kept g cur capture quarters (by rw [jobOf, e]; rfl)

theorem unrecorded_readVa {s : State} (g : Unrecorded s) (c : Ctx) (va n hint : Nat) : Unrecorded (readVa s c va n hint).1 :=
  unrecorded_of_kept g (readVa_cur ..) (readVa_capture ..) (readVa_quarters ..) (by rw [jobOf, part_of_parts (readVa_parts ..)]; rfl)

theorem replayHold_unrecorded {t : State} (g : Unrecorded t) (s : State) (va n acc : Nat) (blocked : Bool) : replayHold s t va n acc blocked = none := by
  have unlogged : loggedValue t t.cur va = none := by rw [loggedValue, nextRead_unreplayed g.2]
  simp only [replayHold, unlogged]

theorem plain_kind {va n : Nat} (h : Plain va n) : isReserved va = false ∧ isHost va = false ∧ isRemote va = false ∧ isMgmt va = false := by
  obtain ⟨q, off, here, data⟩ := plain_loc h
  simp [isReserved, isHost, isRemote, isMgmt, here, data]

theorem noted_eq (s : State) (h : Hdr) (regs : FMap (List W64)) (tokens : FMap Nat) (i : Instr) :
    noted s h regs tokens i = noteWord (issued s h regs tokens) i := rfl

/-- An observing load that waits for nothing, of a place that it may read, pushes what it reads there and watches it. -/
theorem pushLoad_watch {t u : State} {d : Reg} {va : Nat} {e : W64} {bs : List Byte} (settled : Settled t) (unrecorded : Unrecorded t) (plain : Plain va 8)
    (read : readVa t (ctxOf t t.cur .control) va 8 0 = (u, .ok bs)) : pushLoad t d (loadReq t va 8 false false 0 (some e) true) true =
    .next (fly (bumpOrdinal (armMonitor u t.cur va (w64 (leNat bs) == e)) t.cur) d (.ready (w64 (leNat bs)))) := by
  obtain ⟨q, off, here, data⟩ := plain_loc plain
  have after : u = (readVa t (ctxOf t t.cur .control) va 8 0).1 := by rw [read]
  have cur : u.cur = t.cur := by rw [after, readVa_cur]
  have seen := observe_unrecorded (unrecorded_armMonitor (after ▸ unrecorded_readVa unrecorded _ _ _ _) va (w64 (leNat bs) == e)) va (w64 (leNat bs))
  rw [(armMonitor_frame ..).1, cur] at seen
  have tried : tryLoad t t.cur (loadReq t va 8 false false 0 (some e) true) = (armMonitor u t.cur va (w64 (leNat bs) == e), .value (leNat bs)) := by
    simp [tryLoad, loadReq, here, data, readNum, read]
  have value : extend (loadReq t va 8 false false 0 (some e) true) (leNat bs) = w64 (leNat bs) := rfl
  have place : (loadReq t va 8 false false 0 (some e) true).va = va := rfl
  simp only [pushLoad, settled_loadWaits settled, tried, value, place, seen, Bool.false_eq_true, not_true_eq_false, if_false]

theorem exec_waitaddr {s u : State} {h : Hdr} {regs : FMap (List W64)} {tokens : FMap Nat} {d a b : Reg} {ka kb : Bool} {x e : W64} {bs : List Byte}
    (hi : Issues s h { reads := [rd s a ka, rd s b kb], dst := dstOf s d, loads := true } [x, e] regs tokens) (settled : Settled s) (unrecorded : Unrecorded s)
    (plain : Plain x.toNat 8) (read : readVa (noted s h regs tokens (.waitaddr h d a b ka kb)) (ctxOf s s.cur .control) x.toNat 8 0 = (u, .ok bs)) :
    exec (.waitaddr h d a b ka kb) s = .next (onward s h false 1
      (fly (bumpOrdinal (armMonitor u s.cur x.toNat (w64 (leNat bs) == e)) s.cur) d (.ready (w64 (leNat bs))))) := by
  refine congrArg Host.Outcome.next (issueWord_next hi _ _ ?_)
  obtain ⟨reserved, host, remote, mgmt⟩ := plain_kind plain
  have pushed := pushLoad_watch (d := d) (e := e) (settled_noted (i := .waitaddr h d a b ka kb) settled) (unrecorded_noted unrecorded) plain
    (by rw [noted_cur, ctxOf_noted]; exact read)
  have free := replayHold_unrecorded (unrecorded_noted (h := h) (regs := regs) (tokens := tokens) (i := .waitaddr h d a b ka kb) unrecorded)
  rw [noted_cur] at pushed
  simp only [List.getD_cons_zero, List.getD_cons_succ, ← noted_eq, reserved, host, mgmt, remote, plain.2.2, free, pushed, Bool.false_eq_true, or_self,
    ne_eq, not_true_eq_false, and_false, not_false_eq_true, if_false, if_true]

/-- Settles O19: the word's load, then the two outcomes of the comparison. -/
theorem waitaddrReadsAndArms : Obligations.WaitaddrReadsAndArms := by
  intro s h regs tokens d a b ka kb x e u bs hi settled unrecorded plain read
  exact ⟨exec_waitaddr hi settled unrecorded plain read, armMonitor_off .., fun pa mapped => ⟨_, armMonitor_armed mapped⟩⟩

end Sys2Proof.Machine.Proofs
end

section
/-! PROOFS. The words of the error queue and of a cancel (R70, R72, R229, R363). -/

namespace Sys2Proof.Machine.Proofs

open Sys2Proof Sys2Proof.Machine Sys2Proof.Machine.Safety Sys2Proof.Machine.Laws

/-! ## errrd -/

/-- A write of this device in base memory that waits for nothing is made at once, and the doorbell rings that it may answer are tested. -/
theorem makeWrite_done {t u : State} {e : SideEntry} {old : W64} {q off : Nat} (here : locOf e.va = .here q off) (data : inMgmt off = false) (base : e.ctx.view = 0)
    (idle : logBusy t e.ctx = false) (untested : slicesTested t = []) (made : performOp t e.ctx e.va e.op e.hint = (u, .ok old)) :
    makeWrite t e = (retestRings u, .done old) := by
  have inside : escapes t e.ctx e.va (opBytes e.op) = false := by simp [escapes, base]
  have sent : sendEntry t e = (u, .done old) := by simp [sendEntry, inside, idle, waitsHome_untested untested, made]
  simp [makeWrite, here, data, sent]

section
variable {s u : State} {h : Hdr} {a d : Reg} {ka : Bool} {x old : W64} {regs : FMap (List W64)} {tokens : FMap Nat}

theorem exec_errrd_empty (hi : Issues s h { reads := [rd s a ka], dst := dstOf s d, level := 2 } [x] regs tokens) (plain : Plain x.toNat 64)
    (drained : s.errors = []) : exec (.errrd h d a ka) s = .next (onward s h false 1 (fly (noted s h regs tokens (.errrd h d a ka)) d (.ready (-1)))) := by
  have empty : (noted s h regs tokens (.errrd h d a ka)).errors = [] := (issued_errors s h regs tokens).trans drained
  refine congrArg Host.Outcome.next (issueWord_next hi _ _ ?_)
  simp only [List.getD_cons_zero, ← noted_eq, plain_trap plain, empty]

theorem exec_errrd_oldest (hi : Issues s h { reads := [rd s a ka], dst := dstOf s d, level := 2 } [x] regs tokens) (plain : Plain x.toNat 64)
    (settled : Settled s) (base : BaseView s) {e : ErrorRec} {r : List ErrorRec} (oldest : s.errors = e :: r)
    (made : performOp { noted s h regs tokens (.errrd h d a ka) with errors := r } (ctxOf s s.cur .control) x.toNat (.bytes (errorBytes e)) 0 = (u, .ok old)) :
    exec (.errrd h d a ka) s = .next (onward s h false 1 (fly (retestRings u) d (.ready (w64 r.length)))) := by
  obtain ⟨q, off, here, data⟩ := plain_loc plain
  obtain ⟨-, -, remote, -⟩ := plain_kind plain
  have settled := settled_noted (h := h) (regs := regs) (tokens := tokens) (i := .errrd h d a ka) settled
  have queue : (noted s h regs tokens (.errrd h d a ka)).errors = e :: r := (issued_errors s h regs tokens).trans oldest
  have ctx : ctxOf (noted s h regs tokens (.errrd h d a ka)) s.cur .control = ctxOf s s.cur .control := ctxOf_noted .control
  have view : (ctxOf s s.cur .control).view = 0 := base
  have cur : (noted s h regs tokens (.errrd h d a ka)).cur = s.cur := noted_cur
  have idle := settled_busy settled
  rw [noted_cur, ctx] at idle
  refine congrArg Host.Outcome.next (issueWord_next hi _ _ ?_)
  simp only [List.getD_cons_zero, ← noted_eq, plain_trap plain]
  generalize noted s h regs tokens (.errrd h d a ka) = t at *
  have unqueued := settled_queue settled x.toNat (.bytes (errorBytes e)) 0 1 (some (dstOf t d)) 0
  have own : (wordEntry t x.toNat (.bytes (errorBytes e)) 0 1 (some (dstOf t d)) 0).ctx = ctxOf s s.cur .control := by
    rw [← ctx, ← cur]; rfl
  have sent : makeWrite { t with errors := r } (wordEntry t x.toNat (.bytes (errorBytes e)) 0 1 (some (dstOf t d)) 0) = (retestRings u, .done old) :=
    makeWrite_done here data (own ▸ view) (own ▸ idle) settled.homes (own ▸ made)
  have inside : escapes t (wordEntry t x.toNat (.bytes (errorBytes e)) 0 1 (some (dstOf t d)) 0).ctx x.toNat 64 = false := by
    rw [own, escapes, view]; rfl
  simp only [queue, inside, unqueued, sent, remote, Bool.false_eq_true, if_false]

theorem observe_uncaptured {s : State} {p : Nat} (live : s.capture = false) (jobs : ∀ j, findJob s (jobOf s p) = some j → j.replay = false)
    (addr : Nat) (v : W64) : observe s p addr v = (bumpOrdinal s p, some v) := by
  unfold observe; simp [nextRead_unreplayed jobs, recording_uncaptured live]

/-! ## jcancel -/

theorem exec_jcancel (hi : Issues s h { reads := [rd s a ka], dst := dstOf s d, level := 1 } [x] regs tokens) (base : BaseView s)
    (aligned : x.toNat % 128 = 0) (here : isHere x.toNat = true)
    (unrecorded : Unrecorded { (cancelJob (issued s h regs tokens) Sys2Proof.Config.device x.toNat).1 with cur := s.cur }) :
    exec (.jcancel h d a ka) s = .next (onward s h false 1 (fly (bumpOrdinal (cancelJob (issued s h regs tokens) Sys2Proof.Config.device x.toNat).1 s.cur) d
      (.ready (w64 (cancelJob (issued s h regs tokens) Sys2Proof.Config.device x.toNat).2)))) := by
  obtain ⟨q, off, loc⟩ : ∃ q off, locOf x.toNat = .here q off := by
    unfold isHere at here; split at here
    · exact ⟨_, _, ‹_›⟩
    · cases here
  have view : viewOf (issued s h regs tokens) s.cur = 0 := (viewOf_issued ..).trans base
  have seen := observe_uncaptured (s := (cancelJob (issued s h regs tokens) Sys2Proof.Config.device x.toNat).1) (p := s.cur) unrecorded.1 unrecorded.2 x.toNat
    (w64 (cancelJob (issued s h regs tokens) Sys2Proof.Config.device x.toNat).2)
  refine congrArg Host.Outcome.next (issueWord_next hi _ _ ?_)
  simp only [List.getD_cons_zero, issued_cur, aligned, isHost, isReserved, loc, view, seen]
  rfl

end

/-- Settles O21: the error queue empty and not, and the cancel of a card of this device. -/
theorem errorsReadAndJobsCancelled : Obligations.ErrorsReadAndJobsCancelled := by
  intro s h regs tokens d a ka x
  exact ⟨fun hi plain settled base => ⟨exec_errrd_empty hi plain, fun e r u old oldest made => exec_errrd_oldest hi plain settled base oldest made⟩,
    fun hi base _ aligned here unrecorded => exec_jcancel hi base aligned here unrecorded⟩

end Sys2Proof.Machine.Proofs
end

section
/-! PROOFS. Self-tests (R71, R219): a word of a test that honours its stop flag ends the window of its partition, as every hold at a flagged word does. -/

namespace Sys2Proof.Machine.Proofs

open Sys2Proof Sys2Proof.Machine Sys2Proof.Machine.Safety Sys2Proof.Machine.Laws

/-- Where the window of the partition 0 ends in the state that a step leads to. -/
def windowAfter : Host.Outcome State Fault Refusal → Nat
  | .next t => (part t 0).windowEnd
  | _ => 0

/-- The header of a word with its stop flag set and no tokens. -/
def flagged : Hdr := { wp := false, sp := false, wn := false, sn := false, stop := true }

/-- Partition 0 at service level, in a window that ends at 20; x1 names no unit. -/
def windowed : State := { State.reset with agenda := [], parts := [(0, { regs := [(1, [0xFFFFFFFF])], priv := 2, windowEnd := 20 })] }

theorem windowed_issues :
    Issues windowed flagged { reads := [rd windowed 1 false], dst := dstOf windowed 3, level := 2 } [0xFFFFFFFF] [(1, [])] [] where
  calm := rfl
  quiet := rfl
  spaced := .inl rfl
  legal := rfl
  whole := by decide +kernel
  allowed := by decide +kernel
  read := rfl
  room := by decide +kernel
  posted := by decide +kernel
  logged := .inl (by decide +kernel)
  waited := rfl

/-- The refused test holds at a flagged word, so the window ends. -/
theorem windowAfter_bist : windowAfter (exec (.bist flagged 3 1 false) windowed) = 0 := by decide +kernel

/-- Refutes O20: a word of a test whose stop flag is honoured ends the window of its partition (`keepHolding`), which the statement has kept. The
witness is a refused `bist` with its flag set, in a window that ends at 20. -/
theorem not_selfTestsRunAndReport : ¬ Obligations.SelfTestsRunAndReport := by
  unfold Obligations.SelfTestsRunAndReport
  intro holds
  obtain ⟨-, -, untested⟩ := holds.1 windowed flagged [(1, [])] [] 3 1 false 0xFFFFFFFF windowed_issues
  obtain ⟨refused, -⟩ := untested (by decide +kernel) (by decide +kernel)
  have kept := congrArg windowAfter (refused (by decide +kernel))
  rw [windowAfter_bist] at kept
  exact absurd kept (by decide +kernel)

end Sys2Proof.Machine.Proofs
end

section
/-! PROOFS. Loads, fences and marks of a control stream that has nothing outstanding (R75, R78, R79, R83, R84). -/

namespace Sys2Proof.Machine.Proofs

open Sys2Proof Sys2Proof.Machine Sys2Proof.Machine.Safety Sys2Proof.Machine.Laws

/-! ## The value of a load (R75) -/

/-- The sign extension of a value of `k` bits, for the widths of R75. -/
theorem extend_signed {r : LoadReq} (signed : r.signed = true) (k : Nat) (width : 8 * r.bytes = k) (positive : k ≠ 0) (most : k ≤ 64) (v : Nat) :
    extend r v = (BitVec.ofNat k v).signExtend 64 := by
  have word : (BitVec.ofNat k (w64 v).toNat) = BitVec.ofNat k v := BitVec.eq_of_toNat_eq (by
    simp only [w64, BitVec.toNat_ofNat]
    exact Nat.mod_mod_of_dvd v (Nat.pow_dvd_pow 2 most))
  rw [extend, if_pos signed, sx64, width, sxInt_eq_toInt _ positive, word]; rfl

theorem extend_unsigned {r : LoadReq} (unsigned : r.signed = false) (v : Nat) : extend r v = BitVec.ofNat 64 v := by rw [extend, unsigned]; rfl

/-- A doubleword fills its register. -/
theorem extend_doubleword {r : LoadReq} (signed : r.signed = true) (whole : r.bytes = 8) (v : Nat) : extend r v = BitVec.ofNat 64 v := by
  rw [extend_signed signed 64 (by rw [whole]) (by decide) (by decide), BitVec.signExtend_eq]

/-! ## Loads that wait for nothing (R73, R75) -/

/-- A load that waits for nothing and finds its value pushes it. -/
theorem pushLoad_value {t u : State} {d : Reg} {r : LoadReq} {v : Nat} (settled : Settled t) (tried : tryLoad t t.cur r = (u, .value v)) :
    pushLoad t d r false = .next (fly u d (.ready (extend r v))) := by
  simp [pushLoad, settled_loadWaits settled, tried]

section
variable {s u : State} {h : Hdr} {regs : FMap (List W64)} {tokens : FMap Nat} {d a : Reg} {hint : BitVec 2} {off : BitVec 6} {x : W64} {i : Instr}

/-- A load word with nothing outstanding does what the try of its load finds. -/
theorem loadWord_value {n : Nat} {signed ro : Bool} {v : Nat} (hi : Issues s h { reads := [rd s a true], dst := dstOf s d, loads := true } [x] regs tokens)
    (settled : Settled s) (free : accessTrap (tmAddr x off n) n true (!ro) (!ro && n == 8 && (part s s.cur).priv == 2) = none)
    (tried : tryLoad (noted s h regs tokens i) s.cur (loadReq (noted s h regs tokens i) (tmAddr x off n) n signed ro hint.toNat none false) = (u, .value v)) :
    loadWord s i h d a hint off n signed ro = onward s h false 1 (fly u d (.ready
      (extend (loadReq (noted s h regs tokens i) (tmAddr x off n) n signed ro hint.toNat none false) v))) := by
  unfold loadWord accessWord
  refine issueWord_next hi _ _ ?_
  simp only [List.getD_cons_zero, ← noted_eq, free]
  exact pushLoad_value (settled_noted settled) (by rw [noted_cur]; exact tried)

/-- A load of a plain place pushes the bytes there, extended as its request says. -/
theorem loadWord_plain {n : Nat} {signed : Bool} {bs : List Byte} (hi : Issues s h { reads := [rd s a true], dst := dstOf s d, loads := true } [x] regs tokens)
    (settled : Settled s) (plain : Plain (tmAddr x off n) n)
    (read : readVa (noted s h regs tokens i) (ctxOf s s.cur .control) (tmAddr x off n) n hint.toNat = (u, .ok bs)) :
    loadWord s i h d a hint off n signed false = onward s h false 1 (fly u d (.ready
      (extend (loadReq (noted s h regs tokens i) (tmAddr x off n) n signed false hint.toNat none false) (leNat bs)))) := by
  refine loadWord_value hi settled (plain_trap plain ..) (tryLoad_value rfl rfl plain.1 plain.2.1 ?_)
  simp only [loadReq, ctxOf_noted, readNum, read]

/-- At service level a doubleword load reaches the management registers of this device (R364). -/
theorem loadWord_mgmt {q o : Nat} (hi : Issues s h { reads := [rd s a true], dst := dstOf s d, loads := true } [x] regs tokens)
    (settled : Settled s) (service : (part s s.cur).priv = 2) (aligned : tmAddr x off 8 % 8 = 0) (here : locOf (tmAddr x off 8) = .here q o)
    (window : inMgmt o = true) : loadWord s i h d a hint off 8 true false = onward s h false 1
      (fly (noted s h regs tokens i) d (.ready (mgmtRead (noted s h regs tokens i) q o))) := by
  have free : accessTrap (tmAddr x off 8) 8 true true ((8 : Nat) == 8 && (part s s.cur).priv == 2) = none := by
    simp [accessTrap, aligned, isReserved, isRemote, isHost, isMgmt, isHere, here, window, service]
  rw [loadWord_value (v := (mgmtRead (noted s h regs tokens i) q o).toNat) (u := noted s h regs tokens i) hi settled free
    (by simp [tryLoad, loadReq, here, window]), extend_doubleword rfl rfl, BitVec.ofNat_toNat, BitVec.setWidth_eq]

/-- A load through the read-only path pushes what that path answers (R79). -/
theorem loadWord_readOnly {n : Nat} {signed : Bool} {v : Nat} (hi : Issues s h { reads := [rd s a true], dst := dstOf s d, loads := true } [x] regs tokens)
    (settled : Settled s) (plain : Plain (tmAddr x off n) n)
    (read : readOnly (noted s h regs tokens i) (ctxOf s s.cur .control) (tmAddr x off n) n hint.toNat = (u, .ok v)) :
    loadWord s i h d a hint off n signed true = onward s h false 1 (fly u d (.ready
      (extend (loadReq (noted s h regs tokens i) (tmAddr x off n) n signed true hint.toNat none false) v))) := by
  refine loadWord_value hi settled (plain_trap plain ..) ?_
  obtain ⟨q, o, here, data⟩ := plain_loc plain
  simp [tryLoad, loadReq, here, data, ctxOf_noted, read]

end

/-! ## Reads inside one sector (R75, R287) -/

theorem piecesOf_sector {va n : Nat} (some : 0 < n) (inside : va % 32 + n ≤ 32) : Machine.piecesOf va n = [(va, n)] := by
  have least : min n (32 - va % 32) = n := by omega
  have more : n ≠ 0 := by omega
  simp only [Machine.piecesOf, Machine.pieces, more, if_false, least, Nat.sub_self]
  cases n / 32 <;> rfl

theorem readVa_sector {s : State} {c : Ctx} {va n hint : Nat} (some : 0 < n) (inside : va % 32 + n ≤ 32) : readVa s c va n hint = readPiece s c va n hint := by
  rw [readVa, piecesOf_sector some inside, readPieces]
  split
  · next e => rw [e]
  · next e => rw [e]; simp [readPieces]

theorem cohBytes_length (s : State) (pa n : Nat) : (cohBytes s pa n).length = n := by
  induction n generalizing pa with
  | zero => rfl
  | succ n ih => rw [cohBytes, List.length_cons, ih]

theorem cohBytes_getD {s : State} {pa n i : Nat} (h : i < n) : (cohBytes s pa n).getD i 0 = cohByte s (pa + i) := by
  induction n generalizing pa i with
  | zero => exact absurd h (Nat.not_lt_zero i)
  | succ n ih =>
    cases i with
    | zero => rfl
    | succ i => rw [cohBytes, List.getD_cons_succ, ih (Nat.lt_of_succ_lt_succ h), Nat.add_assoc, Nat.add_comm 1 i]

theorem cohBytes_drop (s : State) (pa k n : Nat) : (cohBytes s pa (k + n)).drop k = cohBytes s (pa + k) n := by
  induction k generalizing pa with
  | zero => rw [Nat.zero_add, List.drop_zero, Nat.add_zero]
  | succ k ih => rw [Nat.succ_add, cohBytes, List.drop_succ_cons, ih, Nat.add_assoc, Nat.add_comm 1 k]

theorem cohBytes_take {s : State} {pa n m : Nat} (h : n ≤ m) : (cohBytes s pa m).take n = cohBytes s pa n := by
  induction n generalizing pa m with
  | zero => rw [List.take_zero]; rfl
  | succ n ih =>
    obtain ⟨m, rfl⟩ : ∃ k, m = k + 1 := ⟨m - 1, by omega⟩
    rw [cohBytes, cohBytes, List.take_succ_cons, ih (by omega)]

/-- A part of the bytes of a sector. -/
theorem cohBytes_part {s : State} {pa k n m : Nat} (h : k + n ≤ m) : ((cohBytes s pa m).drop k).take n = cohBytes s (pa + k) n := by
  obtain ⟨r, rfl⟩ : ∃ r, m = k + r := ⟨m - k, by omega⟩
  rw [cohBytes_drop, cohBytes_take (by omega)]

theorem readNum_of_readVa {s : State} {c : Ctx} {va n hint : Nat} {bs : List Byte} (read : (readVa s c va n hint).2 = .ok bs) :
    (readNum s c va n hint).2 = .ok (leNat bs) := by
  rw [readNum]
  generalize readVa s c va n hint = x at read ⊢
  obtain ⟨u, r⟩ := x
  subst read; rfl

/-- Settles O22: every load is one `loadWord`, and its value is extended at the width of its bytes; a read inside one sector is one piece. -/
theorem loadsPushWhatTheyRead : Obligations.LoadsPushWhatTheyRead := by
  intro s h regs tokens d a hint off x hi settled at_ loads
  have pushes {n : Nat} {i : Instr} {f : List Byte → W64} (signed : Bool) (run : exec i s = .next (loadWord s i h d a hint off n signed false))
      (value : ∀ bs, extend (loadReq (noted s h regs tokens i) (at_ n) n signed false hint.toNat none false) (leNat bs) = f bs) : loads n i f := by
    intro u bs plain read
    rw [run, loadWord_plain hi settled plain read, ← value]; rfl
  refine ⟨pushes true rfl fun _ => ?_, pushes false rfl fun _ => ?_, pushes true rfl fun _ => ?_, pushes false rfl fun _ => ?_, pushes true rfl fun _ => ?_,
    pushes false rfl fun _ => ?_, pushes true rfl fun _ => ?_, fun service aligned q o here window => ?_,
    fun t c va n hint q o pte place root some inside here memory leaf near readable unmoved => ?_⟩
  · exact extend_signed rfl 8 rfl (by decide) (by decide) _
  · exact extend_unsigned rfl _
  · exact extend_signed rfl 16 rfl (by decide) (by decide) _
  · exact extend_unsigned rfl _
  · exact extend_signed rfl 32 rfl (by decide) (by decide) _
  · exact extend_unsigned rfl _
  · exact extend_doubleword rfl rfl _
  · exact congrArg Host.Outcome.next (loadWord_mgmt hi settled service aligned here window)
  · have owner : (nbit pte 48 && homeQuarter c != q) = false := by rcases near with h | h <;> simp [h]
    have read := readPiece_base (n := n) (hint := hint) root here memory leaf owner unmoved readable
    rw [← readVa_sector some inside] at read
    exact ⟨read, readNum_of_readVa read, fun i hlt => cohBytes_getD hlt⟩

/-! ## Read-only loads and acquires (R78, R79, R252) -/

theorem locOf_here_iff {va q o : Nat} : locOf va = .here q o ↔
    (va / 2 ^ 48 % 2 ^ 16 = 0xFFFF ∨ va / 2 ^ 48 % 2 ^ 16 = Config.device) ∧ nfld va 46 2 = q ∧ va % 2 ^ 46 = o := by
  unfold locOf; dsimp only
  split_ifs with own <;> simp only [own, true_and, false_and, Loc.here.injEq]

theorem locOf_sector {va q o : Nat} (here : locOf va = .here q o) : locOf (va / 32 * 32) = .here q (o / 32 * 32) := by
  rw [locOf_here_iff] at here ⊢
  obtain ⟨own, rfl, rfl⟩ := here
  have device : va / 32 * 32 / 2 ^ 48 % 2 ^ 16 = va / 2 ^ 48 % 2 ^ 16 := by omega
  exact ⟨device ▸ own, by unfold nfld; omega, by omega⟩

theorem offset_mod_sector {va q o : Nat} (here : locOf va = .here q o) : va % 32 = o % 32 := by
  obtain ⟨-, -, rfl⟩ := locOf_here_iff.1 here
  omega

theorem homeCtx_here {c : Ctx} {va q o : Nat} (here : locOf va = .here q o) : homeCtx c va = { c with home := some q } := by rw [homeCtx, here]

section
variable {t : State} {c : Ctx} {va n hint q o : Nat}

/-- A copy that the read-only path of a core holds answers, however old (R79, R252). -/
theorem readOnly_copy {y : RoCopy} (here : locOf va = .here q o)
    (copy : fget (core t (coreOf c.part)).roCopies (roKey (viewThat t c.view q o) c.asid ((q * 2 ^ 46 + o) / 32)) = some y) :
    (readOnly t c va n hint).2 = .ok (leNat ((y.bytes.drop (va % 32)).take n)) := by
  unfold readOnly; simp only [here, copy]

/-- A sector that the read-only path does not hold is filled from its home (R79). -/
theorem readOnly_fill {bs : List Byte} (here : locOf va = .here q o)
    (none : fget (core t (coreOf c.part)).roCopies (roKey (viewThat t c.view q o) c.asid ((q * 2 ^ 46 + o) / 32)) = none)
    (read : (readVa t { c with home := some q } (va / 32 * 32) 32 (if hint = 3 then 3 else 4 + hint)).2 = .ok bs) :
    (readOnly t c va n hint).2 = .ok (leNat ((bs.drop (va % 32)).take n)) := by
  unfold readOnly; simp only [here, none, homeCtx_here here]
  generalize readVa t _ _ _ _ = x at read ⊢
  obtain ⟨u, r⟩ := x
  subst read; rfl
end

/-- A load that acquires and has no value yet holds the later accesses of its stream (R78). -/
theorem acquireHolds_pending {t : State} {p seq : Nat} {f : Flight} {r : LoadReq} (flying : f ∈ (part t p).flights) (load : f.val = .load r)
    (acquires : r.acq = true) (before : f.seq < seq) : acquireHolds t p seq = true := by
  have pending : pendingLoad f = some r := by rw [pendingLoad, load]
  unfold acquireHolds
  rw [Bool.or_eq_true, List.any_eq_true]
  exact .inl ⟨f, flying, by simp [before, pending, acquires]⟩

/-- An observing load that waits for nothing pushes what it reads (R378). -/
theorem pushLoad_observed {t u : State} {d : Reg} {r : LoadReq} {v : Nat} (settled : Settled t) (tried : tryLoad t t.cur r = (u, .value v))
    (cur : u.cur = t.cur) (unrecorded : Unrecorded u) : pushLoad t d r true = .next (fly (bumpOrdinal u t.cur) d (.ready (extend r v))) := by
  have seen := observe_unrecorded unrecorded r.va (extend r v)
  rw [cur] at seen
  simp [pushLoad, settled_loadWaits settled, tried, seen]

theorem unrecorded_fly0 {t : State} (g : Unrecorded t) (d : Reg) (v : FlightVal) : Unrecorded (fly0 t d v) :=
  unrecorded_of_kept g rfl rfl rfl (by unfold jobOf fly0; rw [part_modPart])

/-- An observing load without a valid mapping waits in the load queue, its fault queued (R75, R371). -/
theorem pushLoad_held {t u : State} {d : Reg} {r : LoadReq} (settled : Settled t) (tried : tryLoad t t.cur r = (u, .held))
    (cur : u.cur = t.cur) (unrecorded : Unrecorded u) : pushLoad t d r true = .next (bumpOrdinal (fly0 u d (.load { r with seen := u.retries + 1 })) t.cur) := by
  have later := observeLater_unrecorded (unrecorded_fly0 unrecorded d (.load { r with seen := u.retries + 1 })) (wordSeq t) r.va
  rw [show (fly0 u d (.load { r with seen := u.retries + 1 })).cur = t.cur from cur] at later
  simp [pushLoad, settled_loadWaits settled, tried, later]

section
variable {s u : State} {h : Hdr} {regs : FMap (List W64)} {tokens : FMap Nat} {d a : Reg} {scope : BitVec 2} {x : W64}

/-- `ld.acq` with nothing outstanding does what the push of its load does. -/
theorem exec_ldAcq (hi : Issues s h { reads := [rd s a true], dst := dstOf s d, loads := true } [x] regs tokens) (plain : Plain x.toNat 8)
    (unrecorded : Unrecorded s) {t : State} (pushed : pushLoad (noted s h regs tokens (.ldAcq h d a scope)) d
      (loadReq (noted s h regs tokens (.ldAcq h d a scope)) x.toNat 8 false false 0 none true) true = .next t) :
    exec (.ldAcq h d a scope) s = .next (onward s h false 1 t) := by
  refine congrArg Host.Outcome.next (issueWord_next hi _ _ ?_)
  have free := replayHold_unrecorded (unrecorded_noted (h := h) (regs := regs) (tokens := tokens) (i := .ldAcq h d a scope) unrecorded)
  simp only [List.getD_cons_zero, ← noted_eq, plain_trap plain, free, pushed]

theorem exec_ldAcq_value (hi : Issues s h { reads := [rd s a true], dst := dstOf s d, loads := true } [x] regs tokens) (settled : Settled s)
    (plain : Plain x.toNat 8) (unrecorded : Unrecorded s) {bs : List Byte}
    (read : readVa (noted s h regs tokens (.ldAcq h d a scope)) (ctxOf s s.cur .control) x.toNat 8 0 = (u, .ok bs)) :
    exec (.ldAcq h d a scope) s = .next (onward s h false 1 (fly (bumpOrdinal u s.cur) d (.ready (w64 (leNat bs))))) := by
  have after : u = (readVa (noted s h regs tokens (.ldAcq h d a scope)) (ctxOf s s.cur .control) x.toNat 8 0).1 := by rw [read]
  refine exec_ldAcq hi plain unrecorded ?_
  rw [pushLoad_observed (u := u) (v := leNat bs) (settled_noted settled) ?_ (by rw [after, readVa_cur]) (after ▸ unrecorded_readVa (unrecorded_noted unrecorded) ..),
    noted_cur]
  · rfl
  · rw [noted_cur]
    exact tryLoad_value rfl rfl plain.1 plain.2.1 (by simp only [loadReq, ctxOf_noted, readNum, read])

theorem exec_ldAcq_fault (hi : Issues s h { reads := [rd s a true], dst := dstOf s d, loads := true } [x] regs tokens) (settled : Settled s)
    (plain : Plain x.toNat 8) (unrecorded : Unrecorded s) {k va : Nat}
    (read : readVa (noted s h regs tokens (.ldAcq h d a scope)) (ctxOf s s.cur .control) x.toNat 8 0 = (u, .error (.fault k va))) :
    exec (.ldAcq h d a scope) s = .next (onward s h false 1 (bumpOrdinal (fly0 (faultFor u (ctxOf s s.cur .control) va 0 k) d (.load
      { va := x.toNat, bytes := 8, signed := false, readOnly := false, hint := 0, seen := u.retries + 1, gate := (part s s.cur).mark, watch := none, acq := true }))
      s.cur)) := by
  have after : u = (readVa (noted s h regs tokens (.ldAcq h d a scope)) (ctxOf s s.cur .control) x.toNat 8 0).1 := by rw [read]
  have mark : (part (noted s h regs tokens (.ldAcq h d a scope)) s.cur).mark = (part s s.cur).mark := by
    obtain ⟨w, e⟩ := part_noted (s := s) (h := h) (regs := regs) (tokens := tokens) (i := .ldAcq h d a scope)
    rw [e]; simp
  obtain ⟨q, o, here, data⟩ := plain_loc plain
  have unrecordedU : Unrecorded u := after ▸ unrecorded_readVa (unrecorded_noted unrecorded) ..
  refine exec_ldAcq hi plain unrecorded ?_
  rw [pushLoad_held (u := faultFor u (ctxOf s s.cur .control) va 0 k) (settled_noted settled) ?_
    ((congrArg State.cur after).trans (readVa_cur ..)) (unrecorded_of_kept unrecordedU rfl rfl rfl rfl), noted_cur]
  · simp only [loadReq, noted_cur, mark]; rfl
  · rw [noted_cur]
    simp [tryLoad, loadReq, here, data, ctxOf_noted, readNum, read]

end

/-- Settles O23: the read-only load by `loadWord_readOnly`, the acquire by what its read answers, and the read-only path by whether it holds a copy. -/
theorem readOnlyAndAcquireLoads : Obligations.ReadOnlyAndAcquireLoads := by
  intro s h regs tokens d a hint scope size off x hi settled n va
  refine ⟨fun u v plain read => ?_, fun u bs plain unrecorded read => exec_ldAcq_value hi settled plain unrecorded read,
    fun u k va' plain unrecorded read => exec_ldAcq_fault hi settled plain unrecorded read,
    fun t p seq f r r' e flying load acquires before => ?_, fun t c va n hint q o here inside => ⟨fun y held => readOnly_copy here held, ?_⟩⟩
  · refine congrArg Host.Outcome.next ((loadWord_readOnly hi settled plain read).trans ?_)
    cases size.getLsbD 0 <;> simp [extend, loadReq]
  · have holds := acquireHolds_pending flying load acquires before
    exact ⟨by simp [loadWaits, holds], fun own word => by simp [writeHolds, own, word, holds]⟩
  · intro pte place unheld root memory leaf readable unmoved
    have sector : va / 32 * 32 % 32 + 32 ≤ 32 := by omega
    have read := readPiece_base (n := 32) (hint := if hint = 3 then 3 else 4 + hint) (c := { c with home := some q }) root (locOf_sector here) memory leaf
      (by simp [homeQuarter]) unmoved readable
    rw [← readVa_sector (by decide) sector] at read
    rw [readOnly_fill here unheld read, cohBytes_part (by omega), offset_mod_sector here]

/-! ## Fences and marks (R83, R84) -/

/-- Settles O28: a fence by what is not performed before it; a mark keeps its own number and the widest scope. -/
theorem fencesWaitAndMarksDivide : Obligations.FencesWaitAndMarksDivide := by
  intro s h regs tokens scope hi
  have seq := issued_wordSeq s h regs tokens
  refine ⟨fun settled => ?_, fun f r flying before load => ?_, congrArg Host.Outcome.next (issueWord_next hi _ _ ?_)⟩
  · rw [exec_fence]
    exact congrArg Host.Outcome.next (issueWord_next hi _ _ (by simp [settled_fence settled]))
  · have pending : loadsBefore (part s s.cur) s.nextSeq = true := by
      unfold loadsBefore
      rw [Bool.or_eq_true, List.any_eq_true]
      exact .inl ⟨f, flying, by simp [before, pendingLoad, load]⟩
    rw [exec_fence]
    exact congrArg Host.Outcome.next (issueWord_hold hi _ _ (by simp [seq, fenceHolds, unperformed, pending]))
  · rw [issued_cur, seq]

end Sys2Proof.Machine.Proofs
end

section
/-! PROOFS. What is done at a home: atomics and byte barriers (R80, R81, R86 to R88). -/

namespace Sys2Proof.Machine.Proofs

open Sys2Proof Sys2Proof.Machine Sys2Proof.Machine.Safety Sys2Proof.Machine.Laws

/-! ## Reads and writes at a home (R80) -/

/-- What is done indivisibly at a home is one read and one write there, of a place that may be written. -/
theorem atHome_ok {s u : State} {c : Ctx} {va n : Nat} {f : List Byte → Option (List Byte)} {old : List Byte} (made : atHome s c va n f = (u, .ok old)) :
    mayWrite s c va = .ok () ∧ ∃ r, readHome s c va n 0 = (r, .ok old) ∧
      (∀ new, f old = some new → writeVa r (homeCtx c va) va new 0 = (u, .ok ())) ∧ (f old = none → c.view = 0 → u = r) := by
  unfold atHome at made
  split at made
  · simp at made
  next may =>
  refine ⟨may, ?_⟩
  split at made
  · simp at made
  next r bs read =>
  split at made
  next new changed =>
    split at made
    · simp at made
    next t wrote =>
      injection made with hu ho
      injection ho with ho
      subst hu ho
      exact ⟨r, read, fun m hm => by rw [changed] at hm; injection hm with hm; rw [← hm, wrote], fun hm => by simp [changed] at hm⟩
  next kept =>
    have same : old = bs := by
      split at made
      · exact (Except.ok.inj (congrArg Prod.snd made)).symm
      · split at made
        · split at made
          · split at made
            · simp at made
            · exact (Except.ok.inj (congrArg Prod.snd made)).symm
          · simp at made
        · exact (Except.ok.inj (congrArg Prod.snd made)).symm
    subst same
    refine ⟨r, read, fun m hm => by simp [kept] at hm, fun _ root => ?_⟩
    rw [if_pos root] at made
    exact (congrArg Prod.fst made).symm

theorem performOp_atomic {s u : State} {c : Ctx} {va : Nat} {op : AtomicOp} {x y old : W64} (made : performOp s c va (.atomic op x y) 0 = (u, .ok old)) :
    ∃ bs, atHome s c va (atomicBytes op) (fun old => (atomicNew op (leNat old) x y).map (leBytes (atomicBytes op))) = (u, .ok bs) ∧ old = w64 (leNat bs) := by
  unfold performOp at made
  dsimp only at made
  split at made
  · simp at made
  next t bs home =>
    injection made with hu ho
    injection ho with ho
    exact ⟨bs, hu ▸ home, ho.symm⟩

theorem performOp_bbInit {s u : State} {c : Ctx} {va : Nat} {e old : W64} (made : performOp s c va (.bbInit e) 0 = (u, .ok old)) :
    ∃ bs, atHome s c va 32 (fun _ => some (leBytes 32 (e.toNat * 2 ^ 64))) = (u, .ok bs) := by
  unfold performOp at made
  dsimp only at made
  split at made
  · simp at made
  next t bs home =>
    obtain ⟨same, -⟩ := Prod.mk.inj made
    exact ⟨bs, same ▸ home⟩

theorem performOp_bbExp {s u : State} {c : Ctx} {va : Nat} {e old : W64} (made : performOp s c va (.bbExp e) 0 = (u, .ok old)) :
    ∃ bs, atHome s c va 32 (fun old => some (barrierStep (leBytes 32 (nset (leNat old) 64 64 e.toNat)) 0)) = (u, .ok bs) := by
  unfold performOp at made
  dsimp only at made
  split at made
  · simp at made
  next t bs home =>
    obtain ⟨same, -⟩ := Prod.mk.inj made
    exact ⟨bs, same ▸ home⟩

theorem performOp_barrierAdd {s u : State} {c : Ctx} {va n : Nat} {old : W64} (made : performOp s c va (.barrierAdd n) 0 = (u, .ok old)) :
    ∃ t bs, atHome s c va 32 (fun old => some (barrierStep old n)) = (t, .ok bs) ∧ u = if c.view = 0 then dependTest t c.asid va else t := by
  unfold performOp at made
  dsimp only at made
  split at made
  · simp at made
  next t bs home => exact ⟨t, bs, home, (congrArg Prod.fst made).symm⟩

/-- A read at the home in base memory answers what every coherent reader sees at the place of its leaf, whatever line an L2 still holds (R80, R287). -/
theorem readHome_base {s : State} {c : Ctx} {va n hint q o pte place : Nat} (root : c.view = 0) (here : locOf va = .here q o) (memory : spotOf s q o = .memory)
    (leaf : leafAt s q c.asid o = some (pte, place)) (readable : unreadable s (leafPa pte o) = false) :
    (readHome s c va n hint).2 = .ok (cohBytes s (leafPa pte o) n) := by
  have own : overlayFind s c.view (lineOf q o) = none := by rw [root]; rfl
  have home : homeQuarter { c with home := some q } = q := rfl
  have still := readable_of (noteLeaf_readable s q c.asid o) readable
  unfold readHome
  simp only [here, memory, leaf, own]
  simp only [readBase, sourceFor, placeFor, home, bne_self_eq_false, Bool.and_false, Bool.false_and, Bool.false_eq_true, if_false, still, ne_eq, not_true_eq_false,
    and_false]
  rw [cohBytes_of (noteLeaf_bytes s q c.asid o)]

/-! ## A write of the issuing word that is performed at once (R73) -/

/-- A write of this device that waits for nothing and escapes no world is made at once, and the request rings are tested that it may answer. -/
theorem makeWrite_performed {t u : State} {e : SideEntry} {old : W64} (plain : isHere e.va = true) (data : isMgmt e.va = false)
    (inside : escapes t e.ctx e.va (opBytes e.op) = false) (idle : logBusy t e.ctx = false) (untested : slicesTested t = [])
    (made : performOp t e.ctx e.va e.op e.hint = (u, .ok old)) : makeWrite t e = (retestRings u, .done old) := by
  have sent : sendEntry t e = (u, .done old) := by simp [sendEntry, inside, idle, waitsHome_untested untested, made]
  unfold isHere at plain
  unfold isMgmt at data
  unfold makeWrite
  cases here : locOf e.va <;> rw [here] at plain data <;> simp only [Bool.false_eq_true] at plain
  simp only at data
  simp [data, sent]

/-- A place inside one sector that may be written escapes no world (R285, R352). -/
theorem escapes_sector {t : State} {c : Ctx} {va n : Nat} (size : 0 < n) (inside : va % 32 + n ≤ 32) (may : mayWrite t c va = .ok ()) : escapes t c va n = false := by
  simp [escapes, piecesOf_sector size inside, may]

theorem aligned_sector {va n : Nat} (divides : n ∣ 32) (aligned : va % n = 0) : va % 32 + n ≤ 32 := by
  obtain ⟨k, hk⟩ := divides
  have whole : va % 32 % n = 0 := by rw [Nat.mod_mod_of_dvd va ⟨k, hk⟩, aligned]
  obtain ⟨j, hj⟩ := Nat.dvd_of_mod_eq_zero whole
  have below : n * j < n * k := by rw [← hj, ← hk]; exact Nat.mod_lt _ (by decide)
  have next : n * (j + 1) ≤ n * k := Nat.mul_le_mul_left n (Nat.lt_of_mul_lt_mul_left below)
  rw [hj, hk, ← Nat.mul_succ]; exact next

theorem atomicBytes_dvd (op : AtomicOp) : atomicBytes op ∣ 32 := by cases op <;> decide

theorem atomicBytes_pos (op : AtomicOp) : 0 < atomicBytes op := by cases op <;> decide

section
variable {s u : State} {h : Hdr} {regs : FMap (List W64)} {tokens : FMap Nat} {i : Instr} {x : W64}

/-- With nothing outstanding, a write of the noted word that can be performed is. -/
theorem makeWrite_noted (settled : Settled s) {va : Nat} {op : WriteOp} {acc : Nat} {reg : Option Nat} {old : W64} (here : isHere va = true)
    (data : isMgmt va = false) (inside : escapes (noted s h regs tokens i) (ctxOf s s.cur .control) va (opBytes op) = false)
    (made : performOp (noted s h regs tokens i) (ctxOf s s.cur .control) va op 0 = (u, .ok old)) :
    makeWrite (noted s h regs tokens i) (wordEntry (noted s h regs tokens i) va op 0 acc reg 0) = (retestRings u, .done old) := by
  have settledN := settled_noted (h := h) (regs := regs) (tokens := tokens) (i := i) settled
  have idle := settled_busy settledN
  have own : (wordEntry (noted s h regs tokens i) va op 0 acc reg 0).ctx = ctxOf s s.cur .control := by
    rw [← ctxOf_noted (s := s) (h := h) (regs := regs) (tokens := tokens) (i := i)]; simp only [wordEntry, noted_cur]
  rw [noted_cur, ctxOf_noted] at idle
  exact makeWrite_performed here data (own ▸ inside) (own ▸ idle) settledN.homes (own ▸ made)

/-- An atomic with nothing outstanding pushes the value that it found at its home. -/
theorem atomicWord_acts {op : AtomicOp} {d : Reg} {reads : List (Nat × Bool)} {vals : List W64} {old : W64}
    (hi : Issues s h { reads := reads, dst := dstOf s d, loads := true } vals regs tokens) (first : vals.getD 0 0 = x) (settled : Settled s) (unrecorded : Unrecorded s)
    (plain : Plain x.toNat (atomicBytes op))
    (made : performOp (noted s h regs tokens i) (ctxOf s s.cur .control) x.toNat (.atomic op (vals.getD 1 0) (vals.getD 2 0)) 0 = (u, .ok old))
    (still : Unrecorded { retestRings u with cur := s.cur }) :
    atomicWord s i h d reads op = onward s h false 1 (fly (bumpOrdinal (retestRings u) s.cur) d (.ready old)) := by
  obtain ⟨bs, home, -⟩ := performOp_atomic made
  obtain ⟨may, -⟩ := atHome_ok home
  obtain ⟨-, -, near, -⟩ := plain_kind plain
  have inside := escapes_sector (atomicBytes_pos op) (aligned_sector (atomicBytes_dvd op) plain.2.2) may
  have sent := makeWrite_noted (acc := 1) (reg := some (dstOf (noted s h regs tokens i) d)) settled plain.1 plain.2.1 inside made
  have free := replayHold_unrecorded (unrecorded_noted (h := h) (regs := regs) (tokens := tokens) (i := i) unrecorded)
  have unqueued := settled_queue (settled_noted (h := h) (regs := regs) (tokens := tokens) (i := i) settled) x.toNat
    (.atomic op (vals.getD 1 0) (vals.getD 2 0)) 0 1 (some (dstOf (noted s h regs tokens i) d)) 0
  have own : (wordEntry (noted s h regs tokens i) x.toNat (.atomic op (vals.getD 1 0) (vals.getD 2 0)) 0 1 (some (dstOf (noted s h regs tokens i) d)) 0).ctx =
      ctxOf s s.cur .control := by
    rw [← ctxOf_noted (s := s) (h := h) (regs := regs) (tokens := tokens) (i := i)]; simp only [wordEntry, noted_cur]
  have seen : observe (retestRings u) s.cur x.toNat old = (bumpOrdinal (retestRings u) s.cur, some old)  :=
    observe_uncaptured (s := retestRings u) (p := s.cur) still.1 still.2 x.toNat old
  unfold atomicWord accessWord
  refine issueWord_next hi _ _ ?_
  simp only [← noted_eq, first, plain_trap plain, own, inside, near, free, unqueued, sent, noted_cur, seen, Bool.false_eq_true, and_false, or_self, if_false]

/-- `bbinit` and `bbexp` with nothing outstanding are performed at the home (R88). -/
theorem barrierWord_performed {a b : Reg} {ka kb : Bool} {y old : W64} {op : W64 → WriteOp} (size : opBytes (op y) = 32)
    (hi : Issues s h { reads := [rd s a ka, rd s b kb], loads := true } [x, y] regs tokens) (settled : Settled s) (plain : Plain x.toNat 32)
    (may : mayWrite (noted s h regs tokens i) (ctxOf s s.cur .control) x.toNat = .ok ())
    (made : performOp (noted s h regs tokens i) (ctxOf s s.cur .control) x.toNat (op y) 0 = (u, .ok old)) :
    barrierWord s i h a b ka kb op = onward s h false 1 (retestRings u) := by
  obtain ⟨-, -, near, -⟩ := plain_kind plain
  have inside := escapes_sector (by decide) (aligned_sector (by decide) plain.2.2) may
  have sent := makeWrite_noted (acc := 1) (reg := none) settled plain.1 plain.2.1 (size.symm ▸ inside) made
  have unqueued := settled_queue (settled_noted (h := h) (regs := regs) (tokens := tokens) (i := i) settled) x.toNat (op y) 0 1 none 0
  have own : (wordEntry (noted s h regs tokens i) x.toNat (op y) 0 1 none 0).ctx = ctxOf s s.cur .control := by
    rw [← ctxOf_noted (s := s) (h := h) (regs := regs) (tokens := tokens) (i := i)]; simp only [wordEntry, noted_cur]
  unfold barrierWord accessWord
  refine issueWord_next hi _ _ ?_
  simp only [← noted_eq, List.getD_cons_zero, List.getD_cons_succ, plain_trap plain, own, inside, near, unqueued, sent, Bool.false_eq_true, and_false, or_self,
    if_false]

end

/-! ## The new value of an atomic (R80, R81) -/

theorem toInt_min (x y : W64) : (if x.toInt ≤ y.toInt then x else y).toInt = min x.toInt y.toInt := by split <;> omega

theorem toInt_max (x y : W64) : (if x.toInt ≤ y.toInt then y else x).toInt = max x.toInt y.toInt := by split <;> omega

/-- A compare writes where the value that it found is the one it names. -/
theorem atomicNew_cas {old : Nat} (fits : old < 2 ^ 64) (x y : W64) : atomicNew .cas old x y = if old = x.toNat then some y.toNat else none := by
  have same : w64 old = x ↔ old = x.toNat := by
    rw [← BitVec.toNat_inj, w64, BitVec.toNat_ofNat, Nat.mod_eq_of_lt fits]
  simp only [atomicNew, same]

/-- Settles O25: an atomic is performed at its home (`atomicWord_acts`), where it is one read and one write (`atHome_ok`). -/
theorem atomicsReturnTheOldValue : Obligations.AtomicsReturnTheOldValue := by
  refine ⟨?words, fun old x y fits => ?_, fun s u c va op x y old made => ?_, fun s c va n q o pte place => readHome_base⟩
  case words =>
    intro s h regs tokens d a b ka kb x y z settled unrecorded acts
    refine ⟨fun hi => ?_, fun hi u old plain made still => congrArg Host.Outcome.next (atomicWord_acts hi rfl settled unrecorded plain made still)⟩
    have words {op : AtomicOp} {i : Instr} (run : exec i s = .next (atomicWord s i h d [rd s a ka, rd s b kb] op)) : acts op y 0 i :=
      fun u old plain made still => run.trans (congrArg Host.Outcome.next (atomicWord_acts hi rfl settled unrecorded plain made still))
    exact ⟨words rfl, words rfl, words rfl, words rfl, words rfl, words rfl, words rfl, words rfl, words rfl, words rfl, words rfl⟩
  · have cas := atomicNew_cas fits x y
    refine ⟨?_, rfl, rfl, rfl, rfl, rfl, rfl, ⟨_, rfl, toInt_min ..⟩, ⟨_, rfl, toInt_max ..⟩, fun same => by rw [cas, if_pos same],
      fun other => by rw [cas, if_neg other], fun sum e => ⟨by rw [← e]; rfl, fun nan => ?_⟩, fun sum e => ⟨by rw [← e]; rfl, fun nan => ?_⟩⟩
    · simp [atomicNew, w64, BitVec.toNat_add]
    · rw [nan] at e; simp only [atomicNew, atomicFloat, e]; rfl
    · rw [nan] at e; simp only [atomicNew, atomicFloat, e]; rfl
  · obtain ⟨bs, home, value⟩ := performOp_atomic made
    obtain ⟨-, r, read, changed, kept⟩ := atHome_ok home
    exact ⟨r, bs, read, value, fun n new => changed _ (by rw [new]; rfl), fun none root => kept (by rw [none]; rfl) root⟩

/-! ## Byte barriers (R86 to R88) -/

theorem leBytes_add (m n v : Nat) : leBytes (m + n) v = leBytes m v ++ leBytes n (v / 256 ^ m) := by
  induction m generalizing v with
  | zero => simp [leBytes]
  | succ m ih => rw [Nat.succ_add, leBytes, leBytes, ih, List.cons_append, Nat.div_div_eq_div_mul, ← pow_succ']

theorem leBytes_zero (n : Nat) : leBytes n 0 = List.replicate n 0 := by
  induction n with
  | zero => rfl
  | succ n ih => rw [leBytes, Nat.zero_div, ih, List.replicate_succ]; rfl

theorem leBytes_shifted (m v : Nat) : leBytes m (v * 256 ^ m) = List.replicate m 0 := by
  induction m generalizing v with
  | zero => rfl
  | succ m ih =>
    have low : v * 256 ^ (m + 1) = v * 256 ^ m * 256 := by rw [pow_succ, Nat.mul_assoc]
    have byte : (BitVec.ofNat 8 (v * 256 ^ m * 256)) = 0 := BitVec.eq_of_toNat_eq (by
      rw [BitVec.toNat_ofNat]; exact Nat.mul_mod_left ..)
    rw [leBytes, low, byte, Nat.mul_div_cancel _ (by decide), ih, List.replicate_succ]

/-- A barrier that has been set up: no bytes have arrived, and its phase is 0 (R88). -/
theorem leBytes_bbInit {e : Nat} (fits : e < 2 ^ 64) :
    leBytes 32 (e * 2 ^ 64) = List.replicate 8 0 ++ leBytes 8 e ++ List.replicate 16 0 := by
  have shift : e * 2 ^ 64 = e * 256 ^ 8 := by norm_num
  have rest : e / 256 ^ 8 = 0 := Nat.div_eq_of_lt (by norm_num; omega)
  rw [show (32 : Nat) = 8 + (8 + 16) from rfl, leBytes_add, shift, leBytes_shifted, Nat.mul_div_cancel _ (by positivity), leBytes_add, rest, leBytes_zero,
    List.append_assoc]

/-- A barrier as a number: the bytes that have arrived, the expectation and the phase (R86). -/
def barrierNum (arrived expect phase : Nat) : Nat := arrived + expect * 2 ^ 64 + phase * 2 ^ 128

theorem barrierNum_fields {a e p : Nat} (ha : a < 2 ^ 64) (he : e < 2 ^ 64) (hp : p < 2 ^ 32) : nfld (barrierNum a e p) 0 64 = a ∧
    nfld (barrierNum a e p) 64 64 = e ∧ nfld (barrierNum a e p) 128 32 = p ∧ nfld (barrierNum a e p) 160 96 = 0 := by
  unfold nfld barrierNum; omega

theorem eq_barrierNum (v : Nat) : v % 2 ^ 160 = barrierNum (nfld v 0 64) (nfld v 64 64) (nfld v 128 32) := by unfold nfld barrierNum; omega

theorem nset_arrived {a e p : Nat} (ha : a < 2 ^ 64) (x : Nat) : nset (barrierNum a e p) 0 64 x = barrierNum (x % 2 ^ 64) e p := by
  unfold nset nfld barrierNum; omega

theorem nset_phase {a e p : Nat} (ha : a < 2 ^ 64) (he : e < 2 ^ 64) (hp : p < 2 ^ 32) (x : Nat) :
    nset (barrierNum a e p) 128 32 x = barrierNum a e (x % 2 ^ 32) := by
  unfold nset nfld barrierNum; omega

theorem barrierNum_lt {a e p : Nat} (ha : a < 2 ^ 64) (he : e < 2 ^ 64) (hp : p < 2 ^ 32) : barrierNum a e p < 256 ^ 32 := by
  unfold barrierNum; omega

theorem nfld_lt (v lo w : Nat) : nfld v lo w < 2 ^ w := Nat.mod_lt _ (by positivity)

/-- A barrier after an add: below its expectation the bytes are counted; at it the expectation is taken off and the phase moves on (R87). -/
theorem leNat_barrierStep (b : List Byte) (n : Nat) {v arrived expect : Nat} (hv : v = leNat b) (ha : arrived = (nfld v 0 64 + n) % 2 ^ 64)
    (he : expect = nfld v 64 64) : leNat (barrierStep b n) =
      if expect ≤ arrived then barrierNum (arrived - expect) expect ((nfld v 128 32 + 1) % 2 ^ 32) else barrierNum arrived expect (nfld v 128 32) := by
  obtain ⟨low, mid, high, -⟩ := barrierNum_fields (nfld_lt v 0 64) (nfld_lt v 64 64) (nfld_lt v 128 32)
  have arrivedLt : arrived < 2 ^ 64 := ha ▸ Nat.mod_lt _ (by decide)
  have expectLt : expect < 2 ^ 64 := he ▸ nfld_lt ..
  have less : arrived - expect < 2 ^ 64 := by omega
  have phaseLt := nfld_lt v 128 32
  have nextLt : (nfld v 128 32 + 1) % 2 ^ 32 < 2 ^ 32 := Nat.mod_lt _ (by decide)
  rw [barrierStep, leNat_leBytes]
  simp only [← hv, eq_barrierNum v, low, mid, high]
  simp only [← ha, ← he]
  rw [nset_arrived (nfld_lt v 0 64), nset_arrived (nfld_lt v 0 64), Nat.mod_eq_of_lt less, Nat.mod_eq_of_lt arrivedLt, nset_phase less expectLt phaseLt]
  split
  · exact Nat.mod_eq_of_lt (barrierNum_lt less expectLt nextLt)
  · exact Nat.mod_eq_of_lt (barrierNum_lt arrivedLt expectLt phaseLt)

/-- Settles O27: the fields of a barrier after an add (`leNat_barrierStep`), and each operation as one read and one write at the home (`atHome_ok`). -/
theorem barrierAddsCountToTheirExpectation : Obligations.BarrierAddsCountToTheirExpectation := by
  refine ⟨?fields, fun s u c va n old made => ?_, fun s u c va e old made => ?_, fun s u c va e old made => ?_⟩
  case fields =>
    intro b n _ _ v arrived expect w
    have value : w = _ := leNat_barrierStep b n (v := v) rfl (arrived := arrived) rfl (expect := expect) rfl
    have arrivedLt : arrived < 2 ^ 64 := Nat.mod_lt _ (by decide)
    have expectLt : expect < 2 ^ 64 := nfld_lt ..
    refine ⟨leBytes_length .., ?_⟩
    by_cases reached : expect ≤ arrived
    · rw [if_pos reached] at value
      obtain ⟨low, mid, high, rest⟩ := barrierNum_fields (Nat.lt_of_le_of_lt (Nat.sub_le arrived expect) arrivedLt) expectLt
        (Nat.mod_lt (nfld v 128 32 + 1) (show 0 < 2 ^ 32 by decide))
      rw [value]
      exact ⟨mid, rest, fun below => absurd below (Nat.not_lt.2 reached), fun _ => ⟨low, high⟩⟩
    · rw [if_neg reached] at value
      obtain ⟨low, mid, high, rest⟩ := barrierNum_fields arrivedLt expectLt (nfld_lt v 128 32)
      rw [value]
      exact ⟨mid, rest, fun _ => ⟨low, high⟩, fun full => absurd full reached⟩
  · obtain ⟨t, bs, home, done⟩ := performOp_barrierAdd made
    obtain ⟨-, r, read, changed, -⟩ := atHome_ok home
    exact ⟨r, t, bs, read, changed _ rfl, done⟩
  · obtain ⟨bs, home⟩ := performOp_bbInit made
    obtain ⟨-, r, read, changed, -⟩ := atHome_ok home
    exact ⟨r, bs, read, changed _ (by rw [leBytes_bbInit e.isLt])⟩
  · obtain ⟨bs, home⟩ := performOp_bbExp made
    obtain ⟨-, r, read, changed, -⟩ := atHome_ok home
    exact ⟨r, bs, read, changed _ rfl⟩

/-! ## The words of a barrier (R88) -/

theorem readNum_state (s : State) (c : Ctx) (va n hint : Nat) : (readNum s c va n hint).1 = (readVa s c va n hint).1 := by
  rw [readNum]; split <;> simp [*]

section
variable {s : State} {h : Hdr} {regs : FMap (List W64)} {tokens : FMap Nat} {d a b : Reg} {ka kb : Bool} {x y : W64}

/-- `bbwait` with nothing outstanding: one read of the phase decides. -/
theorem exec_bbwait (hi : Issues s h { reads := [rd s a ka, rd s b kb], dst := dstOf s d, loads := true } [x, y] regs tokens) (settled : Settled s)
    (plain : Plain x.toNat 32) (unrecorded : Unrecorded s) {u v : State} {ph : Nat}
    (read : readNum s (ctxOf s s.cur .control) (x.toNat + 16) 4 0 = (v, .ok ph))
    (reread : readNum (issued s h regs tokens) (ctxOf s s.cur .control) (x.toNat + 16) 4 0 = (u, .ok ph)) :
    (ph ≠ y.toNat % 2 ^ 32 → exec (.bbwait h d a b ka kb) s = .next (onward s h false 1 (fly (bumpOrdinal u s.cur) d (.ready (w64 ph))))) ∧
    (ph = y.toNat % 2 ^ 32 → exec (.bbwait h d a b ka kb) s = .next (holdWord (countIgnored v h) s.cur h.stop)) := by
  have unlogged : loggedValue s s.cur x.toNat = none := by rw [loggedValue, nextRead_unreplayed unrecorded.2]
  have after : u = (readVa (issued s h regs tokens) (ctxOf s s.cur .control) (x.toNat + 16) 4 0).1 := by rw [← readNum_state, reread]
  have unrecordedU : Unrecorded u := after ▸ unrecorded_readVa (unrecorded_issued unrecorded h regs tokens) ..
  have cur : u.cur = s.cur := by rw [after, readVa_cur, issued_cur]
  have seen := observe_unrecorded unrecordedU x.toNat (w64 ph)
  rw [cur] at seen
  refine ⟨fun other => congrArg Host.Outcome.next (issueWord_next hi _ _ ?_), fun same => congrArg Host.Outcome.next (issueWord_hold hi _ _ ?_)⟩
  · simp only [List.getD_cons_zero, List.getD_cons_succ, plain_trap plain, unlogged, issued_cur, settled_loadWaits settled, read, reread, ctxOf_issued, other,
      seen, Bool.false_eq_true, reduceCtorEq, if_false]
  · simp [plain_trap plain, unlogged, settled_loadWaits settled, read, same]

theorem exec_bbwait_bad (hi : Issues s h { reads := [rd s a ka, rd s b kb], dst := dstOf s d, loads := true } [x, y] regs tokens) (settled : Settled s)
    (plain : Plain x.toNat 32) (unrecorded : Unrecorded s) {v : State} {k : Nat}
    (read : readNum s (ctxOf s s.cur .control) (x.toNat + 16) 4 0 = (v, .error (.bad k))) :
    exec (.bbwait h d a b ka kb) s = .next (trapAt (countIgnored v h) s.cur (.bbwait h d a b ka kb) 0 0x0F 0 x) := by
  have unlogged : loggedValue s s.cur x.toNat = none := by rw [loggedValue, nextRead_unreplayed unrecorded.2]
  refine congrArg Host.Outcome.next ((issueWord_fail hi _ _ (t := v) (cause := 0x0F) (addr := x) ?_).trans rfl)
  simp [plain_trap plain, unlogged, settled_loadWaits settled, read, w64_toNat]

end

/-- Settles O26: the two words that set up a barrier are performed at its home (`barrierWord_performed`); `bbwait` by what its read finds. -/
theorem barrierWordsActOnTheirBarrier : Obligations.BarrierWordsActOnTheirBarrier := by
  intro s h regs tokens d a b ka kb x y settled plain
  refine ⟨fun hi => ⟨fun u old made => ?_, fun u old made => ?_⟩, fun hi unrecorded u v ph read reread => exec_bbwait hi settled plain unrecorded read reread,
    fun hi unrecorded v k read => exec_bbwait_bad hi settled plain unrecorded read⟩
  · obtain ⟨bs, home⟩ := performOp_bbInit made
    exact congrArg Host.Outcome.next (barrierWord_performed rfl hi settled plain (atHome_ok home).1 made)
  · obtain ⟨bs, home⟩ := performOp_bbExp made
    exact congrArg Host.Outcome.next (barrierWord_performed rfl hi settled plain (atHome_ok home).1 made)

end Sys2Proof.Machine.Proofs
end

section
/-! PROOFS. Stores (R75, R287): an address space of more than 16 bits has lines of its own that `InPlace` does not speak of. -/

namespace Sys2Proof.Machine.Proofs

open Sys2Proof Sys2Proof.Machine Sys2Proof.Machine.Safety Sys2Proof.Machine.Laws

/-- What every coherent reader sees at a place in the state that a step leads to. -/
def byteAfter (pa : Nat) : Host.Outcome State Fault Refusal → Byte
  | .next t => cohByte t pa
  | _ => 0

/-- The end of a word leaves memory and what the caches hold of it. -/
theorem byteAfter_onward (s : State) (h : Hdr) (command : Bool) (nw : Nat) (u : State) (pa : Nat) : byteAfter pa (.next (onward s h command nw u)) = cohByte u pa := by
  unfold byteAfter onward moveOn finishWord
  rcases postReady_cases (modCore (modPart u (countIgnored s h).cur fun x => { x with
    pc := w64 (arriveAt u (countIgnored s h).cur (followingPc s nw)).2, loops := (arriveAt u (countIgnored s h).cur (followingPc s nw)).1,
    posts := x.posts ++ owedPosts (countIgnored s h) command h }) (coreOf (countIgnored s h).cur) fun c => { c with nextIssue := (countIgnored s h).time + nw })
    (countIgnored s h).cur with same | ⟨m, l, posted⟩
  · simp only [same]; rfl
  · simp only [posted]; rfl

/-- The header of a word without a stop flag and without tokens. -/
def unflagged : Hdr := { wp := false, sp := false, wn := false, sn := false, stop := false }

/-- Partition 0 in the address space 65536, which no register of 16 bits can name, with the page of `heldPage` mapped for it. A level holds the line at the start of
the page from a place that the page does not lead to, and that place is cached with a byte that differs from memory. -/
def wideSpace : State :=
  { State.reset with
    tags := { large := [{ heldPage with asid := 2 ^ 16 }], virt := [(lineKey 0 (2 ^ 16) (lineOf 0 0x100000), { pa := 0x300000, sectors := 0, hint := 0, used := 0 })] }
    die := [(4 * 0x300000, { bytes := 1 :: List.replicate 31 0, dirty := false })]
    parts := [(0, { asid := 2 ^ 16, regs := [(1, [w64 pageVa]), (2, [5])] })] }

theorem wideSpace_issues : Issues wideSpace unflagged { reads := [rd wideSpace 1 true, rd wideSpace 2 false] } [w64 pageVa, 5] [(1, [w64 pageVa]), (2, [])] [] where
  calm := rfl
  quiet := rfl
  spaced := .inr (by decide)
  legal := rfl
  whole := rfl
  allowed := ⟨rfl, by decide⟩
  read := rfl
  room := .inl rfl
  posted := rfl
  logged := .inr rfl
  waited := rfl

theorem wideSpace_settled : Settled wideSpace where
  loads := by decide
  posts := rfl
  logs := ⟨rfl, rfl⟩
  acks := rfl
  pools := rfl
  homes := rfl

theorem wideSpace_sound : MemorySound wideSpace := ⟨rfl, by decide⟩

/-- The key of the line has 17 bits of address space, and `InPlace` compares 16 of them. -/
theorem wideSpace_inPlace : InPlace wideSpace (2 ^ 16) 0 0x100000 heldPage.pte := by
  intro v mem key
  obtain rfl : v = _ := List.mem_singleton.1 mem
  exact absurd key (by decide)

/-- The store takes the line for one left behind and drops it, and the byte of the cache is lost. -/
theorem byteAfter_stb : byteAfter (128 * 0x300000) (exec (.stb unflagged 2 1 0 0) wideSpace) = 0 := by decide +kernel

/-- Refutes O24: in an address space of more than 16 bits a store drops cached lines that `InPlace` does not name, and a byte of another line changes. -/
theorem not_storesWriteTheirBytes : ¬ Obligations.StoresWriteTheirBytes := by
  unfold Obligations.StoresWriteTheirBytes
  intro holds
  obtain ⟨bytewise, -⟩ := holds wideSpace unflagged [(1, [w64 pageVa]), (2, [])] [] 2 1 0 0 (w64 pageVa) 5 wideSpace_issues wideSpace_settled wideSpace_sound rfl
    (fun _ _ => rfl)
  obtain ⟨u, run, bytes, -⟩ := bytewise 0 0x100000 heldPage.pte heldPage.place ⟨by decide +kernel, by decide +kernel, by decide +kernel⟩ (by decide +kernel)
    (by decide +kernel) (by decide +kernel) (by decide) (by decide) wideSpace_inPlace (by decide) (by decide)
  have lost := byteAfter_stb
  rw [run, byteAfter_onward, bytes, if_neg (by decide)] at lost
  exact absurd lost (by decide +kernel)

end Sys2Proof.Machine.Proofs
end

section
/-! PROOFS. Maintenance (R85). -/

namespace Sys2Proof.Machine.Proofs

open Sys2Proof Sys2Proof.Machine Sys2Proof.Machine.Safety Sys2Proof.Machine.Laws

/-! ## The lines of a range (R85) -/

theorem mem_linesOf {va n l : Nat} : l ∈ linesOf va n ↔ 0 < n ∧ l % 128 = 0 ∧ va / 128 * 128 ≤ l ∧ l ≤ va + n - 1 := by
  by_cases empty : n = 0
  · simp [linesOf, empty]
  · rw [linesOf, if_neg empty, List.mem_map]
    constructor
    · rintro ⟨i, hi, rfl⟩
      rw [List.mem_range] at hi
      exact ⟨Nat.pos_of_ne_zero empty, Nat.mul_mod_left .., by omega, by omega⟩
    · rintro ⟨-, aligned, low, high⟩
      exact ⟨l / 128 - va / 128, List.mem_range.2 (by omega), by omega⟩

/-- Maintenance that meets no refusal does each line in its turn. -/
theorem maintainAll_ok {t u : State} {c : Ctx} {kind : Nat} {ls : List Nat} (made : maintainAll t c kind ls = (u, .ok ())) :
    u = ls.foldl (fun t l => (maintainAt t c kind l).1) t := by
  induction ls generalizing t with
  | nil => exact (congrArg Prod.fst made).symm
  | cons l ls ih =>
    rw [maintainAll] at made
    split at made
    next v line => rw [List.foldl_cons, line]; exact ih made
    next x failed => exact absurd made (failed u)

theorem performOp_maintain {t u : State} {c : Ctx} {kind va n : Nat} {old : W64} (made : performOp t c va (.maintain kind n) 0 = (u, .ok old)) :
    u = (linesOf va n).foldl (fun t l => (maintainAt t c kind l).1) t := by
  unfold performOp at made
  dsimp only at made
  split at made
  · simp at made
  next v all =>
    obtain ⟨same, -⟩ := Prod.mk.inj made
    exact maintainAll_ok (same ▸ all)

/-! ## The words (R85) -/

section
variable {s u : State} {h : Hdr} {regs : FMap (List W64)} {tokens : FMap Nat} {i : Instr} {a b : Reg} {ka kb : Bool} {x y : W64} {level kind : Nat}

theorem rangeBad_here {va n : Nat} (here : isHere va = true) (data : isMgmt va = false) (size : n ≤ 2 ^ 32)
    (far : n = 0 ∨ (isHere ((va + n - 1) % 2 ^ 64) = true ∧ isMgmt ((va + n - 1) % 2 ^ 64) = false)) : rangeBad va n = false := by
  obtain rfl | ⟨hereEnd, dataEnd⟩ := far
  · simp [rangeBad, here, data]
  · simp only [rangeBad, here, data, hereEnd, dataEnd, Nat.not_lt.2 size]; simp

/-- An operation that names no bytes of its own writes none outside its world. -/
theorem escapes_nothing (t : State) (c : Ctx) (va : Nat) : escapes t c va 0 = false := by simp [escapes, Machine.piecesOf, pieces]

theorem maintainWord_empty (hi : Issues s h { reads := [rd s a ka, rd s b kb], level := level } [x, y] regs tokens) (legal : rangeBad x.toNat y.toNat = false)
    (none : y = 0) : maintainWord s i h a b ka kb level kind = onward s h false 1 (noted s h regs tokens i) := by
  subst none
  unfold maintainWord accessWord
  refine issueWord_next hi _ _ ?_
  simp only [← noted_eq, List.getD_cons_zero, List.getD_cons_succ, legal]
  rfl

/-- Maintenance of a range that holds a byte is made at once where nothing is outstanding. -/
theorem maintainWord_made (hi : Issues s h { reads := [rd s a ka, rd s b kb], level := level } [x, y] regs tokens) (settled : Settled s)
    (legal : rangeBad x.toNat y.toNat = false) (here : isHere x.toNat = true) (data : isMgmt x.toNat = false) (some : y ≠ 0) {old : W64}
    (made : performOp (noted s h regs tokens i) (ctxOf s s.cur .control) x.toNat (.maintain kind y.toNat) 0 = (u, .ok old)) :
    maintainWord s i h a b ka kb level kind = onward s h false 1 (retestRings u) := by
  have sent := makeWrite_noted (acc := 6) (reg := none) settled here data (escapes_nothing _ _ _) made
  have unqueued := settled_queue (settled_noted (h := h) (regs := regs) (tokens := tokens) (i := i) settled) x.toNat (.maintain kind y.toNat) 0 6 none 0
  have bytes : y.toNat ≠ 0 := fun zero => some (BitVec.eq_of_toNat_eq zero)
  unfold maintainWord accessWord
  refine issueWord_next hi _ _ ?_
  simp only [← noted_eq, List.getD_cons_zero, List.getD_cons_succ, legal, if_neg bytes, unqueued, sent, Bool.false_eq_true, if_false]

end

/-! ## A line of which one sector is cached (R85) -/

/-- Each sector of a line is written back, or discarded, or both. -/
theorem maintainLine_single {s : State} {pa : Nat} {e : Sector} (only : s.die = [(pa / 32, e)]) :
    (maintainLine s 0 pa).die = [(pa / 32, { e with dirty := false })] ∧ (maintainLine s 1 pa).die = [] ∧ (maintainLine s 2 pa).die = [] ∧
      (maintainLine s 1 pa).mem = s.mem ∧
      (e.dirty = true → (maintainLine s 0 pa).mem = memPutAll s.mem (32 * (pa / 32)) e.bytes ∧
        (maintainLine s 2 pa).mem = memPutAll s.mem (32 * (pa / 32)) e.bytes) := by
  obtain ⟨bytes, dirty⟩ := e
  have place : pa / 32 = pa / 128 * 4 ∨ pa / 32 = pa / 128 * 4 + 1 ∨ pa / 32 = pa / 128 * 4 + 2 ∨ pa / 32 = pa / 128 * 4 + 3 := by omega
  generalize pa / 32 = k at *
  obtain rfl | rfl | rfl | rfl := place <;> cases dirty <;>
    simp [maintainLine, List.range_succ, writeBack, dropSector, only, fget, fput, fdel]

/-! ## The read-only copies of a line (R85, R357) -/

/-- The keys of a sparse array differ from one another. -/
def Distinct {α : Type} (m : FMap α) : Prop := m.Pairwise fun a b => a.1 ≠ b.1

theorem fget_absent {α : Type} {m : FMap α} {k : Nat} (absent : ∀ e ∈ m, k ≠ e.1) : fget m k = none := by
  induction m with
  | nil => rfl
  | cons e r ih => rw [fget, if_neg (absent e List.mem_cons_self), ih fun e' he => absent e' (List.mem_cons_of_mem e he)]

theorem distinct_fdel {α : Type} {m : FMap α} (distinct : Distinct m) (k : Nat) : Distinct (fdel m k) := by
  induction m with
  | nil => exact distinct
  | cons e r ih =>
    obtain ⟨first, rest⟩ := List.pairwise_cons.mp distinct
    rw [fdel]
    split
    · exact rest
    · exact List.pairwise_cons.mpr ⟨fun e' he => first e' (mem_fdel he), ih rest⟩

theorem distinct_fget_fdel {α : Type} {m : FMap α} (distinct : Distinct m) (k j : Nat) : fget (fdel m k) j = if j = k then none else fget m j := by
  induction m with
  | nil => simp [fdel, fget]
  | cons e r ih =>
    obtain ⟨first, rest⟩ := List.pairwise_cons.mp distinct
    obtain ⟨k', v⟩ := e
    by_cases found : k = k'
    · subst found
      rw [fdel, if_pos rfl, fget]
      split
      next same => rw [same]; exact fget_absent first
      next other => rfl
    · rw [fdel, if_neg found, fget, fget, ih rest]
      split <;> split <;> simp_all

theorem distinct_foldl_fdel {α : Type} {m : FMap α} (distinct : Distinct m) (ks : List Nat) : Distinct (ks.foldl fdel m) := by
  induction ks generalizing m with
  | nil => exact distinct
  | cons k ks ih => exact ih (distinct_fdel distinct k)

theorem fget_foldl_fdel {α : Type} {m : FMap α} (distinct : Distinct m) (ks : List Nat) (j : Nat) :
    fget (ks.foldl fdel m) j = if j ∈ ks then none else fget m j := by
  induction ks generalizing m with
  | nil => simp
  | cons k ks ih =>
    rw [List.foldl_cons, ih (distinct_fdel distinct k), distinct_fget_fdel distinct]
    by_cases own : j = k <;> simp [own]

/-- The keys of a line's copies in a core's read-only path, for the views given. -/
def roKeys (views : List Nat) (asid line : Nat) : List Nat := views.flatMap fun v => (List.range 4).map fun i => roKey v asid (line * 4 + i)

theorem mem_roKeys {views : List Nat} {asid line k : Nat} : k ∈ roKeys views asid line ↔ ∃ v ∈ views, ∃ i < 4, k = roKey v asid (line * 4 + i) := by
  simp [roKeys, eq_comm]

theorem roDrop_eq (s : State) (c asid q off : Nat) (views : List Nat) :
    roDrop s c asid q off views = modCore s c fun x => { x with roCopies := (roKeys views asid ((q * 2 ^ 46 + off) / 128)).foldl fdel x.roCopies } := by
  have split {α : Type} (m : FMap α) : views.foldl (fun m v => (List.range 4).foldl (fun m i => fdel m (roKey v asid ((q * 2 ^ 46 + off) / 128 * 4 + i))) m) m =
      (roKeys views asid ((q * 2 ^ 46 + off) / 128)).foldl fdel m := by
    rw [roKeys, List.foldl_flatMap]; simp only [List.foldl_map]
  simp only [roDrop]
  exact congrArg (modCore s c) (funext fun x => by rw [split])

theorem noteLeaf_cores (s : State) (q asid off : Nat) : (noteLeaf s q asid off).cores = s.cores := by
  obtain ⟨d, e, f, g, a, b, c, m, r, same⟩ := noteLeaf_same s q asid off; rw [same]

theorem noteLeaf_views (s : State) (q asid off : Nat) : (noteLeaf s q asid off).views = s.views := by
  obtain ⟨d, e, f, g, a, b, c, m, r, same⟩ := noteLeaf_same s q asid off; rw [same]

theorem viewChain_of {s t : State} (same : t.views = s.views) (f v : Nat) : viewChain t f v = viewChain s f v := by
  induction f generalizing v with
  | zero => rfl
  | succ f ih => simp only [viewChain, same, ih]

section
variable {t : State} {c : Ctx} {kind va q o pte place : Nat}

/-- Maintenance of a line of base memory that the agent reads without a world of its own. -/
theorem maintainAt_root (here : locOf va = .here q o) (memory : spotOf t q o = .memory) (leaf : leafAt t q c.asid o = some (pte, place))
    (plain : nbit pte 8 = false) (below : kind < 3) (root : c.view = 0) :
    (maintainAt t c kind va).1 = maintainVirt (noteLeaf t q c.asid o) kind c.asid q o (leafPa pte o) := by
  simp [maintainAt, here, memory, leaf, plain, root, Nat.ne_of_lt below]

theorem maintainAt_readOnly (here : locOf va = .here q o) (memory : spotOf t q o = .memory) (leaf : leafAt t q c.asid o = some (pte, place))
    (plain : nbit pte 8 = false) :
    (maintainAt t c 3 va).1 = roDrop (noteLeaf t q c.asid o) (coreOf c.part) c.asid q o (viewChain t 5 c.view ++ [0]) := by
  simp only [maintainAt, here, memory, leaf, plain, Bool.false_eq_true, if_false, if_true, viewChain_of (noteLeaf_views t q c.asid o)]

end

/-- A read-only invalidation discards exactly the copies of its line, in one core. -/
theorem roDrop_copies {s : State} {c asid q off : Nat} {views : List Nat} (distinct : Distinct (core s c).roCopies) (k : Nat) :
    fget (core (roDrop s c asid q off views) c).roCopies k =
      if k ∈ roKeys views asid ((q * 2 ^ 46 + off) / 128) then none else fget (core s c).roCopies k := by
  rw [roDrop_eq, core_modCore]; exact fget_foldl_fdel distinct _ k

theorem roDrop_bytes (s : State) (c asid q off : Nat) (views : List Nat) : SameBytes s (roDrop s c asid q off views) := fun _ => rfl

/-- Settles O29: the words make their operation at once (`maintainWord_made`), the operation does each line in its turn (`performOp_maintain`), and a line
is written back or discarded sector by sector. -/
theorem maintenanceActsOnItsLines : Obligations.MaintenanceActsOnItsLines := by
  intro s h regs tokens a b ka kb x y settled here data size far acts
  have legal : rangeBad x.toNat y.toNat = false := rangeBad_here here data size far
  have words {kind level : Nat} {i : Instr} (run : exec i s = .next (maintainWord s i h a b ka kb level kind))
      (hi : Issues s h { reads := [rd s a ka, rd s b kb], level := level } [x, y] regs tokens) : acts kind i :=
    ⟨fun none => run.trans (congrArg _ (maintainWord_empty hi legal none)),
      fun some u old made => run.trans (congrArg _ (maintainWord_made hi settled legal here data some made))⟩
  refine ⟨fun hi => ⟨words rfl hi, words rfl hi, words rfl hi⟩, fun hi => words rfl hi, fun pa e only => maintainLine_single only,
    fun t u c kind va n old made => performOp_maintain made, fun va n l => mem_linesOf, ?_, fun t kind asid q o pa noReplicas noLines => ?_⟩
  · intro t c kind va q o pte place hva memory leaf plain u
    refine ⟨fun below root => maintainAt_root hva memory leaf plain below root, fun readOnly distinct => ?_⟩
    subst readOnly
    have made : u = _ := maintainAt_readOnly hva memory leaf plain
    have before (d : Nat) : core (noteLeaf t q c.asid o) d = core t d := by simp only [core, noteLeaf_cores]
    have copies (k : Nat) := roDrop_copies (s := noteLeaf t q c.asid o) (asid := c.asid) (q := q) (off := o) (views := viewChain t 5 c.view ++ [0])
      (before (coreOf c.part) ▸ distinct) k
    have chain (v : Nat) : v ∈ viewChain t 5 c.view ++ [0] ↔ v ∈ 0 :: viewChain t 5 c.view := by
      rw [List.mem_append, List.mem_singleton, List.mem_cons, or_comm]
    refine ⟨fun v hv i hi => ?_, fun k other => ?_, fun d other => ?_, fun a => ?_⟩
    · rw [made, copies, if_pos (mem_roKeys.2 ⟨v, (chain v).2 hv, i, hi, rfl⟩)]
    · rw [made, copies, if_neg, before]
      rintro mem
      obtain ⟨v, hv, i, hi, same⟩ := mem_roKeys.1 mem
      exact other v ((chain v).1 hv) i hi same
    · rw [made, roDrop_eq, core_modCore_other _ _ other, before]
    · rw [made]; exact (roDrop_bytes _ _ _ _ _ _ a).trans (noteLeaf_bytes t q c.asid o a)
  · have plain : maintainVirt t kind asid q o pa = if kind = 0 then maintainLine t kind pa else
        { maintainLine t kind pa with tags := (maintainVirt t kind asid q o pa).tags } := by
      simp only [maintainVirt, noReplicas, noLines]
      split <;> rfl
    rw [plain]
    split <;> rfl

end Sys2Proof.Machine.Proofs
end

section
/-! PROOFS. Prefetches and circular buffers (R85, R100, R101). -/

namespace Sys2Proof.Machine.Proofs

open Sys2Proof Sys2Proof.Machine Sys2Proof.Machine.Safety Sys2Proof.Machine.Laws

/-! ## What a read of a line leaves in the caches (R76) -/

theorem useVirt_die (s : State) (key pa hint : Nat) : (useVirt s key pa hint).die = s.die := by
  simp only [useVirt]; repeat' split
  all_goals rfl

theorem useMsc_die (s : State) (pa hint : Nat) : (useMsc s pa hint).die = s.die := by
  simp only [useMsc]; repeat' split
  all_goals rfl

theorem useVirt_readable (s : State) (key pa hint : Nat) : KeepsReadable s (useVirt s key pa hint) :=
  keepsReadable_of (by simp only [useVirt]; repeat' split
                       all_goals rfl) (useVirt_die s key pa hint)

theorem useVirt_bytes (s : State) (key pa hint : Nat) : SameBytes s (useVirt s key pa hint) := fun a => by
  simp only [cohByte, useVirt_die, useVirt_mem]

section
variable (s : State) (levels : List Nat) (asid line pa hint view : Nat)

theorem useLevels_readable : KeepsReadable s (useLevels s levels asid line pa hint view) := by
  have filled : KeepsReadable s (if 3 ≤ hint then s else fillSector s pa) := by
    split
    · exact ⟨rfl, fun _ h => h⟩
    · exact fillSector_readable s pa
  exact filled.trans ((foldl_readable (fun s l => useVirt_readable s _ pa hint) levels _).trans (useMsc_readable _ pa hint))

theorem useLevels_bytes : SameBytes s (useLevels s levels asid line pa hint view) := by
  have filled : SameBytes s (if 3 ≤ hint then s else fillSector s pa) := by
    split
    · exact fun _ => rfl
    · exact fillSector_bytes s pa
  exact filled.trans ((foldl_bytes (fun s l => useVirt_bytes s _ pa hint) levels _).trans (useMsc_bytes _ pa hint))

/-- A read that allocates leaves its sector in the caches where that can be read. -/
theorem useLevels_present {s pa hint} (allocates : hint < 3) (readable : unreadable s pa = false) :
    (fget (useLevels s levels asid line pa hint view).die (pa / 32)).isSome = true := by
  have filled : (fget (fillSector s pa).die (pa / 32)).isSome = true := by
    unfold fillSector
    by_cases held : (fget s.die (pa / 32)).isSome = true
    · rw [if_pos (.inl held)]; exact held
    · rw [if_neg (by simp [held, readable])]; simp
  rw [useLevels, if_neg (Nat.not_le.2 allocates)]
  exact ((foldl_readable (fun s l => useVirt_readable s _ pa hint) levels _).trans (useMsc_readable _ pa hint)).2 _ filled

end

/-! ## Prefetches (R85) -/

/-- One sector of a line that a prefetch brings in. -/
def prefetchSector (levels : List Nat) (p line pa hint : Nat) (s : State) (i : Nat) : State :=
  if unreadable s (pa + 32 * i) then s else useLevels s levels (part s p).asid line (pa + 32 * i) hint

section
variable (levels : List Nat) (p line pa hint : Nat)

theorem prefetchSector_same (s : State) (i : Nat) : SameButRead s (prefetchSector levels p line pa hint s i) := by
  unfold prefetchSector; split
  · exact SameButRead.rfl s
  · exact useLevels_same ..

theorem prefetchSector_mem (s : State) (i : Nat) : (prefetchSector levels p line pa hint s i).mem = s.mem := by
  unfold prefetchSector; split
  · rfl
  · exact useLevels_mem ..

theorem prefetchSector_readable (s : State) (i : Nat) : KeepsReadable s (prefetchSector levels p line pa hint s i) := by
  unfold prefetchSector; split
  · exact ⟨rfl, fun _ h => h⟩
  · exact useLevels_readable ..

theorem prefetchSector_bytes (s : State) (i : Nat) : SameBytes s (prefetchSector levels p line pa hint s i) := by
  unfold prefetchSector; split
  · exact fun _ => rfl
  · exact useLevels_bytes _ _ _ _ _ _ _

/-- Each readable sector of the line is cached once its turn has come, and stays. -/
theorem prefetchSectors_present {hint} (allocates : hint < 3) {is : List Nat} {s : State} {i : Nat} (listed : i ∈ is)
    (readable : unreadable s (pa + 32 * i) = false) :
    (fget (is.foldl (prefetchSector levels p line pa hint) s).die ((pa + 32 * i) / 32)).isSome = true := by
  induction is generalizing s with
  | nil => simp at listed
  | cons j is ih =>
    rw [List.foldl_cons]
    obtain rfl | later := List.mem_cons.1 listed
    · refine (foldl_readable (prefetchSector_readable levels p line pa hint) is _).2 _ ?_
      rw [prefetchSector, if_neg (by simp [readable])]
      exact useLevels_present levels _ line 0 allocates readable
    · exact ih later (readable_of (prefetchSector_readable levels p line pa hint s j) readable)

end

theorem prefetch_untested {t : State} (untested : slicesTested t = []) (p va hint : Nat) : prefetch t p va hint = prefetchLine t p va hint := by
  simp [prefetch, waitsHome_untested untested]

/-- A prefetch of a mapped line translates it and brings its sectors in one by one. -/
theorem prefetchLine_mapped {t : State} {p va hint q o pte place : Nat} (here : locOf va = .here q o) (memory : spotOf t q o = .memory)
    (leaf : leafAt t q (part t p).asid o = some (pte, place)) :
    prefetchLine t p va hint = [0, 1, 2, 3].foldl (prefetchSector [1 + q] p (lineOf q o) (leafPa pte (o / 128 * 128)) (hintOf pte hint))
      (noteLeaf t q (part t p).asid o) := by
  simp only [prefetchLine, here, memory, leaf]
  rfl

/-- What is not a mapped place of base memory is not prefetched. -/
theorem prefetchLine_cases (t : State) (p va hint : Nat) : prefetchLine t p va hint = t ∨
    ∃ q o pte place, locOf va = .here q o ∧ spotOf t q o = .memory ∧ leafAt t q (part t p).asid o = some (pte, place) := by
  unfold prefetchLine
  split
  next q o here =>
    split
    next pte place memory leaf => exact .inr ⟨q, o, pte, place, here, memory, leaf⟩
    next => exact .inl rfl
  next => exact .inl rfl

/-- What a prefetch can leave: what caches, the error queue and the management registers hold, and every byte and sector as readable as before. -/
theorem prefetchLine_keeps (t : State) (p va hint : Nat) : SameButRead t (prefetchLine t p va hint) ∧ (prefetchLine t p va hint).mem = t.mem ∧
    KeepsReadable t (prefetchLine t p va hint) ∧ SameBytes t (prefetchLine t p va hint) := by
  obtain idle | ⟨q, o, pte, place, here, memory, leaf⟩ := prefetchLine_cases t p va hint
  · rw [idle]; exact ⟨SameButRead.rfl t, rfl, ⟨rfl, fun _ h => h⟩, fun _ => rfl⟩
  · rw [prefetchLine_mapped here memory leaf]
    exact ⟨(noteLeaf_same ..).trans (foldl_same (prefetchSector_same _ _ _ _ _) _ _),
      (foldl_mem (prefetchSector_mem _ _ _ _ _) _ _).trans (noteLeaf_mem ..),
      (noteLeaf_readable ..).trans (foldl_readable (prefetchSector_readable _ _ _ _ _) _ _),
      SameBytes.trans (noteLeaf_bytes _ _ _ _) (foldl_bytes (prefetchSector_bytes _ _ _ _ _) _ _)⟩

section
variable {s : State} {h : Hdr} {regs : FMap (List W64)} {tokens : FMap Nat}

theorem exec_pf {hint : BitVec 2} {a : Reg} {ka : Bool} {x : W64} (hi : Issues s h { reads := [rd s a ka] } [x] regs tokens) (here : isHere x.toNat = true)
    (data : isMgmt x.toNat = false) : exec (.pf h hint a ka) s =
      .next (onward s h false 1 (if hint = 3 then issued s h regs tokens else prefetch (issued s h regs tokens) s.cur x.toNat hint.toNat)) := by
  have near : isReserved x.toNat = false := by
    unfold isHere at here; unfold isReserved
    split at here <;> simp_all
  refine congrArg Host.Outcome.next (issueWord_next hi _ _ ?_)
  simp only [List.getD_cons_zero, near, data, Bool.false_eq_true, or_self, if_false, issued_cur]

/-! ## Circular buffers (R101) -/

theorem circ_issued (n : Nat) : circ (issued s h regs tokens) s.cur n = fgetD (part s s.cur).circs n {} := by
  simp [circ]

theorem exec_cbacq_empty {d : Reg} {n : Fin 16} (hi : Issues s h { dst := dstOf s d } [] regs tokens) (none : (fgetD (part s s.cur).circs n {}).filled = 0) :
    exec (.cbacq h d n) s = .next (holdWord (countIgnored s h) s.cur h.stop) := by
  refine congrArg Host.Outcome.next (issueWord_hold hi _ _ ?_)
  simp only [issued_cur, circ_issued, none, if_true]

theorem exec_cbacq_filled {d : Reg} {n : Fin 16} {c : Circ} (hi : Issues s h { dst := dstOf s d } [] regs tokens) (own : fgetD (part s s.cur).circs n {} = c)
    (some : c.filled ≠ 0) : exec (.cbacq h d n) s = .next (onward s h false 1 (fly (setCirc (issued s h regs tokens) s.cur n
      { c with filled := c.filled - 1, held := c.held + 1, head := (c.head + 1) % c.slots }) d (.ready (w64 (c.base + c.head * c.size))))) := by
  refine congrArg Host.Outcome.next (issueWord_next hi _ _ ?_)
  simp only [issued_cur, circ_issued, own, if_neg some]

theorem exec_cbrel_none {n : Fin 16} (hi : Issues s h {} [] regs tokens) (none : (fgetD (part s s.cur).circs n {}).held = 0) :
    exec (.cbrel h n) s = .next (trapAt (countIgnored s h) s.cur (.cbrel h n) 0 0x02 0 0) := by
  refine congrArg Host.Outcome.next (issueWord_trap hi _ _ ?_)
  simp only [issued_cur, circ_issued, none, if_true]

theorem exec_cbrel_held {n : Fin 16} {c : Circ} (hi : Issues s h {} [] regs tokens) (own : fgetD (part s s.cur).circs n {} = c) (some : c.held ≠ 0) :
    exec (.cbrel h n) s = .next (onward s h false 1 (setCirc (issued s h regs tokens) s.cur n { c with held := c.held - 1, free := c.free + 1 })) := by
  refine congrArg Host.Outcome.next (issueWord_next hi _ _ ?_)
  simp only [issued_cur, circ_issued, own, if_neg some]

end

/-- Settles O30: a prefetch changes only what a read may (`prefetchLine_keeps`) and brings in each readable sector (`prefetchSectors_present`); a word of a
circular buffer moves one slot. -/
theorem prefetchAndCircularBuffers : Obligations.PrefetchAndCircularBuffers := by
  intro s h regs tokens hint a d ka n x
  refine ⟨exec_pf, ?_, fun hi => ⟨exec_cbacq_empty hi, exec_cbacq_filled hi rfl⟩, fun hi => ⟨exec_cbrel_none hi, exec_cbrel_held hi rfl⟩⟩
  intro t p va hint untested u
  have line : u = prefetchLine t p va hint := prefetch_untested untested p va hint
  obtain ⟨same, mem, readable, bytes⟩ := prefetchLine_keeps t p va hint
  rw [line]
  refine ⟨?_, bytes, fun q o pte place i here memory leaf allocates hi unread => ?_⟩
  · obtain ⟨b, f, d, g, e, q, l, n, m, same⟩ := same
    have failing := readable.1
    rw [same] at mem failing ⊢
    subst mem failing
    rfl
  · rw [prefetchLine_mapped here memory leaf]
    have listed : i ∈ [0, 1, 2, 3] := by simp only [List.mem_cons]; omega
    exact prefetchSectors_present _ _ _ _ allocates listed (readable_of (noteLeaf_readable t q _ o) unread)

end Sys2Proof.Machine.Proofs
end

section
/-! PROOFS. What leaves for the fabric puts no access into a stream's queues: streams stay still behind a post (R73, R102 to R104). -/

namespace Sys2Proof.Machine.Proofs

open Sys2Proof Sys2Proof.Machine Sys2Proof.Machine.Safety Sys2Proof.Machine.Laws

/-! ## Still streams -/

/-- A control stream none of whose loads, posts and writes wait. -/
def Still (x : Part) : Prop := x.stores = [] ∧ ∀ f ∈ x.flights, pendingLoad f = none

/-- Every stream that is still stays so. -/
def KeepsStill (s t : State) : Prop := ∀ p, Still (part s p) → Still (part t p)

namespace KeepsStill

theorem rfl (s : State) : KeepsStill s s := fun _ h => h

theorem trans {s t u : State} (h : KeepsStill s t) (k : KeepsStill t u) : KeepsStill s u := fun p q => k p (h p q)

theorem of_parts {s t : State} (same : t.parts = s.parts) : KeepsStill s t := fun p still => part_of_parts same p ▸ still

/-- Behind a step that touches no partition. -/
theorem after {s t u : State} (h : KeepsStill t u) (same : t.parts = s.parts) : KeepsStill s u := (of_parts same).trans h

theorem of_read {s t : State} (same : SameButRead s t) : KeepsStill s t := by
  obtain ⟨b, f, d, g, e, q, l, n, m, same⟩ := same
  exact of_parts (by rw [same])

theorem fst {α : Type} {s t : State} {a : α} {x : State × α} (h : KeepsStill s x.1) (made : x = (t, a)) : KeepsStill s t := by rw [made] at h; exact h

theorem foldl {α : Type} {f : State → α → State} (keeps : ∀ s a, KeepsStill s (f s a)) (l : List α) (s : State) : KeepsStill s (l.foldl f s) := by
  induction l generalizing s with
  | nil => exact rfl s
  | cons a l ih => exact (keeps s a).trans (ih _)

theorem modPart (s : State) (p : Nat) {f : Part → Part} (keeps : ∀ x, Still x → Still (f x)) : KeepsStill s (modPart s p f) := by
  intro q still
  by_cases own : q = p
  · subst own; rw [part_modPart]; exact keeps _ still
  · rw [part_modPart_other _ _ own]; exact still

end KeepsStill

/-- A change of a partition that leaves its accesses alone. -/
theorem still_of {x y : Part} (stores : y.stores = x.stores) (flights : y.flights = x.flights) (still : Still x) : Still y := by
  obtain ⟨none, idle⟩ := still
  exact ⟨stores.trans none, by rw [flights]; exact idle⟩

theorem mem_replaceFirst {α : Type} {p : α → Bool} {g : α → α} {l : List α} {a : α} (h : a ∈ replaceFirst p g l) : a ∈ l ∨ ∃ b ∈ l, a = g b := by
  induction l with
  | nil => simp [replaceFirst] at h
  | cons c l ih =>
    rw [replaceFirst] at h
    split at h
    · obtain same | later := List.mem_cons.1 h
      · exact .inr ⟨c, List.mem_cons_self, same⟩
      · exact .inl (List.mem_cons_of_mem c later)
    · obtain same | later := List.mem_cons.1 h
      · exact .inl (same ▸ List.mem_cons_self)
      · obtain own | ⟨b, hb, same⟩ := ih later
        · exact .inl (List.mem_cons_of_mem c own)
        · exact .inr ⟨b, List.mem_cons_of_mem c hb, same⟩

/-! ## State operations that touch no partition -/

section
open KeepsStill

variable (s : State)

theorem mset_still (q off : Nat) (v : W64) : KeepsStill s (mset s q off v) := of_parts rfl

theorem modQuarter_still (q : Nat) (f : Quarter → Quarter) : KeepsStill s (modQuarter s q f) := of_parts rfl

theorem modJob_still (addr : Nat) (f : Job → Job) : KeepsStill s (modJob s addr f) := of_parts rfl

theorem mbump_still (q off w : Nat) : KeepsStill s (mbump s q off w) := of_read (mbump_same s q off w)

theorem raiseFault_still (f : FaultRec) : KeepsStill s (raiseFault s f) := of_parts rfl

theorem appendError_still (u v k : Nat) (a d : W64) : KeepsStill s (appendError s u v k a d) := of_read (appendError_same s u v k a d)

theorem putSector_still (pa : Nat) (bs : List Byte) (hint : Nat) : KeepsStill s (putSector s pa bs hint) := of_read (putSector_same s pa bs hint)

theorem keepBehind_still (pa : Nat) : KeepsStill s (keepBehind s pa) := of_read (keepBehind_same s pa)

theorem physPut_still (pa : Nat) (bs : List Byte) : KeepsStill s (physPut s pa bs) := of_read (physPut_same s pa bs)

theorem captureItem_still (job kind n : Nat) (workid : W64) (view ord addr val : Nat) (data : List Byte) :
    KeepsStill s (captureItem s job kind n workid view ord addr val data) := by
  unfold captureItem
  split
  · exact KeepsStill.rfl s
  · dsimp only
    repeat' split
    · exact KeepsStill.rfl s
    · exact KeepsStill.rfl s
    · exact of_parts rfl
    · exact (physPut_still s _ _).trans (mset_still _ _ _ _)

theorem sendPacket_still (agent dst : Nat) (b : Payload) : KeepsStill s (sendPacket s agent dst b) := of_parts rfl

theorem recordLost_still (addr dst : Nat) : KeepsStill s (recordLost s addr dst) := (mbump_still s _ _ _).trans (appendError_still _ _ _ _ _ _)

theorem arrivalFails_still (agent va acc kind : Nat) : KeepsStill s (arrivalFails s agent va acc kind) :=
  (recordLost_still s _ _).trans (raiseFault_still _ _)

theorem captureArrival_still (asid kind va n val : Nat) (bs : List Byte) : KeepsStill s (captureArrival s asid kind va n val bs) :=
  foldl (fun s _ => captureItem_still s _ _ _ _ _ _ _ _ _) _ s

theorem captureWrite_still (asid va : Nat) (bs : List Byte) : KeepsStill s (captureWrite s asid va bs) :=
  foldl (fun s _ => captureArrival_still s _ _ _ _ _ _) _ s

theorem readNum_still (c : Ctx) (va n hint : Nat) : KeepsStill s (readNum s c va n hint).1 := by
  rw [readNum_state]; exact of_parts (readVa_parts s c va n hint)

theorem testDep_still (addr d : Nat) : KeepsStill s (testDep s addr d) := by
  unfold testDep
  split
  · exact KeepsStill.rfl s
  next j found =>
    split
    · exact KeepsStill.rfl s
    · dsimp only
      split
      · exact of_parts rfl
      · have read : KeepsStill s (if depBar j.card d = 0 then (s, Except.ok (depPhase j.card d)) else
            readNum s (queueCtx (nfld addr 46 2) j.asid) (depBar j.card d + 16) 4 0).1 := by
          split
          · exact KeepsStill.rfl s
          · exact readNum_still s _ _ _ _
        split
        next u e made => exact (read.fst made).trans (of_parts rfl)
        next u v made =>
          refine (read.fst made).trans ?_
          split <;> split <;> exact of_parts rfl

theorem dependTest_still (asid va : Nat) : KeepsStill s (dependTest s asid va) :=
  foldl (fun s _ => foldl (fun s _ => testDep_still s _ _) _ s) _ s

theorem testJob_still (j : Job) : KeepsStill s (testJob s j) := (testDep_still s _ _).trans (testDep_still _ _ _)

/-! ## Writes and what they wake (R60, R75) -/

theorem releaseLine_still (line : Nat) : KeepsStill s (releaseLine s line) := by
  unfold releaseLine
  split
  · exact KeepsStill.rfl s
  · refine foldl (fun s i => ?_) _ s
    unfold dropSector writeBack
    repeat' split
    all_goals exact of_parts rfl

theorem dropBehind_still (asid q off pte : Nat) : KeepsStill s (dropBehind s asid q off pte) := by
  unfold dropBehind
  dsimp only
  refine foldl (fun s _ => ?_) _ s
  exact after (releaseLine_still _ _) (Eq.refl _)

theorem mendSector_still (pte pa : Nat) : KeepsStill s (mendSector s pte pa) := by
  unfold mendSector; split
  · exact of_parts rfl
  · exact KeepsStill.rfl s

theorem writeBase_still (c : Ctx) (q off pte : Nat) (bs : List Byte) (hint : Nat) : KeepsStill s (writeBase s c q off pte bs hint) := by
  have replicas (l : List Replica) (s : State) := foldl (fun s (r : Replica) => (mendSector_still s pte (r.place + leafPa pte off % 128)).trans
    ((keepBehind_still _ (r.place + leafPa pte off % 128)).trans (putSector_still _ (r.place + leafPa pte off % 128) bs 3))) l s
  exact (mendSector_still s _ _).trans ((dropBehind_still _ _ _ _ _).trans ((replicas _ _).trans
    ((keepBehind_still _ _).trans ((putSector_still _ _ _ _).trans (of_read (useLevels_same _ _ _ _ _ _ _))))))

theorem copyLine_still (c : Ctx) (q off pte : Nat) : KeepsStill s (copyLine s c q off pte).1 := by
  unfold copyLine
  generalize List.range 4 = l
  suffices keeps : ∀ (l : List Nat) (x : State × Except MemErr (List Byte)), KeepsStill s x.1 → KeepsStill s (l.foldl _ x).1 from keeps l _ (KeepsStill.rfl s)
  intro l
  induction l with
  | nil => exact fun x h => h
  | cons i l ih =>
    intro x h
    refine ih _ ?_
    obtain ⟨t, e | b⟩ := x
    · exact h
    · dsimp only
      have read : KeepsStill t (match overlayFind t c.view (lineOf q off) with
        | some (u, l) => readOverlay t { c with home := some q } u l q (off / 128 * 128 + 32 * i) pte 32 3
        | none => readBase t { c with home := some q } q (off / 128 * 128 + 32 * i) pte 32 3).1 := by
        split
        · exact of_read (readOverlay_same _ _ _ _ _ _ _ _ _)
        · exact of_read (readBase_same _ _ _ _ _ _ _)
      split
      next made => exact h.trans (read.fst made)
      next made => exact h.trans (read.fst made)

theorem linePut_still (c : Ctx) (q off pte : Nat) (l : OverlayLine) (bs : List Byte) (hint : Nat) : KeepsStill s (linePut s c q off pte l bs hint) := by
  unfold linePut; split
  · exact KeepsStill.rfl s
  · exact (mendSector_still s _ _).trans ((putSector_still _ _ _ _).trans (of_read (useLevels_same _ _ _ _ _ _ _)))

theorem overlayWrite_still (c : Ctx) (q off pte va : Nat) (bs : List Byte) (hint : Nat) : KeepsStill s (overlayWrite s c q off pte va bs hint).1 := by
  unfold overlayWrite
  split
  · exact KeepsStill.rfl s
  · dsimp only
    split
    · exact (linePut_still s _ _ _ _ _ _ _).trans (of_parts rfl)
    · split
      · exact KeepsStill.rfl s
      · split
        · exact KeepsStill.rfl s
        · split
          next made => exact (copyLine_still s _ _ _ _).fst made
          next made =>
            exact ((copyLine_still s _ _ _ _).fst made).trans ((of_parts rfl : KeepsStill _ (poolFill _ _ _)).trans ((linePut_still _ _ _ _ _ _ _ _).trans (of_parts rfl)))

theorem fget_map_values {α β : Type} (g : α → β) (m : FMap α) (k : Nat) : fget (m.map fun e => (e.1, g e.2)) k = (fget m k).map g := by
  induction m with
  | nil => rfl
  | cons e m ih =>
    obtain ⟨k', v⟩ := e
    rw [List.map_cons, fget, fget, ih]
    split <;> rfl

theorem unpick_still (addr : Nat) : KeepsStill s (unpick s addr) := by
  intro p still
  unfold part fgetD at still ⊢
  unfold unpick
  rw [fget_map_values (fun x : Part => if x.picking.map (·.1) = some addr then { x with picking := none } else x)]
  cases listed : fget s.parts p with
  | none => rw [listed] at still; exact still
  | some x =>
    rw [listed] at still
    rw [Option.map_some, Option.getD_some]
    split
    · exact still_of rfl rfl still
    · exact still

theorem recordReady_still (q addr : Nat) : KeepsStill s (recordReady s q addr) := by
  unfold recordReady
  split
  · split
    · exact (unpick_still s addr).trans (of_parts rfl)
    · split
      · exact KeepsStill.rfl s
      · dsimp only
        split <;> exact of_parts rfl
  · exact KeepsStill.rfl s

theorem fireMonitor_still (m : Monitor) : KeepsStill s (fireMonitor s m) := by
  unfold fireMonitor
  dsimp only
  split
  · exact after (KeepsStill.modPart _ _ fun x => still_of rfl rfl) (Eq.refl _)
  · exact after (foldl (fun s q => recordReady_still s q _) _ _) (Eq.refl _)
  · exact of_parts rfl

theorem fireLine_still (pa : Nat) : KeepsStill s (fireLine s pa) := foldl (fun s m => fireMonitor_still s m) _ s

theorem writePiece_still (c : Ctx) (va : Nat) (bs : List Byte) (hint : Nat) (first : Bool) : KeepsStill s (writePiece s c va bs hint first).1 := by
  unfold writePiece
  split
  next q off here =>
    have leaf := of_read (noteLeaf_same s q c.asid off)
    split
    · split
      · exact leaf
      next pte may =>
        dsimp only
        split
        · split
          next made => exact leaf.trans (((overlayWrite_still _ _ _ _ _ _ _ _).fst made).trans (fireLine_still _ _))
          next other => exact leaf.trans (overlayWrite_still _ _ _ _ _ _ _ _)
        · exact leaf.trans ((writeBase_still _ _ _ _ _ _ _).trans (fireLine_still _ _))
    · dsimp only
      split
      · exact mbump_still s _ _ _
      · exact KeepsStill.rfl s
    · exact KeepsStill.rfl s
    · exact KeepsStill.rfl s
  · exact KeepsStill.rfl s

theorem writePieces_still (c : Ctx) (bs : List Byte) (hint va0 : Nat) (ps : List (Nat × Nat)) : KeepsStill s (writePieces s c bs hint va0 ps).1 := by
  induction ps generalizing s with
  | nil => exact KeepsStill.rfl s
  | cons x ps ih =>
    unfold writePieces
    split
    next made => exact (writePiece_still s _ _ _ _ _).fst made
    next t made => exact ((writePiece_still s _ _ _ _ _).fst made).trans (ih t)

theorem writeVa_still (c : Ctx) (va : Nat) (bs : List Byte) (hint : Nat) : KeepsStill s (writeVa s c va bs hint).1 := writePieces_still s c bs hint va _

theorem readHome_still (c : Ctx) (va n hint : Nat) : KeepsStill s (readHome s c va n hint).1 := by
  unfold readHome
  split
  · split
    · split
      · exact of_read (noteLeaf_same _ _ _ _)
      · split
        · exact of_read ((noteLeaf_same _ _ _ _).trans (readOverlay_same _ _ _ _ _ _ _ _ _))
        · exact of_read ((noteLeaf_same _ _ _ _).trans (readBase_same _ _ _ _ _ _ _))
    · exact KeepsStill.rfl s
    · exact KeepsStill.rfl s
  · exact KeepsStill.rfl s

theorem atHome_still (c : Ctx) (va n : Nat) (f : List Byte → Option (List Byte)) : KeepsStill s (atHome s c va n f).1 := by
  unfold atHome
  split
  · exact KeepsStill.rfl s
  · split
    next made => exact (readHome_still s _ _ _ _).fst made
    next t old made =>
      have read := (readHome_still s _ _ _ _).fst made
      split
      · split
        next made => exact read.trans ((writeVa_still _ _ _ _ _).fst made)
        next made => exact read.trans ((writeVa_still _ _ _ _ _).fst made)
      · split
        · exact read
        · split
          · split
            · split
              next made => exact read.trans ((overlayWrite_still _ _ _ _ _ _ _ _).fst made)
              next made => exact read.trans ((overlayWrite_still _ _ _ _ _ _ _ _).fst made)
            · exact read
          · exact read

theorem barrierAdd_still (c : Ctx) (va n hint : Nat) : KeepsStill s (performOp s c va (.barrierAdd n) hint).1 := by
  unfold performOp
  dsimp only
  split
  next made => exact (atHome_still s _ _ _ _).fst made
  next made =>
    refine ((atHome_still s _ _ _ _).fst made).trans ?_
    dsimp only
    split
    · exact dependTest_still _ _ _
    · exact KeepsStill.rfl _

/-! ## Answers and acknowledgements (R82, R254) -/

theorem pend_still (p : Nat) (t : PendingTrap) : KeepsStill s (pend s p t) := by
  refine KeepsStill.modPart s p fun x still => ?_
  split
  · exact still
  · exact still_of rfl rfl still

theorem postReady_still (p : Nat) : KeepsStill s (postReady s p) := by
  rcases postReady_cases s p with idle | ⟨m, l, posted⟩
  · rw [idle]; exact KeepsStill.rfl s
  · rw [posted]; exact KeepsStill.modPart s p fun _ => still_of rfl rfl

theorem answerFlight_still (p seq : Nat) (v : W64) : KeepsStill s (answerFlight s p seq v) := by
  refine KeepsStill.modPart s p fun x ⟨empty, idle⟩ => ⟨empty, fun f hf => ?_⟩
  obtain own | ⟨g, -, changed⟩ := mem_replaceFirst hf
  · exact idle f own
  · subst changed; rfl

theorem cancelFlight_still (p seq : Nat) : KeepsStill s (cancelFlight s p seq) :=
  KeepsStill.modPart s p fun _ ⟨empty, idle⟩ => ⟨empty, fun f hf => idle f (List.mem_of_mem_filter hf)⟩

theorem lateFail_still (p seq cause va : Nat) : KeepsStill s (lateFail s p seq cause va) :=
  (cancelFlight_still s p seq).trans ((pend_still _ p _).trans (postReady_still _ p))

theorem landAnswer_still (p seq : Nat) (v : W64) : KeepsStill s (landAnswer s p seq v) := by
  unfold landAnswer
  dsimp only
  split
  · exact (captureItem_still s _ _ _ _ _ _ _ _ _).trans (answerFlight_still _ p seq v)
  · exact answerFlight_still s p seq v

theorem parentDue_still (parent : Nat) : KeepsStill s (parentDue s parent) := by
  unfold parentDue
  split
  · split
    · exact after (recordReady_still _ _ _) (Eq.refl _)
    · exact KeepsStill.rfl s
  · exact KeepsStill.rfl s

theorem releaseAnswered_still (parent sq : Nat) (fail : Option Nat) (job : Nat) : KeepsStill s (releaseAnswered s parent sq fail job) := by
  unfold releaseAnswered
  cases fail with
  | none => exact after (parentDue_still _ _) (Eq.refl _)
  | some st => exact ((mbump_still s _ _ _).trans (appendError_still _ _ _ _ _ _)).trans (after (parentDue_still _ _) (Eq.refl _))

theorem modQueue_still (p k : Nat) (f : CmdQueue → CmdQueue) : KeepsStill s (modQueue s p k f) := KeepsStill.modPart s p fun _ => still_of rfl rfl

theorem modCore_still (c : Nat) (f : Core → Core) : KeepsStill s (modCore s c f) := of_parts rfl

theorem dropAnswer_still (p seq : Nat) : KeepsStill s (modPart s p fun x => { x with answers := fdel x.answers seq }) :=
  KeepsStill.modPart s p fun _ => still_of rfl rfl

theorem dropWatch_still (p sq : Nat) :
    KeepsStill s (modPart s p fun x => if x.monitor = .armedRemote sq then { x with monitor := .off } else x) :=
  KeepsStill.modPart s p fun x still => by
    split
    · exact still_of rfl rfl still
    · exact still

theorem ackArrives_still (sq : Nat) (lost : Bool) : KeepsStill s (ackArrives s sq lost) := by
  unfold ackArrives
  split
  · split
    · exact KeepsStill.rfl s
    · split
      · exact modCore_still s _ _
      · exact KeepsStill.rfl s
  next a found =>
    dsimp only
    generalize taken : ({ s with awaits := dropFirst (fun a => a.seq == sq) s.awaits } : State) = t
    have kept : KeepsStill s t := of_parts (by rw [← taken])
    refine kept.trans ?_
    split
    · split
      · exact KeepsStill.rfl t
      · exact (modQueue_still t _ _ _).trans (modCore_still _ _ _)
    · exact releaseAnswered_still t _ _ _ _
    · exact postReady_still t _
    · split
      · exact (dropAnswer_still t _ _).trans (landAnswer_still _ _ _ _)
      · exact KeepsStill.rfl t
    · exact KeepsStill.rfl t

theorem answerArrives_still (sq : Nat) (lost : Bool) (v : W64) : KeepsStill s (answerArrives s sq lost v) := by
  unfold answerArrives
  split
  · exact KeepsStill.rfl s
  next a found =>
    dsimp only
    generalize taken : ({ s with awaits := dropFirst (fun a => a.seq == sq) s.awaits } : State) = t
    have kept : KeepsStill s t := of_parts (by rw [← taken])
    refine kept.trans ?_
    split
    next p seq kind own =>
      split
      · exact landAnswer_still t _ _ _
      · split
        · exact (dropWatch_still t p sq).trans (lateFail_still _ _ _ _ _)
        · refine KeepsStill.trans ?_ ((dropAnswer_still _ p sq).trans (landAnswer_still _ _ _ _))
          split
          · exact KeepsStill.modPart t p fun x => still_of rfl rfl
          · exact KeepsStill.rfl t
    next p own =>
      refine KeepsStill.modPart t p fun x still => ?_
      split
      · exact still_of rfl rfl still
      · exact still
    · exact releaseAnswered_still t _ _ _ _
    · exact KeepsStill.rfl t

theorem lostAck_still (src sq : Nat) : KeepsStill s (lostAck s src sq) := by
  unfold lostAck; split
  · exact ackArrives_still s sq true
  · exact sendPacket_still s _ _ _

theorem dropPacket_still (k : Packet) : KeepsStill s (dropPacket s k) := by
  unfold dropPacket
  extract_lets lost own
  have counted : KeepsStill s lost := recordLost_still s _ _
  refine counted.trans ?_
  clear_value lost
  have answered (b : Payload) : KeepsStill lost (if own then answerArrives lost k.seq true 0 else sendPacket lost 0x3002 k.src b) := by
    split
    · exact answerArrives_still _ _ _ _
    · exact sendPacket_still _ _ _ _
  split
  iterate 6 exact lostAck_still _ _ _
  · split
    · exact lostAck_still _ _ _
    · exact KeepsStill.rfl _
  iterate 5 exact answered _
  · exact KeepsStill.rfl _

theorem answerTo_still (src tag : Nat) (v : W64) : KeepsStill s (answerTo s src tag v) := by
  unfold answerTo
  split
  · split
    · exact after (releaseAnswered_still _ _ _ _ _) (Eq.refl _)
    · exact after (landAnswer_still _ _ _ _) (Eq.refl _)
    · split
      · exact landAnswer_still s _ _ _
      · exact KeepsStill.rfl s
  · split
    · exact KeepsStill.rfl s
    · exact sendPacket_still s _ _ _

/-! ## Request rings and records (R103, R318) -/

theorem appendRecord_still (q n src : Nat) (bs : List Byte) : KeepsStill s (appendRecord s q n src bs).1 := by
  unfold appendRecord
  extract_lets cfg grant c r log
  have logged (s : State) (va : Nat) (b : List Byte) : KeepsStill s (log s va b) := by
    show KeepsStill s (if _ then _ else _)
    split
    · exact KeepsStill.rfl s
    · exact captureWrite_still s _ _ _
  clear_value grant log r c cfg
  -- The kernel must not run the reads and writes, so they stand under names of their own.
  obtain ⟨read, reads⟩ : ∃ f, f = readNum := ⟨_, Eq.refl _⟩
  obtain ⟨write, writes⟩ : ∃ f, f = writeVa := ⟨_, Eq.refl _⟩
  rw [← reads, ← writes]
  replace reads := fun t c va n hint => reads ▸ readNum_still t c va n hint
  replace writes := fun t c va bs hint => writes ▸ writeVa_still t c va bs hint
  split
  · exact KeepsStill.rfl s
  · split
    next made => exact (reads s _ _ _ _).fst made
    next t tail made =>
      have tailRead := (reads s _ _ _ _).fst made
      split
      next made => exact tailRead.trans ((reads t _ _ _ _).fst made)
      next u head made =>
        have headRead := tailRead.trans ((reads t _ _ _ _).fst made)
        split
        · exact headRead
        · split
          next made => exact headRead.trans ((writes u _ _ _ _).fst made)
          next v made =>
            have placed := headRead.trans ((writes u _ _ _ _).fst made)
            split
            next made => exact placed.trans ((writes v _ _ _ _).fst made)
            next w made => exact (placed.trans ((writes v _ _ _ _).fst made)).trans ((logged w _ _).trans (logged _ _ _))

theorem retestQuarter_still (q : Nat) : KeepsStill s (retestQuarter s q) := by
  refine foldl (fun s h => ?_) _ s
  split
  · split
    · exact KeepsStill.rfl s
    · split
      next made => exact (appendRecord_still s _ _ _ _).fst made
      next made => exact ((appendRecord_still s _ _ _ _).fst made).trans (after (answerTo_still _ _ _ _) (Eq.refl _))
      next made => exact ((appendRecord_still s _ _ _ _).fst made).trans (after (answerTo_still _ _ _ _) (Eq.refl _))
  · exact KeepsStill.rfl s

theorem retestRings_still : KeepsStill s (retestRings s) := by
  refine foldl (fun s q => ?_) _ s
  split
  · exact KeepsStill.rfl s
  · exact retestQuarter_still s q

theorem recordArrives_still (src tag va : Nat) (bs : List Byte) : KeepsStill s (recordArrives s src tag va bs) := by
  unfold recordArrives
  split
  · split
    · split
      · exact modQuarter_still s _ _
      · split
        next made => exact ((appendRecord_still s _ _ _ _).fst made).trans (answerTo_still _ _ _ _)
        next made => exact ((appendRecord_still s _ _ _ _).fst made).trans (answerTo_still _ _ _ _)
        next made => exact ((appendRecord_still s _ _ _ _).fst made).trans (modQuarter_still _ _ _)
    · exact answerTo_still s _ _ _
  · exact KeepsStill.rfl s

theorem recordOut_still (c : Ctx) (kind : AwaitKind) (va : Nat) (bs : List Byte) (word : Nat) : KeepsStill s (recordOut s c kind va bs word) := by
  unfold recordOut
  dsimp only
  split
  · exact after (sendPacket_still _ _ _ _) (Eq.refl _)
  · exact after (recordArrives_still _ _ _ _ _) (Eq.refl _)

/-! ## Multicast blocks (R102, R320) -/

theorem deliverCast_still (src agent sq va bar : Nat) (bs : List Byte) : KeepsStill s (deliverCast s src agent sq va bar bs) := by
  unfold deliverCast
  extract_lets key c b ok away n placed kept counted added
  have h1 : KeepsStill s placed := by
    show KeepsStill s (if _ then _ else _)
    split
    · exact KeepsStill.rfl s
    · exact writeVa_still s _ _ _ _
  have h2 : KeepsStill placed kept := by
    refine KeepsStill.trans ?_ (retestRings_still _)
    split
    · exact captureWrite_still _ _ _ _
    · exact KeepsStill.rfl _
  have h3 : KeepsStill kept added := by
    show KeepsStill kept (if _ then _ else if _ then _ else _)
    split
    · exact KeepsStill.rfl kept
    · split
      · exact (barrierAdd_still kept _ _ _ _).trans (captureArrival_still _ _ _ _ _ _ _)
      · exact barrierAdd_still kept _ _ _ _
  have made := h1.trans (h2.trans h3)
  clear_value added ok
  split
  · exact lostAck_still s _ _
  · split
    · exact (arrivalFails_still s _ _ _ _).trans (lostAck_still _ _ _)
    · exact lostAck_still s _ _
    · refine made.trans ?_
      split
      · exact ackArrives_still _ _ _
      · exact sendPacket_still _ _ _ _

theorem castHere_still (src agent : Nat) (nums : List (Nat × Nat)) (va bar : Nat) (bs : List Byte) : KeepsStill s (castHere s src agent nums va bar bs) := by
  unfold castHere
  dsimp only
  split
  · exact deliverCast_still s _ _ _ _ _ _
  · unfold inOrder
    dsimp only
    split
    · exact KeepsStill.rfl s
    · exact after (deliverCast_still _ _ _ _ _ _ _) (Eq.refl _)

theorem castOn_still (port : Nat) (k : Packet) : KeepsStill s (castOn s port k) := of_parts rfl

theorem castFinal_still (k : Packet) (nums : List (Nat × Nat)) (members va bar : Nat) (bs : List Byte) :
    KeepsStill s (castFinal s k nums members va bar bs) := by
  refine foldl (fun s m => ?_) _ s
  dsimp only
  split
  · exact castOn_still s _ _
  · exact dropPacket_still s _

theorem multicastAt_still (src agent : Nat) (nums : List (Nat × Nat)) (stage : Nat) (groups : List Nat) (members va bar : Nat) (bs : List Byte) :
    KeepsStill s (multicastAt s src agent nums stage groups members va bar bs) := by
  unfold multicastAt
  extract_lets k here ports others port dropped sent
  have own (s : State) : KeepsStill s (here s) := by
    show KeepsStill s (if _ then _ else _)
    split
    · exact castHere_still s _ _ _ _ _ _
    · exact KeepsStill.rfl s
  have h1 : KeepsStill s dropped :=
    foldl (fun s g => (recordLost_still s _ _).trans (foldl (fun s d => lostAck_still s _ _) _ _)) _ s
  have h2 : KeepsStill dropped sent := by
    refine foldl (fun s p => ?_) _ dropped
    extract_lets gs
    split
    · exact KeepsStill.rfl s
    · exact castOn_still s _ _
  clear_value here sent dropped
  split
  · exact KeepsStill.rfl s
  · split
    · exact castHere_still s _ _ _ _ _ _
    · split
      · exact (own s).trans (castFinal_still _ _ _ _ _ _ _)
      · refine h1.trans (h2.trans ?_)
        split
        · exact (own sent).trans (castFinal_still _ _ _ _ _ _ _)
        · exact KeepsStill.rfl sent

theorem noteAwait_still (c : Ctx) (kind : AwaitKind) (seq word va : Nat) : KeepsStill s (noteAwait s c kind seq word va) := of_parts rfl

theorem countPacket_still (agent dst : Nat) : KeepsStill s (countPacket s agent dst) := of_parts rfl

theorem castOut_still (c : Ctx) (kind : AwaitKind) (va bar : Nat) (route groups : W64) (bs : List Byte) (word : Nat) :
    KeepsStill s (castOut s c kind va bar route groups bs word) := by
  unfold castOut
  extract_lets parts note sent
  have noted : KeepsStill s sent := foldl (fun s i => foldl (fun s n => (noteAwait_still s _ _ _ _ _).trans (countPacket_still _ _ _)) _ s) _ s
  clear_value sent
  generalize counted : ({ sent with nextSeq := s.nextSeq + parts.length } : State) = t
  have same : KeepsStill sent t := of_parts (by rw [← counted])
  refine noted.trans (same.trans (foldl (fun s x => ?_) _ _))
  exact multicastAt_still s _ _ _ _ _ _ _ _ _

/-! ## Launch packets and the jobs they start (R104, R203) -/

theorem writeNow_still (q asid va : Nat) (bs : List Byte) (what job n : Nat) : KeepsStill s (writeNow s q asid va bs what job n) := by
  unfold writeNow
  split
  next made => exact (writeVa_still s _ _ _ _).fst made
  next made =>
    refine ((writeVa_still s _ _ _ _).fst made).trans ?_
    split
    · exact mbump_still _ _ _ _
    · split
      · exact raiseFault_still _ _
      · exact KeepsStill.rfl _

theorem homeWrite_still (q asid va : Nat) (bs : List Byte) (what job n : Nat) : KeepsStill s (homeWrite s q asid va bs what job n) := by
  unfold homeWrite
  split
  · exact of_parts rfl
  · exact writeNow_still s _ _ _ _ _ _ _

theorem replyWrite_still (q n asid job reply o : Nat) (bs : List Byte) : KeepsStill s (replyWrite s q n asid job reply o bs) := by
  unfold replyWrite
  split
  · exact KeepsStill.rfl s
  · split
    · exact of_parts rfl
    · exact KeepsStill.rfl s
    · exact sendPacket_still s _ _ _
    · exact homeWrite_still s _ _ _ _ _ _ _

theorem completionAdd_still (j : Job) : KeepsStill s (completionAdd s j).1 := by
  unfold completionAdd
  extract_lets done q
  split
  · exact KeepsStill.rfl s
  · split
    · exact sendPacket_still s _ _ _
    · split
      next made => exact (barrierAdd_still s _ _ _ _).fst made
      next made => exact ((barrierAdd_still s _ _ _ _).fst made).trans (raiseFault_still _ _)
      next made => exact (barrierAdd_still s _ _ _ _).fst made
    · exact KeepsStill.rfl s

theorem freeJob_still (addr : Nat) : KeepsStill s (freeJob s addr) := of_parts rfl

theorem finalStatus_still (j : Job) (st : Nat) : KeepsStill s (finalStatus s j st) :=
  (replyWrite_still s _ _ _ _ _ _ _).trans (captureItem_still _ _ _ _ _ _ _ _ _ _)

theorem finishJob_still (j : Job) : KeepsStill s (finishJob s j) := by
  unfold finishJob
  split
  · exact modJob_still s _ _
  · extract_lets told
    have toldStill : KeepsStill s told := by
      show KeepsStill s (if _ then _ else _)
      split
      · exact KeepsStill.rfl s
      · exact finalStatus_still s j _
    clear_value told
    split
    next made => exact toldStill.trans (((completionAdd_still told j).fst made).trans (freeJob_still _ _))
    next made => exact toldStill.trans (((completionAdd_still told j).fst made).trans (modJob_still _ _ _))

theorem noteDivergence_still (j : Job) (addr ord : Nat) : KeepsStill s (noteDivergence s j addr ord) :=
  (mset_still s _ _ _).trans (appendError_still _ _ _ _ _ _)

theorem closeJob_still (j : Job) : KeepsStill s (closeJob s j) := by
  unfold closeJob
  split
  · exact (noteDivergence_still s j 0 0).trans (finishJob_still _ _)
  · exact finishJob_still s j

theorem answerLaunch_still (q n src tag pk status job : Nat) : KeepsStill s (answerLaunch s q n src tag pk status job) :=
  (replyWrite_still s _ _ _ _ _ _ _).trans (answerTo_still _ _ _ _)

theorem replayArrivals_still (job k : Nat) : KeepsStill s (replayArrivals job k s) := by
  induction k generalizing s with
  | zero => exact KeepsStill.rfl s
  | succ k ih =>
    unfold replayArrivals
    split
    · exact KeepsStill.rfl s
    · extract_lets q a h kind va span arrived pos
      have arrives : KeepsStill s arrived := by
        show KeepsStill s (if _ then _ else if _ then _ else _)
        split
        · exact writeVa_still s _ _ _ _
        · split
          · exact barrierAdd_still s _ _ _ _
          · exact KeepsStill.rfl s
      clear_value arrived kind span
      split
      · exact KeepsStill.rfl s
      · split
        · exact KeepsStill.rfl s
        · exact arrives.trans (((modJob_still arrived _ _).trans (mset_still _ _ _ _)).trans (ih _))

theorem replayDue_still (job : Nat) : KeepsStill s (replayDue s job) := by
  unfold replayDue
  split
  · exact replayArrivals_still s _ _
  · exact KeepsStill.rfl s

theorem acceptPacket_still (q n src tag pk addr : Nat) : KeepsStill s (acceptPacket s q n src tag pk addr) := by
  unfold acceptPacket
  extract_lets cfg card j listed written answered replayed
  have accepted : KeepsStill s replayed := (modQuarter_still s _ _).trans ((homeWrite_still _ _ _ _ _ _ _ _).trans
    ((answerLaunch_still _ _ _ _ _ _ _ _).trans ((captureItem_still _ _ _ _ _ _ _ _ _ _).trans (replayDue_still _ _))))
  clear_value replayed
  refine accepted.trans ?_
  split
  · exact testJob_still _ _
  · split
    · exact closeJob_still _ _
    · exact KeepsStill.rfl _

theorem takePacket_still (q n src tag : Nat) (bs : List Byte) (place : Nat) : KeepsStill s (takePacket s q n src tag bs place) := by
  unfold takePacket
  extract_lets pk cfg card svc denied
  clear_value denied card pk
  split
  · exact answerLaunch_still s _ _ _ _ _ _ _
  · split
    · exact answerLaunch_still s _ _ _ _ _ _ _
    · split
      · exact answerLaunch_still s _ _ _ _ _ _ _
      · split
        · exact acceptPacket_still s _ _ _ _ _ _
        · exact modQuarter_still s _ _

theorem packetAt_still (va src tag : Nat) (bs : List Byte) : KeepsStill s (packetAt s va src tag bs) := by
  unfold packetAt
  split
  · split
    · split
      · unfold windowTakes
        split
        · exact modQuarter_still s _ _
        · exact takePacket_still s _ _ _ _ _ _
      · exact mbump_still s _ _ _
    · split
      · exact mbump_still s _ _ _
      · exact answerTo_still s _ _ _
    · exact answerTo_still s _ _ _
  · exact KeepsStill.rfl s

theorem launchOut_still (c : Ctx) (kind : AwaitKind) (va : Nat) (bs : List Byte) (word : Nat) : KeepsStill s (launchOut s c kind va bs word) := by
  unfold launchOut
  extract_lets noted
  split
  · exact (noteAwait_still s _ _ _ _ _).trans (sendPacket_still _ _ _ _)
  · exact after (packetAt_still _ _ _ _ _) (Eq.refl _)

end

end Sys2Proof.Machine.Proofs
end

section
/-! PROOFS. Posts to the fabric (R73, R102 to R104). -/

namespace Sys2Proof.Machine.Proofs

open Sys2Proof Sys2Proof.Machine Sys2Proof.Machine.Safety Sys2Proof.Machine.Laws

/-! ## The one post of a stream that waits for nothing (R73) -/

/-- The issuing word's post, as it stands in the store queue. -/
def postOf (t : State) (i : OutItem) (src len : Nat) : StoreWait :=
  { ctx := ctxOf t t.cur .control, seq := wordSeq t, gate := (part t t.cur).mark, rel := 0, item := .post i src len 0 }

/-- The state in which the post is the only entry of its store queue. -/
def posted (t : State) (i : OutItem) (src len : Nat) : State := modPart t t.cur fun x => { x with stores := [postOf t i src len] }

section
variable {t : State} {i : OutItem} {src len : Nat}

theorem part_posted : part (posted t i src len) t.cur = { part t t.cur with stores := [postOf t i src len] } := part_modPart ..

theorem queuePost_posted (settled : Settled t) : queuePost t i src len = retryStream (posted t i src len) t.cur := by
  unfold queuePost posted
  rw [modPart_congr (s := t) (p := t.cur) (g := fun x => { x with stores := [postOf t i src len] })]
  rw [settled.posts]; rfl

theorem flights_posted : (part (posted t i src len) t.cur).flights = (part t t.cur).flights := by rw [part_posted]

theorem stores_posted : (part (posted t i src len) t.cur).stores = [postOf t i src len] := by rw [part_posted]

/-- A post waits for no access of an earlier word, where none is outstanding, and a mark orders only words before it. -/
theorem postWaits_posted (settled : Settled t) (mark : (part t t.cur).mark / 4 ≤ wordSeq t) :
    postWaits (posted t i src len) (postOf t i src len) i src len = false := by
  have loads (f) (hf : f ∈ (part t t.cur).flights) : pendingLoad f = none := settled.loads f hf
  have noPending (n : Nat) : (part t t.cur).flights.any (fun f => decide (f.seq < n) && (pendingLoad f).isSome) = false := by
    rw [List.any_eq_false]; intro f hf; rw [loads f hf]; simp
  have noAcquire (n : Nat) : acquireHolds (posted t i src len) t.cur n = false := by
    unfold acquireHolds
    rw [flights_posted, show (posted t i src len).awaits = [] from settled.acks, List.any_nil, Bool.or_false, List.any_eq_false]
    intro f hf; rw [loads f hf]; simp
  have core : core (posted t i src len) (coreOf t.cur) = core t (coreOf t.cur) := rfl
  have noLog (n : Nat) : logBefore (posted t i src len) t.cur n = false := by
    have := settled_log settled n
    unfold logBefore at this ⊢; rw [core]; exact this
  have noAck (n k : Nat) : acksBefore (posted t i src len) t.cur n k = false := by
    unfold acksBefore; rw [show (posted t i src len).awaits = [] from settled.acks]; rfl
  have noHr (n : Nat) : hrBefore (posted t i src len) t.cur n = false := settled_hr settled n
  have noWrite (n va k : Nat) : writeAhead (posted t i src len) t.cur n va k = false := by
    unfold writeAhead
    rw [noHr, show (posted t i src len).awaits = [] from settled.acks, stores_posted, core]
    simp [postOf, settled.logs]
  have own : decide ((postOf t i src len).seq < (part t t.cur).mark / 4) = false := decide_eq_false (Nat.not_lt.2 mark)
  have noMark : markHolds (posted t i src len) t.cur (part t t.cur).mark = false := by
    unfold markHolds unperformed writesUnperformed loadsBefore storesBefore
    rw [flights_posted, stores_posted, noLog, noAck, noHr, noPending]
    simp [own]
  have homes : slicesTested (posted t i src len) = [] := settled.homes
  have part : (postOf t i src len).ctx.part = t.cur := rfl
  have gate : (postOf t i src len).gate = (Machine.part t t.cur).mark := rfl
  unfold postWaits
  simp only [part, gate, noMark, noAcquire, noWrite, noLog, noHr, noAck, waitsHome_untested homes, castWaits_untested homes, flights_posted, noPending]
  cases i <;> simp

/-- A post that waits for nothing leaves with the bytes that it reads; its stream has nothing under way then. -/
theorem queuePost_sends {u : State} {bs : List Byte} (settled : Settled t) (mark : (part t t.cur).mark / 4 ≤ wordSeq t)
    (read : readVa (posted t i src len) (ctxOf t t.cur .control) src len 0 = (u, .ok bs))
    (sends : ∀ v, KeepsStill v (sendPost v (postOf t i src len) i bs)) :
    queuePost t i src len = postReady (sendPost (dropStore u t.cur (wordSeq t)) (postOf t i src len) i bs) t.cur := by
  have after : u.parts = (posted t i src len).parts := by
    have same := readVa_parts (posted t i src len) (ctxOf t t.cur .control) src len 0
    rw [read] at same; exact same
  have loads (f) (hf : f ∈ (part (posted t i src len) t.cur).flights) : pendingLoad f = none := settled.loads f (flights_posted ▸ hf)
  have still : Still (part (dropStore u t.cur (wordSeq t)) t.cur) := by
    rw [dropStore, part_modPart, part_of_parts after]
    refine ⟨?_, loads⟩
    rw [stores_posted]; simp [postOf]
  obtain ⟨stores, flights⟩ := ((sends _).trans (postReady_still _ t.cur)) t.cur still
  have none : (part (posted t i src len) t.cur).flights.findSome? (fun f => (pendingLoad f).map fun r => (f, r)) = none :=
    List.findSome?_eq_none_iff.2 fun f hf => by rw [loads f hf]; rfl
  have tried : tryStore (posted t i src len) (postOf t i src len) =
      (postReady (sendPost (dropStore u t.cur (wordSeq t)) (postOf t i src len) i bs) t.cur, true) := by
    show tryPost (posted t i src len) (postOf t i src len) i src len 0 = _
    unfold tryPost
    rw [if_neg (by rw [postWaits_posted settled mark]; simp), show (postOf t i src len).ctx = ctxOf t t.cur .control from rfl, read]
    rfl
  have length : (part (posted t i src len) t.cur).flights.length + (part (posted t i src len) t.cur).stores.length =
      (part t t.cur).flights.length + 1 := by rw [flights_posted, stores_posted]; rfl
  rw [queuePost_posted settled, retryStream, length, retryAccesses, tryFirstLoad, none]
  simp only [stores_posted, tried]
  exact retryAccesses_idle flights stores _

end

/-! ## The words (R102 to R104) -/

section
variable {s u : State} {h : Hdr} {regs : FMap (List W64)} {tokens : FMap Nat} {i : Instr} {d : Reg} {item : OutItem} {src len : Nat} {bs : List Byte}

theorem wordSeq_noted : wordSeq (noted s h regs tokens i) = s.nextSeq := by
  rw [← issued_wordSeq s h regs tokens]; rfl

theorem mark_noted : (part (noted s h regs tokens i) s.cur).mark = (part s s.cur).mark := by
  obtain ⟨w, same⟩ := part_noted (s := s) (h := h) (regs := regs) (tokens := tokens) (i := i)
  rw [same]; simp

/-- The state in which an access word has put a late answer in flight (R45, R103). -/
def answering (t : State) (d : Reg) : State := bumpOrdinal (fly0 t d .answer) t.cur

theorem answering_cur (t : State) (d : Reg) : (answering t d).cur = t.cur := rfl

theorem wordSeq_answering (t : State) (d : Reg) : wordSeq (answering t d) = wordSeq t := rfl

theorem part_answering (t : State) (d : Reg) : ∃ r, part (answering t d) t.cur =
    { part t t.cur with resident := r, flights := (part t t.cur).flights ++ [{ seq := wordSeq t, reg := dstOf t d, val := .answer }] } := by
  refine ⟨(part t t.cur).resident.map fun r => { r with ordinal := r.ordinal + 1 }, ?_⟩
  simp [answering, bumpOrdinal, fly0]

theorem ctxOf_answering (t : State) (d : Reg) (a : Agent) : ctxOf (answering t d) t.cur a = ctxOf t t.cur a := by
  cases resident : (part t t.cur).resident <;> simp [ctxOf, viewOf, jobOf, answering, bumpOrdinal, fly0, resident]

theorem settled_answering {t : State} (settled : Settled t) (d : Reg) : Settled (answering t d) := by
  obtain ⟨loads, stores, logs, acks, pools, homes⟩ := settled
  obtain ⟨r, same⟩ := part_answering t d
  refine ⟨?_, ?_, logs, acks, pools, homes⟩ <;> rw [answering_cur, same]
  · intro f hf
    obtain own | new := List.mem_append.1 hf
    · exact loads f own
    · rw [List.mem_singleton.1 new]; rfl
  · exact stores

theorem mark_answering (t : State) (d : Reg) : (part (answering t d) t.cur).mark = (part t t.cur).mark := by
  obtain ⟨r, same⟩ := part_answering t d
  rw [same]

/-- A post of base memory without a status of its own (R73). -/
theorem postOp_plain {t : State} (base : viewOf t t.cur = 0) (dest : Nat) : postOp t item src len none dest = .next (queuePost t item src len) := by
  simp [postOp, base]

/-- A post of base memory whose status comes later (R103). -/
theorem postOp_status {t : State} (base : viewOf t t.cur = 0) (unrecorded : Unrecorded t) (d : Reg) (dest : Nat) :
    postOp t item src len (some d) dest = .next (queuePost (answering t d) item src len) := by
  simp [postOp, base, observedLater_unrecorded unrecorded, answering]

/-- The post of a word, in the terms of the state before the word. -/
def wordPost (s : State) (item : OutItem) (src len : Nat) : StoreWait :=
  { ctx := ctxOf s s.cur .control, seq := s.nextSeq, gate := (part s s.cur).mark, rel := 0, item := .post item src len 0 }

theorem postOf_noted : postOf (noted s h regs tokens i) item src len = wordPost s item src len := by
  simp only [postOf, wordPost, noted_cur, ctxOf_noted, wordSeq_noted, mark_noted]

theorem postOf_answering (t : State) (d : Reg) : postOf (answering t d) item src len = postOf t item src len := by
  simp only [postOf, answering_cur, wordSeq_answering, ctxOf_answering, mark_answering]

theorem sendPost_base {v : State} {w : StoreWait} (base : w.ctx.view = 0) : sendPost v w item bs = match item with
    | .fmst va bar route groups _ => castOut v w.ctx .ack va bar route groups bs w.seq
    | .rqpost va _ => recordOut v w.ctx (.value w.ctx.part w.seq 2) va bs w.seq
    | .lpost va _ => launchOut v w.ctx (.value w.ctx.part w.seq 2) va (List.replicate 32 0 ++ bs) w.seq
    | _ => v := by
  simp only [sendPost, base, ne_eq, not_true_eq_false, if_false] <;> cases item <;> rfl

theorem sendPost_still {v : State} {w : StoreWait} (base : w.ctx.view = 0) : KeepsStill v (sendPost v w item bs) := by
  rw [sendPost_base base]
  split
  · exact castOut_still v _ _ _ _ _ _ _ _
  · exact recordOut_still v _ _ _ _ _
  · exact launchOut_still v _ _ _ _ _
  · exact KeepsStill.rfl v

end

section
variable {s u t : State} {item : OutItem} {src len : Nat} {bs : List Byte}

/-- A post of a word, from the state in which it joins the queue, in the terms of the state before the word. -/
theorem queuePost_word (base : BaseView s) (settled : Settled t) (cur : t.cur = s.cur) (seq : wordSeq t = s.nextSeq)
    (post : postOf t item src len = wordPost s item src len) (mark : (part s s.cur).mark / 4 ≤ s.nextSeq)
    (read : readVa (modPart t s.cur fun x => { x with stores := [wordPost s item src len] }) (ctxOf s s.cur .control) src len 0 = (u, .ok bs)) :
    queuePost t item src len = postReady (sendPost (dropStore u s.cur s.nextSeq) (wordPost s item src len) item bs) s.cur := by
  have ctx : ctxOf t t.cur .control = ctxOf s s.cur .control := congrArg StoreWait.ctx post
  have gate : (part t t.cur).mark = (part s s.cur).mark := congrArg StoreWait.gate post
  have sent := queuePost_sends (i := item) (src := src) (len := len) (u := u) (bs := bs) settled (by rw [gate, seq]; exact mark)
    (by rw [posted, cur, post, ← cur, ctx, cur]; exact read) (fun v => by rw [post]; exact sendPost_still base)
  rwa [post, seq, cur] at sent

end

/-- Settles O31: the one post of a stream with nothing outstanding leaves at once (`queuePost_sends`). -/
theorem fabricPostsLeave : Obligations.FabricPostsLeave := by
  intro s h regs tokens l d a b ka kb x0 x1 x2 x3 x4 win src base settled unrecorded mark waits gone
  have view0 {item : OutItem} {src len : Nat} : (wordPost s item src len).ctx.view = 0 := base
  have view (i : Instr) : viewOf (noted s h regs tokens i) (noted s h regs tokens i).cur = 0 := by rw [noted_cur, viewOf_noted]; exact base
  have plain {i : Instr} {item : OutItem} {src len : Nat} {u : State} {bs : List Byte}
      (read : readVa (waits (noted s h regs tokens i) item src len) (ctxOf s s.cur .control) src len 0 = (u, .ok bs)) (dest : Nat) :
      postOp (noted s h regs tokens i) item src len none dest = .next (postReady (sendPost (gone u) (wordPost s item src len) item bs) s.cur) := by
    rw [postOp_plain (view i), queuePost_word base (settled_noted settled) noted_cur wordSeq_noted postOf_noted mark read]; rfl
  have status {i : Instr} {item : OutItem} {src len : Nat} {u : State} {bs : List Byte}
      (read : readVa (waits (bumpOrdinal (fly0 (noted s h regs tokens i) d .answer) s.cur) item src len) (ctxOf s s.cur .control) src len 0 = (u, .ok bs))
      (dest : Nat) :
      postOp (noted s h regs tokens i) item src len (some d) dest = .next (postReady (sendPost (gone u) (wordPost s item src len) item bs) s.cur) := by
    have sent := queuePost_word (t := answering (noted s h regs tokens i) d) base (settled_answering (settled_noted settled) d)
      ((answering_cur _ d).trans noted_cur) ((wordSeq_answering _ d).trans wordSeq_noted) ((postOf_answering _ d).trans postOf_noted) mark
      (by rw [answering, noted_cur]; exact read)
    rw [postOp_status (view i) (unrecorded_noted unrecorded), sent]
    rfl
  refine ⟨fun hi legal u bs read => ?_, fun hi host far window => ⟨fun aligned plainSrc u bs read => ?_, fun plainSrc u bs read => ?_⟩⟩
  · have left := plain read x1.toNat
    rw [sendPost_base view0] at left
    refine congrArg Host.Outcome.next (issueWord_next hi _ _ ?_)
    simp only [← noted_eq, List.getD_cons_zero, List.getD_cons_succ, legal]
    exact left
  · have left := status read win.toNat
    rw [sendPost_base view0] at left
    obtain ⟨here, data, alignedSrc⟩ := plainSrc
    refine congrArg Host.Outcome.next (issueWord_next hi _ _ ?_)
    simp only [← noted_eq, List.getD_cons_zero, List.getD_cons_succ, host, far, window, here, data, aligned, alignedSrc, ne_eq, not_true_eq_false, or_self,
      Bool.false_eq_true, if_false]
    exact left
  · have left := status read win.toNat
    rw [sendPost_base view0] at left
    obtain ⟨here, data, alignedSrc⟩ := plainSrc
    refine congrArg Host.Outcome.next (issueWord_next hi _ _ ?_)
    simp only [← noted_eq, List.getD_cons_zero, List.getD_cons_succ, host, far, window, here, data, alignedSrc, ne_eq, not_true_eq_false, or_self,
      Bool.false_eq_true, if_false]
    exact left

end Sys2Proof.Machine.Proofs
end

section
/-! PROOFS. The steps of the fabric: routing, arrivals, answers and acknowledgements (R246, R247, R254, R311 to R320, R390). -/

namespace Sys2Proof.Machine.Proofs

open Sys2Proof Sys2Proof.Machine Sys2Proof.Machine.Safety Sys2Proof.Machine.Laws

/-! ## Routing (R311, R313) -/

section
variable {s : State} {k : Packet} {r : List Packet} {adapt : Option Nat}

theorem exec_routePacket_sent {p : Nat} (oldest : s.packets = k :: r) (route : routePort s k adapt = some p) : exec (.routePacket adapt) s =
    .next { s with packets := r, wire := s.wire ++ [(p, { k with hops := k.hops + if p < 48 then 1 else 0, port := none })] } := by
  have same : routePort { s with packets := r } k adapt = some p := route
  refine congrArg Host.Outcome.next ?_
  simp only [routeOne, oldest, same]

theorem exec_routePacket_dropped (oldest : s.packets = k :: r) (route : routePort s k adapt = none) :
    exec (.routePacket adapt) s = .next (dropPacket { s with packets := r } k) := by
  have same : routePort { s with packets := r } k adapt = none := route
  refine congrArg Host.Outcome.next ?_
  simp only [routeOne, oldest, same]

/-- The default route within the own group is the direct link (R311). -/
theorem routePort_own (own : k.dst / 32 = ownGroup) (up : portUp s (linkTo (k.dst % 32)) = true) : routePort s k none = some (linkTo (k.dst % 32)) := by
  have direct : mayLeave k (linkTo (k.dst % 32)) = true := by simp [mayLeave, linkTo]
  simp [routePort, leadsTo, own, up, direct]

/-- The default route to another group is its lowest port that is up and reaches it (R311). -/
theorem routePort_other {p : Nat} (other : k.dst / 32 ≠ ownGroup) (hops : k.hops < 2) (source : k.port = none) (route : routePort s k none = some p) :
    p < 79 ∧ portUp s p = true ∧ reaches s p (k.dst / 32) = true ∧ ∀ q, q < p → portUp s q = true → reaches s q (k.dst / 32) = false := by
  have free (l : List Nat) : l.filter (mayLeave k) = l := List.filter_eq_self.2 fun q _ => by simp [mayLeave, hops, source]
  have first : (List.range 79).find? (fun p => portUp s p && reaches s p (k.dst / 32)) = some p := by
    rw [← List.head?_filter]
    rw [routePort, leadsTo, if_neg other, free] at route
    cases ports : (List.range 79).filter (fun p => portUp s p && reaches s p (k.dst / 32)) with
    | nil => simp [ports] at route
    | cons q l => simpa [ports] using route
  obtain ⟨fits, leads, lower⟩ := List.find?_range_eq_some.1 first
  simp only [Bool.and_eq_true, List.mem_range, Bool.not_eq_true', Bool.and_eq_false_iff] at fits leads lower
  obtain ⟨up, reach⟩ := fits
  exact ⟨leads, up, reach, fun q below live => (lower q below).resolve_left (by simp [live])⟩

theorem routePort_mayLeave {p : Nat} (route : routePort s k adapt = some p) : 48 ≤ p ∨ (k.hops < 2 ∧ ∀ i, k.port = some i → 48 ≤ i) := by
  have may : mayLeave k p = true := by
    unfold routePort at route
    split at route
    · simp at route
    next q l ports =>
      have default : mayLeave k q = true := (List.mem_filter.1 (ports ▸ List.mem_cons_self : q ∈ (leadsTo s k.dst).filter (mayLeave k))).2
      split at route
      next a =>
        split at route
        next adaptive => obtain ⟨-, -, free⟩ := adaptive; injection route with same; exact same ▸ free
        next => injection route with same; exact same ▸ default
      next => injection route with same; exact same ▸ default
  unfold mayLeave at may
  rw [Bool.or_eq_true, Bool.and_eq_true, decide_eq_true_iff, decide_eq_true_iff] at may
  obtain far | ⟨hops, source⟩ := may
  · exact .inl far
  · exact .inr ⟨hops, fun i hi => by rw [hi] at source; exact of_decide_eq_true source⟩

end

/-! ## Arrivals in the sequence of their pair (R312) -/

theorem inOrder_old {s : State} {src agent sq : Nat} {f : State → State} (old : sq % 2 ^ 64 < fgetD s.arrivedNo (pairKey agent src) 0) :
    inOrder s src agent sq f = s := if_pos old

theorem inOrder_new {s : State} {src agent sq : Nat} {f : State → State} (new : fgetD s.arrivedNo (pairKey agent src) 0 ≤ sq % 2 ^ 64) :
    inOrder s src agent sq f = f { s with arrivedNo := fput s.arrivedNo (pairKey agent src) (sq % 2 ^ 64 + 1) } := if_neg (Nat.not_lt.2 new)

theorem unlessHeld_untested {s : State} (untested : slicesTested s = []) (agent va n : Nat) (write : Bool) (t : State) : unlessHeld s agent va n write t = t := by
  rw [unlessHeld, waitsHome_untested untested]; rfl

theorem unlessHeld_self (s : State) (agent va n : Nat) (write : Bool) : unlessHeld s agent va n write s = s := ite_self _

/-! ## Where nothing is captured (R378) -/

section
variable {s : State} (live : s.capture = false)
include live

theorem captureItem_uncaptured (job kind n : Nat) (workid : W64) (view ord addr val : Nat) (data : List Byte) :
    captureItem s job kind n workid view ord addr val data = s := by
  unfold captureItem
  split
  · rfl
  · exact if_pos (.inr (.inr (by rw [live]; decide)))

theorem captureArrival_uncaptured (asid kind va n val : Nat) (bs : List Byte) : captureArrival s asid kind va n val bs = s := by
  unfold captureArrival
  induction (allJobs s).filter (fun j => j.asid == asid) with
  | nil => rfl
  | cons j js ih => rw [List.foldl_cons, captureItem_uncaptured live]; exact ih

theorem captureWrite_uncaptured (asid va : Nat) (bs : List Byte) : captureWrite s asid va bs = s := by
  unfold captureWrite
  induction pageParts s va bs with
  | nil => rfl
  | cons x xs ih => rw [List.foldl_cons, captureArrival_uncaptured live]; exact ih

theorem captureLeft_uncaptured (asid va n : Nat) : captureLeft s asid va n = s := by
  unfold captureLeft
  split
  · exact captureWrite_uncaptured live _ _ _
  · rfl

end

/-! ## Writes, adds and atomics of other devices (R246, R254, R315) -/

section
variable {s u : State} {src agent sq va : Nat} {old : W64}

theorem writeArrives_done {bytes : List Byte} (made : writeWhole s (arrivalCtx agent va) va bytes = (u, .ok ())) (live : u.capture = false) :
    writeArrives s src agent sq va bytes = sendPacket (retestRings u) 0x3002 src (.ack sq false) := by
  simp only [writeArrives, made, captureWrite_uncaptured live]

theorem writeArrives_fails {bytes : List Byte} {kind at_ : Nat} (refused : mayWriteAll s (arrivalCtx agent va) va bytes.length = .error (.fault kind at_)) :
    writeArrives s src agent sq va bytes = sendPacket (arrivalFails s agent at_ 1 kind) 0x3002 src (.ack sq true) := by
  simp only [writeArrives, writeWhole, refused]

theorem addArrives_done {n : Nat} (made : performOp s (arrivalCtx agent va) va (.barrierAdd n) 0 = (u, .ok old)) (live : u.capture = false) :
    addArrives s src agent sq va n = sendPacket u 0x3002 src (.ack sq false) := by
  simp only [addArrives, made, captureArrival_uncaptured live]

theorem atomicArrives_done {op : AtomicOp} {x y : W64} (made : performOp s (arrivalCtx agent va) va (.atomic op x y) 0 = (u, .ok old))
    (live : u.capture = false) : atomicArrives s src agent sq va op x y = sendPacket (retestRings u) 0x3002 src (.answer sq old) := by
  simp only [atomicArrives, made, captureLeft_uncaptured live, ite_self]

theorem barrierArrives_done {op : WriteOp} (made : performOp s (arrivalCtx agent va) va op 0 = (u, .ok old)) (live : u.capture = false) :
    barrierArrives s src agent sq va op = sendPacket u 0x3002 src (.ack sq false) := by
  simp only [barrierArrives, made, captureLeft_uncaptured live]

end

/-! ## Answers and acknowledgements (R82, R254, R368) -/

/-- A late answer of a stream of which no ordinal is kept joins the register write that waits for it (R45). -/
theorem landAnswer_unlogged {s : State} {p : Nat} (unlogged : (part s p).ords = []) (f : Part → Part) (seq : Nat) (v : W64)
    (kept : (f (part s p)).ords = (part s p).ords) : landAnswer (modPart s p f) p seq v = modPart s p fun x => { f x with
      flights := replaceFirst (fun g => g.seq == seq && g.val == .answer) (fun g => { g with val := .ready v }) (f x).flights } := by
  have none : fget (part (modPart s p f) p).ords seq = none := by rw [part_modPart, kept, unlogged]; rfl
  simp only [landAnswer, none, answerFlight, modPart_modPart]
  refine modPart_congr ?_
  simp only [kept, unlogged, fdel]

theorem pend_part {s : State} {p : Nat} {t : PendingTrap} (source : t.src ≠ 7) :
    part (pend s p t) p = { part s p with pending := (part s p).pending ++ if 8 ≤ (part s p).pending.length then [] else [t] } := by
  have other : ∀ u : PendingTrap, (u.src == 7 && t.src == 7 && u.seq == t.seq) = false := by simp [source]
  rw [pend, part_modPart]
  split
  next full =>
    have many : 8 ≤ (part s p).pending.length := by simpa [other] using full
    rw [if_pos many, List.append_nil]
  next room =>
    have few : ¬ 8 ≤ (part s p).pending.length := fun many => room (.inl many)
    rw [if_neg few]

/-- An access that fails after issue cancels its register write and pends its trap, while there is room (R368). -/
theorem lateFail_part (s : State) (p seq cause va : Nat) : (part (lateFail s p seq cause va) p).flights = (part s p).flights.filter (fun f => f.seq != seq) ∧
    (part (lateFail s p seq cause va) p).pending.map (fun t => t.cause) =
      (part s p).pending.map (fun t => t.cause) ++ (if 8 ≤ (part s p).pending.length then [] else [cause]) ∧
    (part (lateFail s p seq cause va) p).regs = (part s p).regs ∧ (lateFail s p seq cause va).mem = s.mem := by
  unfold lateFail
  extract_lets w t
  have pended : part t p = _ := pend_part (show (2 : Nat) ≠ 7 by decide)
  have effect : (part t p).flights = (part s p).flights.filter (fun f => f.seq != seq) ∧ (part t p).pending.map (fun t => t.cause) =
      (part s p).pending.map (fun t => t.cause) ++ (if 8 ≤ (part s p).pending.length then [] else [cause]) ∧ (part t p).regs = (part s p).regs := by
    rw [pended, cancelFlight, part_modPart]
    refine ⟨rfl, ?_, rfl⟩
    dsimp only
    split <;> simp
  obtain ⟨flights, pending, regs⟩ := effect
  obtain idle | ⟨m, l, posted⟩ := postReady_cases t p
  · rw [idle]; exact ⟨flights, pending, regs, rfl⟩
  · rw [posted, part_modPart]; exact ⟨flights, pending, regs, rfl⟩

section
variable {s : State} {sq word p seq va part_ job : Nat} {val : W64}

/-- The state once the packet of a number is awaited no more. -/
def answered (s : State) (sq : Nat) : State := { s with awaits := dropFirst (fun a => a.seq == sq) s.awaits }

theorem answerArrives_value (awaited : s.awaits.find? (fun a => a.seq == sq) =
      some { seq := sq, word := word, part := part_, kind := .value p seq 0, va := va, job := job }) (unlogged : (part s p).ords = []) :
    answerArrives s sq false val = modPart (answered s sq) p fun x => { x with
      answers := fdel x.answers sq, flights := replaceFirst (fun f => f.seq == seq && f.val == .answer) (fun f => { f with val := .ready val }) x.flights } := by
  simp only [answerArrives, awaited]
  exact landAnswer_unlogged (s := answered s sq) unlogged (fun x => { x with answers := fdel x.answers sq }) seq val rfl

theorem answerArrives_lost (awaited : s.awaits.find? (fun a => a.seq == sq) =
      some { seq := sq, word := word, part := part_, kind := .value p seq 0, va := va, job := job }) (off : (part s p).monitor = .off) :
    answerArrives s sq true val = lateFail (modPart (answered s sq) p id) p seq 0x0E va := by
  simp only [answerArrives, awaited]
  rw [modPart_congr (s := answered s sq) (p := p) (f := id) (g := fun x => if x.monitor = .armedRemote sq then { x with monitor := .off } else x)]
  · rfl
  · rw [show part (answered s sq) p = part s p from rfl, off]; rfl

theorem ackArrives_kept {lost : Bool} (awaited : s.awaits.find? (fun a => a.seq == sq) =
      some { seq := sq, word := word, part := part_, kind := .ack, va := va, job := job }) (unanswered : fget (part s part_).answers word = none) :
    ackArrives s sq lost = answered s sq := by
  have same : fget (part (answered s sq) part_).answers word = none := unanswered
  unfold answered at same
  simp only [ackArrives, awaited, same, answered]

theorem ackArrives_answers {lost : Bool} (awaited : s.awaits.find? (fun a => a.seq == sq) =
      some { seq := sq, word := word, part := part_, kind := .ack, va := va, job := job }) (kept : fget (part s part_).answers word = some val)
    (unlogged : (part s part_).ords = []) : ackArrives s sq lost = modPart (answered s sq) part_ fun x => { x with
      answers := fdel x.answers word, flights := replaceFirst (fun f => f.seq == word && f.val == .answer) (fun f => { f with val := .ready val }) x.flights } := by
  have same : fget (part (answered s sq) part_).answers word = some val := kept
  unfold answered at same
  simp only [ackArrives, awaited, same]
  exact landAnswer_unlogged (s := answered s sq) unlogged (fun x => { x with answers := fdel x.answers word }) word val rfl

end

/-! ## Monitors and request records of other devices (R247, R318) -/

theorem monitorArrives_read {s u : State} {src tag va pa v : Nat} {e : W64} (read : readNum s (arrivalCtx (tag / 2 ^ 96 * 2 ^ 16) va) va 8 0 = (u, .ok v))
    (mapped : physOf u (tag / 2 ^ 96) va = some pa) : monitorArrives s src tag va e = sendPacket
      (if w64 v = e then { u with nextSeq := u.nextSeq + 1, monitors := u.monitors ++ [{ id := u.nextSeq, line := pa / 128, owner := .remote src (tag % 2 ^ 96), home := va % 2 ^ 48 / 128 }] } else u)
      0x3002 src (.answer (tag % 2 ^ 96) (w64 v)) := by
  have asid : (arrivalCtx (tag / 2 ^ 96 * 2 ^ 16) va).asid = tag / 2 ^ 96 := by
    rw [arrivalCtx, Nat.mul_div_cancel _ (by positivity)]; rfl
  simp only [monitorArrives, read, asid, mapped]

theorem wakeArrives_part {s : State} {tag p : Nat} {x : Part} (waits : s.parts.find? (fun x => x.2.monitor == .armedRemote tag) = some (p, x)) :
    wakeArrives s tag = modPart s p fun x => { x with monitor := .fired } := by
  simp only [wakeArrives, waits]

theorem ringTested_untested {s : State} (untested : slicesTested s = []) (va : Nat) : ringTested s va = false := by
  unfold ringTested
  split
  · split
    · exact waitsHome_untested untested _ _ _ _
    · rfl
  · rfl

/-- A record whose queue holds no earlier one is appended, refused or held, as its ring says (R318). -/
theorem recordArrives_window {s : State} {src tag va q off n : Nat} {bytes : List Byte} (here : locOf va = .here q off) (window : spotOf s q off = .rqWindow n 0)
    (free : ∀ h ∈ (quarter s q).held2, h.queue ≠ n) : recordArrives s src tag va bytes = match appendRecord s q n src bytes with
      | (s, .denied) => answerTo s src tag (w64 stDenied)
      | (s, .ok) => answerTo s src tag (w64 stOk)
      | (s, .full) => modQuarter s q fun x => { x with held2 := x.held2 ++ [{ src := src, tag := tag, queue := n, bytes := bytes }] } := by
  have none : (quarter s q).held2.any (fun h => h.queue == n) = false := List.any_eq_false.2 fun h hh => by simpa using free h hh
  simp only [recordArrives, here, window, none, Bool.false_eq_true, if_false] <;> rfl

section
variable {s a b c d : State} {q n src e tail head : Nat} {bytes : List Byte}

/-- A grant opens a ring; a ring with no free slot is full (R316, R318). -/
theorem appendRecord_full (granted : aclFind s src q n = some e) (mayPost : nbit e 3 = true) (enabled : nbit (mgetN s q (regRqCfg n)) 0 = true)
    (tailRead : readNum s (queueCtx q (nfld (mgetN s q (regRqCfg n)) 48 16)) (globalAddr q (ringBase (mgetN s q (regRqCfg n)))) 8 0 = (a, .ok tail))
    (headRead : readNum a (queueCtx q (nfld (mgetN s q (regRqCfg n)) 48 16)) (globalAddr q (ringBase (mgetN s q (regRqCfg n))) + 128) 8 0 = (b, .ok head))
    (full : ringSlots (mgetN s q (regRqCfg n)) ≤ (tail + 2 ^ 64 - head) % 2 ^ 64) : appendRecord s q n src bytes = (b, .full) := by
  -- The kernel must not run the reads, so they stand under a name of their own.
  obtain ⟨read, reads⟩ : ∃ f, f = readNum := ⟨_, Eq.refl _⟩
  unfold appendRecord
  rw [← reads] at tailRead headRead ⊢
  simp only [granted, mayPost, enabled, tailRead, headRead, full, not_true_eq_false, or_self, if_false, if_true]

theorem appendRecord_placed (granted : aclFind s src q n = some e) (mayPost : nbit e 3 = true) (enabled : nbit (mgetN s q (regRqCfg n)) 0 = true)
    (tailRead : readNum s (queueCtx q (nfld (mgetN s q (regRqCfg n)) 48 16)) (globalAddr q (ringBase (mgetN s q (regRqCfg n)))) 8 0 = (a, .ok tail))
    (headRead : readNum a (queueCtx q (nfld (mgetN s q (regRqCfg n)) 48 16)) (globalAddr q (ringBase (mgetN s q (regRqCfg n))) + 128) 8 0 = (b, .ok head))
    (room : ¬ ringSlots (mgetN s q (regRqCfg n)) ≤ (tail + 2 ^ 64 - head) % 2 ^ 64)
    (placed : writeVa b (queueCtx q (nfld (mgetN s q (regRqCfg n)) 48 16))
      (globalAddr q (ringBase (mgetN s q (regRqCfg n))) + 256 + 64 * (tail % ringSlots (mgetN s q (regRqCfg n)))) bytes 0 = (c, .ok ()))
    (moved : writeVa c (queueCtx q (nfld (mgetN s q (regRqCfg n)) 48 16)) (globalAddr q (ringBase (mgetN s q (regRqCfg n)))) (leBytes 8 (tail + 1)) 0 = (d, .ok ()))
    (live : d.capture = false) : appendRecord s q n src bytes = (d, .ok) := by
  obtain ⟨read, reads⟩ : ∃ f, f = readNum := ⟨_, Eq.refl _⟩
  obtain ⟨write, writes⟩ : ∃ f, f = writeVa := ⟨_, Eq.refl _⟩
  unfold appendRecord
  rw [← reads] at tailRead headRead ⊢
  rw [← writes] at placed moved ⊢
  simp only [granted, mayPost, enabled, tailRead, headRead, room, placed, moved, captureWrite_uncaptured live, ite_self, not_true_eq_false, or_self,
    if_false]

end

/-! ## Multicast copies at their target (R320) -/

section
variable {s : State} {src agent members va bar : Nat} {nums : List (Nat × Nat)} {groups : List Nat} {bytes : List Byte}

theorem castTested_untested (untested : slicesTested s = []) (stage n : Nat) : castTested s agent stage members va bar n = false := by
  simp [castTested, waitsHome_untested untested]

/-- A copy that has reached its target is delivered in the sequence of its pair. -/
theorem exec_multicastForward_final (away : src ≠ Config.device) (members' : members % 2 ^ 32 ≠ 0) (untested : slicesTested s = [])
    (new : fgetD s.arrivedNo (pairKey agent src) 0 ≤ numberFor nums Config.device % 2 ^ 64) :
    exec (.multicastForward src agent nums 3 groups members va bar bytes) s = .next (deliverCast
      { s with arrivedNo := fput s.arrivedNo (pairKey agent src) (numberFor nums Config.device % 2 ^ 64 + 1) } src agent
      (numberFor nums Config.device) va bar bytes) := by
  refine congrArg Host.Outcome.next ?_
  rw [if_neg (by rw [castTested_untested untested]; decide)]
  simp only [multicastAt, if_neg members', if_true, castHere, if_neg away, inOrder_new new]

theorem lostAck_away (away : src ≠ Config.device) (s : State) (sq : Nat) : lostAck s src sq = sendPacket s 0x3002 src (.ack sq true) := if_neg away

/-- A copy's blocks are written and counted, and the copy is acknowledged (R320). -/
theorem deliverCast_block {sq : Nat} (away : src ≠ Config.device) (some : bytes ≠ [])
    (may : mayWriteAll s (arrivalCtx agent va) (onDevice 0xFFFF va) bytes.length = .ok ())
    (live : (writeVa s (arrivalCtx agent va) (onDevice 0xFFFF va) bytes 0).1.capture = false) : deliverCast s src agent sq va 0 bytes =
    sendPacket (retestRings (countCast (writeVa s (arrivalCtx agent va) (onDevice 0xFFFF va) bytes 0).1 (pairKey agent src) (sq % 2 ^ 64))) 0x3002 src
      (.ack sq false) := by
  have data : bytes.isEmpty = false := by cases bytes <;> simp_all
  have far : (src != Config.device) = true := by simpa using away
  have still : (countCast (writeVa s (arrivalCtx agent va) (onDevice 0xFFFF va) bytes 0).1 (pairKey agent src) (sq % 2 ^ 64)).capture = false := live
  simp only [deliverCast, data, far, may, captureWrite_uncaptured still, if_neg away, Bool.false_eq_true, false_and, if_false, if_true]

/-- The add of a copy whose blocks were not all performed is not made (R102). -/
theorem deliverCast_uncounted {sq : Nat} (away : src ≠ Config.device) (adds : bar ≠ 0)
    (short : castCounted s (pairKey agent src) (sq % 2 ^ 64) va = false) : deliverCast s src agent sq va bar [] = sendPacket s 0x3002 src (.ack sq true) := by
  simp only [deliverCast, List.isEmpty_nil, adds, short, lostAck_away away, ne_eq, not_false_eq_true, Bool.false_eq_true, and_self, if_true]

theorem deliverCast_add {w : State} {sq : Nat} {old : W64} (away : src ≠ Config.device) (adds : bar ≠ 0)
    (counted : castCounted s (pairKey agent src) (sq % 2 ^ 64) va = true) (live : s.capture = false)
    (may : mayWrite s (arrivalCtx agent bar) (onDevice 0xFFFF bar) = .ok ())
    (made : performOp (retestRings s) (arrivalCtx agent bar) (onDevice 0xFFFF bar) (.barrierAdd va) 0 = (w, .ok old)) (liveW : w.capture = false) :
    deliverCast s src agent sq va bar [] = sendPacket w 0x3002 src (.ack sq false) := by
  have far : (src != Config.device) = true := by simpa using away
  have nothing : mayWriteAll s (arrivalCtx agent va) (onDevice 0xFFFF va) ([] : List Byte).length = .ok () := by
    simp [mayWriteAll, Machine.piecesOf, pieces]
  simp only [deliverCast, List.isEmpty_nil, adds, counted, far, nothing, may, captureWrite_uncaptured live, made, captureArrival_uncaptured liveW, if_neg away,
    not_true_eq_false, and_false, if_false, if_true]

theorem deliverCast_fails {sq k a : Nat} (away : src ≠ Config.device)
    (refused : mayWriteAll s (arrivalCtx agent va) (onDevice 0xFFFF va) bytes.length = .error (.fault k a)) :
    deliverCast s src agent sq va 0 bytes = sendPacket (arrivalFails s agent a 1 k) 0x3002 src (.ack sq true) := by
  simp only [deliverCast, refused, lostAck_away away, ne_eq, not_true_eq_false, false_and, and_false, if_false]

end

/-! ## The steps (R311 to R331) -/

/-- A dropped packet is counted, recorded and answered as lost (R313). -/
theorem routePacket_clauses (s : State) (adapt : Option Nat) (k : Packet) (r : List Packet) (oldest : s.packets = k :: r) :
    (∀ p, routePort s k adapt = some p → exec (.routePacket adapt) s = .next { s with packets := r, wire := s.wire ++ [(p, { k with
      hops := k.hops + if p < 48 then 1 else 0, port := none })] }) ∧
    (routePort s k adapt = none → ∀ va bs, k.body = .write va bs →
      (k.src = Config.device → exec (.routePacket adapt) s = .next (ackArrives (recordLost { s with packets := r } va k.dst) k.seq true)) ∧
      (k.src ≠ Config.device → exec (.routePacket adapt) s = .next (sendPacket (recordLost { s with packets := r } va k.dst) 0x3002 k.src (.ack k.seq true)))) ∧
    (routePort s k adapt = none → k.src = Config.device → ∀ va op x y, k.body = .atomic va op x y →
      exec (.routePacket adapt) s = .next (answerArrives (recordLost { s with packets := r } va k.dst) k.seq true 0)) ∧
    (routePort s k adapt = none → (∃ c n, (∃ piece, k.body = .tile c n piece) ∨ k.body = .credit c n ∨ ∃ pc pn ty d, k.body = .bind c n pc pn ty d) →
      exec (.routePacket adapt) s = .next (lostAck (recordLost { s with packets := r } 0 k.dst) k.src k.seq)) ∧
    (∀ nums stage gs members va bar bs n, routePort s k adapt = none → k.body = .multicast nums stage gs members va bar bs → nums.find? (fun x => x.1 == k.dst) = some (k.dst, n) →
      exec (.routePacket adapt) s = .next (lostAck (recordLost { s with packets := r } (onDevice k.dst (castAddr va bar bs)) k.dst) k.src n)) := by
  refine ⟨fun p route => exec_routePacket_sent oldest route, fun none va bs body => ⟨fun own => ?_, fun away => ?_⟩, fun none own va op x y body => ?_,
    fun none acked => ?_, fun nums stage gs members va bar bs n none body target => ?_⟩ <;>
    refine (exec_routePacket_dropped oldest none).trans (congrArg Host.Outcome.next ?_)
  · simp only [dropPacket, body, payloadAddr, lostAck, own, if_true]
  · simp only [dropPacket, body, payloadAddr, lostAck, if_neg away]
  · simp only [dropPacket, body, payloadAddr, own, beq_self_eq_true, if_true]
  · obtain ⟨c, n, ⟨piece, body⟩ | body | ⟨pc, pn, ty, d, body⟩⟩ := acked <;> simp only [dropPacket, body, payloadAddr]
  · simp only [dropPacket, body, payloadAddr, target]

/-- Settles O43: the branches of each step, with the operation that an arrival makes at its home. -/
theorem fabricStepsFollowTheirRules : Obligations.FabricStepsFollowTheirRules := by
  refine ⟨routePacket_clauses, fun s k p => ⟨routePort_own, routePort_other, fun adapt => routePort_mayLeave⟩, ?arrivals, ?answers, ?acks, ?monitors,
    fun s tag p x waits => congrArg Host.Outcome.next (wakeArrives_part waits), ?records, ?rings, ?casts, fun s kind link below => ?retries⟩
  case arrivals =>
    intro s u src agent sq va bytes old key o
    refine ⟨fun done => ⟨?_, fun cnt => ?_, fun op x y => ?_⟩, fun new untested => ⟨fun made live => ?_, fun kind at_ refused => ?_, fun cnt made live => ?_,
      fun op x y code made live => ?_, fun x y made live => ?_, fun x y made live => ?_⟩⟩ <;> refine congrArg Host.Outcome.next ?_
    iterate 3 exact (congrArg _ (inOrder_old done)).trans (unlessHeld_self ..)
    all_goals refine ((unlessHeld_untested untested ..).trans (inOrder_new new)).trans ?_
    · exact writeArrives_done made live
    · exact writeArrives_fails refused
    · exact addArrives_done made live
    · rw [if_neg (by omega), if_neg (by omega)]; exact atomicArrives_done made live
    · exact barrierArrives_done made live
    · exact barrierArrives_done made live
  case answers =>
    intro s sq word p seq va part_ job val awaited unlogged off
    refine ⟨congrArg Host.Outcome.next (answerArrives_value awaited unlogged), _, congrArg Host.Outcome.next (answerArrives_lost awaited off), ?_⟩
    have failed := lateFail_part (modPart (answered s sq) p id) p seq 0x0E va
    rwa [part_modPart] at failed
  case acks =>
    intro s sq word part_ va job lost awaited u
    exact ⟨fun none => ⟨congrArg Host.Outcome.next (ackArrives_kept awaited none), congrArg Host.Outcome.next (ackArrives_kept awaited none)⟩,
      fun v kept unlogged => congrArg Host.Outcome.next (ackArrives_answers awaited kept unlogged)⟩
  case monitors =>
    intro s u src tag va pa v e key new untested read mapped
    refine congrArg Host.Outcome.next (((unlessHeld_untested untested ..).trans (inOrder_new new)).trans ?_)
    exact monitorArrives_read read mapped
  case records =>
    intro s u src tag va q off n bytes key o new untested here window free
    have step : exec (.requestRecordArrival src tag va bytes) s = .next (recordArrives o src tag va bytes) := by
      refine congrArg Host.Outcome.next ?_
      rw [if_neg (by rw [ringTested_untested untested]; decide), inOrder_new new]
    have outcome := recordArrives_window (s := o) (src := src) (tag := tag) (bytes := bytes) here window free
    refine ⟨fun made => ?_, fun made => ?_, fun made => ?_⟩ <;> rw [step, outcome, made] <;> rfl
  case rings =>
    intro s a b c d q n src e tail head bytes ctx r slots granted mayPost enabled tailRead headRead
    exact ⟨fun full => appendRecord_full granted mayPost enabled tailRead headRead full,
      fun room placed moved live => appendRecord_placed granted mayPost enabled tailRead headRead (Nat.not_le.2 room) placed moved live⟩
  case casts =>
    intro s src agent members va bar nums groups bytes away sq key o at_
    refine ⟨fun none => ?_, fun members' new untested => ⟨fun some may live => ?_, fun adds short => ?_, fun w old adds counted live may made liveW => ?_,
      fun k a refused => ?_⟩⟩
    · refine congrArg Host.Outcome.next ?_
      simp only [multicastAt, none, if_true, ite_self]
    all_goals refine (exec_multicastForward_final away members' untested new).trans (congrArg Host.Outcome.next ?_)
    · exact deliverCast_block away some may live
    · exact deliverCast_uncounted away adds short
    · exact deliverCast_add away adds counted live may made liveW
    · exact deliverCast_fails away refused
  case retries =>
    refine congrArg Host.Outcome.next ?_
    rw [mbump, if_neg]
    rw [Nat.mod_eq_of_lt (by omega)]; omega

end Sys2Proof.Machine.Proofs
end

section
/-! PROOFS. The work of the engines on copies, operand queues, the tile store and vector commands (R94 to R137): the clause on the tables of `vtblld` (R126). -/

namespace Sys2Proof.Machine.Proofs

open Sys2Proof Sys2Proof.Machine Sys2Proof.Machine.Safety Sys2Proof.Machine.Laws

/-- Knot 1 of user table 0 is 7 in partition 0, and the scratchpad of its core holds zeros. -/
def knotSeven : State := { State.reset with parts := [(0, { tables := [(1, 7)] })] }

/-- The load of user table 0 from place 0 of the scratchpad, as it starts: it writes the 257 knots 0 to 256. -/
def tableLoad : Run :=
  { cmd :=
      { id := 0
        instr := .vtblld unflagged 0 false 1 0
        vals := [0]
        pc := 0
        word0 := 0
        word1 := 0
        seed := 0
        workid := 0
        ctx := { part := 0, agent := .vector, asid := 0, view := 0, job := 0 }
        record := 0 }
    count := 0
    state := .waiting
    tookLeave := false
    lost := false
    added := false
    step := 0
    rows := [] }

/-- The knots that the load finds in the scratchpad are 257 zeros. -/
theorem knotSeven_knots :
    (unpackBits 32 257 (leNat (ringRead (core knotSeven (coreOf 0)).scratch (2 ^ 21) (0 % 2 ^ 21) 1028))).map (fun k => sxInt k 32) = List.replicate 257 0 := by
  decide +kernel

/-- Knot 1 of user table 0 is 0 after the load. -/
theorem tableLoad_clears_knot : userKnot (part ((work 1 tableLoad).go knotSeven).2 0) 0 1 = 0 := by decide +kernel

/-- Refutes O59: in the clause on `vtblld` the knots that must stay are named by a `k` of the four table numbers, in whose arithmetic modulo 4 the range of the table,
`512 * n` to `512 * n + 257`, is 0 to 1. So knots 1, 2 and 3 of table 0 must both take their new values and stay as they were. -/
theorem not_engineWorkOfCopiesAndVectors : ¬ Obligations.EngineWorkOfCopiesAndVectors := by
  unfold Obligations.EngineWorkOfCopiesAndVectors
  rintro ⟨-, vector, -⟩
  obtain ⟨-, -, -, -, -, -, -, -, -, -, -, -, -, -, -, table, -⟩ := vector unflagged 0 0 false false false 0 0 0 0 knotSeven tableLoad rfl rfl
  obtain ⟨loads, -⟩ := table 0 rfl (by decide)
  obtain ⟨u, run, -, old⟩ := loads (by
    intro k mem
    obtain rfl : k = 0 := List.eq_of_mem_replicate (knotSeven_knots ▸ mem)
    decide)
  have kept : fgetD u 1 0 = 7 := old 1 (.inr (by decide))
  have cleared : fgetD u 1 0 = 0 := by
    have knot := tableLoad_clears_knot
    rw [run] at knot
    exact knot
  omega

end Sys2Proof.Machine.Proofs
end

section
/-! PROOFS. Who issues on a core, and who has its mangle (R162, R163, R219 to R221). -/

namespace Sys2Proof.Machine.Proofs

open Sys2Proof Sys2Proof.Machine Sys2Proof.Machine.Safety Sys2Proof.Machine.Laws

/-! ## The best-ranked of some partitions (R219) -/

theorem rankBefore_eq (s : State) (a b : Nat) : rankBefore s a b = if levelOf s a ≠ levelOf s b then decide (levelOf s b < levelOf s a)
    else if (part s a).due ≠ (part s b).due then (part s a).due else decide ((part s a).issueLost ≤ (part s b).issueLost) := rfl

theorem levelOf_le_of_rankBefore {s : State} {a b : Nat} (before : rankBefore s a b = true) : levelOf s b ≤ levelOf s a := by
  rw [rankBefore_eq] at before
  split at before
  · exact (of_decide_eq_true before).le
  next same => exact (not_not.1 same).ge

theorem levelOf_le_of_not_rankBefore {s : State} {a b : Nat} (after : ¬rankBefore s a b = true) : levelOf s a ≤ levelOf s b := by
  by_contra lower
  refine after ?_
  rw [rankBefore_eq, if_pos (by omega)]
  exact decide_eq_true (by omega)

theorem bestOf_cons_ne_none (s : State) (x : Nat) (r : List Nat) : bestOf s (x :: r) ≠ none := by
  rw [bestOf]
  split
  · exact Option.some_ne_none _
  · split <;> exact Option.some_ne_none _

/-- What is picked is of the highest level among the candidates. -/
theorem levelOf_le_bestOf {s : State} {l : List Nat} {b : Nat} (e : bestOf s l = some b) : ∀ a ∈ l, levelOf s a ≤ levelOf s b := by
  induction l generalizing b with
  | nil => simp
  | cons x r ih =>
    rw [bestOf] at e
    cases rest : bestOf s r with
    | none =>
      cases r with
      | nil => simp_all
      | cons y r => exact absurd rest (bestOf_cons_ne_none s y r)
    | some c =>
      have below := ih rest
      simp only [rest] at e
      by_cases before : rankBefore s x c = true
      · obtain rfl : x = b := by simpa [before] using e
        intro a mem
        rcases List.mem_cons.1 mem with rfl | mem
        · exact le_rfl
        · exact (below a mem).trans (levelOf_le_of_rankBefore before)
      · obtain rfl : c = b := by simpa [before] using e
        intro a mem
        rcases List.mem_cons.1 mem with rfl | mem
        · exact levelOf_le_of_not_rankBefore before
        · exact below a mem

/-! ## The issue passes (R219 to R221) -/

/-- What a restart of the partition's matrix work leaves of the schedule (R164). -/
theorem restartResume_keeps (s : State) (p : Nat) : let t := restartResume s p
    t.cores = s.cores ∧ t.mem = s.mem ∧ t.time = s.time ∧ (part t p).due = (part s p).due ∧ (part t p).windowEnd = (part s p).windowEnd := by
  refine ⟨rfl, rfl, rfl, ?_⟩
  have unmonitored (u : State) (l : List Monitor) : part { u with monitors := l } p = part u p := rfl
  rw [restartResume, part_modPart, leaveMsways, part_modQuarter, unmonitored]
  simp [modQueue]

/-- What a partition that takes the issue of its core has of it: it is not due any more, and its window is 256 ac where it was due (R219, R220). -/
structure TakesIssue (s : State) (p : Nat) (t : State) : Prop where
  core : Machine.core t (coreOf p) = { Machine.core s (coreOf p) with issue := some p }
  due : (part t p).due = false
  window : (part t p).windowEnd = if (part s p).due then s.time + 256 else 0
  mem : t.mem = s.mem
  time : t.time = s.time

theorem takeIssue_takes (s : State) (p : Nat) : TakesIssue s p (takeIssue s p) := by
  unfold takeIssue
  extract_lets s' t
  have taken : TakesIssue s p t := ⟨by simp [t, s'], by simp [t], by simp [t, s']; rfl, rfl, rfl⟩
  split
  · obtain ⟨cores, mem, time, due, window⟩ := restartResume_keeps t p
    exact ⟨(congrArg (fgetD · (coreOf p) {}) cores :).trans taken.core, due.trans taken.due, window.trans taken.window, mem.trans taken.mem, time.trans taken.time⟩
  · exact taken

/-- What the partition that loses the issue keeps, and what it notes (R219, R221). -/
theorem loseIssue_part (s : State) (p : Nat) (preempt : Bool) : ∃ queues : FMap CmdQueue, part (loseIssue s p preempt) p =
    { part s p with
      queues := queues, issueLost := s.time, windowEnd := 0, preempted := preempt, holding := false, flagIgnored := false, leaveWait := none,
      holdSince := s.time - (part s p).holdSince } := by
  unfold loseIssue
  simp only [List.foldl_cons, List.foldl_nil, modQueue, part_modPart]
  exact ⟨_, rfl⟩

theorem part_loseIssue_other (s : State) {p q : Nat} (preempt : Bool) (ne : q ≠ p) : part (loseIssue s p preempt) q = part s q := by
  simp [loseIssue, modQueue, part_modPart_other, ne]

theorem passTo_sibling {s : State} {p q : Nat} (e : passTo s p = some q) : q ≠ p ∧ coreOf q = coreOf p := by
  obtain ⟨mem, cand⟩ := List.mem_filter.1 (bestOf_mem e)
  simp only [Bool.and_eq_true, bne_iff_ne, ne_eq] at cand
  exact ⟨cand.1.1, coreOf_of_mem_partsOf mem⟩

/-- The state in which `q` has taken the issue from `p`. -/
def issueTaken (s : State) (p q : Nat) : State := takeIssue (loseIssue s p (decide (levelOf s p < levelOf s q))) q

theorem core_loseIssue (s : State) (p c : Nat) (preempt : Bool) : core (loseIssue s p preempt) c = core s c := rfl

/-- What the pass of the issue from `p` to another partition `q` of its core changes in both. -/
theorem issueTaken_takes {s : State} {p q : Nat} (ne : q ≠ p) : let t := issueTaken s p q
    TakesIssue s q t ∧ part t p = part (loseIssue s p (decide (levelOf s p < levelOf s q))) p := by
  obtain ⟨core, due, window, mem, time⟩ := takeIssue_takes (loseIssue s p (decide (levelOf s p < levelOf s q))) q
  rw [part_loseIssue_other s _ ne] at window
  exact ⟨⟨core, due, window, mem, time⟩, part_takeIssue_other _ ne.symm⟩

/-- A holder of the issue that stands at its flagged word passes it to the partition that the rule picks. -/
theorem exec_issuePass {s : State} {p q : Nat} (issue : (core s (coreOf p)).issue = some p) (full : (part s p).resident.isSome = true)
    (entering : (part s p).entering = none) (test : inTest s p = false) (flagged : flagHonoured s p = true)
    (now : (core s (coreOf p)).nextIssue ≤ s.time ∨ (part s p).holding = true) (pick : passTo s p = some q) :
    exec (.issuePass (coreOf p)) s = .next (if (part s p).holding = true then issueNow (issueTaken s p q) (coreOf p) else issueTaken s p q) := by
  have resident : (part s p).resident.isNone ≠ true := by
    rw [Option.isNone_eq_false_iff.2 full]; decide
  have stands : ¬((part s p).entering.isSome = true ∨ inTest s p = true ∨ ¬flagHonoured s p = true ∨ s.time < (core s (coreOf p)).nextIssue ∧ ¬(part s p).holding = true) := by
    simp only [entering, test, flagged]
    rcases now with le | holds
    · simp; omega
    · simp [holds]
  refine congrArg Host.Outcome.next ?_
  simp only [passIssue, issue, if_neg resident, if_neg stands, pick]
  rfl

theorem nextIssue_issueNow (s : State) (c : Nat) : (core (issueNow s c) c).nextIssue ≤ s.time := by simp [issueNow]

theorem issue_issueNow (s : State) (c : Nat) : (core (issueNow s c) c).issue = (core s c).issue := by simp [issueNow]

/-- A core without an issuer gives the issue to the best-ranked of its resident partitions that can issue. -/
theorem exec_issuePass_idle {s : State} {c q : Nat} (idle : (core s c).issue = none)
    (pick : bestOf s ((partsOf c).filter fun p => (part s p).resident.isSome && canIssue s p) = some q) :
    coreOf q = c ∧ exec (.issuePass c) s = .next (takeIssue s q) := by
  obtain ⟨mem, able⟩ := List.mem_filter.1 (bestOf_mem pick)
  have someone : ((partsOf c).any fun p => (part s p).resident.isSome) = true :=
    List.any_eq_true.2 ⟨q, mem, (Bool.and_eq_true .. ▸ able).1⟩
  refine ⟨coreOf_of_mem_partsOf mem, congrArg Host.Outcome.next ?_⟩
  have pick' : bestOf s (((partsOf c).filter fun p => (part s p).resident.isSome).filter (canIssue s)) = some q := by
    rw [List.filter_filter, ← pick]
    simp only [Bool.and_comm]
  simp only [passIssue, idle, someone, if_true, refillIssue, pick']

/-! ## The mangle passes (R162, R163) -/

/-- The grants of leave that return when runs are dropped stand in the quarters (R68). -/
theorem foldl_dropLeave (p : Nat) (l : List Run) (s : State) : ∃ quarters : FMap Quarter, l.foldl (fun s r => dropLeave s p r) s = { s with quarters := quarters } := by
  induction l generalizing s with
  | nil => exact ⟨_, rfl⟩
  | cons r l ih =>
    have one : ∃ quarters : FMap Quarter, dropLeave s p r = { s with quarters := quarters } := by
      unfold dropLeave
      split
      · exact ⟨_, rfl⟩
      · split <;> exact ⟨_, rfl⟩
    obtain ⟨m, dropped⟩ := one
    obtain ⟨n, rest⟩ := ih (dropLeave s p r)
    exact ⟨n, by rw [List.foldl_cons, rest, dropped]⟩

/-- What a discard of commands changes beside the grants of leave: the partition's queue keeps what its test does not pick (R171). -/
structure Discarded (s : State) (p k : Nat) (pick : Cmd → Bool) (t : State) : Prop where
  cores : t.cores = s.cores
  mem : t.mem = s.mem
  die : t.die = s.die
  part : Machine.part t p = { Machine.part s p with
    queues := fput (Machine.part s p).queues k { cmdQueue s p k with
      queued := (cmdQueue s p k).queued.filter (fun c => !pick c), running := (cmdQueue s p k).running.filter fun r => !pick r.cmd } }
  others : ∀ q, q ≠ p → Machine.part t q = Machine.part s q

theorem discardCommands_discards (s : State) (p k : Nat) (pick : Cmd → Bool) : Discarded s p k pick (discardCommands s p k pick) := by
  obtain ⟨quarters, dropped⟩ := foldl_dropLeave p ((cmdQueue s p k).running.filter fun r => pick r.cmd) s
  rw [discardCommands, dropped, modQueue]
  exact ⟨rfl, rfl, rfl, by rw [part_modPart]; rfl, fun q ne => part_modPart_other _ _ ne⟩

/-- The taker of the mangle holds it, with no matrix work of the holder before it (R163, R191). -/
theorem takeMangle_takes {s : State} {p h : Nat} (may : mayTake s p = true) (holder : (core s (coreOf p)).holder = some h) : let t := takeMangle s p
    core t (coreOf p) = { core s (coreOf p) with
      nest := none, epi := none, acc := [], weights := [], weightType := none, holder := some p, links := (core s (coreOf p)).links.map fun l => (l.1, { l.2 with heldSince := none }) } ∧
    (part t h).lostMangle = true ∧ cmdQueue t h 2 = { cmdQueue s h 2 with queued := [], running := [] } ∧ part t p = part s p ∧ t.mem = s.mem ∧ t.die = s.die := by
  have ne : p ≠ h := by
    rintro rfl
    simp [mayTake, holder] at may
  obtain ⟨cores2, mem2, die2, part2, others2⟩ := discardCommands_discards s h 2 fun _ => true
  simp only [takeMangle, holder, may, not_true_eq_false, if_false]
  generalize left : discardCommands (discardCommands s h 2 fun _ => true) h 5 _ = u
  obtain ⟨cores5, mem5, die5, part5, others5⟩ := left ▸ discardCommands_discards (discardCommands s h 2 fun _ => true) h 5 _
  have core_u (c : Nat) : core u c = core s c := by rw [core, core, cores5, cores2]
  refine ⟨by simp [holdMangle, clearMangle, core_u], by simp [holdMangle], ?_, ?_, mem5.trans mem2, die5.trans die2⟩
  · simp [holdMangle, clearMangle, cmdQueue, part5, part2, fgetD_fput_other]
  · simp [holdMangle, clearMangle, part_modPart_other, ne, others5, others2]

/-- Settles O40: who becomes due and whose window ends, the pass of the issue (`exec_issuePass`, `exec_issuePass_idle`), the rank of candidates, and the taking of
the mangle (`takeMangle_takes`). -/
theorem issueAndManglePass : Obligations.IssueAndManglePass := by
  unfold Obligations.IssueAndManglePass
  refine ⟨fun s p full without due long => ?_, fun s p opened past => ?_, fun s p q issue full entering test flagged now pick => ?_, fun s c q idle pick => ?_,
    fun s l b e => ⟨bestOf_mem e, levelOf_le_bestOf e⟩, fun s p h may holder => ?_⟩
  · refine congrArg Host.Outcome.next (if_pos ⟨full, ?_, ?_, long⟩)
    · rw [without]; decide
    · rw [due]; decide
  · exact congrArg Host.Outcome.next (if_pos ⟨opened, past⟩)
  · obtain ⟨ne, same⟩ := passTo_sibling pick
    obtain ⟨⟨core, due, window, mem, time⟩, lost⟩ := issueTaken_takes (s := s) ne
    obtain ⟨queues, left⟩ := loseIssue_part s p (decide (levelOf s p < levelOf s q))
    rw [left] at lost
    rw [same] at core
    have keeps : let t := issueTaken s p q
        (part t p).issueLost = s.time ∧ (part t p).preempted = decide (levelOf s p < levelOf s q) ∧ (part t p).windowEnd = 0 ∧ (part t p).pc = (part s p).pc ∧
        (part t p).regs = (part s p).regs ∧ (part t p).loops = (part s p).loops ∧ (part t p).tokens = (part s p).tokens ∧ t.mem = s.mem := by
      simp only [lost, mem, and_self]
    refine ⟨_, exec_issuePass issue full entering test flagged now pick, ?_⟩
    split
    next => exact ⟨by rw [issue_issueNow, core], ne, same, due, fun _ => time ▸ nextIssue_issueNow .., window, keeps⟩
    next free => exact ⟨by rw [core], ne, same, due, fun holds => absurd holds free, window, keeps⟩
  · obtain ⟨rfl, passed⟩ := exec_issuePass_idle idle pick
    have taken := takeIssue_takes s q
    exact ⟨_, passed, by rw [taken.core], taken.due, taken.mem⟩
  · obtain ⟨core, lost, queue, taker, mem, die⟩ := takeMangle_takes may holder
    exact ⟨_, rfl, by rw [core], by rw [core], by rw [core], by rw [core], lost, by rw [queue], by rw [queue], by rw [taker], by rw [core], mem, die⟩

end Sys2Proof.Machine.Proofs
end

section
/-! PROOFS. Link tile queues (R159, R160, R321 to R323), and what arrives by Ethernet (R325, R327, R328). -/

namespace Sys2Proof.Machine.Proofs

open Sys2Proof Sys2Proof.Machine Sys2Proof.Machine.Safety Sys2Proof.Machine.Laws

/-! ## Tiles, credits and binds (R159, R160, R321) -/

/-- An update of a link tile queue goes by what it makes of the queue as it stands. -/
theorem modLink_eq {s : State} {c n : Nat} {l : LinkQueue} {f g : LinkQueue → LinkQueue} (link : fgetD (core s c).links n {} = l) (same : f l = g l) :
    modLink s c n f = modLink s c n g := by
  simp only [modLink, modCore, link, same]

theorem expects_eq {l : LinkQueue} (bound : l.bound = true) : l.expects = (!l.send && l.paired && decide (l.tiles.length < 4)) := by
  rw [LinkQueue.expects, bound]; rfl

section
variable {s : State} {c n : Nat} {l : LinkQueue} (link : fgetD (core s c).links n {} = l)
include link

/-- A tile of the binding that stands joins a queue that expects it; any other queue discards it. -/
theorem exec_linkTileArrival_fresh (working : l.failed = false) (codes scales : List Nat) (fresh : l.stale = []) :
    (l.expects = true → exec (.linkTileArrival c n codes scales) s = .next (modLink s c n fun l => { l with tiles := l.tiles ++ [tileOf l.ty codes scales], heldSince := none })) ∧
    (l.expects = false → exec (.linkTileArrival c n codes scales) s = .next s) := by
  have arrives : exec (.linkTileArrival c n codes scales) s = .next (if l.expects ∧ ¬l.failed then modLink s c n fun l => l.takeTile codes scales else s) := by
    refine congrArg Host.Outcome.next ?_
    simp only [tileArrives, link, fresh, if_true]
  refine ⟨fun live => ?_, fun idle => ?_⟩
  · rw [arrives, if_pos ⟨live, by rw [working]; decide⟩]
    exact congrArg Host.Outcome.next (modLink_eq link (by simp only [LinkQueue.takeTile, fresh, List.filter_nil]))
  · rw [arrives, if_neg (fun live => by rw [idle] at live; exact absurd live.1 (by decide))]

/-- While tiles to ended bindings may be under way, a free value says to which binding the one that arrives was sent. -/
theorem exec_linkTileArrival_stale (working : l.failed = false) (codes scales : List Nat) (old : l.stale ≠ []) : let k := Sys2Proof.Config.oldTile s.nextSeq
    exec (.linkTileArrival c n codes scales) s = .next (modLink { s with nextSeq := s.nextSeq + 1 } c n fun _ =>
      if l.expects = true ∧ l.stale.length ≤ k then l.takeTile codes scales else l.dropOld (k % l.stale.length)) := by
  intro k
  have link' : fgetD (core { s with nextSeq := s.nextSeq + 1 } c).links n {} = l := link
  refine congrArg Host.Outcome.next ?_
  simp only [tileArrives, link, if_neg old]
  by_cases new : l.expects = true ∧ l.stale.length ≤ k
  · rw [if_pos new, if_pos ⟨new.1, by rw [working]; decide⟩]
    exact modLink_eq link' (if_pos new).symm
  · rw [if_neg new]
    exact modLink_eq link' (if_neg new).symm

theorem exec_ltqCredit (bound : l.bound = true) (working : l.failed = false) (send : l.send = true) (paired : l.paired = true) :
    exec (.ltqCredit c n) s = .next (modLink s c n fun l => { l with credits := min (l.credits + 1) 4, heldSince := none }) := by
  refine congrArg Host.Outcome.next ?_
  simp only [creditArrives, link]
  exact if_pos ⟨bound, send, paired, by rw [working]; decide⟩

end

/-- What a queue keeps of announcements once another one has come in. -/
def offersWith (l : LinkQueue) (dev pc pn ty : Nat) (send : Bool) : List (Nat × Nat × Nat × Nat × Bool) :=
  (dev, pc, pn, ty, send) :: l.offers.filter fun o => o.1 != dev || o.2.1 != pc || o.2.2.1 != pn

/-- Only the last announcement of a peer counts. -/
theorem matched_offersWith {l : LinkQueue} (bound : l.bound = true) (ty : Nat) (send : Bool) :
    { l with offers := offersWith l l.peerDev l.peerCore l.peerQueue ty send }.matched = decide (ty = l.ty ∧ send = !l.send) := by
  have older : ¬(l.peerDev, l.peerCore, l.peerQueue, l.ty, !l.send) ∈ l.offers.filter fun o => o.1 != l.peerDev || o.2.1 != l.peerCore || o.2.2.1 != l.peerQueue := by
    simp [List.mem_filter]
  rw [Bool.eq_iff_iff]
  simp only [LinkQueue.matched, bound, offersWith, Bool.true_and, List.contains_iff_mem, List.mem_cons, or_iff_left older, Prod.mk.injEq, true_and, decide_eq_true_eq]
  tauto

section
variable {s : State} {c n : Nat} {l : LinkQueue} (link : fgetD (core s c).links n {} = l)
include link

/-- A bind packet from another peer than the binding's is kept, and does no more. -/
theorem exec_ltqBindPacket_other {dev pc pn : Nat} (ty : Nat) (send : Bool) (other : dev ≠ l.peerDev ∨ pc ≠ l.peerCore ∨ pn ≠ l.peerQueue) :
    exec (.ltqBindPacket c n dev pc pn ty send) s = .next (modLink s c n fun l => { l with offers := offersWith l dev pc pn ty send }) := by
  refine congrArg Host.Outcome.next (modLink_eq link (if_neg ?_))
  rintro ⟨-, -, rfl, rfl, rfl⟩
  simp at other

variable (bound : l.bound = true) (working : l.failed = false)
include bound working

theorem exec_ltqBindPacket_peer (ty : Nat) (send : Bool) :
    exec (.ltqBindPacket c n l.peerDev l.peerCore l.peerQueue ty send) s =
      .next (modLink s c n fun l => { l with offers := offersWith l l.peerDev l.peerCore l.peerQueue ty send }.bindAnew) :=
  congrArg Host.Outcome.next (modLink_eq link (if_pos ⟨bound, by rw [working]; decide, rfl, rfl, rfl⟩))

/-- A bind packet from the peer that the binding names, with its type and the opposite direction, binds the pair anew. -/
theorem exec_ltqBindPacket_matching :
    exec (.ltqBindPacket c n l.peerDev l.peerCore l.peerQueue l.ty (!l.send)) s = .next (modLink s c n fun k => { k with
      offers := offersWith l l.peerDev l.peerCore l.peerQueue l.ty (!l.send), paired := true, credits := if k.send then 4 else 0, tiles := [], halfUsed := 0,
      heldSince := if k.send then none else k.heldSince }) := by
  rw [exec_ltqBindPacket_peer link bound working]
  exact congrArg Host.Outcome.next (modLink_eq link (if_pos (by rw [matched_offersWith bound]; simp)))

/-- One of another type or of the same direction leaves it unpaired. -/
theorem exec_ltqBindPacket_differing {ty : Nat} {send : Bool} (differs : ty ≠ l.ty ∨ send = l.send) :
    exec (.ltqBindPacket c n l.peerDev l.peerCore l.peerQueue ty send) s = .next (modLink s c n fun k => { k with
      offers := offersWith l l.peerDev l.peerCore l.peerQueue ty send, paired := false }) := by
  rw [exec_ltqBindPacket_peer link bound working]
  refine congrArg Host.Outcome.next (modLink_eq link (if_neg ?_))
  rw [matched_offersWith bound, decide_eq_true_eq]
  rintro ⟨same, opposite⟩
  rcases differs with other | same'
  · exact other same
  · rw [opposite] at same'; exact absurd same' (by cases l.send <;> decide)

end

/-! ## Time-outs (R165, R322, R323) -/

theorem engineTrap_keeps (s : State) (c : Cmd) (cause : Nat) : (∀ k, core (engineTrap s c cause) k = core s k) ∧ (engineTrap s c cause).mem = s.mem := by
  unfold engineTrap
  extract_lets p k t u
  have dropped : (∀ k, core t k = core s k) ∧ t.mem = s.mem := by
    unfold t
    split
    next r _ =>
      obtain ⟨quarters, drop⟩ := foldl_dropLeave p [r] s
      rw [List.foldl_cons, List.foldl_nil] at drop
      rw [drop]; exact ⟨fun _ => rfl, rfl⟩
    · exact ⟨fun _ => rfl, rfl⟩
  exact dropped

/-- The end of holds changes no queue on which nothing holds. -/
theorem foldl_endHold_keeps (c : Nat) (qs : List Nat) (s : State) : let t := qs.foldl (endHold c) s
    t.mem = s.mem ∧ ∀ n, (fgetD (core s c).links n {}).heldSince = none → fgetD (core t c).links n {} = fgetD (core s c).links n {} := by
  induction qs generalizing s with
  | nil => exact ⟨rfl, fun _ _ => rfl⟩
  | cons q qs ih =>
    have one (n : Nat) (free : (fgetD (core s c).links n {}).heldSince = none) : fgetD (core (endHold c s q) c).links n {} = fgetD (core s c).links n {} := by
      by_cases same : n = q
      · subst same
        rw [endHold, modLink, core_modCore, fgetD_fput_same]
        generalize fgetD (core s c).links n {} = l at free ⊢
        cases l; cases free; rfl
      · rw [endHold, modLink, core_modCore, fgetD_fput_other _ _ _ same]
    obtain ⟨mem, rest⟩ := ih (endHold c s q)
    exact ⟨mem, fun n free => (rest n (by rw [one n free]; exact free)).trans (one n free)⟩

/-- The stop of a nest changes no link tile queue on which nothing holds. -/
theorem stopNest_keeps (s : State) (c : Nat) (m : Nest) (cause : Nat) : let t := stopNest s c m cause
    t.mem = s.mem ∧ ∀ n, (fgetD (core s c).links n {}).heldSince = none → fgetD (core t c).links n {} = fgetD (core s c).links n {} := by
  obtain ⟨mem, links⟩ := foldl_endHold_keeps c (sourceLinks m) s
  unfold stopNest
  extract_lets t u v
  have stopped : u.mem = s.mem ∧ ∀ n, (fgetD (core s c).links n {}).heldSince = none → fgetD (core u c).links n {} = fgetD (core s c).links n {} :=
    ⟨mem, fun n free => by rw [← links n free, core_modCore]⟩
  simp only [v]
  split
  · obtain ⟨cores, kept⟩ := engineTrap_keeps u m.cmd cause
    rw [cores]
    exact ⟨kept.trans stopped.1, stopped.2⟩
  · exact stopped

section
variable {s : State} {c n : Nat} {l : LinkQueue} (link : fgetD (core s c).links n {} = l) {since : Nat} (held : l.heldSince = some since)
include link held

theorem exec_ltqTimeout_early (early : s.time < since + max 1 (mgetN s 0 regLtqTimeout % 2 ^ 32) * 1250) : exec (.ltqTimeout c n) s = .next s := by
  refine congrArg Host.Outcome.next ?_
  simp only [linkTimesOut, link, held]
  exact if_pos early

variable (late : since + max 1 (mgetN s 0 regLtqTimeout % 2 ^ 32) * 1250 ≤ s.time)
include late

/-- A hold that nothing stands at any more just ends. -/
theorem exec_ltqTimeout_idle (epi : (core s c).epi = none) (nest : (core s c).nest = none) :
    exec (.ltqTimeout c n) s = .next (modLink s c n fun l => { l with heldSince := none }) := by
  refine congrArg Host.Outcome.next ?_
  simp only [linkTimesOut, link, held, acPerUs, if_neg late.not_gt, epi, nest, linkTimesOut.popFails]
  rfl

/-- A pop or push that has held too long fails its queue. -/
theorem exec_ltqTimeout_fails (stands : ((core s c).epi = none ∧ ∃ m, (core s c).nest = some m ∧ (waitingLinks (core s c) m).contains n = true) ∨
      (l.send = true ∧ ∃ e, (core s c).epi = some e ∧ e.nest.epiDest = 2 ∧ nfld e.nest.epiWord 9 4 = n)) :
    ∃ t, exec (.ltqTimeout c n) s = .next t ∧ fgetD (core t c).links n {} = { l with failed := true, heldSince := none } ∧ t.mem = s.mem := by
  have stops (u : State) (m : Nest) (queue : fgetD (core u c).links n {} = { l with failed := true, heldSince := none }) (mem : u.mem = s.mem) :
      fgetD (core (stopNest u c m 0x0E) c).links n {} = { l with failed := true, heldSince := none } ∧ (stopNest u c m 0x0E).mem = s.mem := by
    obtain ⟨kept, links⟩ := stopNest_keeps u c m 0x0E
    exact ⟨(links n (by rw [queue])).trans queue, kept.trans mem⟩
  have failed : fgetD (core (modLink s c n fun l => { l with failed := true, heldSince := none }) c).links n {} = { l with failed := true, heldSince := none } := by
    rw [modLink, core_modCore, fgetD_fput_same, link]
  rcases stands with ⟨epi, m, nest, waits⟩ | ⟨send, e, epi, dest, queue⟩
  · refine ⟨_, congrArg Host.Outcome.next ?_, stops _ m failed rfl⟩
    simp only [linkTimesOut, link, held, acPerUs, if_neg late.not_gt, epi, nest, linkTimesOut.popFails, waits, if_true]
  · refine ⟨_, congrArg Host.Outcome.next ?_, stops (modCore (modLink s c n fun l => { l with failed := true, heldSince := none }) c fun x => { x with epi := none }) e.nest ?_ rfl⟩
    · simp only [linkTimesOut, link, held, acPerUs, if_neg late.not_gt, epi, dest, queue, send, and_self, if_true]
    · rw [core_modCore]; exact failed

end

/-! ## Ethernet arrivals (R325, R327, R328) -/

/-- The address space of Ethernet arrivals (log entry 164). -/
def ethCtx (s : State) (a : Nat) : Ctx := queueCtx (nfld a 46 2) (mgetN s 0 (regDev 0x380) % 2 ^ 16)

theorem rxTested_untested {s : State} (untested : slicesTested s = []) (e off n : Nat) : rxTested s e off n = false := by
  simp [rxTested, waitsHome_untested untested]

section
variable {s u : State} {base : Nat} {bytes : List Byte} (made : writeVa s (ethCtx s base) base bytes 0 = (u, .ok ())) (live : (retestRings u).capture = false)
include made live

theorem ethPlace_plain : ethPlace s base 0 bytes = ethAnswer (retestRings u) 0 := by
  rw [ethCtx] at made
  simp only [ethPlace, made, captureWrite_uncaptured live, if_true]

theorem ethPlace_counted {bar : Nat} {w : State} {old : W64} (counts : bar ≠ 0)
    (added : performOp (retestRings u) (ethCtx s bar) bar (.barrierAdd bytes.length) 0 = (w, .ok old)) (live' : w.capture = false) :
    ethPlace s base bar bytes = ethAnswer w 0 := by
  rw [ethCtx] at made added
  simp only [ethPlace, made, captureWrite_uncaptured live, if_neg counts, added, captureArrival_uncaptured live']

end

/-- An RMA write inside its entry is placed there. -/
theorem exec_ethRmaWrite_inside {s : State} {entry off : Nat} {bytes : List Byte} (low : entry < 256) (used : nfld (mgetN s 0 (regRx entry 1)) 0 32 ≠ 0)
    (inside : off + bytes.length ≤ nfld (mgetN s 0 (regRx entry 1)) 0 32) (untested : slicesTested s = []) :
    exec (.ethRmaWrite entry off bytes 0) s = .next (ethPlace s (mgetN s 0 (regRx entry 0) + off) (mgetN s 0 (regRx entry 2)) bytes) := by
  refine congrArg Host.Outcome.next ?_
  simp only [rmaArrives, ne_eq, not_true_eq_false, if_false, rxTested_untested untested, Bool.false_eq_true]
  exact if_neg (by omega)

/-- What a message that is cut to the length of its entry tells its sender (R328). -/
def toldCut (s : State) (cut : Prop) [Decidable cut] : State := if cut then ethAnswer (ethDrop s) 2 else s

/-- The report of a cut message changes no register but `eth.drop`. -/
theorem mgetN_toldCut (s : State) (cut : Prop) [Decidable cut] {off : Nat} (h : mkey 0 off ≠ mkey 0 regEthDrop) : mgetN (toldCut s cut) 0 off = mgetN s 0 off := by
  unfold toldCut
  split
  · have answered (t : State) (k : Nat) : mgetN (ethAnswer t k) 0 off = mgetN t 0 off := rfl
    rw [answered, ethDrop, mbump]
    split
    · rfl
    · rw [mgetN, mget_mset_other _ _ h]; rfl
  · rfl

/-- An untagged send goes to the lowest armed entry, cut to its length. -/
theorem exec_ethUntaggedSend_armed {s : State} {e : Nat} {bytes : List Byte} (low : e < 256) (armed : nbit (mgetN s 0 (regRx e 1)) 63 = true)
    (lowest : ∀ k, k < e → nbit (mgetN s 0 (regRx k 1)) 63 = false) (untested : slicesTested s = []) :
    let len := nfld (mgetN s 0 (regRx e 1)) 0 32
    let told := toldCut s (len < bytes.length)
    exec (.ethUntaggedSend bytes 0) s = .next (mset (ethPlace told (mgetN s 0 (regRx e 0)) (mgetN s 0 (regRx e 2)) (bytes.take len)) 0 (regRx e 1) (w64 len)) := by
  intro len told
  have found : (List.range 256).find? (fun e => nbit (mgetN s 0 (regRx e 1)) 63) = some e := by
    rw [List.find?_range_eq_some]
    exact ⟨armed, List.mem_range.2 low, fun k below => by rw [lowest k below]; rfl⟩
  have entry (r : Nat) : mgetN told 0 (regRx e r) = mgetN s 0 (regRx e r) := mgetN_toldCut s _ (by simp only [mkey, regRx, regEthDrop]; omega)
  rw [← entry 0, ← entry 2]
  refine congrArg Host.Outcome.next ?_
  simp only [sendArrives, found, ne_eq, not_true_eq_false, if_false, rxTested_untested untested, Bool.false_eq_true]
  rfl

theorem exec_ethUntaggedSend_unarmed {s : State} (bytes : List Byte) (unarmed : ∀ k, k < 256 → nbit (mgetN s 0 (regRx k 1)) 63 = false) :
    exec (.ethUntaggedSend bytes 0) s = .next (ethAnswer (ethDrop s) 3) := by
  have found : (List.range 256).find? (fun e => nbit (mgetN s 0 (regRx e 1)) 63) = none :=
    List.find?_eq_none.2 fun k mem => by rw [unarmed k (List.mem_range.1 mem)]; decide
  refine congrArg Host.Outcome.next ?_
  simp only [sendArrives, found, ne_eq, not_true_eq_false, if_false]

/-- Settles O44: tiles, credits and binds at a queue that is bound and has not failed, its time-outs (`exec_ltqTimeout_fails`), and Ethernet arrivals by way of `ethPlace`. -/
theorem linkQueuesAndEthernetArrivals : Obligations.LinkQueuesAndEthernetArrivals := by
  unfold Obligations.LinkQueuesAndEthernetArrivals
  refine ⟨fun s c n => ?_, fun s u entry off feature bytes => ?_, fun s u bytes e => ?_⟩
  · intro l bound working live k
    have expects : l.expects = live := expects_eq bound
    refine ⟨fun codes scales fresh accepts => (exec_linkTileArrival_fresh rfl working codes scales fresh).1 (expects.trans accepts),
      fun codes scales fresh refuses => (exec_linkTileArrival_fresh rfl working codes scales fresh).2 (expects.trans refuses),
      fun codes scales old => ⟨_, exec_linkTileArrival_stale rfl working codes scales old, ?_⟩, fun send paired => exec_ltqCredit rfl bound working send paired,
      fun dev pc pn ty send => ⟨?_, ?_, fun other => exec_ltqBindPacket_other rfl ty send other⟩, fun at_ held => ⟨fun early => exec_ltqTimeout_early rfl held early,
      fun late epi nest => exec_ltqTimeout_idle rfl held late epi nest, fun late stands => exec_ltqTimeout_fails rfl held late stands⟩⟩
    · change if live = true ∧ l.stale.length ≤ k then (if l.expects = true ∧ l.stale.length ≤ k then l.takeTile codes scales else l.dropOld (k % l.stale.length)) = _ else _
      rw [expects]
      split
      · rfl
      · exact ⟨dropOld_rest l _, fun e got => by rw [LinkQueue.dropOld, List.modify_eq_set_getElem?, got]; rfl⟩
    · rintro rfl rfl rfl rfl rfl
      exact exec_ltqBindPacket_matching rfl bound working
    · rintro rfl rfl rfl differs
      exact exec_ltqBindPacket_differing rfl bound working differs
  · intro base len bar ctx
    refine ⟨fun unsupported => congrArg Host.Outcome.next (if_pos unsupported), ?_, ?_⟩
    · rintro rfl outside
      refine congrArg Host.Outcome.next ?_
      simp only [rmaArrives, ne_eq, not_true_eq_false, if_false]
      exact if_pos outside
    · rintro rfl low used inside untested made live
      rw [exec_ethRmaWrite_inside low used inside untested]
      refine ⟨fun none => ?_, fun counts w old added live' => ?_⟩
      · rw [show mgetN s 0 (regRx entry 2) = 0 from none, ethPlace_plain made live]
      · rw [ethPlace_counted made live counts added live']
  · intro len ctx told
    refine ⟨fun feature unsupported => congrArg Host.Outcome.next (if_pos unsupported), exec_ethUntaggedSend_unarmed bytes,
      fun low armed lowest plain untested made live => ?_⟩
    have space (a : Nat) : ethCtx told a = ctx a := by
      rw [ethCtx, show mgetN told 0 (regDev 0x380) = mgetN s 0 (regDev 0x380) from mgetN_toldCut s _ (by decide)]
    rw [exec_ethUntaggedSend_armed low armed lowest untested, plain, ethPlace_plain (u := u) ?_ live]
    exact (space _).symm ▸ made

end Sys2Proof.Machine.Proofs
end

section
/-! PROOFS. The work of the engines on matrices and tables (R139 to R191): the clause on a row of the Darner (R184, R185). -/

namespace Sys2Proof.Machine.Proofs

open Sys2Proof Sys2Proof.Machine Sys2Proof.Machine.Safety Sys2Proof.Machine.Laws

/-- A write of a Darner command of partition 1 to the first row of the page of `heldPage`, as it stands in a side log (R185, R300). -/
def pendingUpdate : SideEntry :=
  { ctx := { part := 1, agent := .darner, asid := 0, view := 0, job := 0 }, va := pageVa, op := .bytes (leBytes 4 7), hint := 3, seq := 1, reg := none, kind := 5,
    seen := 0, cont := false }

/-- The page is mapped, and an earlier update of its first row is not over. -/
def rowPending : State := { State.reset with tags := { large := [heldPage] }, cores := [(0, { sideLog := [pendingUpdate] })] }

/-- The request of partition 0 for row 0 of a table at `pageVa`, one FP32 element a row and one row: index 0, gradient 0, parameters 0. -/
def rowUpdate : Run :=
  { cmd :=
      { id := 2
        instr := .dupd unflagged 0 0 1 1 0 0 1
        vals := [w64 pageVa, 0x100000000, 0, 0, 0, 0, 0]
        pc := 0
        word0 := 0
        word1 := 0
        seed := 0
        workid := 0
        ctx := { part := 0, agent := .darner, asid := 0, view := 0, job := 0 }
        record := 0
        held := [leBytes 4 0, leBytes 4 0, leBytes 32 0] }
    count := 0
    state := .waiting
    tookLeave := false
    lost := false
    added := false
    step := 0
    rows := [] }

/-- The table of `rowUpdate`. -/
def oneRow : TableWord := tableOf 0x100000000

/-- The read of the row, which the master answers. -/
def rowRead : Except Stop (Nat × List Byte) × State := (readRow rowUpdate.cmd.ctx false (w64 pageVa) oneRow 0).go rowPending

theorem rowRead_ok : rowRead = (.ok (0x10000000, leBytes 4 0), rowRead.2) := by
  have h : (match rowRead.1 with | .ok x => x == (0x10000000, leBytes 4 0) | .error _ => false) = true := by decide +kernel
  generalize rowRead = x at h
  obtain ⟨_ | _, u⟩ := x
  · cases h
  · rw [eq_of_beq h]

/-- The write of the unchanged row to the master. -/
def rowWrite : Except Stop Unit × State := (masterWrite (baseCtx rowUpdate.cmd.ctx) pageVa (leBytes 4 0) 2).go rowRead.2

theorem rowWrite_ok : rowWrite = (.ok (), rowWrite.2) := by
  have h : rowWrite.1.isOk = true := by decide +kernel
  generalize rowWrite = x at h
  obtain ⟨_ | ⟨⟩, u⟩ := x
  · cases h
  · rfl

/-- The update of the row waits for the one that stands in the side log. -/
theorem rowUpdate_waits : ((work 4 rowUpdate).go rowPending).1 = .error .wait := by decide +kernel

/-- Refutes O60 in the clause on `dupd`: no premise says that no other update of the row is under way. The row can be read and written, but the command waits while
a write of another Darner command to it stands in a side log (R185, log entry 155). -/
theorem not_engineWorkOfMatrixAndTables : ¬ Obligations.EngineWorkOfMatrixAndTables := by
  unfold Obligations.EngineWorkOfMatrixAndTables
  rintro ⟨-, tables, -⟩
  obtain ⟨-, -, -, -, -, update, -⟩ := tables unflagged 0 0 false false rowPending rowUpdate rfl rfl
  have done := update 1 0 1 (leBytes 4 0) (leBytes 4 0) (leBytes 32 0) rfl rfl (by decide) rfl (by decide) (by decide) rowRead.2 rowWrite.2 0x10000000 (leBytes 4 0)
    rowRead_ok rowWrite_ok
  have waits := rowUpdate_waits
  rw [done] at waits
  cases waits

end Sys2Proof.Machine.Proofs
end

section
/-! PROOFS. The written runs of a line, `wid`, and what `choose` finds at the arbiter (R195, R197, R346). -/

namespace Sys2Proof.Machine.Proofs

open Sys2Proof Sys2Proof.Machine Sys2Proof.Machine.Safety Sys2Proof.Machine.Laws

/-! ## The written runs of a line (R346) -/

/-- Whether byte `i` stands in a run, as the current bytes have it. -/
def RunHolds (cur : List Byte) (i : Nat) (r : Nat × List Byte) : Prop := r.1 ≤ i ∧ i < r.1 + r.2.length ∧ r.2.getD (i - r.1) 0 = cur.getD i 0

theorem runHolds_single (cur : List Byte) (i o : Nat) : RunHolds cur i (o, [cur.getD o 0]) ↔ i = o := by
  refine ⟨fun ⟨low, high, _⟩ => ?_, fun same => ?_⟩
  · simp only [List.length_singleton] at low high; omega
  · subst same; exact ⟨le_rfl, by simp, by simp⟩

/-- A run that starts at the next byte takes one more in front. -/
theorem runHolds_cons (cur bs : List Byte) (i o : Nat) : RunHolds cur i (o, cur.getD o 0 :: bs) ↔ i = o ∨ RunHolds cur i (o + 1, bs) := by
  unfold RunHolds
  rcases Nat.lt_trichotomy i o with below | same | above
  · constructor
    · rintro ⟨low, -⟩; omega
    · rintro (same | ⟨low, -⟩) <;> omega
  · subst same; simp
  · obtain ⟨k, rfl⟩ : ∃ k, i = o + 1 + k := ⟨i - (o + 1), by omega⟩
    have first : o + 1 + k - o = k + 1 := by omega
    have rest : o + 1 + k - (o + 1) = k := by omega
    simp only [first, rest, List.getD_cons_succ, List.length_cons]
    constructor
    · rintro ⟨-, high, same⟩; exact .inr ⟨by omega, by omega, same⟩
    · rintro (same | ⟨-, high, same⟩)
      · omega
      · exact ⟨by omega, by omega, same⟩

/-- The runs found from byte `128 - n` on hold exactly the written bytes from there on. -/
theorem maskRuns_holds_iff (mask : BitVec 128) (cur : List Byte) (i : Nat) (hi : i < 128) :
    ∀ n, n ≤ 128 → ((∃ r ∈ maskRuns mask cur n, RunHolds cur i r) ↔ 128 - n ≤ i ∧ mask.getLsbD i = true)
  | 0, _ => by simp [maskRuns]; omega
  | n + 1, hn => by
    have ih := maskRuns_holds_iff mask cur i hi n (by omega)
    have here : (128 - (n + 1) ≤ i ∧ mask.getLsbD i = true) ↔ (i = 127 - n ∧ mask.getLsbD (127 - n) = true) ∨ (128 - n ≤ i ∧ mask.getLsbD i = true) := by
      constructor
      · rintro ⟨low, set⟩
        by_cases own : i = 127 - n
        · exact .inl ⟨own, own ▸ set⟩
        · exact .inr ⟨by omega, set⟩
      · rintro (⟨own, set⟩ | ⟨low, set⟩)
        · exact ⟨by omega, own ▸ set⟩
        · exact ⟨by omega, set⟩
    rw [here, ← ih, maskRuns]
    by_cases set : mask.getLsbD (127 - n) = true
    · simp only [set, not_true_eq_false, if_false, and_true]
      cases runs : maskRuns mask cur n with
      | nil => simp only [List.exists_mem_cons_iff, runHolds_single]
      | cons r rest =>
        obtain ⟨o, bs⟩ := r
        dsimp only
        split
        next next => subst next; simp only [List.exists_mem_cons_iff, runHolds_cons, or_assoc]
        next => simp only [List.exists_mem_cons_iff, runHolds_single]
    · simp [set]

theorem getLsbD_iff_maskRuns (mask : BitVec 128) (cur : List Byte) {i : Nat} (hi : i < 128) : mask.getLsbD i = true ↔
    ∃ r ∈ maskRuns mask cur 128, r.1 ≤ i ∧ i < r.1 + r.2.length ∧ r.2.getD (i - r.1) 0 = cur.getD i 0 :=
  ((maskRuns_holds_iff mask cur i hi 128 le_rfl).trans (and_iff_right (Nat.zero_le i))).symm

/-! ## What the words find (R194 to R197) -/

section
variable {s : State} {h : Hdr} {regs : FMap (List W64)} {tokens : FMap Nat}

theorem cmdQueue_issued (p k : Nat) : cmdQueue (issued s h regs tokens) p k = cmdQueue s p k := by
  by_cases own : p = s.cur
  · subst own; simp [cmdQueue]
  · rw [cmdQueue, part_issued_other s h regs tokens own]; rfl

theorem drained_issued : drained (issued s h regs tokens) s.cur = drained s s.cur := by
  simp [drained, streamsDrained, cmdQueue_issued, writesPending, poolsWritten]

theorem forkOf_issued (v : Nat) : forkOf (issued s h regs tokens) v = forkOf s v := by simp [forkOf]

theorem exec_wid {d : Reg} (hi : Issues s h { dst := dstOf s d, ill := worldWordIll s false } [] regs tokens) :
    exec (.wid h d) s = .next (onward s h false 1 (fly (issued s h regs tokens) d (.ready (worldWord s s.cur)))) := by
  refine congrArg Host.Outcome.next (issueWord_next hi _ _ ?_)
  simp [worldWord]

/-- `choose` that has drained asks the arbiter (R195). -/
theorem exec_choose_asks (hi : Issues s h { ill := worldWordIll s true } [] regs tokens) (quiet : drained s s.cur = true) :
    (∀ u, arbitrate (issued s h regs tokens) s.cur = .wait u → exec (.choose h) s = .next (holdWord (countIgnored { s with forks := u.forks } h) s.cur h.stop)) ∧
    (∀ k va, arbitrate (issued s h regs tokens) s.cur = .blocked k va → exec (.choose h) s = .next (holdWord (countIgnored (holdFault s s.cur va 1 k) h) s.cur h.stop)) ∧
    (∀ u, arbitrate (issued s h regs tokens) s.cur = .done u → exec (.choose h) s = .next (departed s h u)) := by
  have ready : ¬ (¬ drained (issued s h regs tokens) s.cur = true ∨ ¬ (part (issued s h regs tokens) s.cur).pending.isEmpty = true) := by
    simp [drained_issued, quiet, hi.quiet]
  refine ⟨fun u verdict => congrArg Host.Outcome.next (issueWord_hold hi _ _ ?_), fun k va verdict => congrArg Host.Outcome.next (issueWord_hold hi _ _ ?_),
    fun u verdict => congrArg Host.Outcome.next (issueWord_away hi rfl rfl _ _ ?_)⟩
  all_goals rw [issued_cur, if_neg ready, verdict]

end

/-! ## The arbiter (R195) -/

section
variable {s : State} {p idx : Nat} {f : Fork} {w : View}

theorem arbitrate_asks (own : forkOf s (viewOf s p) = some (f, idx)) (view : fget s.views (viewOf s p) = some w) (free : f.logged = none)
    (undecided : f.winner = none) (new : f.asks.find? (fun a => a.1 == idx) = none) : arbitrate s p = .wait { s with
      forks := s.forks.map fun g => if g.parent = f.parent then { g with asks := g.asks ++ [(idx, s.time)] } else g } := by
  unfold arbitrate
  simp [own, view, free, undecided, new]

theorem arbitrate_lost (own : forkOf s (viewOf s p) = some (f, idx)) (view : fget s.views (viewOf s p) = some w) (free : f.logged = none)
    (won : f.winner.isSome = true) : arbitrate s p = .done (abandonRival s (viewOf s p)) := by
  unfold arbitrate
  simp [own, view, free, won]

theorem arbitrate_alone {t0 : Nat} (own : forkOf s (viewOf s p) = some (f, idx)) (view : fget s.views (viewOf s p) = some w) (free : f.logged = none)
    (undecided : f.winner = none) (alone : f.asks = [(idx, t0)]) (later : t0 < s.time) : arbitrate s p = commitNow s f idx (viewOf s p) p w := by
  unfold arbitrate
  simp [own, view, free, undecided, alone, later]

theorem commitNow_done (v : Nat) (untested : slicesTested s = []) (fits : (f.parentView = 0 ∧ commitBlocked s (ctxOf s p .control) w.lines = none) ∨
    (f.parentView ≠ 0 ∧ fget s.views f.parentView = none)) : commitNow s f idx v p w = .done (commitRival s f idx v p w) := by
  unfold commitNow
  rcases fits with ⟨base, clear⟩ | ⟨nested, gone⟩
  · simp [boxFits, base, clear, commitTested, untested]
  · simp [boxFits, nested, gone]

theorem commitNow_blocked (v : Nat) {k va : Nat} (base : f.parentView = 0) (stuck : commitBlocked s (ctxOf s p .control) w.lines = some (k, va)) :
    commitNow s f idx v p w = .blocked k va := by
  unfold commitNow
  simp [boxFits, base, stuck]

end

/-- What `choose` does once it has drained, by what the arbiter finds (R195). -/
theorem exec_choose {s : State} {h : Hdr} {regs : FMap (List W64)} {tokens : FMap Nat} {f : Fork} {idx : Nat} {w : View}
    (hi : Issues s h { ill := worldWordIll s true } [] regs tokens) (quiet : drained s s.cur = true)
    (own : forkOf s (viewOf s s.cur) = some (f, idx)) (view : fget s.views (viewOf s s.cur) = some w) (free : f.logged = none) :
    (f.winner = none → f.asks.find? (fun a => a.1 == idx) = none → exec (.choose h) s = .next (holdWord (countIgnored { s with
      forks := s.forks.map fun g => if g.parent = f.parent then { g with asks := g.asks ++ [(idx, s.time)] } else g } h) s.cur h.stop)) ∧
    (∀ t0, f.winner = none → f.asks = [(idx, t0)] → t0 < s.time → slicesTested s = [] →
      (f.parentView = 0 ∧ commitBlocked (issued s h regs tokens) (ctxOf (issued s h regs tokens) s.cur .control) w.lines = none) ∨ (f.parentView ≠ 0 ∧ fget s.views f.parentView = none) →
      exec (.choose h) s = .next (departed s h (commitRival (issued s h regs tokens) f idx (viewOf s s.cur) s.cur w))) ∧
    (∀ t0 k va, f.winner = none → f.asks = [(idx, t0)] → t0 < s.time → f.parentView = 0 →
      commitBlocked (issued s h regs tokens) (ctxOf (issued s h regs tokens) s.cur .control) w.lines = some (k, va) →
      exec (.choose h) s = .next (holdWord (countIgnored (holdFault s s.cur va 1 k) h) s.cur h.stop)) ∧
    (f.winner.isSome = true → exec (.choose h) s = .next (departed s h (abandonRival (issued s h regs tokens) (viewOf s s.cur)))) := by
  obtain ⟨waits, blocked, done⟩ := exec_choose_asks hi quiet
  have ownI : forkOf (issued s h regs tokens) (viewOf (issued s h regs tokens) s.cur) = some (f, idx) := by rw [viewOf_issued, forkOf_issued, own]
  have viewI : fget (issued s h regs tokens).views (viewOf (issued s h regs tokens) s.cur) = some w := by rw [viewOf_issued, issued_views, view]
  refine ⟨fun undecided new => ?_, fun t0 undecided alone later untested fits => ?_, fun t0 k va undecided alone later base stuck => ?_, fun won => ?_⟩
  · refine (waits _ (arbitrate_asks ownI viewI free undecided new)).trans ?_
    rw [issued_forks, issued_time]
  · have verdict := (arbitrate_alone ownI viewI free undecided alone (by rwa [issued_time])).trans
      (commitNow_done _ (by rwa [slicesTested_issued]) (by rwa [issued_views]))
    rw [viewOf_issued] at verdict
    exact done _ verdict
  · exact blocked k va ((arbitrate_alone ownI viewI free undecided alone (by rwa [issued_time])).trans (commitNow_blocked _ base stuck))
  · have verdict := arbitrate_lost ownI viewI free won
    rw [viewOf_issued] at verdict
    exact done _ verdict

end Sys2Proof.Machine.Proofs
end

section
/-! PROOFS. What a write of base memory leaves of the worlds: views, forks, who is resident, and the records that sleep unwatched (R60, R215, R392). -/

namespace Sys2Proof.Machine.Proofs

open Sys2Proof Sys2Proof.Machine Sys2Proof.Machine.Safety Sys2Proof.Machine.Laws

theorem quarter_modQuarter_other (s : State) {q r : Nat} (f : Quarter → Quarter) (h : r ≠ q) : quarter (modQuarter s q f) r = quarter s r := by
  simp [quarter, modQuarter, fgetD_fput_other _ _ _ h]

/-! ## What wakes no sleeping record -/

/-- Views, forks and residents stay, no monitor is added, and only records of `W` may leave the suspended ones or change there. -/
structure Spares (W : Nat → Prop) (s t : State) : Prop where
  views : t.views = s.views
  forks : t.forks = s.forks
  residents : ∀ p, (part t p).resident = (part s p).resident
  monitors : ∀ m ∈ t.monitors, m ∈ s.monitors
  asleep : ∀ q u, ¬ W u.addr → u ∈ (quarter s q).suspended → u ∈ (quarter t q).suspended

/-- The records that monitors may wake are all of `W`. -/
def Watches (W : Nat → Prop) (s : State) : Prop := ∀ m ∈ s.monitors, ∀ a, m.owner = .record a → W a

variable {W : Nat → Prop}

namespace Spares

theorem rfl (s : State) : Spares W s s := ⟨Eq.refl _, Eq.refl _, fun _ => Eq.refl _, fun _ h => h, fun _ _ _ h => h⟩

theorem trans {s t u : State} (h : Spares W s t) (k : Spares W t u) : Spares W s u :=
  ⟨k.views.trans h.views, k.forks.trans h.forks, fun p => (k.residents p).trans (h.residents p), fun m hm => h.monitors m (k.monitors m hm),
    fun q u awake hu => k.asleep q u awake (h.asleep q u awake hu)⟩

theorem watches {s t : State} (h : Spares W s t) (w : Watches W s) : Watches W t := fun m hm => w m (h.monitors m hm)

theorem of_fields {s t : State} (views : t.views = s.views) (forks : t.forks = s.forks) (parts : t.parts = s.parts) (monitors : t.monitors = s.monitors)
    (quarters : t.quarters = s.quarters) : Spares W s t :=
  ⟨views, forks, fun p => by rw [part_of_parts parts], fun m hm => monitors ▸ hm, fun q u _ hu => by unfold quarter at hu ⊢; rwa [quarters]⟩

theorem of_read {s t : State} (same : SameButRead s t) : Spares W s t := by
  obtain ⟨b, f, d, g, e, q, l, n, m, same⟩ := same
  subst same
  exact of_fields (Eq.refl _) (Eq.refl _) (Eq.refl _) (Eq.refl _) (Eq.refl _)

theorem fst {α : Type} {s t : State} {a : α} {x : State × α} (h : Spares W s x.1) (made : x = (t, a)) : Spares W s t := by rw [made] at h; exact h

theorem foldl {α : Type} {f : State → α → State} (spares : ∀ s a, Spares W s (f s a)) (l : List α) (s : State) : Spares W s (l.foldl f s) := by
  induction l generalizing s with
  | nil => exact rfl s
  | cons a l ih => exact (spares s a).trans (ih _)

theorem modPart (s : State) (p : Nat) {f : Part → Part} (keeps : ∀ x, (f x).resident = x.resident) : Spares W s (modPart s p f) := by
  refine ⟨Eq.refl _, Eq.refl _, fun q => ?_, fun _ h => h, fun _ _ _ h => h⟩
  by_cases own : q = p
  · subst own; rw [part_modPart, keeps]
  · rw [part_modPart_other _ _ own]

theorem modCore (s : State) (c : Nat) (f : Core → Core) : Spares W s (modCore s c f) :=
  of_fields (Eq.refl _) (Eq.refl _) (Eq.refl _) (Eq.refl _) (Eq.refl _)

/-- A change of a quarter that leaves the records asleep that `W` does not name. -/
theorem modQuarter (s : State) (q : Nat) {f : Quarter → Quarter} (keeps : ∀ x : Quarter, ∀ u ∈ x.suspended, ¬ W u.addr → u ∈ (f x).suspended) :
    Spares W s (modQuarter s q f) := by
  refine ⟨Eq.refl _, Eq.refl _, fun _ => Eq.refl _, fun _ h => h, fun r u awake hu => ?_⟩
  by_cases own : r = q
  · subst own; rw [quarter_modQuarter]; exact keeps _ u hu awake
  · rwa [quarter_modQuarter_other _ _ own]

end Spares

section
open Spares

variable (s : State)

theorem mset_spares (q off : Nat) (v : W64) : Spares W s (mset s q off v) := of_fields rfl rfl rfl rfl rfl

/-! ## Memory (R75, R76) -/

theorem writeBack_same (sec : Nat) : SameButRead s (writeBack s sec) := by
  unfold writeBack
  repeat' split
  all_goals exact ⟨_, _, _, _, _, _, _, _, _, rfl⟩

theorem dropSector_same (sec : Nat) : SameButRead s (dropSector s sec) := ⟨_, _, _, _, _, _, _, _, _, rfl⟩

theorem releaseLine_same (line : Nat) : SameButRead s (releaseLine s line) := by
  unfold releaseLine
  split
  · exact SameButRead.rfl s
  · exact foldl_same (fun s i => (writeBack_same s _).trans (dropSector_same _ _)) _ s

theorem dropBehind_same (asid q off pte : Nat) : SameButRead s (dropBehind s asid q off pte) :=
  foldl_same (fun s _ => (tags_same s _).trans (releaseLine_same _ _)) _ s

theorem mendSector_same (pte pa : Nat) : SameButRead s (mendSector s pte pa) := by
  unfold mendSector; split
  · exact ⟨_, _, _, _, _, _, _, _, _, rfl⟩
  · exact SameButRead.rfl s

theorem writeBase_same (c : Ctx) (q off pte : Nat) (bs : List Byte) (hint : Nat) : SameButRead s (writeBase s c q off pte bs hint) := by
  have replicas (l : List Replica) (s : State) := foldl_same (fun s (r : Replica) => (mendSector_same s pte (r.place + leafPa pte off % 128)).trans
    ((keepBehind_same _ (r.place + leafPa pte off % 128)).trans (putSector_same _ (r.place + leafPa pte off % 128) bs 3))) l s
  exact (mendSector_same s _ _).trans ((dropBehind_same _ _ _ _ _).trans ((replicas _ _).trans
    ((keepBehind_same _ _).trans ((putSector_same _ _ _ _).trans (useLevels_same _ _ _ _ _ _ _)))))

theorem maintainLine_same (kind pa : Nat) : SameButRead s (maintainLine s kind pa) := by
  have back (s : State) (sec : Nat) : SameButRead s (if kind = 1 then s else writeBack s sec) := by
    split
    · exact SameButRead.rfl s
    · exact writeBack_same s sec
  unfold maintainLine
  extract_lets t
  have sectors : SameButRead s t := foldl_same (fun s i => by
    dsimp only
    by_cases keeps : kind = 0
    · simp only [keeps, if_true]; exact keeps ▸ back s _
    · simp only [keeps, if_false]; exact (back s _).trans (dropSector_same _ _)) _ s
  split
  · exact sectors
  · exact sectors.trans (tags_same t _)

theorem readHome_same (c : Ctx) (va n hint : Nat) : SameButRead s (readHome s c va n hint).1 := by
  unfold readHome
  split
  · split
    · split
      · exact noteLeaf_same _ _ _ _
      · split
        · exact (noteLeaf_same _ _ _ _).trans (readOverlay_same _ _ _ _ _ _ _ _ _)
        · exact (noteLeaf_same _ _ _ _).trans (readBase_same _ _ _ _ _ _ _)
    · exact SameButRead.rfl s
    · exact SameButRead.rfl s
  · exact SameButRead.rfl s

/-! ## Monitors and what they wake (R60, R215) -/

theorem unpick_spares (addr : Nat) : Spares W s (unpick s addr) := by
  refine ⟨rfl, rfl, fun p => ?_, fun _ h => h, fun _ _ _ h => h⟩
  unfold part fgetD unpick
  rw [fget_map_values (fun x : Part => if x.picking.map (·.1) = some addr then { x with picking := none } else x)]
  cases fget s.parts p with
  | none => rfl
  | some x =>
    rw [Option.map_some, Option.getD_some]
    split <;> rfl

theorem mem_replaceFirst_of_not {α : Type} {p : α → Bool} {g : α → α} {l : List α} {a : α} (h : a ∈ l) (skipped : p a = false) : a ∈ replaceFirst p g l := by
  induction l with
  | nil => cases h
  | cons b l ih =>
    rw [replaceFirst]
    rcases List.mem_cons.1 h with rfl | later
    · rw [skipped]; exact List.mem_cons_self
    · split
      · exact List.mem_cons_of_mem _ later
      · exact List.mem_cons_of_mem _ (ih later)

theorem recordReady_spares (q : Nat) {addr : Nat} (woken : W addr) : Spares W s (recordReady s q addr) := by
  have other {u : Suspended} (awake : ¬ W u.addr) : u.addr ≠ addr := fun same => awake (same ▸ woken)
  unfold recordReady
  split
  · split
    · exact (unpick_spares s addr).trans (Spares.modQuarter _ _ fun x u hu awake => List.mem_filter.2 ⟨hu, by simpa using other awake⟩)
    · split
      · exact Spares.rfl s
      · have waked : Spares W s (modQuarter s q fun x => { x with
            suspended := replaceFirst (fun r => r.addr == addr) (fun r => { r with wake := .ready }) x.suspended }) :=
          Spares.modQuarter s q fun x u hu awake => mem_replaceFirst_of_not hu (by simpa using other awake)
        dsimp only
        split
        · exact waked
        · exact waked.trans (Spares.modQuarter _ q fun _ _ hu _ => hu)
  · exact Spares.rfl s

theorem fireMonitor_spares {m : Monitor} (woken : ∀ a, m.owner = .record a → W a) : Spares W s (fireMonitor s m) := by
  have gone : Spares W s { s with monitors := s.monitors.filter (fun x => x.id != m.id) } :=
    ⟨rfl, rfl, fun _ => rfl, fun m hm => List.mem_of_mem_filter hm, fun _ _ _ h => h⟩
  unfold fireMonitor
  dsimp only
  split
  · exact gone.trans (Spares.modPart _ _ fun _ => rfl)
  next a owned => exact gone.trans (foldl (fun s q => recordReady_spares s q (woken a owned)) _ _)
  · exact gone.trans (of_fields rfl rfl rfl rfl rfl)

theorem fireLine_spares {s : State} (w : Watches W s) (pa : Nat) : Spares W s (fireLine s pa) := by
  have fired (l : List Monitor) (h : ∀ m ∈ l, ∀ a, m.owner = .record a → W a) (s : State) : Spares W s (l.foldl fireMonitor s) := by
    induction l generalizing s with
    | nil => exact Spares.rfl s
    | cons m l ih => exact (fireMonitor_spares s (h m List.mem_cons_self)).trans (ih (fun n hn => h n (List.mem_cons_of_mem m hn)) _)
  exact fired _ (fun m hm => w m (List.mem_of_mem_filter hm)) s

/-! ## Writes of base memory (R75, R80) -/

variable {s : State} {c : Ctx}

theorem writePiece_spares (w : Watches W s) (base : c.view = 0) (va : Nat) (bs : List Byte) (hint : Nat) (first : Bool) :
    Spares W s (writePiece s c va bs hint first).1 := by
  unfold writePiece
  split
  next q off here =>
    have leaf : Spares W s (noteLeaf s q c.asid off) := of_read (noteLeaf_same s q c.asid off)
    split
    · split
      · exact leaf
      next pte may =>
        have written := leaf.trans (of_read (writeBase_same (noteLeaf s q c.asid off) c q off pte bs hint))
        simp only [base, ne_eq, not_true_eq_false, if_false]
        exact written.trans (fireLine_spares (written.watches w) _)
    · dsimp only
      split
      · exact of_read (mbump_same s _ _ _)
      · exact Spares.rfl s
    · exact Spares.rfl s
    · exact Spares.rfl s
  · exact Spares.rfl s

theorem writePieces_spares (base : c.view = 0) (bs : List Byte) (hint va0 : Nat) : ∀ (ps : List (Nat × Nat)) {s : State}, Watches W s →
    Spares W s (writePieces s c bs hint va0 ps).1
  | [], s, _ => Spares.rfl s
  | x :: ps, s, w => by
    unfold writePieces
    split
    next made => exact (writePiece_spares w base _ _ _ _).fst made
    next t made =>
      have one := (writePiece_spares w base _ _ _ _).fst made
      exact one.trans (writePieces_spares base bs hint va0 ps (one.watches w))

theorem writeVa_spares (w : Watches W s) (base : c.view = 0) (va : Nat) (bs : List Byte) (hint : Nat) : Spares W s (writeVa s c va bs hint).1 :=
  writePieces_spares base bs hint va _ w

theorem atHome_spares (w : Watches W s) (base : c.view = 0) (va n : Nat) (f : List Byte → Option (List Byte)) : Spares W s (atHome s c va n f).1 := by
  have home : (homeCtx c va).view = 0 := by unfold homeCtx; split <;> exact base
  unfold atHome
  split
  · exact Spares.rfl s
  · split
    next made => exact fst (of_read (readHome_same s _ _ _ _)) made
    next t old made =>
      have read : Spares W s t := fst (of_read (readHome_same s _ _ _ _)) made
      split
      · split
        next made => exact read.trans ((writeVa_spares (read.watches w) home _ _ _).fst made)
        next made => exact read.trans ((writeVa_spares (read.watches w) home _ _ _).fst made)
      · rw [if_pos base]; exact read

theorem performBytes_spares (w : Watches W s) (base : c.view = 0) (va : Nat) (bs : List Byte) (hint : Nat) :
    Spares W s (performOp s c va (.bytes bs) hint).1 := by
  unfold performOp
  dsimp only
  split
  next made => exact (writeVa_spares w base va bs hint).fst made
  next made => exact (writeVa_spares w base va bs hint).fst made

theorem performAtomic_spares (w : Watches W s) (base : c.view = 0) (va : Nat) (op : AtomicOp) (x y : W64) (hint : Nat) :
    Spares W s (performOp s c va (.atomic op x y) hint).1 := by
  unfold performOp
  dsimp only
  split
  next made => exact (atHome_spares w base va _ _).fst made
  next made => exact (atHome_spares w base va _ _).fst made

/-! ## The side log (R300, R301) -/

variable (s)

theorem addEntry_spares (k : Nat) (e : SideEntry) : Spares W s (addEntry s k e) := by
  unfold addEntry
  dsimp only
  split
  · exact (of_read (physPut_same s _ _)).trans (Spares.modCore _ _ _)
  · exact Spares.modCore _ _ _

theorem pend_spares (p : Nat) (t : PendingTrap) : Spares W s (pend s p t) := Spares.modPart s p fun x => by split <;> rfl

theorem enterLog_spares (e : SideEntry) : Spares W s (enterLog s e) := by
  unfold enterLog
  dsimp only
  split
  · exact addEntry_spares s _ e
  · exact (of_fields rfl rfl rfl rfl rfl : Spares W s (setCore s _ _)).trans (pend_spares _ _ _)

theorem faultFor_spares (c : Ctx) (va acc kind : Nat) : Spares W s (faultFor s c va acc kind) := of_fields rfl rfl rfl rfl rfl

theorem retire_spares (e : SideEntry) : Spares W s (retire s e) := by
  unfold retire
  split
  · exact foldl (fun s _ => enterLog_spares s _) _ s
  · exact enterLog_spares s e

theorem enterHeld_spares (n k : Nat) : Spares W s (enterHeld n s k) := by
  induction n generalizing s with
  | zero => exact Spares.rfl s
  | succ n ih =>
    unfold enterHeld
    split
    · exact Spares.rfl s
    · split
      · exact (Spares.modCore s k _).trans ((addEntry_spares _ k _).trans (ih _))
      · exact Spares.rfl s

theorem dropEntries_spares (k : Nat) (pick : SideEntry → Bool) : Spares W s (dropEntries s k pick) :=
  (Spares.modCore s k _).trans (enterHeld_spares _ _ k)

variable {s}

/-- A write wakes no record that no monitor watches for, whether it is performed or retires into the side log. -/
theorem sendEntry_spares {e : SideEntry} (performed : Spares W s (performOp s e.ctx e.va e.op e.hint).1) : Spares W s (sendEntry s e).1 := by
  unfold sendEntry
  split
  · exact Spares.rfl s
  · split
    · exact retire_spares s e
    · split
      next made => exact performed.fst made
      next made => exact (performed.fst made).trans ((faultFor_spares _ _ _ _ _).trans (retire_spares _ _))
      next made => exact performed.fst made
      next made => exact performed.fst made

theorem sendBytes_spares (w : Watches W s) (base : c.view = 0) (va : Nat) (bs : List Byte) (hint acc seq : Nat) (reg : Option Nat) (cont : Bool) :
    Spares W s (sendWrite s c va (.bytes bs) hint acc seq reg cont).1 :=
  sendEntry_spares (performBytes_spares w base va bs hint)

theorem sendAtomic_spares (w : Watches W s) (base : c.view = 0) (va : Nat) (op : AtomicOp) (x y : W64) (hint acc seq : Nat) (reg : Option Nat) (cont : Bool) :
    Spares W s (sendWrite s c va (.atomic op x y) hint acc seq reg cont).1 :=
  sendEntry_spares (performAtomic_spares w base va op x y hint)

/-- A record is written as bytes of base memory (R392). -/
theorem putRecord_spares (w : Watches W s) (p addr : Nat) (bs : List Byte) : Spares W s (putRecord s p addr bs) := sendBytes_spares w rfl ..

theorem recordOr_spares (w : Watches W s) (p key off job v : Nat) : Spares W s (recordOr s p key off job v) := sendAtomic_spares w rfl ..

end

end Sys2Proof.Machine.Proofs
end

section
/-! PROOFS. `abandon` (R196): the discarded view, the end of the record, and what both leave. -/

namespace Sys2Proof.Machine.Proofs

open Sys2Proof Sys2Proof.Machine Sys2Proof.Machine.Safety Sys2Proof.Machine.Laws

variable {W : Nat → Prop}

section
open Spares

variable (s : State)

/-! ## The release of what a record held (R61, R68, R163, R171) -/

theorem returnLeave_spares (q cls : Nat) : Spares W s (returnLeave s q cls) := Spares.modQuarter s _ fun _ _ hu _ => hu

theorem releaseLeave_spares (p : Nat) : Spares W s (releaseLeave s p) := by
  unfold releaseLeave
  extract_lets held given asked returned
  have given_spares : Spares W s given := by
    refine foldl (fun s c => ?_) _ s
    split
    · exact returnLeave_spares s _ _
    · exact Spares.rfl s
  have asked_spares : Spares W s asked := by
    refine given_spares.trans (foldl (fun s c => ?_) _ given)
    exact Spares.modQuarter s _ fun _ _ hu _ => hu
  have returned_spares : Spares W s returned := by
    by_cases test : (part asked p).testLeave = true
    · simp only [returned, test, if_true]; exact asked_spares.trans (returnLeave_spares _ _ _)
    · simp only [returned, test]; exact asked_spares
  exact returned_spares.trans (Spares.modPart _ p fun _ => rfl)

theorem dropLeave_spares (p : Nat) (r : Run) : Spares W s (dropLeave s p r) := by
  unfold dropLeave
  split
  · exact Spares.rfl s
  · have gone (c : Nat) : Spares W s (modQuarter s (governorOf (quarterOf p) c) fun x => { x with leaves := x.leaves.filter fun l => l.cmd != some r.cmd.id }) :=
      Spares.modQuarter s _ fun _ _ hu _ => hu
    dsimp only
    split
    · exact (gone _).trans (returnLeave_spares _ _ _)
    · exact gone _

theorem modQueue_spares (p k : Nat) (f : CmdQueue → CmdQueue) : Spares W s (modQueue s p k f) := Spares.modPart s p fun _ => rfl

theorem discardCommands_spares (p k : Nat) (pick : Cmd → Bool) : Spares W s (discardCommands s p k pick) := by
  unfold discardCommands
  extract_lets left
  refine Spares.trans ?_ (modQueue_spares left p k _)
  refine foldl (fun s r => ?_) _ s
  exact dropLeave_spares s p r

theorem leaveMsways_spares (p : Nat) : Spares W s (leaveMsways s p) := Spares.modQuarter s _ fun _ _ hu _ => hu

/-- Where monitors go. -/
theorem unmonitored_spares (keep : Monitor → Bool) : Spares W s { s with monitors := s.monitors.filter keep } :=
  ⟨rfl, rfl, fun _ => rfl, fun _ hm => List.mem_of_mem_filter hm, fun _ _ _ hu => hu⟩

/-! ## The issue passes on (R164, R219) -/

theorem restartResume_spares (p : Nat) : Spares W s (restartResume s p) := by
  unfold restartResume
  extract_lets shed left
  have shed_spares : Spares W s shed := by
    refine foldl (fun s k => ?_) _ s
    exact modQueue_spares s p k _
  have left_spares : Spares W s left := shed_spares.trans ((unmonitored_spares shed _).trans (leaveMsways_spares _ p))
  exact left_spares.trans (Spares.modPart _ p fun _ => rfl)

theorem takeIssue_spares (p : Nat) : Spares W s (takeIssue s p) := by
  unfold takeIssue
  extract_lets taken due
  have due_spares : Spares W s due := (Spares.modCore s _ _).trans (Spares.modPart taken p fun _ => rfl)
  split
  · exact due_spares.trans (restartResume_spares _ p)
  · exact due_spares

theorem refillIssue_spares (c : Nat) : Spares W s (refillIssue s c) := by
  unfold refillIssue
  dsimp only
  split
  · exact takeIssue_spares s _
  · split
    · exact takeIssue_spares s _
    · exact Spares.modCore s c _

/-- A partition that becomes free changes no view, no fork and no suspended record. -/
theorem freePartition_spares (p : Nat) : (freePartition s p).views = s.views ∧ (freePartition s p).forks = s.forks ∧
    ∀ q u, u ∈ (quarter s q).suspended → u ∈ (quarter (freePartition s p) q).suspended := by
  have passed (t : State) : Spares (fun _ => False) t (if (core t (coreOf p)).issue = some p then refillIssue t (coreOf p) else t) := by
    split
    · exact refillIssue_spares t _
    · exact Spares.rfl t
  have freed := passed (modPart s p fun x => { x with
    resident := none, cont := 0, tokens := [], posts := [], holding := false, flagIgnored := false, preempted := false, lostMangle := false, restarting := false,
    due := false, entering := none, fetchSeen := none, reserved := [] })
  exact ⟨freed.views, freed.forks, fun q u hu => freed.asleep q u id hu⟩

theorem endRecord_views (p : Nat) : (endRecord s p).views = s.views := by
  unfold endRecord
  split
  · rfl
  · refine (freePartition_spares _ p).1.trans ?_
    unfold recordGone
    split <;> rfl

/-! ## The end of a view (R349) -/

theorem captureItem_spares (job kind n : Nat) (workid : W64) (view ord addr val : Nat) (data : List Byte) :
    Spares W s (captureItem s job kind n workid view ord addr val data) := by
  unfold captureItem
  split
  · exact Spares.rfl s
  · dsimp only
    repeat' split
    · exact Spares.rfl s
    · exact Spares.rfl s
    · exact mset_spares s _ _ _
    · exact (of_read (physPut_same s _ _)).trans (mset_spares _ _ _ _)

/-- The waiting writes that a test keeps are all that a partition's store queue holds. -/
def keepStores (keep : StoreWait → Bool) (x : Part) : Part := { x with stores := x.stores.filter keep }

theorem unqueued_spares (keep : StoreWait → Bool) : Spares W s { s with parts := s.parts.map fun p => (p.1, keepStores keep p.2) } := by
  refine ⟨rfl, rfl, fun p => ?_, fun _ hm => hm, fun _ _ _ hu => hu⟩
  unfold part fgetD
  rw [fget_map_values (keepStores keep)]
  cases fget s.parts p <;> rfl

/-- A discarded view has ended, and holds neither a line nor an outbox. -/
theorem discardView_ends {s : State} {v : Nat} {w : View} (listed : fget s.views v = some w) :
    fget (discardView s v).views v = some { w with ended := true, lines := [], outbox := [] } ∧
    ∀ p, (part (discardView s v) p).resident = (part s p).resident := by
  unfold discardView
  extract_lets logged dropped
  have logged_spares : Spares (fun _ => False) s logged := by
    refine foldl (fun s k => ?_) _ s
    exact dropEntries_spares s k _
  have dropped_spares : Spares (fun _ => False) s dropped := logged_spares.trans (unqueued_spares logged _)
  have listed : fget dropped.views v = some w := by rw [dropped_spares.views, listed]
  have lines : Spares (fun _ => False) dropped (w.lines.foldl (fun s l => maintainLine s 1 l.2.pa) dropped) := by
    refine foldl (fun s l => ?_) _ dropped
    exact of_read (maintainLine_same s 1 _)
  rw [listed]
  exact ⟨fget_fput_same _ _ _, fun p => (lines.residents p).trans (dropped_spares.residents p)⟩

/-! ## The end of a rival (R196) -/

/-- The writes that reach a parent's record and its wake leave views and residents as they are. -/
theorem parentReady_spares (f : Fork) (r : Nat) : Spares (fun _ => True) s (parentReady s f r) := by
  have watched (s : State) : Watches (fun _ => True) s := fun _ _ _ _ => trivial
  refine Spares.trans ?_ (recordReady_spares _ _ trivial)
  unfold deliver
  split
  · exact Spares.rfl s
  · exact (sendAtomic_spares (watched s) rfl ..).trans (recordOr_spares (watched _) ..)

theorem rivalGone_keeps (f : Fork) (idx : Nat) :
    (rivalGone s f idx).views = s.views ∧ ∀ p, (part (rivalGone s f idx) p).resident = (part s p).resident := by
  unfold rivalGone
  dsimp only
  split
  · have ended (l : List Fork) (g : Fork) : Spares (fun _ => True) { s with forks := l } (parentReady (captureFork { s with forks := l } g 0xFF) g 0xFF) :=
      (captureItem_spares _ _ _ _ _ _ _ _ _ _).trans (parentReady_spares _ _ _)
    exact ⟨(ended _ _).views, (ended _ _).residents⟩
  · exact ⟨rfl, fun _ => rfl⟩

variable {s}

/-- An abandoned rival that is resident leaves its partition, and its view has ended. -/
theorem abandonRival_ends {v idx v' key p : Nat} {f : Fork} {w : View} (own : forkOf s v = some (f, idx))
    (rival : f.rivals.find? (fun x => x.1 == idx) = some (idx, v', key)) (listed : fget s.views v = some w) (here : residentAt s key = some p)
    (full : (part s p).resident.isSome = true) :
    fget (abandonRival s v).views v = some { w with ended := true, lines := [], outbox := [] } ∧ (part (abandonRival s v) p).resident = none := by
  have commands : Spares (fun _ => False) s ([0, 1, 2].foldl (fun s k => discardCommands s p k fun _ => true) s) :=
    foldl (fun s k => discardCommands_spares s p k _) _ s
  have idle (t : State) : Spares (fun _ => False) t (if (core t (coreOf p)).holder = some p then clearMangle t (coreOf p) else t) := by
    split
    · exact Spares.modCore t _ _
    · exact Spares.rfl t
  have cleared := commands.trans (idle _)
  unfold abandonRival
  simp only [own, rival, here]
  generalize (if (core ([0, 1, 2].foldl (fun s k => discardCommands s p k fun _ => true) s) (coreOf p)).holder = some p then _ else _ : State) = t at cleared ⊢
  obtain ⟨ended, same⟩ := discardView_ends (s := t) (v := v) (w := w) (by rw [cleared.views, listed])
  have left : (part (endRecord (releaseLeave (discardView t v) p) p) p).resident = none := by
    obtain ⟨-, -, -, -, gone⟩ := endRecord_clears (s := releaseLeave (discardView t v) p) (p := p) (by
      rw [(releaseLeave_spares (W := fun _ => False) _ p).residents p, same, cleared.residents p, full])
    exact gone
  have views : (endRecord (releaseLeave (discardView t v) p) p).views = (discardView t v).views :=
    (endRecord_views _ p).trans (releaseLeave_spares (W := fun _ => False) _ p).views
  generalize endRecord (releaseLeave (discardView t v) p) p = u at left views ⊢
  have record := recordOr_spares (W := fun _ => True) (s := u) (fun _ _ _ _ => trivial) (recordPart s f key) key 0 f.ctx.job 3
  obtain ⟨kept, still⟩ := rivalGone_keeps (recordOr u (recordPart s f key) key 0 f.ctx.job 3) f idx
  exact ⟨by rw [kept, record.views, views, ended], by rw [still, record.residents, left]⟩

end

/-! ## Words that depart -/

theorem postReady_spares (s : State) (p : Nat) : Spares W s (postReady s p) := by
  rcases postReady_cases s p with idle | ⟨m, l, posted⟩
  · rw [idle]; exact Spares.rfl s
  · rw [posted]; exact Spares.modPart s p fun _ => rfl

theorem departed_spares (s : State) (h : Hdr) (t : State) : Spares W t (departed s h t) := by
  have owed : Spares W t (if (part t s.cur).resident.isSome then modPart t s.cur fun x => { x with posts := x.posts ++ owedPosts s false h } else t) := by
    split
    · exact Spares.modPart t _ fun _ => rfl
    · exact Spares.rfl t
  exact owed.trans ((Spares.modCore _ _ _).trans (postReady_spares _ _))

/-! ## Where a record is resident -/

/-- Where a test finds partition `p` first, it does so after a change of `p` that the test does not see. -/
theorem find_fput {P : Part → Bool} {p : Nat} {x z : Part} {m : FMap Part} (same : ∀ y, fget m p = some y → P x = P y)
    (found : m.find? (fun y => P y.2) = some (p, z)) : ∃ y, (fput m p x).find? (fun y => P y.2) = some (p, y) := by
  induction m with
  | nil => cases found
  | cons b r ih =>
    obtain ⟨k, y⟩ := b
    unfold fput
    split
    next before =>
      cases own : P x with
      | true => exact ⟨x, List.find?_cons_of_pos own⟩
      | false => exact ⟨z, (List.find?_cons_of_neg (by simp [own])).trans found⟩
    next =>
      split
      next equal =>
        subst equal
        have own := same y (if_pos rfl)
        cases held : P y with
        | true => exact ⟨x, List.find?_cons_of_pos (own.trans held)⟩
        | false =>
          rw [List.find?_cons_of_neg (p := fun y : Nat × Part => P y.2) (by simp [held])] at found
          exact ⟨z, (List.find?_cons_of_neg (by simp [own, held])).trans found⟩
      next other =>
        cases held : P y with
        | true =>
          rw [List.find?_cons_of_pos (p := fun y : Nat × Part => P y.2) held] at found
          cases found; exact absurd rfl other
        | false =>
          rw [List.find?_cons_of_neg (p := fun y : Nat × Part => P y.2) (by simp [held])] at found ⊢
          exact ih (fun w hw => same w ((if_neg other).trans hw)) found

/-- Whether a partition holds the record of a key. -/
def holdsRecord (key : Nat) (x : Part) : Bool := match x.resident with | some r => r.addr == key | none => false

theorem residentAt_eq_some_iff {s : State} {key p : Nat} : residentAt s key = some p ↔ ∃ x, s.parts.find? (fun y => holdsRecord key y.2) = some (p, x) := by
  unfold residentAt
  change (match s.parts.find? (fun y => holdsRecord key y.2) with | some x => some x.1 | none => none) = some p ↔ _
  cases s.parts.find? (fun y => holdsRecord key y.2) with
  | none => simp
  | some e => obtain ⟨q, x⟩ := e; simp

theorem residentAt_modPart {s : State} {key p : Nat} {f : Part → Part} (keeps : (f (part s p)).resident = (part s p).resident)
    (here : residentAt s key = some p) : residentAt (modPart s p f) key = some p := by
  obtain ⟨z, found⟩ := residentAt_eq_some_iff.1 here
  refine residentAt_eq_some_iff.2 (find_fput (fun y listed => ?_) found)
  have own : part s p = y := by simp [part, fgetD, listed]
  rw [holdsRecord, keeps, own]; rfl

theorem residentAt_issued {s : State} {h : Hdr} {regs : FMap (List W64)} {tokens : FMap Nat} {key : Nat} (here : residentAt s key = some s.cur) :
    residentAt (issued s h regs tokens) key = some s.cur := by
  have counted : residentAt (countIgnored s h) key = some s.cur := by
    unfold countIgnored
    split
    · exact residentAt_modPart rfl here
    · exact here
  unfold residentAt
  rw [issued_parts]
  exact residentAt_modPart rfl counted

/-- `abandon` of a rival that is resident (R196, R349). -/
theorem exec_abandon {s : State} {h : Hdr} {regs : FMap (List W64)} {tokens : FMap Nat} {f : Fork} {idx v key : Nat} {w : View}
    (hi : Issues s h { ill := worldWordIll s true } [] regs tokens) (own : forkOf s (viewOf s s.cur) = some (f, idx))
    (rival : f.rivals.find? (fun x => x.1 == idx) = some (idx, v, key)) (listed : fget s.views (viewOf s s.cur) = some w)
    (here : residentAt s key = some s.cur) : ∃ t, exec (.abandon h) s = .next t ∧
      fget t.views (viewOf s s.cur) = some { w with ended := true, lines := [], outbox := [] } ∧ (part t s.cur).resident = none := by
  have world : viewOf s s.cur ≠ 0 := by
    have legal := hi.legal
    simp only [worldWordIll, Bool.true_and, Bool.or_eq_false_iff, beq_eq_false_iff_ne] at legal
    exact legal.2
  have full : (part (issued s h regs tokens) s.cur).resident.isSome = true := by
    cases empty : (part s s.cur).resident with
    | none => exact absurd (by rw [viewOf, empty]) world
    | some r => simp [empty]
  obtain ⟨ended, left⟩ := abandonRival_ends ((forkOf_issued _).trans own) rival ((congrArg (fget · _) (issued_views s h regs tokens)).trans listed) (residentAt_issued here) full
  have kept := departed_spares (W := fun _ => False) s h (abandonRival (issued s h regs tokens) (viewOf s s.cur))
  refine ⟨departed s h (abandonRival (issued s h regs tokens) (viewOf s s.cur)), congrArg Host.Outcome.next (issueWord_away hi rfl rfl _ _ ?_),
    by rw [kept.views, ended], by rw [kept.residents, left]⟩
  rw [issued_cur, viewOf_issued]

end Sys2Proof.Machine.Proofs
end

section
/-! PROOFS. `fork` (R194): the identifiers that it takes, the rivals that it makes, and the suspension of the parent. -/

namespace Sys2Proof.Machine.Proofs

open Sys2Proof Sys2Proof.Machine Sys2Proof.Machine.Safety Sys2Proof.Machine.Laws

/-! ## Free view identifiers (R194, R337) -/

/-- A change of one entry that a test does not see, or that adds one the test refuses, is none for the test. -/
theorem any_fput {P : Part → Bool} {p : Nat} {x : Part} {m : FMap Part} (same : ∀ y, fget m p = some y → P x = P y)
    (new : P x = false) : (fput m p x).any (fun y => P y.2) = m.any fun y => P y.2 := by
  induction m with
  | nil => simp [fput, new]
  | cons b r ih =>
    obtain ⟨k, y⟩ := b
    unfold fput
    split
    · simp [new]
    · split
      next equal =>
        subst equal
        simp [same y (if_pos rfl)]
      next other => simp [ih fun w hw => same w ((if_neg other).trans hw)]

/-- The free identifiers are those of before, where one partition that reserves none takes a new content that reserves none. -/
theorem freeViews_fput {s t : State} {p : Nat} {x : Part} (views : t.views = s.views) (parts : t.parts = fput s.parts p x)
    (own : (part s p).reserved = []) (keeps : x.reserved = []) : freeViews t = freeViews s := by
  have same (i : Nat) : t.parts.any (fun p => p.2.reserved.contains i) = s.parts.any fun p => p.2.reserved.contains i := by
    rw [parts]
    refine any_fput (P := fun x => x.reserved.contains i) (fun y listed => ?_) (by simp [keeps])
    have here : part s p = y := by simp [part, fgetD, listed]
    rw [keeps, ← here, own]
  simp only [freeViews, views, same]

theorem freeViews_issued {s : State} {h : Hdr} {regs : FMap (List W64)} {tokens : FMap Nat} (own : (part s s.cur).reserved = []) :
    freeViews (issued s h regs tokens) = freeViews s := by
  have counted : freeViews (countIgnored s h) = freeViews s := by
    unfold countIgnored
    split
    · exact freeViews_fput rfl rfl own own
    · rfl
  have views : (issued s h regs tokens).views = (countIgnored s h).views := by rw [issued_views]; unfold countIgnored; split <;> rfl
  have kept : (part (countIgnored s h) s.cur).reserved = [] := (countIgnored_part_reserved s h).trans own
  exact (freeViews_fput views (issued_parts s h regs tokens) kept kept).trans counted

theorem nodup_freeViews (s : State) : (freeViews s).Nodup := by
  refine List.Nodup.filterMap (fun i j v hi hj => ?_) List.nodup_range
  simp only [Option.mem_def, Option.ite_none_right_eq_some, Option.some.injEq] at hi hj
  omega

/-! ## `fork` (R194) -/

theorem replayItem_unrecorded {s : State} (free : Unrecorded s) (kind : Nat) : replayItem s s.cur kind = none := by
  unfold replayItem
  split
  next j r found full => rw [free.2 j found]; rfl
  next => rfl

section
variable {s : State} {h : Hdr} {regs : FMap (List W64)} {tokens : FMap Nat} {d a b : Reg} {x y : W64}

/-- Where nothing is reserved and no log is replayed, a fork takes the lowest free identifiers (R194). -/
theorem forkIds_unrecorded (own : (part s s.cur).reserved = []) (free : Unrecorded s) {n : Nat} (some : 0 < n) :
    forkIds (issued s h regs tokens) s.cur n = ((freeViews s).take n, none) := by
  have replay := replayItem_unrecorded (unrecorded_issued free h regs tokens) 7
  rw [issued_cur] at replay
  have reserved : (part (issued s h regs tokens) s.cur).reserved = [] := by simp [own]
  have short : (part (issued s h regs tokens) s.cur).reserved.length ≠ n := by rw [reserved]; exact some.ne
  simp only [forkIds, replay, if_neg short, freeViews_issued own]

/-- The number of rivals of a legal fork (R194). -/
theorem rivals_of_legal {area quota : Nat} (good : forkBad area quota = false) : 2 ≤ area % 8 := by
  simp only [forkBad, Bool.or_eq_false_iff, decide_eq_false_iff_not, Nat.not_lt] at good
  obtain ⟨⟨⟨⟨⟨⟨least, -⟩, -⟩, -⟩, -⟩, -⟩, -⟩ := good
  exact least

/-- `fork` that finds all it needs makes its rivals. -/
theorem exec_fork (hi : Issues s h { reads := [rd s a false, rd s b false], ill := worldWordIll s false } [x, y] regs tokens)
    (good : forkBad x.toNat y.toNat = false) (landed : (part s s.cur).flights = []) (dead : isLive (part (issued s h regs tokens) s.cur) = false)
    (shallow : depthOf s (viewOf s s.cur) < 4) (own : (part s s.cur).reserved = []) (quiet : drained s s.cur = true)
    (room : x.toNat % 8 ≤ (freeViews s).length) (free : Unrecorded s) : exec (.fork h d a b) s =
      .next (departed s h (forkNow (issued s h regs tokens) s.cur x.toNat y.toNat d.val ((freeViews s).take (x.toNat % 8)) none)) := by
  have least := rivals_of_legal good
  have ids := forkIds_unrecorded (h := h) (regs := regs) (tokens := tokens) own free (n := x.toNat % 8) (by omega)
  have replay := replayItem_unrecorded (unrecorded_issued free h regs tokens) 7
  have depth : ¬ 4 ≤ depthOf (issued s h regs tokens) (viewOf (issued s h regs tokens) s.cur) := by
    simpa [depthOf] using shallow
  have still : (part (issued s h regs tokens) s.cur).flights = [] := flights_issued.trans landed
  have untrapped : (part (issued s h regs tokens) s.cur).pending = [] := by simp [hi.quiet]
  rw [issued_cur] at replay
  refine congrArg Host.Outcome.next (issueWord_away hi rfl rfl _ _ ?_)
  have quietI := (drained_issued (s := s) (h := h) (regs := regs) (tokens := tokens)).trans quiet
  generalize issued s h regs tokens = t at *
  -- Every test that the word makes on its way to `forkNow` is decided by one of these.
  simp [good, still, dead, depth, ids, replay, room, quietI, untrapped]

end

/-! ## The rivals and their records (R194, R226) -/

/-- The view of a rival, before it has written anything (R194). -/
def rivalView (r : Resident) (depth quota : Nat) (v : Nat × Nat × Nat) : View := { parent := r.view, depth := depth, rival := v.1, quota := quota }

/-- What `forkNow` does for one rival: its view, its record, and its wake. -/
def makeRival (x : Part) (r : Resident) (p resume depth quota dreg : Nat) (s : State) (v : Nat × Nat × Nat) : State :=
  let s := { s with views := fput s.views v.2.1 (rivalView r depth quota v) }
  let bs := recordBytes x { r with view := v.2.1 } resume 0 dreg
  let bs := leBytes 64 (leNat bs + v.1 * 2 ^ 230)
  let s := putRecord s p v.2.2 bs
  let u : Suspended := { addr := v.2.2, tag := 0, ordinal := 0, job := r.job, asid := x.asid, view := v.2.1, base := r.base,
                         wake := .ready, rival := true, part := p }
  recordReady (modQuarter s (quarterOf p) fun y => { y with suspended := y.suspended ++ [u] }) (quarterOf p) v.2.2

/-- The rivals of a fork: index, view identifier, and key of the record. -/
def rivalsOf (x : Part) (area : Nat) (ids : List Nat) : List (Nat × Nat × Nat) :=
  (List.range ids.length).map fun i => (i, ids.getD i 0, recKey x.asid ((area / 64 * 64 + 64 * i) % 2 ^ 64))

/-- What the forks list of a fork (R194). -/
def forkMade (s : State) (p area dreg : Nat) (r : Resident) (ids : List Nat) (logged : Option Nat) : Fork :=
  { parent := r.addr, parentView := r.view, quarter := quarterOf p, ctx := ctxOf s p .control, dreg := dreg, base := r.base,
    rivals := rivalsOf (part s p) area ids, living := List.range ids.length, asks := [], winner := none, waitAcks := [],
    workid := (part s p).workid, ord := r.ordinal, logged := logged }

/-- The state in which the rivals of a fork are made: the fork has its ordinal, and the partition's leave is released. -/
def forking (s : State) (p : Nat) (r : Resident) : State := releaseLeave (modPart s p fun x => { x with resident := some { r with ordinal := r.ordinal + 1 } }) p

theorem forking_keeps (s : State) (p : Nat) (r : Resident) : (part (forking s p r) p).resident = some { r with ordinal := r.ordinal + 1 } ∧
    (∀ m ∈ (forking s p r).monitors, m ∈ s.monitors) ∧ (forking s p r).forks = s.forks := by
  have released := releaseLeave_spares (W := fun _ => True) (modPart s p fun x => { x with resident := some { r with ordinal := r.ordinal + 1 } }) p
  refine ⟨(released.residents p).trans ?_, released.monitors, released.forks⟩
  rw [part_modPart]

/-- The state in which all rivals of a fork are made. -/
def rivalsMade (s : State) (p area quota dreg : Nat) (r : Resident) (ids : List Nat) : State :=
  (rivalsOf (part s p) area ids).foldl (makeRival (part s p) r p (((part s p).pc.toNat + 4) % 2 ^ 48) (depthOf s r.view + 1) quota dreg)
    (forking s p r)

/-- The fork is listed, and the parent's partition watches for nothing any more. -/
def withFork (s : State) (p : Nat) (f : Fork) : State := { s with monitors := s.monitors.filter (fun m => m.owner != .part p), forks := s.forks ++ [f] }

theorem forkNow_eq {s : State} {p : Nat} {r : Resident} (full : (part s p).resident = some r) (area quota dreg : Nat) (ids : List Nat) (logged : Option Nat) :
    forkNow s p area quota dreg ids logged = suspendRecord (withFork (rivalsMade s p area quota dreg r ids) p
      (forkMade s p area dreg r ids logged)) p (((part s p).pc.toNat + 4) % 2 ^ 48) 2 dreg .world 0 := by
  unfold forkNow
  rw [full]
  rfl

theorem makeRival_spares (x : Part) (r : Resident) (p resume depth quota dreg : Nat) (s : State) (v : Nat × Nat × Nat) :
    Spares (fun _ => True) { s with views := fput s.views v.2.1 (rivalView r depth quota v) }
      (makeRival x r p resume depth quota dreg s v) := by
  unfold makeRival
  exact (putRecord_spares (fun _ _ _ _ => trivial) _ _ _).trans ((Spares.modQuarter _ _ fun _ _ _ awake => absurd trivial awake).trans
    (recordReady_spares _ _ trivial))

theorem foldl_makeRival (x : Part) (r : Resident) (p resume depth quota dreg : Nat) : ∀ (l : List (Nat × Nat × Nat)) (s : State),
    Spares (fun _ => True) { s with views := l.foldl (fun m v => fput m v.2.1 (rivalView r depth quota v)) s.views }
      (l.foldl (makeRival x r p resume depth quota dreg) s)
  | [], s => Spares.rfl s
  | v :: l, s => by
    have first := makeRival_spares x r p resume depth quota dreg s v
    have rest := foldl_makeRival x r p resume depth quota dreg l (makeRival x r p resume depth quota dreg s v)
    rw [first.views] at rest
    exact ⟨rest.views, rest.forks.trans first.forks, fun q => (rest.residents q).trans (first.residents q),
      fun m hm => first.monitors m (rest.monitors m hm), fun _ _ awake => absurd trivial awake⟩

theorem fget_foldl_fput {α β : Type} {key : β → Nat} {val : β → α} : ∀ {l : List β} (_ : (l.map key).Nodup) (m : FMap α),
    (∀ b ∈ l, fget (l.foldl (fun m b => fput m (key b) (val b)) m) (key b) = some (val b)) ∧
    ∀ k, k ∉ l.map key → fget (l.foldl (fun m b => fput m (key b) (val b)) m) k = fget m k
  | [], _, m => ⟨fun _ h => absurd h List.not_mem_nil, fun _ _ => rfl⟩
  | c :: l, distinct, m => by
    obtain ⟨fresh, distinct⟩ := List.nodup_cons.1 (show (key c :: l.map key).Nodup from distinct)
    obtain ⟨set, kept⟩ := fget_foldl_fput distinct (fput m (key c) (val c))
    refine ⟨fun b hb => ?_, fun k hk => ?_⟩
    · rcases List.mem_cons.1 hb with rfl | later
      · exact (kept _ fresh).trans (fget_fput_same _ _ _)
      · exact set b later
    · obtain ⟨other, absent⟩ := not_or.1 (mt List.mem_cons.2 hk)
      exact (kept k absent).trans (fget_fput_other _ _ other)

/-! ## The parent suspends (R61, R226) -/

/-- What the record of a partition leaves among the suspended (R213). -/
def suspendedOf (s : State) (p : Nat) (r : Resident) (wake : Wake) (tag : Nat) : Suspended :=
  { addr := r.addr, tag := tag, ordinal := r.ordinal, job := r.job, asid := (part s p).asid, view := r.view, base := r.base, wake := wake, rival := r.rival,
    part := p, gleaned := r.gleaned }

/-- A partition's monitor goes over to its record (R60, R392). -/
def handOver (p : Nat) (addr : Nat) (m : Monitor) : Monitor := if m.owner = .part p then { m with owner := .record addr } else m

/-- The state in which the record of a partition has joined the suspended, and its bytes are still to be written (R61, R392). -/
def fallAsleep (s : State) (p : Nat) (r : Resident) (wake : Wake) (tag : Nat) : State :=
  { modQuarter s (quarterOf p) (fun x => { x with suspended := x.suspended ++ [suspendedOf s p r wake tag] }) with monitors := s.monitors.map (handOver p r.addr) }

theorem mem_fallAsleep (s : State) (p : Nat) (r : Resident) (wake : Wake) (tag : Nat) :
    suspendedOf s p r wake tag ∈ (quarter (fallAsleep s p r wake tag) (quarterOf p)).suspended := by
  have joined : quarter (fallAsleep s p r wake tag) (quarterOf p) =
      quarter (modQuarter s (quarterOf p) fun x => { x with suspended := x.suspended ++ [suspendedOf s p r wake tag] }) (quarterOf p) := rfl
  rw [joined, quarter_modQuarter]
  exact List.mem_append_right _ List.mem_cons_self

theorem watches_fallAsleep {s : State} {p : Nat} {r : Resident} (alone : ∀ m ∈ s.monitors, m.owner ≠ .record r.addr ∧ m.owner ≠ .part p)
    (wake : Wake) (tag : Nat) : Watches (fun a => a ≠ r.addr) (fallAsleep s p r wake tag) := by
  intro m hm a owned same
  obtain ⟨n, hn, rfl⟩ := List.mem_map.1 hm
  obtain ⟨record, other⟩ := alone n hn
  rw [handOver, if_neg other] at owned
  exact record (same ▸ owned)

theorem suspendRecord_eq {s : State} {p : Nat} {r : Resident} (full : (part s p).resident = some r) (resume wakeCode dreg : Nat) {wake : Wake}
    (asleep : wake ≠ .ready) (tag : Nat) : suspendRecord s p resume wakeCode dreg wake tag =
      freePartition (modPart (putRecord (fallAsleep s p r wake tag) p r.addr (recordBytes (part s p) r resume wakeCode dreg)) p fun x => { x with monitor := .off }) p := by
  unfold suspendRecord
  rw [full]
  dsimp only
  rw [if_neg asleep]
  rfl

/-- A record that no monitor watches for stands suspended with its wake, and its partition is free. -/
theorem suspendRecord_leaves {s t : State} {p : Nat} {r : Resident} (full : (part s p).resident = some r)
    (alone : ∀ m ∈ s.monitors, m.owner ≠ .record r.addr ∧ m.owner ≠ .part p) {resume wakeCode dreg : Nat} {wake : Wake} (asleep : wake ≠ .ready) {tag : Nat}
    (made : suspendRecord s p resume wakeCode dreg wake tag = t) :
    (part t p).resident = none ∧ (∃ u ∈ (quarter t (quarterOf p)).suspended, u.addr = r.addr ∧ u.wake = wake) ∧ t.views = s.views ∧ t.forks = s.forks := by
  rw [suspendRecord_eq full _ _ _ asleep] at made
  have written := putRecord_spares (watches_fallAsleep alone wake tag) p r.addr (recordBytes (part s p) r resume wakeCode dreg)
  generalize putRecord _ p r.addr _ = u at made written
  obtain ⟨views, forks, kept⟩ := freePartition_spares (modPart u p fun x => { x with monitor := .off }) p
  subst made
  refine ⟨by rw [part_freePartition], ⟨suspendedOf s p r wake tag, kept _ _ ?_, rfl, rfl⟩, views.trans written.views, forks.trans written.forks⟩
  exact written.asleep _ _ (fun other => other rfl) (mem_fallAsleep s p r wake tag)

/-! ## What a fork leaves (R194) -/

theorem map_rivalsOf (x : Part) (area : Nat) (ids : List Nat) : (rivalsOf x area ids).map (·.2.1) = ids := by
  refine List.ext_getElem (by simp [rivalsOf]) fun i _ hi => ?_
  simp [rivalsOf, hi]

theorem mem_rivalsOf (x : Part) (area : Nat) {ids : List Nat} {i : Nat} (hi : i < ids.length) :
    (i, ids.getD i 0, recKey x.asid ((area / 64 * 64 + 64 * i) % 2 ^ 64)) ∈ rivalsOf x area ids :=
  List.mem_map.2 ⟨i, List.mem_range.2 hi, rfl⟩

/-- The state in which all rivals of a fork are made holds a view for each, and nothing else of the parent's has changed but its ordinal. -/
theorem rivalsMade_keeps {s t : State} {p : Nat} {r : Resident} {ids : List Nat} (distinct : ids.Nodup) {area quota dreg : Nat}
    (made : rivalsMade s p area quota dreg r ids = t) :
    (part t p).resident = some { r with ordinal := r.ordinal + 1 } ∧ (∀ m ∈ t.monitors, m ∈ s.monitors) ∧ t.forks = s.forks ∧ ∀ i, i < ids.length →
      fget t.views (ids.getD i 0) = some { parent := r.view, depth := depthOf s r.view + 1, rival := i, ended := false, quota := quota, lines := [], outbox := [] } := by
  have rivals := foldl_makeRival (part s p) r p (((part s p).pc.toNat + 4) % 2 ^ 48) (depthOf s r.view + 1) quota dreg (rivalsOf (part s p) area ids) (forking s p r)
  rw [← rivalsMade, made] at rivals
  obtain ⟨holder, monitors, forks⟩ := forking_keeps s p r
  refine ⟨(rivals.residents p).trans holder, fun m hm => monitors m (rivals.monitors m hm), rivals.forks.trans forks, fun i hi => ?_⟩
  have keys : ((rivalsOf (part s p) area ids).map (·.2.1)).Nodup := by rwa [map_rivalsOf]
  obtain ⟨listed, -⟩ := fget_foldl_fput (val := rivalView r (depthOf s r.view + 1) quota) keys (forking s p r).views
  exact (congrArg (fget · _) rivals.views).trans (listed _ (mem_rivalsOf (part s p) area hi))

theorem forkNow_leaves {s t : State} {p : Nat} {r : Resident} (full : (part s p).resident = some r) (alone : ∀ m ∈ s.monitors, m.owner ≠ .record r.addr)
    {ids : List Nat} (distinct : ids.Nodup) {area quota dreg : Nat} {logged : Option Nat} (made : forkNow s p area quota dreg ids logged = t) :
    (part t p).resident = none ∧ (∃ u ∈ (quarter t (quarterOf p)).suspended, u.addr = r.addr ∧ u.wake = .world) ∧
    (∀ i, i < ids.length → fget t.views (ids.getD i 0) =
      some { parent := r.view, depth := depthOf s r.view + 1, rival := i, ended := false, quota := quota, lines := [], outbox := [] }) ∧
    t.forks = s.forks ++ [forkMade s p area dreg r ids logged] := by
  rw [forkNow_eq full] at made
  obtain ⟨holder, monitors, forks, views⟩ := rivalsMade_keeps (s := s) (p := p) (r := r) distinct (area := area) (quota := quota) (dreg := dreg) rfl
  generalize rivalsMade s p area quota dreg r ids = u at *
  have unwatched (m : Monitor) (hm : m ∈ (withFork u p (forkMade s p area dreg r ids logged)).monitors) : m.owner ≠ .record r.addr ∧ m.owner ≠ .part p := by
    obtain ⟨kept, other⟩ := List.mem_filter.1 hm
    exact ⟨alone m (monitors m kept), bne_iff_ne.1 other⟩
  obtain ⟨left, asleep, same, listed⟩ := suspendRecord_leaves (s := withFork u p (forkMade s p area dreg r ids logged)) holder unwatched (by decide) made
  refine ⟨left, asleep, fun i hi => (congrArg (fget · _) same).trans (views i hi), listed.trans ?_⟩
  rw [withFork, forks]

/-- `fork` that finds all it needs leaves its rivals made and the parent suspended until a world ends (R194, R226). -/
theorem exec_fork_leaves {s : State} {h : Hdr} {regs : FMap (List W64)} {tokens : FMap Nat} {d a b : Reg} {x y : W64} {r : Resident}
    (hi : Issues s h { reads := [rd s a false, rd s b false], ill := worldWordIll s false } [x, y] regs tokens)
    (good : forkBad x.toNat y.toNat = false) (landed : (part s s.cur).flights = []) (dead : isLive (part (issued s h regs tokens) s.cur) = false)
    (shallow : depthOf s (viewOf s s.cur) < 4) (own : (part s s.cur).reserved = []) (quiet : drained s s.cur = true)
    (room : x.toNat % 8 ≤ (freeViews s).length) (free : Unrecorded s) (full : (part s s.cur).resident = some r)
    (alone : ∀ m ∈ s.monitors, m.owner ≠ .record r.addr) : ∃ t, exec (.fork h d a b) s = .next t ∧
      (part t s.cur).resident = none ∧ (∃ u ∈ (quarter t (quarterOf s.cur)).suspended, u.addr = r.addr ∧ u.wake = .world) ∧
      (∀ i, i < x.toNat % 8 → ∃ v, (freeViews s)[i]? = some v ∧
        fget t.views v = some { parent := r.view, depth := depthOf s r.view + 1, rival := i, ended := false, quota := y.toNat, lines := [], outbox := [] }) ∧
      ∃ f, t.forks = s.forks ++ [f] ∧ f.parent = r.addr ∧ f.parentView = r.view ∧ f.living = List.range (x.toNat % 8) ∧ f.winner = none ∧ f.dreg = d.val := by
  have fullI : (part (issued s h regs tokens) s.cur).resident = some r := by simp [full]
  have length : ((freeViews s).take (x.toNat % 8)).length = x.toNat % 8 := List.length_take_of_le room
  obtain ⟨left, ⟨u, hu, parent, asleep⟩, views, forks⟩ := forkNow_leaves fullI (by rwa [issued_monitors])
    ((nodup_freeViews s).sublist (List.take_sublist (x.toNat % 8) _)) (area := x.toNat) (quota := y.toNat) (dreg := d.val) (logged := none) rfl
  have kept := departed_spares (W := fun _ => False) s h (forkNow (issued s h regs tokens) s.cur x.toNat y.toNat d.val ((freeViews s).take (x.toNat % 8)) none)
  refine ⟨_, exec_fork hi good landed dead shallow own quiet room free, (kept.residents _).trans left, ⟨u, kept.asleep _ u id hu, parent, asleep⟩,
    fun i within => ?_, _, kept.forks.trans (forks.trans (by rw [issued_forks])), rfl, rfl, by rw [forkMade, length], rfl, rfl⟩
  have listed : i < (freeViews s).length := lt_of_lt_of_le within room
  have same : ((freeViews s).take (x.toNat % 8)).getD i 0 = (freeViews s)[i] := by simp [within, listed]
  refine ⟨(freeViews s)[i], List.getElem?_eq_getElem listed, ?_⟩
  have made := views i (lt_of_lt_of_eq within length.symm)
  rw [same] at made
  refine (congrArg (fget · _) kept.views).trans (made.trans ?_)
  simp [depthOf]

/-- Settles O55: the clauses on the four words, and the runs of a line. -/
theorem worldWordsForkChooseAndAbandon : Obligations.WorldWordsForkChooseAndAbandon := by
  intro s h regs tokens d a b
  refine ⟨fun x y r hi good landed dead shallow own quiet room free full alone => ?_, fun f idx w hi quiet own view free => exec_choose hi quiet own view free,
    fun f idx v key w hi own rival listed here => exec_abandon hi own rival listed here, fun hi => ⟨_, exec_wid hi, fun w view => ?_, fun gone => ?_⟩,
    fun mask cur i hi => getLsbD_iff_maskRuns mask cur hi⟩
  · exact exec_fork_leaves hi good landed dead shallow own quiet room free full alone
  · rw [worldWord, view]
  · rw [worldWord, gone]

end Sys2Proof.Machine.Proofs
end

section
/-! PROOFS. Launch packets at their window: refused, held or accepted (R203 to R208, R312). -/

namespace Sys2Proof.Machine.Proofs

open Sys2Proof Sys2Proof.Machine Sys2Proof.Machine.Safety Sys2Proof.Machine.Laws

/-! ## The sequence of a pair (R312) -/

/-- The state in which the next packet of a pair is taken: its number is used up, unless the host die or this device sent it. -/
def InTurn (s t : State) (src tag : Nat) : Prop :=
  if src = Config.device ∨ src = 0xFFFE then t = s else fgetD s.arrivedNo (pairKey (numberAgent tag) src) 0 ≤ tag % 2 ^ 64 ∧
    t = { s with arrivedNo := fput s.arrivedNo (pairKey (numberAgent tag) src) (tag % 2 ^ 64 + 1) }

theorem InTurn.eq {s t : State} {src tag : Nat} (turn : InTurn s t src tag) : ∃ l, t = { s with arrivedNo := l } := by
  unfold InTurn at turn
  split at turn
  next => exact ⟨s.arrivedNo, turn⟩
  next => exact ⟨_, turn.2⟩

theorem inPair_inTurn {s t : State} {src tag : Nat} (turn : InTurn s t src tag) (f : State → State) : inPair s src tag f = f t := by
  unfold InTurn at turn
  split at turn
  next own => rw [inPair, if_pos own, turn]
  next away =>
    obtain ⟨new, rfl⟩ := turn
    rw [inPair, if_neg away, inOrder_new new]

theorem inPair_old {s : State} {src tag : Nat} {f : State → State} (device : src ≠ Config.device) (host : src ≠ 0xFFFE)
    (old : tag % 2 ^ 64 < fgetD s.arrivedNo (pairKey (numberAgent tag) src) 0) : inPair s src tag f = s := by
  rw [inPair, if_neg (by simp [device, host]), inOrder_old old]

/-- A packet of 160 bytes at offset 0 of a window reaches its queue in its turn; the host die's, once the port performs it (R203, R255, R383). -/
theorem exec_launchPacket_window {s t : State} {va q off n src tag : Nat} {bytes : List Byte} (here : locOf va = .here q off)
    (window : spotOf s q off = .jobWindow n 0) (length : bytes.length = 160) (port : src = 0xFFFE → s.ready = true ∧ hostWaits s = false)
    (turn : InTurn s t src tag) : exec (.launchPacket va src tag bytes) s = .next (windowTakes t q n src tag bytes) := by
  have performed : ¬ (src = 0xFFFE ∧ (¬ s.ready ∨ hostWaits s)) := by
    rintro ⟨host, shut⟩
    obtain ⟨ready, free⟩ := port host
    simp [ready, free] at shut
  refine congrArg Host.Outcome.next ?_
  rw [if_neg performed, inPair_inTurn turn]
  obtain ⟨l, rfl⟩ := turn.eq
  have same : spotOf { s with arrivedNo := l } q off = .jobWindow n 0 := window
  simp only [packetAt, here, same, length, if_true]

theorem exec_launchPacket_kept {s : State} {va src tag : Nat} {bytes : List Byte} (kept : (src = 0xFFFE ∧ (s.ready = false ∨ hostWaits s = true)) ∨
    (src ≠ Config.device ∧ src ≠ 0xFFFE ∧ tag % 2 ^ 64 < fgetD s.arrivedNo (pairKey (numberAgent tag) src) 0)) :
    exec (.launchPacket va src tag bytes) s = .next s := by
  refine congrArg Host.Outcome.next ?_
  obtain shut | ⟨device, host, old⟩ := kept
  · exact if_pos (by simpa using shut)
  · rw [if_neg (fun c => host c.1), inPair_old device host old]

/-! ## The checks of R207 -/

section
variable {s : State} {q n src tag place : Nat} {bytes : List Byte}

/-- Whether an entry of the access-control list lets a source post to a queue (R225). -/
def Granted (s : State) (q n src : Nat) : Prop := ∃ e, aclFind s src q n = some e ∧ nbit e 3 = true

/-- The card of a packet whose first bits name its source: in a queue that replays, the logged one (R379). -/
def cardOf (s : State) (q n : Nat) (bytes : List Byte) (src : Nat) : BitVec 1024 :=
  if nbit (mgetN s q (regJq n 0)) 4 then loggedCard s q n else BitVec.ofNat 1024 (nset (leNat bytes) 0 16 src / 2 ^ 256)

theorem takePacket_disabled (off : nbit (mgetN s q (regJq n 0)) 0 = false) :
    takePacket s q n src tag bytes place = answerLaunch s q n src tag (nset (leNat bytes) 0 16 src) 5 0 := by
  unfold takePacket
  extract_lets pk cfg card svc denied
  have refused : denied = true := by simp [denied, cfg, off]
  rw [if_pos refused]; rfl

theorem takePacket_ungranted (plain : nbit (mgetN s q (regJq n 0)) 1 = false) (no : ¬ Granted s q n src) :
    takePacket s q n src tag bytes place = answerLaunch s q n src tag (nset (leNat bytes) 0 16 src) 5 0 := by
  unfold takePacket
  extract_lets pk cfg card svc denied
  have refused : denied = true := by
    simp only [denied, svc, cfg, plain, Bool.or_eq_true]
    refine .inr ?_
    cases found : aclFind s src q n with
    | none => rfl
    | some e =>
      have bit : nbit e 3 = false := by simpa using fun yes : nbit e 3 = true => no ⟨e, found, yes⟩
      simp [bit]
  rw [if_pos refused]; rfl

variable (plain : nbit (mgetN s q (regJq n 0)) 1 = false) (enabled : nbit (mgetN s q (regJq n 0)) 0 = true) (grant : Granted s q n src)
include plain enabled grant

/-- A packet that may be posted meets the checks of its card, then the job table. -/
theorem takePacket_granted : takePacket s q n src tag bytes place =
    let pk := nset (leNat bytes) 0 16 src
    if cardBad pk (cardOf s q n bytes src) then answerLaunch s q n src tag pk 3 0
    else if ¬ channelsOk s (cardOf s q n bytes src) then answerLaunch s q n src tag pk 4 0
    else match freeEntry s q n with
      | some a => acceptPacket s q n src tag pk a
      | none => modQuarter s q fun x =>
        { x with held := x.held.take place ++ { checked := true, queue := n, src := src, tag := tag, bytes := leBytes 160 pk } :: x.held.drop place } := by
  obtain ⟨e, found, bit⟩ := grant
  unfold takePacket
  extract_lets pk cfg card svc denied
  have passed : ¬ denied = true := by simp [denied, svc, cfg, plain, enabled, found, bit]
  rw [if_neg passed] <;> rfl

theorem takePacket_malformed (bad : cardBad (nset (leNat bytes) 0 16 src) (cardOf s q n bytes src) = true) :
    takePacket s q n src tag bytes place = answerLaunch s q n src tag (nset (leNat bytes) 0 16 src) 3 0 :=
  (takePacket_granted plain enabled grant).trans (if_pos bad)

variable (good : cardBad (nset (leNat bytes) 0 16 src) (cardOf s q n bytes src) = false)
include good

theorem takePacket_channels (changed : channelsOk s (cardOf s q n bytes src) = false) :
    takePacket s q n src tag bytes place = answerLaunch s q n src tag (nset (leNat bytes) 0 16 src) 4 0 := by
  rw [takePacket_granted plain enabled grant]
  dsimp only
  rw [if_neg (by simp [good]), if_pos (by simp [changed])]

variable (channels : channelsOk s (cardOf s q n bytes src) = true)
include channels

theorem takePacket_accepted {a : Nat} (free : freeEntry s q n = some a) :
    takePacket s q n src tag bytes place = acceptPacket s q n src tag (nset (leNat bytes) 0 16 src) a := by
  rw [takePacket_granted plain enabled grant]
  dsimp only
  rw [if_neg (by simp [good]), if_neg (by simp [channels]), free]

theorem takePacket_full (full : freeEntry s q n = none) : takePacket s q n src tag bytes place = modQuarter s q fun x => { x with
    held := x.held.take place ++ { checked := true, queue := n, src := src, tag := tag, bytes := leBytes 160 (nset (leNat bytes) 0 16 src) } ::
      x.held.drop place } := by
  rw [takePacket_granted plain enabled grant]
  dsimp only
  rw [if_neg (by simp [good]), if_neg (by simp [channels]), full]

end

/-- A job takes an entry that no other has. -/
theorem freeEntry_unused {s : State} {q n a : Nat} (free : freeEntry s q n = some a) : a ∉ jobAddrs s q := by
  unfold freeEntry at free
  split at free
  · cases free
  · simpa using List.find?_some free

/-! ## Windows (R207) -/

theorem windowTakes_stalled {s : State} {q n src tag : Nat} {bytes : List Byte} (waits : stalled s q n src = true) :
    windowTakes s q n src tag bytes = modQuarter s q fun x =>
      { x with held := x.held ++ [{ checked := false, queue := n, src := src, tag := tag, bytes := bytes }] } := if_pos waits

theorem windowTakes_free {s : State} {q n src tag : Nat} {bytes : List Byte} (free : stalled s q n src = false) :
    windowTakes s q n src tag bytes = takePacket s q n src tag bytes := if_neg (by rw [free]; exact Bool.false_ne_true)

/-- A checked packet joins the tail of those that wait. -/
theorem modQuarter_joins (s : State) (q : Nat) (h : HeldPacket) : modQuarter s q (fun x => { x with
    held := x.held.take (quarter s q).held.length ++ h :: x.held.drop (quarter s q).held.length }) = modQuarter s q fun x => { x with held := x.held ++ [h] } :=
  modQuarter_congr (congrArg (fun l => { quarter s q with held := l }) (by rw [List.take_length, List.drop_length]))

/-! ## Packets that wait (R207) -/

theorem modQuarter_modQuarter (s : State) (q : Nat) (f g : Quarter → Quarter) : modQuarter (modQuarter s q f) q g = modQuarter s q fun x => g (f x) := by
  rw [modQuarter, quarter_modQuarter]
  simp only [modQuarter, fput_fput]

section
variable {s : State} {q i : Nat} {h : HeldPacket}

/-- Whether a held packet can move: one that passed its checks finds a free entry, one that did not is behind no other. -/
def mayMove (s : State) (q : Nat) (h : HeldPacket) (i : Nat) : Bool :=
  if h.checked then (freeEntry s q h.queue).isSome else !behind s ((quarter s q).held.take i) h.queue h.src

theorem nextHeld_spec (next : nextHeld s q = some (h, i)) : (quarter s q).held[i]? = some h ∧
    ∀ k g, k < i → (quarter s q).held[k]? = some g → mayMove s q g k = false := by
  obtain ⟨-, k, inside, found, before⟩ := List.find?_eq_some_iff_getElem.1 next
  rw [List.getElem_zipIdx, Prod.mk.injEq, Nat.zero_add] at found
  obtain ⟨rfl, rfl⟩ := found
  rw [List.length_zipIdx] at inside
  refine ⟨List.getElem?_eq_getElem inside, fun m g less at_ => ?_⟩
  obtain ⟨_, rfl⟩ := List.getElem?_eq_some_iff.1 at_
  have stays := before m less
  rw [List.getElem_zipIdx, Nat.zero_add] at stays
  simpa [mayMove] using stays

theorem not_mayMove (stays : mayMove s q h i = false) : (h.checked = true → freeEntry s q h.queue = none) ∧
    (h.checked = false → behind s ((quarter s q).held.take i) h.queue h.src = true) := by
  unfold mayMove at stays
  split at stays <;> simp_all

/-- The packets that wait without the one that moves. -/
def unheld (s : State) (q i : Nat) : State := modQuarter s q fun x => { x with held := x.held.eraseIdx i }

theorem freeEntry_unheld (n : Nat) : freeEntry (unheld s q i) q n = freeEntry s q n := by
  have jobs : (quarter (unheld s q i) q).jobs = (quarter s q).jobs := by rw [unheld, quarter_modQuarter]
  have table : mgetN (unheld s q i) q (regJq n 1) = mgetN s q (regJq n 1) := rfl
  simp only [freeEntry, jobAddrs, jobs, table]

theorem take_cons_drop_eraseIdx {α : Type} {l : List α} {i : Nat} (inside : i < l.length) (a : α) :
    (l.eraseIdx i).take i ++ a :: (l.eraseIdx i).drop i = l.set i a := by
  rw [List.set_eq_take_append_cons_drop, if_pos inside, List.eraseIdx_eq_take_drop_succ]
  have front : (l.take i).length = i := List.length_take_of_le inside.le
  rw [List.take_left' front, List.drop_left' front]

variable (next : nextHeld s q = some (h, i))
include next

theorem exec_launchAccept_checked {a : Nat} (checked : h.checked = true) (free : freeEntry s q h.queue = some a) :
    exec (.launchAccept q) s = .next (acceptPacket (unheld s q i) q h.queue h.src h.tag (leNat h.bytes) a) := by
  refine congrArg Host.Outcome.next ?_
  simp only [acceptHeld, next, checked, free, not_true_eq_false, if_false]
  rfl

theorem exec_launchAccept_unchecked (unchecked : h.checked = false) :
    exec (.launchAccept q) s = .next (takePacket (unheld s q i) q h.queue h.src h.tag h.bytes i) := by
  refine congrArg Host.Outcome.next ?_
  simp only [acceptHeld, next, unchecked, Bool.false_eq_true, not_false_eq_true, if_true]
  rfl

/-- A packet that meets a full job table waits on at its place. -/
theorem modQuarter_unheld (g : HeldPacket) : modQuarter (unheld s q i) q (fun x => { x with held := x.held.take i ++ g :: x.held.drop i }) =
    modQuarter s q fun x => { x with held := x.held.set i g } := by
  obtain ⟨inside, -⟩ := List.getElem?_eq_some_iff.1 (nextHeld_spec next).1
  rw [unheld, modQuarter_modQuarter]
  exact modQuarter_congr (congrArg (fun l => { quarter s q with held := l }) (take_cons_drop_eraseIdx inside g))

end

end Sys2Proof.Machine.Proofs
end

section
/-! PROOFS. Jobs handed out, records picked up, entries aged, jobs completed and cancelled (R205, R212 to R229, R380). -/

namespace Sys2Proof.Machine.Proofs

open Sys2Proof Sys2Proof.Machine Sys2Proof.Machine.Safety Sys2Proof.Machine.Laws

/-! ## A partition that takes a record (R212, R215, R218) -/

/-- A partition that has not lost the mangle takes the issue with nothing of it changed but its windows and its hold timer (R219). -/
theorem part_takeIssue {s : State} {p : Nat} (kept : (part s p).lostMangle = false) : part (takeIssue s p) p = { part s p with
    windowEnd := if (part s p).due then s.time + 256 else 0, due := false, preempted := false, holdSince := s.time - (part s p).holdSince } := by
  unfold takeIssue
  extract_lets s' t
  have same : (part t p).lostMangle = false := by simp [t, s', kept]
  rw [if_neg (by simp [same]), part_modPart, part_modCore]
  rfl

/-- A partition as it stands with its record: the record is one stay more, and the issue may have been taken at once. -/
structure Holds (x : Part) (r : Resident) (y : Part) : Prop where
  resident : ∃ stay, y.resident = some { r with stay := stay }
  rest : { y with resident := x.resident, windowEnd := x.windowEnd, due := x.due, preempted := x.preempted, holdSince := x.holdSince } = x

theorem holds_makeResident (s : State) (p : Nat) {x : Part} (r : Resident) (kept : x.lostMangle = false) : Holds x r (part (makeResident s p x r) p) := by
  unfold makeResident
  extract_lets c idle s' t
  have set : part t p = { x with resident := some { r with stay := s'.nextSeq } } := part_setPart ..
  split
  · rw [part_takeIssue (by rw [part_modCore, set, kept]), part_modCore, set]
    exact ⟨⟨_, rfl⟩, rfl⟩
  · rw [set]
    exact ⟨⟨_, rfl⟩, rfl⟩

/-- The state of a partition to which an iteration is handed out, before its record (R212). -/
def handedPart (s : State) (j : Job) (p slot : Nat) : Part :=
  let x := cleared s p (w64 (cardFld j.card 416 32)) (if j.service then 2 else 0)
  { x with regs := (List.range 6).map fun i => (i + 1, [w64 (walkIndex j.card j.handed i)]), cont := w64 slot, workid := w64 (workidOf j.card j.handed),
           asid := j.asid, pc := w64 (cardFld j.card 0 64), mailboxes := loadMailboxes x.mailboxes j.card }

theorem part_handOut (s : State) (j : Job) (p slot level : Nat) : Holds (handedPart s j p slot)
    { addr := slot, job := j.addr, view := 0, level := level, base := j.prio, rival := false, ordinal := 0, stay := 0 } (part (handOut s j p slot level) p) := by
  unfold handOut
  extract_lets x regs x' s' t q u
  have handed := holds_makeResident s p (x := x')
    { addr := slot, job := j.addr, view := 0, level := level, base := j.prio, rival := false, ordinal := 0, stay := 0 } rfl
  split <;> exact handed

theorem fgetD_loadMailboxes {m : FMap W64} {c : BitVec 1024} {i : Nat} (low : i < 4) :
    fgetD (loadMailboxes m c) i 0 = w64 (cardFld c (512 + 64 * i) 64) := by
  simp only [loadMailboxes, List.foldl_cons, List.foldl_nil, fgetD_fput]
  obtain rfl | rfl | rfl | rfl : i = 0 ∨ i = 1 ∨ i = 2 ∨ i = 3 := by omega
  all_goals simp

theorem fgetD_loadMailboxes_other {m : FMap W64} {c : BitVec 1024} {i : Nat} (high : 4 ≤ i) : fgetD (loadMailboxes m c) i 0 = fgetD m i 0 := by
  simp only [loadMailboxes, List.foldl_cons, List.foldl_nil, fgetD_fput]
  simp [show i ≠ 0 ∧ i ≠ 1 ∧ i ≠ 2 ∧ i ≠ 3 by omega]

theorem fgetD_indexRegs {f : Nat → List W64} {i : Nat} (low : i < 6) : fgetD ((List.range 6).map fun i => (i + 1, f i)) (i + 1) [] = f i := by
  obtain rfl | rfl | rfl | rfl | rfl | rfl : i = 0 ∨ i = 1 ∨ i = 2 ∨ i = 3 ∨ i = 4 ∨ i = 5 := by omega
  all_goals rfl

theorem fgetD_indexRegs_other {f : Nat → List W64} {r : Nat} (other : r = 0 ∨ 6 < r) : fgetD ((List.range 6).map fun i => (i + 1, f i)) r [] = [] := by
  simp only [List.range, List.range.loop, List.map_cons, List.map_nil, fgetD, fget]
  rw [if_neg (by omega), if_neg (by omega), if_neg (by omega), if_neg (by omega), if_neg (by omega), if_neg (by omega)]
  rfl

/-! ## Hand-out (R212, R224) -/

section
variable {s : State} {q p job : Nat} {e : LevelEntry} {j : Job} (serves : nextEntry s q = some e) (place : placeOn s q = some p) (item : e.item = .job job)
  (entry : findJob s job = some j)
include serves place item entry

theorem exec_jobDispatch_changed (ready : j.phase = .ready) (changed : channelsOk s j.card = false) :
    exec (.jobDispatch q job) s = .next (freeJob (finalStatus s j 4) job) := by
  refine congrArg Host.Outcome.next ?_
  simp only [dispatchJob, serves, place, item, entry, ready, changed, ne_eq, not_true_eq_false, Bool.false_eq_true, if_false]
  rfl

theorem exec_jobDispatch_handed {slot : Nat} (ready : j.phase = .ready) (channels : channelsOk s j.card = true) (free : freeSlot s j = some slot) :
    exec (.jobDispatch q job) s = .next (handOut (modJob s job fun j => { j with phase := .dispatched }) j p slot e.level) := by
  refine congrArg Host.Outcome.next ?_
  simp only [dispatchJob, serves, place, item, entry, ready, channels, free, ne_eq, not_true_eq_false, if_false, if_true]

theorem exec_iterationHandout_handed {slot : Nat} (dispatched : j.phase = .dispatched) (free : freeSlot s j = some slot) :
    exec (.iterationHandout q) s = .next (handOut s j p slot e.level) := by
  refine congrArg Host.Outcome.next ?_
  simp only [handOutNext, serves, place, item, entry, dispatched, free, if_true]

omit serves place item entry in
theorem handedPart_modJob (addr : Nat) (f : Job → Job) (slot : Nat) : handedPart (modJob s addr f) j p slot = handedPart s j p slot := by
  simp only [handedPart, cleared, modJob, part_modQuarter, modQuarter_time, mgetN, mget, modQuarter_mgmt]

/-- Both steps that hand out an iteration do the same with the partition that takes it. -/
theorem exec_handsOut {slot : Nat} {i : Instr} (free : freeSlot s j = some slot) (step : (i = .jobDispatch q job ∧ j.phase = .ready ∧ channelsOk s j.card = true) ∨
    (i = .iterationHandout q ∧ j.phase = .dispatched)) : ∃ t, exec i s = .next t ∧ Holds (handedPart s j p slot)
      { addr := slot, job := j.addr, view := 0, level := e.level, base := j.prio, rival := false, ordinal := 0, stay := 0 } (part t p) := by
  obtain ⟨rfl, ready, channels⟩ | ⟨rfl, dispatched⟩ := step
  · exact ⟨_, exec_jobDispatch_handed serves place item entry ready channels free, handedPart_modJob job _ slot ▸ part_handOut _ j p slot _⟩
  · exact ⟨_, exec_iterationHandout_handed serves place item entry dispatched free, part_handOut s j p slot _⟩

end

/-! ## Records picked up (R215) -/

/-- The fields of a record's bytes that a partition takes over (R213), before the record itself. -/
def pickedPart (s : State) (r : Suspended) (p : Nat) (bs : List Byte) : Part :=
  let v := leNat bs
  let card := match findJob s (nfld v 128 64) with | some j => j.card | none => 0
  let service := match findJob s (nfld v 128 64) with | some j => j.service | none => false
  let x := cleared s p (w64 (cardFld card 416 32)) (if service then 2 else 0)
  { x with carry := [0, 1, 2, 3].map fun k => (k, w64 (nfld v (256 + 64 * k) 64)), cont := w64 r.addr, workid := w64 (nfld v 64 64), asid := nfld v 48 16,
           pc := w64 (0xFFFF * 2 ^ 48 + nfld v 2 46 * 4), mailboxes := loadMailboxes x.mailboxes card, regs := [] }

/-- The record whose bytes a partition has read (R213). -/
def pickedRecordOf (r : Suspended) (level : Nat) (bs : List Byte) : Resident :=
  let v := leNat bs
  { addr := r.addr, job := nfld v 128 64, view := nfld v 244 12, level := level, base := nfld v 227 3, rival := r.rival, ordinal := r.ordinal, stay := 0,
    gleaned := r.gleaned }

/-- A quarter without a record that a partition has picked up. -/
def unsuspended (s : State) (q addr : Nat) : State := modQuarter s q fun y => { y with
  suspended := y.suspended.filter (fun r => r.addr != addr), levels := y.levels.filter fun e => e.item != .record addr }

theorem pickUp_read {s u : State} {q p level : Nat} {r : Suspended} {bs : List Byte} (untested : slicesTested s = [])
    (read : readVa s { part := p, agent := .control, asid := r.asid, view := 0, job := r.job } (r.addr % 2 ^ 64) 64 0 = (u, .ok bs))
    (undelivered : nfld (leNat bs) 239 5 = 0) :
    pickUp s q r p level = makeResident (unsuspended u q r.addr) p (pickedPart u r p bs) (pickedRecordOf r level bs) := by
  obtain ⟨reader, reads⟩ : ∃ f, f = readVa := ⟨_, rfl⟩
  unfold pickUp
  rw [← reads] at read ⊢
  simp only [waitsHome_untested untested, read, undelivered, Bool.false_eq_true, if_false, if_true]
  rfl

theorem quarter_takeIssue {s : State} {p : Nat} (kept : (part s p).lostMangle = false) (q : Nat) : quarter (takeIssue s p) q = quarter s q := by
  unfold takeIssue
  extract_lets s' t
  have same : (part t p).lostMangle = false := by simp [t, s', kept]
  rw [if_neg (by simp [same])]
  rfl

theorem quarter_makeResident (s : State) (p : Nat) {x : Part} (r : Resident) (kept : x.lostMangle = false) (q : Nat) :
    quarter (makeResident s p x r) q = quarter s q := by
  unfold makeResident
  extract_lets c idle s' t
  split
  · rw [quarter_takeIssue (by rw [part_modCore, part_setPart, kept])]
    rfl
  · rfl

theorem exec_recordPickup_read {s u : State} {q p a : Nat} {e : LevelEntry} {r : Suspended} {bs : List Byte} (first : pickUpAgain s q = none)
    (serves : nextEntry s q = some e) (place : placeOn s q = some p) (item : e.item = .record a)
    (asleep : (quarter s q).suspended.find? (fun r => r.addr == a) = some r) (untested : slicesTested s = [])
    (read : readVa s { part := p, agent := .control, asid := r.asid, view := 0, job := r.job } (r.addr % 2 ^ 64) 64 0 = (u, .ok bs))
    (undelivered : nfld (leNat bs) 239 5 = 0) : exec (.recordPickup q) s =
      .next (makeResident (unsuspended u q r.addr) p (pickedPart u r p bs) (pickedRecordOf r e.level bs)) := by
  refine congrArg Host.Outcome.next ?_
  simp only [pickUpNext, first, serves, place, item, asleep]
  exact pickUp_read untested read undelivered

/-- Reading memory leaves the job table. -/
theorem findJob_read {s u : State} {c : Ctx} {va n hint : Nat} {r : Except MemErr (List Byte)} (read : readVa s c va n hint = (u, r)) (job : Nat) :
    findJob u job = findJob s job := by
  have same : u.quarters = s.quarters := by simpa only [read] using readVa_quarters s c va n hint
  simp only [findJob, quarter, same]

/-! ## Ageing (R217) -/

theorem exec_schedAge_older {s : State} {q : Nat} {e : LevelEntry}
    (older : (quarter s q).levels.find? (fun e => decide (e.level < 7 ∧ e.since + mgetN s q regAge * 1250 < s.time)) = some e) :
    exec (.schedAge q) s = .next (modQuarter s q fun x => { x with
      levels := dropFirst (· == e) x.levels ++ [{ level := e.level + 1, item := e.item, since := s.time }] }) := by
  refine congrArg Host.Outcome.next ?_
  have due : (quarter s q).levels.find? (fun e => decide (e.level < 7 ∧ e.since + mgetN s q regAge * acPerUs < s.time)) = some e := older
  simp only [ageLevels, due, joinLevel, modQuarter_modQuarter, modQuarter_time]

/-! ## Completion (R227, R380) -/

section
variable {s : State} {q job : Nat} {j : Job}

theorem mem_of_fget {α : Type} {m : FMap α} {k : Nat} {v : α} (listed : fget m k = some v) : (k, v) ∈ m := by
  induction m with
  | nil => cases listed
  | cons b r ih =>
    rw [fget] at listed
    split at listed
    next same => cases listed; rw [same]; exact List.mem_cons_self
    next => exact List.mem_cons_of_mem _ (ih listed)

theorem stores_of_part {p : Nat} {w : StoreWait} (waits : w ∈ (part s p).stores) : ∃ x ∈ s.parts, w ∈ x.2.stores := by
  unfold part fgetD at waits
  cases listed : fget s.parts p with
  | none => rw [listed] at waits; cases waits
  | some x =>
    rw [listed] at waits
    exact ⟨(p, x), mem_of_fget listed, waits⟩

/-- A write that still stands in a store queue is left of its job (R249). -/
theorem writesLeft_of_store {p : Nat} {w : StoreWait} (waits : w ∈ (part s p).stores) (own : w.ctx.job = job) : writesLeft s job = true := by
  obtain ⟨x, listed, stands⟩ := stores_of_part waits
  have stored : s.parts.any (fun x => x.2.stores.any fun w => w.ctx.job == job) = true :=
    List.any_eq_true.2 ⟨x, listed, List.any_eq_true.2 ⟨w, stands, beq_iff_eq.2 own⟩⟩
  simp only [writesLeft, stored, Bool.true_or]

theorem finalStatus_unanswered (reply : j.reply = 0) (st : Nat) : finalStatus s j st = captureItem s j.addr 0x08 0 0 0 0 0 st [] := by
  have none : replyWrite s (nfld j.addr 46 2) j.queue j.asid j.addr j.reply.toNat 16 (leBytes 8 st) = s := if_pos (.inl (by rw [reply]; rfl))
  rw [finalStatus, none]

theorem finalStatus_silent (reply : j.reply = 0) (live : s.capture = false) (st : Nat) : finalStatus s j st = s := by
  rw [finalStatus_unanswered reply, captureItem_uncaptured live]

/-- A job that answers nowhere and adds nowhere leaves the table at once. -/
theorem finishJob_silent (reply : j.reply = 0) (done : cardFld j.card 64 64 = 0) (written : finalStatus s j j.status = s) : finishJob s j = freeJob s j.addr := by
  have untested : endTested s j = false := by simp [endTested, reply, done]
  have added : completionAdd s j = (s, true) := if_pos done
  simp only [finishJob, untested, written, ite_self, added, Bool.false_eq_true, if_false]

theorem captureItem_replayed {kind n view ord addr val : Nat} {workid : W64} {data : List Byte} (entry : findJob s job = some j) (replays : j.replay = true) :
    captureItem s job kind n workid view ord addr val data = s := by
  simp only [captureItem, entry]
  exact if_pos (.inl replays)

theorem findJob_noteDivergence (addr ord : Nat) : findJob (noteDivergence s j addr ord) job = findJob s job := by
  have same : (noteDivergence s j addr ord).quarters = s.quarters := by
    simp only [noteDivergence, appendError]
    split <;> rfl
  simp only [findJob, quarter, same]

variable (entry : findJob s job = some j) (dispatched : j.phase = .dispatched) (handed : cardTotal j.card ≤ j.handed) (idle : j.live = 0)
  (drained : tableWork s job = false) (named : j.addr = job)
include entry dispatched handed idle drained named

theorem jobMayEnd_iff_written : jobMayEnd s j = !writesLeft s job := by
  subst named
  simp [jobMayEnd, dispatched, handed, idle, drained]

theorem exec_jobComplete_waits (left : writesLeft s job = true) : exec (.jobComplete q job) s = .next s := by
  refine congrArg Host.Outcome.next ?_
  simp only [completeJob, entry, jobMayEnd_iff_written entry dispatched handed idle drained named, left]
  rfl

theorem exec_jobComplete_ends (written : writesLeft s job = false) : exec (.jobComplete q job) s = .next (closeJob s j) := by
  refine congrArg Host.Outcome.next ?_
  simp only [completeJob, entry, jobMayEnd_iff_written entry dispatched handed idle drained named, written]
  rfl

omit entry dispatched handed idle drained in
theorem closeJob_silent (reply : j.reply = 0) (done : cardFld j.card 64 64 = 0) (live : s.capture = false) (whole : j.status ≠ 0 ∨ logEnded s job = false) :
    closeJob s j = freeJob s job := by
  subst named
  have kept : ¬ (j.phase ≠ .ending ∧ j.status = stOk ∧ logEnded s j.addr) := by
    rintro ⟨-, ok, ended⟩
    obtain bad | open_ := whole
    · exact bad ok
    · rw [open_] at ended; cases ended
  rw [closeJob, if_neg kept, finishJob_silent reply done (finalStatus_silent reply live _)]

omit handed idle drained in
/-- A replayed job whose log has ended before it leaves the table, with the divergence noted (R380). -/
theorem closeJob_diverged (reply : j.reply = 0) (done : cardFld j.card 64 64 = 0) (ok : j.status = 0) (ended : logEnded s job = true) :
    closeJob s j = freeJob (noteDivergence s j 0 0) job := by
  subst named
  have replays : j.replay = true := by
    rw [logEnded, entry] at ended
    exact (Bool.and_eq_true_iff.1 ended).1
  have apart : j.phase ≠ .ending := by rw [dispatched]; decide
  have same : findJob (noteDivergence s j 0 0) j.addr = some j := (findJob_noteDivergence 0 0).trans entry
  have written : finalStatus (noteDivergence s j 0 0) { j with status := stFaulted } stFaulted = noteDivergence s j 0 0 := by
    rw [finalStatus_unanswered (j := { j with status := stFaulted }) reply]
    exact captureItem_replayed same replays
  rw [closeJob, if_pos ⟨apart, ok, ended⟩]
  exact finishJob_silent reply done written

end

/-! ## Cancels (R229) -/

section
variable {s t : State} {src tag k job : Nat} {j : Job}

/-- A cancel is answered in its turn, from what the job queue finds. -/
theorem exec_cancelRequest_answer (turn : InTurn s t src tag) :
    exec (.cancelRequest src tag job) s = .next (answerTo (cancelJob t src job).1 src tag (w64 (cancelJob t src job).2)) :=
  congrArg Host.Outcome.next (inPair_inTurn turn _)

variable (named : localKey job = some k) (entry : findJob t (Config.device * 2 ^ 48 + k) = some j)
include named entry

theorem cancelJob_denied (denied : ∀ e, aclFind t src (nfld (Config.device * 2 ^ 48 + k) 46 2) j.queue = some e → nbit e 4 = false) :
    cancelJob t src job = (t, 5) := by
  cases found : aclFind t src (nfld (Config.device * 2 ^ 48 + k) 46 2) j.queue with
  | none => simp only [cancelJob, named, entry, found]; rfl
  | some e => simp only [cancelJob, named, entry, found, denied e found, Bool.false_eq_true, not_false_eq_true, if_true]; rfl

variable {e : Nat} (found : aclFind t src (nfld (Config.device * 2 ^ 48 + k) 46 2) j.queue = some e) (grant : nbit e 4 = true)
include found grant

theorem cancelJob_late (late : j.phase = .dispatched ∨ j.phase = .ending) : cancelJob t src job = (t, 2) := by
  have started : ¬ (j.phase = .waiting ∨ j.phase = .ready) := by
    obtain p | p := late <;> rw [p] <;> decide
  simp only [cancelJob, named, entry, found, grant, started, not_true_eq_false, if_false]
  rfl

theorem cancelJob_early (early : j.phase = .waiting ∨ j.phase = .ready) :
    cancelJob t src job = (freeJob (finalStatus t j 1) (Config.device * 2 ^ 48 + k), 1) := by
  simp only [cancelJob, named, entry, found, grant, early, not_true_eq_false, if_false, if_true]
  rfl

end

/-- Settles O42: a packet at its window, the held packets, hand-out, pick-up, ageing, completion and cancels, each in its cases. -/
theorem jobsAcceptedHandedOutAndCompleted : Obligations.JobsAcceptedHandedOutAndCompleted := by
  refine ⟨fun s t va q off n src tag bytes here window length port turn => ?window, fun s va src tag bytes kept => exec_launchPacket_kept kept,
    fun s q a i h next => ?waiting, fun s q idle => congrArg Host.Outcome.next (by simp only [acceptHeld, idle]), fun s q p job e j serves place item entry => ?dispatched,
    fun s u q p a e r bs first serves place item asleep read undelivered untested => ?pickedUp, fun s q e older => exec_schedAge_older older,
    fun s q job j entry dispatched handed idle drained named => ?completed, fun s j st reply live => finalStatus_silent reply live st,
    fun s t src tag k e job j turn named entry => ?cancelled⟩
  case window =>
    have taken : exec (.launchPacket va src tag bytes) s = .next (windowTakes t q n src tag bytes) := exec_launchPacket_window here window length port turn
    have entries : jobAddrs t q = jobAddrs s q := by obtain ⟨l, rfl⟩ := InTurn.eq turn; rfl
    refine ⟨fun waits => by rw [taken, windowTakes_stalled waits], fun free plain => ?_⟩
    rw [taken, windowTakes_free free]
    refine ⟨?_, fun ⟨enabled, grant⟩ bad => ?_, fun ⟨enabled, grant⟩ good changed => ?_, fun ⟨enabled, grant⟩ good channels full => ?_,
      fun ⟨enabled, grant⟩ good channels a unused => ⟨?_, entries ▸ freeEntry_unused unused⟩⟩
    · rintro (off | no)
      · rw [takePacket_disabled off]
      · rw [takePacket_ungranted plain no]
    · rw [takePacket_malformed plain enabled grant bad]
    · rw [takePacket_channels plain enabled grant good changed]
    · rw [takePacket_full plain enabled grant good channels full, modQuarter_joins]
    · rw [takePacket_accepted plain enabled grant good channels unused]
  case waiting =>
    obtain ⟨stands, before⟩ := nextHeld_spec next
    refine ⟨stands, fun k g less at_ => not_mayMove (before k g less at_), fun checked free => exec_launchAccept_checked next checked free,
      fun unchecked off => ?_, fun unchecked enabled plain fresh grant good channels => ?_⟩
    · rw [exec_launchAccept_unchecked next unchecked, takePacket_disabled (s := unheld s q i) off]
      rfl
    · have card : cardOf (unheld s q i) q h.queue h.bytes h.src = BitVec.ofNat 1024 (nset (leNat h.bytes) 0 16 h.src / 2 ^ 256) := if_neg (by
        change ¬ nbit (mgetN s q (regJq h.queue 0)) 4 = true
        rw [fresh]; exact Bool.false_ne_true)
      rw [← card] at good channels
      rw [exec_launchAccept_unchecked next unchecked]
      refine ⟨fun full => ?_, fun free => ?_⟩
      · rw [takePacket_full (s := unheld s q i) plain enabled grant good channels ((freeEntry_unheld _).trans full), modQuarter_unheld next]
      · rw [takePacket_accepted (s := unheld s q i) plain enabled grant good channels ((freeEntry_unheld _).trans free)]
        rfl
  case dispatched =>
    refine ⟨exec_jobDispatch_changed serves place item entry, fun slot i free step => ?_⟩
    obtain ⟨t, made, ⟨stay, record⟩, rest⟩ := exec_handsOut serves place item entry free step
    have regs := congrArg Part.regs rest
    have boxes := congrArg Part.mailboxes rest
    dsimp only at regs boxes
    refine ⟨t, made, _, rfl, congrArg Part.pc rest, congrArg Part.workid rest, congrArg Part.asid rest, congrArg Part.cont rest, congrArg Part.priv rest,
      congrArg Part.unflagged rest, congrArg Part.flights rest, congrArg Part.loops rest, congrArg Part.tokens rest, congrArg Part.sems rest,
      congrArg Part.carry rest, fun i low => ?_, fun r other => ?_, fun i low => ?_, fun i high => ?_, _, record, rfl, rfl, rfl, rfl, rfl, rfl⟩
    · rw [regs]; exact fgetD_indexRegs low
    · rw [regs]; exact fgetD_indexRegs_other other
    · rw [boxes]; exact fgetD_loadMailboxes low
    · rw [boxes]; exact fgetD_loadMailboxes_other high
  case pickedUp =>
    have picked := holds_makeResident (unsuspended u q r.addr) p (x := pickedPart u r p bs) (pickedRecordOf r e.level bs) rfl
    obtain ⟨⟨stay, record⟩, rest⟩ := picked
    have carry := congrArg Part.carry rest
    dsimp only at carry
    refine ⟨_, exec_recordPickup_read first serves place item asleep untested read undelivered, _, rfl, congrArg Part.pc rest, congrArg Part.workid rest,
      congrArg Part.asid rest, congrArg Part.cont rest, ?_, congrArg Part.regs rest, congrArg Part.loops rest, congrArg Part.flights rest, fun i low => ?_,
      ⟨_, record, rfl, rfl, rfl, rfl⟩, fun z awake => ?_⟩
    · refine (congrArg Part.priv rest :).trans ?_
      simp only [pickedPart, cleared, findJob_read read]
      cases findJob s (nfld (leNat bs) 128 64) <;> rfl
    · rw [carry]
      obtain rfl | rfl | rfl | rfl : i = 0 ∨ i = 1 ∨ i = 2 ∨ i = 3 := by omega
      all_goals rfl
    · rw [quarter_makeResident _ _ _ rfl, unsuspended, quarter_modQuarter] at awake
      exact bne_iff_ne.1 (List.mem_filter.1 awake).2
  case completed =>
    refine ⟨fun p w waits own => exec_jobComplete_waits entry dispatched handed idle drained named (writesLeft_of_store waits own),
      fun written reply done => ?_⟩
    rw [exec_jobComplete_ends entry dispatched handed idle drained named written]
    exact ⟨fun live whole => by rw [closeJob_silent named reply done live whole], fun ok ended => by
      rw [closeJob_diverged entry dispatched named reply done ok ended]⟩
  case cancelled =>
    have same : findJob t (Config.device * 2 ^ 48 + k) = some j := by obtain ⟨l, rfl⟩ := InTurn.eq turn; exact entry
    have list (n : Nat) : aclFind s src (nfld (Config.device * 2 ^ 48 + k) 46 2) n = aclFind t src (nfld (Config.device * 2 ^ 48 + k) 46 2) n := by
      obtain ⟨l, rfl⟩ := InTurn.eq turn; rfl
    rw [exec_cancelRequest_answer turn, list]
    exact ⟨fun found grant late => by rw [cancelJob_late named same found grant late]; rfl,
      fun found grant early => by rw [cancelJob_early named same found grant early]; rfl, fun denied => by rw [cancelJob_denied named same denied]; rfl⟩

end Sys2Proof.Machine.Proofs
end

section
/-! PROOFS. What gives no retry signal, queues no fault, and leaves a job that the runtime has ended as it is (R228, R371, R372). -/

namespace Sys2Proof.Machine.Proofs

open Sys2Proof Sys2Proof.Machine Sys2Proof.Machine.Safety Sys2Proof.Machine.Laws

/-! ## Steps without a signal -/

/-- A quarter holds a job that has ended FAULTED, and none of its levels hands the job out (R228). -/
def EndedIn (job : Nat) (x : Quarter) : Prop :=
  (∃ j, x.jobs.find? (fun j => j.addr == job) = some j ∧ j.status = 6) ∧ ∀ e ∈ x.levels, e.item ≠ .job job

/-- No retry signal is given and no fault is queued or waits, and a job that has ended stays so. -/
structure Calm (job : Nat) (s t : State) : Prop where
  retries : t.retries = s.retries
  faults : t.faults = s.faults
  waiting : t.faultsWaiting = s.faultsWaiting
  ended : ∀ q, EndedIn job (quarter s q) → EndedIn job (quarter t q)

variable {job : Nat}

namespace Calm

theorem rfl (s : State) : Calm job s s := ⟨Eq.refl _, Eq.refl _, Eq.refl _, fun _ h => h⟩

theorem trans {s t u : State} (h : Calm job s t) (k : Calm job t u) : Calm job s u :=
  ⟨k.retries.trans h.retries, k.faults.trans h.faults, k.waiting.trans h.waiting, fun q e => k.ended q (h.ended q e)⟩

theorem of_fields {s t : State} (retries : t.retries = s.retries) (faults : t.faults = s.faults) (waiting : t.faultsWaiting = s.faultsWaiting)
    (quarters : t.quarters = s.quarters) : Calm job s t :=
  ⟨retries, faults, waiting, fun q e => by unfold quarter at e ⊢; rwa [quarters]⟩

theorem of_read {s t : State} (same : SameButRead s t) : Calm job s t := by
  obtain ⟨b, f, d, g, e, q, l, n, m, same⟩ := same
  subst same
  exact of_fields (Eq.refl _) (Eq.refl _) (Eq.refl _) (Eq.refl _)

/-- A change of other fields first makes no difference. -/
theorem after {s t u : State} (h : Calm job t u) (retries : t.retries = s.retries) (faults : t.faults = s.faults)
    (waiting : t.faultsWaiting = s.faultsWaiting) (quarters : t.quarters = s.quarters) : Calm job s u := (of_fields retries faults waiting quarters).trans h

theorem fst {α : Type} {s t : State} {a : α} {x : State × α} (h : Calm job s x.1) (made : x = (t, a)) : Calm job s t := by rw [made] at h; exact h

theorem foldl {α : Type} {f : State → α → State} (calm : ∀ s a, Calm job s (f s a)) (l : List α) (s : State) : Calm job s (l.foldl f s) := by
  induction l generalizing s with
  | nil => exact rfl s
  | cons a l ih => exact (calm s a).trans (ih _)

theorem modPart (s : State) (p : Nat) (f : Part → Part) : Calm job s (modPart s p f) := of_fields (Eq.refl _) (Eq.refl _) (Eq.refl _) (Eq.refl _)

theorem modCore (s : State) (c : Nat) (f : Core → Core) : Calm job s (modCore s c f) := of_fields (Eq.refl _) (Eq.refl _) (Eq.refl _) (Eq.refl _)

theorem modQuarter_of (s : State) (q : Nat) {f : Quarter → Quarter} (keeps : ∀ x, EndedIn job x → EndedIn job (f x)) : Calm job s (modQuarter s q f) := by
  refine ⟨Eq.refl _, Eq.refl _, Eq.refl _, fun r e => ?_⟩
  by_cases own : r = q
  · subst own; rw [quarter_modQuarter]; exact keeps _ e
  · rwa [quarter_modQuarter_other _ _ own]

/-- A change of a quarter outside its job table and its levels. -/
theorem modQuarter (s : State) (q : Nat) {f : Quarter → Quarter} (jobs : ∀ x, (f x).jobs = x.jobs) (levels : ∀ x, (f x).levels = x.levels) :
    Calm job s (modQuarter s q f) :=
  modQuarter_of s q fun x e => by unfold EndedIn; rwa [jobs, levels]

end Calm

/-- Where one more record of some job is gone, the entry of a job is found as before, with its status. -/
theorem find_replaceFirst {l : List Job} {f : Job → Job} {p : Job → Bool} (addr : ∀ j, (f j).addr = j.addr) (status : ∀ j, (f j).status = j.status)
    {j : Job} (found : l.find? (fun j => j.addr == job) = some j) :
    ∃ i, (replaceFirst p f l).find? (fun j => j.addr == job) = some i ∧ i.status = j.status := by
  induction l with
  | nil => cases found
  | cons a l ih =>
    rw [replaceFirst]
    by_cases own : (a.addr == job) = true
    · rw [List.find?_cons_of_pos (p := fun j : Job => j.addr == job) own] at found
      cases found
      split
      · exact ⟨f j, List.find?_cons_of_pos (p := fun j : Job => j.addr == job) (by rwa [addr]), status j⟩
      · exact ⟨j, List.find?_cons_of_pos (p := fun j : Job => j.addr == job) own, rfl⟩
    · rw [List.find?_cons_of_neg (p := fun j : Job => j.addr == job) own] at found
      split
      · exact ⟨j, by rw [List.find?_cons_of_neg (p := fun j : Job => j.addr == job) (by rwa [addr])]; exact found, rfl⟩
      · rw [List.find?_cons_of_neg (p := fun j : Job => j.addr == job) own]
        exact ih found

section
open Calm

variable (s : State)

theorem mset_calm (q off : Nat) (v : W64) : Calm job s (mset s q off v) := of_fields rfl rfl rfl rfl

theorem unpick_calm (addr : Nat) : Calm job s (unpick s addr) := of_fields rfl rfl rfl rfl

theorem joinLevel_calm (q lvl addr : Nat) : Calm job s (joinLevel s q lvl (.record addr)) :=
  modQuarter_of s q fun x ⟨entry, levels⟩ => ⟨entry, fun e he => by
    obtain old | new := List.mem_append.1 he
    · exact levels e old
    · rw [List.mem_singleton.1 new]; exact LevelItem.noConfusion⟩

theorem recordReady_calm (q addr : Nat) : Calm job s (recordReady s q addr) := by
  unfold recordReady
  split
  next r found =>
    split
    · refine (unpick_calm s addr).trans (modQuarter_of _ q fun x ⟨⟨j, entry, ended⟩, levels⟩ => ⟨?_, levels⟩)
      dsimp only
      split
      · exact ⟨j, entry, ended⟩
      · obtain ⟨i, found, same⟩ := find_replaceFirst (p := fun j => j.addr == r.job) (f := fun j => { j with live := j.live - 1 }) (fun _ => rfl) (fun _ => rfl) entry
        exact ⟨i, found, same.trans ended⟩
    · split
      · exact Calm.rfl s
      · dsimp only
        have waked := Calm.modQuarter (job := job) s q (f := fun x => { x with
          suspended := replaceFirst (fun r => r.addr == addr) (fun r => { r with wake := .ready }) x.suspended }) (fun _ => rfl) fun _ => rfl
        split
        · exact waked
        · exact waked.trans (joinLevel_calm _ _ _ _)
  · exact Calm.rfl s

/-! ## Writes of base memory (R60, R75) -/

theorem fireMonitor_calm (m : Monitor) : Calm job s (fireMonitor s m) := by
  have gone : Calm job s { s with monitors := s.monitors.filter (fun x => x.id != m.id) } := of_fields rfl rfl rfl rfl
  unfold fireMonitor
  dsimp only
  split
  · exact gone.trans (Calm.modPart _ _ _)
  · exact gone.trans (foldl (fun s q => recordReady_calm s q _) _ _)
  · exact of_fields rfl rfl rfl rfl

theorem fireLine_calm (pa : Nat) : Calm job s (fireLine s pa) := foldl (fun s m => fireMonitor_calm s m) _ s

theorem mbump_calm (q off w : Nat) : Calm job s (mbump s q off w) := of_read (mbump_same s q off w)

variable {s} {c : Ctx}

theorem writePiece_calm (base : c.view = 0) (va : Nat) (bs : List Byte) (hint : Nat) (first : Bool) : Calm job s (writePiece s c va bs hint first).1 := by
  unfold writePiece
  split
  next q off here =>
    have leaf : Calm job s (noteLeaf s q c.asid off) := of_read (noteLeaf_same s q c.asid off)
    split
    · split
      · exact leaf
      next pte may =>
        simp only [base, ne_eq, not_true_eq_false, if_false]
        exact (leaf.trans (of_read (writeBase_same _ c q off pte bs hint))).trans (fireLine_calm _ _)
    · dsimp only
      split
      · exact mbump_calm s _ _ _
      · exact Calm.rfl s
    · exact Calm.rfl s
    · exact Calm.rfl s
  · exact Calm.rfl s

theorem writePieces_calm (base : c.view = 0) (bs : List Byte) (hint va0 : Nat) (ps : List (Nat × Nat)) : Calm job s (writePieces s c bs hint va0 ps).1 := by
  induction ps generalizing s with
  | nil => exact Calm.rfl s
  | cons x ps ih =>
    unfold writePieces
    split
    next made => exact (writePiece_calm base _ _ _ _).fst made
    next t made => exact ((writePiece_calm base _ _ _ _).fst made).trans ih

theorem writeVa_calm (base : c.view = 0) (va : Nat) (bs : List Byte) (hint : Nat) : Calm job s (writeVa s c va bs hint).1 :=
  writePieces_calm base bs hint va _

theorem readNum_calm (va n hint : Nat) : Calm job s (readNum s c va n hint).1 := by
  rw [readNum_state]; exact of_read (readVa_same s c va n hint)

variable (s)

/-! ## Stores of the device itself (R372, R373) -/

/-- A store that finds no page is counted, not queued as a fault. -/
theorem deviceStore_calm (va : Nat) (bs : List Byte) : Calm job s (deviceStore s va bs) := by
  unfold deviceStore
  split
  · exact of_fields rfl rfl rfl rfl
  · exact of_fields rfl rfl rfl rfl
  · exact mbump_calm s _ _ _
  next q off here =>
    unfold homeWrite
    split
    · exact of_fields rfl rfl rfl rfl
    · unfold writeNow
      split
      next made => exact (writeVa_calm rfl _ _ _).fst made
      next made => exact ((writeVa_calm rfl _ _ _).fst made).trans (mbump_calm _ _ _ _)

/-! ## Answers (R82, R351, R378) -/

theorem captureItem_calm (job' kind n : Nat) (workid : W64) (view ord addr val : Nat) (data : List Byte) :
    Calm job s (captureItem s job' kind n workid view ord addr val data) := by
  unfold captureItem
  split
  · exact Calm.rfl s
  · dsimp only
    repeat' split
    · exact Calm.rfl s
    · exact Calm.rfl s
    · exact mset_calm s _ _ _
    · exact (of_read (physPut_same s _ _)).trans (mset_calm _ _ _ _)

theorem captureWrite_calm (asid va : Nat) (bs : List Byte) : Calm job s (captureWrite s asid va bs) :=
  foldl (fun s _ => foldl (fun s _ => captureItem_calm s _ _ _ _ _ _ _ _ _) _ s) _ s

theorem answerFlight_calm (p seq : Nat) (v : W64) : Calm job s (answerFlight s p seq v) := Calm.modPart s p _

theorem landAnswer_calm (p seq : Nat) (v : W64) : Calm job s (landAnswer s p seq v) := by
  unfold landAnswer
  dsimp only
  split
  · exact (captureItem_calm s _ _ _ _ _ _ _ _ _).trans (answerFlight_calm _ p seq v)
  · exact answerFlight_calm s p seq v

theorem parentDue_calm (parent : Nat) : Calm job s (parentDue s parent) := by
  unfold parentDue
  split
  · split
    · exact after (recordReady_calm _ _ _) rfl rfl rfl rfl
    · exact Calm.rfl s
  · exact Calm.rfl s

theorem releaseAnswered_calm (parent sq : Nat) (fail : Option Nat) (job' : Nat) : Calm job s (releaseAnswered s parent sq fail job') := by
  unfold releaseAnswered
  cases fail with
  | none => exact after (parentDue_calm _ _) rfl rfl rfl rfl
  | some st => exact ((mbump_calm s _ _ _).trans (of_read (appendError_same _ _ _ _ _ _))).trans (after (parentDue_calm _ _) rfl rfl rfl rfl)

theorem answerTo_calm (src tag : Nat) (v : W64) : Calm job s (answerTo s src tag v) := by
  unfold answerTo
  split
  · split
    · exact after (releaseAnswered_calm _ _ _ _ _) rfl rfl rfl rfl
    · exact after (landAnswer_calm _ _ _ _) rfl rfl rfl rfl
    · split
      · exact landAnswer_calm s _ _ _
      · exact Calm.rfl s
  · split
    · exact Calm.rfl s
    · exact of_fields rfl rfl rfl rfl

/-! ## Request rings (R318) -/

theorem appendRecord_calm (q n src : Nat) (bs : List Byte) : Calm job s (appendRecord s q n src bs).1 := by
  unfold appendRecord
  extract_lets cfg grant c r log
  have base : c.view = 0 := rfl
  have logged (s : State) (va : Nat) (b : List Byte) : Calm job s (log s va b) := by
    change Calm job s (if _ then _ else _)
    split
    · exact Calm.rfl s
    · exact captureWrite_calm s _ _ _
  clear_value grant log r c cfg
  -- The kernel must not run the reads and writes, so they stand under names of their own.
  obtain ⟨read, reads⟩ : ∃ f, f = readNum := ⟨_, Eq.refl _⟩
  obtain ⟨write, writes⟩ : ∃ f, f = writeVa := ⟨_, Eq.refl _⟩
  rw [← reads, ← writes]
  have fetched (t : State) (va n : Nat) : Calm job t (read t c va n 0).1 := reads ▸ readNum_calm va n 0
  have placed (t : State) (va : Nat) (bs : List Byte) : Calm job t (write t c va bs 0).1 := writes ▸ writeVa_calm base va bs 0
  clear reads writes
  split
  · exact Calm.rfl s
  · split
    next made => exact (fetched s _ _).fst made
    next t tail made =>
      have tailRead := (fetched s _ _).fst made
      split
      next made => exact tailRead.trans ((fetched t _ _).fst made)
      next u head made =>
        have headRead := tailRead.trans ((fetched t _ _).fst made)
        split
        · exact headRead
        · split
          next made => exact headRead.trans ((placed u _ _).fst made)
          next v made =>
            have slot := headRead.trans ((placed u _ _).fst made)
            split
            next made => exact slot.trans ((placed v _ _).fst made)
            next w made => exact (slot.trans ((placed v _ _).fst made)).trans ((logged w _ _).trans (logged _ _ _))

theorem retestQuarter_calm (q : Nat) : Calm job s (retestQuarter s q) := by
  have dropped (t : State) (h : HeldRecord) : Calm job t (modQuarter t q fun x => { x with held2 := dropFirst (· == h) x.held2 }) :=
    Calm.modQuarter t q (fun _ => rfl) fun _ => rfl
  refine foldl (fun s h => ?_) _ s
  split
  · split
    · exact Calm.rfl s
    · split
      next made => exact (appendRecord_calm s _ _ _ _).fst made
      next made => exact ((appendRecord_calm s _ _ _ _).fst made).trans ((dropped _ _).trans (answerTo_calm _ _ _ _))
      next made => exact ((appendRecord_calm s _ _ _ _).fst made).trans ((dropped _ _).trans (answerTo_calm _ _ _ _))
  · exact Calm.rfl s

theorem retestRings_calm : Calm job s (retestRings s) := by
  refine foldl (fun s q => ?_) _ s
  split
  · exact Calm.rfl s
  · exact retestQuarter_calm s q

/-! ## Side logs (R228, R300) -/

theorem addEntry_calm (k : Nat) (e : SideEntry) : Calm job s (addEntry s k e) := by
  unfold addEntry
  dsimp only
  split
  · exact (of_read (physPut_same s _ _)).trans (Calm.modCore _ _ _)
  · exact Calm.modCore _ _ _

theorem enterLog_calm (e : SideEntry) : Calm job s (enterLog s e) := by
  unfold enterLog
  dsimp only
  split
  · exact addEntry_calm s _ e
  · exact after (Calm.modPart _ _ _) rfl rfl rfl rfl

theorem retire_calm (e : SideEntry) : Calm job s (retire s e) := by
  unfold retire
  split
  · exact foldl (fun s _ => enterLog_calm s _) _ s
  · exact enterLog_calm s e

theorem enterHeld_calm (n k : Nat) : Calm job s (enterHeld n s k) := by
  induction n generalizing s with
  | zero => exact Calm.rfl s
  | succ n ih =>
    unfold enterHeld
    split
    · exact Calm.rfl s
    · split
      · exact (Calm.modCore s k _).trans ((addEntry_calm _ k _).trans (ih _))
      · exact Calm.rfl s

theorem dropEverywhere_calm (pick : SideEntry → Bool) : Calm job s (dropEverywhere s pick) :=
  foldl (fun s k => (Calm.modCore s k _).trans (enterHeld_calm _ _ k)) _ s

/-! ## The end of a record (R61, R68, R196, R228) -/

theorem returnLeave_calm (q cls : Nat) : Calm job s (returnLeave s q cls) := Calm.modQuarter s _ (fun _ => rfl) fun _ => rfl

theorem releaseLeave_calm (p : Nat) : Calm job s (releaseLeave s p) := by
  unfold releaseLeave
  extract_lets held given asked returned
  have given_calm : Calm job s given := by
    refine foldl (fun s c => ?_) _ s
    split
    · exact returnLeave_calm s _ _
    · exact Calm.rfl s
  have asked_calm : Calm job s asked := by
    refine given_calm.trans (foldl (fun s c => ?_) _ given)
    exact Calm.modQuarter s _ (fun _ => rfl) fun _ => rfl
  have returned_calm : Calm job s returned := by
    by_cases test : (part asked p).testLeave = true
    · simp only [returned, test, if_true]; exact asked_calm.trans (returnLeave_calm _ _ _)
    · simp only [returned, test]; exact asked_calm
  exact returned_calm.trans (Calm.modPart _ p _)

theorem dropLeave_calm (p : Nat) (r : Run) : Calm job s (dropLeave s p r) := by
  unfold dropLeave
  split
  · exact Calm.rfl s
  · have gone (c : Nat) := Calm.modQuarter (job := job) s (governorOf (quarterOf p) c)
      (f := fun x => { x with leaves := x.leaves.filter fun l => l.cmd != some r.cmd.id }) (fun _ => rfl) fun _ => rfl
    dsimp only
    split
    · exact (gone _).trans (returnLeave_calm _ _ _)
    · exact gone _

theorem discardCommands_calm (p k : Nat) (pick : Cmd → Bool) : Calm job s (discardCommands s p k pick) := by
  unfold discardCommands
  extract_lets left
  have left_calm : Calm job s left := foldl (fun s r => dropLeave_calm s p r) _ s
  exact left_calm.trans (Calm.modPart _ _ _)

theorem leaveMsways_calm (p : Nat) : Calm job s (leaveMsways s p) := Calm.modQuarter s _ (fun _ => rfl) fun _ => rfl

theorem restartResume_calm (p : Nat) : Calm job s (restartResume s p) := by
  unfold restartResume
  extract_lets shed left
  have shed_calm : Calm job s shed := foldl (fun s k => Calm.modPart s _ _) _ s
  have left_calm : Calm job s left := shed_calm.trans (after (leaveMsways_calm _ p) rfl rfl rfl rfl)
  exact left_calm.trans (Calm.modPart _ p _)

theorem takeIssue_calm (p : Nat) : Calm job s (takeIssue s p) := by
  unfold takeIssue
  extract_lets taken due
  have due_calm : Calm job s due := (Calm.modCore s _ _).trans (Calm.modPart taken p _)
  split
  · exact due_calm.trans (restartResume_calm _ p)
  · exact due_calm

theorem refillIssue_calm (c : Nat) : Calm job s (refillIssue s c) := by
  unfold refillIssue
  dsimp only
  split
  · exact takeIssue_calm s _
  · split
    · exact takeIssue_calm s _
    · exact Calm.modCore s c _

theorem freePartition_calm (p : Nat) : Calm job s (freePartition s p) := by
  unfold freePartition
  extract_lets freed
  have freed_calm : Calm job s freed := Calm.modPart s p _
  split
  · exact freed_calm.trans (refillIssue_calm _ _)
  · exact freed_calm

theorem modJob_calm (addr : Nat) {f : Job → Job} (addrs : ∀ j, (f j).addr = j.addr) (status : ∀ j, (f j).status = j.status) : Calm job s (modJob s addr f) :=
  modQuarter_of s _ fun x ⟨⟨_, entry, ended⟩, levels⟩ => by
    obtain ⟨i, found, same⟩ := find_replaceFirst (p := fun j => j.addr == addr) addrs status entry
    exact ⟨⟨i, found, same.trans ended⟩, levels⟩

theorem recordGone_calm (job' : Nat) (rival : Bool) : Calm job s (recordGone s job' rival) := by
  unfold recordGone
  split
  · exact Calm.rfl s
  · exact modJob_calm s _ (fun _ => rfl) fun _ => rfl

theorem endRecord_calm (p : Nat) : Calm job s (endRecord s p) := by
  unfold endRecord
  split
  · exact Calm.rfl s
  · extract_lets nobody t u v
    have left : Calm job s u := after (leaveMsways_calm t p) rfl rfl rfl rfl
    have cleared : Calm job s v := left.trans (Calm.modPart u p _)
    exact cleared.trans ((recordGone_calm _ _ _).trans (freePartition_calm _ p))

theorem killResident_calm (p : Nat) : Calm job s (killResident s p) := by
  unfold killResident
  extract_lets stay own shared left idle
  have own_calm : Calm job s own := foldl (fun s k => discardCommands_calm s p k _) _ s
  have shared_calm : Calm job s shared := own_calm.trans (foldl (fun s k => discardCommands_calm s p k _) _ own)
  have left_calm : Calm job s left := shared_calm.trans (releaseLeave_calm _ p)
  have idle_calm : Calm job s idle := by
    by_cases holds : (core left (coreOf p)).holder = some p
    · simp only [idle, holds, if_true]; exact left_calm.trans (Calm.modCore _ _ _)
    · simp only [idle, holds, if_false]; exact left_calm
  exact idle_calm.trans ((Calm.modCore _ _ _).trans (endRecord_calm _ p))

end

end Sys2Proof.Machine.Proofs
end

section
/-! PROOFS. The end of a job by the runtime (R228): its records, its worlds, its entry, and the retry signals that it does not give (R372). -/

namespace Sys2Proof.Machine.Proofs

open Sys2Proof Sys2Proof.Machine Sys2Proof.Machine.Safety Sys2Proof.Machine.Laws

/-! ## Retry signals (R372) -/

section
variable {job : Nat} {s : State}

theorem foldl_retries {α : Type} {f : State → α → State} (same : ∀ s a, (f s a).retries = s.retries) (l : List α) (s : State) :
    (l.foldl f s).retries = s.retries := by
  induction l generalizing s with
  | nil => rfl
  | cons a l ih => exact (ih _).trans (same s a)

theorem atHome_calm {c : Ctx} (base : c.view = 0) (va n : Nat) (f : List Byte → Option (List Byte)) : Calm job s (atHome s c va n f).1 := by
  have home : (homeCtx c va).view = 0 := by unfold homeCtx; split <;> exact base
  unfold atHome
  split
  · exact Calm.rfl s
  · split
    next made => exact (Calm.of_read (readHome_same s _ _ _ _)).fst made
    next t old made =>
      have read : Calm job s t := (Calm.of_read (readHome_same s _ _ _ _)).fst made
      split
      · split
        next made => exact read.trans ((writeVa_calm home _ _ _).fst made)
        next made => exact read.trans ((writeVa_calm home _ _ _).fst made)
      · rw [if_pos base]; exact read

theorem performAtomic_calm {c : Ctx} (base : c.view = 0) (va : Nat) (op : AtomicOp) (x y : W64) (hint : Nat) :
    Calm job s (performOp s c va (.atomic op x y) hint).1 := by
  unfold performOp
  dsimp only
  split
  next made => exact (atHome_calm base va _ _).fst made
  next made => exact (atHome_calm base va _ _).fst made

variable (s)

theorem sendAtomic_retries {c : Ctx} (base : c.view = 0) (va : Nat) (op : AtomicOp) (x y : W64) (hint acc seq : Nat) (reg : Option Nat) (cont : Bool) :
    (sendWrite s c va (.atomic op x y) hint acc seq reg cont).1.retries = s.retries := by
  unfold sendWrite
  generalize made : ({ ctx := c, va := va, op := .atomic op x y, hint := hint, seq := seq, reg := reg, kind := acc, seen := 0, cont := cont } : SideEntry) = e
  have performed : Calm 0 s (performOp s e.ctx e.va e.op e.hint).1 := by rw [← made]; exact performAtomic_calm base _ _ _ _ _
  unfold sendEntry
  split
  · rfl
  · split
    · exact (retire_calm (job := 0) s e).retries
    · split
      next made => exact (performed.fst made).retries
      next made => exact (retire_calm (job := 0) _ _).retries.trans (performed.fst made).retries
      next made => exact (performed.fst made).retries
      next made => exact (performed.fst made).retries

theorem recordOr_retries (p key off job v : Nat) : (recordOr s p key off job v).retries = s.retries := sendAtomic_retries s rfl ..

theorem parentReady_retries (f : Fork) (r : Nat) : (parentReady s f r).retries = s.retries := by
  refine (recordReady_calm (job := 0) _ _ _).retries.trans ?_
  unfold deliver
  split
  · rfl
  · exact (recordOr_retries _ _ _ _ _ _).trans (sendAtomic_retries s rfl ..)

theorem discardView_retries (v : Nat) : (discardView s v).retries = s.retries := by
  unfold discardView
  extract_lets logged dropped
  have logged_retries : logged.retries = s.retries := (dropEverywhere_calm (job := 0) s _).retries
  split
  next x listed =>
    have lines : (x.lines.foldl (fun s l => maintainLine s 1 l.2.pa) dropped).retries = dropped.retries := by
      refine foldl_retries (fun s l => ?_) _ dropped
      exact (Calm.of_read (job := 0) (maintainLine_same s 1 l.2.pa)).retries
    exact lines.trans logged_retries
  · exact logged_retries

theorem discardWorld_retries (v : Nat) : (discardWorld s v).retries = s.retries :=
  foldl_retries (fun s p => foldl_retries (fun s k => (discardCommands_calm (job := 0) s p k _).retries) _ s) _ s

theorem dropRecord_retries (f : Fork) (key : Nat) : (dropRecord s f key).retries = s.retries := by
  unfold dropRecord
  extract_lets p killed unpicked asleep
  have killed_retries : killed.retries = s.retries := by
    simp only [killed]
    split
    · exact (killResident_calm (job := 0) s _).retries
    · rfl
  have unpicked_retries : unpicked.retries = killed.retries :=
    (unpick_calm (job := 0) { killed with monitors := killed.monitors.filter fun m => m.owner != .record key } key).retries
  clear_value killed
  exact (recordOr_retries asleep _ _ _ _ _).trans ((modQuarter_retries _ _ _).trans (unpicked_retries.trans killed_retries))

theorem captureFork_retries (f : Fork) (r : Nat) : (captureFork s f r).retries = s.retries := (captureItem_calm (job := 0) s _ _ _ _ _ _ _ _ _).retries

theorem killRival_retries (n : Nat) (f : Fork) (idx : Nat) : (killRival n s f idx).retries = s.retries := by
  induction n generalizing s f idx with
  | zero => rfl
  | succ n ih =>
    unfold killRival
    split
    · rfl
    · extract_lets descended
      refine (dropRecord_retries _ _ _).trans ((discardView_retries _ _).trans ((discardWorld_retries _ _).trans (foldl_retries (fun s g => ?_) _ s)))
      extract_lets died logged
      have died_retries : died.retries = s.retries := foldl_retries (fun s i => ih s g i) _ s
      change logged.retries = s.retries
      by_cases open_ : g.winner.isNone = true
      · simp only [logged, open_, if_true]; exact (captureFork_retries _ _ _).trans died_retries
      · simp only [logged, open_]; exact died_retries

end

/-! ## The end of a resident record (R196, R228) -/

/-- A partition that a killed record has left: nothing of the record stands in it. -/
structure Cleared (x : Part) : Prop where
  resident : x.resident = none
  regs : x.regs = []
  flights : x.flights = []
  loops : x.loops = []
  monitor : x.monitor = .off
  queues : ∀ n, n < 3 → (fgetD x.queues n {}).queued = [] ∧ (fgetD x.queues n {}).running = []

/-- A partition whose commands and leave are withdrawn, before its record ends. -/
structure Withdrawn (s : State) (p : Nat) (t : State) : Prop where
  others : ∀ q, q ≠ p → part t q = part s q
  resident : (part t p).resident = (part s p).resident
  regs : (part t p).regs = (part s p).regs
  flights : (part t p).flights = (part s p).flights
  loops : (part t p).loops = (part s p).loops
  monitor : (part t p).monitor = (part s p).monitor

namespace Withdrawn

theorem rfl (s : State) (p : Nat) : Withdrawn s p s := ⟨fun _ _ => Eq.refl _, Eq.refl _, Eq.refl _, Eq.refl _, Eq.refl _, Eq.refl _⟩

theorem trans {s t u : State} {p : Nat} (h : Withdrawn s p t) (k : Withdrawn t p u) : Withdrawn s p u :=
  ⟨fun q ne => (k.others q ne).trans (h.others q ne), k.resident.trans h.resident, k.regs.trans h.regs, k.flights.trans h.flights,
    k.loops.trans h.loops, k.monitor.trans h.monitor⟩

end Withdrawn

section
variable {s : State} {p : Nat}

/-- A queue that holds no command, none of them started. -/
def Idle (s : State) (p n : Nat) : Prop := (cmdQueue s p n).queued = [] ∧ (cmdQueue s p n).running = []

theorem cmdQueue_discardCommands (s : State) (p k : Nat) (pick : Cmd → Bool) (n : Nat) : cmdQueue (discardCommands s p k pick) p n =
    if n = k then { cmdQueue s p k with
      queued := (cmdQueue s p k).queued.filter (fun c => !pick c), running := (cmdQueue s p k).running.filter fun r => !pick r.cmd } else cmdQueue s p n := by
  rw [cmdQueue, (discardCommands_discards s p k pick).part]
  exact fgetD_fput _ _ _ _ _

theorem idle_discardCommands {k n : Nat} {pick : Cmd → Bool} (idle : Idle s p n) : Idle (discardCommands s p k pick) p n := by
  unfold Idle
  rw [cmdQueue_discardCommands]
  split
  next same =>
    subst same
    dsimp only
    rw [idle.1, idle.2]
    exact ⟨rfl, rfl⟩
  next => exact idle

theorem idle_discardAll (s : State) (p k : Nat) : Idle (discardCommands s p k fun _ => true) p k := by
  unfold Idle
  rw [cmdQueue_discardCommands, if_pos rfl]
  simp

theorem withdrawn_discardCommands (s : State) (p k : Nat) (pick : Cmd → Bool) : Withdrawn s p (discardCommands s p k pick) := by
  have own := (discardCommands_discards s p k pick).part
  exact ⟨(discardCommands_discards s p k pick).others, by rw [own], by rw [own], by rw [own], by rw [own], by rw [own]⟩

theorem part_releaseLeave_other (s : State) {p q : Nat} (ne : q ≠ p) : part (releaseLeave s p) q = part s q := by
  unfold releaseLeave
  rw [part_modPart_other _ _ ne]
  refine part_of_parts ?_ q
  have returned (held : Nat) (s : State) :
      ([0, 1, 2].foldl (fun s c => if nbit held c then returnLeave s (quarterOf p) c else s) s).parts = s.parts :=
    parts_foldl (fun s c => by split <;> rfl) _ s
  split
  · exact (parts_foldl (fun _ _ => by rfl) [0, 1, 2] _).trans (returned _ _)
  · exact (parts_foldl (fun _ _ => by rfl) [0, 1, 2] _).trans (returned _ _)

theorem foldl_discardCommands (l : List Nat) (pick : Cmd → Bool) (s : State) : Withdrawn s p (l.foldl (fun s k => discardCommands s p k pick) s) ∧
    ∀ n, Idle s p n → Idle (l.foldl (fun s k => discardCommands s p k pick) s) p n := by
  induction l generalizing s with
  | nil => exact ⟨Withdrawn.rfl s p, fun _ idle => idle⟩
  | cons k l ih =>
    obtain ⟨withdrawn, idle⟩ := ih (discardCommands s p k pick)
    exact ⟨(withdrawn_discardCommands s p k pick).trans withdrawn, fun n own => idle n (idle_discardCommands own)⟩

theorem idle_foldl_discardAll {l : List Nat} {n : Nat} (listed : n ∈ l) (s : State) : Idle (l.foldl (fun s k => discardCommands s p k fun _ => true) s) p n := by
  induction l generalizing s with
  | nil => cases listed
  | cons k l ih =>
    by_cases later : n ∈ l
    · exact ih later _
    · obtain rfl : n = k := (List.mem_cons.1 listed).resolve_right later
      exact (foldl_discardCommands l _ _).2 n (idle_discardAll s p n)

/-- What a kill withdraws before the record ends: its commands are discarded, and its leave returns. -/
theorem killResident_withdraws (s : State) (p : Nat) : ∃ t, killResident s p = endRecord t p ∧ Withdrawn s p t ∧ ∀ n, n < 3 → Idle t p n := by
  unfold killResident
  extract_lets stay own shared left idle
  have own_withdrawn : Withdrawn s p own := (foldl_discardCommands [0, 1, 2] _ s).1
  have own_idle : ∀ n, n < 3 → Idle own p n := fun n low => idle_foldl_discardAll (l := [0, 1, 2]) (by simp; omega) s
  have shared_withdrawn : Withdrawn s p shared := own_withdrawn.trans (foldl_discardCommands [3, 4, 5] _ own).1
  have shared_idle : ∀ n, n < 3 → Idle shared p n := fun n low => (foldl_discardCommands [3, 4, 5] _ own).2 n (own_idle n low)
  clear own_withdrawn own_idle
  clear_value shared
  have parts : ∀ q, part (modCore idle (coreOf p) fun c => { c with epiAdds := c.epiAdds.filter fun e => e.cmd.ctx.part != p }) q = part left q := by
    intro q
    rw [part_modCore]
    by_cases holds : (core left (coreOf p)).holder = some p
    · simp only [idle, holds, if_true]; rfl
    · simp only [idle, holds, if_false]
  have released := part_releaseLeave shared p
  refine ⟨_, rfl, shared_withdrawn.trans ⟨fun q ne => (parts q).trans (part_releaseLeave_other shared ne), ?_, ?_, ?_, ?_, ?_⟩, fun n low => ?_⟩
  iterate 5 · rw [parts, released]
  · unfold Idle cmdQueue
    rw [parts, released]
    exact shared_idle n low

/-- A queue that is frozen no more (R369). -/
def thawed (q : CmdQueue) : CmdQueue := { q with frozen := false }

theorem queues_endRecord {r : Resident} (full : (part s p).resident = some r) :
    (part (endRecord s p) p).queues = (part s p).queues.map fun q => (q.1, thawed q.2) := by
  unfold endRecord
  rw [full]
  simp only [part_freePartition, part_recordGone, part_modPart]
  rfl

/-- The end of a record gives no other partition one, and leaves those that hold none. -/
theorem endRecord_other {q : Nat} (ne : q ≠ p) : (part (endRecord s p) q).resident = (part s q).resident ∧
    ((part s q).resident = none → part (endRecord s p) q = part s q) := by
  have freed (t : State) : (part (freePartition t p) q).resident = (part t q).resident ∧ ((part t q).resident = none → part (freePartition t p) q = part t q) := by
    unfold freePartition
    extract_lets u
    have same : part u q = part t q := part_modPart_other _ _ ne
    split
    · exact ⟨((refillIssue_spares (W := fun _ => False) u _).residents q).trans (congrArg Part.resident same),
        fun free => (part_refillIssue_free (by rw [same, free]) _).trans same⟩
    · exact ⟨congrArg Part.resident same, fun _ => same⟩
  unfold endRecord
  split
  · exact ⟨rfl, fun _ => rfl⟩
  next r full =>
    extract_lets nobody t u v
    have same : part (recordGone v r.job r.rival) q = part s q := by
      rw [part_recordGone]
      exact part_modPart_other _ _ ne
    obtain ⟨residents, kept⟩ := freed (recordGone v r.job r.rival)
    rw [same] at residents kept
    exact ⟨residents, kept⟩

theorem killResident_free (s : State) (p : Nat) : (part (killResident s p) p).resident = none := by
  obtain ⟨t, killed, -, -⟩ := killResident_withdraws s p
  rw [killed]
  cases full : (part t p).resident with
  | none => rw [endRecord, full]; exact full
  | some r =>
    obtain ⟨-, -, -, -, gone⟩ := endRecord_clears (s := t) (p := p) (by rw [full]; rfl)
    exact gone

theorem killResident_clears (full : (part s p).resident.isSome = true) : Cleared (part (killResident s p) p) := by
  obtain ⟨t, killed, withdrawn, idle⟩ := killResident_withdraws s p
  rw [killed]
  have fullT : (part t p).resident.isSome = true := by rwa [withdrawn.resident]
  obtain ⟨regs, loops, monitor, flights, gone⟩ := endRecord_clears fullT
  obtain ⟨r, held⟩ := Option.isSome_iff_exists.1 fullT
  refine ⟨gone, regs, flights, loops, monitor, fun n low => ?_⟩
  obtain ⟨queued, running⟩ := idle n low
  unfold cmdQueue fgetD at queued running
  rw [queues_endRecord held, fgetD, fget_map_values thawed]
  cases listed : fget (part t p).queues n with
  | none => exact ⟨rfl, rfl⟩
  | some q =>
    rw [listed] at queued running
    exact ⟨queued, running⟩

/-- A kill leaves a cleared partition cleared. -/
theorem cleared_killResident {q : Nat} (cleared : Cleared (part s q)) : Cleared (part (killResident s p) q) := by
  obtain ⟨t, killed, withdrawn, idle⟩ := killResident_withdraws s p
  rw [killed]
  by_cases own : q = p
  · subst own
    have free : (part t q).resident = none := withdrawn.resident.trans cleared.resident
    rw [endRecord, free]
    exact ⟨free, withdrawn.regs.trans cleared.regs, withdrawn.flights.trans cleared.flights, withdrawn.loops.trans cleared.loops,
      withdrawn.monitor.trans cleared.monitor, idle⟩
  · rw [(endRecord_other own).2 (by rw [withdrawn.others q own]; exact cleared.resident), withdrawn.others q own]
    exact cleared

theorem killResident_resident_other {q : Nat} (ne : q ≠ p) : (part (killResident s p) q).resident = (part s q).resident := by
  obtain ⟨t, killed, withdrawn, -⟩ := killResident_withdraws s p
  rw [killed, (endRecord_other ne).1, withdrawn.others q ne]

end

end Sys2Proof.Machine.Proofs
end

section
/-! PROOFS. `fq.end` (R228, R372): the stages in which a job ends, and what each leaves. -/

namespace Sys2Proof.Machine.Proofs

open Sys2Proof Sys2Proof.Machine Sys2Proof.Machine.Safety Sys2Proof.Machine.Laws

/-! ## The stages (R228) -/

/-- A job marked FAULTED, without its place in the levels and its entries in the side logs. -/
def stopped (s : State) (job : Nat) : State :=
  dropEverywhere (modQuarter (modJob s job fun j => { j with status := stFaulted }) (nfld job 46 2) fun x =>
    { x with levels := x.levels.filter fun e => e.item != .job job }) fun e => e.ctx.job == job

/-- A job's worlds that have not committed are discarded, and their parents made ready. -/
def worldsEnded (s : State) (job : Nat) : State :=
  (s.forks.filter fun (f : Fork) => f.ctx.job == job && f.parentView == 0 && f.winner.isNone).foldl (fun (s : State) (f : Fork) =>
    let s : State := captureFork (f.living.foldl (fun s i => killRival 5 s f i) s) f 0xFF
    parentReady { s with forks := s.forks.filter fun (g : Fork) => g.parent != f.parent } f 0xFF) s

/-- Whether a partition holds a record of a job. -/
def worksFor (job : Nat) (x : Part) : Bool := match x.resident with | some r => r.job == job | none => false

/-- A job's resident records are killed. -/
def recordsKilled (s : State) (job : Nat) : State := (s.parts.filter fun x => worksFor job x.2).foldl (fun s x => killResident s x.1) s

/-- A job's records that are ready leave their level and end. -/
def sleepersEnded (s : State) (job : Nat) : State :=
  ((quarter s (nfld job 46 2)).suspended.filter fun r => r.job == job && r.wake == .ready).foldl (fun s r =>
    recordReady (modQuarter s (nfld job 46 2) fun x => { x with levels := x.levels.filter fun e => e.item != .record r.addr }) (nfld job 46 2) r.addr) s

section
variable {s : State} {job p : Nat} {j : Job}

theorem endJob_unlisted (none : findJob s job = none) : endJob s job = s := by rw [endJob, none]

theorem endJob_eq (found : findJob s job = some j) : endJob s job = sleepersEnded (recordsKilled (worldsEnded (stopped s job) job) job) job := by
  rw [endJob, found]; rfl

/-! ## No retry signal (R372) -/

theorem worldsEnded_retries (s : State) (job : Nat) : (worldsEnded s job).retries = s.retries := by
  unfold worldsEnded
  refine foldl_retries (fun s f => ?_) _ s
  refine (parentReady_retries _ _ _).trans ((captureFork_retries _ _ _).trans ?_)
  exact foldl_retries (fun s i => killRival_retries s 5 f i) _ s

theorem recordsKilled_calm (s : State) (job own : Nat) : Calm job s (recordsKilled s own) := by
  unfold recordsKilled
  refine Calm.foldl (fun s x => ?_) _ s
  exact killResident_calm s x.1

theorem sleepersEnded_calm (s : State) (job own : Nat) : Calm job s (sleepersEnded s own) := by
  unfold sleepersEnded
  refine Calm.foldl (fun s r => ?_) _ s
  refine Calm.trans (Calm.modQuarter_of s _ fun x e => ?_) (recordReady_calm _ _ _)
  exact ⟨e.1, fun i hi => e.2 i (List.mem_of_mem_filter hi)⟩

theorem endJob_retries (s : State) (job : Nat) : (endJob s job).retries = s.retries := by
  cases found : findJob s job with
  | none => rw [endJob_unlisted found]
  | some j =>
    rw [endJob_eq found, (sleepersEnded_calm _ 0 job).retries, (recordsKilled_calm _ 0 job).retries, worldsEnded_retries]
    exact (dropEverywhere_calm (job := 0) _ _).retries

/-! ## The job table (R227, R228) -/

theorem find_replaceFirst_own {α : Type} {l : List α} {P : α → Bool} {f : α → α} {a : α} (found : l.find? P = some a) (kept : P (f a) = true) :
    (replaceFirst P f l).find? P = some (f a) := by
  induction l with
  | nil => cases found
  | cons b l ih =>
    rw [replaceFirst]
    cases own : P b with
    | true =>
      rw [List.find?_cons_of_pos own] at found
      cases found
      exact List.find?_cons_of_pos kept
    | false =>
      rw [List.find?_cons_of_neg (by simp [own])] at found
      exact (List.find?_cons_of_neg (by simp [own])).trans (ih found)

theorem endedIn_stopped (found : findJob s job = some j) : EndedIn job (quarter (stopped s job) (nfld job 46 2)) := by
  refine (dropEverywhere_calm _ _).ended _ ?_
  rw [quarter_modQuarter, modJob, quarter_modQuarter]
  have named : (j.addr == job) = true := List.find?_some (p := fun j : Job => j.addr == job) found
  refine ⟨⟨{ j with status := stFaulted }, find_replaceFirst_own (f := fun j => { j with status := stFaulted }) found named, rfl⟩, fun e he => ?_⟩
  exact bne_iff_ne.1 (List.mem_filter.1 he).2

theorem dropEverywhere_spares (s : State) (pick : SideEntry → Bool) : Spares (fun _ => False) s (dropEverywhere s pick) := by
  unfold dropEverywhere
  refine Spares.foldl (fun s k => ?_) _ s
  exact dropEntries_spares s k pick

theorem stopped_resident (s : State) (job p : Nat) : (part (stopped s job) p).resident = (part s p).resident :=
  (dropEverywhere_spares _ _).residents p

theorem stopped_forks (s : State) (job : Nat) : (stopped s job).forks = s.forks := (dropEverywhere_spares _ _).forks

theorem worldsEnded_worldless (worldless : s.forks = []) (job : Nat) : worldsEnded s job = s := by rw [worldsEnded, worldless]; rfl

/-! ## The partitions (R196, R228) -/

theorem foldl_killResident_other {l : List Nat} (absent : p ∉ l) (s : State) : (part (l.foldl killResident s) p).resident = (part s p).resident := by
  induction l generalizing s with
  | nil => rfl
  | cons q l ih =>
    have apart : p ≠ q := fun same => absent (by rw [same]; exact List.mem_cons_self)
    rw [List.foldl_cons, ih (fun later => absent (List.mem_cons_of_mem q later)), killResident_resident_other apart]

theorem foldl_killResident_cleared {l : List Nat} (cleared : Cleared (part s p)) : Cleared (part (l.foldl killResident s) p) := by
  induction l generalizing s with
  | nil => exact cleared
  | cons q l ih => exact ih (cleared_killResident cleared)

theorem foldl_killResident_free {l : List Nat} (listed : p ∈ l) (s : State) : (part (l.foldl killResident s) p).resident = none := by
  induction l generalizing s with
  | nil => cases listed
  | cons q l ih =>
    by_cases later : p ∈ l
    · exact ih later _
    · obtain rfl : p = q := (List.mem_cons.1 listed).resolve_right later
      rw [List.foldl_cons, foldl_killResident_other later, killResident_free]

theorem foldl_killResident_clears {l : List Nat} (listed : p ∈ l) (full : (part s p).resident.isSome = true) : Cleared (part (l.foldl killResident s) p) := by
  induction l generalizing s with
  | nil => cases listed
  | cons q l ih =>
    by_cases own : p = q
    · subst own
      rw [List.foldl_cons]
      exact foldl_killResident_cleared (killResident_clears full)
    · exact ih ((List.mem_cons.1 listed).resolve_left own) (by rwa [killResident_resident_other own])

theorem recordsKilled_eq (s : State) (job : Nat) : recordsKilled s job = ((s.parts.filter fun x => worksFor job x.2).map (·.1)).foldl killResident s := by
  rw [List.foldl_map]; rfl

/-- A partition that holds a record of the job is among those whose record is killed. -/
theorem mem_killed {r : Resident} (held : (part s p).resident = some r) (own : r.job = job) : p ∈ (s.parts.filter fun x => worksFor job x.2).map (·.1) := by
  cases listed : fget s.parts p with
  | none => rw [part, fgetD, listed] at held; cases held
  | some x =>
    have same : part s p = x := by rw [part, fgetD, listed]; rfl
    rw [same] at held
    exact List.mem_map.2 ⟨(p, x), List.mem_filter.2 ⟨mem_of_fget listed, by simp [worksFor, held, own]⟩, rfl⟩

theorem recordsKilled_residents {r : Resident} (held : (part (recordsKilled s job) p).resident = some r) : r.job ≠ job := by
  intro own
  rw [recordsKilled_eq] at held
  by_cases listed : p ∈ (s.parts.filter fun x => worksFor job x.2).map (·.1)
  · rw [foldl_killResident_free listed] at held; cases held
  · rw [foldl_killResident_other listed] at held
    exact listed (mem_killed held own)

theorem recordsKilled_clears {r : Resident} (held : (part s p).resident = some r) (own : r.job = job) : Cleared (part (recordsKilled s job) p) := by
  rw [recordsKilled_eq]
  exact foldl_killResident_clears (mem_killed held own) (by rw [held]; rfl)

/-- A partition that differs at most in the record that it picks up. -/
def SamePicking (x y : Part) : Prop := ∃ k, y = { x with picking := k }

theorem SamePicking.trans {x y z : Part} (h : SamePicking x y) (k : SamePicking y z) : SamePicking x z := by
  obtain ⟨a, rfl⟩ := h
  obtain ⟨b, rfl⟩ := k
  exact ⟨b, rfl⟩

theorem SamePicking.cleared {x y : Part} (h : SamePicking x y) (cleared : Cleared x) : Cleared y := by
  obtain ⟨k, rfl⟩ := h
  exact ⟨cleared.resident, cleared.regs, cleared.flights, cleared.loops, cleared.monitor, cleared.queues⟩

theorem unpick_picking (s : State) (addr p : Nat) : SamePicking (part s p) (part (unpick s addr) p) := by
  unfold part fgetD unpick
  rw [fget_map_values (fun x : Part => if x.picking.map (·.1) = some addr then { x with picking := none } else x)]
  cases fget s.parts p with
  | none => exact ⟨_, rfl⟩
  | some x =>
    rw [Option.map_some, Option.getD_some, Option.getD_some]
    split <;> exact ⟨_, rfl⟩

theorem recordReady_picking (s : State) (q addr p : Nat) : SamePicking (part s p) (part (recordReady s q addr) p) := by
  unfold recordReady
  split
  · split
    · exact unpick_picking s addr p
    · split
      · exact ⟨_, rfl⟩
      · dsimp only
        split <;> exact ⟨_, rfl⟩
  · exact ⟨_, rfl⟩

theorem sleepersEnded_picking (s : State) (job p : Nat) : SamePicking (part s p) (part (sleepersEnded s job) p) := by
  unfold sleepersEnded
  generalize (quarter s (nfld job 46 2)).suspended.filter (fun r => r.job == job && r.wake == .ready) = l
  induction l generalizing s with
  | nil => exact ⟨_, rfl⟩
  | cons r l ih => exact (recordReady_picking (modQuarter s _ _) _ r.addr p).trans (ih _)

/-! ## What the end of a job leaves -/

theorem endJob_residents (found : findJob s job = some j) {r : Resident} (held : (part (endJob s job) p).resident = some r) : r.job ≠ job := by
  rw [endJob_eq found] at held
  obtain ⟨k, same⟩ := sleepersEnded_picking (recordsKilled (worldsEnded (stopped s job) job) job) job p
  rw [same] at held
  exact recordsKilled_residents held

theorem endJob_entry (found : findJob s job = some j) (worldless : s.forks = []) : EndedIn job (quarter (endJob s job) (nfld job 46 2)) := by
  rw [endJob_eq found, worldsEnded_worldless ((stopped_forks s job).trans worldless)]
  exact ((recordsKilled_calm _ job job).trans (sleepersEnded_calm _ job job)).ended _ (endedIn_stopped found)

theorem endJob_clears (found : findJob s job = some j) (worldless : s.forks = []) {r : Resident} (held : (part s p).resident = some r) (own : r.job = job) :
    Cleared (part (endJob s job) p) := by
  rw [endJob_eq found, worldsEnded_worldless ((stopped_forks s job).trans worldless)]
  exact (sleepersEnded_picking _ job p).cleared (recordsKilled_clears ((stopped_resident s job p).trans held) own)

/-- Where no core and no partition has anything of it, a job only changes in its table and its level. -/
theorem endJob_bare (found : findJob s job = some j) (worldless : s.forks = []) (cores : s.cores = []) (parts : s.parts = [])
    (asleep : (quarter s (nfld job 46 2)).suspended = []) : endJob s job = modQuarter (modJob s job fun j => { j with status := 6 }) (nfld job 46 2) fun x =>
      { x with levels := x.levels.filter fun e => e.item != .job job } := by
  have bare : stopped s job = modQuarter (modJob s job fun j => { j with status := 6 }) (nfld job 46 2) fun x =>
      { x with levels := x.levels.filter fun e => e.item != .job job } := by
    unfold stopped dropEverywhere
    rw [modQuarter_cores, modJob, modQuarter_cores, cores]
    rfl
  have unkilled : recordsKilled (stopped s job) job = stopped s job := by
    have none : (stopped s job).parts = [] := by rw [bare]; exact parts
    rw [recordsKilled, none]; rfl
  have slept : sleepersEnded (stopped s job) job = stopped s job := by
    have none : (quarter (stopped s job) (nfld job 46 2)).suspended = [] := by rw [bare, quarter_modQuarter, modJob, quarter_modQuarter]; exact asleep
    rw [sleepersEnded, none]; rfl
  rw [endJob_eq found, worldsEnded_worldless ((stopped_forks s job).trans worldless), unkilled, slept, bare]

end

end Sys2Proof.Machine.Proofs
end

section
/-! PROOFS. The host die (R203, R361, R371 to R373, R383, R386, R388, R389): its accesses, its writes of registers, and the fault queue. -/

namespace Sys2Proof.Machine.Proofs

open Sys2Proof Sys2Proof.Machine Sys2Proof.Machine.Safety Sys2Proof.Machine.Laws

/-! ## The port (R255, R383, R386) -/

section
variable {s u : State} {va q off n : Nat} {v : W64} {bytes : List Byte}

/-- Without a retry signal a store of a register is its write alone (R300, R372). -/
theorem mgmtStore_unsignalled {writer word job : Nat} (same : (mgmtWrite s writer q off v word job).retries = s.retries) :
    mgmtStore s writer q off v word job = mgmtWrite s writer q off v word job := by
  have now : mgmtNow s writer q off v word job = mgmtWrite s writer q off v word job := if_neg fun signal => signal.2 same
  rw [mgmtStore, now]
  exact if_pos same

theorem hostStore_discarded (away : s.ready = false ∨ hostWaits s = true) : hostStore s q off v = s :=
  if_pos (away.imp_left fun unready => by simp [unready])

theorem hostStore_performed (ready : s.ready = true) (free : hostWaits s = false) : hostStore s q off v = mgmtStore s 768 q off v :=
  if_neg (by simp [ready, free])

theorem hostTested_mgmt (here : locOf va = .here q off) (mgmt : inMgmt off = true) (write : Bool) : hostTested s va n write = false := by
  rw [hostTested, here]
  simp [mgmt]

theorem hostTested_memory (here : locOf va = .here q off) (memory : inMgmt off = false) (write : Bool) :
    hostTested s va n write = waitsHome s (queueCtx q (mgetN s 0 (regDev 0x380) % 2 ^ 16)) va n write := by
  rw [hostTested, here]
  simp [memory]

theorem hostShape_of (size : n ∈ [1, 2, 4, 8, 16, 32, 64]) (aligned : va % n = 0) : hostShape va n = true := by
  rw [hostShape, List.contains_iff_mem.2 size, aligned]
  rfl

/-! ## Reads -/

theorem hostReadArrives_held (held : hostWaits s = true ∨ hostTested s va n false = true) : hostReadArrives s va n = s := by
  unfold hostReadArrives
  exact if_pos (Or.inr (held.imp_right Or.inl))

theorem hostReadArrives_unready (unready : s.ready = false) (other : isBootSt va = false) : hostReadArrives s va n = s := by
  unfold hostReadArrives
  exact if_pos (Or.inr (Or.inr (Or.inr ⟨by simp [unready], by simp [other]⟩)))

/-- A read that nothing holds is answered with what it gives. -/
theorem hostReadArrives_answered (shape : hostShape va n = true) (free : hostWaits s = false) (untested : hostTested s va n false = false)
    (open_ : s.ready = true ∨ isBootSt va = true ∧ n ≤ 8) :
    hostReadArrives s va n = { (hostReads s va n).1 with hostAnswers := (hostReads s va n).1.hostAnswers ++ [(va, (hostReads s va n).2)] } := by
  unfold hostReadArrives
  refine if_neg ?_
  rintro (misshapen | held | held | ⟨unready, other⟩)
  · exact misshapen shape
  · simp [free] at held
  · simp [untested] at held
  · exact open_.elim unready other

theorem hostReads_read {bs : List Byte} (here : locOf va = .here q off) (memory : inMgmt off = false)
    (read : readVa s (queueCtx q (mgetN s 0 (regDev 0x380) % 2 ^ 16)) va n 0 = (u, .ok bs)) : hostReads s va n = (u, bs) := by
  rw [hostReads, here]
  dsimp only
  rw [memory, read]
  rfl

theorem hostReads_missed {e : MemErr} (here : locOf va = .here q off) (memory : inMgmt off = false)
    (read : readVa s (queueCtx q (mgetN s 0 (regDev 0x380) % 2 ^ 16)) va n 0 = (u, .error e)) :
    hostReads s va n = (mbump u 0 (regDev 0x388) 32, List.replicate n 0xFF) := by
  rw [hostReads, here]
  dsimp only
  rw [memory, read]
  rfl

theorem mbump_hostAnswers (s : State) (q off w : Nat) : (mbump s q off w).hostAnswers = s.hostAnswers := by
  unfold mbump
  dsimp only
  split <;> rfl

/-- `boot.st` shows the stage and the code of the boot while the device is not ready (R383, R389). -/
theorem hostReads_bootSt (unready : s.ready = false) :
    hostReads s (0xFFFF * 2 ^ 48 + regDev 0x200) 8 = (s, leBytes 8 (s.bootStage % 256 + s.bootCode % 256 * 2 ^ 8)) := by
  have shown : mgmtRead s 0 (regDev 0x200) = w64 (s.bootStage % 256 + s.bootCode % 256 * 2 ^ 8 + if s.ready then 2 ^ 16 else 0) := rfl
  have small : s.bootStage % 256 + s.bootCode % 256 * 2 ^ 8 < 2 ^ 64 := by omega
  have read : hostReads s (0xFFFF * 2 ^ 48 + regDev 0x200) 8 = (s, ((leBytes 8 (mgmtRead s 0 (regDev 0x200)).toNat ++ []).drop 0).take 8) := rfl
  rw [read, shown, unready]
  rw [if_neg (by decide), Nat.add_zero, w64, BitVec.toNat_ofNat, Nat.mod_eq_of_lt small, List.append_nil, List.drop_zero,
    List.take_of_length_le (leBytes_length _ _).le]

/-! ## Writes -/

theorem hostWriteArrives_held (held : s.ready = false ∨ hostWaits s = true ∨ bytes.length ≤ 64 ∧ hostTested s va bytes.length true = true) :
    hostWriteArrives s va bytes = s := by
  unfold hostWriteArrives
  exact if_pos (held.imp_left fun unready => by simp [unready])

theorem hostWriteArrives_packet (ready : s.ready = true) (free : hostWaits s = false) (here : locOf va = .here q off) (size : bytes.length = 160) :
    hostWriteArrives s va bytes = packetAt s va 0xFFFE 0 bytes := by
  unfold hostWriteArrives
  rw [if_neg (by simp [ready, free, size]), if_pos size, if_pos (by rw [isHere, here])]

/-- A write arrives once the device is ready, no earlier write waits and its home is not under test. -/
theorem hostWrite_passes (ready : s.ready = true) (free : hostWaits s = false) (untested : hostTested s va bytes.length true = false) :
    ¬(¬s.ready = true ∨ hostWaits s = true ∨ bytes.length ≤ 64 ∧ hostTested s va bytes.length true = true) := by
  simp [ready, free, untested]

section
variable (ready : s.ready = true) (free : hostWaits s = false) (here : locOf va = .here q off)
include ready free here

/-- A naturally aligned write of 1 to 64 bytes to a register writes the register, whole or merged. -/
theorem hostWriteArrives_mgmt (mgmt : inMgmt off = true) (size : bytes.length ∈ [1, 2, 4, 8, 16, 32, 64]) (aligned : va % bytes.length = 0) :
    hostWriteArrives s va bytes = if bytes.length < 8 then mgmtWrites s q (off / 8 * 8) [mgmtMerge s q off bytes]
      else mgmtWrites s q off ((List.range (bytes.length / 8)).map fun i => dwordOf bytes i) := by
  have other : bytes.length ≠ 160 := fun same => by simp [same] at size
  unfold hostWriteArrives
  rw [if_neg (hostWrite_passes ready free (hostTested_mgmt here mgmt true)), if_neg other, if_neg (by simp [hostShape_of size aligned]), here]
  exact if_pos mgmt

section
variable (memory : inMgmt off = false) (size : bytes.length ∈ [1, 2, 4, 8, 16, 32, 64]) (aligned : va % bytes.length = 0)
  (untested : waitsHome s (queueCtx q (mgetN s 0 (regDev 0x380) % 2 ^ 16)) va bytes.length true = false)
include memory size aligned untested

/-- A write that is performed lets the records that wait at a window be tried again (R318). -/
theorem hostWriteArrives_written (written : writeVa s (queueCtx q (mgetN s 0 (regDev 0x380) % 2 ^ 16)) va bytes 0 = (u, .ok ())) (live : u.capture = false) :
    hostWriteArrives s va bytes = retestRings u := by
  have other : bytes.length ≠ 160 := fun same => by simp [same] at size
  unfold hostWriteArrives
  rw [if_neg (hostWrite_passes ready free ((hostTested_memory here memory true).trans untested)), if_neg other, if_neg (by simp [hostShape_of size aligned]), here]
  dsimp only
  rw [memory, if_neg (by decide), written]
  dsimp only
  rw [captureArrival_uncaptured live]
  split <;> rfl

theorem hostWriteArrives_missed {e : MemErr} (missed : writeVa s (queueCtx q (mgetN s 0 (regDev 0x380) % 2 ^ 16)) va bytes 0 = (u, .error e)) :
    hostWriteArrives s va bytes = mbump u 0 (regDev 0x388) 32 := by
  have other : bytes.length ≠ 160 := fun same => by simp [same] at size
  unfold hostWriteArrives
  rw [if_neg (hostWrite_passes ready free ((hostTested_memory here memory true).trans untested)), if_neg other, if_neg (by simp [hostShape_of size aligned]), here]
  dsimp only
  rw [memory, if_neg (by decide), missed]
  rfl

end

/-! ## Registers -/

omit ready free here in
theorem mgmtWrites_single (unreset : ¬(q = 0 ∧ off = regDev 0x300)) : mgmtWrites s q off [v] = mgmtStore s 768 q off v := by
  rw [mgmtWrites, if_neg unreset, mgmtWrites]

theorem hostWriteArrives_register (mgmt : inMgmt off = true) (aligned : va % bytes.length = 0) (unreset : q = 0 → off / 8 * 8 ≠ regDev 0x300)
    (size : bytes.length = 8) : hostWriteArrives s va bytes = mgmtStore s 768 q off (w64 (leNat bytes)) := by
  have whole : dwordOf bytes 0 = w64 (leNat bytes) := by rw [dwordOf, Nat.mul_zero, List.drop_zero, ← size, List.take_length]
  rw [hostWriteArrives_mgmt ready free here mgmt (by simp [size]) aligned, if_neg (by omega), size, ← whole]
  refine mgmtWrites_single ?_
  rintro ⟨first, rfl⟩
  exact unreset first (by decide)

theorem hostWriteArrives_merged (mgmt : inMgmt off = true) (aligned : va % bytes.length = 0) (unreset : q = 0 → off / 8 * 8 ≠ regDev 0x300)
    (size : bytes.length ∈ [1, 2, 4]) : hostWriteArrives s va bytes = mgmtStore s 768 q (off / 8 * 8) (mgmtMerge s q off bytes) := by
  have small : bytes.length < 8 := by simp at size; omega
  rw [hostWriteArrives_mgmt ready free here mgmt (by simp at size ⊢; omega) aligned, if_pos small]
  exact mgmtWrites_single fun reset => unreset reset.1 reset.2

end

end

end Sys2Proof.Machine.Proofs
end

section
/-! PROOFS. Registers without a behaviour of their own, and the fault queue (R371 to R373, R388, R389). -/

namespace Sys2Proof.Machine.Proofs

open Sys2Proof Sys2Proof.Machine Sys2Proof.Machine.Safety Sys2Proof.Machine.Laws

/-! ## Plain registers (R10, R389) -/

/-- What a plain register holds after a write (R10). -/
def RegKind.written (k : RegKind) (old v : W64) : W64 := (old &&& ~~~(w64 k.rw)) &&& ~~~(v &&& w64 k.w1c) ||| (v &&& w64 k.rw)

section
variable {s : State} {q off : Nat} {v : W64} {k : RegKind}

/-- A field that software writes takes the value. -/
theorem nfld_written {lo w : Nat} (writable : ∀ i, i < w → (w64 k.rw).getLsbD (lo + i) = true) (old : W64) :
    nfld (RegKind.written k old v).toNat lo w = nfld v.toNat lo w := by
  have same : (RegKind.written k old v).extractLsb' lo w = v.extractLsb' lo w := by
    refine BitVec.eq_of_getLsbD_eq fun i inside => ?_
    simp [RegKind.written, inside, writable i inside]
  have fields := congrArg BitVec.toNat same
  simpa [nfld, BitVec.extractLsb'_toNat, Nat.shiftRight_eq_div_pow] using fields

theorem regKind_aligned (kind : regKind q off = some k) : off % 8 = 0 := by
  by_contra odd
  rw [regKind, if_pos odd] at kind
  cases kind

/-- The registers end below the mailboxes. -/
theorem devKind_mailbox (high : 0x3F0000400000 ≤ off) : devKind off = none := by
  have link : linkReg off = none := by
    unfold linkReg
    dsimp only
    rw [if_neg (by omega), if_neg (by omega)]
  simp only [devKind, link, Option.bind_none, regFabLost, regEthDrop, regLtqTimeout, regEptab, regWvSel, regDev]
  iterate 13 rw [if_neg (by omega)]

theorem regKind_mailbox (high : 0x3F0000400000 ≤ off) : regKind q off = none := by
  rw [regKind, devKind_mailbox high, ite_self]
  split
  · rfl
  · iterate 7 rw [if_neg (by omega)]

theorem regKind_channelMap (low : 0x3F0000200000 ≤ off) (high : off < 0x3F0000204000) (map : off % 0x100 = 0) : regKind q off = none := by
  rw [regKind, map]
  iterate 5 rw [if_neg (by omega)]
  exact if_pos ⟨low, high⟩

theorem mailboxAt_of_regKind (kind : regKind q off = some k) : mailboxAt q off = none := by
  have low : off < 0x3F0000400000 := by
    by_contra high
    rw [regKind_mailbox (by omega)] at kind
    cases kind
  exact if_pos (Or.inl low)

theorem plainWrite_of_regKind (kind : regKind q off = some k) : plainWrite s q off v = mset s q off (RegKind.written k (mget s q off) v) := by
  rw [plainWrite, kind]
  rfl

/-- A plain register is none of those with a behaviour of their own. -/
theorem mgmtWrite_plain {writer word job : Nat} (kind : regKind q off = some k) : mgmtWrite s writer q off v word job =
    if writer = 769 ∧ 0x3F0000001000 ≤ off ∧ off < 0x3F0000002000 ∧ off % 0x40 = 0 then
      mset (plainWrite s q off v) q off (w64 (nset (mgetN (plainWrite s q off v) q off) 1 1 (nfld v.toNat 1 1)))
    else if 0x3F0000002000 ≤ off ∧ off < 0x3F0000002200 then retestRings (plainWrite s q off v) else plainWrite s q off v := by
  have apart : ∀ r, regKind q r = none → off ≠ r := by
    rintro r none rfl
    rw [kind] at none
    cases none
  have device : ∀ r, regKind 0 r = none → ¬(q = 0 ∧ off = r) := by
    rintro r none ⟨rfl, same⟩
    exact apart r none same
  have map : ¬(0x3F0000200000 ≤ off ∧ off < 0x3F0000204000 ∧ off % 0x100 = 0) := fun h => by
    rw [regKind_channelMap h.1 h.2.1 h.2.2] at kind
    cases kind
  rw [mgmtWrite, if_neg (not_not.2 (regKind_aligned kind)), mailboxAt_of_regKind kind]
  dsimp only
  rw [if_neg (apart regInval rfl), if_neg (apart regSkClr rfl), if_neg (apart regHrCfg rfl), if_neg (apart regMigCtl rfl), if_neg map,
    if_neg (device regWvQuota rfl), if_neg (device (regDev 0x28) rfl), if_neg (device (regDev 0x30) rfl), if_neg (device (regDev 0x88) rfl),
    if_neg (device (regDev 0x90) rfl), if_neg (device (regDev 0x120) rfl), if_neg (device (regDev 0x2A8) rfl)]

/-- Adeun's write of bit 1 leaves the other fields (R388). -/
theorem jqCtl_fields {a x : Nat} (small : a < 2 ^ 64) : nbit (w64 (nset a 1 1 (nfld x 1 1))).toNat 1 = nbit x 1 ∧
    nfld (w64 (nset a 1 1 (nfld x 1 1))).toNat 0 1 = nfld a 0 1 ∧ nfld (w64 (nset a 1 1 (nfld x 1 1))).toNat 48 16 = nfld a 48 16 := by
  have fits : nset a 1 1 (nfld x 1 1) < 2 ^ 64 := by unfold nset nfld; omega
  rw [w64, BitVec.toNat_ofNat, Nat.mod_eq_of_lt fits]
  unfold nbit nset nfld
  refine ⟨?_, by omega, by omega⟩
  rw [show (a - a / 2 ^ 1 % 2 ^ 1 * 2 ^ 1 + x / 2 ^ 1 % 2 ^ 1 % 2 ^ 1 * 2 ^ 1) / 2 ^ 1 % 2 = x / 2 ^ 1 % 2 by omega]

theorem nbit_zero_of_fields {x y : Nat} (same : nfld x 0 1 = nfld y 0 1) : nbit x 0 = nbit y 0 := congrArg (· == 1) same

/-- The bits of `jq.ctl` that software writes (R388). -/
theorem regKind_jqCtl {n : Nat} (bound : n < 64) : regKind q (regJq n 0) = kRw (bitsM 63 48 + bitsM 4 3 + 1) := by
  have field : (0x3F0000001000 + 0x40 * n) % 0x40 / 8 = 0 := by omega
  rw [regKind, regJq, Nat.mul_zero, Nat.add_zero, if_neg (by omega), if_neg (by omega), if_pos (by omega), field]
  rfl

/-- Adeun's write of `jq.ctl` sets bit 1 besides the bits that software writes (R388). -/
theorem adeunWrite_jqCtl (kind : regKind q off = some k) (ctl : 0x3F0000001000 ≤ off ∧ off < 0x3F0000002000 ∧ off % 0x40 = 0) :
    mgmtStore s 769 q off v = mset (mset s q off (RegKind.written k (mget s q off) v)) q off
      (w64 (nset (RegKind.written k (mget s q off) v).toNat 1 1 (nfld v.toNat 1 1))) := by
  have wrote : mgmtWrite s 769 q off v = _ := (mgmtWrite_plain kind).trans (if_pos ⟨rfl, ctl⟩)
  rw [plainWrite_of_regKind kind, mgetN, mget_mset] at wrote
  exact (mgmtStore_unsignalled (by rw [wrote]; rfl)).trans wrote

theorem adeunWrite_plain (kind : regKind q off = some k) (other : ¬(0x3F0000001000 ≤ off ∧ off < 0x3F0000002000 ∧ off % 0x40 = 0)) :
    mgmtStore s 769 q off v = if 0x3F0000002000 ≤ off ∧ off < 0x3F0000002200 then retestRings (mset s q off (RegKind.written k (mget s q off) v))
      else mset s q off (RegKind.written k (mget s q off) v) := by
  have wrote : mgmtWrite s 769 q off v = _ := (mgmtWrite_plain kind).trans (if_neg fun both => other both.2)
  rw [plainWrite_of_regKind kind] at wrote
  refine (mgmtStore_unsignalled ?_).trans wrote
  rw [wrote]
  split
  · exact (retestRings_calm (job := 0) _).retries
  · rfl

/-- A write of Adeun to a plain register, in the state before the records at a window are tried again. -/
theorem adeunWrite_state (v : W64) (kind : regKind q off = some k) :
    ∃ t, mgmtStore s 769 q off v = (if 0x3F0000002000 ≤ off ∧ off < 0x3F0000002200 then retestRings t else t) ∧
      (¬(0x3F0000001000 ≤ off ∧ off < 0x3F0000002000 ∧ off % 0x40 = 0) → mget t q off = RegKind.written k (mget s q off) v) ∧
      (∀ n, n < 64 → off = regJq n 0 →
        nbit (mgetN t q off) 1 = nbit v.toNat 1 ∧ nbit (mgetN t q off) 0 = nbit v.toNat 0 ∧ nfld (mgetN t q off) 48 16 = nfld v.toNat 48 16) ∧
      (∀ r o, mkey r o ≠ mkey q off → mget t r o = mget s r o) ∧ { t with mgmt := s.mgmt } = s := by
  by_cases ctl : 0x3F0000001000 ≤ off ∧ off < 0x3F0000002000 ∧ off % 0x40 = 0
  · refine ⟨_, (adeunWrite_jqCtl kind ctl).trans (if_neg (by omega)).symm, fun other => absurd ctl other, fun n bound named => ?_, fun r o other => ?_, rfl⟩
    · obtain ⟨served, low, high⟩ := jqCtl_fields (x := v.toNat) (RegKind.written k (mget s q off) v).isLt
      subst named
      obtain rfl := Option.some.inj (kind.symm.trans (regKind_jqCtl bound))
      rw [mgetN, mget_mset]
      exact ⟨served, nbit_zero_of_fields (low.trans (nfld_written (by decide) _)), high.trans (nfld_written (by decide) _)⟩
    · rw [mget_mset_other _ _ other, mget_mset_other _ _ other]
  · refine ⟨_, adeunWrite_plain kind ctl, fun _ => mget_mset s q off _, fun n bound named => ?_, fun r o other => mget_mset_other _ _ other, rfl⟩
    exact absurd (by unfold regJq at named; omega) ctl

/-! ## The fault queue (R371, R372) -/

theorem appendFault_full (full : 1024 ≤ s.faults.length) : appendFault s = s := by
  unfold appendFault
  split
  · rfl
  · exact if_pos full

section
variable {f : FaultRec} {r : List FaultRec} (waiting : s.faultsWaiting = f :: r) (room : s.faults.length < 1024)
include waiting room

/-- The oldest waiting fault joins the queue. -/
def faultJoined (s : State) (f : FaultRec) (r : List FaultRec) : State := { s with faults := s.faults ++ [f], faultsWaiting := r }

theorem appendFault_quiet (quiet : s.faults ≠ [] ∨ mgetN s 0 (regDev 0x38) = 0) : appendFault s = faultJoined s f r := by
  unfold appendFault
  rw [waiting]
  dsimp only
  rw [if_neg (by omega)]
  refine if_neg ?_
  rintro ⟨first, notify⟩
  exact quiet.elim (fun some => some (List.isEmpty_iff.1 first)) notify

theorem appendFault_notifies (empty : s.faults = []) (notify : mgetN s 0 (regDev 0x38) ≠ 0) :
    appendFault s = deviceStore (faultJoined s f r) (mgetN s 0 (regDev 0x38)) (leBytes 8 1) := by
  unfold appendFault
  rw [waiting]
  dsimp only
  rw [if_neg (by omega)]
  refine (if_pos ⟨by rw [empty]; rfl, notify⟩).trans ?_
  rw [empty, faultJoined, empty]
  rfl

theorem appendFault_joins : (appendFault s).faults = s.faults ++ [f] ∧ (appendFault s).faultsWaiting = r := by
  by_cases quiet : s.faults ≠ [] ∨ mgetN s 0 (regDev 0x38) = 0
  · rw [appendFault_quiet waiting room quiet]
    exact ⟨rfl, rfl⟩
  · obtain ⟨empty, notify⟩ := not_or.1 quiet
    rw [appendFault_notifies waiting room (not_not.1 empty) notify]
    have calm := deviceStore_calm (job := 0) (faultJoined s f r) (mgetN s 0 (regDev 0x38)) (leBytes 8 1)
    exact ⟨calm.faults, calm.waiting⟩

theorem appendFault_host (empty : s.faults = []) (host : locOf (mgetN s 0 (regDev 0x38)) = .host) :
    (appendFault s).hostOut = s.hostOut ++ [(mgetN s 0 (regDev 0x38), leBytes 8 1)] := by
  have notify : mgetN s 0 (regDev 0x38) ≠ 0 := fun zero => by rw [zero] at host; exact absurd host (by decide)
  rw [appendFault_notifies waiting room empty notify, deviceStore, host]
  rfl

end

/-! ## Registers of the queues (R372, R373) -/

theorem mgmtWrite_fqEnd (writer : Nat) (v : W64) : mgmtWrite s writer 0 (regDev 0x30) v = faultEnd s v.toNat := rfl

section
variable {va key : Nat} (ready : s.ready = true) (free : hostWaits s = false)
include ready free

theorem fqPop_pops : hostStore s 0 (regDev 0x28) 0 = { s with faults := s.faults.tail } :=
  (hostStore_performed ready free).trans (mgmtStore_unsignalled rfl)

theorem erPop_pops : hostStore s 0 (regDev 0x88) 0 = { s with errors := s.errors.tail } :=
  (hostStore_performed ready free).trans (mgmtStore_unsignalled rfl)

theorem fqEnd_ends (small : va < 2 ^ 64) (named : localKey va = some key) :
    hostStore s 0 (regDev 0x30) (w64 va) = endJob s (Config.device * 2 ^ 48 + key) := by
  have wrote : mgmtWrite s 768 0 (regDev 0x30) (w64 va) = endJob s (Config.device * 2 ^ 48 + key) := by
    rw [mgmtWrite_fqEnd, w64, BitVec.toNat_ofNat, Nat.mod_eq_of_lt small, faultEnd, named]
  rw [hostStore_performed ready free, mgmtStore_unsignalled (by rw [wrote, endJob_retries]), wrote]

end

end

end Sys2Proof.Machine.Proofs
end

section
/-! PROOFS. The statement about the host die (O45). -/

namespace Sys2Proof.Machine.Proofs

open Sys2Proof Sys2Proof.Machine Sys2Proof.Machine.Safety Sys2Proof.Machine.Laws

section
variable {s : State} {va q off n : Nat}

theorem hostRead_answers (ready : s.ready = true) (free : hostWaits s = false) (here : locOf va = .here q off) (memory : inMgmt off = false)
    (size : n ∈ [1, 2, 4, 8, 16, 32, 64]) (aligned : va % n = 0)
    (untested : waitsHome s (queueCtx q (mgetN s 0 (regDev 0x380) % 2 ^ 16)) va n false = false) :
    hostReadArrives s va n = { (hostReads s va n).1 with hostAnswers := (hostReads s va n).1.hostAnswers ++ [(va, (hostReads s va n).2)] } :=
  hostReadArrives_answered (hostShape_of size aligned) free ((hostTested_memory here memory false).trans untested) (Or.inl ready)

theorem bootSt_answers (unready : s.ready = false) (free : hostWaits s = false) :
    hostReadArrives s (0xFFFF * 2 ^ 48 + regDev 0x200) 8 = { s with
      hostAnswers := s.hostAnswers ++ [(0xFFFF * 2 ^ 48 + regDev 0x200, leBytes 8 (s.bootStage % 256 + s.bootCode % 256 * 2 ^ 8))] } := by
  have here : locOf (0xFFFF * 2 ^ 48 + regDev 0x200) = .here 0 (regDev 0x200) := by decide
  have answered := hostReadArrives_answered (n := 8) (s := s) (by decide) free (hostTested_mgmt here (by decide) false) (Or.inr ⟨by decide, by decide⟩)
  rwa [hostReads_bootSt unready] at answered

end

/-- Settles O45: each host access by the guards of the port, register writes by the kinds of the registers, and the end of a job by its stages. -/
theorem hostDieReachesTheDevice : Obligations.HostDieReachesTheDevice := by
  unfold Obligations.HostDieReachesTheDevice
  refine ⟨fun s va n bytes waits => ?held, fun s u va q off ready free here memory => ?memory, fun s va q off bytes ready free here mgmt aligned unreset => ?register,
    fun s va n bytes unready => ?unready, fun s q off v k kind => ?plain, fun s f r waiting => ?faults, fun s => ?pops, fun s va k j ready free small named => ?ends⟩
  case held =>
    exact ⟨congrArg Host.Outcome.next (hostReadArrives_held (Or.inl waits)), congrArg Host.Outcome.next (hostWriteArrives_held (Or.inr (Or.inl waits)))⟩
  case memory =>
    refine ⟨fun n tested => ?_, fun bytes short tested => ?_, fun n size aligned untested => ⟨fun bs read => ?_, fun e read => ?_⟩,
      fun bytes size aligned untested => ⟨fun written live => ?_, fun e missed => ?_⟩, fun bytes size => ?_⟩
    · exact congrArg Host.Outcome.next (hostReadArrives_held (Or.inr ((hostTested_memory here memory false).trans tested)))
    · exact congrArg Host.Outcome.next (hostWriteArrives_held (Or.inr (Or.inr ⟨short, (hostTested_memory here memory true).trans tested⟩)))
    · refine congrArg Host.Outcome.next ((hostRead_answers ready free here memory size aligned untested).trans ?_)
      rw [hostReads_read here memory read]
    · refine congrArg Host.Outcome.next ((hostRead_answers ready free here memory size aligned untested).trans ?_)
      rw [hostReads_missed here memory read, mbump_hostAnswers]
    · exact congrArg Host.Outcome.next (hostWriteArrives_written ready free here memory size aligned untested written live)
    · exact congrArg Host.Outcome.next (hostWriteArrives_missed ready free here memory size aligned untested missed)
    · exact congrArg Host.Outcome.next (hostWriteArrives_packet ready free here size)
  case register =>
    exact ⟨fun size => congrArg Host.Outcome.next (hostWriteArrives_register ready free here mgmt aligned unreset size),
      fun size => congrArg Host.Outcome.next (hostWriteArrives_merged ready free here mgmt aligned unreset size)⟩
  case unready =>
    refine ⟨congrArg Host.Outcome.next (hostWriteArrives_held (Or.inl unready)), fun other => congrArg Host.Outcome.next (hostReadArrives_unready unready other),
      fun boot free => ?_⟩
    subst boot
    exact congrArg Host.Outcome.next (bootSt_answers unready free)
  case plain =>
    obtain ⟨t, wrote, rest⟩ := adeunWrite_state v kind
    exact ⟨t, congrArg Host.Outcome.next ((if_pos (by rw [kind]; rfl)).trans wrote), rest⟩
  case faults =>
    refine ⟨fun room => ⟨appendFault s, rfl, (appendFault_joins waiting room).1, (appendFault_joins waiting room).2, ?_, fun quiet => ?_⟩,
      fun full => congrArg Host.Outcome.next (appendFault_full full)⟩
    · rintro empty va host rfl
      exact appendFault_host waiting room empty host
    · rw [appendFault_quiet waiting room quiet]
      exact ⟨rfl, rfl⟩
  case pops =>
    exact ⟨fun ready free => ⟨congrArg Host.Outcome.next (fqPop_pops ready free), congrArg Host.Outcome.next (erPop_pops ready free)⟩,
      fun away => ⟨congrArg Host.Outcome.next (hostStore_discarded away), congrArg Host.Outcome.next (hostStore_discarded away)⟩⟩
  case ends =>
    have ended : exec (.fqEnd va) s = .next (endJob s (Config.device * 2 ^ 48 + k)) := congrArg Host.Outcome.next (fqEnd_ends ready free small named)
    refine ⟨fun absent => ended.trans (congrArg Host.Outcome.next (endJob_unlisted absent)),
      fun found => ⟨_, ended, fun p r held => endJob_residents found held, fun worldless => ?_⟩,
      fun found worldless cores parts asleep => ended.trans (congrArg Host.Outcome.next (endJob_bare found worldless cores parts asleep))⟩
    obtain ⟨entry, levels⟩ := endJob_entry found worldless
    refine ⟨entry, levels, fun p r held own => ?_⟩
    obtain ⟨_, regs, flights, loops, monitor, queues⟩ := endJob_clears found worldless held own
    exact ⟨regs, flights, loops, monitor, queues⟩

end Sys2Proof.Machine.Proofs
end

section
/-! PROOFS. The registers with a behaviour of their own, as the host die writes them: `tr.inval`, `wv.quota`, `sk.clr`, `hr.cfg`, the channel map and
`mig.ctl` (R288, R292, R294, R296, R302, R343, R372). -/

namespace Sys2Proof.Machine.Proofs

open Sys2Proof Sys2Proof.Machine Sys2Proof.Machine.Safety Sys2Proof.Machine.Laws

/-! ## Tests of dependences give no retry signal (R223) -/

theorem testDep_retries (s : State) (addr d : Nat) : (testDep s addr d).retries = s.retries := by
  unfold testDep
  split
  · rfl
  next j found =>
    split
    · rfl
    · dsimp only
      split
      · rfl
      · have read : (if depBar j.card d = 0 then (s, Except.ok (depPhase j.card d)) else
            readNum s (queueCtx (nfld addr 46 2) j.asid) (depBar j.card d + 16) 4 0).1.retries = s.retries := by
          split
          · rfl
          · exact (readNum_calm (job := 0) _ _ _).retries
        split
        next u e made => rw [made] at read; exact read
        next u v made =>
          rw [made] at read
          refine Eq.trans ?_ read
          split <;> split <;> rfl

theorem testAgain_retries (s : State) : (testAgain s).retries = s.retries := by
  unfold testAgain testMarked
  refine foldl_retries (fun s j => ?_) _ s
  exact foldl_retries (fun s d => testDep_retries s j.addr (d % 2)) _ s

/-! ## Writes at the port (R255, R372) -/

section
variable {s t : State} {q off : Nat} {v : W64} (ready : s.ready = true) (free : hostWaits s = false)
include ready free

theorem hostStore_quiet (wrote : mgmtWrite s 768 q off v = t) (quiet : t.retries = s.retries) : hostStore s q off v = t := by
  rw [hostStore_performed ready free, mgmtStore_unsignalled (by rw [wrote, quiet]), wrote]

/-- A retry signal lets every side log try again. -/
theorem hostStore_signals (wrote : mgmtWrite s 768 q off v = t) (signal : t.retries = s.retries + 1) (other : off ≠ regInval) :
    hostStore s q off v = replayLogs t := by
  have now : mgmtNow s 768 q off v 0 0 = t := (if_neg fun h => other h.1).trans wrote
  rw [hostStore_performed ready free, mgmtStore, now]
  exact if_neg (by omega)

/-- One from `tr.inval` lets the waiting jobs test their dependences first (R223). -/
theorem hostStore_invalidates (wrote : mgmtWrite s 768 q regInval v = t) (signal : t.retries = s.retries + 1) :
    hostStore s q regInval v = replayLogs (testAgain t) := by
  have now : mgmtNow s 768 q regInval v 0 0 = testAgain t := by
    rw [mgmtNow, wrote]
    exact if_pos ⟨rfl, by omega⟩
  rw [hostStore_performed ready free, mgmtStore, now]
  exact if_neg (by rw [testAgain_retries]; omega)

/-! ## `tr.inval` and `wv.quota` (R288, R343) -/

theorem trInval_ignored (busy : s.invalBusy.contains q = true) : hostStore s q regInval v = s :=
  have wrote : mgmtWrite s 768 q regInval v = invalWrite s q v := rfl
  hostStore_quiet ready free (wrote.trans (if_pos busy)) rfl

theorem trInval_starts (idle : s.invalBusy.contains q = false) : hostStore s q regInval v =
    replayLogs (testAgain { mset s q regInval (v &&& 0xFFFF3FFFFFFC0007) with invalBusy := s.invalBusy ++ [q], retries := s.retries + 1 }) :=
  have wrote : mgmtWrite s 768 q regInval v = invalWrite s q v := rfl
  hostStore_invalidates ready free (wrote.trans (if_neg (ne_true_of_eq_false idle))) rfl

theorem wvQuota_live {x : View} (listed : fget s.views (v.toNat / 2 ^ 52) = some x) (live : x.ended = false) : hostStore s 0 regWvQuota v =
    replayLogs { mset s 0 regWvQuota (v &&& 0xFFF0000000000000) with
      views := fput s.views (v.toNat / 2 ^ 52) { x with quota := v.toNat % 2 ^ 40 / 128 * 128 }, retries := s.retries + 1 } := by
  have wrote : mgmtWrite s 768 0 regWvQuota v = quotaWrite s v := rfl
  refine hostStore_signals ready free (wrote.trans ?_) rfl (by decide)
  simp only [quotaWrite, mset_views, listed, live, Bool.false_eq_true, if_false]
  rfl

theorem wvQuota_unlisted (unlisted : fget s.views (v.toNat / 2 ^ 52) = none) : hostStore s 0 regWvQuota v =
    replayLogs { mset s 0 regWvQuota (v &&& 0xFFF0000000000000) with retries := s.retries + 1 } := by
  have wrote : mgmtWrite s 768 0 regWvQuota v = quotaWrite s v := rfl
  refine hostStore_signals ready free (wrote.trans ?_) rfl (by decide)
  simp only [quotaWrite, mset_views, unlisted]
  rfl

/-! ## `sk.clr` and `hr.cfg` (R294, R296) -/

theorem skClr_clears : hostStore s q regSkClr v = sketchClear s q v := hostStore_quiet ready free rfl rfl

/-- GiB of the pools that a value of `hr.cfg` names (R294). -/
def poolsOf (n : Nat) : Nat := nfld n 0 8 + nfld n 8 8 + nfld n 16 8 + nfld n 24 8

theorem hrCfg_refused (large : 127 < poolsOf v.toNat) : hostStore s q regHrCfg v = s :=
  hostStore_quiet ready free (if_pos large) rfl

theorem hrCfg_accepted (small : poolsOf v.toNat ≤ 127) : hostStore s q regHrCfg v =
    modQuarter s q fun x => { x with hrPending := some (w64 (v.toNat % 2 ^ 32)), hrWriters := (768, 0) :: x.hrWriters } :=
  hostStore_quiet ready free (if_neg small.not_gt) rfl

/-! ## The channel map (R292) -/

omit ready free in
theorem mgmtWrite_channelMap {slot ch writer word job : Nat} (low : slot < 4) (low' : ch < 16) :
    mgmtWrite s writer q (regCh slot ch 0) v word job = chmSet s q slot ch v := by
  have at_ : regCh slot ch 0 = 0x3F0000200000 + 0x1000 * slot + 0x100 * ch := rfl
  have below : mailboxAt q (regCh slot ch 0) = none := if_pos (Or.inl (by omega))
  have slots : regCh slot ch 0 / 0x1000 % 4 = slot := by omega
  have channels : regCh slot ch 0 / 0x100 % 16 = ch := by omega
  have above {r : Nat} (h : r < 0x3F0000200000) : regCh slot ch 0 ≠ r := by omega
  rw [mgmtWrite, if_neg (by omega), below]
  dsimp only
  rw [if_neg (above (r := regInval) (by decide)), if_neg (above (r := regSkClr) (by decide)), if_neg (above (r := regHrCfg) (by decide)),
    if_neg (above (r := regMigCtl) (by decide)), if_pos (by omega), slots, channels]

theorem exec_chmWrite {slot ch : Nat} (low : slot < 4) (low' : ch < 16) (made : chmSet s q slot ch v = t) (quiet : t.retries = s.retries) :
    exec (.chmWrite q slot ch v) s = .next t :=
  congrArg Host.Outcome.next ((if_pos ⟨low, low'⟩).trans (hostStore_quiet ready free ((mgmtWrite_channelMap low low').trans made) quiet))

/-! ## `mig.ctl` (R302) -/

theorem migGo_starts {old place new : Nat} (idle : s.migrating.contains q = false) (leaf : migrationLeaf s q = some (old, place, new)) :
    hostStore s q regMigCtl 1 = if leafUsable s q new then mset { s with migrating := s.migrating ++ [q] } q regMigCtl 0 else mset s q regMigCtl 2 := by
  have wrote : mgmtWrite s 768 q regMigCtl 1 = migStart s q := rfl
  refine hostStore_quiet ready free (wrote.trans ?_) (by split <;> rfl)
  simp only [migStart, idle, leaf, Bool.false_eq_true, if_false]

end

/-- Where two states hold the same of all that a walk reads: memory and its caches, held translations, registers and lent ways (R283, R285). -/
structure SameWalk (s t : State) : Prop where
  mem : t.mem = s.mem
  die : t.die = s.die
  failing : t.failing = s.failing
  tags : t.tags = s.tags
  mgmt : t.mgmt = s.mgmt
  quarters : t.quarters = s.quarters

namespace SameWalk
variable {s t : State} (h : SameWalk s t)
include h

theorem mget : mget t = mget s := by unfold Machine.mget; rw [h.mgmt]

theorem mgetN : mgetN t = mgetN s := by unfold Machine.mgetN; rw [h.mget]

theorem tierOf : tierOf t = tierOf s := by
  unfold Machine.tierOf chSize chmState hrTotal quarter
  rw [h.mgetN, h.quarters]

theorem leafUsable : leafUsable t = leafUsable s := by unfold Machine.leafUsable; rw [h.tierOf]

theorem physDword : physDword t = physDword s := by
  have bytes : cohBytes t = cohBytes s := funext fun a => funext fun n => cohBytes_of (sameBytes_of h.mem h.die) n a
  unfold Machine.physDword backed unreadable
  rw [h.tierOf, h.die, h.failing, bytes]

theorem walkEntry : walkEntry t = walkEntry s := by unfold Machine.walkEntry; rw [h.physDword, h.leafUsable]

theorem leafAt : leafAt t = leafAt s := by
  unfold Machine.leafAt heldLeaf walk walkPath
  rw [h.tags, h.leafUsable, h.mgetN, h.physDword, h.walkEntry]

theorem migrationLeaf : migrationLeaf t = migrationLeaf s := by unfold Machine.migrationLeaf; rw [h.mgetN, h.leafAt]

end SameWalk

theorem migDone_moves {s : State} {q old place new : Nat} (runs : s.migrating.contains q = true) (leaf : migrationLeaf s q = some (old, place, new))
    (usable : leafUsable s q new = true) :
    let va := mgetN s q regMigVa
    let t : State := copyRange { s with migrating := s.migrating.filter (· != q) } (nfld old 18 30 * 2 ^ 18)
      (nfld new 18 30 * 2 ^ 18) (pageSize (nfld old 1 2)) (keyOfPage old q (nfld va 48 16) (nfld va 18 28 * 2 ^ 18))
    migDone s q = removeTranslations (physPut t place (leBytes 8 (movedLeaf t q place))) q 0 (nfld va 48 16) (nfld va 18 28 * 2 ^ 18) true := by
  intro va t
  have same : SameWalk s { s with migrating := s.migrating.filter (· != q) } := ⟨rfl, rfl, rfl, rfl, rfl, rfl⟩
  rw [← same.migrationLeaf] at leaf
  rw [← same.leafUsable] at usable
  rw [migDone, if_neg (not_not.2 runs)]
  dsimp only
  rw [leaf]
  exact if_neg (not_not.2 usable)

end Sys2Proof.Machine.Proofs
end

section
/-! PROOFS. What is removed, zeroed or halved: held translations and replica lines (R288, R289), ranges of memory (R290, R292), sketches (R296) and the
identifiers of views (R337). -/

namespace Sys2Proof.Machine.Proofs

open Sys2Proof Sys2Proof.Machine Sys2Proof.Machine.Safety Sys2Proof.Machine.Laws

/-! ## Translations and replica lines (R288, R289) -/

/-- A fold whose steps leave a part of the state leaves it. -/
theorem foldl_leaves {α β : Type} {g : State → β} {f : State → α → State} (leaves : ∀ s a, g (f s a) = g s) (l : List α) (s : State) :
    g (l.foldl f s) = g s := by
  induction l generalizing s with
  | nil => rfl
  | cons a l ih => exact (ih _).trans (leaves s a)

theorem writeBack_tags (s : State) (sec : Nat) : (writeBack s sec).tags = s.tags := by
  unfold writeBack
  split
  · split <;> rfl
  · rfl

theorem releaseLine_tags (s : State) (line : Nat) : (releaseLine s line).tags = s.tags := by
  unfold releaseLine
  split
  · rfl
  · exact foldl_leaves (g := State.tags) (f := fun s i => dropSector (writeBack s (4 * line + i)) (4 * line + i)) (fun s i => writeBack_tags s (4 * line + i)) _ s

theorem emptyReplica_same (s : State) (r : Replica) : SameButRead s (emptyReplica s r) := (tags_same s _).trans (releaseLine_same _ _)

/-- An emptied replica line leaves every held translation and every other replica. -/
theorem emptyReplica_tags (s : State) (r : Replica) : (emptyReplica s r).tags.large = s.tags.large ∧ (emptyReplica s r).tags.homes = s.tags.homes ∧
    (emptyReplica s r).tags.replicas = s.tags.replicas := by
  rw [emptyReplica, releaseLine_tags]
  exact ⟨rfl, rfl, rfl⟩

section
variable (s : State) (q scope asid off : Nat) (glob : Bool)

theorem removeTranslations_keeps : (removeTranslations s q scope asid off glob).invalBusy = s.invalBusy ∧
    (removeTranslations s q scope asid off glob).parts = s.parts := by
  have same : SameButRead s (removeTranslations s q scope asid off glob) := (tags_same s _).trans (foldl_same emptyReplica_same _ _)
  obtain ⟨b, f, d, g, e, q, l, n, m, same⟩ := same
  rw [same]
  exact ⟨rfl, rfl⟩

theorem removeTranslations_tags : let t := removeTranslations s q scope asid off glob
    t.tags.large = s.tags.large.filter (fun e => !invalHits scope asid off glob q e) ∧
    t.tags.homes = s.tags.homes.filter (fun h => !invalHits scope asid off glob q h.2) ∧
    t.tags.replicas = s.tags.replicas.filter fun r => !replicaHits scope asid off glob q r :=
  ⟨foldl_leaves (g := fun s => s.tags.large) (fun s r => (emptyReplica_tags s r).1) _ _,
    foldl_leaves (g := fun s => s.tags.homes) (fun s r => (emptyReplica_tags s r).2.1) _ _,
    foldl_leaves (g := fun s => s.tags.replicas) (fun s r => (emptyReplica_tags s r).2.2) _ _⟩

variable {s q scope asid off glob}

/-- Where no replica line is concerned, memory and its caches stay. -/
theorem removeTranslations_bytes (none : ∀ r ∈ s.tags.replicas, replicaHits scope asid off glob q r = false) :
    (removeTranslations s q scope asid off glob).mem = s.mem ∧ (removeTranslations s q scope asid off glob).die = s.die := by
  have away : s.tags.replicas.filter (replicaHits scope asid off glob q) = [] := List.filter_eq_nil_iff.2 fun r h => ne_true_of_eq_false (none r h)
  rw [removeTranslations, away]
  exact ⟨rfl, rfl⟩

end

section
variable {s : State} {q : Nat}

theorem invalDone_ends (busy : s.invalBusy.contains q = true) : invalDone s q =
    removeTranslations { s with invalBusy := s.invalBusy.filter (· != q) } q (nfld (mgetN s q regInval) 1 2) (nfld (mgetN s q regInval) 48 16)
      (nfld (mgetN s q regInval) 18 28 * 2 ^ 18) (nbit (mgetN s q regInval) 0) :=
  if_neg (not_not.2 busy)

/-- What the end of an invalidation leaves: the translations and replica lines that it does not concern. -/
theorem invalDone_leaves (busy : s.invalBusy.contains q = true) :
    let inval := mgetN s q regInval
    let hit := invalHits (nfld inval 1 2) (nfld inval 48 16) (nfld inval 18 28 * 2 ^ 18) (nbit inval 0) q
    let away := replicaHits (nfld inval 1 2) (nfld inval 48 16) (nfld inval 18 28 * 2 ^ 18) (nbit inval 0) q
    let t := invalDone s q
    t.invalBusy = s.invalBusy.filter (· != q) ∧ t.tags.large = s.tags.large.filter (fun e => !hit e) ∧ t.tags.homes = s.tags.homes.filter (fun h => !hit h.2) ∧
      t.tags.replicas = s.tags.replicas.filter (fun r => !away r) ∧ ((∀ r ∈ s.tags.replicas, away r = false) → t.mem = s.mem ∧ t.die = s.die) ∧
      t.parts = s.parts := by
  intro inval hit away t
  have ends : t = _ := invalDone_ends busy
  rw [ends]
  obtain ⟨rest, parts⟩ := removeTranslations_keeps { s with invalBusy := s.invalBusy.filter (· != q) } q (nfld inval 1 2) (nfld inval 48 16)
    (nfld inval 18 28 * 2 ^ 18) (nbit inval 0)
  obtain ⟨large, homes, replicas⟩ := removeTranslations_tags { s with invalBusy := s.invalBusy.filter (· != q) } q (nfld inval 1 2) (nfld inval 48 16)
    (nfld inval 18 28 * 2 ^ 18) (nbit inval 0)
  exact ⟨rest, large, homes, replicas, fun none => removeTranslations_bytes none, parts⟩

end

/-! ## Ranges of memory (R290, R292) -/

theorem memGet_filter (p : Nat → Bool) (m : List Host.Cell) (a : Nat) : memGet (m.filter fun c => p c.1) a = if p a then memGet m a else memEmpty := by
  induction m with
  | nil => exact (ite_self _).symm
  | cons c r ih =>
    obtain ⟨k, b⟩ := c
    by_cases own : a = k
    · subst own
      by_cases keeps : p a = true
      · simp [keeps, memGet]
      · simpa [keeps] using ih
    · by_cases keeps : p k = true
      · simp [keeps, memGet, own, ih]
      · simp [keeps, memGet, own, ih]

section
variable {s : State} {a n x : Nat}

theorem cohByte_zeroRange (aligned : 32 ∣ a) (inside : a ≤ x ∧ x < a + n) : cohByte (zeroRange s a n) x = 0 := by
  have sector : a ≤ 32 * (x / 32) ∧ 32 * (x / 32) < a + n := by omega
  have die : fget (zeroRange s a n).die (x / 32) = none :=
    (fget_filter (fun k => !decide (a ≤ 32 * k ∧ 32 * k < a + n)) s.die (x / 32)).trans (if_neg (by simp [sector]))
  have mem : memGet (zeroRange s a n).mem x = 0 :=
    (memGet_filter (fun k => !decide (a ≤ k ∧ k < a + n)) s.mem x).trans (if_neg (by simp [inside]))
  rw [cohByte, die]
  exact mem

theorem cohByte_zeroRange_other (aligned : 32 ∣ a) (whole : 32 ∣ n) (outside : x < a ∨ a + n ≤ x) : cohByte (zeroRange s a n) x = cohByte s x := by
  have sector : ¬(a ≤ 32 * (x / 32) ∧ 32 * (x / 32) < a + n) := by omega
  have die : fget (zeroRange s a n).die (x / 32) = fget s.die (x / 32) :=
    (fget_filter (fun k => !decide (a ≤ 32 * k ∧ 32 * k < a + n)) s.die (x / 32)).trans (if_pos (by simp only [sector, decide_false, Bool.not_false]))
  have mem : memGet (zeroRange s a n).mem x = memGet s.mem x :=
    (memGet_filter (fun k => !decide (a ≤ k ∧ k < a + n)) s.mem x).trans (if_pos (by simp only [show ¬(a ≤ x ∧ x < a + n) by omega, decide_false, Bool.not_false]))
  rw [cohByte, cohByte, die, mem]

end

theorem zeroRange_same (s : State) (a n : Nat) : SameButRead s (zeroRange s a n) := ⟨_, _, _, _, _, _, _, _, _, rfl⟩

/-- What a channel's entry of the map reads once it names another place, and what memory reads (R292). -/
theorem channelMoved_reads (s : State) (q slot ch : Nat) {new : Nat} (small : new < 256) :
    let base := q * 2 ^ 46 + 0x100000000000 + slot * 2 ^ 39 + ch * 2 ^ 35
    let t := mset (zeroRange s base (2 ^ 35)) q (regCh slot ch 0) (w64 (new + 32))
    let top := q * 2 ^ 46 + 0x100000000000 + slot * 2 ^ 39 + (ch + 1) * 2 ^ 35
    mgetN t q (regCh slot ch 0) = new + 32 ∧ (∀ a, base ≤ a → a < top → cohByte t a = 0) ∧ ∀ a, a < base ∨ top ≤ a → cohByte t a = cohByte s a := by
  intro base t top
  have aligned : 32 ∣ base := by unfold base; omega
  have size : top = base + 2 ^ 35 := by unfold top base; omega
  rw [size]
  refine ⟨?_, fun a low high => cohByte_zeroRange aligned ⟨low, high⟩, fun a outside => cohByte_zeroRange_other aligned (by decide) outside⟩
  rw [mgetN, mget_mset, w64, BitVec.toNat_ofNat, Nat.mod_eq_of_lt (by omega)]

/-! ## Sketches (R296) -/

theorem sketchClear_clears (s : State) (q : Nat) (v : W64) {k : Nat} (own : k / 65536 % 64 = v.toNat % 64) :
    fgetD (quarter (sketchClear s q v) q).sketch k 0 = 0 := by
  rw [sketchClear, quarter_modQuarter, fgetD, fget_filter (fun k => k / 65536 % 64 != v.toNat % 64), own, bne_self_eq_false]
  rfl

theorem sketchClear_other (s : State) (q : Nat) (v : W64) {k : Nat} (other : k / 65536 % 64 ≠ v.toNat % 64) :
    fgetD (quarter (sketchClear s q v) q).sketch k 0 = fgetD (quarter s q).sketch k 0 := by
  rw [sketchClear, quarter_modQuarter, fgetD, fget_filter (fun k => k / 65536 % 64 != v.toNat % 64), if_pos (bne_iff_ne.2 other), fgetD]

/-- A counter, at half its value where it is one of a slot on a gleaner. -/
def halveCounter (row : Nat) (k : Nat × Nat) : Nat × Nat := if k.1 / 65536 = row then (k.1, k.2 / 2) else k

/-- The counters of a quarter once a slot on a gleaner has halved; a counter of 0 is not listed. -/
def halvedCounters (m : FMap Nat) (row : Nat) : FMap Nat := (m.map (halveCounter row)).filter fun k => k.2 != 0

theorem rising_halveCounter {m : FMap Nat} (rising : Rising m) (row : Nat) : Rising (m.map (halveCounter row)) := by
  have number (k : Nat × Nat) : (halveCounter row k).1 = k.1 := by unfold halveCounter; split <;> rfl
  exact List.Pairwise.map _ (fun a b below => by rwa [number, number]) rising

theorem fgetD_halveCounter (m : FMap Nat) (row j : Nat) :
    fgetD (m.map (halveCounter row)) j 0 = if j / 65536 = row then fgetD m j 0 / 2 else fgetD m j 0 := by
  induction m with
  | nil => simp [fgetD, fget]
  | cons e r ih =>
    obtain ⟨k, n⟩ := e
    by_cases own : j = k
    · subst own
      by_cases slot : j / 65536 = row <;> simp [halveCounter, slot, fgetD, fget]
    · by_cases slot : k / 65536 = row <;> simpa [halveCounter, slot, own, fgetD, fget] using ih

theorem fgetD_filter_nonzero {m : FMap Nat} (rising : Rising m) (j : Nat) : fgetD (m.filter fun k => k.2 != 0) j 0 = fgetD m j 0 := by
  induction m with
  | nil => rfl
  | cons e r ih =>
    obtain ⟨k, n⟩ := e
    obtain ⟨above, rest⟩ := List.pairwise_cons.1 rising
    have later := ih rest
    by_cases own : j = k
    · subst own
      rw [fgetD, fgetD, fget_eq_none_of_lt above] at later
      by_cases zero : n = 0 <;> simp_all [fgetD, fget]
    · by_cases zero : n = 0 <;> simp_all [fgetD, fget]

theorem rising_halvedCounters {m : FMap Nat} (rising : Rising m) (row : Nat) : Rising (halvedCounters m row) :=
  List.Pairwise.filter _ (rising_halveCounter rising row)

theorem fgetD_halvedCounters {m : FMap Nat} (rising : Rising m) (row j : Nat) :
    fgetD (halvedCounters m row) j 0 = if j / 65536 = row then fgetD m j 0 / 2 else fgetD m j 0 :=
  (fgetD_filter_nonzero (rising_halveCounter rising row) j).trans (fgetD_halveCounter m row j)

section
variable {q slot : Nat}

/-- What a halving of a slot on some gleaners leaves of the sketches of a quarter (R296). -/
structure Halved (gs : List Nat) (slot : Nat) (x y : Quarter) : Prop where
  own : ∀ g ∈ gs, ∀ k, k / 65536 = 64 * g + slot → fgetD y.sketch k 0 = fgetD x.sketch k 0 / 2
  other : ∀ k, (∀ g ∈ gs, k / 65536 ≠ 64 * g + slot) → fgetD y.sketch k 0 = fgetD x.sketch k 0
  restarts : ∀ g ∈ gs, fgetD y.sketchAdds (64 * g + slot) 0 = 0
  counts : ∀ j, (∀ g ∈ gs, j ≠ 64 * g + slot) → fgetD y.sketchAdds j 0 = fgetD x.sketchAdds j 0

theorem halveSlot_due {s : State} {g : Nat} (due : halveDue s q g slot = true) : halveSlot s q g slot = modQuarter s q fun x => { x with
    sketch := halvedCounters x.sketch (64 * g + slot), sketchAdds := fdel x.sketchAdds (64 * g + slot) } :=
  if_neg (not_not.2 due)

/-- The halving on one gleaner leaves the others due that were. -/
theorem halveDue_halveSlot {s : State} {g g' : Nat} (rising : Rising (quarter s q).sketchAdds) (due : halveDue s q g slot = true) (other : g' ≠ g) :
    halveDue (halveSlot s q g slot) q g' slot = halveDue s q g' slot := by
  have count : fgetD (fdel (quarter s q).sketchAdds (64 * g + slot)) (64 * g' + slot) 0 = fgetD (quarter s q).sketchAdds (64 * g' + slot) 0 := by
    rw [fgetD, fget_fdel rising, if_neg (by omega), fgetD]
  have period : mgetN (halveSlot s q g slot) q regPeriod = mgetN s q regPeriod := by rw [halveSlot_due due]; rfl
  rw [halveDue, period, halveSlot_due due, quarter_modQuarter, count]
  rfl

theorem foldl_halveSlot {gs : List Nat} (distinct : gs.Nodup) {s : State} (due : ∀ g ∈ gs, halveDue s q g slot = true)
    (counters : Rising (quarter s q).sketch) (adds : Rising (quarter s q).sketchAdds) :
    Halved gs slot (quarter s q) (quarter (gs.foldl (fun s g => halveSlot s q g slot) s) q) := by
  induction gs generalizing s with
  | nil => exact ⟨by simp, by simp, by simp, by simp⟩
  | cons g gs ih =>
    obtain ⟨fresh, distinct⟩ := List.nodup_cons.1 distinct
    have first := due g List.mem_cons_self
    have one : quarter (halveSlot s q g slot) q = { quarter s q with
        sketch := halvedCounters (quarter s q).sketch (64 * g + slot), sketchAdds := fdel (quarter s q).sketchAdds (64 * g + slot) } := by
      rw [halveSlot_due first, quarter_modQuarter]
    have apart : ∀ g' ∈ gs, g' ≠ g := fun g' h same => fresh (same ▸ h)
    have rest := ih distinct (fun g' h => (halveDue_halveSlot adds first (apart g' h)).trans (due g' (List.mem_cons_of_mem g h)))
      (by rw [one]; exact rising_halvedCounters counters _) (by rw [one]; exact rising_fdel adds _)
    rw [List.foldl_cons]
    generalize quarter (gs.foldl (fun s g => halveSlot s q g slot) (halveSlot s q g slot)) q = y at rest ⊢
    rw [one] at rest
    obtain ⟨own, other, restarts, counts⟩ := rest
    dsimp only at own other restarts counts
    simp only [fgetD_halvedCounters counters] at own other
    simp only [fgetD, fget_fdel adds] at restarts counts
    refine ⟨fun g' h k row => ?_, fun k away => ?_, fun g' h => ?_, fun j away => ?_⟩
    · rcases List.mem_cons.1 h with rfl | later
      · rw [other k fun g' h same => apart g' h (by omega), if_pos row]
      · rw [own g' later k row, if_neg fun same => apart g' later (by omega)]
    · rw [other k fun g' h => away g' (List.mem_cons_of_mem g h), if_neg (away g List.mem_cons_self)]
    · rcases List.mem_cons.1 h with rfl | later
      · rw [fgetD, counts _ fun g' h same => apart g' h (by omega), if_pos rfl]; rfl
      · exact restarts g' later
    · rw [fgetD, counts j fun g' h => away g' (List.mem_cons_of_mem g h), if_neg (away g List.mem_cons_self), fgetD]

end

/-! ## The identifiers of views (R337) -/

section
variable {s : State} {v : Nat} {x : View} (listed : fget s.views v = some x)
include listed

theorem freeView_live (live : x.ended = false) : freeView s v = s := by
  rw [freeView, listed]
  exact if_pos (Or.inl (ne_true_of_eq_false live))

/-- The identifier of an ended view returns once no command and no entry of a side log is left at all. -/
theorem freeView_returns (ended : x.ended = true) (queues : ∀ p ∈ s.parts, ∀ k ∈ p.2.queues, k.2.queued = [] ∧ k.2.running = [])
    (logs : ∀ c ∈ s.cores, c.2.sideLog = [] ∧ c.2.sideHeld = []) : freeView s v = { s with
      views := fdel s.views v, cores := s.cores.map fun c => (c.1, { c.2 with roCopies := c.2.roCopies.filter fun k => k.1 / 2 ^ 60 != v }) } := by
  rw [freeView, listed]
  refine if_neg ?_
  rintro (live | works | logged)
  · exact live ended
  · obtain ⟨p, hp, k, hk, left⟩ : ∃ p ∈ s.parts, ∃ k ∈ p.2.queues, _ := by simpa only [List.any_eq_true] using works
    obtain ⟨queued, running⟩ := queues p hp k hk
    rw [queued, running] at left
    exact absurd left (by simp)
  · obtain ⟨c, hc, left⟩ := List.any_eq_true.1 logged
    obtain ⟨log, held⟩ := logs c hc
    rw [log, held] at left
    exact absurd left (by simp)

end

end Sys2Proof.Machine.Proofs
end

section
/-! PROOFS. The lent ways of the memory-side cache (R290): what a drain and a convert leave. -/

namespace Sys2Proof.Machine.Proofs

open Sys2Proof Sys2Proof.Machine Sys2Proof.Machine.Safety Sys2Proof.Machine.Laws

/-! ## Write-backs change no byte that a coherent reader sees (R85, R238) -/

/-- Memory is canonical, every cached sector holds its 32 bytes, and a clean one holds what memory does. -/
structure CachesAgree (s : State) : Prop where
  canonical : MemoryCanonical s
  rising : Rising s.die
  full : ∀ {k c}, fget s.die k = some c → c.bytes.length = 32
  clean : ∀ {k c}, fget s.die k = some c → c.dirty = false → ∀ i, i < 32 → c.bytes.getD i 0 = memGet s.mem (32 * k + i)

theorem cachesAgree_of {s : State} (sound : MemorySound s) (rising : Rising s.die)
    (clean : ∀ e ∈ s.die, e.2.dirty = false → e.2.bytes = memBytes s.mem (32 * e.1) 32) : CachesAgree s :=
  ⟨sound.1, rising, fun found => sound.2 _ (mem_of_fget found), fun found tidy i inside => by
    rw [clean _ (mem_of_fget found) tidy, memBytes_getD 32 _ _ _ inside]⟩

/-- A step that keeps the caches in agreement with memory, and every byte that a coherent reader sees. -/
def Evicts (s t : State) : Prop := CachesAgree s → CachesAgree t ∧ SameBytes s t

namespace Evicts

theorem rfl (s : State) : Evicts s s := fun agree => ⟨agree, fun _ => Eq.refl _⟩

theorem trans {s t u : State} (h : Evicts s t) (k : Evicts t u) : Evicts s u := fun agree =>
  ⟨(k (h agree).1).1, (h agree).2.trans (k (h agree).1).2⟩

theorem of_fields {s t : State} (mem : t.mem = s.mem) (die : t.die = s.die) : Evicts s t := fun ⟨canonical, rising, full, clean⟩ =>
  ⟨⟨canonical_of_mem mem canonical, die ▸ rising, die ▸ full, by rw [die, mem]; exact clean⟩, sameBytes_of mem die⟩

theorem foldl {α : Type} {f : State → α → State} (evicts : ∀ s a, Evicts s (f s a)) (l : List α) (s : State) : Evicts s (l.foldl f s) := by
  induction l generalizing s with
  | nil => exact rfl s
  | cons a l ih => exact (evicts s a).trans (ih _)

end Evicts

section
variable {s : State} {sec : Nat} {c : Sector}

/-- A dirty sector is written to memory and is clean from then on; of any other nothing changes. -/
theorem writeBack_cases (s : State) (sec : Nat) : ((∀ c, fget s.die sec = some c → c.dirty = false) ∧ writeBack s sec = s) ∨
    ∃ c, fget s.die sec = some c ∧ writeBack s sec = { s with
      mem := memPutAll s.mem (32 * sec) c.bytes, die := fput s.die sec { c with dirty := false }, failing := s.failing.filter (· != sec) } := by
  cases held : fget s.die sec with
  | none => exact Or.inl ⟨fun c other => (by cases other), by rw [writeBack, held]⟩
  | some c =>
    cases dirty : c.dirty with
    | true => exact Or.inr ⟨c, rfl, by rw [writeBack, held]; exact if_pos dirty⟩
    | false => exact Or.inl ⟨fun d same => Option.some.inj same ▸ dirty, by rw [writeBack, held]; exact if_neg (ne_true_of_eq_false dirty)⟩

theorem writeBack_leaves_clean (held : fget (writeBack s sec).die sec = some c) : c.dirty = false := by
  rcases writeBack_cases s sec with ⟨tidy, same⟩ | ⟨d, -, wrote⟩
  · exact tidy c (same ▸ held)
  · rw [wrote, fget_fput_same] at held
    cases held
    rfl

theorem writeBack_evicts (s : State) (sec : Nat) : Evicts s (writeBack s sec) := by
  intro agree
  obtain ⟨-, same⟩ | ⟨c, held, wrote⟩ := writeBack_cases s sec
  · rw [same]
    exact ⟨agree, fun _ => rfl⟩
  have ⟨canonical, rising, full, clean⟩ := agree
  have written (a : Nat) : memGet (memPutAll s.mem (32 * sec) c.bytes) a = if a / 32 = sec then c.bytes.getD (a % 32) 0 else memGet s.mem a := by
    rw [memGet_memPutAll _ _ _ canonical, full held]
    by_cases own : a / 32 = sec
    · rw [if_pos (by omega), if_pos own, show a - 32 * sec = a % 32 by omega]
    · rw [if_neg (by omega), if_neg own]
  rw [wrote]
  refine ⟨⟨memPutAll_wf _ _ canonical, rising_fput rising _ _, fun {k d} found => ?full, fun {k d} found tidy i inside => ?clean⟩, fun a => ?bytes⟩
  case full =>
    rw [fget_fput] at found
    split at found
    · cases found; exact (full held : c.bytes.length = 32)
    · exact full found
  case clean =>
    dsimp only
    rw [written, show (32 * k + i) / 32 = k by omega, show (32 * k + i) % 32 = i by omega]
    rw [fget_fput] at found
    split at found
    next own => rw [if_pos own]; cases found; rfl
    next other => rw [if_neg other]; exact clean found tidy i inside
  case bytes =>
    rw [cohByte, cohByte]
    dsimp only
    by_cases own : a / 32 = sec
    · rw [own, fget_fput_same, held]
    · rw [fget_fput_other _ _ own, written, if_neg own]

/-- What a clean sector holds stands in memory. -/
theorem dropSector_evicts (tidy : ∀ c, fget s.die sec = some c → c.dirty = false) : Evicts s (dropSector s sec) := by
  rintro ⟨canonical, rising, full, clean⟩
  have left (k : Nat) : fget (dropSector s sec).die k = if k = sec then none else fget s.die k := fget_fdel rising k sec
  have kept {k : Nat} {c : Sector} (found : fget (dropSector s sec).die k = some c) : fget s.die k = some c := by
    rw [left] at found
    split at found
    · cases found
    · exact found
  refine ⟨⟨canonical, rising_fdel rising sec, fun found => full (kept found), fun found => clean (kept found)⟩, fun a => ?_⟩
  rw [cohByte, cohByte, left]
  by_cases own : a / 32 = sec
  · rw [if_pos own]
    cases held : fget s.die (a / 32) with
    | none => rfl
    | some c =>
      dsimp only
      rw [clean held (tidy c (own ▸ held)) _ (Nat.mod_lt a (by decide)), Nat.div_add_mod]
      rfl
  · rw [if_neg own]
    rfl

theorem releaseLine_evicts (s : State) (line : Nat) : Evicts s (releaseLine s line) := by
  unfold releaseLine
  split
  · exact Evicts.rfl s
  · exact Evicts.foldl (fun s i => (writeBack_evicts s _).trans (dropSector_evicts fun c held => writeBack_leaves_clean held)) _ s

end

/-! ## Lines that leave the memory-side cache (R290) -/

section
variable (s : State)

/-- One line leaves the memory-side cache. -/
def leaveLine (s : State) (l : Nat) : State :=
  let t := (List.range 4).foldl (fun s i => writeBack s (4 * l + i)) s
  releaseLine { t with tags := { t.tags with msc := fdel t.tags.msc l } } l

theorem leaveLine_same (l : Nat) : SameButRead s (leaveLine s l) := by
  have back : SameButRead s ((List.range 4).foldl (fun s i => writeBack s (4 * l + i)) s) := foldl_same (fun s i => writeBack_same s _) _ s
  exact back.trans ((tags_same _ _).trans (releaseLine_same _ l))

theorem leaveLine_evicts (l : Nat) : Evicts s (leaveLine s l) := by
  have back : Evicts s ((List.range 4).foldl (fun s i => writeBack s (4 * l + i)) s) := Evicts.foldl (fun s i => writeBack_evicts s _) _ s
  unfold leaveLine
  extract_lets t
  have left : Evicts t { t with tags := { t.tags with msc := fdel t.tags.msc l } } := Evicts.of_fields rfl rfl
  exact back.trans (left.trans (releaseLine_evicts _ l))

theorem leaveWays_same (lines : List Nat) : SameButRead s (leaveWays s lines) := foldl_same leaveLine_same lines s

theorem leaveWays_evicts (lines : List Nat) : Evicts s (leaveWays s lines) := Evicts.foldl leaveLine_evicts lines s

/-! ## Drains and converts (R290) -/

/-- Quarters and partitions stay. -/
def SameUnits (s t : State) : Prop := t.quarters = s.quarters ∧ t.parts = s.parts

variable {s} in
theorem sameUnits_of_read {t : State} (same : SameButRead s t) : SameUnits s t := by
  obtain ⟨b, f, d, g, e, q, l, n, m, same⟩ := same
  rw [same]
  exact ⟨rfl, rfl⟩

variable {s} in
theorem SameUnits.quarter {t : State} (same : SameUnits s t) (q : Nat) : quarter t q = quarter s q := by
  rw [Machine.quarter, same.1, Machine.quarter]

theorem moveRange_units (a b n : Nat) : SameUnits s (moveRange s a b n) := by
  unfold moveRange
  extract_lets inA t cells bad u
  have gone : SameButRead s t :=
    foldl_same (f := fun s (c : Nat × Sector) => dropSector (writeBack s c.1) c.1) (fun s c => (writeBack_same s c.1).trans (dropSector_same _ _)) _ s
  have moved : SameUnits s u := sameUnits_of_read (gone.trans ((zeroRange_same t a n).trans (zeroRange_same _ b n)))
  exact moved

theorem setWays_units (q n : Nat) : Machine.quarter (setWays s q n) q = { Machine.quarter s q with msways := n, drained := n, mswaysSt := 0 } ∧
    (setWays s q n).parts = s.parts := by
  unfold setWays
  extract_lets base old k t u
  have moved : SameUnits s t := by
    unfold t
    split
    · exact ⟨rfl, rfl⟩
    · exact moveRange_units s _ _ _
  have zeroed : SameUnits s u := by
    unfold u
    split <;> exact moved
  rw [quarter_modQuarter, zeroed.quarter]
  exact ⟨rfl, zeroed.2⟩

variable {s} {q n : Nat}

theorem drainWays_drains (few : n ≤ 16) : drainWays s q n =
    modQuarter { leaveWays s (linesIn s q (16 - n)) with nextSeq := s.nextSeq + 1 } q fun x => { x with drained := n, mswaysSt := 0 } :=
  if_neg few.not_gt

theorem convertWays_dirty (few : n ≤ 16) (dirty : waysDirty s q n = true) :
    convertWays s q n = modQuarter { s with nextSeq := s.nextSeq + 1 } q fun x => { x with mswaysSt := 1 } :=
  (if_neg few.not_gt).trans (if_pos dirty)

/-- The lines of the ways to be lent that no drained way holds. -/
def undrainedLines (s : State) (q n : Nat) : List Nat :=
  (linesIn s q (16 - n)).filter fun l => decide (Config.wayOf s.nextSeq l % 16 < 16 - max (Machine.quarter s q).drained (Machine.quarter s q).msways)

theorem convertWays_lends (few : n ≤ 16) (tidy : waysDirty s q n = false) :
    convertWays s q n = setWays { leaveWays s (undrainedLines s q n) with nextSeq := s.nextSeq + 1 } q n :=
  (if_neg few.not_gt).trans (if_neg (ne_true_of_eq_false tidy))

theorem mswaysEnd_releases {p : Nat} {b : Bool} {k : Nat} (low : p < 768) (busy : (Machine.quarter s q).mswaysBusy = some (p, b, k)) :
    mswaysEnd s q = modPart (modQuarter s q fun x => { x with mswaysBusy := none }) p fun x => { x with msDone := true } := by
  rw [mswaysEnd, busy]
  exact if_pos low

end

end Sys2Proof.Machine.Proofs
end

section
/-! PROOFS. The statement about the operations of the management registers (O46). -/

namespace Sys2Proof.Machine.Proofs

open Sys2Proof Sys2Proof.Machine Sys2Proof.Machine.Safety Sys2Proof.Machine.Laws

/-- Settles O46: each register by what a write of it is at the port, and the ends of the operations by what they remove, zero, halve or lend. -/
theorem managementOperationsTakeEffect : Obligations.ManagementOperationsTakeEffect := by
  unfold Obligations.ManagementOperationsTakeEffect
  refine ⟨fun s q v away => ?away, fun s q v ready free => ?signals, fun s q v ready free => ?clears, fun s q slot low due adds counters => ?halves,
    fun s q v ready free => ?pools, fun s q slot ch v ready free low low' => ?channels, fun s q old place new => ?migration, fun s view x listed => ?views,
    fun s q n => ?ways⟩
  case away =>
    have held {q off : Nat} {v : W64} : Host.Outcome.next (hostStore s q off v) = (.next s : Host.Outcome State Fault Refusal) :=
      congrArg Host.Outcome.next (hostStore_discarded away)
    exact ⟨held, held, held, held, held, held, held⟩
  case signals =>
    refine ⟨fun busy => congrArg Host.Outcome.next (trInval_ignored ready free busy), fun idle => congrArg Host.Outcome.next (trInval_starts ready free idle),
      fun idle => congrArg Host.Outcome.next (if_pos (ne_true_of_eq_false idle)), fun busy => ?_,
      fun x listed live => congrArg Host.Outcome.next (wvQuota_live ready free listed live),
      fun unlisted => congrArg Host.Outcome.next (wvQuota_unlisted ready free unlisted)⟩
    exact ⟨_, rfl, invalDone_leaves busy⟩
  case clears =>
    exact ⟨_, congrArg Host.Outcome.next (skClr_clears ready free), congrArg Quarter.clearing (quarter_modQuarter s q _), fun k => sketchClear_clears s q v,
      fun k => sketchClear_other s q v, rfl⟩
  case halves =>
    obtain ⟨own, other, restarts, -⟩ := foldl_halveSlot (gs := [0, 1, 2, 3]) (by decide) (fun g h => due g (by simp at h; omega)) counters adds
    have four {g : Nat} (h : g < 4) : g ∈ [0, 1, 2, 3] := by simp; omega
    exact ⟨_, rfl, fun g k h => own g (four h) k, fun k away => other k fun g h => away g (by simp at h; omega), fun g h => restarts g (four h)⟩
  case pools =>
    refine ⟨fun large => congrArg Host.Outcome.next (hrCfg_refused ready free large), fun small => congrArg Host.Outcome.next (hrCfg_accepted ready free small),
      fun waits busy => congrArg Host.Outcome.next ?_, fun waits idle => congrArg Host.Outcome.next ?_⟩
    · rw [hrApply, waits]
      exact if_pos busy
    · rw [hrApply, waits]
      exact if_neg (ne_true_of_eq_false idle)
  case channels =>
    intro old new names
    refine ⟨fun twice => exec_chmWrite ready free low low' (if_pos twice) rfl, fun permutes moves => ?_, fun permutes tier place => ?_⟩
    · have moved : ¬(nfld old 6 2 = nfld new 6 2 ∧ nfld old 0 4 = nfld new 0 4) := fun same => moves.elim (· same.1) (· same.2)
      have small : new < 256 := by unfold new nfld; omega
      exact ⟨_, exec_chmWrite ready free low low' ((if_neg (not_not.2 permutes)).trans (if_neg moved)) rfl, channelMoved_reads s q slot ch small⟩
    · exact exec_chmWrite ready free low low' ((if_neg (not_not.2 permutes)).trans (if_pos ⟨tier, place⟩)) (by split <;> rfl)
  case migration =>
    exact ⟨fun ready free idle leaf => congrArg Host.Outcome.next (migGo_starts ready free idle leaf),
      fun idle => congrArg Host.Outcome.next (if_pos (ne_true_of_eq_false idle)),
      fun runs leaf usable => congrArg Host.Outcome.next (migDone_moves runs leaf usable)⟩
  case views =>
    refine ⟨fun live => congrArg Host.Outcome.next (freeView_live listed live), fun ended queues logs rising =>
      ⟨_, congrArg Host.Outcome.next (freeView_returns listed ended queues logs), ?_, fun w other => ?_, rfl, rfl⟩⟩
    · exact (fget_fdel rising view view).trans (if_pos rfl)
    · exact (fget_fdel rising w view).trans (if_neg other)
  case ways =>
    refine ⟨fun many => ⟨congrArg Host.Outcome.next (if_pos many), congrArg Host.Outcome.next (if_pos many)⟩, fun few => ⟨?_, ?_, fun tidy => ?_⟩,
      fun p b k low busy => congrArg Host.Outcome.next (mswaysEnd_releases low busy)⟩
    · obtain ⟨units, parts⟩ := sameUnits_of_read (leaveWays_same s (linesIn s q (16 - n)))
      refine ⟨_, congrArg Host.Outcome.next (drainWays_drains few), ?_, parts, fun sound rising clean => (leaveWays_evicts s _ (cachesAgree_of sound rising clean)).2⟩
      rw [quarter_modQuarter]
      exact congrArg (fun x : Quarter => { x with drained := n, mswaysSt := 0 }) (SameUnits.quarter ⟨units, parts⟩ q)
    · exact fun dirty => congrArg Host.Outcome.next (convertWays_dirty few dirty)
    · have left := sameUnits_of_read (leaveWays_same s (undrainedLines s q n))
      obtain ⟨lent, parts⟩ := setWays_units { leaveWays s (undrainedLines s q n) with nextSeq := s.nextSeq + 1 } q n
      refine ⟨_, congrArg Host.Outcome.next (convertWays_lends few tidy), lent.trans ?_, parts.trans left.2⟩
      exact congrArg (fun x : Quarter => { x with msways := n, drained := n, mswaysSt := 0 }) (left.quarter q)

end Sys2Proof.Machine.Proofs
end

section
/-! PROOFS. A write of `rst.ctl` behind a write of `hr.cfg` that has not taken effect (R255, R294, R383): the statement about errors, reset, boot and
attestation (O47) has the reset without that wait. -/

namespace Sys2Proof.Machine.Proofs

theorem exec_rstCtlWrite_held {s : State} {v : W64} (held : s.ready = false ∨ hostWaits s = true) : exec (.rstCtlWrite v) s = .next s :=
  congrArg Host.Outcome.next (if_pos (held.imp_left fun unready => by simp [unready]))

/-- A device that has just become ready: every register, record and byte is as reset leaves it. -/
def bootedDevice : State := { State.reset with ready := true }

/-- The booted device once the host die has written `hr.cfg` of quarter 0, before the new pools take effect (R294). -/
def poolsPending : State := modQuarter bootedDevice 0 fun x => { x with hrPending := some 5, hrWriters := [(768, 0, 0)] }

/-- One write of the host die leads the booted device to the state of the counterexample. -/
theorem exec_hrCfgWrite_bootedDevice : exec (.hrCfgWrite 0 5) bootedDevice = .next poolsPending :=
  congrArg Host.Outcome.next (hrCfg_accepted rfl (by decide) (by decide))

/-- That write is not performed yet, so the port performs no later one (R255). -/
theorem hostWaits_poolsPending : hostWaits poolsPending = true := by decide

/-- Refutes O47 in its clause on `rst.ctl`, which has no premise that the port is free (`hostWaits s = false`): behind a write of `hr.cfg` that has not taken
effect a write of 1 to `rst.ctl` waits (R255), so it leaves the ready device as it is, where the clause has it reset. -/
theorem not_errorsResetBootAndAttestation : ¬ Obligations.ErrorsResetBootAndAttestation := by
  unfold Obligations.ErrorsResetBootAndAttestation
  intro holds
  obtain ⟨-, -, -, -, -, reset, -, -⟩ := holds
  obtain ⟨-, resets, -, -⟩ := reset poolsPending 1
  obtain ⟨t, next, -, erased⟩ := resets rfl (by decide)
  have waits : exec (.rstCtlWrite 1) poolsPending = .next poolsPending := exec_rstCtlWrite_held (.inr hostWaits_poolsPending)
  have same : poolsPending = t := Host.Outcome.next.inj (waits.symm.trans next)
  rw [erased (by decide)] at same
  exact Bool.noConfusion (congrArg State.ready same : true = false)

end Sys2Proof.Machine.Proofs
end

section
/-! PROOFS. A replay that holds for `rp.limit` (R374, R379, R380). -/

namespace Sys2Proof.Machine.Proofs

open Sys2Proof Sys2Proof.Machine Sys2Proof.Machine.Safety Sys2Proof.Machine.Laws

section
variable {s : State} {p since va : Nat}

/-- A replay that diverges records it and ends the job (R380). -/
theorem diverge_found {job addr ord : Nat} {j : Job} (entry : findJob s job = some j) : diverge s job addr ord = endJob (noteDivergence s j addr ord) job := by
  rw [diverge, entry]

theorem holdLimit_reached (held : (part s p).replayAt = some (since, va)) (late : since + mgetN s (quarterOf p) regRpLimit * acPerUs ≤ s.time) :
    holdLimit s p = readDiverges s p va := by
  simp only [holdLimit, held, if_pos late]

/-- A hold below the limit goes on, and without a hold there is no limit. -/
theorem holdLimit_within (within : ∀ since va, (part s p).replayAt = some (since, va) → s.time < since + mgetN s (quarterOf p) regRpLimit * acPerUs) :
    holdLimit s p = s := by
  cases held : (part s p).replayAt with
  | none => simp only [holdLimit, held]
  | some hold => simp only [holdLimit, held, if_neg (within _ _ held).not_ge]

end

/-- A word that holds in a replay notes the address it asks for and, at its first try, the time (R379). -/
theorem part_replayWait (s : State) (p va : Nat) :
    part (replayWait s p va) p = { part s p with replayAt := some ((((part s p).replayAt.map (·.1)).getD s.time), va) } := part_modPart ..

/-- Settles O39: the step ends the job from the limit on and does nothing before it; a hold keeps the time of its first try, and the issue of the word
ends it. -/
theorem replayHoldLimitEndsTheJob : Obligations.ReplayHoldLimitEndsTheJob := by
  unfold Obligations.ReplayHoldLimitEndsTheJob
  refine ⟨fun s p since va j held entry late => ?ends, fun s p within => ?waits, fun s p va => ⟨?frame, fun first => ?starts, fun since _ held => ?keeps⟩,
    fun s h regs tokens => ?issued⟩
  case ends => exact congrArg Host.Outcome.next ((holdLimit_reached held late).trans (diverge_found entry))
  case waits => exact congrArg Host.Outcome.next (holdLimit_within within)
  case frame => rw [part_replayWait]
  case starts => rw [part_replayWait, first]; rfl
  case keeps => rw [part_replayWait, held]; rfl
  case issued => rw [part_issued]

end Sys2Proof.Machine.Proofs
end

section
/-! PROOFS. What reset leaves in registers and memory (R49, R217, R231, R292, R297, R304, R322, R380, R383, R387, R389). -/

namespace Sys2Proof.Machine.Proofs

open Sys2Proof Sys2Proof.Machine Sys2Proof.Machine.Safety Sys2Proof.Machine.Laws

/-! ## Control registers (R49, R304, R387) -/

theorem part_reset (p : Nat) : part .reset p = {} := rfl

theorem core_reset (c : Nat) : core .reset c = {} := rfl

theorem quarter_reset (q : Nat) : quarter .reset q = {} := rfl

theorem recording_reset (p : Nat) : recording .reset p = (false, false) := rfl

theorem fgetD_nil {α : Type} (k : Nat) (d : α) : fgetD [] k d = d := rfl

/-- No mode of R382 is set. -/
theorem modes_reset : State.reset.modeSet = 0 ∧ State.reset.profile = 0 ∧ State.reset.ordered = false ∧ State.reset.capture = false := ⟨rfl, rfl, rfl, rfl⟩

theorem mswaysValue_reset : mswaysValue {} = 0 := by decide

/-- Every control register but `cr.id` reads 0: each of the values that the numbers choose from is 0. -/
theorem crValue_reset (p : Nat) {n : Nat} (other : n ≠ 0) : crValue .reset p n = 0 := by
  have time : State.reset.time = 0 := rfl
  simp [crValue, other, part_reset, core_reset, quarter_reset, recording_reset, fgetD_nil, mswaysValue_reset, modes_reset, time, w64]

/-! ## Management registers (R389) -/

/-- No management register has been written. -/
theorem mgetN_reset (q off : Nat) : mgetN .reset q off = (mgmtReset off).toNat := rfl

/-- Each logical channel starts on the physical channel of its number (R292). -/
theorem mgmtReset_channel {g c : Nat} (slot : g < 4) (channel : c < 16) : mgmtReset (regCh g c 0) = w64 c := by
  have low : 0x3F0000200000 ≤ regCh g c 0 := by unfold regCh; omega
  have high : regCh g c 0 < 0x3F0000204000 := by unfold regCh; omega
  have first : regCh g c 0 % 0x100 = 0 := by unfold regCh; omega
  have number : regCh g c 0 / 0x100 % 16 = c := by unfold regCh; omega
  unfold mgmtReset
  rw [if_neg (by omega), if_neg (by omega), if_neg (by omega), if_neg (by omega), if_neg (by omega), if_pos ⟨low, high, first⟩, number]

/-- Every job queue starts disabled (R388). -/
theorem mgmtReset_jobQueue {n : Nat} (queue : n < 64) : mgmtReset (regJq n 0) = 0 := by
  have low : 0x3F0000001000 ≤ regJq n 0 := by unfold regJq; omega
  have high : regJq n 0 < 0x3F0000002000 := by unfold regJq; omega
  unfold mgmtReset
  rw [if_neg (by omega), if_neg (by omega), if_neg (by omega), if_neg (by omega), if_neg (by omega), if_neg (by omega)]

theorem channels_reset (q : Nat) {g c : Nat} (slot : g < 4) (channel : c < 16) : mgetN .reset q (regCh g c 0) = c := by
  rw [mgetN_reset, mgmtReset_channel slot channel, w64, BitVec.toNat_ofNat]
  exact Nat.mod_eq_of_lt (by omega)

theorem jobQueues_reset (q : Nat) {n : Nat} (queue : n < 64) : mgetN .reset q (regJq n 0) = 0 := by
  rw [mgetN_reset, mgmtReset_jobQueue queue]; rfl

/-! ## Memory (R383) -/

/-- Memory lists no byte and no cache holds a sector. -/
theorem memorySound_reset : MemorySound .reset := ⟨rfl, fun _ listed => absurd listed List.not_mem_nil⟩

/-- A device that waits for its images lets one ac pass (R384). -/
theorem step_reset : step .reset = .next { State.reset with time := 1 } := by
  rw [step_nil rfl rfl]; rfl

/-- Settles O52: no register has been written at reset, so each reads the value that the model gives an entry that is not listed. -/
theorem resetLeavesWhatTheManualSays : Obligations.ResetLeavesWhatTheManualSays := by
  unfold Obligations.ResetLeavesWhatTheManualSays
  refine ⟨fun p n => ?control, fun _ _ => rfl, fun _ _ => rfl, fun _ _ => rfl, fun _ _ => rfl, fun _ => ⟨rfl, rfl, rfl⟩,
    fun _ => ⟨rfl, rfl, rfl, rfl⟩, rfl, fun q _ _ => channels_reset q, fun q _ => jobQueues_reset q, fun _ => rfl, memorySound_reset, rfl, rfl, step_reset⟩
  case control =>
    split
    case isTrue id => subst id; simp [crValue, quarterOf, coreOf]
    case isFalse other => exact crValue_reset p other

end Sys2Proof.Machine.Proofs
end

section
/-! PROOFS. An error that a copy ahead of its read meets without anyone's noticing (R252, R281, R373): the statement that every step keeps the
notifications of the error queue stored. -/

namespace Sys2Proof.Machine.Proofs

open Sys2Proof Sys2Proof.Machine Sys2Proof.Machine.Safety Sys2Proof.Machine.Laws

/-! ## Notifications that become due (R373) -/

theorem mbump_notifyDue (s : State) (q off w : Nat) : (mbump s q off w).notifyDue = s.notifyDue := by simp only [mbump]; split <;> rfl

section
variable {s : State}

/-- The first record of an empty queue makes a notification due. -/
theorem appendError_due (empty : s.errors = []) (unit sev kind : Nat) (addr detail : W64) : (appendError s unit sev kind addr detail).notifyDue = true := by
  simp [appendError, empty]

theorem recordBad_due (empty : s.errors = []) (pa detail : Nat) : (recordBad s pa detail).notifyDue = true := by
  have due := appendError_due empty (unitMem s pa) 2 0x04 (w64 (pa / 32 * 32)) (w64 detail)
  simp only [recordBad]
  repeat' split
  · rw [mbump_notifyDue, due]
  · rw [mbump_notifyDue, due]
  · exact due

/-- A tolerant page answers a read that meets a failing sector with its substitute (R281), and the error is recorded (R374). -/
theorem meetError_tolerant (empty : s.errors = []) {pte : Nat} (tolerant : nbit pte 52 = true) (q pa : Nat) :
    ∃ u, meetError s q pte pa = (u, some (substitute (nfld pte 53 3))) ∧ u.notifyDue = true := by
  refine ⟨_, by simp only [meetError, tolerant, if_true]; rfl, ?_⟩
  rw [mbump_notifyDue, recordBad_due empty]

/-! ## Reads that meet a failing sector of an overlay line (R281, R338) -/

variable {c : Ctx} {u va q off pte place : Nat} {l : OverlayLine}

theorem readOverlay_tolerant (empty : s.errors = []) (tolerant : nbit pte 52 = true) (covered : inPool s q c.asid l = true)
    (fails : unreadable s (l.pa + off % 128) = true) (n hint : Nat) :
    ∃ t bs, readOverlay s c u l q off pte n hint = (t, .ok bs) ∧ t.notifyDue = true := by
  obtain ⟨t, met, due⟩ := meetError_tolerant empty tolerant q (l.pa + off % 128)
  exact ⟨t, _, by simp only [readOverlay, covered, fails, met, not_true_eq_false, if_false, if_true]; rfl, due⟩

theorem noteLeaf_held {asid : Nat} (held : (s.tags.homes.any fun h => h.1 == lineOf q off && serves h.2 q asid off) = true) : noteLeaf s q asid off = s :=
  if_pos held

theorem readPiece_tolerant (here : locOf va = .here q off) (memory : spotOf s q off = .memory) (own : overlayFind s c.view (lineOf q off) = some (u, l))
    (leaf : leafAt s q c.asid off = some (pte, place)) (held : (s.tags.homes.any fun h => h.1 == lineOf q off && serves h.2 q c.asid off) = true)
    (empty : s.errors = []) (tolerant : nbit pte 52 = true) (covered : inPool s q c.asid l = true)
    (fails : unreadable s (l.pa + off % 128) = true) (n hint : Nat) :
    ∃ t bs, readPiece s c va n hint = (t, .ok bs) ∧ t.notifyDue = true := by
  obtain ⟨t, bs, read, due⟩ := readOverlay_tolerant (u := u) empty tolerant covered fails n hint
  exact ⟨t, bs, by simp only [readPiece, here, memory, own, leaf, noteLeaf_held held, read], due⟩

/-- A sector that the read-only path fills brings with it what its read made due (R79). -/
theorem readOnly_due {t : State} {n hint : Nat} {bs : List Byte} (here : locOf va = .here q off)
    (absent : fget (core s (coreOf c.part)).roCopies (roKey (viewThat s c.view q off) c.asid ((q * 2 ^ 46 + off) / 32)) = none)
    (read : readVa s { c with home := some q } (va / 32 * 32) 32 (if hint = 3 then 3 else 4 + hint) = (t, .ok bs)) (due : t.notifyDue = true) :
    ∃ w v, readOnly s c va n hint = (w, .ok v) ∧ w.notifyDue = true := by
  refine ⟨_, _, by simp only [readOnly, here, absent, homeCtx_here here, read]; rfl, ?_⟩
  split <;> exact due

/-- A copy ahead of its read (R252) of a sector that can be read, at a home that is not under test. -/
theorem readAhead_copies {t : State} {p v : Nat} (here : locOf va = .here q off) (resident : (part s p).resident.isNone = false)
    (memory : spotOf s q off = .memory) (readable : meetsBad s (ctxOf s p .control) q off = false)
    (free : waitsHome s (homeCtx (ctxOf s p .control) va) (va / 32 * 32) 32 false = false)
    (read : readOnly s (ctxOf s p .control) va 1 3 = (t, .ok v)) : readAhead s p va = t := by
  simp [readAhead, here, resident, memory, readable, free, read]

end

/-! ## A copy ahead of its read -/

/-- The page of `heldPage`, as a tolerant page (R281). -/
def tolerantPage : TlbEntry := { heldPage with pte := heldPage.pte + 2 ^ 52 }

/-- Partition 0 works in view 1, whose line for `pageVa` stands 31 bytes into a sector as in `oddLine`. The sector in which the line begins fails, the
next one does not. -/
def brokenLine : State :=
  { oddLine with
    agenda := []
    tags := { large := [tolerantPage], homes := [(lineOf 0 0x100000, tolerantPage)] }
    failing := [0x10000000 / 32]
    parts := [(0, { resident := some { addr := 0, job := 0, view := 1, level := 0, base := 0, rival := false, ordinal := 0, stay := 0 } })] }

/-- Byte 31 of the line, which lies in the sector that can be read. -/
def aheadVa : Nat := pageVa + 31

/-- The read of the whole sector begins at byte 0 of the line, in the failing sector, and records an error. -/
theorem readVa_brokenLine :
    ∃ t bs, readVa brokenLine { ctxOf brokenLine 0 .control with home := some 0 } pageVa 32 3 = (t, .ok bs) ∧ t.notifyDue = true := by
  obtain ⟨t, bs, read, due⟩ := readPiece_tolerant (s := brokenLine) (c := { ctxOf brokenLine 0 .control with home := some 0 }) (va := pageVa) (q := 0)
    (off := 0x100000) (u := 1) (l := { pa := 0x1000001F, mask := 0 }) (pte := tolerantPage.pte) (place := 0) (n := 32) (hint := 3)
    (here := by decide +kernel) (memory := by decide +kernel) (own := by decide +kernel) (leaf := by decide +kernel) (held := by decide +kernel)
    (empty := rfl) (tolerant := by decide +kernel) (covered := by decide +kernel) (fails := by decide +kernel)
  have whole : Machine.piecesOf pageVa 32 = [(pageVa, 32)] := by decide +kernel
  exact ⟨t, bs ++ [], by rw [readVa, whole, readPieces, read]; rfl, due⟩

/-- The copy is made, for the sector of byte 31 can be read, and the error of byte 0 leaves a notification due. -/
theorem readAhead_brokenLine : (readAhead brokenLine 0 aheadVa).notifyDue = true := by
  have here : locOf aheadVa = .here 0 0x10001F := by decide +kernel
  obtain ⟨t, bs, read, due⟩ := readVa_brokenLine
  obtain ⟨w, v, copied, left⟩ := readOnly_due (c := ctxOf brokenLine 0 .control) (va := aheadVa) (n := 1) (hint := 3) here (absent := by decide +kernel) read due
  rw [readAhead_copies here (resident := by decide +kernel) (memory := by decide +kernel) (readable := by decide +kernel) (free := by decide +kernel) copied]
  exact left

/-- A step of the agenda that copies ahead ends without the notifications that end the run of an instruction. -/
theorem step_readAhead {s : State} {p va : Nat} (idle : s.ready = false) :
    step { s with agenda := [.readAhead p va] } = .next (readAhead { s with agenda := [] } p va) := by
  have still : lookAll { s with agenda := [.readAhead p va] } = { s with agenda := [.readAhead p va] } := if_neg (ne_true_of_eq_false idle)
  rw [step_cons rfl, still]; rfl

/-- Refutes O54 in its clause on the notifications of the error queue: nothing says that overlay lines stand at whole sectors. A copy ahead of a read of
byte 31 of a line that begins 31 bytes into a failing sector finds that byte's sector readable, meets the failing one all the same, and the step ends with
the error's notification due. -/
theorem not_nothingStopsTheDevice : ¬ Obligations.NothingStopsTheDevice := by
  unfold Obligations.NothingStopsTheDevice
  rintro ⟨-, -, stored⟩
  have left : (readAhead brokenLine 0 aheadVa).notifyDue = false := stored { brokenLine with agenda := [.readAhead 0 aheadVa] } _ (step_readAhead rfl) rfl
  rw [readAhead_brokenLine] at left
  exact Bool.noConfusion left

end Sys2Proof.Machine.Proofs
end
